-- ==== Sys2Proof/Word.lean ====
section
/-! DEFINITION. The two word widths of the AP-340: the bytes of tile slots and the 16-bit words of its links (R204, R206). -/

namespace Sys2Proof

/-- A byte of a tile slot, or one pixel: 0 for full ink, 255 for bare paper (00, "Tile"). -/
abbrev Byte := BitVec 8

/-- A word of a desk link (10, "16-bit, word-framed"). -/
abbrev Word := BitVec 16

end Sys2Proof
end

