-- ==== Sys2Proof/Syntax.lean ====
section
/-! DEFINITION. The commands of the AP-340: one constructor for each row of spec/opcode_table.json. -/

namespace Sys2Proof

/-- The three links (10, "three desk links"). -/
inductive LinkId where
  | production
  | desk
  | sales
  deriving DecidableEq, Repr

/-- A byte of the slot being read that the DRAM no longer holds as written: its offset in the slot (0..4,095 data,
4,096 and 4,097 the check word) and the byte now there. It is how a tile comes to be damaged (log 7). -/
abbrev Upset := Nat × Byte

/-- A command: a request that a link takes, a frame that arrives, a completion, a timer or an event of the appliance.
A request carries its link, its tag and its parameter words (R204, R205). -/
inductive Instr where
  /-- POWER_UP (R67). Power comes up, with the levels of STANDBY_OK and SIZE, whether RESET is held through it, and whether the DRAM changed the store header meanwhile (log 8). -/
  | powerUp (standbyOk sizeHigh resetHeld headerUpset : Bool)
  /-- RESET_ASSERT (R68). RESET is asserted: the DRAM goes to self-refresh, transfers in flight end, no frame is taken and READY is held low on every link. -/
  | resetAssert
  /-- RESET_RELEASE (R67). RESET is released, with the level of SIZE and whether the DRAM changed the store header meanwhile (log 8). -/
  | resetRelease (sizeHigh headerUpset : Bool)
  /-- REQUEST_FRAME_ARRIVES (R189). A frame that reads as a REQUEST arrives; `ws` are its words from the kind word on. -/
  | requestFrameArrives (l : LinkId) (ws : List Word)
  /-- FRAME_REFUSED (R188). A frame the receiver refuses arrives; `ws` are its words. -/
  | frameRefused (l : LinkId) (ws : List Word)
  /-- UNKNOWN_REQUEST_CODE (R190). The link takes a request whose code Table 11-4 does not list. -/
  | unknownRequestCode (l : LinkId) (tag : Byte) (code : Word) (ps : List Word)
  /-- TILE_FRAME (R28). A TILE frame arrives on the production link; `ws` are its words. -/
  | tileFrame (ws : List Word)
  /-- TILE_WRITE_COMPLETE (R29). The store write of the buffered deposit tile completes and the tile buffer empties. -/
  | tileWriteComplete
  /-- DEPOSIT_TIMEOUT (R31). The idle timer of deposit slot `slot` (0..3) expires. -/
  | depositTimeout (slot : Nat)
  /-- OPEN_EDITION (R23). The link takes this request: opens a new edition record in state OPEN. -/
  | openEdition (l : LinkId) (tag : Byte) (ps : List Word)
  /-- DEPOSIT_PAGE (R26). The link takes this request: creates a page entry, FILLING revision 0, its extent and a deposit slot. -/
  | depositPage (l : LinkId) (tag : Byte) (ps : List Word)
  /-- DEPOSIT_PHOTO (R27). The link takes this request: creates a FILLING photograph, its extent and a deposit slot. -/
  | depositPhoto (l : LinkId) (tag : Byte) (ps : List Word)
  /-- REPLATE_PAGE (R39). The link takes this request: adds a new FILLING revision to a page, dropping the oldest revision when the list is full and the drop check passes. -/
  | replatePage (l : LinkId) (tag : Byte) (ps : List Word)
  /-- CLOSE_EDITION (R40). The link takes this request: closes an edition at once, or sends it to CLOSING while revisions are still filling. -/
  | closeEdition (l : LinkId) (tag : Byte) (ps : List Word)
  /-- RETIRE_EDITION (R42). The link takes this request: makes an edition RETIRING, aborts its deposits, cancels its restoration jobs and checks for completion. -/
  | retireEdition (l : LinkId) (tag : Byte) (ps : List Word)
  /-- DISCARD_PHOTO (R45). The link takes this request: removes a COMPLETE photograph that nothing holds. -/
  | discardPhoto (l : LinkId) (tag : Byte) (ps : List Word)
  /-- ABANDON_DEPOSIT (R34). The link takes this request: aborts a running deposit with outcome ABANDONED. -/
  | abandonDeposit (l : LinkId) (tag : Byte) (ps : List Word)
  /-- DEPOSIT_STATUS (R35). The link takes this request: reports a running deposit, or reads and removes an ended-deposit entry. -/
  | depositStatus (l : LinkId) (tag : Byte) (ps : List Word)
  /-- SET_DEPOSIT_TIMEOUT (R36). The link takes this request: sets the deposit idle timeout used at later timer loads. -/
  | setDepositTimeout (l : LinkId) (tag : Byte) (ps : List Word)
  /-- SET_LOW_WATER (R57). The link takes this request: sets the low-water mark and evaluates SPACE_LOW again. -/
  | setLowWater (l : LinkId) (tag : Byte) (ps : List Word)
  /-- COMPACT (R58). The link takes this request: starts a compaction of n moves by placing a copy request in the work queue. -/
  | compact (l : LinkId) (tag : Byte) (ps : List Word)
  /-- SET_STORE (R80). The link takes this request: sets the quiet threshold and the refresh burst length. -/
  | setStore (l : LinkId) (tag : Byte) (ps : List Word)
  /-- COPY_READ_COMPLETE (R97). A compaction copy's read of an old slot completes and the channel issues the write to the target. -/
  | copyReadComplete (upset : List Upset)
  /-- COPY_WRITE_COMPLETE (R97). A compaction copy's write completes, advancing the copy or ending the move. -/
  | copyWriteComplete
  /-- REFRESH_DUE (R71). The refresh timer falls due and the refresh debt rises by 1, saturating at 8. -/
  | refreshDue
  /-- BURST_END (R72). A refresh burst ends, the debt falls by 1 and the arbiter chooses again. -/
  | burstEnd
  /-- ENTER_QUIET (R77). The idle time reaches a nonzero quiet threshold with FIXED count 0, and the store enters QUIET. -/
  | enterQuiet
  /-- WAKE_TIME_ENDS (R78). The 20 µs wake time ends, the store becomes ACTIVE and waiting requests are granted. -/
  | wakeTimeEnds
  /-- READ_PAGE (R100). The link takes this request: asks for a delivery of one rendition of a page revision, as a desk view or a fulfilment read. -/
  | readPage (l : LinkId) (tag : Byte) (ps : List Word)
  /-- READ_PHOTO (R101). The link takes this request: asks for a delivery of a photograph. -/
  | readPhoto (l : LinkId) (tag : Byte) (ps : List Word)
  /-- DELIVERY_READ_COMPLETE (R91). A channel's read for a delivery completes, the place becomes HELD, and the next read or the head offer follows. -/
  | deliveryReadComplete (upset : List Upset)
  /-- FIXED_PERIOD_BEGINS (R112). The next period of the FIXED delivery on channel `channel` (0..3) begins. -/
  | fixedPeriodBegins (channel : Nat)
  /-- FRAME_SENT (R194). The transmitter of link `l` sends the last word of its frame. -/
  | frameSent (l : LinkId)
  /-- STOP_DELIVERY (R117). The link takes this request: stops a named delivery at a tile boundary. -/
  | stopDelivery (l : LinkId) (tag : Byte) (ps : List Word)
  /-- DELIVERY_STATUS (R118). The link takes this request: reports a delivery record and frees a final one. -/
  | deliveryStatus (l : LinkId) (tag : Byte) (ps : List Word)
  /-- SET_PACING (R114). The link takes this request: sets the period P and depth L for later FIXED deliveries. -/
  | setPacing (l : LinkId) (tag : Byte) (ps : List Word)
  /-- RESTORE_PAGE (R123). The link takes this request: asks for a restoration: refused, answered ALREADY_RESTORED, a job joined, or a new job appended. -/
  | restorePage (l : LinkId) (tag : Byte) (ps : List Word)
  /-- CANCEL_RESTORE (R127). The link takes this request: cancels a job for the desk, or clears its desk flag when items still wait. -/
  | cancelRestore (l : LinkId) (tag : Byte) (ps : List Word)
  /-- RESTORE_STATUS (R128). The link takes this request: reports a queued job, or reads and removes an ended-job entry. -/
  | restoreStatus (l : LinkId) (tag : Byte) (ps : List Word)
  /-- SET_SURVEY (R129). The link takes this request: sets the survey settings for jobs that start later. -/
  | setSurvey (l : LinkId) (tag : Byte) (ps : List Word)
  /-- WRITE_PROFILE (R145). The link takes this request: stores a tone profile with a new check word and clears REPAIRED. -/
  | writeProfile (l : LinkId) (tag : Byte) (ps : List Word)
  /-- READ_PROFILE (R146). The link takes this request: reports a tone profile's values and REPAIRED mark. -/
  | readProfile (l : LinkId) (tag : Byte) (ps : List Word)
  /-- SURVEY_READ_COMPLETE (R132). A survey read of a raw tile completes and the tile is measured and applied to the page figures and the fade and void detectors. -/
  | surveyReadComplete (upset : List Upset)
  /-- CORRECTION_READ_COMPLETE (R140). A correction read completes and the tile is mapped or blanked and written to the scratch extent. -/
  | correctionReadComplete (upset : List Upset)
  /-- CORRECTION_WRITE_COMPLETE (R140). A scratch write completes, tiles corrected rises, and the job goes on, is cancelled or publishes. -/
  | correctionWriteComplete
  /-- OPEN_ACCOUNT (R151). The link takes this request: opens an ACTIVE account with a ceiling. -/
  | openAccount (l : LinkId) (tag : Byte) (ps : List Word)
  /-- SET_CEILING (R152). The link takes this request: sets an account's ceiling and evaluates the account. -/
  | setCeiling (l : LinkId) (tag : Byte) (ps : List Word)
  /-- SETTLE (R153). The link takes this request: lowers an account's owed units by a payment, clamped at 0, and evaluates the account. -/
  | settle (l : LinkId) (tag : Byte) (ps : List Word)
  /-- REMOVE_ACCOUNT (R154). The link takes this request: frees an account with no orders and nothing owed. -/
  | removeAccount (l : LinkId) (tag : Byte) (ps : List Word)
  /-- ACCOUNT_STATUS (R155). The link takes this request: reports an account, EXACT or NEXT. -/
  | accountStatus (l : LinkId) (tag : Byte) (ps : List Word)
  /-- WATCH_TIMER_EXPIRES (R157). The WATCH timer of the account of id `account` expires. -/
  | watchTimerExpires (account : Nat)
  /-- REINSTATING_TIMER_EXPIRES (R158). The REINSTATING timer of the account of id `account` expires. -/
  | reinstatingTimerExpires (account : Nat)
  /-- OPEN_ORDER (R161). The link takes this request: opens an order for an account with a new order id. -/
  | openOrder (l : LinkId) (tag : Byte) (ps : List Word)
  /-- ADD_ITEM (R163). The link takes this request: adds an item to an order, pinning its target and requesting a restoration for a RESTORED finish. -/
  | addItem (l : LinkId) (tag : Byte) (ps : List Word)
  /-- REMOVE_ITEM (R164). The link takes this request: removes an item from an order and unpins its target. -/
  | removeItem (l : LinkId) (tag : Byte) (ps : List Word)
  /-- CLOSE_ORDER (R165). The link takes this request: downgrades waiting items and makes the order CLOSED, or CLOSING while deliveries run. -/
  | closeOrder (l : LinkId) (tag : Byte) (ps : List Word)
  /-- ORDER_STATUS (R168). The link takes this request: reports an order summary or one item's detail. -/
  | orderStatus (l : LinkId) (tag : Byte) (ps : List Word)
  /-- RELEASE_ORDER (R167). The link takes this request: frees a CLOSED order and unpins its targets. -/
  | releaseOrder (l : LinkId) (tag : Byte) (ps : List Word)
  /-- WRITE_TARIFF (R174). The link takes this request: stores a tariff class, makes it SET and evaluates TARIFF_UNSET again. -/
  | writeTariff (l : LinkId) (tag : Byte) (ps : List Word)
  /-- READ_TARIFF (R175). The link takes this request: reports a tariff class's values or UNSET. -/
  | readTariff (l : LinkId) (tag : Byte) (ps : List Word)
  /-- SET_METER (R177). The link takes this request: sets the fee divisor and delays, resolving accumulators when a divisor is named. -/
  | setMeter (l : LinkId) (tag : Byte) (ps : List Word)
  /-- SET_DAY (R178). The link takes this request: sets the current day. -/
  | setDay (l : LinkId) (tag : Byte) (ps : List Word)
  /-- CREDIT (R185). The link takes this request: takes units from an order and its account with clamping, evaluates the account and logs the credit. -/
  | credit (l : LinkId) (tag : Byte) (ps : List Word)
  /-- METER_STATUS (R184). The link takes this request: reports the meter settings, class states and posting log, or one log entry in full. -/
  | meterStatus (l : LinkId) (tag : Byte) (ps : List Word)
  /-- EDITION_INFO (R18). The link takes this request: reports an edition record, EXACT or NEXT. -/
  | editionInfo (l : LinkId) (tag : Byte) (ps : List Word)
  /-- PAGE_INFO (R19). The link takes this request: reports a page summary or a revision's detail. -/
  | pageInfo (l : LinkId) (tag : Byte) (ps : List Word)
  /-- PHOTO_INFO (R20). The link takes this request: reports a photo record, EXACT or NEXT. -/
  | photoInfo (l : LinkId) (tag : Byte) (ps : List Word)
  /-- STORE_INFO (R81). The link takes this request: reports the store, allocator and compaction figures. -/
  | storeInfo (l : LinkId) (tag : Byte) (ps : List Word)
  /-- POLL (R200). The link takes this request: takes the best pending unmasked source into service. -/
  | poll (l : LinkId) (tag : Byte) (ps : List Word)
  /-- PEEK (R200). The link takes this request: reports what POLL would take and the controller's marks, changing nothing. -/
  | peek (l : LinkId) (tag : Byte) (ps : List Word)
  /-- END_NOTICE (R201). The link takes this request: ends the service of a named source, or of the best source in service. -/
  | endNotice (l : LinkId) (tag : Byte) (ps : List Word)
  /-- SET_NOTICE (R202). The link takes this request: writes source masks, priorities and the floor of the link's notice controller. -/
  | setNotice (l : LinkId) (tag : Byte) (ps : List Word)
  /-- LINK_RESET (R195). A LINK_RESET request whose parameter words are those of a request without fields arrives and is taken
  at once (R189, R205). With any parameter words it arrives as REQUEST_FRAME_ARRIVES. -/
  | linkReset (l : LinkId) (tag : Byte)
  /-- POWER_LOSS (R67). Power is lost; `dramKept` says whether the standby supply keeps the DRAM (log 8). -/
  | powerLoss (dramKept : Bool)
  deriving DecidableEq, Repr

end Sys2Proof
end

