-- ==== Sys2Proof/Decode.lean ====
section
/-! DEFINITION. The command that a word of the opcode table spells. -/

namespace Sys2Proof

/-- The table gives no row any bits, so no word spells a command: commands are frames, completions, timers and pins, whose
layouts Machine/Operands.lean reads (R188, R204, R205). -/
def decodeTableWord (_nbits _w : Nat) : Option Instr := none

end Sys2Proof
end

