-- ==== Sys2Proof/Config.lean ====
section
/-! DEFINITION. What the part fixes once: capacities, defaults and time steps the rules state, and the one free value. -/

namespace Sys2Proof.Config

/-! ## Time. The clock counts units of 0.2 microseconds, which divide every time the rules give (log 3). -/

/-- One refresh takes 7.8 µs of the refresh interval (R71). -/
def refreshStep : Nat := 39
/-- One step of the quiet threshold, 10 µs (R80). -/
def quietStep : Nat := 50
/-- The wake time of 20 µs (R78). -/
def wakeTime : Nat := 100
/-- One step of the period P, 100 µs (R114). -/
def periodStep : Nat := 500
/-- One step of an account timer, 100 ms (R150). -/
def accountStep : Nat := 500000
/-- One second of the deposit idle timeout (R36). -/
def second : Nat := 5000000

/-! ## Capacities -/

/-- Edition records (R1). -/
def maxEditions : Nat := 1024
/-- Page entries of the whole volume (R5). -/
def maxPages : Nat := 16384
/-- Photo records (R10). -/
def maxPhotos : Nat := 8192
/-- Extent records (R47). -/
def maxExtents : Nat := 32768
/-- Account records (R150). -/
def maxAccounts : Nat := 256
/-- Order records (R160). -/
def maxOrders : Nat := 64
/-- The greatest units of an order, owed units of an account, or ceiling (R150, R160). -/
def maxUnits : Nat := 16777215
/-- The value at which the 16-bit counts hold (R24, R73, R75, R107). -/
def maxCount : Nat := 65535

/-! ## Defaults after every start -/

/-- The low-water mark (R57). -/
def defaultLowWater : Nat := 4096
/-- The quiet threshold, 500 µs (R80). -/
def defaultQuiet : Nat := 50
/-- The refresh burst length (R80). -/
def defaultBurst : Nat := 8
/-- The deposit idle timeout in seconds (R36). -/
def defaultTimeout : Nat := 30
/-- The period P (R114). -/
def defaultPeriod : Nat := 20
/-- The depth L (R114). -/
def defaultDepth : Nat := 4
/-- The fee divisor of a repaired meter record (R176). -/
def defaultDivisor : Nat := 1000
/-- The cut-off delay of a repaired meter record, 60 s (R176). -/
def defaultCutOff : Nat := 600
/-- The reinstate delay of a repaired meter record, 10 s (R176). -/
def defaultReinstate : Nat := 100

/-- The slot count the SIZE strap calls for: 1 GiB when low, 2 GiB when high (R66). -/
def slotCount (sizeHigh : Bool) : Nat := if sizeHigh then 524288 else 262144

/-- The free value: words whose contents the manual does not state. The n-th use takes the n-th value (log 16). -/
opaque freeWord : Nat → Word

end Sys2Proof.Config
end

