-- ==== Sys2Proof/Machine/Check.lean ====
section
/-! DEFINITION. The check code of R206, which guards tiles, the store header, the tone profiles, the tariff classes and
the meter settings. -/

namespace Sys2Proof.Machine

/-- One bit of the code: a shift, and the generator 1021h when a one leaves at the top (R206). -/
def checkBit (c : Nat) : Nat :=
  if 32768 ≤ c then ((2 * c) % 65536) ^^^ 0x1021 else 2 * c

/-- One byte of the code, most significant bit first, with no reflection (R206). -/
def checkByte (c : Nat) (b : Byte) : Nat :=
  checkBit (checkBit (checkBit (checkBit (checkBit (checkBit (checkBit (checkBit (c ^^^ (256 * b.toNat)))))))))

/-- The check word over a run of bytes: initial value FFFFh and no final inversion (R206). -/
def checkBytes (bs : List Byte) : Word := BitVec.ofNat 16 (bs.foldl checkByte 0xFFFF)

/-- The high byte of a 16-bit value. -/
def hiByte (n : Nat) : Byte := BitVec.ofNat 8 (n / 256)

/-- The low byte of a 16-bit value. -/
def loByte (n : Nat) : Byte := BitVec.ofNat 8 n

/-- A run of 16-bit values as bytes, the high byte first (R206). -/
def bytesOfValues (vs : List Nat) : List Byte := vs.flatMap fun v => [hiByte v, loByte v]

/-- The check word of a record that is a run of 16-bit values (R206). -/
def checkValues (vs : List Nat) : Word := checkBytes (bytesOfValues vs)

/-- The check word of a store header: the slot count as two words, the high word first (R66, R206). -/
def checkHeader (slotCount : Nat) : Word := checkValues [slotCount / 65536, slotCount % 65536]

end Sys2Proof.Machine
end

