-- ==== Sys2Proof/Machine/State.lean ====
section
/-! DEFINITION. The state of the AP-340 as plain data, block by block, and the state right after reset. -/

namespace Sys2Proof.Machine

/-- Why the part stops. The spec gives it no fault of its own. -/
inductive Fault where
  /-- Raised by a transfer's completion when its slot number is not below the slot count: the slot does not exist
  (R66). Safe: no run from reset reaches it (log 26). -/
  | noSuchSlot
  deriving DecidableEq, Repr

/-- Why a command has no meaning. -/
inductive Refusal where
  /-- Raised by exec for a command this model has no meaning for. Safe. No command is left so. -/
  | notModelled (mnemonic : String)
  deriving DecidableEq, Repr

/-! ## Small records -/

/-- Four like things, numbered 0 to 3: the deposit slots and the mover channels. -/
structure Four (α : Type) where
  at0 : α
  at1 : α
  at2 : α
  at3 : α
  deriving DecidableEq, Repr

/-- A page revision by name: edition id, page number and revision number (R17). -/
structure RevName where
  edition : Nat
  page : Nat
  revision : Nat
  deriving DecidableEq, Repr

/-- What a deposit, a delivery or an item names (R24, R107, R162). -/
inductive Target where
  | page (r : RevName)
  | photo (id : Nat)
  deriving DecidableEq, Repr

/-- RAW or RESTORED (00, "Rendition"). -/
inductive Rendition where
  | raw
  | restored
  deriving DecidableEq, Repr

/-- One tile as the store keeps it: its data bytes and the check word beside them (R66). -/
structure Tile where
  bytes : List Byte
  check : Word
  deriving DecidableEq, Repr

/-- A region of tiles (R103). -/
structure Region where
  x0 : Nat
  y0 : Nat
  w : Nat
  h : Nat
  deriving DecidableEq, Repr

/-- A walk: region, step, order (COLUMNS or ROWS) and directions (BACKWARD or FORWARD) (R88). -/
structure Walk where
  region : Region
  step : Nat
  columns : Bool
  xBack : Bool
  yBack : Bool
  deriving DecidableEq, Repr

/-! ## The edition catalogue (chapter 1) -/

/-- Edition states of Table 1-2, in its order. -/
inductive EditionState where
  | opened
  | closing
  | closed
  | retiring
  deriving DecidableEq, Repr

/-- FILLING or COMPLETE (R6, R10). -/
inductive FillState where
  | filling
  | complete
  deriving DecidableEq, Repr

/-- One entry of a damaged-tile list (R9). -/
structure DamageEntry where
  index : Nat
  rendition : Rendition
  deriving DecidableEq, Repr

/-- A damaged-tile list of up to 8 entries with its DAMAGE_OVERFLOW flag (R9). -/
structure DamageList where
  entries : List DamageEntry := []
  overflow : Bool := false
  deriving DecidableEq, Repr

/-- AUTO or a numbered profile (R8). -/
inductive ToneSource where
  | auto
  | profile (n : Nat)
  deriving DecidableEq, Repr

/-- The tone values B, W and S (R138). -/
structure Tone where
  b : Nat
  w : Nat
  s : Nat
  deriving DecidableEq, Repr

/-- The two kinds of defect (R136). -/
inductive DefectKind where
  | fadedBand
  | voidRun
  deriving DecidableEq, Repr

/-- A defect: its kind, first linear tile index and length (R136). -/
structure Defect where
  kind : DefectKind
  first : Nat
  length : Nat
  deriving DecidableEq, Repr

/-- A restored rendition (R8). `extent` is the number of its extent record. -/
structure Restored where
  extent : Nat
  source : ToneSource
  tone : Tone
  lowRange : Bool
  defects : List Defect
  defectsOverflow : Bool
  changed : Nat
  blanked : Nat
  deriving DecidableEq, Repr

/-- A page revision (R6). `raw` is the number of its raw extent's record. -/
structure Revision where
  number : Nat
  state : FillState
  width : Nat
  height : Nat
  cls : Nat
  raw : Nat
  restored : Option Restored := none
  damage : DamageList := {}
  photos : List Nat
  pins : Nat := 0
  deriving DecidableEq, Repr

/-- A page entry, held by its edition (R5). The revision list stands oldest first. -/
structure Page where
  number : Nat
  revs : List Revision
  lastIssued : Nat
  deriving DecidableEq, Repr

/-- An edition record in use (R1). `retireReplied` is the model's own mark that RETIRE_EDITION has answered (log 29). -/
structure Edition where
  id : Nat
  issueDay : Nat
  number : Nat
  state : EditionState := .opened
  pages : List Page := []
  filling : Nat := 0
  retireReplied : Bool := false
  deriving DecidableEq, Repr

/-- A photo record in use (R10). -/
structure Photo where
  id : Nat
  width : Nat
  height : Nat
  cls : Nat
  extent : Nat
  state : FillState := .filling
  refs : List RevName := []
  damage : DamageList := {}
  pins : Nat := 0
  deriving DecidableEq, Repr

/-- The catalogue: the records in use, editions and photographs in ascending id. -/
structure Catalogue where
  editions : List Edition := []
  photos : List Photo := []
  deriving DecidableEq, Repr

/-! ## The slot allocator (chapter 3) -/

/-- Extent states of Table 3-1. -/
inductive ExtentState where
  | filling
  | building
  | live
  | moving
  | releasing
  deriving DecidableEq, Repr

/-- The owner of an extent: its kind and name (R47). -/
inductive Owner where
  | raw (r : RevName)
  | restored (r : RevName)
  | photo (id : Nat)
  deriving DecidableEq, Repr

/-- An extent record in use (R47). `number` is its place in the extent table (log 11). -/
structure Extent where
  number : Nat
  first : Nat
  size : Nat
  owner : Owner
  state : ExtentState
  readers : Nat := 0
  releasePending : Bool := false
  deriving DecidableEq, Repr

/-- A free run (R50). -/
structure FreeRun where
  first : Nat
  size : Nat
  deriving DecidableEq, Repr

/-- Compaction states (R58). -/
inductive CompactionState where
  | idle
  | waiting
  | copying
  deriving DecidableEq, Repr

/-- Outcomes of a compaction (R58, R62). -/
inductive CompactionOutcome where
  | none
  | done
  | nothingMovable
  | stopped
  deriving DecidableEq, Repr

/-- The current move (R58, R60). -/
structure Move where
  extent : Nat
  oldFirst : Nat
  target : Nat
  copied : Nat
  deriving DecidableEq, Repr

/-- The compaction record (R58). -/
structure Compaction where
  state : CompactionState := .idle
  asked : Nat := 0
  made : Nat := 0
  stop : Bool := false
  move : Option Move := none
  outcome : CompactionOutcome := .none
  outcomeMade : Nat := 0
  deriving DecidableEq, Repr

/-- The allocator: extent records in ascending number, free runs in ascending first slot (R47, R50). -/
structure Allocator where
  extents : List Extent := []
  runs : List FreeRun
  lowWater : Nat := Config.defaultLowWater
  compaction : Compaction := {}
  deriving DecidableEq, Repr

/-! ## The page store (chapter 4) -/

/-- The store header (R66). -/
structure StoreHeader where
  slotCount : Nat
  check : Word
  deriving DecidableEq, Repr

/-- Kinds of start, in the order of R81. -/
inductive StartKind where
  | cold
  | coldByHeader
  | warmPower
  | warmReset
  deriving DecidableEq, Repr

/-- Store states (R77). -/
inductive StoreState where
  | active
  | quiet
  | waking
  deriving DecidableEq, Repr

/-- The six transfer clients (R69). -/
inductive Client where
  | deposit
  | channel (n : Fin 4)
  | restoration
  deriving DecidableEq, Repr

/-- What a transfer does: a read, or a write of data with the check word it carries, if any (R69). -/
inductive TransferKind where
  | read
  | write (bytes : List Byte) (check : Option Word)
  deriving DecidableEq, Repr

/-- A transfer request of one client for one slot (R69). -/
structure Transfer where
  client : Client
  slot : Nat
  kind : TransferKind
  deriving DecidableEq, Repr

/-- Who read a damaged tile (R75). -/
inductive ReaderKind where
  | delivery
  | restoration
  | copy
  deriving DecidableEq, Repr

/-- The last damage record: the slot, the reader kind and the owner with the tile index, or no owner (R75). -/
structure DamageRecord where
  slot : Nat
  reader : ReaderKind
  owner : Option (Owner × Nat)
  deriving DecidableEq, Repr

/-- The page store. Moments are on the model's clock (log 3). The granted transfer is `inFlight`, or `withdrawn` once its
client has withdrawn it: it runs on to its end and is not reported (R69). -/
structure Store where
  mem : List Host.Cell := []
  header : StoreHeader
  slotCount : Nat
  sizeHigh : Bool
  lastStart : StartKind
  state : StoreState := .active
  selfRefresh : Bool := false
  debt : Nat := 0
  refreshDue : Option Nat
  burst : Option Nat := none
  halted : Bool := false
  haltCount : Nat := 0
  fixedCount : Nat := 0
  quietThreshold : Nat := Config.defaultQuiet
  burstLength : Nat := Config.defaultBurst
  damagedReads : Nat := 0
  lastDamage : Option DamageRecord := none
  waiting : List Transfer := []
  inFlight : Option Transfer := none
  withdrawn : Option Transfer := none
  pointer : Client := .deposit
  idleSince : Option Nat
  wakeEnds : Option Nat := none
  deriving DecidableEq, Repr

/-! ## The deposit port (chapter 2) -/

/-- A deposit slot that is not FREE (R24). `expires` is the moment the idle timer runs out, or none when it is stopped. -/
structure Deposit where
  handle : Nat
  target : Target
  extent : Nat
  total : Nat
  next : Nat
  finishing : Bool
  expires : Option Nat
  checkRefusals : Nat := 0
  orderRefusals : Nat := 0
  deriving DecidableEq, Repr

/-- The tile in the tile buffer (R29). -/
structure BufferedTile where
  handle : Nat
  index : Nat
  tile : Tile
  deriving DecidableEq, Repr

/-- Outcomes of a deposit (R33). -/
inductive DepositOutcome where
  | done
  | timedOut
  | abandoned
  | retired
  deriving DecidableEq, Repr

/-- An entry of the ended-deposit list (R33). -/
structure EndedDeposit where
  handle : Nat
  target : Target
  outcome : DepositOutcome
  accepted : Nat
  total : Nat
  checkRefusals : Nat
  orderRefusals : Nat
  deriving DecidableEq, Repr

/-- The deposit port (R24). A slot that is FREE is none. -/
structure DepositPort where
  slots : Four (Option Deposit) := ⟨none, none, none, none⟩
  buffer : Option BufferedTile := none
  ended : List EndedDeposit := []
  lastHandle : Nat := 0
  timeout : Nat := Config.defaultTimeout
  deriving DecidableEq, Repr

/-! ## The tile mover (chapter 5) -/

/-- Channel states (R84). -/
inductive ChannelState where
  | idle
  | running
  | stopping
  deriving DecidableEq, Repr

/-- The work of a channel (R83). -/
inductive Work where
  | delivery (handle : Nat)
  | copy
  deriving DecidableEq, Repr

/-- States of a place that is in use (Table 5-1); a FREE place stands in no list. -/
inductive PlaceState where
  | reading
  | held
  | offered
  | sending
  | writing
  deriving DecidableEq, Repr

/-- A place in use of a read-ahead buffer (R83). `tile` is absent while the place is READING. -/
structure Place where
  state : PlaceState
  index : Nat
  tile : Option Tile := none
  damaged : Bool := false
  deriving DecidableEq, Repr

/-- The frame of a period of a FIXED delivery that the link has not taken: the next tile or a FILL frame with its
index, and whether it is offered or still waits for an earlier frame to end (R112). -/
structure PeriodFrame where
  fill : Option Nat
  offered : Bool
  deriving DecidableEq, Repr

/-- A mover channel (R83). `buffer` holds the places in use, head first. `started`, `period`, `periodFrame` and
`sendingFill` pace a FIXED delivery (R90, R112). -/
structure Channel where
  state : ChannelState := .idle
  work : Option Work := none
  line : Nat := 0
  place : Nat := 0
  nextCopy : Nat := 0
  terminal : Nat := 0
  buffer : List Place := []
  started : Nat := 0
  period : Nat := 0
  periodFrame : Option PeriodFrame := none
  sendingFill : Option Nat := none
  deriving DecidableEq, Repr

/-- The tile mover: its channels and the work queue, the waiting deliveries oldest first and the copy request (R85). -/
structure Mover where
  channels : Four Channel := ⟨{}, {}, {}, {}⟩
  queue : List Nat := []
  copyRequest : Bool := false
  deriving DecidableEq, Repr

/-! ## The delivery table (chapter 6) -/

/-- The figures a fulfilment read captures at its acceptance (R106). -/
structure Figures where
  rate : Nat
  creep : Nat
  ageThreshold : Nat
  surcharge : Nat
  discount : Nat
  age : Nat
  repeated : Bool
  deriving DecidableEq, Repr

/-- Delivery states of Table 6-4, in its order. -/
inductive DeliveryState where
  | waiting
  | running
  | stopping
  | done
  | stopped
  | failed
  deriving DecidableEq, Repr

/-- End causes (R107). -/
inductive EndCause where
  | completed
  | requested
  | cutOff
  | linkLate
  deriving DecidableEq, Repr

/-- The period P and depth L of a FIXED delivery (R107, R114). -/
structure Pacing where
  period : Nat
  depth : Nat
  deriving DecidableEq, Repr

/-- A delivery record in use (R107). `pacing` is absent in VARIABLE mode, `order` (order id, item number) and `figures`
for a desk view. `cause` is set when the delivery is stopped or fails, and is reported once it has ended. -/
structure Delivery where
  handle : Nat
  target : Target
  rendition : Rendition
  extent : Nat
  walk : Walk
  imageWidth : Nat
  pacing : Option Pacing
  order : Option (Nat × Nat)
  figures : Option Figures
  state : DeliveryState := .waiting
  channel : Option (Fin 4) := none
  sent : Nat := 0
  damaged : Nat := 0
  fills : Nat := 0
  cause : Option EndCause := none
  deriving DecidableEq, Repr

/-- The delivery table and the pacing settings (R107, R108, R114). -/
structure DeliveryTable where
  records : List Delivery := []
  lastHandle : Nat := 0
  period : Nat := Config.defaultPeriod
  depth : Nat := Config.defaultDepth
  deriving DecidableEq, Repr

/-! ## The restoration engine (chapter 7) -/

/-- Job states of Table 7-2, in its order. -/
inductive JobState where
  | queued
  | surveying
  | correcting
  | done
  | failed
  | cancelled
  deriving DecidableEq, Repr

/-- Causes of a cancel mark (R121). -/
inductive CancelCause where
  | requested
  | noRequester
  | retired
  deriving DecidableEq, Repr

/-- End causes of a job, in the order of R121. -/
inductive JobEnd where
  | published
  | noSpace
  | damageOverflow
  | requested
  | noRequester
  | retired
  deriving DecidableEq, Repr

/-- Why an allocation is refused (R51). -/
inductive AllocRefusal where
  | noSpace (fragmented : Bool)
  | extentTable
  deriving DecidableEq, Repr

/-- The four survey settings, with their defaults (R129). -/
structure SurveySettings where
  edge : Nat := 48
  contrast : Nat := 40
  fadeRun : Nat := 4
  voidLimit : Nat := 6
  deriving DecidableEq, Repr

/-- A detector's open defect: none, one kept in the defect list at a position, or one the full list did not keep (R136). -/
inductive OpenDefect where
  | closed
  | kept (position : Nat)
  | notKept
  deriving DecidableEq, Repr

/-- A restoration job (R121). -/
structure Job where
  id : Nat
  revision : RevName
  source : ToneSource
  desk : Bool
  requesters : List (Nat × Nat) := []
  state : JobState := .queued
  cancel : Option CancelCause := none
  settings : SurveySettings := {}
  profileTone : Option Tone := none
  surveyed : Nat := 0
  fadeCounter : Nat := 0
  voidCounter : Nat := 0
  openBand : OpenDefect := .closed
  openVoid : OpenDefect := .closed
  inStatistics : Nat := 0
  faint : Nat := 0
  bAuto : Nat := 0
  wAuto : Nat := 0
  defects : List Defect := []
  defectsOverflow : Bool := false
  tone : Option Tone := none
  lowRange : Bool := false
  scratch : Option Nat := none
  corrected : Nat := 0
  changed : Nat := 0
  blanked : Nat := 0
  endCause : Option JobEnd := none
  allocRefusal : Option AllocRefusal := none
  deriving DecidableEq, Repr

/-- A tone profile (R145). -/
structure Profile where
  tone : Tone
  check : Word
  repaired : Bool
  deriving DecidableEq, Repr

/-- The restoration engine (R122, R128, R129, R145). -/
structure Engine where
  queue : List Job := []
  ended : List Job := []
  lastId : Nat := 0
  settings : SurveySettings := {}
  profiles : List Profile
  deriving DecidableEq, Repr

/-! ## Orders and accounts (chapter 8) -/

/-- Account statuses (R150). -/
inductive AccountStatus where
  | active
  | watch
  | cutOff
  | reinstating
  deriving DecidableEq, Repr

/-- An account record in use (R150). `timer` is the moment it runs out, or none when it is stopped. -/
structure Account where
  id : Nat
  owed : Nat := 0
  ceiling : Nat
  status : AccountStatus := .active
  timer : Option Nat := none
  orderCount : Nat := 0
  deriving DecidableEq, Repr

/-- Item states (R162). -/
inductive ItemState where
  | waitingRestore
  | ready
  | inDelivery
  | delivered
  deriving DecidableEq, Repr

/-- An item (R162). -/
structure Item where
  number : Nat
  target : Target
  finish : Rendition
  walk : Walk
  state : ItemState
  downgraded : Bool := false
  deriving DecidableEq, Repr

/-- Order states (R160). -/
inductive OrderState where
  | opened
  | closing
  | closed
  deriving DecidableEq, Repr

/-- An order record in use (R160). Items stand in ascending number. -/
structure Order where
  id : Nat
  account : Nat
  discount : Nat
  state : OrderState := .opened
  accumulator : Nat := 0
  units : Nat := 0
  saturated : Bool := false
  clamped : Bool := false
  inFlight : Nat := 0
  items : List Item := []
  deriving DecidableEq, Repr

/-- The order and account block: records in use in ascending id (R150, R160, R161). -/
structure OrderBook where
  accounts : List Account := []
  orders : List Order := []
  lastOrderId : Nat := 0
  deriving DecidableEq, Repr

/-! ## The fee meter (chapter 9) -/

/-- A tariff class (R172). -/
structure Tariff where
  rt : Nat
  rr : Nat
  c : Nat
  a : Nat
  s : Nat
  check : Word
  set : Bool
  deriving DecidableEq, Repr

/-- The meter settings record (R176). -/
structure MeterSettings where
  divisor : Nat
  cutOff : Nat
  reinstate : Nat
  check : Word
  deriving DecidableEq, Repr

/-- Outcomes of a posting, in the order of R184. -/
inductive PostingOutcome where
  | charged
  | crept
  | repeated
  | unset
  deriving DecidableEq, Repr

/-- An entry of the posting log (R184). -/
inductive LogEntry where
  /-- A DELIVERY or RESTORE posting. `work` is the delivery handle or the job id. -/
  | posting (restore : Bool) (order item work count gross aged net q : Nat) (outcome : PostingOutcome)
      (orderSaturated owedSaturated : Bool)
  | credit (order named fromOrder fromAccount : Nat) (orderClamped owedClamped : Bool)
  deriving DecidableEq, Repr

/-- The fee meter (R172, R176, R178, R184). -/
structure Meter where
  tariffs : List Tariff
  settings : MeterSettings
  repaired : Bool
  day : Nat := 0
  log : List LogEntry := []
  deriving DecidableEq, Repr

/-! ## Links and notices (chapters 10 and 11) -/

/-- Result codes of Table 11-5. -/
inductive Result where
  | ok | accepted | wrongLink | badValue | badRange | noEdition | editionExists | notOpen | closing | retiring
  | emptyEdition | ordered | noPage | pageExists | noRevision | filling | revisionsBusy | noPhoto | photoExists
  | photoRefsFull | inUse | noSpace | tableFull | noDeposit | tileOrder | checkError | noDeliverySlot | emptyRegion
  | notRestored | notRestorable | alreadyRestored | queueFull | jobFull | noAccount | accountExists | accountBusy
  | noOrder | orderClosed | itemsFull | notOrdered | itemBusy | notReady | cutOff | tariffUnset | nothingPending
  deriving DecidableEq, Repr

/-- One field of a reply: one word, two words, a packed run of words, or a field this reply leaves out (R205). -/
inductive Field where
  | one (n : Nat)
  | two (n : Nat)
  | many (ws : List Nat)
  | absent
  deriving DecidableEq, Repr

/-- What a request is answered with: result, reply flags and fields (R204, R205). -/
structure Answer where
  result : Result
  clipped : Bool := false
  fragmented : Bool := false
  repeated : Bool := false
  fields : List Field := []
  deriving DecidableEq, Repr

/-- A REPLY frame (R204). -/
structure Reply where
  tag : Byte
  answer : Answer
  deriving DecidableEq, Repr

/-- A REQUEST frame: tag, request code and parameter words (R204). -/
structure Request where
  tag : Byte
  code : Word
  params : List Word
  deriving DecidableEq, Repr

/-- What the receiver holds back: a request for want of a queue place, a tile frame for want of the tile buffer or a
reply place, or a refusal for want of a reply place (R188, R189, R193). -/
inductive Held where
  | request (r : Request)
  | tile (handle index : Nat) (t : Tile)
  | refusal (r : Reply)
  deriving DecidableEq, Repr

/-- What a transmitter is sending: the oldest reply of its link, or the frame of a channel (R194). -/
inductive Sending where
  | reply
  | channel (n : Fin 4)
  deriving DecidableEq, Repr

/-- One source of a notice controller (R197). `latched` is the pending mark of an EDGE source; the pending mark of a
LEVEL source is its condition (R198). -/
structure Source where
  mask : Bool := true
  priority : Nat := 7
  latched : Bool := false
  inService : Bool := false
  deriving DecidableEq, Repr

/-- A notice controller (R197). -/
structure Controller where
  sources : List Source
  floor : Nat := 8
  deriving DecidableEq, Repr

/-- A link (10): request queue, held frame, reply places, transmitter and notice controller. -/
structure Link where
  queue : List Request := []
  held : Option Held := none
  replies : List Reply := []
  sending : Option Sending := none
  notices : Controller
  deriving DecidableEq, Repr

/-! ## The whole part -/

/-- Power: off, held in RESET (`powerUp` when RESET was held through power-up), or running (R67, R68). -/
inductive Power where
  | off
  | inReset (powerUp : Bool)
  | running
  deriving DecidableEq, Repr

/-- The state of the AP-340 and the queue of commands that wait. `sizeMoves` holds the moves of the SIZE input strap after
the last start, oldest first: the moment of each on the model's clock and the level it moves to. They are placed from
outside, as the commands in `pending` are (log 41). -/
structure State where
  power : Power
  standbyOk : Bool
  sizeMoves : List (Nat × Bool)
  now : Nat
  freeCount : Nat
  cat : Catalogue
  alloc : Allocator
  store : Store
  port : DepositPort
  mover : Mover
  table : DeliveryTable
  engine : Engine
  book : OrderBook
  meter : Meter
  production : Link
  desk : Link
  sales : Link
  deskTurn : Fin 4
  pending : List Instr
  deriving DecidableEq, Repr

/-- The start state of a controller of `n` sources: all masked, priorities 7, floor 8, no marks (R203). -/
def Controller.start (n : Nat) : Controller := { sources := List.replicate n {} }

/-- A link after a start, with a controller of `n` sources (R189, R192, R194, R203). -/
def Link.start (n : Nat) : Link := { notices := Controller.start n }

/-- The identity profile a repair stores, marked REPAIRED (R147). -/
def Profile.identity : Profile := { tone := ⟨0, 255, 0⟩, check := checkValues [0, 255, 0], repaired := true }

/-- A tariff class that was never written: its check word does not match, so it is UNSET (R173, log 5). -/
def Tariff.blank : Tariff := { rt := 0, rr := 0, c := 0, a := 0, s := 0, check := 0, set := false }

/-- The meter settings a repair stores (R176). -/
def MeterSettings.default : MeterSettings :=
  { divisor := Config.defaultDivisor, cutOff := Config.defaultCutOff, reinstate := Config.defaultReinstate
    check := checkValues [Config.defaultDivisor, Config.defaultCutOff, Config.defaultReinstate] }

/-- A header that holds a slot count with its check word (R66). -/
def StoreHeader.good (n : Nat) : StoreHeader := { slotCount := n, check := checkHeader n }

/-- The store after a cold start at moment `now` (R82). -/
def Store.coldStart (sizeHigh : Bool) (kind : StartKind) (now : Nat) : Store :=
  { header := StoreHeader.good (Config.slotCount sizeHigh), slotCount := Config.slotCount sizeHigh, sizeHigh
    lastStart := kind, refreshDue := some (now + Config.defaultBurst * Config.refreshStep), idleSince := some now }

/-- The allocator after a cold start (R64). -/
def Allocator.coldStart (slotCount : Nat) : Allocator := { runs := [⟨0, slotCount⟩] }

/-- The part right after reset: a cold start at power-up with STANDBY_OK and SIZE low and a non-volatile memory that was
never written (R21, R24, R64, R82, R99, R120, R148, R169, R187, R203, log 5). -/
def State.reset : State where
  power := .running
  standbyOk := false
  sizeMoves := []
  now := 0
  freeCount := 0
  cat := {}
  alloc := Allocator.coldStart 262144
  store := Store.coldStart false .cold 0
  port := {}
  mover := {}
  table := {}
  engine := { profiles := List.replicate 32 Profile.identity }
  book := {}
  meter := { tariffs := List.replicate 16 Tariff.blank, settings := MeterSettings.default, repaired := true }
  production := Link.start 7
  desk := Link.start 4
  sales := Link.start 7
  deskTurn := 3
  pending := []

/-- What a meaning answers. -/
abbrev Outcome := Host.Outcome State Fault Refusal

end Sys2Proof.Machine
end

