-- ==== Sys2Proof/Machine/Operands.lean ====
section
/-! DEFINITION. Operand forms: frames as words (R188, R204), the parameter words of a request (R205), tile data (R206),
the words of replies and of outgoing frames (R204, R205), and Tables 11-1 to 11-5. -/

namespace Sys2Proof.Machine

/-! ## Kind words and codes -/

/-- Kind words of Table 11-1. -/
def kindRequest : Nat := 0x9C01
def kindReply : Nat := 0x9C02
def kindTile : Nat := 0x9C03
def kindFill : Nat := 0x9C04
def kindDamaged : Nat := 0x9C05

/-- The request code of LINK_RESET, which the receiver recognises (R189, Table 11-4). -/
def linkResetCode : Nat := 0x7F

/-- Every request code of Table 11-4. -/
def requestCodes : List Nat :=
  [0x10, 0x11, 0x12, 0x13, 0x14, 0x15, 0x16, 0x17, 0x18, 0x19, 0x1A, 0x1B, 0x1C,
   0x30, 0x31, 0x32, 0x33, 0x34, 0x35, 0x36, 0x37, 0x38, 0x39, 0x3A,
   0x50, 0x51, 0x52, 0x53, 0x54, 0x55, 0x56, 0x57, 0x58, 0x59, 0x5A, 0x5B, 0x5C, 0x5D, 0x5E, 0x5F, 0x60,
   0x70, 0x71, 0x72, 0x73, 0x74, 0x75, 0x76, 0x77, 0x7F]

/-- Result code values of Table 11-5. -/
def Result.code : Result → Nat
  | .ok => 0x00 | .accepted => 0x01 | .wrongLink => 0x02 | .badValue => 0x03 | .badRange => 0x04
  | .noEdition => 0x05 | .editionExists => 0x06 | .notOpen => 0x07 | .closing => 0x08 | .retiring => 0x09
  | .emptyEdition => 0x0A | .ordered => 0x0B | .noPage => 0x0C | .pageExists => 0x0D | .noRevision => 0x0E
  | .filling => 0x0F | .revisionsBusy => 0x10 | .noPhoto => 0x11 | .photoExists => 0x12 | .photoRefsFull => 0x13
  | .inUse => 0x14 | .noSpace => 0x15 | .tableFull => 0x16 | .noDeposit => 0x17 | .tileOrder => 0x18
  | .checkError => 0x19 | .noDeliverySlot => 0x1A | .emptyRegion => 0x1B | .notRestored => 0x1C
  | .notRestorable => 0x1D | .alreadyRestored => 0x1E | .queueFull => 0x1F | .jobFull => 0x20 | .noAccount => 0x21
  | .accountExists => 0x22 | .accountBusy => 0x23 | .noOrder => 0x24 | .orderClosed => 0x25 | .itemsFull => 0x26
  | .notOrdered => 0x27 | .itemBusy => 0x28 | .notReady => 0x29 | .cutOff => 0x2A | .tariffUnset => 0x2B
  | .nothingPending => 0x2C

/-- The links a request belongs to (Table 10-2). -/
inductive Home where
  | only (l : LinkId)
  | all
  deriving DecidableEq, Repr

/-- A request is taken on its own link, a common request on all three (R191). -/
def Home.allows : Home → LinkId → Bool
  | .only h, l => h = l
  | .all, _ => true

/-! ## Answers -/

/-- OK with fields. -/
def Answer.ok (fields : List Field) : Answer := { result := .ok, fields }

/-- A refusal: it carries no parameters (R204). -/
def Answer.refuse (r : Result) : Answer := { result := r }

/-- TABLE_FULL with the table's number of Table 11-3. -/
def Answer.tableFull (table : Nat) : Answer := { result := .tableFull, fields := [.one table] }

/-- An allocation refusal: NO_SPACE with the free total and the size asked, or TABLE_FULL naming EXTENT_TABLE (R204). -/
def Answer.allocation (freeTotal asked : Nat) : AllocRefusal → Answer
  | .noSpace frag => { result := .noSpace, fragmented := frag, fields := [.two freeTotal, .two asked] }
  | .extentTable => Answer.tableFull 5

/-- A mark as a word: 1 when it is set (log 15). -/
def Field.mark (b : Bool) : Field := .one b.toNat

/-- A one-word value that may be absent (R205). -/
def Field.ofOption : Option Nat → Field
  | some n => .one n
  | none => .absent

/-! ## Incoming frames -/

/-- What the receiver makes of a frame (R188). -/
inductive Sorted where
  | request (r : Request)
  | tile (handle index : Nat) (t : Tile)
  | refused (r : Reply)
  deriving DecidableEq, Repr

/-- Tile data words as pixels: each word carries one pixel in its high byte and the next in its low byte (R206). -/
def pixelsOfWords (ws : List Word) : List Byte := ws.flatMap fun w => [hiByte w.toNat, loByte w.toNat]

/-- The handle and index a TILE frame's reply names, when the frame held them (R188). DESIGN CHOICE: the refusal of a frame
that ends before its index carries neither, on every link (log 53). -/
def handleAndIndex : List Word → List Field
  | h :: i :: _ => [.one h.toNat, .one i.toNat]
  | _ => []

/-- A refusal the receiver makes (R188). -/
def refusal (tag : Byte) (r : Result) (fields : List Field) : Sorted :=
  .refused { tag, answer := { result := r, fields } }

/-- Sorts a REQUEST frame after its kind word: refused when its count is above 60 or its words end first, with the
frame's tag (R188). A frame that ends before its tag is refused with tag 0, and words past the count are not read (log 14). -/
def sortRequest : List Word → Sorted
  | head :: code :: rest =>
    let tag := hiByte head.toNat
    let count := head.toNat % 256
    if 60 < count ∨ rest.length < count then refusal tag .badValue []
    else .request { tag, code, params := rest.take count }
  | head :: [] => refusal (hiByte head.toNat) .badValue []
  | [] => refusal 0 .badValue []

/-- Sorts a TILE frame after its kind word. On the production link it has 2,052 words in all (R188, Table 11-2). -/
def sortTile (l : LinkId) (ws : List Word) : Sorted :=
  if l ≠ .production then refusal 0 .wrongLink (handleAndIndex ws)
  else if ws.length ≠ 2051 then refusal 0 .badValue (handleAndIndex ws)
  else .tile ((ws.getD 0 0).toNat) ((ws.getD 1 0).toNat)
    { bytes := pixelsOfWords ((ws.drop 2).take 2048), check := ws.getD 2050 0 }

/-- Sorts a frame of a link by its kind word (R188). -/
def sortFrame (l : LinkId) : List Word → Sorted
  | kind :: ws =>
    if kind.toNat = kindRequest then sortRequest ws
    else if kind.toNat = kindTile then sortTile l ws
    else refusal 0 .badValue []
  | [] => refusal 0 .badValue []

/-! ## Parameter words of a request -/

/-- How a field of a request is laid out: one word, two words high first, a region of four words, a counted list, or the
mask field of SET_NOTICE (R205). -/
inductive Layout where
  | one
  | two
  | region
  | list
  | mask
  deriving DecidableEq, Repr

/-- The fields of a request as read: each left out, or its values. -/
abbrev Fields := List (Option (List Nat))

/-- Reads one field of a layout; none when the words end before it does (R205). -/
def Layout.read : Layout → List Nat → Option (List Nat × List Nat)
  | .one, a :: ws => some ([a], ws)
  | .two, a :: b :: ws => some ([a * 65536 + b], ws)
  | .region, a :: b :: c :: d :: ws => some ([a, b, c, d], ws)
  | .list, n :: ws => if ws.length < n then none else some (ws.take n, ws.drop n)
  | .mask, a :: b :: ws => some ([a, b], ws)
  | _, _ => none

/-- Reads the present fields of a layout in order; `presence` has bit 0 for the first field. None when the words run
short, when words are left over, or when a presence bit stands above the last field (R205). -/
def readPresent : List Layout → Nat → List Nat → Option Fields
  | [], presence, ws => if presence = 0 ∧ ws = [] then some [] else none
  | f :: fs, presence, ws =>
    if presence % 2 = 0 then (readPresent fs (presence / 2) ws).map (none :: ·)
    else
      match f.read ws with
      | some (v, rest) => (readPresent fs (presence / 2) rest).map (some v :: ·)
      | none => none

/-- Reads the parameter words of a request: a presence word and the present fields (R205). With no parameter word every
field is left out (log 14). -/
def readFields (layout : List Layout) : List Word → Option Fields
  | [] => some (layout.map fun _ => none)
  | p :: ws => readPresent layout p.toNat (ws.map BitVec.toNat)

/-- The words of one field (R205). -/
def Layout.write : Layout → List Nat → List Nat
  | .two, v => [v.headD 0 / 65536, v.headD 0 % 65536]
  | .list, v => v.length :: v
  | _, v => v

/-- The presence word and the words of the present fields (R205). -/
def writePresent : List Layout → Fields → Nat × List Nat
  | f :: fs, v :: vs =>
    let (p, ws) := writePresent fs vs
    match v with
    | some x => (2 * p + 1, f.write x ++ ws)
    | none => (2 * p, ws)
  | _, _ => (0, [])

/-- The parameter words of a request as its master writes them (R205). -/
def writeFields (layout : List Layout) (fs : Fields) : List Word :=
  let (p, ws) := writePresent layout fs
  (p :: ws).map (BitVec.ofNat 16)

/-- The values of a field fill its layout: one word each, 32 bits for a two-word field, four words for a region, two for
the mask field, at most 65,535 entries for a list (R205). -/
def Layout.fits : Layout → List Nat → Bool
  | .one, v => v.length = 1 && v.all (· < 65536)
  | .two, v => v.length = 1 && v.all (· < 4294967296)
  | .region, v => v.length = 4 && v.all (· < 65536)
  | .list, v => v.length < 65536 && v.all (· < 65536)
  | .mask, v => v.length = 2 && v.all (· < 65536)

/-- Fields that fit their layouts, at most 16 of them, as many as the presence word has bits (R205). -/
def fieldsFit (layout : List Layout) (fs : Fields) : Bool :=
  layout.length ≤ 16 && fs.length = layout.length &&
    (layout.zip fs).all fun (f, v) => match v with
      | some x => f.fits x
      | none => true

/-- A one-value field, or none when it is left out. -/
def Fields.nat (fs : Fields) (i : Nat) : Option Nat := (fs.getD i none).bind List.head?

/-- A field of several values, or none when it is left out. -/
def Fields.values (fs : Fields) (i : Nat) : Option (List Nat) := fs.getD i none

/-! ## Outgoing frames -/

/-- The words of the fields of a reply, without a presence word. -/
def Field.words : Field → List Nat
  | .one n => [n]
  | .two n => [n / 65536, n % 65536]
  | .many ws => ws
  | .absent => []

/-- The presence bits of up to 16 fields, the first in bit 0. -/
def presenceWord : List Field → Nat
  | [] => 0
  | f :: fs => (if f = .absent then 0 else 1) + 2 * presenceWord fs

/-- The presence words of a run of fields, one word for each 16 fields (log 15). The first argument bounds the words. -/
def presenceWords : Nat → List Field → List Nat
  | 0, _ => []
  | _, [] => []
  | n + 1, fs => presenceWord (fs.take 16) :: presenceWords n (fs.drop 16)

/-- The parameter words of a reply: the fields in order, with a presence word first when one is left out (R205). -/
def Answer.words (a : Answer) : List Nat :=
  let body := a.fields.flatMap Field.words
  if a.fields.any (· = .absent) then presenceWords a.fields.length a.fields ++ body else body

/-- The reply flags of word 2's high byte (Table 11-5): bit 0 CLIPPED, bit 1 FRAGMENTED, bit 2 REPEAT. -/
def Answer.flags (a : Answer) : Nat := a.clipped.toNat + 2 * a.fragmented.toNat + 4 * a.repeated.toNat

/-- The words of a REPLY frame (R204). -/
def Reply.words (r : Reply) : List Word :=
  let ps := r.answer.words
  ([kindReply, 256 * r.tag.toNat + ps.length, 256 * r.answer.flags + r.answer.result.code] ++ ps).map (BitVec.ofNat 16)

/-- Pixels as tile data words (R206). -/
def wordsOfPixels : List Byte → List Nat
  | a :: b :: rest => (256 * a.toNat + b.toNat) :: wordsOfPixels rest
  | [a] => [256 * a.toNat]
  | [] => []

/-- The words of a TILE frame (R204, R206). -/
def tileFrameWords (handle index : Nat) (t : Tile) : List Word :=
  ([kindTile, handle, index] ++ wordsOfPixels t.bytes).map (BitVec.ofNat 16) ++ [t.check]

/-- The words of a FILL or DAMAGED frame (R204). -/
def shortFrameWords (kind handle index : Nat) : List Word := [kind, handle, index].map (BitVec.ofNat 16)

/-- The words of a REQUEST frame (R204). -/
def Request.words (r : Request) : List Word :=
  [BitVec.ofNat 16 kindRequest, BitVec.ofNat 16 (256 * r.tag.toNat + r.params.length), r.code] ++ r.params

end Sys2Proof.Machine
end

