-- ==== Sys2Proof/Machine/Flags.lean ====
section
/-! DEFINITION. Marks, conditions and output lines: the notice controllers (chapter 10), SPACE_LOW and TARIFF_UNSET,
ATTN and READY. -/

namespace Sys2Proof.Machine

/-! ## Links by name -/

/-- A link of the part. -/
def State.link (s : State) : LinkId → Link
  | .production => s.production
  | .desk => s.desk
  | .sales => s.sales

/-- Writes a link of the part. -/
def State.setLink (s : State) (l : LinkId) (k : Link) : State :=
  match l with
  | .production => { s with production := k }
  | .desk => { s with desk := k }
  | .sales => { s with sales := k }

/-! ## Conditions of the LEVEL sources -/

/-- The free total: the sum of the sizes of all free runs (R50). -/
def Allocator.freeTotal (a : Allocator) : Nat := (a.runs.map FreeRun.size).sum

/-- SPACE_LOW holds while the free total is below the low-water mark (R56). -/
def Allocator.spaceLow (a : Allocator) : Bool := a.freeTotal < a.lowWater

/-- TARIFF_UNSET holds while a class is UNSET (R173). -/
def Meter.tariffUnset (m : Meter) : Bool := m.tariffs.any (!·.set)

/-- The condition of a LEVEL source: SPACE_LOW is source 6 of the production link, TARIFF_UNSET source 6 of the sales
link, and every other source is EDGE (Table 10-3). -/
def State.level (s : State) (l : LinkId) (n : Nat) : Option Bool :=
  match l with
  | .production => if n = 6 then some s.alloc.spaceLow else none
  | .desk => none
  | .sales => if n = 6 then some s.meter.tariffUnset else none

/-! ## Notice sources -/

/-- How many sources a link has (Table 10-3). -/
def sourceCount : LinkId → Nat
  | .production => 7
  | .desk => 4
  | .sales => 7

/-- The EDGE sources (Table 10-3). -/
inductive Notice where
  | depositDone | depositAborted | closeDone | retireDone | compactDone | tileDamaged
  | deliveryDone | deliveryStopped | restoreDone | restoreFailed
  | accountWatch | accountCutOff | accountReinstated | orderClosed | itemReady | meterSaturated
  deriving DecidableEq, Repr

/-- The link of a source (Table 10-3). -/
def Notice.link : Notice → LinkId
  | .depositDone | .depositAborted | .closeDone | .retireDone | .compactDone | .tileDamaged => .production
  | .deliveryDone | .deliveryStopped | .restoreDone | .restoreFailed => .desk
  | .accountWatch | .accountCutOff | .accountReinstated | .orderClosed | .itemReady | .meterSaturated => .sales

/-- The number of a source (Table 10-3). -/
def Notice.number : Notice → Nat
  | .depositDone | .deliveryDone | .accountWatch => 0
  | .depositAborted | .deliveryStopped | .accountCutOff => 1
  | .closeDone | .restoreDone | .accountReinstated => 2
  | .retireDone | .restoreFailed | .orderClosed => 3
  | .compactDone | .itemReady => 4
  | .tileDamaged | .meterSaturated => 5

/-- Changes one source of a controller. -/
def Controller.modify (c : Controller) (n : Nat) (f : Source → Source) : Controller :=
  { c with sources := c.sources.modify n f }

/-- Changes the controller of a link. -/
def State.modNotices (s : State) (l : LinkId) (f : Controller → Controller) : State :=
  s.setLink l { s.link l with notices := f (s.link l).notices }

/-- An event raised on an EDGE source sets its pending mark, whatever its mask and in-service mark (R198). -/
def State.raise (s : State) (n : Notice) : State :=
  s.modNotices n.link (·.modify n.number fun src => { src with latched := true })

/-- The pending mark of a source: a LEVEL source shows its condition while it is not in service, an EDGE source its
latch (R198). -/
def State.pendingMark (s : State) (l : LinkId) (n : Nat) (src : Source) : Bool :=
  match s.level l n with
  | some c => c && !src.inService
  | none => src.latched

/-- The sources of a link with their numbers. -/
def State.numbered (s : State) (l : LinkId) : List (Source × Nat) := (s.link l).notices.sources.zipIdx

/-- ATTN is high exactly when a pending, unmasked source has a priority below the floor and below the priority of every
source in service (R199). -/
def State.attn (s : State) (l : LinkId) : Bool :=
  (s.numbered l).any fun (src, n) =>
    s.pendingMark l n src && !src.mask && src.priority < (s.link l).notices.floor &&
      (s.link l).notices.sources.all fun other => !other.inService || src.priority < other.priority

/-- READY is high while the part runs and the request queue holds fewer than 4 frames (R68, R189). -/
def State.ready (s : State) (l : LinkId) : Bool :=
  s.power = .running && (s.link l).queue.length < 4

/-- The better of two candidates: the lower priority number, then the lower source number (R200). -/
def betterSource (a b : Source × Nat) : Source × Nat :=
  if b.1.priority < a.1.priority ∨ (b.1.priority = a.1.priority ∧ b.2 < a.2) then b else a

/-- The best of a list of candidates (R200, R201). -/
def bestSource : List (Source × Nat) → Option (Source × Nat)
  | [] => none
  | a :: rest =>
    match bestSource rest with
    | none => some a
    | some b => some (betterSource a b)

/-- What POLL would take: the best source that is pending, unmasked and not in service (R200). -/
def State.candidate (s : State) (l : LinkId) : Option Nat :=
  (bestSource ((s.numbered l).filter fun (src, n) =>
    s.pendingMark l n src && !src.mask && !src.inService)).map Prod.snd

/-- The best source in service (R201). -/
def State.bestInService (s : State) (l : LinkId) : Option Nat :=
  (bestSource ((s.numbered l).filter fun (src, _) => src.inService)).map Prod.snd

/-- A word with bit n set for each mark n that is set (R205). -/
def markWord : List Bool → Nat
  | [] => 0
  | b :: bs => b.toNat + 2 * markWord bs

end Sys2Proof.Machine
end

