-- ==== Sys2Proof/Machine/Ops.lean ====
section
/-! DEFINITION. The shared operations: slot memory (R66), the store arbiter with refresh, quiet and waking (R69 to R79),
the reply places and transmitters (R192, R194), and the taking of a request (R189 to R192). -/

namespace Sys2Proof.Machine

/-! ## Tables and fours -/

/-- Changes the entries of a table that a test picks out, and keeps their order. -/
def modifyWhere {α : Type} (p : α → Bool) (f : α → α) (l : List α) : List α := l.map fun x => if p x then f x else x

/-- One of four like things. -/
def Four.get {α : Type} (f : Four α) (i : Fin 4) : α :=
  match i with
  | 0 => f.at0
  | 1 => f.at1
  | 2 => f.at2
  | 3 => f.at3

/-- Writes one of four like things. -/
def Four.set {α : Type} (f : Four α) (i : Fin 4) (x : α) : Four α :=
  match i with
  | 0 => { f with at0 := x }
  | 1 => { f with at1 := x }
  | 2 => { f with at2 := x }
  | 3 => { f with at3 := x }

/-- The numbers 0 to 3, lowest first. -/
def fourIndices : List (Fin 4) := [0, 1, 2, 3]

/-- One above the last issued value, wrapping from `top` to 1 and passing over values in use, within `fuel` steps
(R25, R108, R122, R161). -/
def nextFree (top : Nat) (inUse : Nat → Bool) : Nat → Nat → Nat
  | 0, last => last
  | fuel + 1, last =>
    let v := if top ≤ last then 1 else last + 1
    if inUse v then nextFree top inUse fuel v else v

/-- The lowest number from `n` on that a list does not hold, within `fuel` steps (R163, log 11). -/
def lowestFree (used : List Nat) : Nat → Nat → Nat
  | 0, n => n
  | fuel + 1, n => if used.contains n then lowestFree used fuel (n + 1) else n

/-- One more, holding at 65,535 (R24, R73, R75, R107). -/
def countUp (n : Nat) : Nat := min (n + 1) Config.maxCount

/-- The smallest whole number not below a/b (00, Conventions). -/
def ceilDiv (a b : Nat) : Nat := (a + b - 1) / b

/-! ## Blocks of the state -/

def State.modCat (s : State) (f : Catalogue → Catalogue) : State := { s with cat := f s.cat }
def State.modAlloc (s : State) (f : Allocator → Allocator) : State := { s with alloc := f s.alloc }
def State.modStore (s : State) (f : Store → Store) : State := { s with store := f s.store }
def State.modPort (s : State) (f : DepositPort → DepositPort) : State := { s with port := f s.port }
def State.modMover (s : State) (f : Mover → Mover) : State := { s with mover := f s.mover }
def State.modTable (s : State) (f : DeliveryTable → DeliveryTable) : State := { s with table := f s.table }
def State.modEngine (s : State) (f : Engine → Engine) : State := { s with engine := f s.engine }
def State.modBook (s : State) (f : OrderBook → OrderBook) : State := { s with book := f s.book }
def State.modMeter (s : State) (f : Meter → Meter) : State := { s with meter := f s.meter }
def State.modLink (s : State) (l : LinkId) (f : Link → Link) : State := s.setLink l (f (s.link l))

/-- Moves the clock on to a moment, never back (log 4). -/
def State.reach (s : State) (moment : Nat) : State := { s with now := max s.now moment }

/-! ## Slot memory (R66, log 6) -/

/-- What a byte that nothing has written reads as (log 6). -/
def Memory.unlisted : Byte := 0

/-- Addresses strictly rising, and no entry equal to what an unlisted address reads as. -/
abbrev Memory.wf (m : List Host.Cell) : Prop :=
  (m.map Prod.fst).Pairwise (· < ·) ∧ ∀ c ∈ m, c.2 ≠ Memory.unlisted

/-- Reads one byte. -/
def Memory.read (m : List Host.Cell) (a : Nat) : Byte :=
  match m.find? (·.1 = a) with
  | some c => c.2
  | none => Memory.unlisted

/-- The cells of a run of bytes at an address, without those an unlisted address reads as. -/
def Memory.cells (a : Nat) : List Byte → List Host.Cell
  | [] => []
  | b :: bs => if b = Memory.unlisted then Memory.cells (a + 1) bs else (a, b) :: Memory.cells (a + 1) bs

/-- Writes a run of bytes from an address on, keeping the canonical form. -/
def Memory.write (m : List Host.Cell) (a : Nat) (bs : List Byte) : List Host.Cell :=
  m.filter (·.1 < a) ++ Memory.cells a bs ++ m.filter (a + bs.length ≤ ·.1)

/-- Bytes of data in a slot (R66). -/
def tileBytes : Nat := 4096

/-- Addresses a slot takes: its data and the check word (log 6). -/
def slotBytes : Nat := 4098

/-- The address of a slot's first byte (log 6). -/
def slotAddr (slot : Nat) : Nat := slotBytes * slot

/-- Exactly 4,096 bytes of data. -/
def fitTile (bs : List Byte) : List Byte := bs.take tileBytes ++ List.replicate (tileBytes - bs.length) Memory.unlisted

/-- Reads a slot: its data and its check word (R69). -/
def Memory.readSlot (m : List Host.Cell) (slot : Nat) : Tile :=
  { bytes := (List.range tileBytes).map fun i => Memory.read m (slotAddr slot + i)
    check := (Memory.read m (slotAddr slot + tileBytes)) ++ (Memory.read m (slotAddr slot + tileBytes + 1)) }

/-- Writes a slot: its data and its check word (R69). -/
def Memory.writeSlot (m : List Host.Cell) (slot : Nat) (t : Tile) : List Host.Cell :=
  Memory.write m (slotAddr slot) (fitTile t.bytes ++ [hiByte t.check.toNat, loByte t.check.toNat])

/-- The DRAM cells of a slot that changed since they were written (log 7). -/
def Memory.upset (m : List Host.Cell) (slot : Nat) : List Upset → List Host.Cell
  | [] => m
  | (offset, b) :: rest =>
    Memory.upset (if offset < slotBytes then Memory.write m (slotAddr slot + offset) [b] else m) slot rest

/-- A tile is damaged when its stored check word does not match its data (R74). -/
def Tile.damaged (t : Tile) : Bool := checkBytes t.bytes ≠ t.check

/-! ## The store arbiter -/

/-- The client after a client in the cyclic order of R70. -/
def Client.next : Client → Client
  | .deposit => .channel 0
  | .channel 0 => .channel 1
  | .channel 1 => .channel 2
  | .channel 2 => .channel 3
  | .channel 3 => .restoration
  | .restoration => .deposit

/-- The six clients in the cyclic order, from one of them on (R70). -/
def Client.cycle (c : Client) : List Client :=
  [c, c.next, c.next.next, c.next.next.next, c.next.next.next.next, c.next.next.next.next.next]

/-- The waiting request of a client, if it has one (R69). -/
def Store.waitingOf (st : Store) (c : Client) : Option Transfer := st.waiting.find? (·.client = c)

/-- A client has a request outstanding, waiting or in flight (R69). -/
def Store.outstanding (st : Store) (c : Client) : Bool :=
  st.waiting.any (·.client = c) || (st.inFlight.map (·.client)) = some c

/-- The first waiting client found at or after the grant pointer (R70). -/
def Store.firstWaiting (st : Store) : Option Transfer := st.pointer.cycle.findSome? st.waitingOf

/-- Grants a waiting request: the pointer moves to the client after it (R70). -/
def Store.grant (st : Store) (t : Transfer) : Store :=
  { st with waiting := st.waiting.filter (·.client ≠ t.client), inFlight := some t, pointer := t.client.next }

/-- Serves one owed burst, of the length in force now, which SET_STORE changes at once (R71, R72, log 45). -/
def Store.serveBurst (st : Store) : Store := { st with burst := some st.burstLength }

/-- Halts transfers and counts the halt (R73). -/
def Store.halt (st : Store) : Store := { st with halted := true, haltCount := countUp st.haltCount }

/-- A granted transfer has not ended, withdrawn or not (R69). -/
def Store.busy (st : Store) : Bool := st.inFlight.isSome || st.withdrawn.isSome

/-- The arbiter's choice when no transfer is in flight and no burst is being served (R70, R72, R73). -/
def Store.choose (st : Store) : Store :=
  if st.state ≠ .active ∨ st.busy ∨ st.burst.isSome then st
  else if st.halted then st.serveBurst
  else if 8 ≤ st.debt then st.halt.serveBurst
  else if 4 ≤ st.debt then st.serveBurst
  else
    match st.firstWaiting with
    | some t => st.grant t
    | none => if st.debt = 0 then st else st.serveBurst

/-- The store is idle: ACTIVE with no transfer in flight and no request waiting (R77). -/
def Store.idle (st : Store) : Bool := st.state = .active && !st.busy && st.waiting.isEmpty

/-- Keeps the moment since which the store has been idle (R77). -/
def Store.markIdle (now : Nat) (st : Store) : Store :=
  { st with idleSince := if st.idle then some (st.idleSince.getD now) else none }

/-- What the store does at the end of a step: the arbiter chooses and the idle time is kept (R70, R77, log 9). -/
def Store.settle (now : Nat) (st : Store) : Store := Store.markIdle now st.choose

/-- The interval of the refresh timer with the burst length in force (R71, log 45). -/
def Store.refreshInterval (st : Store) : Nat := st.burstLength * Config.refreshStep

/-- A client asks for a transfer. In QUIET it starts WAKING (R69, R78). -/
def Store.ask (now : Nat) (t : Transfer) (st : Store) : Store :=
  let st := { st with waiting := st.waiting ++ [t], idleSince := none }
  if st.state = .quiet then { st with state := .waking, selfRefresh := false, wakeEnds := some (now + Config.wakeTime) }
  else st

/-- A client withdraws its request: a waiting one leaves the arbiter, and a granted transfer runs on to its end, withdrawn
(R69). -/
def Store.withdraw (c : Client) (st : Store) : Store :=
  let st := { st with waiting := st.waiting.filter (·.client ≠ c) }
  if (st.inFlight.map (·.client)) = some c then { st with inFlight := none, withdrawn := st.inFlight } else st

/-- The withdrawn transfer comes to its end: its client hears nothing of it, and a write does not change its slot (R69). -/
def Store.endWithdrawn (st : Store) : Store := { st with withdrawn := none }

/-- The store enters QUIET: self-refresh, the refresh timer stopped, debt 0 (R77). -/
def Store.enterQuiet (st : Store) : Store :=
  { st with state := .quiet, selfRefresh := true, debt := 0, halted := false, refreshDue := none, idleSince := none }

/-- The conditions of R77 hold at a moment. -/
def Store.quietDue (now : Nat) (st : Store) : Bool :=
  st.idle && st.quietThreshold != 0 && st.fixedCount == 0 &&
    match st.idleSince with
    | some t => t + st.quietThreshold * Config.quietStep ≤ now
    | none => false

/-- Enters QUIET when its conditions hold. A burst being served is finished first (R77, R79, R80). -/
def Store.quietIfDue (now : Nat) (st : Store) : Store :=
  if st.quietDue now ∧ st.burst.isNone then st.enterQuiet else st

/-- The FIXED count falls by 1; at 0 the store may enter QUIET at once (R79). -/
def Store.fixedDown (now : Nat) (st : Store) : Store :=
  let st := { st with fixedCount := st.fixedCount - 1 }
  if st.fixedCount = 0 then st.quietIfDue now else st

/-- The tile a write puts in its slot; without a check word the store computes it (R69). -/
def writtenTile (bytes : List Byte) : Option Word → Tile
  | some c => { bytes, check := c }
  | none => { bytes, check := checkBytes (fitTile bytes) }

/-- A transfer completes: nothing is in flight, and a write changes its slot (R69). -/
def Store.complete (t : Transfer) (st : Store) : Store :=
  { st with
    inFlight := none
    mem := match t.kind with
      | .read => st.mem
      | .write bytes check => Memory.writeSlot st.mem t.slot (writtenTile bytes check) }

/-! ## Transmitters (R194) -/

/-- A channel offers a frame: its head place is OFFERED, or the FILL frame of its period is (R92, R112). -/
def Channel.offers (c : Channel) : Bool :=
  (match c.buffer with
    | p :: _ => p.state = .offered
    | [] => false) ||
  (match c.periodFrame with
    | some f => f.offered && f.fill.isSome
    | none => false)

/-- The link takes the frame a channel offers: it is SENDING (R92, R112, R194). -/
def Channel.taken (c : Channel) : Channel :=
  match c.buffer with
  | p :: rest =>
    if p.state = .offered then { c with buffer := { p with state := .sending } :: rest, periodFrame := none }
    else { c with sendingFill := c.periodFrame.bind (·.fill), periodFrame := none }
  | [] => { c with sendingFill := c.periodFrame.bind (·.fill), periodFrame := none }

/-- The channels in the order the desk link's transmitter looks at them: after the one it last served (R194). -/
def turnOrder (last : Fin 4) : List (Fin 4) := [last + 1, last + 2, last + 3, last]

/-- Changes one channel. -/
def State.modChannel (s : State) (c : Fin 4) (f : Channel → Channel) : State :=
  s.modMover fun m => { m with channels := m.channels.set c (f (m.channels.get c)) }

/-- A channel of the mover. -/
def State.channel (s : State) (c : Fin 4) : Channel := s.mover.channels.get c

/-- The transmitter of a link, when it sends nothing, chooses its next frame: the older reply, or on the desk link the
frame of the next channel that offers one (R194). -/
def State.transmit (s : State) (l : LinkId) : State :=
  if (s.link l).sending.isSome then s
  else if (s.link l).replies ≠ [] then s.modLink l fun k => { k with sending := some .reply }
  else if l = .desk then
    match (turnOrder s.deskTurn).find? fun c => (s.channel c).offers with
    | some c =>
      { (s.modChannel c Channel.taken).modLink .desk fun k => { k with sending := some (.channel c) } with deskTurn := c }
    | none => s
  else s

/-- The end of a step: the arbiter and the transmitters make the choices that the step left to them (R70, R194, log 9). -/
def State.settle (s : State) : State :=
  (((s.modStore (Store.settle s.now)).transmit .production).transmit .desk).transmit .sales

/-! ## Replies and the taking of requests -/

/-- Reply places of a link (R192). -/
def replyPlaces : Nat := 2

/-- A reply place of the link is free (R192). -/
def Link.placeFree (k : Link) : Bool := k.replies.length < replyPlaces

/-- Puts a reply into a reply place (R192). -/
def State.reply (s : State) (l : LinkId) (tag : Byte) (a : Answer) : State :=
  s.modLink l fun k => { k with replies := k.replies ++ [{ tag, answer := a }] }

/-- The link with a request at the head of its queue: it stands there, or it arrives at an empty queue of a receiver that
holds nothing (R189, log 1). -/
def Link.present (k : Link) (r : Request) : Option Link :=
  match k.queue with
  | [] => if k.held.isNone then some { k with queue := [r] } else none
  | head :: _ => if head = r then some k else none

/-- The head request leaves the queue, and a request held at the receiver takes the place (R189, R192). -/
def Link.take (k : Link) : Link :=
  match k.held with
  | some (.request r) => { k with queue := k.queue.tail ++ [r], held := none }
  | _ => { k with queue := k.queue.tail }

/-- What a request makes of its fields: its answer and the state after its rule. -/
abbrev Body := Fields → State → Answer × State

/-- A step that only a running part makes (R68, log 2). -/
def whenRunning (s : State) (f : State → Outcome) : Outcome :=
  if s.power = .running then f s else .next s

/-- A request is taken: the link check, then the check of its parameter words, then its own rule (R190, R191, R205). -/
def answerRequest (l : LinkId) (home : Home) (layout : List Layout) (params : List Word) (body : Body) (s : State) :
    Answer × State :=
  if home.allows l then
    match readFields layout params with
    | some fs => body fs s
    | none => (Answer.refuse .badValue, s)
  else (Answer.refuse .wrongLink, s)

/-- A link takes a request when it is at the head of the queue and a reply place is free. Taking removes it, carries out
its rule whole and puts the reply into the place; `finish` makes the choices left to the end of the step (R192). -/
def serve (finish : State → State) (l : LinkId) (home : Home) (layout : List Layout) (r : Request) (body : Body)
    (s : State) : Outcome :=
  whenRunning s fun s =>
    match (s.link l).present r with
    | none => .next s
    | some k =>
      if k.placeFree then
        let (a, s') := answerRequest l home layout r.params body (s.setLink l k.take)
        .next (finish (s'.reply l r.tag a))
      else .next (s.setLink l k)

/-- A request that reaches neither the store's transfers nor the channels: only its own link's transmitter has a choice. -/
def serveLocal (l : LinkId) (home : Home) (layout : List Layout) (r : Request) (body : Body) (s : State) : Outcome :=
  serve (fun s => s.transmit l) l home layout r body s

/-- A request that may reach the store's transfers or the channels. -/
def serveWide (l : LinkId) (home : Home) (layout : List Layout) (r : Request) (body : Body) (s : State) : Outcome :=
  serve State.settle l home layout r body s

end Sys2Proof.Machine
end

