-- ==== Sys2Proof/Machine/Allocator.lean ====
section
/-! DEFINITION. The slot allocator of chapter 3: free runs, allocation around a move target, release, return, and the
search, start and end of a compaction move. -/

namespace Sys2Proof.Machine

/-! ## Free runs -/

/-- Takes the slots `a` to `a + n - 1` out of the run that holds them; what is left below and above stays, each when it
is not empty (R51, R52). -/
def takeSlots (a n : Nat) : List FreeRun → List FreeRun
  | [] => []
  | r :: rs =>
    if r.first ≤ a ∧ a + n ≤ r.first + r.size then
      (if r.first < a then [⟨r.first, a - r.first⟩] else []) ++
      (if a + n < r.first + r.size then [⟨a + n, r.first + r.size - (a + n)⟩] else []) ++ rs
    else r :: takeSlots a n rs

/-- Returns the slots `a` to `a + n - 1`, coalescing with the lower and the upper neighbour (R54, Table 3-2). -/
def giveSlots (a n : Nat) : List FreeRun → List FreeRun
  | [] => [⟨a, n⟩]
  | r :: rs =>
    if r.first + r.size < a then r :: giveSlots a n rs
    else if r.first + r.size = a then
      match rs with
      | [] => [⟨r.first, r.size + n⟩]
      | u :: us => if a + n = u.first then ⟨r.first, r.size + n + u.size⟩ :: us else ⟨r.first, r.size + n⟩ :: rs
    else if a + n = r.first then ⟨a, n + r.size⟩ :: rs
    else ⟨a, n⟩ :: r :: rs

/-! ## Extent records -/

/-- The extent record of a number. -/
def Allocator.find (a : Allocator) (n : Nat) : Option Extent := a.extents.find? (·.number = n)

/-- Changes one extent record. -/
def Allocator.modExtent (n : Nat) (f : Extent → Extent) (a : Allocator) : Allocator :=
  { a with extents := modifyWhere (·.number = n) f a.extents }

/-- The reader count of an extent. -/
def Allocator.readersOf (a : Allocator) (n : Nat) : Nat :=
  match a.find n with
  | some e => e.readers
  | none => 0

/-- The extent is being moved (R48). -/
def Allocator.isMoving (a : Allocator) (n : Nat) : Bool :=
  match a.find n with
  | some e => e.state = .moving
  | none => false

/-- A reader is taken on an extent (R49). -/
def Allocator.takeReader (n : Nat) (a : Allocator) : Allocator :=
  a.modExtent n fun e => { e with readers := e.readers + 1 }

/-! ## Allocation -/

/-- The slots a run offers: the run itself, or the pieces below and above the target of the move in flight (R52). -/
def offeredPieces (target : Option (Nat × Nat)) (r : FreeRun) : List FreeRun :=
  match target with
  | none => [r]
  | some (t, n) =>
    if r.first ≤ t ∧ t + n ≤ r.first + r.size then [⟨r.first, t - r.first⟩, ⟨t + n, r.first + r.size - (t + n)⟩]
    else [r]

/-- The target of the move in flight: its first slot and length (R52). -/
def Allocator.moveTarget (a : Allocator) : Option (Nat × Nat) :=
  match a.compaction.move with
  | some m => some (m.target, ((a.find m.extent).map (·.size)).getD 0)
  | none => none

/-- Where an extent of a size would lie, or why it cannot be given (R51). -/
def Allocator.place (a : Allocator) (size : Nat) : Except AllocRefusal Nat :=
  if Config.maxExtents ≤ a.extents.length then .error .extentTable
  else
    match (a.runs.flatMap (offeredPieces a.moveTarget)).find? (fun p => size ≤ p.size && p.size != 0) with
    | some p => .ok p.first
    | none => .error (.noSpace (size ≤ a.freeTotal))

/-- The record number a new extent takes: the lowest free one (log 11). -/
def Allocator.freshNumber (a : Allocator) : Nat :=
  lowestFree (a.extents.map (·.number)) (a.extents.length + 1) 0

/-- Puts a new record in its place in the table. -/
def insertExtent (e : Extent) : List Extent → List Extent
  | [] => [e]
  | x :: xs => if e.number < x.number then e :: x :: xs else x :: insertExtent e xs

/-- A record comes into use for the slots from `first` on, and they leave the free runs (R51). -/
def Allocator.occupy (a : Allocator) (first size : Nat) (owner : Owner) (state : ExtentState) : Nat × Allocator :=
  let n := a.freshNumber
  (n, { a with
    runs := takeSlots first size a.runs
    extents := insertExtent { number := n, first, size, owner, state } a.extents })

/-! ## Release and return -/

/-- An extent is returned: its slots join the free runs and its record becomes free (R54). -/
def Allocator.giveBack (n : Nat) (a : Allocator) : Allocator :=
  match a.find n with
  | some e => { a with runs := giveSlots e.first e.size a.runs, extents := a.extents.filter (·.number ≠ n) }
  | none => a

/-- An extent is released: returned at once, made RELEASING, or given the release-pending mark (R53). -/
def Allocator.release (n : Nat) (a : Allocator) : Allocator :=
  match a.find n with
  | none => a
  | some e =>
    match e.state with
    | .moving => a.modExtent n fun e => { e with releasePending := true }
    | .filling | .building => a.giveBack n
    | .live => if e.readers = 0 then a.giveBack n else a.modExtent n fun e => { e with state := .releasing }
    | .releasing => a

/-! ## Compaction -/

/-- The search of R59: the lowest free run whose upper neighbour is a LIVE extent without readers that fits it. -/
def searchMove (extents : List Extent) : List FreeRun → Option (Extent × FreeRun)
  | [] => none
  | f :: fs =>
    match extents.find? (·.first = f.first + f.size) with
    | none => none
    | some e =>
      if e.state = .live ∧ e.readers = 0 ∧ e.size ≤ f.size then some (e, f) else searchMove extents fs

/-- Changes the compaction record. -/
def Allocator.modCompaction (f : Compaction → Compaction) (a : Allocator) : Allocator :=
  { a with compaction := f a.compaction }

/-- A move starts: the extent becomes MOVING and the current move is recorded (R60). -/
def Allocator.startMove (e : Extent) (f : FreeRun) (a : Allocator) : Allocator :=
  (a.modExtent e.number fun e => { e with state := .moving }).modCompaction fun c =>
    { c with state := .copying, move := some { extent := e.number, oldFirst := e.first, target := f.first, copied := 0 } }

/-- The compaction record after an end with an outcome (R62). -/
def Compaction.finish (o : CompactionOutcome) (c : Compaction) : Compaction :=
  { c with state := .idle, move := none, outcome := o, outcomeMade := c.made }

/-- Steps 1 and 2 of a move's end: the target slots are cut out, the old slots are returned, and the extent lies at the
target (R61). -/
def Allocator.relocate (m : Move) (size : Nat) (a : Allocator) : Allocator :=
  { a with
    runs := giveSlots m.oldFirst size (takeSlots m.target size a.runs)
    extents := modifyWhere (·.number = m.extent) (fun e => { e with first := m.target }) a.extents }

/-- Step 3 of a move's end: the extent becomes LIVE, or its release-pending mark is acted on (R61). -/
def Allocator.settleMoved (n : Nat) (a : Allocator) : Allocator :=
  match a.find n with
  | none => a
  | some e =>
    if e.releasePending then
      let a := a.modExtent n fun e => { e with releasePending := false, state := .releasing }
      if e.readers = 0 then a.giveBack n else a
    else a.modExtent n fun e => { e with state := .live }

/-! ## Warm start (R65) -/

/-- A move in flight is void: its extent is LIVE at its old place, or returned when its mark is set (R65 step 2). -/
def Allocator.voidMove (e : Extent) (a : Allocator) : Allocator :=
  if e.state = .moving then
    let a := a.modExtent e.number fun e => { e with state := .live, releasePending := false }
    if e.releasePending then a.giveBack e.number else a
  else a

/-- Puts an extent in its place by first slot. -/
def insertBySlot (e : Extent) : List Extent → List Extent
  | [] => [e]
  | x :: xs => if e.first < x.first then e :: x :: xs else x :: insertBySlot e xs

/-- Extents in ascending first slot. -/
def extentsBySlot (es : List Extent) : List Extent := es.foldr insertBySlot []

/-- Every extent in one state is returned, in ascending first slot (R65 step 3, R149 step 1). -/
def Allocator.giveBackAll (state : ExtentState) (a : Allocator) : Allocator :=
  ((extentsBySlot a.extents).filter (·.state = state)).foldl (fun a e => a.giveBack e.number) a

/-- The allocator's warm start: readers cleared, the move voided, RELEASING extents returned, compaction IDLE and the mark
at its default (R65). The counts and the stop mark of the compaction are cleared with it (log 39). -/
def Allocator.warmStart (a : Allocator) : Allocator :=
  let a : Allocator := { a with extents := a.extents.map fun e => { e with readers := 0 } }
  let a : Allocator := a.extents.foldl (fun a e => a.voidMove e) a
  { a.giveBackAll .releasing with compaction := {}, lowWater := Config.defaultLowWater }

end Sys2Proof.Machine
end

