-- ==== Sys2Proof/Machine/Catalogue.lean ====
section
/-! DEFINITION. The edition catalogue of chapter 1: finding, naming, changing and removing entries; the end of a reader
(R55), the completion of a retirement (R44) and the record of a damaged read (R75). -/

namespace Sys2Proof.Machine

/-! ## Finding -/

/-- The edition record in use of an id. -/
def Catalogue.edition (c : Catalogue) (id : Nat) : Option Edition := c.editions.find? (·.id = id)

/-- The photo record in use of an id. -/
def Catalogue.photo (c : Catalogue) (id : Nat) : Option Photo := c.photos.find? (·.id = id)

/-- The page entry of a page number. -/
def Edition.page (e : Edition) (n : Nat) : Option Page := e.pages.find? (·.number = n)

/-- The revision of a number. -/
def Page.rev (p : Page) (n : Nat) : Option Revision := p.revs.find? (·.number = n)

/-- The current revision: the newest COMPLETE one (R7). -/
def Page.current (p : Page) : Option Revision := p.revs.reverse.find? (·.state = .complete)

/-- The page holds a FILLING revision (R5). -/
def Page.isFilling (p : Page) : Bool := p.revs.any (·.state = .filling)

/-- A revision by its name. -/
def Catalogue.revision (c : Catalogue) (r : RevName) : Option Revision :=
  ((c.edition r.edition).bind (·.page r.page)).bind (·.rev r.revision)

/-- Page entries in use in the whole volume (R5). -/
def Catalogue.pageCount (c : Catalogue) : Nat := (c.editions.map (·.pages.length)).sum

/-- The image size in tiles of a target, width and height. -/
def Catalogue.imageSize (c : Catalogue) : Target → Option (Nat × Nat)
  | .page r => (c.revision r).map fun v => (v.width, v.height)
  | .photo id => (c.photo id).map fun p => (p.width, p.height)

/-- The reprint class of a target (R172). -/
def Catalogue.classOf (c : Catalogue) : Target → Nat
  | .page r => ((c.revision r).map (·.cls)).getD 0
  | .photo id => ((c.photo id).map (·.cls)).getD 0

/-- The edition state refuses a read, a restoration or an item (R2). Which of a request's own checks go before this one
is log 43. -/
def Edition.refusesRead (e : Edition) : Bool := e.state = .retiring

/-- Finds a page revision that must be COMPLETE, in the steps of R17. -/
def Catalogue.resolve (c : Catalogue) (ed pg : Nat) (rev : Option Nat) : Except Result (RevName × Revision) :=
  match c.edition ed with
  | none => .error .noEdition
  | some e =>
    if e.refusesRead then .error .retiring
    else
      match e.page pg with
      | none => .error .noPage
      | some p =>
        match rev with
        | some n =>
          match p.rev n with
          | none => .error .noRevision
          | some v => if v.state = .filling then .error .filling else .ok (⟨ed, pg, n⟩, v)
        | none =>
          match p.current with
          | none => .error .filling
          | some v => .ok (⟨ed, pg, v.number⟩, v)

/-- Finds a photograph that must be COMPLETE (R17). -/
def Catalogue.resolvePhoto (c : Catalogue) (id : Nat) : Except Result Photo :=
  match c.photo id with
  | none => .error .noPhoto
  | some p => if p.state = .filling then .error .filling else .ok p

/-! ## Changing -/

def Catalogue.modEdition (id : Nat) (f : Edition → Edition) (c : Catalogue) : Catalogue :=
  { c with editions := modifyWhere (·.id = id) f c.editions }

def Edition.modPage (n : Nat) (f : Page → Page) (e : Edition) : Edition :=
  { e with pages := modifyWhere (·.number = n) f e.pages }

def Catalogue.modRevision (r : RevName) (f : Revision → Revision) (c : Catalogue) : Catalogue :=
  c.modEdition r.edition fun e => e.modPage r.page fun p =>
    { p with revs := modifyWhere (·.number = r.revision) f p.revs }

def Catalogue.modPhoto (id : Nat) (f : Photo → Photo) (c : Catalogue) : Catalogue :=
  { c with photos := modifyWhere (·.id = id) f c.photos }

/-- Puts an edition record in its place by id. -/
def insertEdition (e : Edition) : List Edition → List Edition
  | [] => [e]
  | x :: xs => if e.id < x.id then e :: x :: xs else x :: insertEdition e xs

/-- Puts a page entry at the place its number calls for (R4). -/
def insertPage (p : Page) : List Page → List Page
  | [] => [p]
  | x :: xs => if p.number < x.number then p :: x :: xs else x :: insertPage p xs

/-- Puts a photo record in its place by id. -/
def insertPhoto (p : Photo) : List Photo → List Photo
  | [] => [p]
  | x :: xs => if p.id < x.id then p :: x :: xs else x :: insertPhoto p xs

/-- Appends an entry for a revision to the reference list of each photograph it names (R12). -/
def Catalogue.addRefs (r : RevName) (photos : List Nat) (c : Catalogue) : Catalogue :=
  photos.foldl (fun c id => c.modPhoto id fun p => { p with refs := p.refs ++ [r] }) c

/-- Removes the entry for a revision from the reference list of each photograph it names (R14). -/
def Catalogue.dropRefs (r : RevName) (photos : List Nat) (c : Catalogue) : Catalogue :=
  photos.foldl (fun c id => c.modPhoto id fun p => { p with refs := p.refs.filter (· ≠ r) }) c

/-- Changes the pin count of a target (R13). -/
def Catalogue.modPins (t : Target) (f : Nat → Nat) (c : Catalogue) : Catalogue :=
  match t with
  | .page r => c.modRevision r fun v => { v with pins := f v.pins }
  | .photo id => c.modPhoto id fun p => { p with pins := f p.pins }

/-- A revision leaves its page's list, and a page entry left empty leaves its edition (R14, R16). -/
def Edition.eraseRevision (r : RevName) (e : Edition) : Edition :=
  let e := e.modPage r.page fun p => { p with revs := p.revs.filter (·.number ≠ r.revision) }
  { e with pages := e.pages.filter fun p => p.number ≠ r.page || p.revs ≠ [] }

/-! ## Removing -/

/-- The extents of a revision: raw, and restored when it has one. -/
def Revision.extents (v : Revision) : List Nat := v.raw :: (v.restored.map (·.extent)).toList

/-- Releases extents in order (R53). -/
def State.releaseAll (ns : List Nat) (s : State) : State :=
  s.modAlloc fun a => ns.foldl (fun a n => a.release n) a

/-- A revision is removed, in the order of R14. -/
def State.removeRevision (r : RevName) (s : State) : State :=
  match s.cat.revision r with
  | none => s
  | some v =>
    let s := s.modCat (Catalogue.dropRefs r v.photos)
    let s := s.releaseAll v.extents
    s.modCat fun c => c.modEdition r.edition fun e =>
      { e.eraseRevision r with filling := if v.state = .filling then e.filling - 1 else e.filling }

/-- A photograph is removed (R15). -/
def State.removePhoto (id : Nat) (s : State) : State :=
  match s.cat.photo id with
  | none => s
  | some p => (s.releaseAll [p.extent]).modCat fun c => { c with photos := c.photos.filter (·.id ≠ id) }

/-- A CLOSING edition whose FILLING count is 0 becomes CLOSED and CLOSE_DONE is raised (R41). -/
def State.closeIfDone (ed : Nat) (s : State) : State :=
  match s.cat.edition ed with
  | none => s
  | some e =>
    if e.state = .closing ∧ e.filling = 0 then
      (s.modCat (·.modEdition ed fun e => { e with state := .closed })).raise .closeDone
    else s

/-! ## Retirement -/

/-- The names of the revisions of an edition, in ascending page number and oldest first. -/
def Edition.revNames (e : Edition) : List RevName :=
  e.pages.flatMap fun p => p.revs.map fun v => ⟨e.id, p.number, v.number⟩

/-- The extents of an edition's revisions, raw and restored. -/
def Edition.extents (e : Edition) : List Nat := e.pages.flatMap fun p => p.revs.flatMap Revision.extents

/-- A restoration job in the queue names a revision of the edition. -/
def Engine.namesEdition (g : Engine) (ed : Nat) : Bool := g.queue.any (·.revision.edition = ed)

/-- A RETIRING edition has no reader and no job left (R44). -/
def State.retireReady (s : State) (e : Edition) : Bool :=
  e.state = .retiring && e.extents.all (fun n => s.alloc.readersOf n = 0) && !s.engine.namesEdition e.id

/-- Every revision is removed and the record becomes free (R44, R16). -/
def State.dissolve (e : Edition) (s : State) : State :=
  let s := e.revNames.foldl (fun s r => s.removeRevision r) s
  s.modCat fun c => { c with editions := c.editions.filter (·.id ≠ e.id) }

/-- The completion check of R44. RETIRE_DONE is raised when RETIRE_EDITION has answered (log 29). -/
def State.retireCheck (ed : Nat) (s : State) : State :=
  match s.cat.edition ed with
  | none => s
  | some e =>
    if s.retireReady e then
      let s := s.dissolve e
      if e.retireReplied then s.raise .retireDone else s
    else s

/-- The edition a revision's extent belongs to. -/
def Owner.edition : Owner → Option Nat
  | .raw r => some r.edition
  | .restored r => some r.edition
  | .photo _ => none

/-- A delivery or a job gives up its reader on an extent (R55). -/
def State.readerEnd (n : Nat) (s : State) : State :=
  match s.alloc.find n with
  | none => s
  | some e =>
    let s := s.modAlloc (·.modExtent n fun e => { e with readers := e.readers - 1 })
    if e.readers - 1 ≠ 0 then s
    else
      match e.state with
      | .releasing => s.modAlloc (·.giveBack n)
      | .live => match e.owner.edition with
        | some ed => s.retireCheck ed
        | none => s
      | .moving =>
        if e.releasePending then s
        else match e.owner.edition with
          | some ed => s.retireCheck ed
          | none => s
      | _ => s

/-! ## Damaged reads -/

/-- Offers an entry to a damaged-tile list (R9). -/
def DamageList.add (d : DamageList) (entry : DamageEntry) : DamageList :=
  if d.entries.contains entry then d
  else if d.entries.length < 8 then { d with entries := d.entries ++ [entry] }
  else { d with overflow := true }

/-- The extent that holds a slot. -/
def Allocator.holding (a : Allocator) (slot : Nat) : Option Extent :=
  a.extents.find? fun e => e.first ≤ slot && slot < e.first + e.size

/-- The extent has an owner in the catalogue: LIVE, or MOVING with its release-pending mark clear (R75). -/
def Extent.owned (e : Extent) : Bool := e.state = .live || (e.state = .moving && !e.releasePending)

/-- The damaged-tile list of an owner (R9, R10). -/
def Catalogue.damageOf (c : Catalogue) : Owner → DamageList
  | .raw r | .restored r => ((c.revision r).map (·.damage)).getD {}
  | .photo id => ((c.photo id).map (·.damage)).getD {}

/-- Offers a tile to the damaged-tile list of an owner (R75 step 3). -/
def Catalogue.addDamage (c : Catalogue) (o : Owner) (index : Nat) : Catalogue :=
  match o with
  | .raw r => c.modRevision r fun v => { v with damage := v.damage.add ⟨index, .raw⟩ }
  | .restored r => c.modRevision r fun v => { v with damage := v.damage.add ⟨index, .restored⟩ }
  | .photo id => c.modPhoto id fun p => { p with damage := p.damage.add ⟨index, .raw⟩ }

/-- A damaged read is recorded, in the order of R75. -/
def State.recordDamage (slot : Nat) (reader : ReaderKind) (s : State) : State :=
  let owner := (s.alloc.holding slot).bind fun e => if e.owned then some (e.owner, slot - e.first) else none
  let s := s.modStore fun st =>
    { st with damagedReads := countUp st.damagedReads, lastDamage := some { slot, reader, owner } }
  match owner with
  | none => s
  | some (o, i) =>
    let before := s.cat.damageOf o
    let s := s.modCat fun c => c.addDamage o i
    if s.cat.damageOf o = before then s else s.raise .tileDamaged

end Sys2Proof.Machine
end

