-- ==== Sys2Proof/Machine/Meter.lean ====
section
/-! DEFINITION. Accounts and the fee meter: finding and changing orders, items and accounts (chapter 8), the account status
machine (R156 to R159), the stages of a posting (R180 to R183), the posting log (R184) and the divisor resolution (R186). -/

namespace Sys2Proof.Machine

/-! ## Orders, items and accounts -/

/-- The account record in use of an id. -/
def OrderBook.account (b : OrderBook) (id : Nat) : Option Account := b.accounts.find? (·.id = id)

/-- The order record in use of an id. -/
def OrderBook.order (b : OrderBook) (id : Nat) : Option Order := b.orders.find? (·.id = id)

/-- The item of a number. -/
def Order.item (o : Order) (n : Nat) : Option Item := o.items.find? (·.number = n)

/-- An item by order id and number. -/
def OrderBook.item (b : OrderBook) (order n : Nat) : Option Item := (b.order order).bind (·.item n)

def OrderBook.modAccount (id : Nat) (f : Account → Account) (b : OrderBook) : OrderBook :=
  { b with accounts := modifyWhere (·.id = id) f b.accounts }

def OrderBook.modOrder (id : Nat) (f : Order → Order) (b : OrderBook) : OrderBook :=
  { b with orders := modifyWhere (·.id = id) f b.orders }

def Order.modItem (n : Nat) (f : Item → Item) (o : Order) : Order :=
  { o with items := modifyWhere (·.number = n) f o.items }

def OrderBook.modItem (order n : Nat) (f : Item → Item) (b : OrderBook) : OrderBook :=
  b.modOrder order (·.modItem n f)

/-- Puts an account record in its place by id. -/
def insertAccount (a : Account) : List Account → List Account
  | [] => [a]
  | x :: xs => if a.id < x.id then a :: x :: xs else x :: insertAccount a xs

/-- Puts an order record in its place by id. -/
def insertOrder (o : Order) : List Order → List Order
  | [] => [o]
  | x :: xs => if o.id < x.id then o :: x :: xs else x :: insertOrder o xs

/-- Puts an item in its place by number (R163). -/
def insertItem (i : Item) : List Item → List Item
  | [] => [i]
  | x :: xs => if i.number < x.number then i :: x :: xs else x :: insertItem i xs

/-- The order's deliveries in flight fall by 1; a CLOSING order left with none becomes CLOSED and ORDER_CLOSED is raised
(R115 step 4, R166). -/
def State.inFlightDown (id : Nat) (s : State) : State :=
  let s := s.modBook (·.modOrder id fun o => { o with inFlight := o.inFlight - 1 })
  match s.book.order id with
  | some o =>
    if o.state = .closing ∧ o.inFlight = 0 then
      (s.modBook (·.modOrder id fun o => { o with state := .closed })).raise .orderClosed
    else s
  | none => s

/-! ## The account status machine (R156 to R159) -/

/-- What stops the fulfilment deliveries of an account (R119). The delivery rules supply it. -/
abbrev StopDeliveries := Nat → State → State

/-- Writes an account's status and timer. -/
def State.setStatus (id : Nat) (status : AccountStatus) (timer : Option Nat) (s : State) : State :=
  s.modBook (·.modAccount id fun a => { a with status, timer })

/-- The moment a timer runs out that is loaded now with a count of 100 ms steps (R157, R158). -/
def State.timerEnd (s : State) (steps : Nat) : Nat := s.now + steps * Config.accountStep

/-- The account becomes CUT_OFF: the timer stops, its fulfilment deliveries are stopped, and ACCOUNT_CUT_OFF is raised
(R156, R157). -/
def State.cutOffAccount (stop : StopDeliveries) (id : Nat) (s : State) : State :=
  (stop id (s.setStatus id .cutOff none)).raise .accountCutOff

/-- The account enters WATCH, and goes on to CUT_OFF at once when the cut-off delay is 0 (R156, R159). -/
def State.enterWatch (stop : StopDeliveries) (id : Nat) (s : State) : State :=
  let s := (s.setStatus id .watch (some (s.timerEnd s.meter.settings.cutOff))).raise .accountWatch
  if s.meter.settings.cutOff = 0 then s.cutOffAccount stop id else s

/-- The account enters REINSTATING, and goes on to ACTIVE at once when the reinstate delay is 0 (R156, R159). -/
def State.enterReinstating (id : Nat) (s : State) : State :=
  if s.meter.settings.reinstate = 0 then (s.setStatus id .active none).raise .accountReinstated
  else s.setStatus id .reinstating (some (s.timerEnd s.meter.settings.reinstate))

/-- One evaluation of an account (Table 8-3, R159). -/
def State.evaluate (stop : StopDeliveries) (id : Nat) (s : State) : State :=
  match s.book.account id with
  | none => s
  | some a =>
    if a.ceiling = 0 then
      let s := s.setStatus id .active none
      if a.status = .cutOff ∨ a.status = .reinstating then s.raise .accountReinstated else s
    else
      match a.status with
      | .active => if a.ceiling ≤ a.owed then s.enterWatch stop id else s
      | .watch => if a.owed < a.ceiling then s.setStatus id .active none else s
      | .cutOff => if a.owed < a.ceiling then s.enterReinstating id else s
      | .reinstating => if a.ceiling ≤ a.owed then s.cutOffAccount stop id else s

/-! ## The stages of a posting (R180 to R183) -/

/-- What a posting names and carries (R180). -/
structure Charge where
  restore : Bool
  order : Nat
  item : Nat
  work : Nat
  count : Nat
  rate : Nat
  creep : Nat
  ageThreshold : Nat
  surcharge : Nat
  discount : Nat
  age : Nat
  repeated : Bool
  unset : Bool
  deriving DecidableEq, Repr

/-- What stages 1 to 4 make of a posting. -/
structure Reckoning where
  gross : Nat
  aged : Nat
  net : Nat
  outcome : PostingOutcome
  deriving DecidableEq, Repr

/-- Stage 3: the surcharge on a gross of an age (R182). -/
def agedValue (gross ageThreshold surcharge age : Nat) : Nat :=
  if ageThreshold ≠ 0 ∧ ageThreshold ≤ age then gross + gross * surcharge / 256 else gross

/-- Stage 4: the discount d, meaning d/256 off (R182). -/
def netValue (aged discount : Nat) : Nat := aged * (256 - discount) / 256

/-- Stages 1 to 4 of a posting: an UNSET RESTORE posting takes none, and a repeat or a crept DELIVERY posting takes the
first two (R180 to R182). -/
def Charge.reckon (c : Charge) : Reckoning :=
  let gross := c.count * c.rate
  if c.unset then ⟨0, 0, 0, .unset⟩
  else if !c.restore && c.repeated then ⟨gross, 0, 0, .repeated⟩
  else if !c.restore && gross < c.creep then ⟨gross, 0, 0, .crept⟩
  else
    let aged := agedValue gross c.ageThreshold c.surcharge c.age
    ⟨gross, aged, netValue aged c.discount, .charged⟩

/-- Units that a total cannot hold are lost (R150, R160, R183). -/
def addUnits (total q : Nat) : Nat := min (total + q) Config.maxUnits

/-- An addition was clamped (R183). -/
def unitsClamped (total q : Nat) : Bool := Config.maxUnits < total + q

/-- Stage 5 for the order: the accumulator, the units q and the SATURATED flag (R183). -/
def Order.carry (divisor net : Nat) (o : Order) : Order :=
  let q := (o.accumulator + net) / divisor
  { o with
    accumulator := (o.accumulator + net) % divisor
    units := addUnits o.units q
    saturated := o.saturated || unitsClamped o.units q }

/-- The units that stage 5 makes of an order's grains (R183). -/
def Order.quotient (divisor net : Nat) (o : Order) : Nat := (o.accumulator + net) / divisor

/-- The owed units of an account, 0 when there is none. -/
def OrderBook.owed (b : OrderBook) (id : Nat) : Nat :=
  match b.account id with
  | some a => a.owed
  | none => 0

/-- Stage 5: the net joins the order's accumulator and the units made join the order and its account. METER_SATURATED is
raised when either was clamped (R183). -/
def State.accumulate (o : Order) (net : Nat) (s : State) : State :=
  let d := s.meter.settings.divisor
  let q := o.quotient d net
  let clamped := unitsClamped o.units q || unitsClamped (s.book.owed o.account) q
  let s := s.modBook fun b =>
    (b.modOrder o.id (Order.carry d net)).modAccount o.account fun a => { a with owed := addUnits a.owed q }
  if clamped then s.raise .meterSaturated else s

/-- Appends an entry to the posting log, which holds the last 8 (R184). -/
def Meter.addEntry (e : LogEntry) (m : Meter) : Meter :=
  { m with log := (if 8 ≤ m.log.length then m.log.tail else m.log) ++ [e] }

/-- The log entry of a posting (R184). -/
def Charge.entry (c : Charge) (r : Reckoning) (q : Nat) (orderSaturated owedSaturated : Bool) : LogEntry :=
  .posting c.restore c.order c.item c.work c.count r.gross r.aged r.net q r.outcome orderSaturated owedSaturated

/-- A posting: the stages, the log entry, and the evaluation when the owed units changed (R180 to R184, log 17). -/
def State.post (stop : StopDeliveries) (c : Charge) (s : State) : State :=
  match s.book.order c.order with
  | none => s
  | some o =>
    let r := c.reckon
    let q := o.quotient s.meter.settings.divisor r.net
    let owed := s.book.owed o.account
    let t := (s.accumulate o r.net).modMeter (Meter.addEntry (c.entry r q (unitsClamped o.units q) (unitsClamped owed q)))
    if t.book.owed o.account = owed then t else t.evaluate stop o.account

/-! ## Figures of a posting -/

/-- A tariff class (R172). -/
def Meter.tariff (m : Meter) (n : Nat) : Tariff := m.tariffs.getD n Tariff.blank

/-- The age of a target: the current day less its edition's issue day, and 0 when that is below 0 or it has no edition
(R179). -/
def State.ageOf (s : State) : Target → Nat
  | .page r => match s.cat.edition r.edition with
    | some e => s.meter.day - e.issueDay
    | none => 0
  | .photo _ => 0

/-- The discount of an order. -/
def OrderBook.discountOf (b : OrderBook) (id : Nat) : Nat :=
  match b.order id with
  | some o => o.discount
  | none => 0

/-- The figures that a fulfilment read captures (R106). -/
def State.figuresOf (s : State) (t : Target) (order : Nat) (repeated : Bool) : Figures :=
  let c := s.meter.tariff (s.cat.classOf t)
  { rate := c.rt, creep := c.c, ageThreshold := c.a, surcharge := c.s, discount := s.book.discountOf order
    age := s.ageOf t, repeated }

/-- The RESTORE posting of an item at a publish (R180). -/
def State.restoreCharge (s : State) (t : Target) (order item job changed : Nat) : Charge :=
  let c := s.meter.tariff (s.cat.classOf t)
  { restore := true, order, item, work := job, count := changed, rate := c.rr, creep := 0, ageThreshold := c.a
    surcharge := c.s, discount := s.book.discountOf order, age := s.ageOf t, repeated := false, unset := !c.set }

/-- The DELIVERY posting of a delivery with the figures it captured (R115, R180). -/
def Figures.charge (f : Figures) (order item handle sent : Nat) : Charge :=
  { restore := false, order, item, work := handle, count := sent, rate := f.rate, creep := f.creep
    ageThreshold := f.ageThreshold, surcharge := f.surcharge, discount := f.discount, age := f.age
    repeated := f.repeated, unset := false }

/-! ## Divisor resolution (R186) -/

/-- One order is resolved under the divisor in force, and its account is evaluated when its owed units rose (R186). -/
def State.resolveOrder (stop : StopDeliveries) (s : State) (id : Nat) : State :=
  match s.book.order id with
  | none => s
  | some o =>
    let t := s.accumulate o 0
    if t.book.owed o.account = s.book.owed o.account then t else t.evaluate stop o.account

/-- Every order is resolved, in ascending order id (R186). -/
def State.resolve (stop : StopDeliveries) (s : State) : State :=
  (s.book.orders.map (·.id)).foldl (fun s id => s.resolveOrder stop id) s

end Sys2Proof.Machine
end

