-- ==== Sys2Proof/Machine/Mover.lean ====
section
/-! DEFINITION. The tile mover of chapter 5 and the ends of deliveries of chapter 6: walks, reads, offers, handouts, the
start of a compaction copy, stops, failures and the end of a delivery. -/

namespace Sys2Proof.Machine

/-! ## Walks (R88, R89) -/

/-- Selected columns: ceil(w'/s) (R88). -/
def Walk.columnCount (w : Walk) : Nat := ceilDiv w.region.w w.step

/-- Selected rows: ceil(h'/s) (R88). -/
def Walk.rowCount (w : Walk) : Nat := ceilDiv w.region.h w.step

/-- The tile count of a walk (R88). -/
def Walk.count (w : Walk) : Nat := w.columnCount * w.rowCount

/-- Lines of a walk: one for each selected column with COLUMNS, one for each selected row with ROWS (R89). -/
def Walk.lines (w : Walk) : Nat := if w.columns then w.columnCount else w.rowCount

/-- Places of a line (R89). -/
def Walk.places (w : Walk) : Nat := if w.columns then w.rowCount else w.columnCount

/-- The i-th of n selected columns or rows in a direction (R89). -/
def selected (origin step n : Nat) (back : Bool) (i : Nat) : Nat := origin + step * (if back then n - 1 - i else i)

/-- The linear tile index at a line and place, in an image of a width (R89). -/
def Walk.tile (w : Walk) (imageWidth line place : Nat) : Nat :=
  let xi := if w.columns then line else place
  let yi := if w.columns then place else line
  selected w.region.y0 w.step w.rowCount w.yBack yi * imageWidth +
    selected w.region.x0 w.step w.columnCount w.xBack xi

/-- The tile at a walk position, or none when the last line is passed (R89). -/
def Walk.tileAt (w : Walk) (imageWidth line place : Nat) : Option Nat :=
  if line < w.lines then some (w.tile imageWidth line place) else none

/-- The walk position after one read: the next place, or place 0 of the next line (R89). -/
def Walk.advance (w : Walk) (line place : Nat) : Nat × Nat :=
  if place + 1 < w.places then (line, place + 1) else (line + 1, 0)

/-! ## Deliveries and their channels -/

/-- The delivery record of a handle. -/
def DeliveryTable.find (t : DeliveryTable) (h : Nat) : Option Delivery := t.records.find? (·.handle = h)

/-- Changes one delivery record. -/
def DeliveryTable.modify (h : Nat) (f : Delivery → Delivery) (t : DeliveryTable) : DeliveryTable :=
  { t with records := modifyWhere (·.handle = h) f t.records }

/-- A final state (R110). -/
def DeliveryState.final : DeliveryState → Bool
  | .done | .stopped | .failed => true
  | _ => false

/-- The delivery a channel runs. -/
def State.deliveryOn (s : State) (c : Fin 4) : Option Delivery :=
  match (s.channel c).work with
  | some (.delivery h) => s.table.find h
  | _ => none

/-- A frame of the channel is SENDING, whether TILE, DAMAGED or FILL (R94). -/
def Channel.frameSending (c : Channel) : Bool := c.buffer.any (·.state = .sending) || c.sendingFill.isSome

/-- Reads of a delivery are issued while its channel is RUNNING, with no request outstanding, a place FREE and a tile of
the walk left (R91). -/
def State.issueRead (c : Fin 4) (s : State) : State :=
  let ch := s.channel c
  match s.deliveryOn c with
  | none => s
  | some d =>
    match s.alloc.find d.extent, d.walk.tileAt d.imageWidth ch.line ch.place with
    | some e, some i =>
      if ch.state = .running ∧ s.store.outstanding (.channel c) = false ∧ ch.buffer.length < 4 then
        let next := d.walk.advance ch.line ch.place
        let s := s.modChannel c fun ch =>
          { ch with buffer := ch.buffer ++ [{ state := .reading, index := i }], line := next.1, place := next.2 }
        s.modStore (Store.ask s.now { client := .channel c, slot := e.first + i, kind := .read })
      else s
    | _, _ => s

/-- A HELD head is offered to the desk link (R92). -/
def Channel.offerHead (c : Channel) : Channel :=
  match c.buffer with
  | p :: rest => if p.state = .held then { c with buffer := { p with state := .offered } :: rest } else c
  | [] => c

/-- The frame of the period that still waits is offered: the FILL frame, or the head tile (R112). -/
def Channel.offerPeriodFrame (c : Channel) : Channel :=
  match c.periodFrame with
  | none => c
  | some f =>
    let c := { c with periodFrame := some { f with offered := true } }
    if f.fill.isSome then c else c.offerHead

/-- After a read or at a frame's end the pacing lets a VARIABLE delivery offer its head, and a FIXED one the frame of the
period that waited for the earlier frame to end (R92, R112). -/
def Channel.offerNext (fixed : Bool) (c : Channel) : Channel := if fixed then c.offerPeriodFrame else c.offerHead

/-! ## Handouts (R86, R90, R97) -/

/-- A channel is handed a delivery (R90). -/
def State.startDelivery (c : Fin 4) (d : Delivery) (s : State) : State :=
  let s := s.modMover fun m => { m with queue := m.queue.filter (· ≠ d.handle) }
  let s := s.modChannel c fun _ =>
    { state := .running, work := some (.delivery d.handle), terminal := d.walk.count, started := s.now, period := 1 }
  let s := s.modTable (·.modify d.handle fun d => { d with state := .running, channel := some c })
  let s := if d.pacing.isSome then s.modStore fun st => { st with fixedCount := st.fixedCount + 1 } else s
  s.issueRead c

/-- A compaction ends with an outcome. COMPACT_DONE is raised unless it was stopped (R62, R63). -/
def State.endCompaction (o : CompactionOutcome) (s : State) : State :=
  let s := s.modAlloc (·.modCompaction (Compaction.finish o))
  if o = .stopped then s else s.raise .compactDone

/-- The channel of a copy reads the tile at the next index from the old place (R97 step 1). -/
def State.issueCopyRead (c : Fin 4) (s : State) : State :=
  match s.alloc.compaction.move with
  | none => s
  | some m =>
    let i := (s.channel c).nextCopy
    let s := s.modChannel c fun ch => { ch with buffer := [{ state := .reading, index := i }] }
    s.modStore (Store.ask s.now { client := .channel c, slot := m.oldFirst + i, kind := .read })

/-- A channel is handed the copy request: the search, and the move or the end of the compaction (R59, R60, R97). -/
def State.startCopy (c : Fin 4) (s : State) : State :=
  let s := s.modMover fun m => { m with copyRequest := false }
  match searchMove s.alloc.extents s.alloc.runs with
  | none => s.endCompaction .nothingMovable
  | some (e, f) =>
    let s := s.modAlloc (Allocator.startMove e f)
    let s := s.modChannel c fun _ => { state := .running, work := some .copy, terminal := e.size }
    s.issueCopyRead c

/-- The lowest-numbered IDLE channel (R86). -/
def State.idleChannel (s : State) : Option (Fin 4) := fourIndices.find? fun c => (s.channel c).state = .idle

/-- The oldest delivery in the work queue whose extent is not MOVING (R86). -/
def State.startable (s : State) : Option Delivery :=
  s.mover.queue.findSome? fun h =>
    match s.table.find h with
    | some d => if s.alloc.isMoving d.extent then none else some d
    | none => none

/-- Hands IDLE channels to waiting work, at most as often as the fuel allows (R86). -/
def State.handoutLoop : Nat → State → State
  | 0, s => s
  | fuel + 1, s =>
    match s.idleChannel with
    | none => s
    | some c =>
      match s.startable with
      | some d => State.handoutLoop fuel (s.startDelivery c d)
      | none => if s.mover.copyRequest then State.handoutLoop fuel (s.startCopy c) else s

/-- A handout. Each turn takes an entry out of the queue, so the fuel lasts (R86). -/
def State.handout (s : State) : State := s.handoutLoop (s.mover.queue.length + 2)

/-! ## The end of a delivery (R96, R115) -/

/-- Where an item goes when its delivery ends (R115 step 3). -/
def Item.afterDelivery (final : DeliveryState) (repeated : Bool) (i : Item) : Item :=
  { i with state := if final = .done ∨ repeated then .delivered else .ready }

/-- The work of a delivery's end, on its record in its final state. At LINK_RESET no notice is raised (R98, R115). -/
def State.deliveryEnd (stop : StopDeliveries) (notice : Bool) (d : Delivery) (s : State) : State :=
  let s := s.readerEnd d.extent
  let s := match d.order, d.figures with
    | some (o, i), some f =>
      let s := s.post stop (f.charge o i d.handle d.sent)
      let s := s.modBook (·.modItem o i (Item.afterDelivery d.state f.repeated))
      s.inFlightDown o
    | _, _ => s
  if notice then s.raise (if d.state = .done then .deliveryDone else .deliveryStopped) else s

/-- The record of a delivery takes its final state (R96 step 3). -/
def State.finishRecord (h : Nat) (final : DeliveryState) (cause : EndCause) (s : State) : State :=
  s.modTable (·.modify h fun d => { d with state := final, channel := none, cause := some cause })

/-- The delivery's own rules do their work on the final record (R96 step 3). -/
def State.endRecord (stop : StopDeliveries) (notice : Bool) (h : Nat) (s : State) : State :=
  match s.table.find h with
  | some d => s.deliveryEnd stop notice d
  | none => s

/-- A delivery's channel work ends, in the order of R96. When the posting of step 3 cuts the account off, the ends of the
other deliveries run within that step (log 42). -/
def State.endChannelWork (stop : StopDeliveries) (notice : Bool) (c : Fin 4) (d : Delivery) (final : DeliveryState)
    (cause : EndCause) (s : State) : State :=
  let s := s.modStore (Store.withdraw (.channel c))
  let s := s.modChannel c fun _ => {}
  let s := s.finishRecord d.handle final cause
  let s := s.endRecord stop notice d.handle
  let s := if d.pacing.isSome then s.modStore (Store.fixedDown s.now) else s
  s.handout

/-- A delivery that ends while WAITING leaves the queue and takes steps 3 and 5 of R96 (R94). -/
def State.endWaiting (stop : StopDeliveries) (notice : Bool) (d : Delivery) (cause : EndCause) (s : State) : State :=
  let s := s.modMover fun m => { m with queue := m.queue.filter (· ≠ d.handle) }
  let s := s.finishRecord d.handle .stopped cause
  let s := s.endRecord stop notice d.handle
  s.handout

/-- The channel issues no further read: its outstanding read is withdrawn and every place but a SENDING one becomes FREE
(R94, R113). -/
def State.quietChannel (c : Fin 4) (s : State) : State :=
  (s.modStore (Store.withdraw (.channel c))).modChannel c fun ch =>
    { ch with buffer := ch.buffer.filter (·.state = .sending), periodFrame := none }

/-- A RUNNING delivery is stopped or fails: at once when no frame of it is SENDING, else when that frame ends
(R94, R113). -/
def State.breakOff (stop : StopDeliveries) (c : Fin 4) (d : Delivery) (final : DeliveryState) (cause : EndCause)
    (s : State) : State :=
  let s := s.quietChannel c
  if (s.channel c).frameSending then
    let s := s.modChannel c fun ch => { ch with state := .stopping }
    s.modTable (·.modify d.handle fun d => { d with state := .stopping, cause := some cause })
  else s.endChannelWork stop true c d final cause

/-- A stop acts on a delivery according to its state (R94). -/
def State.stopDelivery (stop : StopDeliveries) (cause : EndCause) (h : Nat) (s : State) : State :=
  match s.table.find h with
  | none => s
  | some d =>
    match d.state, d.channel with
    | .waiting, _ => s.endWaiting stop true d cause
    | .running, some c => s.breakOff stop c d .stopped cause
    | _, _ => s

/-- Puts a number in its place in ascending order. -/
def insertNat (n : Nat) : List Nat → List Nat
  | [] => [n]
  | x :: xs => if n < x then n :: x :: xs else x :: insertNat n xs

/-- The handles of the fulfilment deliveries of an order, ascending. -/
def DeliveryTable.ofOrder (t : DeliveryTable) (order : Nat) : List Nat :=
  ((t.records.filter fun d => (d.order.map Prod.fst) = some order).map (·.handle)).foldr insertNat []

/-- The fulfilment deliveries of an account, its orders in ascending id and within an order in ascending handle (R157). -/
def State.deliveriesOf (s : State) (account : Nat) : List Nat :=
  (s.book.orders.filter (·.account = account)).flatMap fun o => s.table.ofOrder o.id

/-- Every WAITING or RUNNING fulfilment delivery of an account is stopped with cause CUT_OFF (R119). The postings of those
ends may evaluate the account again; the first argument bounds how deep that goes. -/
def State.stopAccount : Nat → Nat → State → State
  | 0, _, s => s
  | depth + 1, account, s =>
    (s.deliveriesOf account).foldl (fun s h => s.stopDelivery (State.stopAccount depth) .cutOff h) s

/-- Stops the fulfilment deliveries of an account. The account is CUT_OFF then, so a posting of these ends evaluates to no
step (R156), and a depth of 8, one for each delivery record, is not used up. -/
def cutOffDeliveries : StopDeliveries := State.stopAccount 8

/-! ## Frames and periods (R92, R112, R113) -/

/-- What follows the end of a frame: the end of the work, or the next read and offer (R92, R94, R113). -/
def State.afterFrame (stop : StopDeliveries) (c : Fin 4) (d : Delivery) (s : State) : State :=
  let ch := s.channel c
  if ch.state = .stopping then
    if d.cause = some .linkLate then s.endChannelWork stop true c d .failed .linkLate
    else if ch.terminal = 0 then s.endChannelWork stop true c d .done .completed
    else s.endChannelWork stop true c d .stopped (d.cause.getD .requested)
  else if ch.terminal = 0 then s.endChannelWork stop true c d .done .completed
  else (s.issueRead c).modChannel c (Channel.offerNext d.pacing.isSome)

/-- A TILE or DAMAGED frame raises its count, a FILL frame the fill count (R92, R107). -/
def Delivery.countFrame (fill damaged : Bool) (d : Delivery) : Delivery :=
  if fill then { d with fills := countUp d.fills }
  else if damaged then { d with damaged := d.damaged + 1 }
  else { d with sent := d.sent + 1 }

/-- The desk link has sent the last word of a channel's frame (R92, R194). -/
def State.frameEnd (stop : StopDeliveries) (c : Fin 4) (s : State) : State :=
  let ch := s.channel c
  match s.deliveryOn c with
  | none => s
  | some d =>
    if ch.sendingFill.isSome then
      let s := s.modChannel c fun ch => { ch with sendingFill := none }
      let s := s.modTable (·.modify d.handle (Delivery.countFrame true false))
      s.afterFrame stop c d
    else
      match ch.buffer with
      | p :: rest =>
        if p.state = .sending then
          let s := s.modChannel c fun ch => { ch with buffer := rest, terminal := ch.terminal - 1 }
          let s := s.modTable (·.modify d.handle (Delivery.countFrame false p.damaged))
          s.afterFrame stop c d
        else s
      | [] => s

/-- The frame due in a period: the next tile not yet offered when it is HELD, else a FILL frame with its index; none when
no tile is left to be offered (R112, log 20). -/
def Channel.frameDue (d : Delivery) (c : Channel) : Option (Option Nat) :=
  match c.buffer.dropWhile (·.state = .sending) with
  | p :: _ => some (if p.state = .held then none else some p.index)
  | [] => (d.walk.tileAt d.imageWidth c.line c.place).map some

/-- The frame of the period is chosen, and offered at once unless the frame before it is SENDING (R112). -/
def Channel.choosePeriodFrame (d : Delivery) (c : Channel) : Channel :=
  match c.frameDue d with
  | none => c
  | some fill =>
    let c := { c with periodFrame := some { fill, offered := false } }
    if c.frameSending then c else c.offerPeriodFrame

/-- The next period of a FIXED delivery begins (R112, R113). -/
def State.periodBegins (stop : StopDeliveries) (c : Fin 4) (d : Delivery) (p : Pacing) (s : State) : State :=
  let ch := s.channel c
  let s := s.reach (ch.started + ch.period * (p.period * Config.periodStep))
  let s := s.modChannel c fun ch => { ch with period := ch.period + 1 }
  if ch.state ≠ .running then s
  else if ch.periodFrame.isSome then s.breakOff stop c d .failed .linkLate
  else if ch.period < p.depth then s
  else s.modChannel c (Channel.choosePeriodFrame d)

/-! ## Completions of a channel's reads (R91, R97) -/

/-- The READING place holds the tile just read (R91). -/
def Place.fill (tile : Tile) (damaged : Bool) (p : Place) : Place :=
  if p.state = .reading then { p with state := .held, tile := some tile, damaged } else p

/-- A channel's read for a delivery completes: the place becomes HELD, the next read is issued, and a VARIABLE delivery
offers its head (R91, R92). -/
def State.readArrives (c : Fin 4) (tile : Tile) (damaged : Bool) (s : State) : State :=
  match s.deliveryOn c with
  | none => s
  | some d =>
    let s := s.modChannel c fun ch => { ch with buffer := ch.buffer.map (Place.fill tile damaged) }
    let s := s.issueRead c
    if d.pacing.isSome then s else s.modChannel c Channel.offerHead

/-- A copy's read completes: the place becomes WRITING and the tile goes to the target, with the check word it was read
with (R97 step 2, R69). -/
def State.copyArrives (c : Fin 4) (tile : Tile) (damaged : Bool) (s : State) : State :=
  match s.alloc.compaction.move with
  | none => s
  | some m =>
    let i := (s.channel c).nextCopy
    let s := s.modChannel c fun ch => { ch with buffer := [{ state := .writing, index := i, tile := some tile, damaged }] }
    s.modStore (Store.ask s.now { client := .channel c, slot := m.target + i, kind := .write tile.bytes (some tile.check) })

/-! ## Desk link reset (R98) -/

/-- One delivery ends at LINK_RESET on the desk link: a WAITING one leaves the queue, a RUNNING or STOPPING one ends
STOPPED at once (R98). -/
def State.resetDelivery (stop : StopDeliveries) (s : State) (h : Nat) : State :=
  match s.table.find h with
  | none => s
  | some d =>
    match d.state, d.channel with
    | .waiting, _ => s.endWaiting stop false d .requested
    | .running, some c => s.endChannelWork stop false c d .stopped .requested
    | .stopping, some c => s.endChannelWork stop false c d .stopped .requested
    | _, _ => s

/-- Every delivery ends, the WAITING ones first, and every record is freed (R98). -/
def State.endAllDeliveries (stop : StopDeliveries) (s : State) : State :=
  let waiting := (s.table.records.filter (·.state = .waiting)).map (·.handle)
  let s := waiting.foldl (State.resetDelivery stop) s
  let s := (s.table.records.map (·.handle)).foldl (State.resetDelivery stop) s
  s.modTable fun t => { t with records := [] }

end Sys2Proof.Machine
end

