-- ==== Sys2Proof/Machine/Engine.lean ====
section
/-! DEFINITION. The restoration engine of chapter 7: requests and jobs, starting, the survey figures and detectors, the tone
mapping, the correction, publish, failure and cancellation, and the profiles. It also holds the end of a compaction move,
which is reported to the mover and to the engine (R61). -/

namespace Sys2Proof.Machine

/-! ## Jobs -/

/-- The job is SURVEYING or CORRECTING (R122). -/
def Job.active (j : Job) : Bool := j.state = .surveying || j.state = .correcting

/-- The active job: the oldest one, when it is SURVEYING or CORRECTING (R122). -/
def Engine.activeJob (g : Engine) : Option Job :=
  match g.queue with
  | j :: _ => if j.active then some j else none
  | [] => none

/-- The job of the queue that has an id. -/
def Engine.find (g : Engine) (id : Nat) : Option Job := g.queue.find? (·.id = id)

/-- Changes one job of the queue. -/
def Engine.modJob (id : Nat) (f : Job → Job) (g : Engine) : Engine := { g with queue := modifyWhere (·.id = id) f g.queue }

/-- A job's id is in the queue or in the ended-job list (R122). -/
def Engine.idInUse (g : Engine) (id : Nat) : Bool := g.queue.any (·.id = id) || g.ended.any (·.id = id)

/-- A tone profile (R145). -/
def Engine.profile (g : Engine) (n : Nat) : Profile := g.profiles.getD n Profile.identity

/-- A revision's tile count. -/
def Revision.tiles (v : Revision) : Nat := v.width * v.height

/-- Asks for a transfer through the restoration port (R131). -/
def State.askRestoration (slot : Nat) (kind : TransferKind) (s : State) : State :=
  s.modStore (Store.ask s.now { client := .restoration, slot, kind })

/-- The tile the active job reads next: the one to survey, or the one to correct (R132, R140). -/
def Job.nextTile (j : Job) : Nat := if j.state = .surveying then j.surveyed else j.corrected

/-- The active job reads its next raw tile. It makes no read while the raw extent is MOVING, nor while a request of the
port is outstanding (R130, R131). -/
def State.engineRead (s : State) : State :=
  match s.engine.activeJob with
  | none => s
  | some j =>
    match s.cat.revision j.revision with
    | none => s
    | some v =>
      match s.alloc.find v.raw with
      | none => s
      | some e =>
        if e.state = .moving ∨ s.store.outstanding .restoration = true then s
        else s.askRestoration (e.first + j.nextTile) .read

/-! ## The end of a job (R142, R143) -/

/-- Appends a record to the ended-job list, which holds 8 (R128). -/
def Engine.addEnded (j : Job) (g : Engine) : Engine :=
  { g with ended := (if 8 ≤ g.ended.length then g.ended.tail else g.ended) ++ [j] }

/-- An item whose job failed: READY, finish RAW, DOWNGRADED (R142 step 4). -/
def Item.downgrade (i : Item) : Item := { i with state := .ready, finish := .raw, downgraded := true }

/-- The items of a job's requester list become READY and DOWNGRADED, and ITEM_READY is raised for each (R142 step 4). -/
def State.downgradeItems (rs : List (Nat × Nat)) (s : State) : State :=
  rs.foldl (fun s r => (s.modBook (·.modItem r.1 r.2 Item.downgrade)).raise .itemReady) s

/-- The reader a job holds on its raw extent: an active one holds it (R130 step 4). -/
def State.jobReaderEnd (j : Job) (s : State) : State :=
  if j.active then
    match s.cat.revision j.revision with
    | some v => s.readerEnd v.raw
    | none => s
  else s

/-- A job that publishes nothing ends, in steps 1 to 5 of R142. RESTORE_FAILED is not raised for a cancel by request
(R143). -/
def State.endJob (final : JobState) (cause : JobEnd) (refusal : Option AllocRefusal) (j : Job) (s : State) : State :=
  let s := match j.scratch with
    | some n => s.modAlloc (·.release n)
    | none => s
  let s := s.modEngine fun g => { g with queue := g.queue.filter (·.id ≠ j.id) }
  let s := s.jobReaderEnd j
  let s := s.downgradeItems j.requesters
  if j.desk then
    let s := if cause = .requested then s else s.raise .restoreFailed
    s.modEngine (Engine.addEnded
      { j with state := final, endCause := some cause, allocRefusal := refusal, scratch := none })
  else s

/-! ## Starting (R130) -/

/-- The record of a job with the survey settings and the profile's values captured (R130 step 2). -/
def Job.capture (settings : SurveySettings) (profileTone : Option Tone) (j : Job) : Job := { j with settings, profileTone }

/-- The record of a job that starts with its values captured: SURVEYING, detectors loaded (R130 step 5). -/
def Job.started (scratch : Nat) (j : Job) : Job :=
  { j with
    state := .surveying, scratch := some scratch
    surveyed := 0, fadeCounter := 0, voidCounter := j.settings.voidLimit, openBand := .closed, openVoid := .closed
    inStatistics := 0, faint := 0, bAuto := 0, wAuto := 0, defects := [], defectsOverflow := false }

/-- The profile's values that a job captures (R130 step 2). -/
def Engine.capturedTone (g : Engine) : ToneSource → Option Tone
  | .auto => none
  | .profile n => some (g.profile n).tone

/-- The oldest job starts, or fails at its start; one that is refused its scratch extent keeps what it captured (R130). -/
def State.startJob (j : Job) (s : State) : State :=
  match s.cat.revision j.revision with
  | none => s
  | some v =>
    if v.damage.overflow then s.endJob .failed .damageOverflow none j
    else
      let j := j.capture s.engine.settings (s.engine.capturedTone j.source)
      match s.alloc.place v.tiles with
      | .error r => s.endJob .failed .noSpace (some r) j
      | .ok first =>
        let made := s.alloc.occupy first v.tiles (.restored j.revision) .building
        let s := s.modAlloc fun _ => made.2
        let s := s.modAlloc (Allocator.takeReader v.raw)
        let s := s.modEngine fun g => g.modJob j.id fun _ => j.started made.1
        s.engineRead

/-- The oldest job starts when it is QUEUED, and the next one after each that fails at its start (R122). -/
def State.startJobs : Nat → State → State
  | 0, s => s
  | fuel + 1, s =>
    match s.engine.queue with
    | j :: _ => if j.state = .queued then State.startJobs fuel (s.startJob j) else s
    | [] => s

/-- Starts what may start. Each turn that goes on takes a job out of the queue, so the fuel lasts (R122). -/
def State.startNext (s : State) : State := s.startJobs (s.engine.queue.length + 1)

/-! ## Cancelling (R126, R127, R143) -/

/-- The end cause of a cancel mark (R121). -/
def CancelCause.toEnd : CancelCause → JobEnd
  | .requested => .requested
  | .noRequester => .noRequester
  | .retired => .retired

/-- A cancel mark is set; RETIRED stays when it is there (log 18). -/
def Job.mark (cause : CancelCause) (j : Job) : Job :=
  { j with cancel := if j.cancel = some .retired then some .retired else some cause }

/-- The restoration port's transfer is in flight (R131). -/
def Store.restorationInFlight (st : Store) : Bool := (st.inFlight.map (·.client)) = some .restoration

/-- A job is cancelled: a QUEUED one at once; an active one is marked, and ends at once when no transfer of it is in flight
(R126, R131). -/
def State.cancelJob (cause : CancelCause) (j : Job) (s : State) : State :=
  if j.state = .queued then s.endJob .cancelled cause.toEnd none j
  else if s.store.restorationInFlight then s.modEngine (·.modJob j.id (Job.mark cause))
  else
    let s := s.modStore (Store.withdraw .restoration)
    (s.endJob .cancelled ((j.mark cause).cancel.getD cause).toEnd none (j.mark cause)).startNext

/-- A job left with its desk flag clear and no requester is cancelled (R126). -/
def State.cancelIfAlone (id : Nat) (s : State) : State :=
  match s.engine.find id with
  | some j => if !j.desk && j.requesters = [] then s.cancelJob .noRequester j else s
  | none => s

/-- An item leaves the job it waits on (R126). -/
def State.leaveJob (order item : Nat) (s : State) : State :=
  match s.engine.queue.find? fun j => j.requesters.contains (order, item) with
  | none => s
  | some j =>
    (s.modEngine (·.modJob j.id fun j => { j with requesters := j.requesters.filter (· ≠ (order, item)) })).cancelIfAlone j.id

/-! ## Requests (R123 to R125) -/

/-- What the engine answers to a request. -/
inductive EngineAnswer where
  | alreadyRestored
  | refused (r : Result)
  | joined (id : Nat)
  | appended (id : Nat)
  deriving DecidableEq, Repr

/-- A join clears a cancel mark that is not RETIRED (R125). -/
def Job.unmark (j : Job) : Job := { j with cancel := if j.cancel = some .retired then some .retired else none }

/-- A requester joins a job: the desk, or an item (R125). -/
def Job.join (who : Option (Nat × Nat)) (j : Job) : Job :=
  match who with
  | none => { j.unmark with desk := true }
  | some r => { j.unmark with requesters := j.requesters ++ [r] }

/-- A new job with its first requester (R123, R124). -/
def Job.fresh (id : Nat) (r : RevName) (source : ToneSource) (who : Option (Nat × Nat)) : Job :=
  { id, revision := r, source, desk := who.isNone, requesters := who.toList }

/-- Rows 3 to 7 of Table 7-3: the answer, and the state with the request joined or a QUEUED job appended. The caller starts
the queue (R123, R124, log 32). -/
def State.requestJob (who : Option (Nat × Nat)) (r : RevName) (v : Revision) (source : ToneSource) (s : State) :
    EngineAnswer × State :=
  if (v.restored.map (·.source)) = some source then (.alreadyRestored, s)
  else if v.damage.overflow then (.refused .notRestorable, s)
  else
    match s.engine.queue.find? fun j => j.revision = r && j.source = source with
    | some j =>
      if who.isSome && 4 ≤ j.requesters.length then (.refused .jobFull, s)
      else (.joined j.id, s.modEngine (·.modJob j.id (Job.join who)))
    | none =>
      if 16 ≤ s.engine.queue.length then (.refused .queueFull, s)
      else
        let id := nextFree 255 s.engine.idInUse 25 s.engine.lastId
        (.appended id, s.modEngine fun g => { g with queue := g.queue ++ [Job.fresh id r source who], lastId := id })

/-! ## The survey (R132 to R136) -/

/-- The four figures of a tile (R132). -/
structure TileFigures where
  low : Nat
  high : Nat
  mean : Nat
  edges : Nat
  deriving DecidableEq, Repr

/-- The difference of two pixel values in absolute value. -/
def pixelGap (a b : Nat) : Nat := (a - b) + (b - a)

/-- Adjacent pairs of a pixel row that differ by at least the edge threshold (R132). -/
def rowEdges (threshold : Nat) : List Nat → Nat
  | a :: b :: rest => (if threshold ≤ pixelGap a b then 1 else 0) + rowEdges threshold (b :: rest)
  | _ => 0

/-- The 64 pixel rows of a tile (R206). -/
def pixelRows (ps : List Nat) : List (List Nat) := (List.range 64).map fun r => (ps.drop (64 * r)).take 64

/-- Tile min, max, mean and edge count (R132). -/
def measureTile (threshold : Nat) (t : Tile) : TileFigures :=
  let ps := t.bytes.map BitVec.toNat
  { low := ps.foldl min 255, high := ps.foldl max 0, mean := ps.sum / tileBytes
    edges := ((pixelRows ps).map (rowEdges threshold)).sum }

/-- The page figures take a tile that is not damaged (R133). -/
def Job.statistics (f : TileFigures) (j : Job) : Job :=
  if j.inStatistics = 0 then { j with inStatistics := 1, bAuto := f.low, wAuto := f.mean }
  else { j with inStatistics := j.inStatistics + 1, bAuto := min j.bAuto f.low, wAuto := max j.wAuto f.mean }

/-- A defect opens: kept at the end of the list, or the list is full (R136). -/
def Job.keepDefect (d : Defect) (j : Job) : OpenDefect × Job :=
  if j.defects.length < 8 then (.kept j.defects.length, { j with defects := j.defects ++ [d] })
  else (.notKept, { j with defectsOverflow := true })

/-- An open defect grows by one tile (R134, R135). -/
def Job.lengthen (o : OpenDefect) (j : Job) : Job :=
  match o with
  | .kept p => { j with defects := j.defects.modify p fun d => { d with length := d.length + 1 } }
  | _ => j

/-- A faint tile of the fade detector (R134). -/
def Job.fadeFaint (i : Nat) (j : Job) : Job :=
  let n := j.fadeCounter + 1
  let j := { j with fadeCounter := n }
  if j.openBand = .closed then
    if n = j.settings.fadeRun then
      let k := j.keepDefect ⟨.fadedBand, i + 1 - n, n⟩
      { k.2 with openBand := k.1 }
    else j
  else j.lengthen j.openBand

/-- The fade counter starts again and the open band closes (R134). -/
def Job.fadeClose (j : Job) : Job := { j with fadeCounter := 0, openBand := .closed }

/-- The fade detector takes a tile; the last tile of a row closes the band after it (R134). -/
def Job.fade (i : Nat) (faint lastOfRow : Bool) (j : Job) : Job :=
  let j := if faint then j.fadeFaint i else j.fadeClose
  if lastOfRow then j.fadeClose else j

/-- The void detector takes a tile (R135). -/
def Job.voidRun (i edges : Nat) (j : Job) : Job :=
  if 0 < edges then { j with voidCounter := j.settings.voidLimit, openVoid := .closed }
  else if j.voidCounter = 0 then j.lengthen j.openVoid
  else
    let j := { j with voidCounter := j.voidCounter - 1 }
    if j.voidCounter = 0 then
      let k := j.keepDefect ⟨.voidRun, i + 1 - j.settings.voidLimit, j.settings.voidLimit⟩
      { k.2 with openVoid := k.1 }
    else j

/-- One tile is surveyed: page figures, fade detector, void detector (R132). `figures` is absent for a damaged tile. -/
def Job.surveyTile (width i : Nat) (figures : Option TileFigures) (j : Job) : Job :=
  let faint := match figures with
    | some f => decide (f.high - f.low < j.settings.contrast)
    | none => true
  let edges := match figures with
    | some f => f.edges
    | none => 0
  let j := match figures with
    | some f => j.statistics f
    | none => j
  let j := j.fade i faint ((i + 1) % width = 0)
  let j := j.voidRun i edges
  { j with surveyed := j.surveyed + 1, faint := if faint then j.faint + 1 else j.faint }

/-! ## Tone mapping (R138, R139) -/

/-- The values before the range check: AUTO takes the survey's, a profile source the captured ones (R138). -/
def Job.sourceTone (j : Job) : Tone :=
  match j.source, j.profileTone with
  | .profile _, some t => t
  | _, _ => ⟨j.bAuto, j.wAuto, 8⟩

/-- A range of less than 16 is too narrow (R138). -/
def Tone.narrow (t : Tone) : Bool := t.w - t.b < 16

/-- The end of the survey: the tone values are fixed and the job is CORRECTING (R138). An open void run is closed (R135). -/
def Job.fixTones (j : Job) : Job :=
  let t := j.sourceTone
  { j with
    state := .correcting, openVoid := .closed, corrected := 0, changed := 0, blanked := 0
    tone := some (if t.narrow then ⟨0, 255, t.s⟩ else t), lowRange := t.narrow }

/-- Steps 1 and 2 of the mapping (R139). -/
def Tone.stretch (t : Tone) (v : Nat) : Nat :=
  if v ≤ t.b then 0
  else if t.w ≤ v then 255
  else ((v - t.b) * 510 + (t.w - t.b)) / (2 * (t.w - t.b))

/-- The mapping of a pixel value, with the speckle clean-up (R139). -/
def Tone.map (t : Tone) (v : Nat) : Nat := if 255 - t.s ≤ t.stretch v then 255 else t.stretch v

/-- A tile mapped pixel by pixel (R139). -/
def Tone.mapTile (t : Tone) (bs : List Byte) : List Byte := bs.map fun b => BitVec.ofNat 8 (t.map b.toNat)

/-- A blanked tile (R140). -/
def blankTile : List Byte := List.replicate tileBytes 255

/-! ## Publish (R141) -/

/-- The rendition that a job made (R141 step 2). -/
def Job.rendition (j : Job) (scratch : Nat) : Restored :=
  { extent := scratch, source := j.source, tone := j.tone.getD ⟨0, 255, 8⟩, lowRange := j.lowRange, defects := j.defects
    defectsOverflow := j.defectsOverflow, changed := j.changed, blanked := j.blanked }

/-- The damaged-tile list without its RESTORED entries (R9, R141 step 2). -/
def DamageList.dropRestored (d : DamageList) : DamageList := { d with entries := d.entries.filter (·.rendition = .raw) }

/-- The item's target, when the order still holds the item. -/
def OrderBook.targetOf (b : OrderBook) (order n : Nat) : Option Target := (b.item order n).map (·.target)

/-- One requester of a job that published: its item is READY, a RESTORE posting is made, ITEM_READY is raised (R141
step 5). -/
def State.itemPublished (stop : StopDeliveries) (j : Job) (s : State) (r : Nat × Nat) : State :=
  match s.book.targetOf r.1 r.2 with
  | none => s
  | some t =>
    let s := s.modBook (·.modItem r.1 r.2 fun i => { i with state := .ready, finish := .restored })
    (s.post stop (s.restoreCharge t r.1 r.2 j.id j.changed)).raise .itemReady

/-- A publish, in the order of R141. -/
def State.publish (stop : StopDeliveries) (j : Job) (scratch : Nat) (s : State) : State :=
  let old := ((s.cat.revision j.revision).bind (·.restored)).map (·.extent)
  let s := s.modAlloc (·.modExtent scratch fun e => { e with state := .live })
  let s := s.modCat (·.modRevision j.revision fun v =>
    { v with restored := some (j.rendition scratch), damage := v.damage.dropRestored })
  let s := match old with
    | some n => s.modAlloc (·.release n)
    | none => s
  let s := s.modEngine fun g => { g with queue := g.queue.filter (·.id ≠ j.id) }
  let s := s.jobReaderEnd j
  let s := j.requesters.foldl (State.itemPublished stop j) s
  let s := if j.desk then
      (s.raise .restoreDone).modEngine
        (Engine.addEnded { j with state := .done, endCause := some .published, scratch := none })
    else s
  s.startNext

/-! ## Tile boundaries (R131, R137) -/

/-- The revision's DAMAGE_OVERFLOW flag is set (R137). -/
def State.jobOverflow (s : State) (j : Job) : Bool := ((s.cat.revision j.revision).map (·.damage.overflow)).getD false

/-- Raw tile i is damaged: its read is, or its revision lists it (R132, R140). -/
def State.rawDamaged (s : State) (j : Job) (i : Nat) (bad : Bool) : Bool :=
  bad || ((s.cat.revision j.revision).map fun v => v.damage.entries.contains ⟨i, .raw⟩).getD false

/-- At a tile boundary a cancel mark ends the job; otherwise it goes on (R131). -/
def State.atBoundary (j : Job) (goOn : State → State) (s : State) : State :=
  match j.cancel with
  | some cause => (s.endJob .cancelled cause.toEnd none j).startNext
  | none => goOn s

/-- After a raw read the job fails when DAMAGE_OVERFLOW is set (R137). -/
def State.afterRawRead (j : Job) (goOn : State → State) (s : State) : State :=
  if s.jobOverflow j then (s.endJob .failed .damageOverflow none j).startNext else goOn s

/-- A survey read completes (R132, R137, R138, log 18). -/
def State.surveyArrives (tile : Tile) (bad : Bool) (j : Job) (v : Revision) (s : State) : State :=
  s.afterRawRead j fun s =>
    let i := j.surveyed
    let figures := if s.rawDamaged j i bad then none else some (measureTile j.settings.edge tile)
    let done := j.surveyTile v.width i figures
    let s := s.modEngine (·.modJob j.id fun _ => done)
    s.atBoundary done fun s =>
      let s := if done.surveyed = v.tiles then s.modEngine (·.modJob j.id Job.fixTones) else s
      s.engineRead

/-- What the correction pass writes for a tile, and the job with its counts (R140). -/
def Job.correct (damaged : Bool) (bytes : List Byte) (j : Job) : List Byte × Job :=
  let t := j.tone.getD ⟨0, 255, 8⟩
  if damaged then (blankTile, { j with blanked := j.blanked + 1 })
  else
    let out := t.mapTile bytes
    (out, if out = bytes then j else { j with changed := j.changed + 1 })

/-- A correction read completes: the tile is blanked or mapped and counted, and its write to the scratch extent is asked for
(R140). With a cancel mark standing the job ends before that, so that tiles changed and tiles blanked do not rise for the
tile: R140 and R131 give no order, and this one is the model's (DEDUCED, log 18). -/
def State.correctionArrives (tile : Tile) (bad : Bool) (j : Job) (s : State) : State :=
  s.afterRawRead j fun s => s.atBoundary j fun s =>
    match (j.scratch.bind s.alloc.find) with
    | none => s
    | some e =>
      let out := j.correct (s.rawDamaged j j.corrected bad) tile.bytes
      let s := s.modEngine (·.modJob j.id fun _ => out.2)
      s.askRestoration (e.first + j.corrected) (.write out.1 none)

/-- A correction write completes: the job is cancelled, publishes, or goes on (R140, R143). -/
def State.correctionWritten (stop : StopDeliveries) (j : Job) (v : Revision) (s : State) : State :=
  let done := { j with corrected := j.corrected + 1 }
  let s := s.modEngine (·.modJob j.id fun _ => done)
  s.atBoundary done fun s =>
    if done.corrected = v.tiles then
      match done.scratch with
      | some n => s.publish stop done n
      | none => s
    else s.engineRead

/-! ## Desk link reset (R144) -/

/-- The desk flag of every job is cleared and the ended-job list emptied; then the jobs left alone are cancelled, the
QUEUED ones first (R144, log 19). -/
def State.resetDeskFlags (s : State) : State :=
  let s := s.modEngine fun g => { g with queue := g.queue.map fun j => { j with desk := false }, ended := [] }
  let queued := (s.engine.queue.filter (·.state = .queued)).map (·.id)
  let active := (s.engine.queue.filter (·.active)).map (·.id)
  (queued ++ active).foldl (fun s id => s.cancelIfAlone id) s

/-! ## Profiles (R145, R147) -/

/-- The values of a profile, in the order of its check word (R206). -/
def Tone.values (t : Tone) : List Nat := [t.b, t.w, t.s]

/-- A profile stored with a new check word (R145). -/
def Profile.stored (t : Tone) : Profile := { tone := t, check := checkValues t.values, repaired := false }

/-- A profile at a start: kept when its check word matches, else repaired (R147). -/
def Profile.verify (p : Profile) : Profile := if checkValues p.tone.values = p.check then p else Profile.identity

/-! ## The end of a compaction move (R61) -/

/-- The next copy request is placed in the work queue (R61 step 6, R58). -/
def State.requestCopy (s : State) : State :=
  (s.modAlloc (·.modCompaction fun c => { c with state := .waiting })).modMover fun m => { m with copyRequest := true }

/-- A move ends, in the order of R61. The end is reported before the channel is given back. -/
def State.moveEnd (c : Fin 4) (m : Move) (s : State) : State :=
  let size := ((s.alloc.find m.extent).map (·.size)).getD 0
  let s := s.modAlloc (Allocator.relocate m size)
  let s := s.modAlloc (Allocator.settleMoved m.extent)
  let s := s.handout.engineRead
  let s := s.modAlloc (·.modCompaction fun c => { c with move := none, made := c.made + 1 })
  let s := (s.modChannel c fun _ => {}).handout
  let k := s.alloc.compaction
  if k.stop then s.endCompaction .stopped
  else if k.made = k.asked then s.endCompaction .done
  else s.requestCopy.handout

/-- A copy's write completes: the counts move on, and the next tile is read or the move ends (R97 step 3). -/
def State.copyWritten (c : Fin 4) (s : State) : State :=
  let s := s.modAlloc (·.modCompaction fun k => { k with move := k.move.map fun m => { m with copied := m.copied + 1 } })
  let s := s.modChannel c fun ch => { ch with buffer := [], nextCopy := ch.nextCopy + 1, terminal := ch.terminal - 1 }
  if (s.channel c).terminal ≠ 0 then s.issueCopyRead c
  else
    match s.alloc.compaction.move with
    | some m => s.moveEnd c m
    | none => s

end Sys2Proof.Machine
end

