-- ==== Sys2Proof/Machine/Deposits.lean ====
section
/-! DEFINITION. The deposit port of chapter 2: claiming a slot, taking a tile frame, completion, aborts, and the tile frames
and refusals that the receiver holds (R188, R193). -/

namespace Sys2Proof.Machine

/-! ## Slots and handles -/

/-- The deposit slots with their numbers, lowest first. -/
def DepositPort.numbered (p : DepositPort) : List (Fin 4 × Option Deposit) := fourIndices.map fun i => (i, p.slots.get i)

/-- The slot that holds a handle, RECEIVING or FINISHING, with its number (R28, R34, R35). -/
def DepositPort.find (p : DepositPort) (h : Nat) : Option (Fin 4 × Deposit) :=
  p.numbered.findSome? fun (i, d) => match d with
    | some d => if d.handle = h then some (i, d) else none
    | none => none

/-- The deposits in their slots, lowest slot first. -/
def DepositPort.occupants (p : DepositPort) : List Deposit := p.numbered.filterMap Prod.snd

/-- The lowest FREE slot (log 11). -/
def DepositPort.freeSlot (p : DepositPort) : Option (Fin 4) := fourIndices.find? fun i => (p.slots.get i).isNone

/-- A handle is in use while a slot or an ended-deposit entry holds it (R25). -/
def DepositPort.handleInUse (p : DepositPort) (h : Nat) : Bool := p.occupants.any (·.handle = h) || p.ended.any (·.handle = h)

/-- The next deposit handle, found within 13 steps (R25). -/
def DepositPort.nextHandle (p : DepositPort) : Nat := nextFree 255 p.handleInUse 13 p.lastHandle

/-- Writes a deposit slot. -/
def DepositPort.setSlot (i : Fin 4) (d : Option Deposit) (p : DepositPort) : DepositPort :=
  { p with slots := p.slots.set i d }

/-- The moment an idle timer loaded now expires (R31). -/
def State.idleEnd (s : State) : Nat := s.now + s.port.timeout * Config.second

/-- A slot is claimed RECEIVING with a new handle, which is answered (R24 to R27, R39). -/
def State.claimSlot (i : Fin 4) (target : Target) (extent total : Nat) (s : State) : Nat × State :=
  let h := s.port.nextHandle
  let d : Deposit := { handle := h, target, extent, total, next := 0, finishing := false, expires := some s.idleEnd }
  (h, s.modPort fun p => { p.setSlot i (some d) with lastHandle := h })

/-! ## Ends of deposits -/

/-- Appends to the ended-deposit list, which holds 8 (R33). -/
def DepositPort.addEnded (e : EndedDeposit) (p : DepositPort) : DepositPort :=
  { p with ended := (if 8 ≤ p.ended.length then p.ended.tail else p.ended) ++ [e] }

/-- The ended-deposit entry of a deposit: its next expected index is the count of tiles accepted (R28, R33). -/
def Deposit.toEnded (o : DepositOutcome) (d : Deposit) : EndedDeposit :=
  { handle := d.handle, target := d.target, outcome := o, accepted := d.next, total := d.total
    checkRefusals := d.checkRefusals, orderRefusals := d.orderRefusals }

/-- The target of an aborted deposit leaves the catalogue, and a CLOSING edition left with no fill closes (R32, R41). -/
def State.removeTarget (t : Target) (s : State) : State :=
  match t with
  | .page r => (s.removeRevision r).closeIfDone r.edition
  | .photo id => s.removePhoto id

/-- A tile of a deposit in the tile buffer is dropped and its write is not made (R29, R32). -/
def State.dropBuffered (handle : Nat) (s : State) : State :=
  match s.port.buffer with
  | some b =>
    if b.handle = handle then (s.modPort fun p => { p with buffer := none }).modStore (Store.withdraw .deposit) else s
  | none => s

/-- A deposit is aborted, with the ended entry of its outcome, if any (R32). -/
def State.abortDeposit (i : Fin 4) (d : Deposit) (outcome : Option DepositOutcome) (s : State) : State :=
  let s := s.removeTarget d.target
  let s := s.dropBuffered d.handle
  let s := s.modPort (DepositPort.setSlot i none)
  match outcome with
  | some o => s.modPort (DepositPort.addEnded (d.toEnded o))
  | none => s

/-- The target of a completed deposit is COMPLETE (R30). -/
def State.completeTarget (t : Target) (s : State) : State :=
  match t with
  | .page r =>
    let s := s.modCat (·.modRevision r fun v => { v with state := .complete })
    (s.modCat (·.modEdition r.edition fun e => { e with filling := e.filling - 1 })).closeIfDone r.edition
  | .photo id => s.modCat (·.modPhoto id fun p => { p with state := .complete })

/-- A deposit completes (R30). -/
def State.completeDeposit (i : Fin 4) (d : Deposit) (s : State) : State :=
  let s := s.modAlloc (·.modExtent d.extent fun e => { e with state := .live })
  let s := s.completeTarget d.target
  let s := s.modPort fun p => (p.setSlot i none).addEnded (d.toEnded .done)
  s.raise .depositDone

/-- The write of the buffered tile completes: the buffer empties, and the deposit completes when that was its last tile
(R29, R30). -/
def State.tileWritten (s : State) : State :=
  match s.port.buffer with
  | none => s
  | some b =>
    let s := s.modPort fun p => { p with buffer := none }
    match s.port.find b.handle with
    | some (i, d) => if d.finishing ∧ b.index + 1 = d.total then s.completeDeposit i d else s
    | none => s

/-! ## Tile frame intake (R28, R193) -/

/-- The reply to a TILE frame: tag 0 and the frame's handle and index (R204). -/
def tileReply (r : Result) (handle index : Nat) : Answer := { result := r, fields := [.one handle, .one index] }

/-- A deposit with an accepted frame: the index rises, and the timer is reloaded or stops (R28, R31). -/
def Deposit.accept (idleEnd : Nat) (d : Deposit) : Deposit :=
  if d.next + 1 < d.total then { d with next := d.next + 1, expires := some idleEnd }
  else { d with next := d.next + 1, finishing := true, expires := none }

/-- The checks of R28 on a frame of a slot: the refusal, if any. -/
def Deposit.check (index : Nat) (t : Tile) (d : Deposit) : Option Result :=
  if d.finishing ∨ index ≠ d.next then some .tileOrder
  else if checkBytes t.bytes ≠ t.check then some .checkError
  else none

/-- A deposit with its refusal counted (R28). -/
def Deposit.refused (r : Result) (d : Deposit) : Deposit :=
  if r = .tileOrder then { d with orderRefusals := countUp d.orderRefusals }
  else { d with checkRefusals := countUp d.checkRefusals }

/-- The port takes a tile frame: the checks of R28, the tile into the buffer, its write asked for, and the reply. -/
def State.takeTile (handle index : Nat) (t : Tile) (s : State) : Answer × State :=
  match s.port.find handle with
  | none => (tileReply .noDeposit handle index, s)
  | some (i, d) =>
    match d.check index t with
    | some r => (tileReply r handle index, s.modPort (DepositPort.setSlot i (some (d.refused r))))
    | none =>
      match s.alloc.find d.extent with
      | none => (tileReply .noDeposit handle index, s)
      | some e =>
        let s := s.modPort fun p =>
          { p.setSlot i (some (d.accept s.idleEnd)) with buffer := some { handle, index, tile := t } }
        let s := s.modStore
          (Store.ask s.now { client := .deposit, slot := e.first + index, kind := .write t.bytes (some t.check) })
        (tileReply .ok handle index, s)

/-- The port can be passed a tile frame: its buffer is empty and a reply place of the production link is free (R193). -/
def State.tilePassable (s : State) : Bool := s.port.buffer.isNone && s.production.placeFree

/-- A tile frame is passed to the port and answered with tag 0 (R193, R204). -/
def State.passTile (handle index : Nat) (t : Tile) (s : State) : State :=
  let r := s.takeTile handle index t
  r.2.reply .production 0 r.1

/-- A tile frame held at the receiver is passed as soon as it can be (R193). -/
def State.passHeldTile (s : State) : State :=
  match s.production.held with
  | some (.tile handle index t) =>
    if s.tilePassable then (s.modLink .production fun k => { k with held := none }).passTile handle index t else s
  | _ => s

/-- A refusal held at the receiver takes a freed reply place (R188). -/
def State.passHeldRefusal (l : LinkId) (s : State) : State :=
  match (s.link l).held with
  | some (.refusal r) =>
    if (s.link l).placeFree then s.modLink l fun k => { k with held := none, replies := k.replies ++ [r] } else s
  | _ => s

/-- A request that may empty the tile buffer: a held tile frame follows its reply (R193). -/
def serveDeposit (l : LinkId) (home : Home) (layout : List Layout) (r : Request) (body : Body) (s : State) : Outcome :=
  serve (fun s => s.passHeldTile.settle) l home layout r body s

/-- The open deposits into an edition, in ascending page number (R42 step 2). -/
def insertByPage (x : Nat × Nat) : List (Nat × Nat) → List (Nat × Nat)
  | [] => [x]
  | y :: ys => if x.1 < y.1 then x :: y :: ys else y :: insertByPage x ys

/-- The page and handle of a deposit into an edition. -/
def Deposit.pageOf (ed : Nat) (d : Deposit) : Option (Nat × Nat) :=
  match d.target with
  | .page r => if r.edition = ed then some (r.page, d.handle) else none
  | .photo _ => none

/-- The handles of the open deposits into an edition, in ascending page number (R42 step 2). -/
def DepositPort.ofEdition (p : DepositPort) (ed : Nat) : List Nat :=
  ((p.occupants.filterMap (Deposit.pageOf ed)).foldr insertByPage []).map Prod.snd

/-- One deposit is aborted by its handle. -/
def State.abortHandle (outcome : Option DepositOutcome) (s : State) (h : Nat) : State :=
  match s.port.find h with
  | some (i, d) => s.abortDeposit i d outcome
  | none => s

/-- Every open deposit is aborted in ascending handle order with no entry and no notice, and the ended-deposit list is
cleared (R46). -/
def State.resetDeposits (s : State) : State :=
  let s := (((s.port.occupants.map (·.handle)).foldr insertNat []).foldl (State.abortHandle none) s)
  (s.modPort fun p => { p with ended := [], buffer := none }).modStore (Store.withdraw .deposit)

end Sys2Proof.Machine
end

