-- ==== Sys2Proof/Machine/Start.lean ====
section
/-! DEFINITION. Starts and resets: the decision between cold and warm (R67), the start work of each block in the order of
Table 4-1 (R68), the assertion of RESET, and LINK_RESET (R195, R196). -/

namespace Sys2Proof.Machine

/-! ## The store -/

/-- The header is good: its check word matches and its slot count is one of the two (R67). -/
def StoreHeader.isGood (h : StoreHeader) : Bool :=
  checkHeader h.slotCount = h.check && (h.slotCount = 262144 || h.slotCount = 524288)

/-- A header whose check word does not match (log 8). -/
def StoreHeader.spoilt (h : StoreHeader) : StoreHeader := { h with check := checkHeader h.slotCount ^^^ 1 }

/-- The store at a warm start: slots, header and slot count kept, SIZE read again for the report, the rest as R82 gives. -/
def Store.warmStart (sizeHigh : Bool) (kind : StartKind) (now : Nat) (st : Store) : Store :=
  { mem := st.mem, header := st.header, slotCount := st.header.slotCount, sizeHigh, lastStart := kind
    refreshDue := some (now + Config.defaultBurst * Config.refreshStep), idleSince := some now }

/-! ## The catalogue at a warm start (R22) -/

/-- The FILLING revisions, in ascending edition id and page number. -/
def Catalogue.fillingRevs (c : Catalogue) : List RevName :=
  c.editions.flatMap fun e => e.pages.flatMap fun p =>
    (p.revs.filter (·.state = .filling)).map fun v => ⟨e.id, p.number, v.number⟩

/-- The FILLING photographs, in ascending id. -/
def Catalogue.fillingPhotos (c : Catalogue) : List Nat := (c.photos.filter (·.state = .filling)).map (·.id)

/-- The catalogue's warm start: FILLING revisions and photographs removed, CLOSING editions CLOSED, retirements completed
(R22). -/
def State.warmCatalogue (s : State) : State :=
  let s := s.cat.fillingRevs.foldl (fun s r => s.removeRevision r) s
  let s := s.cat.fillingPhotos.foldl (fun s id => s.removePhoto id) s
  let s := s.modCat fun c => { c with
    editions := c.editions.map fun e =>
      { e with filling := 0, state := if e.state = .closing then .closed else e.state } }
  (s.cat.editions.filter (·.state = .retiring)).foldl (fun s e => s.dissolve e) s

/-! ## The engine at a start (R148, R149) -/

/-- One item that was WAITING_RESTORE makes its request again (R149 step 4). The first rebuilt job starts here, within the
start work, and leaves a BUILDING extent and a reader (R149, against the last sentences of R65), and its first read may
be in flight when the start is complete (against R82): log 40. -/
def State.reRequest (s : State) (r : Nat × Nat) : State :=
  match s.book.targetOf r.1 r.2 with
  | some (.page name) =>
    match s.cat.revision name with
    | none => s
    | some v =>
      let a := s.requestJob (some r) name v .auto
      match a.1 with
      | .alreadyRestored => a.2.modBook (·.modItem r.1 r.2 fun i => { i with state := .ready })
      | .refused _ => a.2.modBook (·.modItem r.1 r.2 Item.downgrade)
      | .joined _ => a.2
      | .appended _ => a.2.startNext
  | _ => s

/-- The items that are WAITING_RESTORE, in ascending order id and item number (R149 step 4). -/
def OrderBook.waitingItems (b : OrderBook) : List (Nat × Nat) :=
  b.orders.flatMap fun o => (o.items.filter (·.state = .waitingRestore)).map fun i => (o.id, i.number)

/-- The engine's start work. At a warm start the scratch extents are released first and the items ask again last (R148,
R149, log 24). -/
def State.startEngine (warm : Bool) (s : State) : State :=
  let s := if warm then s.modAlloc (Allocator.giveBackAll .building) else s
  let s := s.modEngine fun g => { profiles := g.profiles.map Profile.verify }
  if warm then s.book.waitingItems.foldl State.reRequest s else s

/-! ## Orders and accounts at a warm start (R170) -/

/-- An item at a warm start: IN_DELIVERY becomes READY (R170). -/
def Item.warm (i : Item) : Item := { i with state := if i.state = .inDelivery then .ready else i.state }

/-- An order at a warm start (R170). -/
def Order.warm (o : Order) : Order :=
  { o with inFlight := 0, items := o.items.map Item.warm, state := if o.state = .closing then .closed else o.state }

/-- An account's timer, loaded with the full delay of its status (R170, R187). -/
def Account.reload (now : Nat) (m : MeterSettings) (a : Account) : Account :=
  match a.status with
  | .watch => { a with timer := some (now + m.cutOff * Config.accountStep) }
  | .reinstating => { a with timer := some (now + m.reinstate * Config.accountStep) }
  | _ => { a with timer := none }

/-- Every running timer is loaded again (R170, R187). -/
def State.reloadTimers (s : State) : State :=
  s.modBook fun b => { b with accounts := b.accounts.map (Account.reload s.now s.meter.settings) }

/-- The order block's warm start (R170). -/
def State.warmOrders (s : State) : State :=
  (s.modBook fun b => { b with orders := b.orders.map Order.warm }).reloadTimers

/-! ## The meter at a start (R187) -/

/-- The values of a class, in the order of its check word (R206). -/
def Tariff.values (t : Tariff) : List Nat := [t.rt, t.rr, t.c, t.a, t.s]

/-- A class verified: SET exactly when its check word matches (R173). -/
def Tariff.verify (t : Tariff) : Tariff := { t with set := checkValues t.values = t.check }

/-- The values of the meter settings, in the order of their check word (R206). -/
def MeterSettings.values (m : MeterSettings) : List Nat := [m.divisor, m.cutOff, m.reinstate]

/-- The record of the meter settings is good (R176). -/
def MeterSettings.isGood (m : MeterSettings) : Bool := checkValues m.values = m.check

/-- The meter's start work, in the order of R187. How a stored word comes to fail its check is log 47. -/
def State.startMeter (stop : StopDeliveries) (warm : Bool) (s : State) : State :=
  let good := s.meter.settings.isGood
  let s := s.modMeter fun m =>
    { tariffs := m.tariffs.map Tariff.verify, settings := if good then m.settings else MeterSettings.default
      repaired := !good }
  if warm ∧ good = false then s.reloadTimers.resolve stop else s

/-! ## Start work (R68, Table 4-1) -/

/-- Every block after the store and the allocator, which a cold start empties (R21, R24, R99, R120, R148, R169, R187). -/
def State.coldBlocks (s : State) : State :=
  let s := { s with cat := {}, port := {}, mover := {}, table := {}, book := {} }
  (s.startEngine false).startMeter cutOffDeliveries false

/-- Every block after the store, which a warm start goes through in order (R65, R22, R24, R99, R120, R149, R170, R187). -/
def State.warmBlocks (s : State) : State :=
  let s := s.modAlloc Allocator.warmStart
  let s := { s with port := {}, mover := {}, table := {}, engine := { profiles := s.engine.profiles } }
  let s := s.warmCatalogue
  let s := s.startEngine true
  let s := s.warmOrders
  s.startMeter cutOffDeliveries true

/-- The last row of Table 4-1: queues empty, transmitters idle, controllers in their start state (R189, R192, R194,
R203). -/
def State.startLinks (s : State) : State :=
  { s with
    power := .running, deskTurn := 3
    production := Link.start (sourceCount .production)
    desk := Link.start (sourceCount .desk)
    sales := Link.start (sourceCount .sales) }

/-- A start reads the SIZE strap (R66), so the moves of the strap up to now are past: those still to come stay (log 41). -/
def State.readStrap (s : State) : State := { s with sizeMoves := s.sizeMoves.filter (s.now < ·.1) }

/-- A cold start of a kind: SIZE is sampled, a new header is written, and the holdings are empty (R67, R82). -/
def State.coldStart (kind : StartKind) (sizeHigh : Bool) (s : State) : State :=
  let s := { s.readStrap with
    store := Store.coldStart sizeHigh kind s.now
    alloc := Allocator.coldStart (Config.slotCount sizeHigh) }
  s.coldBlocks.startLinks.settle

/-- A warm start of a kind (R67, R82). -/
def State.warmStart (kind : StartKind) (sizeHigh : Bool) (s : State) : State :=
  let s := s.readStrap.modStore (Store.warmStart sizeHigh kind s.now)
  s.warmBlocks.startLinks.settle

/-- The header as the start reads it: changed when the DRAM did not keep it (log 8). -/
def State.readHeader (upset : Bool) (s : State) : State :=
  if upset then s.modStore fun st => { st with header := st.header.spoilt } else s

/-- A start whose header is read: warm when it is good, else COLD_BY_HEADER (R67). -/
def State.startByHeader (warm : StartKind) (sizeHigh : Bool) (s : State) : State :=
  if s.store.header.isGood then s.warmStart warm sizeHigh else s.coldStart .coldByHeader sizeHigh

/-- A start at power-up: STANDBY_OK low is cold; high reads the header (R67). -/
def State.startAtPowerUp (sizeHigh upset : Bool) (s : State) : State :=
  if s.standbyOk then (s.readHeader upset).startByHeader .warmPower sizeHigh else s.coldStart .cold sizeHigh

/-! ## RESET and power (R67, R68) -/

/-- The store while RESET is asserted: self-refresh, and the transfer in flight has ended, withdrawn or not (R68). -/
def Store.hold (st : Store) : Store :=
  { st with
    selfRefresh := true, inFlight := none, withdrawn := none, waiting := [], burst := none, halted := false, debt := 0
    refreshDue := none, wakeEnds := none, idleSince := none }

/-- What survives a loss of power: the non-volatile memory, and the DRAM when the standby supply keeps it. Everything
volatile is cleared (R67, log 8, log 25). -/
def State.losePower (dramKept : Bool) (s : State) : State :=
  let s := { s with
    power := .off, port := {}, mover := {}, table := {}, engine := { profiles := s.engine.profiles }
    production := Link.start (sourceCount .production)
    desk := Link.start (sourceCount .desk)
    sales := Link.start (sourceCount .sales)
    deskTurn := 3 }
  let s := s.modMeter fun m => { m with day := 0, log := [] }
  if dramKept then s.modStore Store.hold
  else
    { s with
      cat := {}, book := {}, alloc := { runs := [] }
      store := { s.store.hold with mem := [], header := s.store.header.spoilt } }

/-! ## LINK_RESET (R195, R196) -/

/-- Step 3 of R195: the reset work of a link's own blocks (R196). -/
def State.resetWork (l : LinkId) (s : State) : State :=
  match l with
  | .production =>
    let s := s.resetDeposits
    match s.alloc.compaction.state with
    | .idle => s
    | .waiting => (s.modMover fun m => { m with copyRequest := false }).endCompaction .stopped
    | .copying => s.modAlloc (·.modCompaction fun c => { c with stop := true })
  | .desk => (s.endAllDeliveries cutOffDeliveries).resetDeskFlags
  | .sales => s

/-- The link's own transmitter is idle: a frame it was sending is cut off (R195 step 2). -/
def Link.clear (k : Link) : Link := { k with queue := [], replies := [], sending := none }

/-- A LINK_RESET frame has been received: the steps of R195. A tile frame held on the production link stays and is
answered after the reset's reply (R195, log 22). -/
def State.linkReset (l : LinkId) (tag : Byte) (s : State) : State :=
  let s := s.modLink l Link.clear
  let s := s.resetWork l
  let s := s.modNotices l fun _ => Controller.start (sourceCount l)
  let s := if l = .desk then { s with deskTurn := 3 } else s
  let s := s.reply l tag (Answer.ok [])
  s.passHeldTile.settle

end Sys2Proof.Machine
end

