-- ==== Sys2Proof/Machine/Transfers.lean ====
section
/-! DEFINITION. What commands share: a transfer that completes (R69, R74), a timer's moment, requests by code, and the
ranges of request fields (R205). -/

namespace Sys2Proof.Machine

/-- A granted transfer comes to its end when the test picks it out; then the choices left to the end of the step are made
(R69). A slot at or above the slot count does not exist (log 26). -/
def whenEnds (s : State) (granted : Option Transfer) (mine : Transfer → Bool) (f : Transfer → State → State) : Outcome :=
  whenRunning s fun s =>
    match granted with
    | none => .next s
    | some t =>
      if mine t then
        if s.store.slotCount ≤ t.slot then .fault .noSuchSlot
        else .next (f t s).settle
      else .next s

/-- The transfer in flight completes, and its completion is reported (R69). -/
def whenCompletes (s : State) (mine : Transfer → Bool) (f : Transfer → State → State) : Outcome :=
  whenEnds s s.store.inFlight mine fun t s => f t (s.modStore (Store.complete t))

/-- The withdrawn transfer ends, and its end is not reported. The table has no row for it: the completion of its kind
stands for it (R69, log 10). -/
def whenWithdrawnEnds (s : State) (mine : Transfer → Bool) (f : Transfer → State → State) : Outcome :=
  whenEnds s s.store.withdrawn mine fun t s => f t (s.modStore Store.endWithdrawn)

/-- A read completes: the tile as the DRAM now holds it, whether it is damaged, and the record of a damaged read (R74,
R75, log 7). -/
def State.readTile (slot : Nat) (upset : List Upset) (reader : ReaderKind) (s : State) : Tile × Bool × State :=
  let s := s.modStore fun st => { st with mem := Memory.upset st.mem slot upset }
  let t := Memory.readSlot s.store.mem slot
  (t, t.damaged, if t.damaged then s.recordDamage slot reader else s)

/-- The channel of a client, with its work. -/
def State.workOf (s : State) : Client → Option (Fin 4 × Work)
  | .channel c => (s.channel c).work.map fun w => (c, w)
  | _ => none

/-- A request by its code (R204, Table 11-4). -/
def requestOf (tag : Byte) (code : Nat) (ps : List Word) : Request := { tag, code := BitVec.ofNat 16 code, params := ps }

/-- A field that is left out, or lies in its range. -/
def Fields.inRange (fs : Fields) (i lo hi : Nat) : Bool :=
  match fs.nat i with
  | some n => lo ≤ n && n ≤ hi
  | none => true

/-- A refused request changes nothing (00, Conventions). -/
def refuseWith (r : Result) (s : State) : Answer × State := (Answer.refuse r, s)

/-- A request whose required field is left out is refused BAD_VALUE (R190, log 12). -/
def required (o : Option Nat) (s : State) (f : Nat → Answer × State) : Answer × State :=
  match o with
  | some n => f n
  | none => refuseWith .badValue s

/-- A checked request: refused, or taken with what its checks found. -/
def checked {α : Type} (c : Except Answer α) (s : State) (take : α → Answer × State) : Answer × State :=
  match c with
  | .error a => (a, s)
  | .ok x => take x

/-- The smallest of a list of ids above a given one (R18, R20, R155, R168). -/
def nextAbove (id : Nat) (ids : List Nat) : Option Nat := (ids.filter (id < ·)).head?

/-- A record found by id and mode: 0 is EXACT, 1 is NEXT (R18, R155). The ids stand in ascending order. -/
def byMode (mode id : Nat) (ids : List Nat) : Option Nat :=
  if mode = 0 then (if ids.contains id then some id else none) else nextAbove id ids

end Sys2Proof.Machine
end

