-- ==== Sys2Proof/Machine/DepositCommands.lean ====
section
/-! DEFINITION. The deposit port's commands: TILE_FRAME, TILE_WRITE_COMPLETE, DEPOSIT_TIMEOUT, DEPOSIT_PAGE, DEPOSIT_PHOTO,
REPLATE_PAGE, ABANDON_DEPOSIT, DEPOSIT_STATUS, SET_DEPOSIT_TIMEOUT (chapter 2). -/

namespace Sys2Proof.Machine

/-! ## Tile frames, writes and the idle timer -/

/-- TILE_FRAME (R28, R193): the frame is passed to the port, or held at the receiver until it can be. -/
def execTileFrame (ws : List Word) (s : State) : Outcome :=
  whenRunning s fun s =>
    match sortFrame .production ws with
    | .tile handle index t =>
      if s.production.held.isSome then .next s
      else if s.tilePassable then .next (s.passTile handle index t).settle
      else .next (s.modLink .production fun k => { k with held := some (.tile handle index t) })
    | _ => .next s

/-- The deposit port's transfer. -/
def Transfer.ofPort (t : Transfer) : Bool := t.client = .deposit

/-- TILE_WRITE_COMPLETE (R29, R30). The write of an aborted deposit ends without changing its slot (R32, R69, log 10). -/
def execTileWriteComplete (s : State) : Outcome :=
  if s.store.withdrawn.isSome then whenWithdrawnEnds s Transfer.ofPort fun _ s => s
  else whenCompletes s Transfer.ofPort fun _ s => s.tileWritten.passHeldTile

/-- A deposit slot by its number. -/
def DepositPort.slotAt (p : DepositPort) (n : Nat) : Option (Fin 4 × Deposit) :=
  fourIndices.findSome? fun i => if i.val = n then (p.slots.get i).map fun d => (i, d) else none

/-- DEPOSIT_TIMEOUT (R31): the idle timer of a slot expires and its deposit is aborted TIMED_OUT. -/
def execDepositTimeout (slot : Nat) (s : State) : Outcome :=
  whenRunning s fun s =>
    match s.port.slotAt slot with
    | none => .next s
    | some (i, d) =>
      match d.expires with
      | none => .next s
      | some moment =>
        .next ((((s.reach moment).abortDeposit i d (some .timedOut)).raise .depositAborted).passHeldTile.settle)

/-! ## Deposits -/

/-- The size and class ranges of a page deposit (Table 2-2 row 3). -/
def pageInRange (pg w h cls : Nat) : Bool :=
  1 ≤ pg && pg ≤ 160 && 1 ≤ w && w ≤ 40 && 1 ≤ h && h ≤ 56 && cls ≤ 15

/-- The size and class ranges of a photograph (R27). -/
def photoInRange (id w h cls : Nat) : Bool :=
  1 ≤ id && 1 ≤ w && w ≤ 32 && 1 ≤ h && h ≤ 32 && cls ≤ 15

/-- The checks on the photographs a deposit names (Table 1-3). -/
def Catalogue.checkPhotos (c : Catalogue) (ids : List Nat) : Option Result :=
  let found := ids.filterMap c.photo
  if 12 < ids.length ∨ 0 ∈ ids ∨ ¬ids.Nodup then some .badValue
  else if found.length ≠ ids.length then some .noPhoto
  else if found.any (·.state = .filling) then some .filling
  else if found.any (8 ≤ ·.refs.length) then some .photoRefsFull
  else none

/-- Why an edition state refuses DEPOSIT_PAGE or CLOSE_EDITION (Table 1-2). -/
def EditionState.refusesDeposit : EditionState → Option Result
  | .opened => none
  | .closing => some .closing
  | .closed => some .notOpen
  | .retiring => some .retiring

/-- The last two checks of a deposit: a deposit slot, and where its extent lies (Tables 2-2 and 2-4). -/
def State.depositRoom (s : State) (size : Nat) : Except Answer (Fin 4 × Nat) :=
  match s.port.freeSlot with
  | none => .error (Answer.tableFull 4)
  | some i =>
    match s.alloc.place size with
    | .error r => .error (Answer.allocation s.alloc.freeTotal size r)
    | .ok first => .ok (i, first)

/-- Puts an allocation in place: the extent's number, and the state with its slots taken (R51). -/
def State.occupy (first size : Nat) (owner : Owner) (s : State) : Nat × State :=
  let made := s.alloc.occupy first size owner .filling
  (made.1, s.modAlloc fun _ => made.2)

/-- The checks of DEPOSIT_PAGE, in the order of Table 2-2. -/
def State.checkDepositPage (s : State) (ed pg w h cls : Nat) (photos : List Nat) : Except Answer (Fin 4 × Nat) :=
  match s.cat.edition ed with
  | none => .error (Answer.refuse .noEdition)
  | some e =>
    match e.state.refusesDeposit with
    | some r => .error (Answer.refuse r)
    | none =>
      if pageInRange pg w h cls = false then .error (Answer.refuse .badValue)
      else if (e.page pg).isSome then .error (Answer.refuse .pageExists)
      else
        match s.cat.checkPhotos photos with
        | some r => .error (Answer.refuse r)
        | none =>
          match s.port.freeSlot with
          | none => .error (Answer.tableFull 4)
          | some _ =>
            if Config.maxPages ≤ s.cat.pageCount then .error (Answer.tableFull 2) else s.depositRoom (w * h)

/-- A new FILLING revision (R6). -/
def Revision.fresh (number w h cls raw : Nat) (photos : List Nat) : Revision :=
  { number, state := .filling, width := w, height := h, cls, raw, photos }

/-- DEPOSIT_PAGE is taken: page entry, revision 0, references, FILLING count, extent and slot (R26). -/
def State.takeDepositPage (s : State) (ed pg w h cls : Nat) (photos : List Nat) (slot : Fin 4) (first : Nat) :
    Answer × State :=
  let name : RevName := ⟨ed, pg, 0⟩
  let ext := s.occupy first (w * h) (.raw name)
  let page : Page := { number := pg, revs := [Revision.fresh 0 w h cls ext.1 photos], lastIssued := 0 }
  let s := ext.2.modCat fun c =>
    (c.addRefs name photos).modEdition ed fun e => { e with pages := insertPage page e.pages, filling := e.filling + 1 }
  let claim := s.claimSlot slot (.page name) ext.1 (w * h)
  ({ result := .accepted, fields := [.one claim.1] }, claim.2)

/-- The layout of DEPOSIT_PAGE and REPLATE_PAGE: edition, page, width, height, class, photo list (R205). -/
def depositLayout : List Layout := [.one, .one, .one, .one, .one, .list]

/-- The body of DEPOSIT_PAGE. A photo list left out names none (log 13). -/
def depositPageBody : Body := fun fs s =>
  required (fs.nat 0) s fun ed => required (fs.nat 1) s fun pg => required (fs.nat 2) s fun w =>
  required (fs.nat 3) s fun h => required (fs.nat 4) s fun cls =>
    let photos := (fs.values 5).getD []
    checked (s.checkDepositPage ed pg w h cls photos) s fun (i, first) => s.takeDepositPage ed pg w h cls photos i first

/-- DEPOSIT_PAGE (R26). -/
def execDepositPage (l : LinkId) (tag : Byte) (ps : List Word) (s : State) : Outcome :=
  serveDeposit l (.only .production) depositLayout (requestOf tag 0x11 ps) depositPageBody s

/-- The checks of DEPOSIT_PHOTO (R27). -/
def State.checkDepositPhoto (s : State) (id w h cls : Nat) : Except Answer (Fin 4 × Nat) :=
  if photoInRange id w h cls = false then .error (Answer.refuse .badValue)
  else if (s.cat.photo id).isSome then .error (Answer.refuse .photoExists)
  else if Config.maxPhotos ≤ s.cat.photos.length then .error (Answer.tableFull 3)
  else s.depositRoom (w * h)

/-- DEPOSIT_PHOTO is taken (R27). -/
def State.takeDepositPhoto (s : State) (id w h cls : Nat) (slot : Fin 4) (first : Nat) : Answer × State :=
  let ext := s.occupy first (w * h) (.photo id)
  let s := ext.2.modCat fun c =>
    { c with photos := insertPhoto { id, width := w, height := h, cls, extent := ext.1 } c.photos }
  let claim := s.claimSlot slot (.photo id) ext.1 (w * h)
  ({ result := .accepted, fields := [.one claim.1] }, claim.2)

/-- The body of DEPOSIT_PHOTO. -/
def depositPhotoBody : Body := fun fs s =>
  required (fs.nat 0) s fun id => required (fs.nat 1) s fun w => required (fs.nat 2) s fun h =>
  required (fs.nat 3) s fun cls =>
    checked (s.checkDepositPhoto id w h cls) s fun (i, first) => s.takeDepositPhoto id w h cls i first

/-- DEPOSIT_PHOTO (R27). -/
def execDepositPhoto (l : LinkId) (tag : Byte) (ps : List Word) (s : State) : Outcome :=
  serveDeposit l (.only .production) [.one, .one, .one, .one] (requestOf tag 0x12 ps) depositPhotoBody s

/-! ## Replates (R37 to R39) -/

/-- The drop check on the oldest revision of a full list (R38). -/
def State.dropPasses (s : State) (ed pg : Nat) (v : Revision) : Bool :=
  v.extents.all (fun n => s.alloc.readersOf n = 0) && !s.engine.queue.any (·.revision = ⟨ed, pg, v.number⟩) && v.pins = 0

/-- The revision that a replate drops: the oldest of a full list (R38). -/
def Page.dropCandidate (p : Page) : Option Revision := if 4 ≤ p.revs.length then p.revs.head? else none

/-- The drop check, when a candidate is there (R38). -/
def State.dropAllowed (s : State) (ed : Nat) (p : Page) : Bool :=
  match p.dropCandidate with
  | some v => s.dropPasses ed p.number v
  | none => true

/-- The checks of REPLATE_PAGE, in the order of Table 2-4. -/
def State.checkReplate (s : State) (ed pg w h cls : Nat) (photos : List Nat) : Except Answer (Page × Fin 4 × Nat) :=
  match s.cat.edition ed with
  | none => .error (Answer.refuse .noEdition)
  | some e =>
    if e.state = .retiring then .error (Answer.refuse .retiring)
    else if pageInRange pg w h cls = false then .error (Answer.refuse .badValue)
    else
      match e.page pg with
      | none => .error (Answer.refuse .noPage)
      | some p =>
        if p.isFilling then .error (Answer.refuse .filling)
        else if 255 ≤ p.lastIssued then .error (Answer.refuse .badRange)
        else
          match s.cat.checkPhotos photos with
          | some r => .error (Answer.refuse r)
          | none =>
            if s.dropAllowed ed p = false then .error (Answer.refuse .revisionsBusy)
            else
              match s.depositRoom (w * h) with
              | .error a => .error a
              | .ok room => .ok (p, room)

/-- Appends a revision at the newest end of a page's list (R5). -/
def Page.append (v : Revision) (p : Page) : Page := { p with revs := p.revs ++ [v], lastIssued := v.number }

/-- REPLATE_PAGE is taken, in the order of R39. The place of the extent was found before the drop (R37). -/
def State.takeReplate (s : State) (ed w h cls : Nat) (photos : List Nat) (p : Page) (slot : Fin 4) (first : Nat) :
    Answer × State :=
  let dropped := p.dropCandidate.map (·.number)
  let s := match dropped with
    | some n => s.removeRevision ⟨ed, p.number, n⟩
    | none => s
  let name : RevName := ⟨ed, p.number, p.lastIssued + 1⟩
  let ext := s.occupy first (w * h) (.raw name)
  let s := ext.2.modCat fun c =>
    (c.modEdition ed (·.modPage p.number (Page.append (Revision.fresh name.revision w h cls ext.1 photos)))).addRefs
      name photos
  let s := s.modCat (·.modEdition ed fun e => { e with filling := e.filling + 1 })
  let claim := s.claimSlot slot (.page name) ext.1 (w * h)
  ({ result := .accepted, fields := [.one claim.1, .one name.revision, Field.ofOption dropped] }, claim.2)

/-- The body of REPLATE_PAGE. -/
def replatePageBody : Body := fun fs s =>
  required (fs.nat 0) s fun ed => required (fs.nat 1) s fun pg => required (fs.nat 2) s fun w =>
  required (fs.nat 3) s fun h => required (fs.nat 4) s fun cls =>
    let photos := (fs.values 5).getD []
    checked (s.checkReplate ed pg w h cls photos) s fun (p, i, first) => s.takeReplate ed w h cls photos p i first

/-- REPLATE_PAGE (R37 to R39). -/
def execReplatePage (l : LinkId) (tag : Byte) (ps : List Word) (s : State) : Outcome :=
  serveDeposit l (.only .production) depositLayout (requestOf tag 0x13 ps) replatePageBody s

/-! ## Running deposits -/

/-- The body of ABANDON_DEPOSIT (R34). -/
def abandonDepositBody : Body := fun fs s =>
  required (fs.nat 0) s fun h =>
    match s.port.find h with
    | none => refuseWith .noDeposit s
    | some (i, d) => (Answer.ok [], s.abortDeposit i d (some .abandoned))

/-- ABANDON_DEPOSIT (R34). -/
def execAbandonDeposit (l : LinkId) (tag : Byte) (ps : List Word) (s : State) : Outcome :=
  serveDeposit l (.only .production) [.one] (requestOf tag 0x17 ps) abandonDepositBody s

/-- A target as four reply fields: edition, page, revision, photo, each absent for the other kind (R205, log 15). -/
def Target.fields : Target → List Field
  | .page r => [.one r.edition, .one r.page, .one r.revision, .absent]
  | .photo id => [.absent, .absent, .absent, .one id]

/-- An outcome's position in the list of R33. -/
def DepositOutcome.code : DepositOutcome → Nat
  | .done => 0
  | .timedOut => 1
  | .abandoned => 2
  | .retired => 3

/-- The whole seconds left on an idle timer, rounded up, absent when it is stopped (R35). -/
def Deposit.secondsLeft (now : Nat) (d : Deposit) : Field :=
  Field.ofOption (d.expires.map fun e => ceilDiv (e - now) Config.second)

/-- The reply fields of a running deposit (R35). -/
def Deposit.fields (now : Nat) (d : Deposit) : List Field :=
  [.one (if d.finishing then 2 else 1)] ++ d.target.fields ++
    [.one d.next, .one d.total, .one d.checkRefusals, .one d.orderRefusals, d.secondsLeft now]

/-- The reply fields of an ended deposit (R33, R35). -/
def EndedDeposit.fields (e : EndedDeposit) : List Field :=
  [.one e.handle] ++ e.target.fields ++
    [.one e.outcome.code, .one e.accepted, .one e.total, .one e.checkRefusals, .one e.orderRefusals]

/-- The body of DEPOSIT_STATUS (R35). -/
def depositStatusBody : Body := fun fs s =>
  required (fs.nat 0) s fun h =>
    match s.port.find h with
    | some (_, d) => (Answer.ok (d.fields s.now), s)
    | none =>
      match s.port.ended.find? (·.handle = h) with
      | some e => (Answer.ok e.fields, s.modPort fun p => { p with ended := p.ended.filter (·.handle ≠ h) })
      | none => refuseWith .noDeposit s

/-- DEPOSIT_STATUS (R35). -/
def execDepositStatus (l : LinkId) (tag : Byte) (ps : List Word) (s : State) : Outcome :=
  serveLocal l (.only .production) [.one] (requestOf tag 0x18 ps) depositStatusBody s

/-- The body of SET_DEPOSIT_TIMEOUT (R36). -/
def setDepositTimeoutBody : Body := fun fs s =>
  required (fs.nat 0) s fun t =>
    if t = 0 ∨ 255 < t then refuseWith .badRange s
    else (Answer.ok [.one s.port.timeout], s.modPort fun p => { p with timeout := t })

/-- SET_DEPOSIT_TIMEOUT (R36). -/
def execSetDepositTimeout (l : LinkId) (tag : Byte) (ps : List Word) (s : State) : Outcome :=
  serveLocal l (.only .production) [.one] (requestOf tag 0x19 ps) setDepositTimeoutBody s

end Sys2Proof.Machine
end

