-- ==== Sys2Proof/Machine/EditionCommands.lean ====
section
/-! DEFINITION. OPEN_EDITION, CLOSE_EDITION, RETIRE_EDITION and DISCARD_PHOTO (chapter 2). -/

namespace Sys2Proof.Machine

/-- The checks of OPEN_EDITION (R23). -/
def State.checkOpenEdition (s : State) (id number : Nat) : Except Answer Unit :=
  if id = 0 ∨ number = 0 ∨ 8 < number then .error (Answer.refuse .badValue)
  else if (s.cat.edition id).isSome then .error (Answer.refuse .editionExists)
  else if Config.maxEditions ≤ s.cat.editions.length then .error (Answer.tableFull 1)
  else .ok ()

/-- The body of OPEN_EDITION (R23). -/
def openEditionBody : Body := fun fs s =>
  required (fs.nat 0) s fun id => required (fs.nat 1) s fun day => required (fs.nat 2) s fun number =>
    checked (s.checkOpenEdition id number) s fun _ =>
      (Answer.ok [], s.modCat fun c => { c with editions := insertEdition { id, issueDay := day, number } c.editions })

/-- OPEN_EDITION (R23). -/
def execOpenEdition (l : LinkId) (tag : Byte) (ps : List Word) (s : State) : Outcome :=
  serveLocal l (.only .production) [.one, .one, .one] (requestOf tag 0x10 ps) openEditionBody s

/-- An edition state's position in the list of R2. -/
def EditionState.code : EditionState → Nat
  | .opened => 0
  | .closing => 1
  | .closed => 2
  | .retiring => 3

/-- The checks of CLOSE_EDITION (R40). -/
def State.checkCloseEdition (s : State) (id : Nat) : Except Answer Edition :=
  match s.cat.edition id with
  | none => .error (Answer.refuse .noEdition)
  | some e =>
    match e.state.refusesDeposit with
    | some r => .error (Answer.refuse r)
    | none => if e.pages = [] then .error (Answer.refuse .emptyEdition) else .ok e

/-- The state CLOSE_EDITION brings an edition to (R40). -/
def Edition.closedState (e : Edition) : EditionState := if e.filling = 0 then .closed else .closing

/-- The body of CLOSE_EDITION (R40). -/
def closeEditionBody : Body := fun fs s =>
  required (fs.nat 0) s fun id =>
    checked (s.checkCloseEdition id) s fun e =>
      (Answer.ok [.one e.closedState.code], s.modCat (·.modEdition id fun x => { x with state := e.closedState }))

/-- CLOSE_EDITION (R40). -/
def execCloseEdition (l : LinkId) (tag : Byte) (ps : List Word) (s : State) : Outcome :=
  serveLocal l (.only .production) [.one] (requestOf tag 0x14 ps) closeEditionBody s

/-- Some revision of the edition is pinned (R42). -/
def Edition.pinned (e : Edition) : Bool := e.pages.any fun p => p.revs.any fun v => v.pins ≠ 0

/-- The checks of RETIRE_EDITION (R42). -/
def State.checkRetire (s : State) (id : Nat) : Except Answer Unit :=
  match s.cat.edition id with
  | none => .error (Answer.refuse .noEdition)
  | some e =>
    if e.state = .retiring then .error (Answer.refuse .retiring)
    else if e.pinned then .error (Answer.refuse .ordered)
    else .ok ()

/-- One open deposit into a retired edition is aborted (R42 step 2). -/
def State.retireDeposit (s : State) (h : Nat) : State := (s.abortHandle (some .retired) h).raise .depositAborted

/-- A job of a retired edition is cancelled (R42 step 3). -/
def State.retireJob (s : State) (id : Nat) : State :=
  match s.engine.find id with
  | some j => s.cancelJob .retired j
  | none => s

/-- The jobs that name an edition, the QUEUED ones first (R42 step 3), and those in queue order (log 44). -/
def Engine.jobsOf (g : Engine) (ed : Nat) : List Nat :=
  let named := g.queue.filter (·.revision.edition = ed)
  ((named.filter (·.state = .queued)) ++ (named.filter (·.active))).map (·.id)

/-- RETIRE_EDITION is taken, in the order of R42. The mark that the reply was made is set last (log 29). -/
def State.retire (id : Nat) (s : State) : State :=
  let s := s.modCat (·.modEdition id fun e => { e with state := .retiring })
  let s := (s.port.ofEdition id).foldl State.retireDeposit s
  let s := (s.engine.jobsOf id).foldl State.retireJob s
  let s := s.retireCheck id
  s.modCat (·.modEdition id fun e => { e with retireReplied := true })

/-- The body of RETIRE_EDITION (R42): RETIRING is 0 and RETIRED is 1 in the reply (log 15). -/
def retireEditionBody : Body := fun fs s =>
  required (fs.nat 0) s fun id =>
    checked (s.checkRetire id) s fun _ =>
      let t := s.retire id
      (Answer.ok [.one (if (t.cat.edition id).isSome then 0 else 1)], t)

/-- RETIRE_EDITION (R42). -/
def execRetireEdition (l : LinkId) (tag : Byte) (ps : List Word) (s : State) : Outcome :=
  serveDeposit l (.only .production) [.one] (requestOf tag 0x15 ps) retireEditionBody s

/-- The checks of DISCARD_PHOTO (R45). -/
def State.checkDiscard (s : State) (id : Nat) : Except Answer Unit :=
  match s.cat.photo id with
  | none => .error (Answer.refuse .noPhoto)
  | some p =>
    if p.state = .filling then .error (Answer.refuse .filling)
    else if p.refs ≠ [] ∨ p.pins ≠ 0 ∨ s.alloc.readersOf p.extent ≠ 0 then .error (Answer.refuse .inUse)
    else .ok ()

/-- The body of DISCARD_PHOTO (R45). -/
def discardPhotoBody : Body := fun fs s =>
  required (fs.nat 0) s fun id => checked (s.checkDiscard id) s fun _ => (Answer.ok [], s.removePhoto id)

/-- DISCARD_PHOTO (R45). -/
def execDiscardPhoto (l : LinkId) (tag : Byte) (ps : List Word) (s : State) : Outcome :=
  serveLocal l (.only .production) [.one] (requestOf tag 0x16 ps) discardPhotoBody s

end Sys2Proof.Machine
end

