-- ==== Sys2Proof/Machine/LinkCommands.lean ====
section
/-! DEFINITION. The receivers and transmitters of the links: REQUEST_FRAME_ARRIVES, FRAME_REFUSED, UNKNOWN_REQUEST_CODE,
FRAME_SENT, LINK_RESET (chapter 10). -/

namespace Sys2Proof.Machine

/-- The receiver can begin a frame: it holds none (R188, R189, R193, log 22). -/
def Link.receiverFree (k : Link) : Bool := k.held.isNone

/-- Most frames the request queue holds (R189). -/
def queuePlaces : Nat := 4

/-- A REQUEST frame joins the tail of the queue, or is held at the receiver while the queue is full (R189). -/
def Link.intake (r : Request) (k : Link) : Link :=
  if k.queue.length < queuePlaces then { k with queue := k.queue ++ [r] } else { k with held := some (.request r) }

/-- LINK_RESET can begin: the receiver holds nothing, or a tile frame that the reset leaves alone (R195, log 22). -/
def Link.resetFree (k : Link) : Bool :=
  match k.held with
  | none => true
  | some (.tile _ _ _) => true
  | _ => false

/-- A refusal made at the receiver takes a reply place; with none free it waits at a receiver that holds nothing (R188).
With no place free and a tile frame held, the refused frame waits at the master (log 36). -/
def State.refuseFrame (l : LinkId) (r : Reply) (s : State) : State :=
  if (s.link l).placeFree then (s.modLink l fun k => { k with replies := k.replies ++ [r] }).transmit l
  else if (s.link l).receiverFree then s.modLink l fun k => { k with held := some (.refusal r) }
  else s

/-- A LINK_RESET frame received whole: the reset (R195), or BAD_VALUE when its parameter words do not read as those of a
request with no field (R205, log 36). -/
def State.resetFrame (l : LinkId) (tag : Byte) (ps : List Word) (s : State) : State :=
  if (readFields [] ps).isSome then s.linkReset l tag
  else s.refuseFrame l { tag, answer := Answer.refuse .badValue }

/-- REQUEST_FRAME_ARRIVES (R189). A frame with the code of LINK_RESET is not queued: it is acted on at once, and a held
tile frame does not keep it out (R189, R195). -/
def execRequestFrameArrives (l : LinkId) (ws : List Word) (s : State) : Outcome :=
  whenRunning s fun s =>
    match sortFrame l ws with
    | .request r =>
      if r.code.toNat = linkResetCode then
        if (s.link l).resetFree then .next (s.resetFrame l r.tag r.params) else .next s
      else if (s.link l).receiverFree then .next (s.modLink l (Link.intake r))
      else .next s
    | _ => .next s

/-- FRAME_REFUSED (R188): the refusal takes a reply place, or waits at the receiver for one. A malformed REQUEST frame is
refused whatever the queue holds (log 49), and a TILE frame of the wrong length whatever the tile buffer holds (DEDUCED,
log 52). -/
def execFrameRefused (l : LinkId) (ws : List Word) (s : State) : Outcome :=
  whenRunning s fun s =>
    match sortFrame l ws with
    | .refused r => if (s.link l).receiverFree then .next (s.refuseFrame l r) else .next s
    | _ => .next s

/-- UNKNOWN_REQUEST_CODE (R190): answered BAD_VALUE, its parameters not read. -/
def execUnknownRequestCode (l : LinkId) (tag : Byte) (code : Word) (ps : List Word) (s : State) : Outcome :=
  if requestCodes.contains code.toNat then .next s
  else serveLocal l .all [] { tag, code, params := ps } (fun _ s => refuseWith .badValue s) s

/-- A reply has been sent: its place frees, and goes first to a refusal or a tile frame held at the receiver (R188, R192,
R193, R194). -/
def State.replySent (l : LinkId) (s : State) : State :=
  let s := s.modLink l fun k => { k with replies := k.replies.tail, sending := none }
  let s := s.passHeldRefusal l
  if l = .production then s.passHeldTile else s

/-- FRAME_SENT (R194): the end is reported to the frame's owner, and the transmitter chooses again. -/
def execFrameSent (l : LinkId) (s : State) : Outcome :=
  whenRunning s fun s =>
    match (s.link l).sending with
    | none => .next s
    | some .reply => .next (s.replySent l).settle
    | some (.channel c) =>
      .next ((s.modLink l fun k => { k with sending := none }).frameEnd cutOffDeliveries c).settle

/-- LINK_RESET (R195, R196), its parameter words in order; a frame with any others comes as REQUEST_FRAME_ARRIVES. -/
def execLinkReset (l : LinkId) (tag : Byte) (s : State) : Outcome :=
  whenRunning s fun s => if (s.link l).resetFree then .next (s.linkReset l tag) else .next s

/-- The words of the frame a link's transmitter is sending (R194, R204). -/
def State.outgoing (s : State) (l : LinkId) : Option (List Word) :=
  match (s.link l).sending with
  | none => none
  | some .reply => (s.link l).replies.head?.map Reply.words
  | some (.channel c) =>
    match (s.channel c).work with
    | some (.delivery h) =>
      match (s.channel c).sendingFill, (s.channel c).buffer with
      | some i, _ => some (shortFrameWords kindFill h i)
      | none, p :: _ =>
        if p.damaged then some (shortFrameWords kindDamaged h p.index)
        else p.tile.map (tileFrameWords h p.index)
      | none, [] => none
    | _ => none

end Sys2Proof.Machine
end

