-- ==== Sys2Proof/Machine/RetrievalCommands.lean ====
section
/-! DEFINITION. Retrieval: READ_PAGE, READ_PHOTO, DELIVERY_READ_COMPLETE, FIXED_PERIOD_BEGINS, STOP_DELIVERY,
DELIVERY_STATUS, SET_PACING (chapter 6). -/

namespace Sys2Proof.Machine

/-! ## Regions and walks of requests (Table 6-2, R103) -/

/-- A region field. -/
def Fields.region (fs : Fields) (i : Nat) : Option Region :=
  match fs.values i with
  | some [x0, y0, w, h] => some ⟨x0, y0, w, h⟩
  | _ => none

/-- The walk fields from number `i` on lie in their ranges: region, step, order of walk, x direction, y direction
(Table 6-2). -/
def Fields.walkInRange (fs : Fields) (i : Nat) : Bool :=
  ((fs.values i).getD []).all (· ≤ 255) && fs.inRange (i + 1) 1 4 && fs.inRange (i + 2) 0 1 && fs.inRange (i + 3) 0 1 &&
    fs.inRange (i + 4) 0 1

/-- The walk that the fields from number `i` on ask for, with a region (Table 6-2). -/
def Fields.walk (fs : Fields) (i : Nat) (region : Region) : Walk :=
  { region, step := (fs.nat (i + 1)).getD 1, columns := fs.nat (i + 2) = some 1, xBack := fs.nat (i + 3) = some 1
    yBack := fs.nat (i + 4) = some 1 }

/-- A region clipped to an image, and whether it was clipped; none when it lies outside or has no size (R103). -/
def clipRegion (W H : Nat) : Option Region → Option (Region × Bool)
  | none => some (⟨0, 0, W, H⟩, false)
  | some r =>
    if r.w = 0 ∨ r.h = 0 ∨ W ≤ r.x0 ∨ H ≤ r.y0 then none
    else
      let w := min r.w (W - r.x0)
      let h := min r.h (H - r.y0)
      some (⟨r.x0, r.y0, w, h⟩, w < r.w || h < r.h)

/-- A region as one field of four words (R205). -/
def Region.field (r : Region) : Field := .many [r.x0, r.y0, r.w, r.h]

/-- RAW is 0 and RESTORED is 1 (R205). -/
def Rendition.code : Rendition → Nat
  | .raw => 0
  | .restored => 1

/-! ## The checks of a read (R102 to R105) -/

/-- The target of a read: its name, its size, its raw extent and its restored extent (R102 check 2). -/
structure ReadTarget where
  target : Target
  width : Nat
  height : Nat
  raw : Nat
  restored : Option Nat
  deriving DecidableEq, Repr

/-- A page's read target (R17). -/
def State.pageTarget (s : State) (ed pg : Nat) (rev : Option Nat) : Except Result ReadTarget :=
  match s.cat.resolve ed pg rev with
  | .error r => .error r
  | .ok (name, v) => .ok ⟨.page name, v.width, v.height, v.raw, v.restored.map (·.extent)⟩

/-- A photograph's read target (R17, R101). -/
def State.photoTarget (s : State) (id : Nat) : Except Result ReadTarget :=
  match s.cat.resolvePhoto id with
  | .error r => .error r
  | .ok p => .ok ⟨.photo id, p.width, p.height, p.extent, none⟩

/-- The account of an order is CUT_OFF (R105 check 6). -/
def OrderBook.isCutOff (b : OrderBook) (account : Nat) : Bool := ((b.account account).map (·.status)) = some .cutOff

/-- The checks of a fulfilment read against order, item, account and class, in the order of R105. -/
def State.checkFulfilment (s : State) (t : Target) (order item : Nat) : Except Result Item :=
  match s.book.order order with
  | none => .error .noOrder
  | some o =>
    if o.state ≠ .opened then .error .orderClosed
    else
      match o.item item with
      | none => .error .notOrdered
      | some i =>
        if i.target ≠ t then .error .notOrdered
        else if i.state = .inDelivery then .error .itemBusy
        else if i.state = .waitingRestore then .error .notReady
        else if s.book.isCutOff o.account then .error .cutOff
        else if (s.meter.tariff (s.cat.classOf t)).set = false then .error .tariffUnset
        else .ok i

/-- What a read that passes its checks reads (R104, R109). -/
structure Read where
  target : Target
  rendition : Rendition
  extent : Nat
  imageWidth : Nat
  walk : Walk
  clipped : Bool
  fixed : Bool
  order : Option (Nat × Nat)
  repeated : Bool
  deriving DecidableEq, Repr

/-- The rendition asked for: RAW 0, RESTORED 1, BEST 2 (R205). -/
inductive Wanted where
  | raw
  | restored
  | best
  deriving DecidableEq, Repr

/-- A rendition field: BEST when it is left out (Table 6-2). -/
def Wanted.ofField : Option Nat → Wanted
  | some 0 => .raw
  | some 1 => .restored
  | _ => .best

/-- The rendition chosen and its extent, or none when it does not exist (R104). -/
def ReadTarget.choose (t : ReadTarget) : Wanted → Option (Rendition × Nat)
  | .raw => some (.raw, t.raw)
  | .restored => t.restored.map fun n => (.restored, n)
  | .best => match t.restored with
    | some n => some (.restored, n)
    | none => some (.raw, t.raw)

/-- The rendition of an item's finish (R104). -/
def Wanted.ofFinish : Rendition → Wanted
  | .raw => .raw
  | .restored => .restored

/-- Records of the delivery table (R107). -/
def deliveryPlaces : Nat := 8

/-- Check 6 of Table 6-3. -/
def State.deliveryRoom (s : State) (r : Read) : Except Result Read :=
  if deliveryPlaces ≤ s.table.records.length then .error .noDeliverySlot else .ok r

/-- Checks 3 to 6 of a fulfilment read: what it reads comes from its item (R104, R105). -/
def State.checkItemRead (s : State) (t : ReadTarget) (order item : Nat) (fixed : Bool) : Except Result Read :=
  match s.checkFulfilment t.target order item with
  | .error r => .error r
  | .ok i =>
    match t.choose (.ofFinish i.finish) with
    | none => .error .notRestored
    | some (rendition, extent) =>
      s.deliveryRoom { target := t.target, rendition, extent, imageWidth := t.width, walk := i.walk, clipped := false
                       fixed, order := some (order, item), repeated := i.state = .delivered }

/-- Checks 4 to 6 of a desk view (R103, R104). -/
def State.checkView (s : State) (t : ReadTarget) (wanted : Wanted) (region : Option Region) (walk : Region → Walk)
    (fixed : Bool) : Except Result Read :=
  match t.choose wanted with
  | none => .error .notRestored
  | some (rendition, extent) =>
    match clipRegion t.width t.height region with
    | none => .error .emptyRegion
    | some (r, clipped) =>
      s.deliveryRoom { target := t.target, rendition, extent, imageWidth := t.width, walk := walk r, clipped, fixed
                       order := none, repeated := false }

/-- Order and item as a request gives them: both, neither, or BAD_VALUE (R100). -/
def pairGiven : Option Nat → Option Nat → Except Result (Option (Nat × Nat))
  | some o, some i => if 1 ≤ o ∧ 1 ≤ i ∧ i ≤ 16 then .ok (some (o, i)) else .error .badValue
  | none, none => .ok none
  | _, _ => .error .badValue

/-! ## Acceptance (R108, R109) -/

/-- A handle in use (R108). -/
def DeliveryTable.handleInUse (t : DeliveryTable) (h : Nat) : Bool := t.records.any (·.handle = h)

/-- The pacing that an accepted read captures (R114). -/
def DeliveryTable.pacingFor (t : DeliveryTable) (fixed : Bool) : Option Pacing :=
  if fixed then some ⟨t.period, t.depth⟩ else none

/-- The record of an accepted read (R107, R109 step 1). -/
def State.newDelivery (s : State) (r : Read) (handle : Nat) : Delivery :=
  { handle, target := r.target, rendition := r.rendition, extent := r.extent, walk := r.walk, imageWidth := r.imageWidth
    pacing := s.table.pacingFor r.fixed, order := r.order
    figures := r.order.map fun o => s.figuresOf r.target o.1 r.repeated }

/-- The item of a fulfilment read is IN_DELIVERY and its order counts it (R109 step 3). -/
def State.itemInDelivery (o : Option (Nat × Nat)) (s : State) : State :=
  match o with
  | none => s
  | some (order, item) =>
    s.modBook fun b => (b.modItem order item fun i => { i with state := .inDelivery }).modOrder order fun o =>
      { o with inFlight := o.inFlight + 1 }

/-- The ACCEPTED reply of a read (R109 step 5). -/
def Read.answer (r : Read) (handle : Nat) : Answer :=
  { result := .accepted, clipped := r.clipped, repeated := r.repeated
    fields := [.one handle, .one r.rendition.code, r.walk.region.field, .one r.walk.count] }

/-- A read is accepted, in the order of R109. -/
def State.acceptRead (r : Read) (s : State) : Answer × State :=
  let h := nextFree 255 s.table.handleInUse 9 s.table.lastHandle
  let d := s.newDelivery r h
  let s := s.modTable fun t => { t with records := t.records ++ [d], lastHandle := h }
  let s := s.modAlloc (Allocator.takeReader r.extent)
  let s := s.itemInDelivery r.order
  let s := s.modMover fun m => { m with queue := m.queue ++ [h] }
  (r.answer h, s.handout)

/-- Checks 2 to 6 of Table 6-3, and the acceptance. `i` is the number of the rendition field, which the walk fields, the
latency mode and the order and item follow. The rendition and walk fields of a fulfilment read are not read (R100,
log 30). -/
def readWith (fs : Fields) (i : Nat) (wanted : Wanted) (viewInRange : Bool) (target : Except Result ReadTarget)
    (s : State) : Answer × State :=
  let fixed := fs.nat (i + 6) = some 1
  match pairGiven (fs.nat (i + 7)) (fs.nat (i + 8)) with
  | .error r => refuseWith r s
  | .ok pair =>
    if fs.inRange (i + 6) 0 1 = false ∨ (pair = none ∧ (viewInRange && fs.walkInRange (i + 1)) = false) then
      refuseWith .badValue s
    else
      match target with
      | .error r => refuseWith r s
      | .ok t =>
        let found := match pair with
          | some (order, item) => s.checkItemRead t order item fixed
          | none => s.checkView t wanted (fs.region (i + 1)) (fs.walk (i + 1)) fixed
        match found with
        | .error r => refuseWith r s
        | .ok r => s.acceptRead r

/-- The layout of READ_PAGE: edition, page, revision, rendition, region, step, order of walk, x direction, y direction,
latency mode, order, item (R205). -/
def readPageLayout : List Layout := [.one, .one, .one, .one, .region, .one, .one, .one, .one, .one, .one, .one]

/-- The names of READ_PAGE lie in their ranges (Table 6-2). -/
def pageNameInRange (ed pg : Nat) (rev : Option Nat) : Bool :=
  1 ≤ ed && 1 ≤ pg && pg ≤ 160 && rev.all (· ≤ 255)

/-- The body of READ_PAGE (R100, R102). BAD_VALUE goes before the edition's state, as R102 orders and against R2 (log
43). -/
def readPageBody : Body := fun fs s =>
  required (fs.nat 0) s fun ed => required (fs.nat 1) s fun pg =>
    if pageNameInRange ed pg (fs.nat 2) then
      readWith fs 3 (.ofField (fs.nat 3)) (fs.inRange 3 0 2) (s.pageTarget ed pg (fs.nat 2)) s
    else refuseWith .badValue s

/-- READ_PAGE (R100, R102 to R109). -/
def execReadPage (l : LinkId) (tag : Byte) (ps : List Word) (s : State) : Outcome :=
  serveWide l (.only .desk) readPageLayout (requestOf tag 0x30 ps) readPageBody s

/-- The layout of READ_PHOTO: photo, then the fields of READ_PAGE from the rendition on (R101). -/
def readPhotoLayout : List Layout := [.one, .one, .region, .one, .one, .one, .one, .one, .one, .one]

/-- The body of READ_PHOTO (R101): the rendition is RAW or left out, in a desk view and in a fulfilment read (R101,
R102). -/
def readPhotoBody : Body := fun fs s =>
  required (fs.nat 0) s fun id =>
    if 1 ≤ id ∧ fs.inRange 1 0 0 = true then readWith fs 1 .raw true (s.photoTarget id) s else refuseWith .badValue s

/-- READ_PHOTO (R101 to R109). -/
def execReadPhoto (l : LinkId) (tag : Byte) (ps : List Word) (s : State) : Outcome :=
  serveWide l (.only .desk) readPhotoLayout (requestOf tag 0x31 ps) readPhotoBody s

/-! ## Completions and periods -/

/-- The transfer is a read of a channel that runs a delivery. -/
def State.isDeliveryRead (s : State) (t : Transfer) : Bool :=
  t.kind = .read &&
    match s.workOf t.client with
    | some (_, .delivery _) => true
    | _ => false

/-- The transfer is a channel's read. Withdrawn, it is a delivery's: a copy withdraws nothing (R69, R97). -/
def Transfer.channelRead (t : Transfer) : Bool :=
  t.kind = .read &&
    match t.client with
    | .channel _ => true
    | _ => false

/-- DELIVERY_READ_COMPLETE (R91). A withdrawn read is checked as every read is, and its data are discarded (R69, R74, R95,
log 10). -/
def execDeliveryReadComplete (upset : List Upset) (s : State) : Outcome :=
  if s.store.withdrawn.isSome then
    whenWithdrawnEnds s Transfer.channelRead fun t s => (s.readTile t.slot upset .delivery).2.2
  else
    whenCompletes s s.isDeliveryRead fun t s =>
      let r := s.readTile t.slot upset .delivery
      match r.2.2.workOf t.client with
      | some (c, _) => r.2.2.readArrives c r.1 r.2.1
      | none => r.2.2

/-- FIXED_PERIOD_BEGINS (R112, R113). -/
def execFixedPeriodBegins (channel : Nat) (s : State) : Outcome :=
  whenRunning s fun s =>
    match fourIndices.find? (·.val = channel) with
    | none => .next s
    | some c =>
      match s.deliveryOn c with
      | none => .next s
      | some d =>
        match d.pacing with
        | none => .next s
        | some p => .next (s.periodBegins cutOffDeliveries c d p).settle

/-! ## Stopping and reading deliveries -/

/-- A delivery state's position in Table 6-4. -/
def DeliveryState.code : DeliveryState → Nat
  | .waiting => 0
  | .running => 1
  | .stopping => 2
  | .done => 3
  | .stopped => 4
  | .failed => 5

/-- The body of STOP_DELIVERY (R117). The reply is made at once with the state the record is left in, so it is STOPPING while
any frame is SENDING, the last of the walk too, and DONE only for a record that is DONE already (DEDUCED, log 55). -/
def stopDeliveryBody : Body := fun fs s =>
  required (fs.nat 0) s fun h =>
    match s.table.find h with
    | none => refuseWith .badValue s
    | some d =>
      let t := s.stopDelivery cutOffDeliveries .requested h
      (Answer.ok [.one (((t.table.find h).map (·.state)).getD d.state).code], t)

/-- STOP_DELIVERY (R117). -/
def execStopDelivery (l : LinkId) (tag : Byte) (ps : List Word) (s : State) : Outcome :=
  serveWide l (.only .desk) [.one] (requestOf tag 0x32 ps) stopDeliveryBody s

/-- An end cause's position in R107. -/
def EndCause.code : EndCause → Nat
  | .completed => 0
  | .requested => 1
  | .cutOff => 2
  | .linkLate => 3

/-- The fields of a walk in a reply: region, step, order and directions. -/
def Walk.fields (w : Walk) : List Field :=
  [w.region.field, .one w.step, .mark w.columns, .mark w.xBack, .mark w.yBack]

/-- The reply fields of a delivery record. Channel, walk position and terminal count are there while it is RUNNING or
STOPPING, the end cause when it is final (R118). DESIGN CHOICE: the repeat mark of a desk view, which captures none, is 0
(log 51). -/
def State.deliveryFields (s : State) (d : Delivery) : List Field :=
  let onChannel (f : Channel → Nat) : Field := Field.ofOption (d.channel.map fun c => f (s.channel c))
  [.one d.state.code] ++ d.target.fields ++ [.one d.rendition.code] ++ d.walk.fields ++
    [.one d.walk.count, .mark d.pacing.isSome, .ofOption (d.pacing.map (·.period)), .ofOption (d.pacing.map (·.depth)),
     .ofOption (d.order.map Prod.fst), .ofOption (d.order.map Prod.snd), .mark ((d.figures.map (·.repeated)).getD false),
     .one d.sent, .one d.damaged, .one d.fills,
     .ofOption (d.channel.map (·.val)), onChannel (·.line), onChannel (·.place), onChannel (·.terminal),
     if d.state.final then .ofOption (d.cause.map EndCause.code) else .absent]

/-- The body of DELIVERY_STATUS (R118). -/
def deliveryStatusBody : Body := fun fs s =>
  required (fs.nat 0) s fun h =>
    match s.table.find h with
    | none => refuseWith .badValue s
    | some d =>
      (Answer.ok (s.deliveryFields d),
        if d.state.final then s.modTable fun t => { t with records := t.records.filter (·.handle ≠ h) } else s)

/-- DELIVERY_STATUS (R118). -/
def execDeliveryStatus (l : LinkId) (tag : Byte) (ps : List Word) (s : State) : Outcome :=
  serveLocal l (.only .desk) [.one] (requestOf tag 0x33 ps) deliveryStatusBody s

/-- The body of SET_PACING (R114). -/
def setPacingBody : Body := fun fs s =>
  if fs.inRange 0 1 255 = false ∨ fs.inRange 1 1 15 = false then refuseWith .badRange s
  else
    (Answer.ok [.one s.table.period, .one s.table.depth],
      s.modTable fun t => { t with period := (fs.nat 0).getD t.period, depth := (fs.nat 1).getD t.depth })

/-- SET_PACING (R114). -/
def execSetPacing (l : LinkId) (tag : Byte) (ps : List Word) (s : State) : Outcome :=
  serveLocal l (.only .desk) [.one, .one] (requestOf tag 0x34 ps) setPacingBody s

end Sys2Proof.Machine
end

