-- ==== Sys2Proof/Machine/RestorationCommands.lean ====
section
/-! DEFINITION. Restoration: RESTORE_PAGE, CANCEL_RESTORE, RESTORE_STATUS, SET_SURVEY, WRITE_PROFILE, READ_PROFILE,
SURVEY_READ_COMPLETE, CORRECTION_READ_COMPLETE, CORRECTION_WRITE_COMPLETE (chapter 7). -/

namespace Sys2Proof.Machine

/-! ## Requests for a restoration -/

/-- A tone source field: 0 is AUTO, n + 1 is profile n; none above profile 31 (R205, Table 7-3 row 1). -/
def ToneSource.ofField (n : Nat) : Option ToneSource :=
  if n = 0 then some .auto else if n ≤ 32 then some (.profile (n - 1)) else none

/-- A tone source in a reply (R205). -/
def ToneSource.code : ToneSource → Nat
  | .auto => 0
  | .profile n => n + 1

/-- ACCEPTED with the job id and whether a job was joined (R123). -/
def acceptedJob (id : Nat) (joined : Bool) : Answer := { result := .accepted, fields := [.one id, .mark joined] }

/-- Rows 3 to 7 of Table 7-3 for the desk (R123). -/
def State.deskRestore (name : RevName) (v : Revision) (source : ToneSource) (s : State) : Answer × State :=
  let a := s.requestJob none name v source
  match a.1 with
  | .alreadyRestored => (Answer.refuse .alreadyRestored, a.2)
  | .refused r => (Answer.refuse r, a.2)
  | .joined id => (acceptedJob id true, a.2)
  | .appended id => (acceptedJob id false, a.2.startNext)

/-- The body of RESTORE_PAGE (R123). BAD_VALUE goes before the edition's state, as R123 orders and against R2 (log
43). -/
def restorePageBody : Body := fun fs s =>
  required (fs.nat 0) s fun ed => required (fs.nat 1) s fun pg => required (fs.nat 3) s fun src =>
    match ToneSource.ofField src with
    | none => refuseWith .badValue s
    | some source =>
      if pageNameInRange ed pg (fs.nat 2) then
        match s.cat.resolve ed pg (fs.nat 2) with
        | .error r => refuseWith r s
        | .ok (name, v) => s.deskRestore name v source
      else refuseWith .badValue s

/-- RESTORE_PAGE (R123). -/
def execRestorePage (l : LinkId) (tag : Byte) (ps : List Word) (s : State) : Outcome :=
  serveWide l (.only .desk) [.one, .one, .one, .one] (requestOf tag 0x35 ps) restorePageBody s

/-! ## CANCEL_RESTORE and RESTORE_STATUS -/

/-- A job state's position in Table 7-2. -/
def JobState.code : JobState → Nat
  | .queued => 0
  | .surveying => 1
  | .correcting => 2
  | .done => 3
  | .failed => 4
  | .cancelled => 5

/-- A cancel cause's position in R121. -/
def CancelCause.code : CancelCause → Nat
  | .requested => 0
  | .noRequester => 1
  | .retired => 2

/-- An end cause's position in R121. -/
def JobEnd.code : JobEnd → Nat
  | .published => 0
  | .noSpace => 1
  | .damageOverflow => 2
  | .requested => 3
  | .noRequester => 4
  | .retired => 5

/-- CANCEL_RESTORE on a job of the queue (R127). -/
def State.cancelByDesk (j : Job) (s : State) : State :=
  if j.desk = false then s
  else if j.requesters = [] then s.cancelJob .requested j
  else s.modEngine (·.modJob j.id fun j => { j with desk := false })

/-- The state and the cancel mark in which CANCEL_RESTORE leaves a job: as it stands when the request only clears its desk
flag, marked while a transfer of it is in flight, and CANCELLED when it ends at once (R127, R131). -/
def State.cancelled (s : State) (j : Job) : JobState × Option CancelCause :=
  if j.desk = false ∨ j.requesters ≠ [] then (j.state, j.cancel)
  else if j.state = .queued then (.cancelled, j.cancel)
  else (if s.store.restorationInFlight then j.state else .cancelled, (j.mark .requested).cancel)

/-- The body of CANCEL_RESTORE (R127). The reply speaks of the named job itself, whatever the start of the next one does
to the ended-job list. -/
def cancelRestoreBody : Body := fun fs s =>
  required (fs.nat 0) s fun id =>
    match s.engine.find id with
    | none => refuseWith .badValue s
    | some j =>
      let after := s.cancelled j
      (Answer.ok [.one after.1.code, .ofOption (after.2.map CancelCause.code), .mark j.desk], s.cancelByDesk j)

/-- CANCEL_RESTORE (R127). -/
def execCancelRestore (l : LinkId) (tag : Byte) (ps : List Word) (s : State) : Outcome :=
  serveWide l (.only .desk) [.one] (requestOf tag 0x36 ps) cancelRestoreBody s

/-- A tile index in the low 12 bits and a mark in bit 15 (R205). -/
def indexWord (index : Nat) (mark : Bool) : Nat := index + 32768 * mark.toNat

/-- A defect list in a reply: the count with DEFECTS_OVERFLOW in bit 15, then two words a defect (R205). -/
def defectField (ds : List Defect) (overflow : Bool) : Field :=
  .many (indexWord ds.length overflow :: ds.flatMap fun d => [indexWord d.first (d.kind = .voidRun), d.length])

/-- The job has started: its survey has begun, or its scratch extent is there (R128, R130). -/
def Job.hasStarted (j : Job) : Bool := j.active || j.surveyed != 0 || j.voidCounter != 0

/-- A field that a job has once it got somewhere (R128). -/
def Field.when (reached : Bool) (f : Field) : Field := if reached then f else .absent

/-- An allocation refusal in a reply: NO_SPACE 0, NO_SPACE with FRAGMENTED 1, TABLE_FULL naming EXTENT_TABLE 2 (R121,
log 50). -/
def AllocRefusal.code : AllocRefusal → Nat
  | .noSpace frag => frag.toNat
  | .extentTable => 2

/-- The reply fields of a job (R128). DESIGN CHOICE: the requester list is a count word and two words for each requester, its
order id and its item number (log 54). -/
def Job.fields (j : Job) : List Field :=
  let began (f : Field) := f.when j.hasStarted
  let fixed (f : Field) := f.when j.tone.isSome
  let t := j.tone.getD ⟨0, 0, 0⟩
  [.one j.state.code, .one j.revision.edition, .one j.revision.page, .one j.revision.revision, .one j.source.code,
   .mark j.desk, .many (j.requesters.length :: j.requesters.flatMap fun r => [r.1, r.2]),
   .ofOption (j.cancel.map CancelCause.code), .one j.surveyed, .one j.corrected,
   began (.one j.inStatistics), began (.one j.faint), began (.one j.bAuto), began (.one j.wAuto),
   began (defectField j.defects j.defectsOverflow),
   fixed (.one t.b), fixed (.one t.w), fixed (.one t.s), fixed (.mark j.lowRange),
   fixed (.one j.changed), fixed (.one j.blanked),
   .ofOption (j.endCause.map JobEnd.code), .ofOption (j.allocRefusal.map AllocRefusal.code)]

/-- The body of RESTORE_STATUS (R128). -/
def restoreStatusBody : Body := fun fs s =>
  required (fs.nat 0) s fun id =>
    match s.engine.find id with
    | some j => (Answer.ok j.fields, s)
    | none =>
      match s.engine.ended.find? (·.id = id) with
      | some j => (Answer.ok j.fields, s.modEngine fun g => { g with ended := g.ended.filter (·.id ≠ id) })
      | none => refuseWith .badValue s

/-- RESTORE_STATUS (R128). -/
def execRestoreStatus (l : LinkId) (tag : Byte) (ps : List Word) (s : State) : Outcome :=
  serveLocal l (.only .desk) [.one] (requestOf tag 0x37 ps) restoreStatusBody s

/-! ## Survey settings and profiles -/

/-- The body of SET_SURVEY (R129). -/
def setSurveyBody : Body := fun fs s =>
  let old := s.engine.settings
  if fs.inRange 0 1 255 = false ∨ fs.inRange 1 1 255 = false ∨ fs.inRange 2 1 40 = false ∨ fs.inRange 3 1 255 = false then
    refuseWith .badRange s
  else
    (Answer.ok [.one old.edge, .one old.contrast, .one old.fadeRun, .one old.voidLimit],
      s.modEngine fun g => { g with settings :=
        { edge := (fs.nat 0).getD old.edge, contrast := (fs.nat 1).getD old.contrast
          fadeRun := (fs.nat 2).getD old.fadeRun, voidLimit := (fs.nat 3).getD old.voidLimit } })

/-- SET_SURVEY (R129). -/
def execSetSurvey (l : LinkId) (tag : Byte) (ps : List Word) (s : State) : Outcome :=
  serveLocal l (.only .desk) [.one, .one, .one, .one] (requestOf tag 0x38 ps) setSurveyBody s

/-- The body of WRITE_PROFILE (R145). BAD_VALUE is checked before BAD_RANGE (log 34). -/
def writeProfileBody : Body := fun fs s =>
  required (fs.nat 0) s fun n => required (fs.nat 1) s fun b => required (fs.nat 2) s fun w =>
  required (fs.nat 3) s fun sv =>
    if 31 < n ∨ 255 < b ∨ 255 < w ∨ 255 < sv then refuseWith .badValue s
    else if w < b + 16 then refuseWith .badRange s
    else
      let t : Tone := ⟨b, w, min sv 63⟩
      (Answer.ok [.one t.b, .one t.w, .one t.s],
        s.modEngine fun g => { g with profiles := g.profiles.set n (Profile.stored t) })

/-- WRITE_PROFILE (R145). -/
def execWriteProfile (l : LinkId) (tag : Byte) (ps : List Word) (s : State) : Outcome :=
  serveLocal l (.only .desk) [.one, .one, .one, .one] (requestOf tag 0x39 ps) writeProfileBody s

/-- The body of READ_PROFILE (R146). -/
def readProfileBody : Body := fun fs s =>
  required (fs.nat 0) s fun n =>
    if 31 < n then refuseWith .badValue s
    else
      let p := s.engine.profile n
      (Answer.ok [.one p.tone.b, .one p.tone.w, .one p.tone.s, .mark p.repaired], s)

/-- READ_PROFILE (R146). -/
def execReadProfile (l : LinkId) (tag : Byte) (ps : List Word) (s : State) : Outcome :=
  serveLocal l (.only .desk) [.one] (requestOf tag 0x3A ps) readProfileBody s

/-! ## Completions of the restoration port -/

/-- The active job in a state, with its revision. -/
def State.jobIn (s : State) (st : JobState) : Option (Job × Revision) :=
  match s.engine.activeJob with
  | some j => if j.state = st then (s.cat.revision j.revision).map fun v => (j, v) else none
  | none => none

/-- The transfer is of the restoration port while the active job is in a state. -/
def State.isEngine (s : State) (read : Bool) (st : JobState) (t : Transfer) : Bool :=
  t.client = .restoration && (t.kind = .read) == read && (s.jobIn st).isSome

/-- SURVEY_READ_COMPLETE (R132). -/
def execSurveyReadComplete (upset : List Upset) (s : State) : Outcome :=
  whenCompletes s (s.isEngine true .surveying) fun t s =>
    let r := s.readTile t.slot upset .restoration
    match r.2.2.jobIn .surveying with
    | some (j, v) => r.2.2.surveyArrives r.1 r.2.1 j v
    | none => r.2.2

/-- CORRECTION_READ_COMPLETE (R140). -/
def execCorrectionReadComplete (upset : List Upset) (s : State) : Outcome :=
  whenCompletes s (s.isEngine true .correcting) fun t s =>
    let r := s.readTile t.slot upset .restoration
    match r.2.2.jobIn .correcting with
    | some (j, _) => r.2.2.correctionArrives r.1 r.2.1 j
    | none => r.2.2

/-- CORRECTION_WRITE_COMPLETE (R140, R141, R143). -/
def execCorrectionWriteComplete (s : State) : Outcome :=
  whenCompletes s (s.isEngine false .correcting) fun _ s =>
    match s.jobIn .correcting with
    | some (j, v) => s.correctionWritten cutOffDeliveries j v
    | none => s

end Sys2Proof.Machine
end

