-- ==== Sys2Proof/Machine/OrderCommands.lean ====
section
/-! DEFINITION. Orders and accounts: OPEN_ACCOUNT, SET_CEILING, SETTLE, REMOVE_ACCOUNT, ACCOUNT_STATUS,
WATCH_TIMER_EXPIRES, REINSTATING_TIMER_EXPIRES, OPEN_ORDER, ADD_ITEM, REMOVE_ITEM, CLOSE_ORDER, ORDER_STATUS, RELEASE_ORDER
(chapter 8). -/

namespace Sys2Proof.Machine

/-! ## Accounts -/

/-- The checks of OPEN_ACCOUNT (R151). -/
def State.checkOpenAccount (s : State) (id ceiling : Nat) : Except Answer Unit :=
  if id = 0 ∨ Config.maxUnits < ceiling then .error (Answer.refuse .badValue)
  else if (s.book.account id).isSome then .error (Answer.refuse .accountExists)
  else if Config.maxAccounts ≤ s.book.accounts.length then .error (Answer.tableFull 6)
  else .ok ()

/-- The body of OPEN_ACCOUNT (R151): a ceiling left out is 0. -/
def openAccountBody : Body := fun fs s =>
  required (fs.nat 0) s fun id =>
    let ceiling := (fs.nat 1).getD 0
    checked (s.checkOpenAccount id ceiling) s fun _ =>
      (Answer.ok [], s.modBook fun b => { b with accounts := insertAccount { id, ceiling } b.accounts })

/-- OPEN_ACCOUNT (R151). -/
def execOpenAccount (l : LinkId) (tag : Byte) (ps : List Word) (s : State) : Outcome :=
  serveLocal l (.only .sales) [.one, .two] (requestOf tag 0x50 ps) openAccountBody s

/-- An account status's position in R150. -/
def AccountStatus.code : AccountStatus → Nat
  | .active => 0
  | .watch => 1
  | .cutOff => 2
  | .reinstating => 3

/-- An account's status in a reply. -/
def State.statusField (s : State) (id : Nat) : Field :=
  Field.ofOption ((s.book.account id).map (·.status.code))

/-- The account of an id when it is in use and a number of units is in range: NO_ACCOUNT, then BAD_VALUE (R152,
R153, log 34). -/
def State.checkUnits (s : State) (id units : Nat) : Except Answer Account :=
  match s.book.account id with
  | none => .error (Answer.refuse .noAccount)
  | some a => if Config.maxUnits < units then .error (Answer.refuse .badValue) else .ok a

/-- The body of SET_CEILING (R152). -/
def setCeilingBody : Body := fun fs s =>
  required (fs.nat 0) s fun id => required (fs.nat 1) s fun c =>
    checked (s.checkUnits id c) s fun a =>
      let t := (s.modBook (·.modAccount id fun a => { a with ceiling := c })).evaluate cutOffDeliveries id
      (Answer.ok [.two a.ceiling, t.statusField id], t)

/-- SET_CEILING (R152). -/
def execSetCeiling (l : LinkId) (tag : Byte) (ps : List Word) (s : State) : Outcome :=
  serveWide l (.only .sales) [.one, .two] (requestOf tag 0x51 ps) setCeilingBody s

/-- The body of SETTLE (R153). -/
def settleBody : Body := fun fs s =>
  required (fs.nat 0) s fun id => required (fs.nat 1) s fun u =>
    checked (s.checkUnits id u) s fun a =>
      let applied := min u a.owed
      let t := (s.modBook (·.modAccount id fun a => { a with owed := a.owed - applied })).evaluate cutOffDeliveries id
      (Answer.ok [.two applied, .two (t.book.owed id), t.statusField id], t)

/-- SETTLE (R153). -/
def execSettle (l : LinkId) (tag : Byte) (ps : List Word) (s : State) : Outcome :=
  serveWide l (.only .sales) [.one, .two] (requestOf tag 0x52 ps) settleBody s

/-- The checks of REMOVE_ACCOUNT (R154). -/
def State.checkRemoveAccount (s : State) (id : Nat) : Except Answer Unit :=
  match s.book.account id with
  | none => .error (Answer.refuse .noAccount)
  | some a => if a.orderCount ≠ 0 ∨ a.owed ≠ 0 then .error (Answer.refuse .accountBusy) else .ok ()

/-- The body of REMOVE_ACCOUNT (R154). -/
def removeAccountBody : Body := fun fs s =>
  required (fs.nat 0) s fun id =>
    checked (s.checkRemoveAccount id) s fun _ =>
      (Answer.ok [], s.modBook fun b => { b with accounts := b.accounts.filter (·.id ≠ id) })

/-- REMOVE_ACCOUNT (R154). -/
def execRemoveAccount (l : LinkId) (tag : Byte) (ps : List Word) (s : State) : Outcome :=
  serveLocal l (.only .sales) [.one] (requestOf tag 0x53 ps) removeAccountBody s

/-- The reply fields of an account (R155). The time left is in steps of 100 ms, a begun one counting whole (log 23). -/
def Account.fields (now : Nat) (a : Account) : List Field :=
  [.one a.id, .two a.owed, .two a.ceiling, .one a.status.code,
   .ofOption (a.timer.map fun t => ceilDiv (t - now) Config.accountStep), .one a.orderCount]

/-- The body of ACCOUNT_STATUS (R155). A mode word above 1 is answered BAD_VALUE first (log 37). -/
def accountStatusBody : Body := fun fs s =>
  required (fs.nat 0) s fun id => required (fs.nat 1) s fun mode =>
    if 1 < mode then refuseWith .badValue s
    else
      match (byMode mode id (s.book.accounts.map (·.id))).bind s.book.account with
      | none => refuseWith .noAccount s
      | some a => (Answer.ok (a.fields s.now), s)

/-- ACCOUNT_STATUS (R155). -/
def execAccountStatus (l : LinkId) (tag : Byte) (ps : List Word) (s : State) : Outcome :=
  serveLocal l (.only .sales) [.one, .one] (requestOf tag 0x54 ps) accountStatusBody s

/-- The moment an account's timer runs out, while the account is in a status. -/
def State.timerIn (s : State) (id : Nat) (status : AccountStatus) : Option Nat :=
  match s.book.account id with
  | some a => if a.status = status then a.timer else none
  | none => none

/-- WATCH_TIMER_EXPIRES (R157). -/
def execWatchTimerExpires (account : Nat) (s : State) : Outcome :=
  whenRunning s fun s =>
    match s.timerIn account .watch with
    | some moment => .next ((s.reach moment).cutOffAccount cutOffDeliveries account).settle
    | none => .next s

/-- REINSTATING_TIMER_EXPIRES (R158). -/
def execReinstatingTimerExpires (account : Nat) (s : State) : Outcome :=
  whenRunning s fun s =>
    match s.timerIn account .reinstating with
    | some moment => .next (((s.reach moment).setStatus account .active none).raise .accountReinstated)
    | none => .next s

/-! ## Orders -/

/-- An order id in use (R161). -/
def OrderBook.orderInUse (b : OrderBook) (id : Nat) : Bool := b.orders.any (·.id = id)

/-- The checks of OPEN_ORDER (R161). -/
def State.checkOpenOrder (s : State) (account discount : Nat) : Except Answer Unit :=
  if 255 < discount then .error (Answer.refuse .badValue)
  else if (s.book.account account).isNone then .error (Answer.refuse .noAccount)
  else if Config.maxOrders ≤ s.book.orders.length then .error (Answer.tableFull 7)
  else .ok ()

/-- OPEN_ORDER is taken: a new order, and the account's order count rises (R161). -/
def OrderBook.openOrder (id account discount : Nat) (b : OrderBook) : OrderBook :=
  { b.modAccount account fun a => { a with orderCount := a.orderCount + 1 } with
    orders := insertOrder { id, account, discount } b.orders, lastOrderId := id }

/-- The body of OPEN_ORDER (R161). -/
def openOrderBody : Body := fun fs s =>
  required (fs.nat 0) s fun account => required (fs.nat 1) s fun discount =>
    checked (s.checkOpenOrder account discount) s fun _ =>
      let id := nextFree 65535 s.book.orderInUse 65 s.book.lastOrderId
      (Answer.ok [.one id], s.modBook (OrderBook.openOrder id account discount))

/-- OPEN_ORDER (R161). -/
def execOpenOrder (l : LinkId) (tag : Byte) (ps : List Word) (s : State) : Outcome :=
  serveLocal l (.only .sales) [.one, .one] (requestOf tag 0x55 ps) openOrderBody s

/-! ## ADD_ITEM (R163) -/

/-- The target that ADD_ITEM names: a page or a photograph. -/
inductive Named where
  | page (ed pg : Nat) (rev : Option Nat)
  | photo (id : Nat)
  deriving DecidableEq, Repr

/-- The target fields 1 to 4 of ADD_ITEM: edition and page with an optional revision, or a photo, in range (R163
check 1). DESIGN CHOICE: fields of both kinds name nothing, so that they are refused BAD_VALUE at check 1 (log 56). -/
def Fields.named (fs : Fields) : Option Named :=
  match fs.nat 1, fs.nat 2, fs.nat 3, fs.nat 4 with
  | some ed, some pg, rev, none => if pageNameInRange ed pg rev then some (.page ed pg rev) else none
  | none, none, none, some id => if 1 ≤ id then some (.photo id) else none
  | _, _, _, _ => none

/-- The finish field: RAW 0 or RESTORED 1, RAW when it is left out. -/
def finishOf : Option Nat → Rendition
  | some 1 => .restored
  | _ => .raw

/-- A photo target cannot have the finish RESTORED (R163 check 1). -/
def Named.cannotHave (finish : Rendition) : Named → Bool
  | .photo _ => finish = .restored
  | .page _ _ _ => false

/-- A named target resolved (R17, R163 check 4). -/
def State.resolveNamed (s : State) : Named → Except Result ReadTarget
  | .page ed pg rev => s.pageTarget ed pg rev
  | .photo id => s.photoTarget id

/-- What ADD_ITEM's checks find. -/
structure NewItem where
  order : Nat
  item : Item
  clipped : Bool
  deriving DecidableEq, Repr

/-- The lowest item number that no item of an order holds (R163). -/
def Order.freeNumber (o : Order) : Nat := lowestFree (o.items.map (·.number)) 16 1

/-- Checks 2 to 6 of R163, and the item they lead to, READY. -/
def State.checkAddItem (s : State) (order : Nat) (named : Named) (finish : Rendition) (region : Option Region)
    (walk : Region → Walk) : Except Result NewItem :=
  match s.book.order order with
  | none => .error .noOrder
  | some o =>
    if o.state ≠ .opened then .error .orderClosed
    else
      match s.resolveNamed named with
      | .error r => .error r
      | .ok t =>
        match clipRegion t.width t.height region with
        | none => .error .emptyRegion
        | some (r, clipped) =>
          if 16 ≤ o.items.length then .error .itemsFull
          else .ok ⟨order, { number := o.freeNumber, target := t.target, finish, walk := walk r, state := .ready }, clipped⟩

/-- Check 7 of R163: the item request of an item whose finish is RESTORED (R124). -/
def State.itemRequest (n : NewItem) (s : State) : EngineAnswer × State :=
  match n.item.finish, n.item.target with
  | .restored, .page name =>
    match s.cat.revision name with
    | some v => s.requestJob (some (n.order, n.item.number)) name v .auto
    | none => (.alreadyRestored, s)
  | _, _ => (.alreadyRestored, s)

/-- The item joins its order in a state, and its target is pinned (R13, R163). -/
def State.placeItem (n : NewItem) (state : ItemState) (s : State) : State :=
  let s := s.modBook (·.modOrder n.order fun o => { o with items := insertItem { n.item with state } o.items })
  s.modCat (·.modPins n.item.target (· + 1))

/-- An item state's value (R205). -/
def ItemState.code : ItemState → Nat
  | .waitingRestore => 0
  | .ready => 1
  | .inDelivery => 2
  | .delivered => 3

/-- A target's revision number, absent for a photograph. -/
def Target.revisionField : Target → Field
  | .page r => .one r.revision
  | .photo _ => .absent

/-- The reply to ADD_ITEM, with the item as it then stands (R163, log 32). -/
def State.itemAnswer (s : State) (n : NewItem) : Answer :=
  { result := .ok, clipped := n.clipped
    fields := [.one n.item.number, n.item.target.revisionField, n.item.walk.region.field,
      .ofOption ((s.book.item n.order n.item.number).map (·.state.code))] }

/-- ADD_ITEM after its checks: the item request, the item and its pin; then a job appended to an empty queue starts
(R122, R124, R163, log 32). -/
def State.addItem (n : NewItem) (s : State) : Answer × State :=
  let a := s.itemRequest n
  match a.1 with
  | .refused r => refuseWith r s
  | .alreadyRestored => let t := a.2.placeItem n .ready; (t.itemAnswer n, t)
  | .joined _ => let t := a.2.placeItem n .waitingRestore; (t.itemAnswer n, t)
  | .appended _ => let t := (a.2.placeItem n .waitingRestore).startNext; (t.itemAnswer n, t)

/-- The layout of ADD_ITEM: order, edition, page, revision, photo, finish, region, step, order of walk, x direction,
y direction (R205). -/
def addItemLayout : List Layout := [.one, .one, .one, .one, .one, .one, .region, .one, .one, .one, .one]

/-- The body of ADD_ITEM (R163). BAD_VALUE and the checks of the order go before the edition's state, as R163 orders and
against R2 (log 43). -/
def addItemBody : Body := fun fs s =>
  required (fs.nat 0) s fun order =>
    match fs.named with
    | none => refuseWith .badValue s
    | some named =>
      let finish := finishOf (fs.nat 5)
      if order = 0 ∨ fs.inRange 5 0 1 = false ∨ fs.walkInRange 6 = false ∨ named.cannotHave finish = true then
        refuseWith .badValue s
      else
        match s.checkAddItem order named finish (fs.region 6) (fs.walk 6) with
        | .error r => refuseWith r s
        | .ok n => s.addItem n

/-- ADD_ITEM (R163). -/
def execAddItem (l : LinkId) (tag : Byte) (ps : List Word) (s : State) : Outcome :=
  serveWide l (.only .sales) addItemLayout (requestOf tag 0x56 ps) addItemBody s

/-! ## REMOVE_ITEM, CLOSE_ORDER, RELEASE_ORDER -/

/-- The checks of REMOVE_ITEM (R164). -/
def State.checkRemoveItem (s : State) (order item : Nat) : Except Answer Item :=
  match s.book.order order with
  | none => .error (Answer.refuse .noOrder)
  | some o =>
    if o.state ≠ .opened then .error (Answer.refuse .orderClosed)
    else
      match o.item item with
      | none => .error (Answer.refuse .notOrdered)
      | some i => if i.state = .inDelivery then .error (Answer.refuse .itemBusy) else .ok i

/-- REMOVE_ITEM is taken: a waiting item first leaves its job; then it leaves the order and its pin falls (R164). -/
def State.removeItem (order : Nat) (i : Item) (s : State) : State :=
  let s := if i.state = .waitingRestore then s.leaveJob order i.number else s
  let s := s.modBook (·.modOrder order fun o => { o with items := o.items.filter (·.number ≠ i.number) })
  s.modCat (·.modPins i.target (· - 1))

/-- The body of REMOVE_ITEM (R164). -/
def removeItemBody : Body := fun fs s =>
  required (fs.nat 0) s fun order => required (fs.nat 1) s fun item =>
    checked (s.checkRemoveItem order item) s fun i => (Answer.ok [], s.removeItem order i)

/-- REMOVE_ITEM (R164). -/
def execRemoveItem (l : LinkId) (tag : Byte) (ps : List Word) (s : State) : Outcome :=
  serveWide l (.only .sales) [.one, .one] (requestOf tag 0x57 ps) removeItemBody s

/-- The checks of CLOSE_ORDER (R165). -/
def State.checkCloseOrder (s : State) (id : Nat) : Except Answer Order :=
  match s.book.order id with
  | none => .error (Answer.refuse .noOrder)
  | some o => if o.state ≠ .opened then .error (Answer.refuse .orderClosed) else .ok o

/-- A waiting item leaves its job and is downgraded, without a notice (R165 step 1). -/
def State.giveUpWaiting (order : Nat) (s : State) (item : Nat) : State :=
  (s.leaveJob order item).modBook (·.modItem order item Item.downgrade)

/-- An order state's position in R160. -/
def OrderState.code : OrderState → Nat
  | .opened => 0
  | .closing => 1
  | .closed => 2

/-- The state CLOSE_ORDER brings an order to (R165). -/
def Order.closedState (o : Order) : OrderState := if o.inFlight = 0 then .closed else .closing

/-- CLOSE_ORDER is taken (R165). -/
def State.closeOrder (o : Order) (s : State) : State :=
  let waiting := (o.items.filter (·.state = .waitingRestore)).map (·.number)
  let s := waiting.foldl (State.giveUpWaiting o.id) s
  s.modBook (·.modOrder o.id fun x => { x with state := o.closedState })

/-- The body of CLOSE_ORDER (R165). -/
def closeOrderBody : Body := fun fs s =>
  required (fs.nat 0) s fun id =>
    checked (s.checkCloseOrder id) s fun o => (Answer.ok [.one o.closedState.code], s.closeOrder o)

/-- CLOSE_ORDER (R165). -/
def execCloseOrder (l : LinkId) (tag : Byte) (ps : List Word) (s : State) : Outcome :=
  serveWide l (.only .sales) [.one] (requestOf tag 0x58 ps) closeOrderBody s

/-- The checks of RELEASE_ORDER (R167). -/
def State.checkReleaseOrder (s : State) (id : Nat) : Except Answer Order :=
  match s.book.order id with
  | none => .error (Answer.refuse .noOrder)
  | some o => if o.state ≠ .closed then .error (Answer.refuse .inUse) else .ok o

/-- RELEASE_ORDER is taken: pins fall, the account's order count falls, the record is free (R167). -/
def State.releaseOrder (o : Order) (s : State) : State :=
  let s := s.modCat fun c => o.items.foldl (fun c i => c.modPins i.target (· - 1)) c
  s.modBook fun b =>
    { b.modAccount o.account fun a => { a with orderCount := a.orderCount - 1 } with
      orders := b.orders.filter (·.id ≠ o.id) }

/-- The body of RELEASE_ORDER (R167). -/
def releaseOrderBody : Body := fun fs s =>
  required (fs.nat 0) s fun id =>
    checked (s.checkReleaseOrder id) s fun o =>
      (Answer.ok [.two o.units, .mark o.saturated, .mark o.clamped], s.releaseOrder o)

/-- RELEASE_ORDER (R167). -/
def execReleaseOrder (l : LinkId) (tag : Byte) (ps : List Word) (s : State) : Outcome :=
  serveLocal l (.only .sales) [.one] (requestOf tag 0x5A ps) releaseOrderBody s

/-! ## ORDER_STATUS (R168) -/

/-- An item entry of an order summary (R205). -/
def Item.word (i : Item) : Nat :=
  i.number + 32 * i.state.code + 128 * i.finish.code + 256 * i.downgraded.toNat

/-- The order summary (R168). -/
def Order.fields (o : Order) : List Field :=
  [.one o.id, .one o.account, .one o.discount, .one o.state.code, .two o.units, .one o.accumulator, .mark o.saturated,
   .mark o.clamped, .one o.inFlight, .many (o.items.length :: o.items.map Item.word)]

/-- The job whose requester list holds an item. -/
def Engine.jobFor (g : Engine) (order item : Nat) : Option Nat :=
  (g.queue.find? fun j => j.requesters.contains (order, item)).map (·.id)

/-- The item detail (R168). -/
def State.itemFields (s : State) (order : Nat) (i : Item) : List Field :=
  i.target.fields ++ [.one i.finish.code] ++ i.walk.fields ++ [.one i.state.code, .mark i.downgraded] ++
    [if i.state = .waitingRestore then .ofOption (s.engine.jobFor order i.number) else .absent]

/-- The body of ORDER_STATUS (R168). A mode word above 1 is answered BAD_VALUE first (log 37), and so is NEXT with an item
number, whether or not an order of greater id exists (log 34). -/
def orderStatusBody : Body := fun fs s =>
  required (fs.nat 0) s fun id => required (fs.nat 1) s fun mode =>
    if 1 < mode ∨ (mode = 1 ∧ (fs.nat 2).isSome) then refuseWith .badValue s
    else
      match (byMode mode id (s.book.orders.map (·.id))).bind s.book.order with
      | none => refuseWith .noOrder s
      | some o =>
        match fs.nat 2 with
        | none => (Answer.ok o.fields, s)
        | some n =>
          match o.item n with
          | none => refuseWith .notOrdered s
          | some i => (Answer.ok (s.itemFields o.id i), s)

/-- ORDER_STATUS (R168). -/
def execOrderStatus (l : LinkId) (tag : Byte) (ps : List Word) (s : State) : Outcome :=
  serveLocal l (.only .sales) [.one, .one, .one] (requestOf tag 0x59 ps) orderStatusBody s

end Sys2Proof.Machine
end

