-- ==== Sys2Proof/Machine/MeterCommands.lean ====
section
/-! DEFINITION. The fee meter's commands: WRITE_TARIFF, READ_TARIFF, SET_METER, SET_DAY, CREDIT, METER_STATUS (chapter 9). -/

namespace Sys2Proof.Machine

/-! ## Tariff classes -/

/-- A class stored with a new check word (R174). -/
def Tariff.stored (rt rr c a sv : Nat) : Tariff :=
  { rt, rr, c, a, s := sv, check := checkValues [rt, rr, c, a, sv], set := true }

/-- The five values of a class, absent when it is UNSET (R174, R175, log 15). -/
def Tariff.valueFields (t : Tariff) : List Field := t.values.map fun v => if t.set then .one v else .absent

/-- The body of WRITE_TARIFF (R174). The class is checked before the surcharge (log 34). The mark UNSET follows the
values when the class was UNSET (log 15). -/
def writeTariffBody : Body := fun fs s =>
  required (fs.nat 0) s fun n => required (fs.nat 1) s fun rt => required (fs.nat 2) s fun rr =>
  required (fs.nat 3) s fun c => required (fs.nat 4) s fun a => required (fs.nat 5) s fun sv =>
    if 15 < n then refuseWith .badValue s
    else if 255 < sv then refuseWith .badRange s
    else
      let old := s.meter.tariff n
      (Answer.ok (old.valueFields ++ [if old.set then .absent else .one 1]),
        s.modMeter fun m => { m with tariffs := m.tariffs.set n (Tariff.stored rt rr c a sv) })

/-- WRITE_TARIFF (R174). -/
def execWriteTariff (l : LinkId) (tag : Byte) (ps : List Word) (s : State) : Outcome :=
  serveLocal l (.only .sales) [.one, .one, .one, .one, .one, .one] (requestOf tag 0x5B ps) writeTariffBody s

/-- The body of READ_TARIFF (R175): SET is 0 and UNSET is 1. -/
def readTariffBody : Body := fun fs s =>
  required (fs.nat 0) s fun n =>
    if 15 < n then refuseWith .badValue s
    else
      let t := s.meter.tariff n
      (Answer.ok (t.valueFields ++ [.one (if t.set then 0 else 1)]), s)

/-- READ_TARIFF (R175). -/
def execReadTariff (l : LinkId) (tag : Byte) (ps : List Word) (s : State) : Outcome :=
  serveLocal l (.only .sales) [.one] (requestOf tag 0x5C ps) readTariffBody s

/-! ## Settings -/

/-- Meter settings stored with a new check word; a divisor of 0 is stored as 1 (R177). -/
def MeterSettings.stored (divisor cutOff reinstate : Nat) : MeterSettings :=
  let d := max divisor 1
  { divisor := d, cutOff, reinstate, check := checkValues [d, cutOff, reinstate] }

/-- SET_METER is taken: the values named are stored, and a divisor named resolves every accumulator (R177). -/
def State.setMeter (divisor cutOff reinstate : Option Nat) (s : State) : State :=
  let old := s.meter.settings
  if divisor.isNone ∧ cutOff.isNone ∧ reinstate.isNone then s
  else
    let s := s.modMeter fun m =>
      { m with settings :=
          MeterSettings.stored (divisor.getD old.divisor) (cutOff.getD old.cutOff) (reinstate.getD old.reinstate) }
    if divisor.isSome then s.resolve cutOffDeliveries else s

/-- The greatest delay of an account timer (R176). -/
def maxDelay : Nat := 16383

/-- The body of SET_METER (R177). -/
def setMeterBody : Body := fun fs s =>
  let old := s.meter.settings
  if fs.inRange 1 0 maxDelay = false ∨ fs.inRange 2 0 maxDelay = false then refuseWith .badRange s
  else
    (Answer.ok [.one old.divisor, .one old.cutOff, .one old.reinstate], s.setMeter (fs.nat 0) (fs.nat 1) (fs.nat 2))

/-- SET_METER (R177). -/
def execSetMeter (l : LinkId) (tag : Byte) (ps : List Word) (s : State) : Outcome :=
  serveWide l (.only .sales) [.one, .one, .one] (requestOf tag 0x5D ps) setMeterBody s

/-- The body of SET_DAY (R178). -/
def setDayBody : Body := fun fs s =>
  required (fs.nat 0) s fun d => (Answer.ok [.one s.meter.day], s.modMeter fun m => { m with day := d })

/-- SET_DAY (R178). -/
def execSetDay (l : LinkId) (tag : Byte) (ps : List Word) (s : State) : Outcome :=
  serveLocal l (.only .sales) [.one] (requestOf tag 0x5E ps) setDayBody s

/-! ## CREDIT (R185) -/

/-- The checks of CREDIT: the order, then the units (R185, log 34). -/
def State.checkCredit (s : State) (order units : Nat) : Except Answer Order :=
  match s.book.order order with
  | none => .error (Answer.refuse .noOrder)
  | some o => if Config.maxUnits < units then .error (Answer.refuse .badValue) else .ok o

/-- Steps 1 and 2 of R185: the order and its account with the units taken. -/
def OrderBook.credit (o : Order) (u : Nat) (b : OrderBook) : OrderBook :=
  let clamped := decide (o.units < u) || decide (b.owed o.account < u)
  (b.modOrder o.id fun x => { x with units := x.units - u, clamped := x.clamped || clamped }).modAccount o.account fun a =>
    { a with owed := a.owed - u }

/-- CREDIT is taken, in the order of R185. -/
def State.credit (o : Order) (u : Nat) (s : State) : State :=
  let fromOrder := min u o.units
  let owed := s.book.owed o.account
  let fromAccount := min u owed
  let s := s.modBook (OrderBook.credit o u)
  let s := s.evaluate cutOffDeliveries o.account
  s.modMeter (Meter.addEntry (.credit o.id u fromOrder fromAccount (decide (o.units < u)) (decide (owed < u))))

/-- The units of an order, 0 when there is none. -/
def OrderBook.unitsOf (b : OrderBook) (id : Nat) : Nat :=
  match b.order id with
  | some o => o.units
  | none => 0

/-- The body of CREDIT (R185). -/
def creditBody : Body := fun fs s =>
  required (fs.nat 0) s fun id => required (fs.nat 1) s fun u =>
    checked (s.checkCredit id u) s fun o =>
      let t := s.credit o u
      (Answer.ok [.two (min u o.units), .two (min u (s.book.owed o.account)), .two (t.book.unitsOf id),
        .two (t.book.owed o.account), t.statusField o.account], t)

/-- CREDIT (R185). -/
def execCredit (l : LinkId) (tag : Byte) (ps : List Word) (s : State) : Outcome :=
  serveWide l (.only .sales) [.one, .two] (requestOf tag 0x5F ps) creditBody s

/-! ## METER_STATUS (R184, R205) -/

/-- The six words of settings and state (R205). -/
def Meter.statusFields (m : Meter) : List Field :=
  [.one m.settings.divisor, .one m.settings.cutOff, .one m.settings.reinstate, .one m.day,
   .one (markWord (m.tariffs.map (·.set))), .one (m.repaired.toNat + 2 * m.tariffUnset.toNat + 256 * m.log.length)]

/-- A posting outcome's value (R205). -/
def PostingOutcome.code : PostingOutcome → Nat
  | .charged => 0
  | .crept => 1
  | .repeated => 2
  | .unset => 3

/-- The first word of an entry's summary: item, kind, outcome and the four marks (R205). -/
def LogEntry.head : LogEntry → Nat
  | .posting restore _ item _ _ _ _ _ _ outcome orderSat owedSat =>
    256 * item + restore.toNat + 4 * outcome.code + 16 * orderSat.toNat + 32 * owedSat.toNat
  | .credit _ _ _ _ orderClamped owedClamped => 2 + 64 * orderClamped.toNat + 128 * owedClamped.toNat

/-- An entry in summary: five words. The third word of a credit's entry, which is no handle and no job id, is a free value
(R205, log 16). -/
def LogEntry.summary (free : Word) (e : LogEntry) : List Field :=
  match e with
  | .posting _ order _ work _ _ _ _ q _ _ _ => [.one e.head, .one order, .one work, .two q]
  | .credit order _ fromOrder _ _ _ => [.one e.head, .one order, .one free.toNat, .two fromOrder]

/-- The log in summary, oldest first. Each entry takes its own free value (log 16). -/
def summaries (count : Nat) : List LogEntry → List Field
  | [] => []
  | e :: es => e.summary (Config.freeWord count) ++ summaries (count + 1) es

/-- An entry in full: every field that R184 gives an entry of its kind. The fields of the other kind are no part of its
layout (log 46). -/
def LogEntry.full : LogEntry → List Field
  | .posting restore order item work count gross aged net q outcome orderSat owedSat =>
    [.one restore.toNat, .one order, .one item, .one work, .one count, .two gross, .two aged, .two net, .two q,
     .one outcome.code, .mark orderSat, .mark owedSat]
  | .credit order named fromOrder fromAccount orderClamped owedClamped =>
    [.one 2, .one order, .two named, .two fromOrder, .two fromAccount, .mark orderClamped, .mark owedClamped]

/-- The body of METER_STATUS (R184). -/
def meterStatusBody : Body := fun fs s =>
  match fs.nat 0 with
  | none =>
    (Answer.ok (s.meter.statusFields ++ summaries s.freeCount s.meter.log),
      { s with freeCount := s.freeCount + s.meter.log.length })
  | some n =>
    match s.meter.log[n]? with
    | none => refuseWith .badValue s
    | some e => (Answer.ok (s.meter.statusFields ++ e.full), s)

/-- METER_STATUS (R184). -/
def execMeterStatus (l : LinkId) (tag : Byte) (ps : List Word) (s : State) : Outcome :=
  serveLocal l (.only .sales) [.one] (requestOf tag 0x60 ps) meterStatusBody s

end Sys2Proof.Machine
end

