-- ==== Sys2Proof/Machine/NoticeCommands.lean ====
section
/-! DEFINITION. The notice requests of all three links: POLL, PEEK, END_NOTICE, SET_NOTICE (chapter 10). -/

namespace Sys2Proof.Machine

/-- The body of POLL on a link: the candidate goes into service, and an EDGE source's latch clears (R200). -/
def pollBody (l : LinkId) : Body := fun _ s =>
  match s.candidate l with
  | none => refuseWith .nothingPending s
  | some n =>
    (Answer.ok [.one n],
      s.modNotices l (·.modify n fun src => { src with inService := true, latched := false }))

/-- POLL (R200). -/
def execPoll (l : LinkId) (tag : Byte) (ps : List Word) (s : State) : Outcome :=
  serveLocal l .all [] (requestOf tag 0x74 ps) (pollBody l) s

/-- Priorities in a reply: their count and the values (R205, log 48). -/
def Controller.priorityField (c : Controller) : Field := .many (c.sources.length :: c.sources.map (·.priority))

/-- What PEEK reports beside the source: pending, mask and in-service marks, priorities and floor (R200), each
kind of mark as one word with bit n for source n (log 48). -/
def State.peekFields (s : State) (l : LinkId) : List Field :=
  let c := (s.link l).notices
  [.one (markWord ((s.numbered l).map fun (src, n) => s.pendingMark l n src)), .one (markWord (c.sources.map (·.mask))),
   .one (markWord (c.sources.map (·.inService))), c.priorityField, .one c.floor]

/-- The body of PEEK on a link: it chooses as POLL does and changes nothing (R200, log 33). -/
def peekBody (l : LinkId) : Body := fun _ s =>
  match s.candidate l with
  | none => ({ result := .nothingPending, fields := .absent :: s.peekFields l }, s)
  | some n => (Answer.ok (.one n :: s.peekFields l), s)

/-- PEEK (R200). -/
def execPeek (l : LinkId) (tag : Byte) (ps : List Word) (s : State) : Outcome :=
  serveLocal l .all [] (requestOf tag 0x75 ps) (peekBody l) s

/-- The service of a source ends (R201). -/
def State.endService (l : LinkId) (n : Nat) (s : State) : State :=
  s.modNotices l (·.modify n fun src => { src with inService := false })

/-- A source of a link is in service. -/
def State.serving (s : State) (l : LinkId) (n : Nat) : Bool :=
  (((s.link l).notices.sources[n]?).map (·.inService)).getD false

/-- The body of END_NOTICE on a link (R201). A named source's reply says whether it was in service (log 15). -/
def endNoticeBody (l : LinkId) : Body := fun fs s =>
  match fs.nat 0 with
  | some n =>
    if sourceCount l ≤ n then refuseWith .badValue s
    else (Answer.ok [.one n, .mark (s.serving l n)], s.endService l n)
  | none =>
    match s.bestInService l with
    | some n => (Answer.ok [.one n], s.endService l n)
    | none => refuseWith .nothingPending s

/-- END_NOTICE (R201). -/
def execEndNotice (l : LinkId) (tag : Byte) (ps : List Word) (s : State) : Outcome :=
  serveLocal l .all [.one] (requestOf tag 0x76 ps) (endNoticeBody l) s

/-- The layout of SET_NOTICE: the priorities of sources 0 to 7, the mask field, the floor (R205). -/
def setNoticeLayout : List Layout := [.one, .one, .one, .one, .one, .one, .one, .one, .mask, .one]

/-- The mask field names a source that the link does not have (R205). -/
def maskOutside (count : Nat) (v : List Nat) : Bool := v.any (2 ^ count ≤ ·)

/-- A source outside the link's range is named (R202, R205). -/
def namesOutside (count : Nat) (fs : Fields) : Bool :=
  ((List.range 8).any fun n => count ≤ n && (fs.nat n).isSome) || maskOutside count ((fs.values 8).getD [])

/-- A priority above 7 or a floor above 8 (R202). -/
def levelOutside (fs : Fields) : Bool := ((List.range 8).any fun n => fs.inRange n 0 7 = false) || fs.inRange 9 0 8 = false

/-- The mask that the mask field gives a source: the first word says which are written, the second what they become. -/
def newMask (v : Option (List Nat)) (n : Nat) (old : Bool) : Bool :=
  match v with
  | some [written, value] => if written.testBit n then value.testBit n else old
  | _ => old

/-- A controller with the values that a request names (R202). -/
def Controller.write (fs : Fields) (c : Controller) : Controller :=
  { sources := c.sources.mapIdx fun n src =>
      { src with mask := newMask (fs.values 8) n src.mask, priority := (fs.nat n).getD src.priority }
    floor := (fs.nat 9).getD c.floor }

/-- Masks, priorities and floor in a reply (R202, log 48). -/
def Controller.fields (c : Controller) : List Field :=
  [.one (markWord (c.sources.map (·.mask))), c.priorityField, .one c.floor]

/-- The body of SET_NOTICE on a link (R202). The source numbers are checked before the values (log 34). -/
def setNoticeBody (l : LinkId) : Body := fun fs s =>
  if namesOutside (sourceCount l) fs then refuseWith .badValue s
  else if levelOutside fs then refuseWith .badRange s
  else (Answer.ok (s.link l).notices.fields, s.modNotices l (Controller.write fs))

/-- SET_NOTICE (R202). -/
def execSetNotice (l : LinkId) (tag : Byte) (ps : List Word) (s : State) : Outcome :=
  serveLocal l .all setNoticeLayout (requestOf tag 0x77 ps) (setNoticeBody l) s

end Sys2Proof.Machine
end

