-- ==== Sys2Proof/Machine/PowerCommands.lean ====
section
/-! DEFINITION. Power and RESET: POWER_UP, RESET_ASSERT, RESET_RELEASE, POWER_LOSS (R67, R68). -/

namespace Sys2Proof.Machine

/-- POWER_UP: STANDBY_OK is sampled, and the start is made unless RESET is held (R67). -/
def execPowerUp (standbyOk sizeHigh resetHeld headerUpset : Bool) (s : State) : Outcome :=
  match s.power with
  | .off =>
    let s := { s with standbyOk }
    if resetHeld then .next { s with power := .inReset true } else .next (s.startAtPowerUp sizeHigh headerUpset)
  | _ => .next s

/-- RESET_ASSERT: self-refresh, no transfer, no frame taken, READY low (R68). -/
def execResetAssert (s : State) : Outcome :=
  match s.power with
  | .running => .next { s.modStore Store.hold with power := .inReset false }
  | _ => .next s

/-- RESET_RELEASE: the start, by the header, or as a power-up when RESET was held through it (R67). -/
def execResetRelease (sizeHigh headerUpset : Bool) (s : State) : Outcome :=
  match s.power with
  | .inReset true => .next (s.startAtPowerUp sizeHigh headerUpset)
  | .inReset false => .next ((s.readHeader headerUpset).startByHeader .warmReset sizeHigh)
  | _ => .next s

/-- POWER_LOSS: what is volatile is lost, and the DRAM too unless the standby supply keeps it (R67, log 8, log 25). -/
def execPowerLoss (dramKept : Bool) (s : State) : Outcome :=
  match s.power with
  | .off => .next s
  | _ => .next (s.losePower dramKept)

end Sys2Proof.Machine
end

