-- ==== Sys2Proof/Machine/QueryCommands.lean ====
section
/-! DEFINITION. The queries of all three links: EDITION_INFO, PAGE_INFO, PHOTO_INFO (R18 to R20) and STORE_INFO (R81). -/

namespace Sys2Proof.Machine

/-! ## EDITION_INFO (R18) -/

/-- The page map: ten words, page n at bit (n - 1) mod 16 of word (n - 1) / 16 (R205). -/
def Edition.map (e : Edition) : List Nat :=
  (List.range 10).map fun w => markWord ((List.range 16).map fun b => (e.page (16 * w + b + 1)).isSome)

/-- Revisions of the edition whose pin count is above 0 (R18). -/
def Edition.pinnedCount (e : Edition) : Nat :=
  (e.pages.map fun p => (p.revs.filter (·.pins ≠ 0)).length).sum

/-- Extents of the edition whose reader count is above 0 (R18). -/
def State.readExtents (s : State) (e : Edition) : Nat := (e.extents.filter fun n => s.alloc.readersOf n ≠ 0).length

/-- The reader counts of the edition's extents, summed (R49, log 38). -/
def State.readerSum (s : State) (e : Edition) : Nat := (e.extents.map s.alloc.readersOf).sum

/-- The reply fields of an edition: those that R18 lists, and last the sum that R49 has EDITION_INFO report (log 38). -/
def State.editionFields (s : State) (e : Edition) : List Field :=
  [.one e.id, .one e.issueDay, .one e.number, .one e.state.code, .one e.pages.length, .many e.map, .one e.filling,
   .one e.pinnedCount, .one (s.readExtents e), .one (s.readerSum e)]

/-- The body of EDITION_INFO (R18). A mode word above 1 is answered BAD_VALUE first (log 37). -/
def editionInfoBody : Body := fun fs s =>
  required (fs.nat 0) s fun id => required (fs.nat 1) s fun mode =>
    if 1 < mode then refuseWith .badValue s
    else
      match (byMode mode id (s.cat.editions.map (·.id))).bind s.cat.edition with
      | none => refuseWith .noEdition s
      | some e => (Answer.ok (s.editionFields e), s)

/-- EDITION_INFO (R18). -/
def execEditionInfo (l : LinkId) (tag : Byte) (ps : List Word) (s : State) : Outcome :=
  serveLocal l .all [.one, .one] (requestOf tag 0x70 ps) editionInfoBody s

/-! ## PAGE_INFO (R19) -/

/-- FILLING is 0 and COMPLETE is 1. -/
def FillState.code : FillState → Nat
  | .filling => 0
  | .complete => 1

/-- A revision in a page summary: number, state, pin count, and whether it has a restored rendition (R19).
DESIGN CHOICE: one word each (log 54). -/
def Revision.summary (v : Revision) : List Nat := [v.number, v.state.code, v.pins, v.restored.isSome.toNat]

/-- The page summary (R19). DESIGN CHOICE: the revision list is a count word and the words of its entries (log 54). -/
def Page.fields (p : Page) : List Field :=
  [.one p.number, .one p.lastIssued, .ofOption (p.current.map (·.number)),
   .many (p.revs.length :: p.revs.flatMap Revision.summary)]

/-- A damaged-tile list in a reply (R205). -/
def DamageList.field (d : DamageList) : Field :=
  .many (indexWord d.entries.length d.overflow :: d.entries.map fun e => indexWord e.index (e.rendition = .restored))

/-- The restored rendition in a revision detail: its fields, all absent when there is none (R19, R205). -/
def restoredFields (r : Option Restored) : List Field :=
  match r with
  | some r =>
    [.one r.source.code, .one r.tone.b, .one r.tone.w, .one r.tone.s, .mark r.lowRange, .one r.changed, .one r.blanked,
     defectField r.defects r.defectsOverflow]
  | none => List.replicate 8 .absent

/-- The revision detail (R19). -/
def State.revisionFields (s : State) (v : Revision) : List Field :=
  [.one v.number, .one v.state.code, .one v.width, .one v.height, .one v.cls, .one v.pins,
   .one (s.alloc.readersOf v.raw), .ofOption (v.restored.map fun r => s.alloc.readersOf r.extent), v.damage.field,
   .many (v.photos.length :: v.photos)] ++ restoredFields v.restored

/-- The body of PAGE_INFO (R19). -/
def pageInfoBody : Body := fun fs s =>
  required (fs.nat 0) s fun ed => required (fs.nat 1) s fun pg =>
    match s.cat.edition ed with
    | none => refuseWith .noEdition s
    | some e =>
      match e.page pg with
      | none => refuseWith .noPage s
      | some p =>
        match fs.nat 2 with
        | none => (Answer.ok p.fields, s)
        | some n =>
          match p.rev n with
          | none => refuseWith .noRevision s
          | some v => (Answer.ok (s.revisionFields v), s)

/-- PAGE_INFO (R19). -/
def execPageInfo (l : LinkId) (tag : Byte) (ps : List Word) (s : State) : Outcome :=
  serveLocal l .all [.one, .one, .one] (requestOf tag 0x71 ps) pageInfoBody s

/-! ## PHOTO_INFO (R20) -/

/-- The reply fields of a photograph (R20). -/
def State.photoFields (s : State) (p : Photo) : List Field :=
  [.one p.id, .one p.state.code, .one p.width, .one p.height, .one p.cls, .one p.pins,
   .one (s.alloc.readersOf p.extent), p.damage.field,
   .many (p.refs.length :: p.refs.flatMap fun r => [r.edition, r.page, r.revision])]

/-- The body of PHOTO_INFO (R20). A mode word above 1 is answered BAD_VALUE first (log 37). -/
def photoInfoBody : Body := fun fs s =>
  required (fs.nat 0) s fun id => required (fs.nat 1) s fun mode =>
    if 1 < mode then refuseWith .badValue s
    else
      match (byMode mode id (s.cat.photos.map (·.id))).bind s.cat.photo with
      | none => refuseWith .noPhoto s
      | some p => (Answer.ok (s.photoFields p), s)

/-- PHOTO_INFO (R20). -/
def execPhotoInfo (l : LinkId) (tag : Byte) (ps : List Word) (s : State) : Outcome :=
  serveLocal l .all [.one, .one] (requestOf tag 0x72 ps) photoInfoBody s

/-! ## STORE_INFO (R81) -/

/-- A start kind's position in R81. -/
def StartKind.code : StartKind → Nat
  | .cold => 0
  | .coldByHeader => 1
  | .warmPower => 2
  | .warmReset => 3

/-- A store state's position in R77. -/
def StoreState.code : StoreState → Nat
  | .active => 0
  | .quiet => 1
  | .waking => 2

/-- A reader kind's position in R75. -/
def ReaderKind.code : ReaderKind → Nat
  | .delivery => 0
  | .restoration => 1
  | .copy => 2

/-- An owner in a reply: its kind RAW 0, RESTORED 1 or PHOTO 2, and its name as four fields (R47, log 15). -/
def Owner.fields : Owner → List Field
  | .raw r => .one 0 :: (Target.page r).fields
  | .restored r => .one 1 :: (Target.page r).fields
  | .photo id => .one 2 :: (Target.photo id).fields

/-- The last damage record, all absent when there is none; its owner fields absent when the extent had none (R75, R81). -/
def damageFields : Option DamageRecord → List Field
  | none => List.replicate 8 .absent
  | some d =>
    [.two d.slot, .one d.reader.code] ++
      match d.owner with
      | some (o, i) => o.fields ++ [.one i]
      | none => List.replicate 6 .absent

/-- The level of the SIZE strap now: that of its last move that the clock has reached, or, where it has not moved since,
that which the last start read (R66, R81, log 41). -/
def State.sizeNow (s : State) : Bool :=
  (((s.sizeMoves.filter (·.1 ≤ s.now)).getLast?).map (·.2)).getD s.store.sizeHigh

/-- The strap reads differently from the slot count in force (R66). -/
def State.sizeMismatch (s : State) : Bool := Config.slotCount s.sizeNow != s.store.slotCount

/-- The larger of two free runs, the lower one when they are equal (log 15). -/
def largerRun (a b : FreeRun) : FreeRun := if a.size < b.size then b else a

/-- The largest free run (R50). -/
def Allocator.largestRun (a : Allocator) : Option FreeRun :=
  match a.runs with
  | [] => none
  | r :: rs => some (rs.foldl largerRun r)

/-- Extent records in a state (R50). -/
def Allocator.countIn (a : Allocator) (st : ExtentState) : Nat := (a.extents.filter (·.state = st)).length

/-- A two-word value that may be absent. -/
def Field.twoOfOption : Option Nat → Field
  | some n => .two n
  | none => .absent

/-- The allocator's figures (R50). -/
def Allocator.fields (a : Allocator) : List Field :=
  [.two a.freeTotal, .one a.runs.length, .twoOfOption (a.largestRun.map (·.size)),
   .twoOfOption (a.largestRun.map (·.first)), .one a.extents.length, .one (a.countIn .filling), .one (a.countIn .building),
   .one (a.countIn .live), .one (a.countIn .moving), .one (a.countIn .releasing), .two a.lowWater, .mark a.spaceLow]

/-- A compaction state's position in R58. -/
def CompactionState.code : CompactionState → Nat
  | .idle => 0
  | .waiting => 1
  | .copying => 2

/-- A compaction outcome's position in R58. -/
def CompactionOutcome.code : CompactionOutcome → Nat
  | .none => 0
  | .done => 1
  | .nothingMovable => 2
  | .stopped => 3

/-- The compaction fields (R58). -/
def Compaction.fields (c : Compaction) : List Field :=
  [.one c.state.code, .one c.asked, .one c.made, .mark c.stop, .ofOption (c.move.map (·.extent)),
   .twoOfOption (c.move.map (·.oldFirst)), .twoOfOption (c.move.map (·.target)), .ofOption (c.move.map (·.copied)),
   .one c.outcome.code, .one c.outcomeMade]

/-- The reply fields of STORE_INFO, the SIZE strap as now read among them (R81). -/
def State.storeFields (s : State) : List Field :=
  let st := s.store
  [.two st.slotCount, .mark s.sizeNow, .mark s.sizeMismatch, .one st.lastStart.code, .one st.state.code, .one st.debt,
   .mark st.halted, .one st.fixedCount, .one st.quietThreshold, .one st.burstLength, .one st.haltCount,
   .one st.damagedReads] ++ damageFields st.lastDamage ++ s.alloc.fields ++ s.alloc.compaction.fields

/-- The body of STORE_INFO (R81). -/
def storeInfoBody : Body := fun _ s => (Answer.ok s.storeFields, s)

/-- STORE_INFO (R81). -/
def execStoreInfo (l : LinkId) (tag : Byte) (ps : List Word) (s : State) : Outcome :=
  serveLocal l .all [] (requestOf tag 0x73 ps) storeInfoBody s

end Sys2Proof.Machine
end

