-- ==== Sys2Proof/Machine/StoreCommands.lean ====
section
/-! DEFINITION. The allocator's and the store's commands: SET_LOW_WATER, COMPACT, SET_STORE, COPY_READ_COMPLETE,
COPY_WRITE_COMPLETE, REFRESH_DUE, BURST_END, ENTER_QUIET, WAKE_TIME_ENDS (chapters 3 and 4). -/

namespace Sys2Proof.Machine

/-! ## Settings -/

/-- The greatest low-water mark (R57). -/
def maxLowWater : Nat := 524288

/-- The body of SET_LOW_WATER (R57). -/
def setLowWaterBody : Body := fun fs s =>
  required (fs.nat 0) s fun n =>
    if maxLowWater < n then refuseWith .badRange s
    else (Answer.ok [.two s.alloc.lowWater], s.modAlloc fun a => { a with lowWater := n })

/-- SET_LOW_WATER (R57). -/
def execSetLowWater (l : LinkId) (tag : Byte) (ps : List Word) (s : State) : Outcome :=
  serveLocal l (.only .production) [.two] (requestOf tag 0x1A ps) setLowWaterBody s

/-- COMPACT is taken: the compaction waits, and one copy request is placed in the work queue (R58, R86). -/
def State.startCompaction (n : Nat) (s : State) : State :=
  let s := s.modAlloc (·.modCompaction fun c => { c with asked := n, made := 0, stop := false })
  s.requestCopy.handout

/-- The body of COMPACT (R58). The count is checked before the state (log 34). -/
def compactBody : Body := fun fs s =>
  required (fs.nat 0) s fun n =>
    if n = 0 ∨ 64 < n then refuseWith .badRange s
    else if s.alloc.compaction.state ≠ .idle then refuseWith .inUse s
    else (Answer.ok [], s.startCompaction n)

/-- COMPACT (R58). -/
def execCompact (l : LinkId) (tag : Byte) (ps : List Word) (s : State) : Outcome :=
  serveWide l (.only .production) [.one] (requestOf tag 0x1B ps) compactBody s

/-- The store with new settings; a new threshold may take it into QUIET at once (R80). -/
def Store.setSettings (now threshold burst : Nat) (st : Store) : Store :=
  Store.quietIfDue now { st with quietThreshold := threshold, burstLength := burst }

/-- The body of SET_STORE (R80). -/
def setStoreBody : Body := fun fs s =>
  let threshold := (fs.nat 0).getD s.store.quietThreshold
  let burst := (fs.nat 1).getD s.store.burstLength
  if fs.inRange 0 0 255 = false ∨ fs.inRange 1 1 16 = false then refuseWith .badRange s
  else
    (Answer.ok [.one s.store.quietThreshold, .one s.store.burstLength],
      s.modStore (Store.setSettings s.now threshold burst))

/-- SET_STORE (R80). -/
def execSetStore (l : LinkId) (tag : Byte) (ps : List Word) (s : State) : Outcome :=
  serveWide l (.only .production) [.one, .one] (requestOf tag 0x1C ps) setStoreBody s

/-! ## Compaction copies (R97) -/

/-- The transfer is of a channel that runs the copy. -/
def State.isCopy (s : State) (t : Transfer) : Bool := (s.workOf t.client).map Prod.snd = some .copy

/-- COPY_READ_COMPLETE (R97 step 2). -/
def execCopyReadComplete (upset : List Upset) (s : State) : Outcome :=
  whenCompletes s (fun t => t.kind = .read && s.isCopy t) fun t s =>
    let r := s.readTile t.slot upset .copy
    match r.2.2.workOf t.client with
    | some (c, _) => r.2.2.copyArrives c r.1 r.2.1
    | none => r.2.2

/-- COPY_WRITE_COMPLETE (R97 step 3, R61). -/
def execCopyWriteComplete (s : State) : Outcome :=
  whenCompletes s (fun t => t.kind != .read && s.isCopy t) fun t s =>
    match s.workOf t.client with
    | some (c, _) => s.copyWritten c
    | none => s

/-! ## Refresh (R71 to R73) -/

/-- The refresh timer falls due: the debt rises by 1 up to 8, and the next due moment is one interval later (R71). A debt
that reaches 8 halts transfers at once, with a transfer or a burst in progress too (R73). -/
def Store.refreshFalls (due : Nat) (st : Store) : Store :=
  let st := { st with debt := min (st.debt + 1) 8, refreshDue := some (due + st.refreshInterval) }
  if st.debt = 8 ∧ st.halted = false then st.halt else st

/-- REFRESH_DUE (R71, R73). The timer runs while the store is ACTIVE. -/
def execRefreshDue (s : State) : Outcome :=
  whenRunning s fun s =>
    match s.store.refreshDue with
    | some due => .next ((s.reach due).modStore (Store.refreshFalls due)).settle
    | none => .next s

/-- A burst ends: the debt falls by 1, and a halt ends at debt 0 (R72, R73). -/
def Store.burstEnds (st : Store) : Store :=
  { st with burst := none, debt := st.debt - 1, halted := st.halted && 1 < st.debt }

/-- BURST_END (R72). QUIET that waited for the burst is entered when its conditions still hold (R77, log 21). -/
def execBurstEnd (s : State) : Outcome :=
  whenRunning s fun s =>
    if s.store.burst.isSome then .next (s.modStore fun st => Store.quietIfDue s.now st.burstEnds).settle else .next s

/-! ## Quiet and waking (R77, R78) -/

/-- The moment the idle time reaches the quiet threshold, when R77 lets the store go QUIET then. -/
def Store.quietMoment (st : Store) : Option Nat :=
  if st.idle && st.quietThreshold != 0 && st.fixedCount == 0 then
    st.idleSince.map (· + st.quietThreshold * Config.quietStep)
  else none

/-- ENTER_QUIET (R77). A burst in progress is finished first. -/
def execEnterQuiet (s : State) : Outcome :=
  whenRunning s fun s =>
    match s.store.quietMoment with
    | some moment =>
      let s := s.reach moment
      .next (s.modStore (Store.quietIfDue s.now)).settle
    | none => .next s

/-- The store becomes ACTIVE at the end of the wake time: debt 0, refresh timer started, its idle time from zero (R71,
R78). -/
def Store.wake (now : Nat) (st : Store) : Store :=
  { st with state := .active, debt := 0, wakeEnds := none, refreshDue := some (now + st.refreshInterval), idleSince := none }

/-- WAKE_TIME_ENDS (R78). -/
def execWakeTimeEnds (s : State) : Outcome :=
  whenRunning s fun s =>
    match s.store.state, s.store.wakeEnds with
    | .waking, some moment =>
      let s := s.reach moment
      .next (s.modStore (Store.wake s.now)).settle
    | _, _ => .next s

end Sys2Proof.Machine
end

