-- ==== Sys2Proof/Machine/Dispatch.lean ====
section
/-! DEFINITION. The meaning of every command, one arm for each row of the opcode table. -/

namespace Sys2Proof.Machine

def exec (i : Instr) (s : State) : Host.Outcome State Fault Refusal :=
  match i with
  | .powerUp standbyOk sizeHigh resetHeld headerUpset => Sys2Proof.Machine.execPowerUp standbyOk sizeHigh resetHeld headerUpset s
  | .resetAssert => Sys2Proof.Machine.execResetAssert s
  | .resetRelease sizeHigh headerUpset => Sys2Proof.Machine.execResetRelease sizeHigh headerUpset s
  | .requestFrameArrives l ws => Sys2Proof.Machine.execRequestFrameArrives l ws s
  | .frameRefused l ws => Sys2Proof.Machine.execFrameRefused l ws s
  | .unknownRequestCode l tag code ps => Sys2Proof.Machine.execUnknownRequestCode l tag code ps s
  | .tileFrame ws => Sys2Proof.Machine.execTileFrame ws s
  | .tileWriteComplete => Sys2Proof.Machine.execTileWriteComplete s
  | .depositTimeout slot => Sys2Proof.Machine.execDepositTimeout slot s
  | .openEdition l tag ps => Sys2Proof.Machine.execOpenEdition l tag ps s
  | .depositPage l tag ps => Sys2Proof.Machine.execDepositPage l tag ps s
  | .depositPhoto l tag ps => Sys2Proof.Machine.execDepositPhoto l tag ps s
  | .replatePage l tag ps => Sys2Proof.Machine.execReplatePage l tag ps s
  | .closeEdition l tag ps => Sys2Proof.Machine.execCloseEdition l tag ps s
  | .retireEdition l tag ps => Sys2Proof.Machine.execRetireEdition l tag ps s
  | .discardPhoto l tag ps => Sys2Proof.Machine.execDiscardPhoto l tag ps s
  | .abandonDeposit l tag ps => Sys2Proof.Machine.execAbandonDeposit l tag ps s
  | .depositStatus l tag ps => Sys2Proof.Machine.execDepositStatus l tag ps s
  | .setDepositTimeout l tag ps => Sys2Proof.Machine.execSetDepositTimeout l tag ps s
  | .setLowWater l tag ps => Sys2Proof.Machine.execSetLowWater l tag ps s
  | .compact l tag ps => Sys2Proof.Machine.execCompact l tag ps s
  | .setStore l tag ps => Sys2Proof.Machine.execSetStore l tag ps s
  | .copyReadComplete upset => Sys2Proof.Machine.execCopyReadComplete upset s
  | .copyWriteComplete => Sys2Proof.Machine.execCopyWriteComplete s
  | .refreshDue => Sys2Proof.Machine.execRefreshDue s
  | .burstEnd => Sys2Proof.Machine.execBurstEnd s
  | .enterQuiet => Sys2Proof.Machine.execEnterQuiet s
  | .wakeTimeEnds => Sys2Proof.Machine.execWakeTimeEnds s
  | .readPage l tag ps => Sys2Proof.Machine.execReadPage l tag ps s
  | .readPhoto l tag ps => Sys2Proof.Machine.execReadPhoto l tag ps s
  | .deliveryReadComplete upset => Sys2Proof.Machine.execDeliveryReadComplete upset s
  | .fixedPeriodBegins channel => Sys2Proof.Machine.execFixedPeriodBegins channel s
  | .frameSent l => Sys2Proof.Machine.execFrameSent l s
  | .stopDelivery l tag ps => Sys2Proof.Machine.execStopDelivery l tag ps s
  | .deliveryStatus l tag ps => Sys2Proof.Machine.execDeliveryStatus l tag ps s
  | .setPacing l tag ps => Sys2Proof.Machine.execSetPacing l tag ps s
  | .restorePage l tag ps => Sys2Proof.Machine.execRestorePage l tag ps s
  | .cancelRestore l tag ps => Sys2Proof.Machine.execCancelRestore l tag ps s
  | .restoreStatus l tag ps => Sys2Proof.Machine.execRestoreStatus l tag ps s
  | .setSurvey l tag ps => Sys2Proof.Machine.execSetSurvey l tag ps s
  | .writeProfile l tag ps => Sys2Proof.Machine.execWriteProfile l tag ps s
  | .readProfile l tag ps => Sys2Proof.Machine.execReadProfile l tag ps s
  | .surveyReadComplete upset => Sys2Proof.Machine.execSurveyReadComplete upset s
  | .correctionReadComplete upset => Sys2Proof.Machine.execCorrectionReadComplete upset s
  | .correctionWriteComplete => Sys2Proof.Machine.execCorrectionWriteComplete s
  | .openAccount l tag ps => Sys2Proof.Machine.execOpenAccount l tag ps s
  | .setCeiling l tag ps => Sys2Proof.Machine.execSetCeiling l tag ps s
  | .settle l tag ps => Sys2Proof.Machine.execSettle l tag ps s
  | .removeAccount l tag ps => Sys2Proof.Machine.execRemoveAccount l tag ps s
  | .accountStatus l tag ps => Sys2Proof.Machine.execAccountStatus l tag ps s
  | .watchTimerExpires account => Sys2Proof.Machine.execWatchTimerExpires account s
  | .reinstatingTimerExpires account => Sys2Proof.Machine.execReinstatingTimerExpires account s
  | .openOrder l tag ps => Sys2Proof.Machine.execOpenOrder l tag ps s
  | .addItem l tag ps => Sys2Proof.Machine.execAddItem l tag ps s
  | .removeItem l tag ps => Sys2Proof.Machine.execRemoveItem l tag ps s
  | .closeOrder l tag ps => Sys2Proof.Machine.execCloseOrder l tag ps s
  | .orderStatus l tag ps => Sys2Proof.Machine.execOrderStatus l tag ps s
  | .releaseOrder l tag ps => Sys2Proof.Machine.execReleaseOrder l tag ps s
  | .writeTariff l tag ps => Sys2Proof.Machine.execWriteTariff l tag ps s
  | .readTariff l tag ps => Sys2Proof.Machine.execReadTariff l tag ps s
  | .setMeter l tag ps => Sys2Proof.Machine.execSetMeter l tag ps s
  | .setDay l tag ps => Sys2Proof.Machine.execSetDay l tag ps s
  | .credit l tag ps => Sys2Proof.Machine.execCredit l tag ps s
  | .meterStatus l tag ps => Sys2Proof.Machine.execMeterStatus l tag ps s
  | .editionInfo l tag ps => Sys2Proof.Machine.execEditionInfo l tag ps s
  | .pageInfo l tag ps => Sys2Proof.Machine.execPageInfo l tag ps s
  | .photoInfo l tag ps => Sys2Proof.Machine.execPhotoInfo l tag ps s
  | .storeInfo l tag ps => Sys2Proof.Machine.execStoreInfo l tag ps s
  | .poll l tag ps => Sys2Proof.Machine.execPoll l tag ps s
  | .peek l tag ps => Sys2Proof.Machine.execPeek l tag ps s
  | .endNotice l tag ps => Sys2Proof.Machine.execEndNotice l tag ps s
  | .setNotice l tag ps => Sys2Proof.Machine.execSetNotice l tag ps s
  | .linkReset l tag => Sys2Proof.Machine.execLinkReset l tag s
  | .powerLoss dramKept => Sys2Proof.Machine.execPowerLoss dramKept s

end Sys2Proof.Machine
end

