-- ==== Sys2Proof/Safety.lean ====
section
/-! DEFINITION. What a safe run is, and the terms the statements use: a request that its link takes, the requests behind the
commands, and the bounds that every state of a run keeps. -/

namespace Sys2Proof.Machine

/-! ## Safe runs -/

/-- A run of n steps is safe when no step of it faults or refuses. -/
def State.safeFor : Nat → State → Bool
  | 0, _ => true
  | n + 1, s =>
    match step s with
    | .next t => t.safeFor n
    | _ => false

/-! ## Requests -/

/-- The link takes the request `r` in the state `s`: the part runs, the request is at the head of the queue or arrives at
an empty one, a reply place is free, and its parameter words read as the fields `fs`. `s₁` is the state with the request
out of the queue, on which its rule acts (R189, R192, R205). -/
def Taken (l : LinkId) (r : Request) (layout : List Layout) (fs : Fields) (s s₁ : State) : Prop :=
  s.power = .running ∧ readFields layout r.params = some fs ∧
    ∃ k, (s.link l).present r = some k ∧ k.placeFree = true ∧ s₁ = s.setLink l k.take

/-- The request that a request command stands for: its link, and the frame with its code of Table 11-4. -/
def requestOfCommand : Instr → Option (LinkId × Request)
  | .openEdition l tag ps => some (l, requestOf tag 0x10 ps)
  | .depositPage l tag ps => some (l, requestOf tag 0x11 ps)
  | .depositPhoto l tag ps => some (l, requestOf tag 0x12 ps)
  | .replatePage l tag ps => some (l, requestOf tag 0x13 ps)
  | .closeEdition l tag ps => some (l, requestOf tag 0x14 ps)
  | .retireEdition l tag ps => some (l, requestOf tag 0x15 ps)
  | .discardPhoto l tag ps => some (l, requestOf tag 0x16 ps)
  | .abandonDeposit l tag ps => some (l, requestOf tag 0x17 ps)
  | .depositStatus l tag ps => some (l, requestOf tag 0x18 ps)
  | .setDepositTimeout l tag ps => some (l, requestOf tag 0x19 ps)
  | .setLowWater l tag ps => some (l, requestOf tag 0x1A ps)
  | .compact l tag ps => some (l, requestOf tag 0x1B ps)
  | .setStore l tag ps => some (l, requestOf tag 0x1C ps)
  | .readPage l tag ps => some (l, requestOf tag 0x30 ps)
  | .readPhoto l tag ps => some (l, requestOf tag 0x31 ps)
  | .stopDelivery l tag ps => some (l, requestOf tag 0x32 ps)
  | .deliveryStatus l tag ps => some (l, requestOf tag 0x33 ps)
  | .setPacing l tag ps => some (l, requestOf tag 0x34 ps)
  | .restorePage l tag ps => some (l, requestOf tag 0x35 ps)
  | .cancelRestore l tag ps => some (l, requestOf tag 0x36 ps)
  | .restoreStatus l tag ps => some (l, requestOf tag 0x37 ps)
  | .setSurvey l tag ps => some (l, requestOf tag 0x38 ps)
  | .writeProfile l tag ps => some (l, requestOf tag 0x39 ps)
  | .readProfile l tag ps => some (l, requestOf tag 0x3A ps)
  | .openAccount l tag ps => some (l, requestOf tag 0x50 ps)
  | .setCeiling l tag ps => some (l, requestOf tag 0x51 ps)
  | .settle l tag ps => some (l, requestOf tag 0x52 ps)
  | .removeAccount l tag ps => some (l, requestOf tag 0x53 ps)
  | .accountStatus l tag ps => some (l, requestOf tag 0x54 ps)
  | .openOrder l tag ps => some (l, requestOf tag 0x55 ps)
  | .addItem l tag ps => some (l, requestOf tag 0x56 ps)
  | .removeItem l tag ps => some (l, requestOf tag 0x57 ps)
  | .closeOrder l tag ps => some (l, requestOf tag 0x58 ps)
  | .orderStatus l tag ps => some (l, requestOf tag 0x59 ps)
  | .releaseOrder l tag ps => some (l, requestOf tag 0x5A ps)
  | .writeTariff l tag ps => some (l, requestOf tag 0x5B ps)
  | .readTariff l tag ps => some (l, requestOf tag 0x5C ps)
  | .setMeter l tag ps => some (l, requestOf tag 0x5D ps)
  | .setDay l tag ps => some (l, requestOf tag 0x5E ps)
  | .credit l tag ps => some (l, requestOf tag 0x5F ps)
  | .meterStatus l tag ps => some (l, requestOf tag 0x60 ps)
  | .editionInfo l tag ps => some (l, requestOf tag 0x70 ps)
  | .pageInfo l tag ps => some (l, requestOf tag 0x71 ps)
  | .photoInfo l tag ps => some (l, requestOf tag 0x72 ps)
  | .storeInfo l tag ps => some (l, requestOf tag 0x73 ps)
  | .poll l tag ps => some (l, requestOf tag 0x74 ps)
  | .peek l tag ps => some (l, requestOf tag 0x75 ps)
  | .endNotice l tag ps => some (l, requestOf tag 0x76 ps)
  | .setNotice l tag ps => some (l, requestOf tag 0x77 ps)
  | .powerUp _ _ _ _ => none
  | .resetAssert => none
  | .resetRelease _ _ => none
  | .requestFrameArrives _ _ => none
  | .frameRefused _ _ => none
  | .unknownRequestCode _ _ _ _ => none
  | .tileFrame _ => none
  | .tileWriteComplete => none
  | .depositTimeout _ => none
  | .copyReadComplete _ => none
  | .copyWriteComplete => none
  | .refreshDue => none
  | .burstEnd => none
  | .enterQuiet => none
  | .wakeTimeEnds => none
  | .deliveryReadComplete _ => none
  | .fixedPeriodBegins _ => none
  | .frameSent _ => none
  | .surveyReadComplete _ => none
  | .correctionReadComplete _ => none
  | .correctionWriteComplete => none
  | .watchTimerExpires _ => none
  | .reinstatingTimerExpires _ => none
  | .linkReset _ _ => none
  | .powerLoss _ => none

/-- The links on which a request command is taken (Table 10-2). Commands that are no requests belong to no link. -/
def homeOfCommand : Instr → Home
  | .powerUp _ _ _ _ => .all
  | .resetAssert => .all
  | .resetRelease _ _ => .all
  | .requestFrameArrives _ _ => .all
  | .frameRefused _ _ => .all
  | .unknownRequestCode _ _ _ _ => .all
  | .tileFrame _ => .all
  | .tileWriteComplete => .all
  | .depositTimeout _ => .all
  | .openEdition _ _ _ => (.only .production)
  | .depositPage _ _ _ => (.only .production)
  | .depositPhoto _ _ _ => (.only .production)
  | .replatePage _ _ _ => (.only .production)
  | .closeEdition _ _ _ => (.only .production)
  | .retireEdition _ _ _ => (.only .production)
  | .discardPhoto _ _ _ => (.only .production)
  | .abandonDeposit _ _ _ => (.only .production)
  | .depositStatus _ _ _ => (.only .production)
  | .setDepositTimeout _ _ _ => (.only .production)
  | .setLowWater _ _ _ => (.only .production)
  | .compact _ _ _ => (.only .production)
  | .setStore _ _ _ => (.only .production)
  | .copyReadComplete _ => .all
  | .copyWriteComplete => .all
  | .refreshDue => .all
  | .burstEnd => .all
  | .enterQuiet => .all
  | .wakeTimeEnds => .all
  | .readPage _ _ _ => (.only .desk)
  | .readPhoto _ _ _ => (.only .desk)
  | .deliveryReadComplete _ => .all
  | .fixedPeriodBegins _ => .all
  | .frameSent _ => .all
  | .stopDelivery _ _ _ => (.only .desk)
  | .deliveryStatus _ _ _ => (.only .desk)
  | .setPacing _ _ _ => (.only .desk)
  | .restorePage _ _ _ => (.only .desk)
  | .cancelRestore _ _ _ => (.only .desk)
  | .restoreStatus _ _ _ => (.only .desk)
  | .setSurvey _ _ _ => (.only .desk)
  | .writeProfile _ _ _ => (.only .desk)
  | .readProfile _ _ _ => (.only .desk)
  | .surveyReadComplete _ => .all
  | .correctionReadComplete _ => .all
  | .correctionWriteComplete => .all
  | .openAccount _ _ _ => (.only .sales)
  | .setCeiling _ _ _ => (.only .sales)
  | .settle _ _ _ => (.only .sales)
  | .removeAccount _ _ _ => (.only .sales)
  | .accountStatus _ _ _ => (.only .sales)
  | .watchTimerExpires _ => .all
  | .reinstatingTimerExpires _ => .all
  | .openOrder _ _ _ => (.only .sales)
  | .addItem _ _ _ => (.only .sales)
  | .removeItem _ _ _ => (.only .sales)
  | .closeOrder _ _ _ => (.only .sales)
  | .orderStatus _ _ _ => (.only .sales)
  | .releaseOrder _ _ _ => (.only .sales)
  | .writeTariff _ _ _ => (.only .sales)
  | .readTariff _ _ _ => (.only .sales)
  | .setMeter _ _ _ => (.only .sales)
  | .setDay _ _ _ => (.only .sales)
  | .credit _ _ _ => (.only .sales)
  | .meterStatus _ _ _ => (.only .sales)
  | .editionInfo _ _ _ => .all
  | .pageInfo _ _ _ => .all
  | .photoInfo _ _ _ => .all
  | .storeInfo _ _ _ => .all
  | .poll _ _ _ => .all
  | .peek _ _ _ => .all
  | .endNotice _ _ _ => .all
  | .setNotice _ _ _ => .all
  | .linkReset _ _ => .all
  | .powerLoss _ => .all

/-- The fields of a request command, in the order of its rule (R205). -/
def layoutOfCommand : Instr → List Layout
  | .powerUp _ _ _ _ => []
  | .resetAssert => []
  | .resetRelease _ _ => []
  | .requestFrameArrives _ _ => []
  | .frameRefused _ _ => []
  | .unknownRequestCode _ _ _ _ => []
  | .tileFrame _ => []
  | .tileWriteComplete => []
  | .depositTimeout _ => []
  | .openEdition _ _ _ => [.one, .one, .one]
  | .depositPage _ _ _ => depositLayout
  | .depositPhoto _ _ _ => [.one, .one, .one, .one]
  | .replatePage _ _ _ => depositLayout
  | .closeEdition _ _ _ => [.one]
  | .retireEdition _ _ _ => [.one]
  | .discardPhoto _ _ _ => [.one]
  | .abandonDeposit _ _ _ => [.one]
  | .depositStatus _ _ _ => [.one]
  | .setDepositTimeout _ _ _ => [.one]
  | .setLowWater _ _ _ => [.two]
  | .compact _ _ _ => [.one]
  | .setStore _ _ _ => [.one, .one]
  | .copyReadComplete _ => []
  | .copyWriteComplete => []
  | .refreshDue => []
  | .burstEnd => []
  | .enterQuiet => []
  | .wakeTimeEnds => []
  | .readPage _ _ _ => readPageLayout
  | .readPhoto _ _ _ => readPhotoLayout
  | .deliveryReadComplete _ => []
  | .fixedPeriodBegins _ => []
  | .frameSent _ => []
  | .stopDelivery _ _ _ => [.one]
  | .deliveryStatus _ _ _ => [.one]
  | .setPacing _ _ _ => [.one, .one]
  | .restorePage _ _ _ => [.one, .one, .one, .one]
  | .cancelRestore _ _ _ => [.one]
  | .restoreStatus _ _ _ => [.one]
  | .setSurvey _ _ _ => [.one, .one, .one, .one]
  | .writeProfile _ _ _ => [.one, .one, .one, .one]
  | .readProfile _ _ _ => [.one]
  | .surveyReadComplete _ => []
  | .correctionReadComplete _ => []
  | .correctionWriteComplete => []
  | .openAccount _ _ _ => [.one, .two]
  | .setCeiling _ _ _ => [.one, .two]
  | .settle _ _ _ => [.one, .two]
  | .removeAccount _ _ _ => [.one]
  | .accountStatus _ _ _ => [.one, .one]
  | .watchTimerExpires _ => []
  | .reinstatingTimerExpires _ => []
  | .openOrder _ _ _ => [.one, .one]
  | .addItem _ _ _ => addItemLayout
  | .removeItem _ _ _ => [.one, .one]
  | .closeOrder _ _ _ => [.one]
  | .orderStatus _ _ _ => [.one, .one, .one]
  | .releaseOrder _ _ _ => [.one]
  | .writeTariff _ _ _ => [.one, .one, .one, .one, .one, .one]
  | .readTariff _ _ _ => [.one]
  | .setMeter _ _ _ => [.one, .one, .one]
  | .setDay _ _ _ => [.one]
  | .credit _ _ _ => [.one, .two]
  | .meterStatus _ _ _ => [.one]
  | .editionInfo _ _ _ => [.one, .one]
  | .pageInfo _ _ _ => [.one, .one, .one]
  | .photoInfo _ _ _ => [.one, .one]
  | .storeInfo _ _ _ => []
  | .poll _ _ _ => []
  | .peek _ _ _ => []
  | .endNotice _ _ _ => [.one]
  | .setNotice _ _ _ => setNoticeLayout
  | .linkReset _ _ => []
  | .powerLoss _ => []

/-- The choices that a command leaves to the end of its step: its own link's transmitter, or the arbiter and every
transmitter, after a held tile frame where the command may have made room for it (R70, R193, R194, log 9). -/
def Finish (l : LinkId) (f : State → State) : Prop :=
  f = (fun s => s.transmit l) ∨ f = State.settle ∨ f = (fun s => s.passHeldTile.settle)

/-! ## Frames and reads of a delivery -/

/-- The frame being sent, after which `left` tiles of the walk are left, ends the delivery of a channel in a final state with
an end cause: the last frame of the walk of a RUNNING one, or any frame of a STOPPING one (R92, R94, R113). -/
def Channel.Ends (ch : Channel) (d : Delivery) (left : Nat) (final : DeliveryState) (cause : EndCause) : Prop :=
  (ch.state = .running ∧ left = 0 ∧ final = .done ∧ cause = .completed) ∨
  (ch.state = .stopping ∧ d.cause = some .linkLate ∧ final = .failed ∧ cause = .linkLate) ∨
  (ch.state = .stopping ∧ d.cause ≠ some .linkLate ∧ left = 0 ∧ final = .done ∧ cause = .completed) ∨
  (ch.state = .stopping ∧ d.cause = some cause ∧ cause ≠ .linkLate ∧ 1 ≤ left ∧ final = .stopped)

/-- The channel's frame being sent, with the delivery `d` become `counted` when it ends and `left` tiles of the walk left
then: a TILE or DAMAGED frame counts itself and takes one tile, a FILL frame counts a fill and takes none (R92, R94, R112). -/
def Channel.Sends (ch : Channel) (d counted : Delivery) (left : Nat) : Prop :=
  (ch.sendingFill = none ∧ left = ch.terminal - 1 ∧ ∃ p rest, ch.buffer = p :: rest ∧ p.state = .sending ∧
    counted = if p.damaged then { d with damaged := d.damaged + 1 } else { d with sent := d.sent + 1 }) ∨
  ((∃ n, ch.sendingFill = some n) ∧ left = ch.terminal ∧ counted = { d with fills := min (d.fills + 1) 65535 })

/-- A delivery's channel goes on from `s` to `t` with the places `rest` in their order. Behind them comes the next read of
the walk when no request of the channel is outstanding, a place is FREE and a tile is left, and the store is asked for it.
The pacing then offers a HELD head, or the frame that the period still has (R91, R92, R112). `e` is the extent. -/
def State.ReadsOn (s : State) (c : Fin 4) (d : Delivery) (e : Extent) (rest : List Place) (t : State) : Prop :=
  (∀ i, d.walk.tileAt d.imageWidth (s.channel c).line (s.channel c).place = some i →
    s.store.outstanding (.channel c) = false → rest.length < 4 →
    (t.channel c).buffer.map (·.index) = rest.map (·.index) ++ [i] ∧
    ((t.channel c).line, (t.channel c).place) = d.walk.advance (s.channel c).line (s.channel c).place ∧
    t.store = s.store.ask s.now { client := .channel c, slot := e.first + i, kind := .read }) ∧
  (d.walk.tileAt d.imageWidth (s.channel c).line (s.channel c).place = none ∨
      s.store.outstanding (.channel c) = true ∨ 4 ≤ rest.length →
    (t.channel c).buffer.map (·.index) = rest.map (·.index) ∧ t.store = s.store) ∧
  (∀ q more, d.pacing = none → rest = q :: more → q.state = .held →
    (t.channel c).buffer.head? = some { q with state := .offered }) ∧
  (∀ f, d.pacing ≠ none → (s.channel c).periodFrame = some f →
    (t.channel c).periodFrame = some { f with offered := true })

/-- The evaluation of the account `a` with `owed` units leaves it as `b` and raises no notice: it has no ceiling and is
ACTIVE or in WATCH, it falls out of WATCH, or no row of Table 8-3 applies (R156, R159). -/
def Account.EvaluatesTo (a : Account) (owed : Nat) (b : Account) : Prop :=
  ((a.ceiling = 0 ∧ (a.status = .active ∨ a.status = .watch) ∨ a.status = .watch ∧ owed < a.ceiling) ∧
    b = { a with owed, status := .active, timer := none }) ∨
  (a.ceiling ≠ 0 ∧ ((a.status = .active ∨ a.status = .reinstating) ∧ owed < a.ceiling ∨
    (a.status = .watch ∨ a.status = .cutOff) ∧ a.ceiling ≤ owed) ∧ b = { a with owed })

/-- A posting that gives the account `a` the owed units `owed` leaves it as `b` and raises no notice of it. The account is
evaluated only when the posting changed its owed units (R156, R183). -/
def Account.AfterPosting (a : Account) (owed : Nat) (b : Account) : Prop :=
  (owed = a.owed ∧ b = a) ∨ (owed ≠ a.owed ∧ a.EvaluatesTo owed b)

/-- The units that a divisor resolution under `d` makes of the grains of an account's orders (R186). -/
def OrderBook.resolvedUnits (b : OrderBook) (d account : Nat) : Nat :=
  ((b.orders.filter (·.account = account)).map (·.accumulator / d)).sum

/-- The account `a` after a divisor resolution at the moment `now` has brought its owed units to `owed`, by Table 8-3 and
R159: it stays as it is when they did not rise, it is ACTIVE without a ceiling, an ACTIVE one that owes its ceiling is in
WATCH, or CUT_OFF when the cut-off delay is 0, and a REINSTATING one that owes it is CUT_OFF (R156, R157, R186). -/
def Account.afterResolution (cutOff now owed : Nat) (a : Account) : Account :=
  if owed = a.owed then a
  else if a.ceiling = 0 then { a with owed, status := .active, timer := none }
  else if a.status = .active ∧ a.ceiling ≤ owed ∧ cutOff ≠ 0 then
    { a with owed, status := .watch, timer := some (now + cutOff * 500000) }
  else if (a.status = .active ∨ a.status = .reinstating) ∧ a.ceiling ≤ owed then
    { a with owed, status := .cutOff, timer := none }
  else { a with owed }

/-- What a divisor resolution under `d` makes of the orders, the accounts and METER_SATURATED; `t` is the state after. Every
order keeps the remainder of its grains and gains the quotient, clamped with SATURATED set; every account of an order gains
the quotients of its orders, clamped; METER_SATURATED is raised when a total was clamped, and no other account changes. The
accounts spoken of owe no more than a total can hold, and their ceiling at least in WATCH and CUT_OFF, as every evaluation
leaves them (R156, R183, R186). -/
def State.Resolved (s : State) (d : Nat) (t : State) : Prop :=
  (∀ id o, s.book.order id = some o → t.book.order id = some { o with
    accumulator := o.accumulator % d, units := min (o.units + o.accumulator / d) 16777215
    saturated := o.saturated || decide (16777215 < o.units + o.accumulator / d) }) ∧
  (∀ id, (∀ o ∈ s.book.orders, o.account ≠ id) → t.book.account id = s.book.account id) ∧
  (∀ o a, o ∈ s.book.orders → s.book.account o.account = some a → a.owed ≤ 16777215 →
    (a.status = .watch ∨ a.status = .cutOff → a.ceiling ≤ a.owed) →
    t.book.account o.account = some (a.afterResolution t.meter.settings.cutOff s.now
      (min (a.owed + s.book.resolvedUnits d o.account) 16777215))) ∧
  (∀ src clamped, s.sales.notices.sources[Notice.meterSaturated.number]? = some src →
    (clamped = true ↔ ∃ o ∈ s.book.orders, 16777215 < o.units + o.accumulator / d ∨
      ∃ a ∈ s.book.account o.account, 16777215 < a.owed + s.book.resolvedUnits d o.account) →
    t.sales.notices.sources[Notice.meterSaturated.number]? = some { src with latched := src.latched || clamped })

/-- A divisor resolution ends no delivery: it has none of its orders WAITING or RUNNING, or every account is ACTIVE or in
WATCH and the cut-off delay is not 0, so that none becomes CUT_OFF (R119, R157, R186). -/
def State.ResolvesInPeace (s : State) (cutOff : Nat) : Prop :=
  (∀ o ∈ s.book.orders, ∀ h ∈ s.table.ofOrder o.id, ∀ d, s.table.find h = some d → d.state ≠ .waiting ∧ d.state ≠ .running) ∨
  (cutOff ≠ 0 ∧ ∀ a ∈ s.book.accounts, a.status = .active ∨ a.status = .watch)

/-- A desk view, or a fulfilment delivery whose order, item and account are there and whose posting of `n` tiles raises no
notice of the account (R115, R156). -/
def State.ChargesQuietly (s : State) (d : Delivery) (n : Nat) : Prop :=
  d.order = none ∨ ∃ o i f ord it a b, d.order = some (o, i) ∧ d.figures = some f ∧ s.book.order o = some ord ∧
    ord.item i = some it ∧ s.book.account ord.account = some a ∧ a.AfterPosting (min (a.owed +
      ord.quotient s.meter.settings.divisor (f.charge o i d.handle n).reckon.net) 16777215) b

/-- What the end of a delivery in the state `final` with `n` tiles sent makes of orders, accounts and the meter; `t` is the
state after. A desk view changes none of them. A fulfilment delivery posts its tiles with the figures it captured; its item
is DELIVERED when it is DONE or a repeat and READY otherwise; its order counts a delivery less, and a CLOSING order left
with none is CLOSED with ORDER_CLOSED pending (R115, R166). -/
def State.SaleEnded (s : State) (d : Delivery) (final : DeliveryState) (n : Nat) (t : State) : Prop :=
  (d.order = none → t.book = s.book ∧ t.meter = s.meter) ∧
  (∀ o i f ord it a, d.order = some (o, i) → d.figures = some f → s.book.order o = some ord → ord.item i = some it →
    s.book.account ord.account = some a →
    ∀ (k : Charge) (q : Nat), k = f.charge o i d.handle n → q = ord.quotient s.meter.settings.divisor k.reckon.net →
    t.book.item o i = some { it with state := if final = .done ∨ f.repeated = true then .delivered else .ready } ∧
    (∃ its, t.book.order o = some { ord with
      accumulator := (ord.accumulator + k.reckon.net) % s.meter.settings.divisor, units := min (ord.units + q) 16777215
      saturated := ord.saturated || decide (16777215 < ord.units + q), inFlight := ord.inFlight - 1, items := its
      state := if ord.state = .closing ∧ ord.inFlight ≤ 1 then .closed else ord.state }) ∧
    (∀ other, other ≠ o → t.book.order other = s.book.order other) ∧
    (∀ b, a.AfterPosting (min (a.owed + q) 16777215) b → t.book.account ord.account = some b) ∧
    t.meter.log.getLast? = some (k.entry k.reckon q (decide (16777215 < ord.units + q)) (decide (16777215 < a.owed + q))) ∧
    (ord.state = .closing → ord.inFlight ≤ 1 → ∀ src, s.sales.notices.sources[3]? = some src →
      (t.sales.notices.sources[3]?).map (·.latched) = some true))

/-- What R75 makes of a damaged read of a slot: the count and the last record, and, when the slot lies in an extent that has
an owner, the tile offered to the owner's list, with TILE_DAMAGED raised when the list changes. `t` is the state after. -/
def State.DamageRecorded (s : State) (slot : Nat) (reader : ReaderKind) (t : State) : Prop :=
  t.store.damagedReads = min (s.store.damagedReads + 1) 65535 ∧
  (∀ e, s.alloc.holding slot = some e → e.owned = true →
    t.store.lastDamage = some { slot, reader, owner := some (e.owner, slot - e.first) } ∧
    t.cat = s.cat.addDamage e.owner (slot - e.first) ∧
    t.production = (if t.cat.damageOf e.owner = s.cat.damageOf e.owner then s else s.raise .tileDamaged).production) ∧
  ((∀ e, s.alloc.holding slot = some e → e.owned = false) →
    t.store.lastDamage = some { slot, reader, owner := none } ∧ t.cat = s.cat ∧ t.production = s.production)

/-- A damaged read of a slot finds the damage list `d` of the revision `r` full and without the tile, so that the tile is not
kept and DAMAGE_OVERFLOW is set (R9, R75). -/
def State.Overflows (s : State) (slot : Nat) (r : RevName) (d : DamageList) : Prop :=
  8 ≤ d.entries.length ∧ ∃ e rendition, s.alloc.holding slot = some e ∧ e.owned = true ∧
    (e.owner = .raw r ∧ rendition = .raw ∨ e.owner = .restored r ∧ rendition = .restored) ∧
    ⟨slot - e.first, rendition⟩ ∉ d.entries

/-- A read of the restoration port is over, with the memory `mem` in which its slot holds the tile `x`; `u` is the state
before the engine uses the tile. Nothing is in flight, and a damaged read is recorded (R69, R75). -/
def State.RawReadEnds (s : State) (slot : Nat) (mem : List Host.Cell) (x : Tile) (u : State) : Prop :=
  u = { s with store := u.store, cat := u.cat, production := u.production } ∧
  u.store = { s.store with inFlight := none, mem, damagedReads := u.store.damagedReads, lastDamage := u.store.lastDamage } ∧
  (checkBytes x.bytes = x.check → u = { s with store := { s.store with inFlight := none, mem } }) ∧
  (checkBytes x.bytes ≠ x.check → s.DamageRecorded slot .restoration u ∧
    ∀ r v, s.cat.revision r = some v → s.Overflows slot r v.damage →
      u.cat.revision r = some { v with damage := { v.damage with overflow := true } })

/-! ## Names and extents -/

/-- The free runs when the LIVE ones among the extents `ns` have returned their slots in this order; a MOVING one keeps its
slots until its move ends (R53, R54). -/
def Allocator.runsWithout (a : Allocator) (ns : List Nat) : List FreeRun :=
  ns.foldl (fun runs n => match a.find n with
    | some x => if x.state = .live then giveSlots x.first x.size runs else runs
    | none => runs) a.runs

/-- Every delivery in the work queue waits for the move of its extent (R87). -/
def State.QueueMoves (s : State) : Prop :=
  ∀ h ∈ s.mover.queue, ∃ d x, s.table.find h = some d ∧ s.alloc.find d.extent = some x ∧ x.state = .moving

/-- No two records of the catalogue have one name (R1, R4, R6, R10). -/
def Catalogue.distinct (c : Catalogue) : Prop :=
  (c.editions.map (·.id)).Nodup ∧ (c.photos.map (·.id)).Nodup ∧
    ∀ e ∈ c.editions, (e.pages.map (·.number)).Nodup ∧ ∀ p ∈ e.pages, (p.revs.map (·.number)).Nodup

/-- The extent `e`, whose record is `n`, has been returned: its slots joined the free runs, its record is free, and no other
record changed (R54). -/
def Allocator.Returned (a : Allocator) (n : Nat) (e : Extent) (b : Allocator) : Prop :=
  b = { a with runs := giveSlots e.first e.size a.runs, extents := b.extents } ∧ b.find n = none ∧
    ∀ m, m ≠ n → b.find m = a.find m

/-- The record `n` alone changed, to `e` (R53, R61). -/
def Allocator.Rewritten (a : Allocator) (n : Nat) (e : Extent) (b : Allocator) : Prop :=
  b = { a with extents := b.extents } ∧ b.find n = some e ∧ ∀ m, m ≠ n → b.find m = a.find m

/-- A reader's end on the extent `e` lowers its count and does nothing else: another reader is left, or the extent stays
with its owner and no retirement waits for it, or its release waits for the end of its move (R55). -/
def State.OnlyCounts (s : State) (e : Extent) : Prop :=
  2 ≤ e.readers ∨ e.readers = 1 ∧ (e.state = .moving ∧ e.releasePending = true ∨
    e.owned = true ∧ ∀ ed x, e.owner.edition = some ed → s.cat.edition ed = some x → x.state ≠ .retiring)

/-- What a publish of the job `j` makes of its revision `v` and of the extents; `n` is the scratch extent's record, `x` the
scratch extent, and `t` the state after. The revision has the new rendition and keeps its RAW damage entries alone; the
scratch extent is LIVE; the rendition before it is released; the raw extent has a reader less; no other record changes (R53,
R141). -/
def State.Published (s : State) (j : Job) (v : Revision) (n : Nat) (x : Extent) (tone : Tone) (t : State) : Prop :=
  t.cat.revision j.revision = some { v with
    restored := some { extent := n, source := j.source, tone, lowRange := j.lowRange, defects := j.defects
                       defectsOverflow := j.defectsOverflow, changed := j.changed, blanked := j.blanked }
    damage := { v.damage with entries := v.damage.entries.filter (fun d => d.rendition = .raw) } } ∧
  (∀ r, r ≠ j.revision → t.cat.revision r = s.cat.revision r) ∧ t.cat.photos = s.cat.photos ∧
  ((∀ old, v.restored = some old → old.extent ≠ n) → t.alloc.find n = some { x with state := .live } ∧
    ∀ e, s.alloc.find v.raw = some e → s.OnlyCounts e → (∀ old, v.restored = some old → old.extent ≠ v.raw) →
      t.alloc.find v.raw = some { e with readers := e.readers - 1 } ∧
      (v.restored = none → t.alloc.runs = s.alloc.runs) ∧
      (∀ old y, v.restored = some old → s.alloc.find old.extent = some y →
        (y.state = .live → y.readers = 0 →
          t.alloc.find old.extent = none ∧ t.alloc.runs = giveSlots y.first y.size s.alloc.runs) ∧
        (y.state = .live → y.readers ≠ 0 →
          t.alloc.find old.extent = some { y with state := .releasing } ∧ t.alloc.runs = s.alloc.runs) ∧
        (y.state = .moving →
          t.alloc.find old.extent = some { y with releasePending := true } ∧ t.alloc.runs = s.alloc.runs)) ∧
      ∀ m, m ≠ n → m ≠ v.raw → (∀ old, v.restored = some old → m ≠ old.extent) → t.alloc.find m = s.alloc.find m)

/-- A new job of the revision `name` has started at once on an empty queue; `first` is the slot of its scratch extent, `e` the
raw extent, and `t` the state after: settings and profile captured, the scratch extent BUILDING, a reader on the raw extent,
and its first tile asked for (R130, R132). -/
def State.JobStarted (s : State) (id : Nat) (name : RevName) (source : ToneSource) (desk : Bool)
    (requesters : List (Nat × Nat)) (v : Revision) (first : Nat) (e : Extent) (t : State) : Prop :=
  t.engine = { s.engine with
    queue := [{ id, revision := name, source, desk, requesters, state := .surveying
                settings := s.engine.settings
                profileTone := (match source with
                  | .auto => none
                  | .profile n => some (s.engine.profiles.getD n Profile.identity).tone)
                voidCounter := s.engine.settings.voidLimit, scratch := some s.alloc.freshNumber }]
    lastId := id } ∧
  t.alloc.runs = takeSlots first (v.width * v.height) s.alloc.runs ∧
  t.alloc.find s.alloc.freshNumber = some ⟨s.alloc.freshNumber, first, v.width * v.height, .restored name, .building, 0, false⟩ ∧
  t.alloc.find v.raw = some { e with readers := e.readers + 1 } ∧
  t.store.waiting = s.store.waiting ++ [⟨.restoration, e.first, .read⟩] ∧ t.store.mem = s.store.mem

/-- The item `it` has joined the order `o`, whose id is `order`, and no other item and no other order changed (R163). -/
def OrderBook.ItemAdded (b : OrderBook) (order : Nat) (o : Order) (it : Item) (c : OrderBook) : Prop :=
  c = { b with orders := c.orders } ∧ c.item order it.number = some it ∧
  (∀ m, m ≠ it.number → c.item order m = b.item order m) ∧ (∀ other, other ≠ order → c.order other = b.order other) ∧
  ∃ its, c.order order = some { o with items := its }

/-- The item `n` of the order `order` leaves the job it waits on; `u` is the state after. The job goes on for the desk or for
other items. A job left alone is cancelled: gone when it is QUEUED, marked when it is active with a transfer in flight, and
ended at once without one (R126, R131). -/
def State.LeavesJob (s : State) (order n : Nat) (u : State) : Prop :=
  (s.engine.queue.map (·.id)).Nodup ∧ ∃ j, s.engine.queue.find? (fun j => j.requesters.contains (order, n)) = some j ∧
    ((j.desk = true ∨ ∃ q ∈ j.requesters, q ≠ (order, n)) ∧ u = { s with engine := { s.engine with
        queue := s.engine.queue.map fun k =>
          if k.id = j.id then { k with requesters := k.requesters.filter fun q => q ≠ (order, n) } else k } } ∨
      j.desk = false ∧ j.requesters = [(order, n)] ∧
        (j.state = .queued ∧ j.scratch = none ∧
            u = { s with engine := { s.engine with queue := s.engine.queue.filter fun k => k.id ≠ j.id } } ∨
          (j.state = .surveying ∨ j.state = .correcting) ∧
            ((∃ y, s.store.inFlight = some y ∧ y.client = .restoration) ∧ u = { s with engine := { s.engine with
                queue := s.engine.queue.map fun k => if k.id = j.id then { k with
                  requesters := [], cancel := if k.cancel = some .retired then some .retired else some .noRequester } else k } } ∨
              (∀ y, s.store.inFlight = some y → y.client ≠ .restoration) ∧ ∃ c : CancelCause,
                c = (if j.cancel = some .retired then .retired else .noRequester) ∧
                u = (({ s with store := s.store.withdraw .restoration } : State).endJob .cancelled c.toEnd none
                  { j with requesters := [], cancel := some c }).startNext)))

/-- A controller with one source written. -/
def Controller.withSource (c : Controller) (n : Nat) (src : Source) : Controller := { c with sources := c.sources.set n src }

/-! ## Bounds that every run keeps -/

/-- A link holds at most 4 requests and 2 replies, and its controller has its own sources (R189, R192, R197). -/
def Link.sound (l : LinkId) (k : Link) : Prop :=
  k.queue.length ≤ queuePlaces ∧ k.replies.length ≤ replyPlaces ∧ k.notices.sources.length = sourceCount l

/-- One transfer is granted at a time, withdrawn or not (R69, R70). -/
abbrev Store.single (st : Store) : Prop := st.inFlight = none ∨ st.withdrawn = none

/-- The bounds the rules give to tables and counts, one transfer at a time, and the canonical form of the slot memory (R33,
R66, R70, R71, R107, R122, R128, R145, R172, R176, R184, R189, R192, R197). -/
def State.sound (s : State) : Prop :=
  Memory.wf s.store.mem ∧ (s.store.debt ≤ 8 ∧ s.store.single) ∧
    s.port.ended.length ≤ 8 ∧ s.table.records.length ≤ deliveryPlaces ∧
    s.engine.queue.length ≤ 16 ∧ s.engine.ended.length ≤ 8 ∧ s.engine.profiles.length = 32 ∧
    s.meter.tariffs.length = 16 ∧ s.meter.log.length ≤ 8 ∧ 1 ≤ s.meter.settings.divisor ∧
    Link.sound .production s.production ∧ Link.sound .desk s.desk ∧ Link.sound .sales s.sales

/-! ## Free runs -/

/-- Free runs as R50 keeps them: ascending, none empty, no two adjacent, all below the slot count. -/
def runsSound (slotCount : Nat) (runs : List FreeRun) : Prop :=
  runs.Pairwise (fun a b => a.first + a.size < b.first) ∧ ∀ r ∈ runs, r.size ≠ 0 ∧ r.first + r.size ≤ slotCount

/-- A slot lies in a free run. -/
def slotFree (runs : List FreeRun) (slot : Nat) : Prop := ∃ r ∈ runs, r.first ≤ slot ∧ slot < r.first + r.size

end Sys2Proof.Machine
end

