-- ==== Sys2Proof/Certificates/Slice0/Obligations.lean ====
section
/-! DEFINITION. The statements about the model, for the provers. Each docstring names the rules it rests on. -/

open Sys2Proof Sys2Proof.Machine

/-! ## Steps and runs -/

/-- A step carries out the command at the front of the queue on the state with the queue's rest; with an empty queue only the
clock moves (log 3). -/
def Obligations.StepRunsFrontCommand : Prop :=
  ∀ (c : Instr) (s : State),
    step { s with pending := c :: s.pending } = exec c s ∧
    step { s with pending := [] } = .next { s with pending := [], now := max s.now (s.now + 1) }

/-- No command changes the command queue, and only POWER_UP, RESET_ASSERT, RESET_RELEASE and POWER_LOSS change the power,
STANDBY_OK as sampled, the store header, the slot count, the SIZE strap as read or the kind of the last start (R66, R67). -/
def Obligations.OnlyPowerCommandsChangePower : Prop :=
  ∀ (i : Instr) (s t : State), s.sound → exec i s = .next t →
    t.pending = s.pending ∧
    ((∀ a b c d, i ≠ .powerUp a b c d) → i ≠ .resetAssert → (∀ a b, i ≠ .resetRelease a b) → (∀ a, i ≠ .powerLoss a) →
      t.power = s.power ∧ t.standbyOk = s.standbyOk ∧ t.store.header = s.store.header ∧
      t.store.slotCount = s.store.slotCount ∧ t.store.sizeHigh = s.store.sizeHigh ∧
      t.store.lastStart = s.store.lastStart)

/-- The state after reset keeps the bounds of State.sound. -/
def Obligations.BoundsAtReset : Prop := State.reset.sound

/-- Every step keeps the bounds of State.sound: the canonical form of the slot memory, the refresh debt of 8, one transfer
granted at a time, the capacities of the ended lists, the delivery table, the job queue, the posting log, the request queues
and the reply places, the 32 profiles, the 16 classes, the sources of the controllers, and a fee divisor that is not 0. -/
def Obligations.BoundsKept : Prop := ∀ s t : State, s.sound → step s = .next t → t.sound

/-- No command is refused by the model, and the only fault is one of the seven completions, of the granted transfer, withdrawn
or not, on a slot that does not exist (log 26). -/
def Obligations.OnlyAbsentSlotsFault : Prop :=
  ∀ (i : Instr) (s : State),
    (∀ r, exec i s ≠ .refused r) ∧
    (∀ f, exec i s = .fault f → f = .noSuchSlot ∧ (∃ x, (s.store.inFlight = some x ∨ s.store.withdrawn = some x) ∧ s.store.slotCount ≤ x.slot) ∧
      (i = .tileWriteComplete ∨ i = .copyWriteComplete ∨ i = .correctionWriteComplete ∨
        ∃ upset, i = .deliveryReadComplete upset ∨ i = .copyReadComplete upset ∨ i = .surveyReadComplete upset ∨
          i = .correctionReadComplete upset))

/-! ## Frames and fields (chapter 11) -/

/-- Request fields and parameter words agree both ways: the fields that a master writes are read back, and words that read as
fields are the words those fields are written in, so words too many, too few, or a presence bit above the last field read as
nothing (R205). -/
def Obligations.RequestFieldsReadBack : Prop :=
  (∀ (layout : List Layout) (fs : Fields), fieldsFit layout fs = true →
    readFields layout (writeFields layout fs) = some fs) ∧
  (∀ (layout : List Layout) (ps : List Word) (fs : Fields), ps ≠ [] → layout.length ≤ 16 →
    readFields layout ps = some fs → writeFields layout fs = ps)

/-- A REQUEST frame of at most 60 parameters is taken for the request it was made from on every link, and a TILE frame of
4,096 pixels for its handle, index, pixels and check word on the production link (R188, R204, R206). -/
def Obligations.FramesReadBack : Prop :=
  (∀ (l : LinkId) (r : Request), r.params.length ≤ 60 → sortFrame l r.words = .request r) ∧
  (∀ (handle index : Nat) (t : Tile), handle < 65536 → index < 65536 → t.bytes.length = 4096 →
    sortFrame .production (tileFrameWords handle index t) = .tile handle index t)

/-! ## Links (chapter 10) -/

/-- A frame arrives at a receiver that holds nothing. A REQUEST frame joins the tail of its link's queue or is held while the
queue holds 4 frames; this changes nothing but that link, and READY is high exactly while the queue holds fewer than 4. With
the code of LINK_RESET it is acted on at once, with a TILE frame held too (log 22); when its parameter words do not read as
those of a request without fields, as no words at all do and one presence word of 0 does (log 14), it is answered BAD_VALUE
and nothing is reset (R205, log 36). A frame that is refused is answered by one reply in a free place, and is held for a
place when none is free; no block changes. The refusals: a TILE frame on another link WRONG_LINK, a TILE frame of another
length BAD_VALUE, both with tag 0 and the handle and index that the frame holds; another kind BAD_VALUE with tag 0; a REQUEST
with a count above 60 or too few words BAD_VALUE with the frame's tag, whatever the queue holds (log 49), as a TILE frame of
another length is whatever the tile buffer holds (log 52) (R188, R189). -/
def Obligations.FramesArrive : Prop :=
  (∀ (l : LinkId) (ws : List Word) (r : Request) (s : State), s.power = .running → sortFrame l ws = .request r →
      (r.code.toNat = 0x7F → ((s.link l).held = none ∨ ∃ h i x, (s.link l).held = some (.tile h i x)) →
        (r.params = [] ∨ r.params = [0] → exec (.requestFrameArrives l ws) s = .next (s.linkReset l r.tag)) ∧
        (r.params ≠ [] → r.params ≠ [0] → (s.link l).replies.length < 2 → exec (.requestFrameArrives l ws) s =
          .next ((s.setLink l { s.link l with replies := (s.link l).replies ++
            [{ tag := r.tag, answer := { result := .badValue } }] }).transmit l)) ∧
        (r.params ≠ [] → r.params ≠ [0] → 2 ≤ (s.link l).replies.length → (s.link l).held = none →
          exec (.requestFrameArrives l ws) s = .next (s.setLink l { s.link l with
            held := some (.refusal { tag := r.tag, answer := { result := .badValue } }) }))) ∧
      (r.code.toNat ≠ 0x7F → (s.link l).held = none → ∃ t : State, exec (.requestFrameArrives l ws) s = .next t ∧
        t = s.setLink l (t.link l) ∧
        ((s.link l).queue.length < 4 → t.link l = { s.link l with queue := (s.link l).queue ++ [r] }) ∧
        (4 ≤ (s.link l).queue.length → t.link l = { s.link l with held := some (.request r) }) ∧
        (t.ready l = true ↔ (t.link l).queue.length < 4))) ∧
  (∀ (l : LinkId) (ws : List Word) (r : Reply) (s : State), s.power = .running → sortFrame l ws = .refused r →
    (s.link l).held = none →
    ((s.link l).replies.length < 2 → exec (.frameRefused l ws) s =
      .next ((s.setLink l { s.link l with replies := (s.link l).replies ++ [r] }).transmit l)) ∧
    (2 ≤ (s.link l).replies.length → exec (.frameRefused l ws) s =
      .next (s.setLink l { s.link l with held := some (.refusal r) }))) ∧
  (∀ (l : LinkId) (h i : Word) (ws : List Word), l ≠ .production →
    sortFrame l (BitVec.ofNat 16 0x9C03 :: h :: i :: ws) =
      .refused { tag := 0, answer := { result := .wrongLink, fields := [.one h.toNat, .one i.toNat] } }) ∧
  (∀ (h i : Word) (ws : List Word), ws.length ≠ 2049 →
    sortFrame .production (BitVec.ofNat 16 0x9C03 :: h :: i :: ws) =
      .refused { tag := 0, answer := { result := .badValue, fields := [.one h.toNat, .one i.toNat] } }) ∧
  (∀ (l : LinkId) (kind : Word) (ws : List Word), kind.toNat ≠ 0x9C01 → kind.toNat ≠ 0x9C03 →
    sortFrame l (kind :: ws) = .refused { tag := 0, answer := { result := .badValue } }) ∧
  (∀ (l : LinkId) (head code : Word) (ws : List Word), 60 < head.toNat % 256 ∨ ws.length < head.toNat % 256 →
    sortFrame l (BitVec.ofNat 16 0x9C01 :: head :: code :: ws) =
      .refused { tag := BitVec.ofNat 8 (head.toNat / 256), answer := { result := .badValue } })

/-- LINK_RESET on a link whose receiver holds nothing: its queue is empty, its OK reply is the first and is being sent, its
controller is in the start state; the other links keep their queues and replies; on the production link every deposit slot is
FREE, the ended list empty and no compaction WAITING; on the desk link no delivery record and no ended job is left and no job
has a desk flag; on the sales link only the link changes before a held tile frame and the choices at the end of the step. A
tile frame held at the production link's own receiver is answered NO_DEPOSIT after the OK (R195, R196, log 22). -/
def Obligations.LinkResetStartsAfresh : Prop :=
  (∀ (tag : Byte) (h i : Nat) (x : Tile) (s : State), s.power = .running →
    s.production.held = some (.tile h i x) → ∃ t : State, exec (.linkReset .production tag) s = .next t ∧
      t.production.held = none ∧ t.production.queue = [] ∧ t.production.sending = some .reply ∧
      t.production.replies = [{ tag, answer := { result := .ok } },
        { tag := 0, answer := { result := .noDeposit, fields := [.one h, .one i] } }]) ∧
  ∀ (l : LinkId) (tag : Byte) (s : State), s.power = .running → (s.link l).held = none →
    ∃ t : State, exec (.linkReset l tag) s = .next t ∧
      (t.link l).queue = [] ∧ (t.link l).replies = [{ tag, answer := { result := .ok } }] ∧
      (t.link l).sending = some .reply ∧ (t.link l).notices = Controller.start (sourceCount l) ∧
      (∀ m, m ≠ l → (t.link m).queue = (s.link m).queue ∧ (s.link m).replies <+: (t.link m).replies) ∧
      (l = .production → t.port.slots = ⟨none, none, none, none⟩ ∧ t.port.buffer = none ∧ t.port.ended = [] ∧
        t.port.timeout = s.port.timeout ∧ t.alloc.lowWater = s.alloc.lowWater ∧
        t.alloc.compaction.state ≠ .waiting ∧ (t.alloc.compaction.state = .copying → t.alloc.compaction.stop = true)) ∧
      (l = .desk → t.table.records = [] ∧ t.table.period = s.table.period ∧ t.table.depth = s.table.depth ∧
        t.engine.ended = [] ∧ (∀ j ∈ t.engine.queue, j.desk = false) ∧ t.engine.profiles = s.engine.profiles ∧
        t.engine.settings = s.engine.settings) ∧
      (l = .sales → t = ({ s with sales := { queue := [], held := none, replies := [{ tag, answer := { result := .ok } }]
                                             sending := none, notices := Controller.start 7 } } : State).passHeldTile.settle)

/-- A frame has been sent. A reply's place frees. It goes to a refusal held at the receiver, or on the production link, with
the tile buffer empty, to the TILE frame held there, which is passed as one that arrives then; a held REQUEST stays; nothing
else changes before the choices at the end of the step. A TILE or DAMAGED frame of a RUNNING delivery with more of the walk to
come frees its place, the terminal count falls by 1, the tiles-sent count rises for a TILE frame and the damaged count for a
DAMAGED frame; a FILL frame raises the fill count and takes no tile. Then the next tile of the walk is read into a FREE place
and the pacing offers what it may. No other record, no extent, no order, no account and no notice changes. Then each
transmitter that sends nothing takes its next frame: the older reply, whose words it sends; else on the desk link the frame
offered by the first channel after the one last served, which is SENDING, and the pointer names that channel; a transmitter
with nothing to take, or that sends, is left alone; that it takes a frame at the end of a step is log 9 (R91, R92, R107, R112,
R188, R189, R192, R193, R194). -/
def Obligations.FrameSent : Prop :=
  (∀ (l : LinkId) (s s₁ : State), s.power = .running → (s.link l).sending = some .reply →
    s₁ = s.setLink l { s.link l with replies := (s.link l).replies.tail, sending := none } →
    ((∀ r, (s.link l).held ≠ some (.refusal r)) →
      (∀ h i x, l = .production → s.production.held = some (.tile h i x) →
        s.port.buffer ≠ none ∨ 2 ≤ s.production.replies.tail.length) →
      exec (.frameSent l) s = .next s₁.settle ∧
      ((s₁.settle.link l).sending = some .reply ↔ (s.link l).replies.tail ≠ [])) ∧
    (∀ r, (s.link l).held = some (.refusal r) → (s.link l).replies.tail.length < 2 →
      exec (.frameSent l) s = .next (s.setLink l { s.link l with
        replies := (s.link l).replies.tail ++ [r], sending := none, held := none }).settle) ∧
    (∀ h i x ws, l = .production → s.production.held = some (.tile h i x) → sortFrame .production ws = .tile h i x →
      s.port.buffer = none → s.production.replies.tail.length < 2 →
      exec (.frameSent .production) s = exec (.tileFrame ws) { s₁ with production := { s₁.production with held := none } })) ∧
  (∀ (h i : Nat) (x : Tile) (ws : List Word) (s : State), s.power = .running → s.production.held = some (.tile h i x) →
    sortFrame .production ws = .tile h i x →
    (s.port.buffer = none → s.production.replies.length < 2 →
      exec (.tileFrame ws) { s with production := { s.production with held := none } } = .next s.passHeldTile.settle) ∧
    (s.port.buffer ≠ none ∨ 2 ≤ s.production.replies.length → s.passHeldTile = s)) ∧
  (∀ s : State,
    s.settle = ((({ s with store := s.store.settle s.now } : State).transmit .production).transmit .desk).transmit .sales ∧
    (∀ l, ((s.link l).sending ≠ none → s.transmit l = s) ∧
      ((s.link l).sending = none → (s.link l).replies ≠ [] →
        s.transmit l = s.setLink l { s.link l with sending := some .reply }) ∧
      ((s.link l).sending = none → (s.link l).replies = [] → l ≠ .desk → s.transmit l = s) ∧
      ((s.link l).sending = some .reply → s.outgoing l = (s.link l).replies.head?.map Reply.words)) ∧
    (s.desk.sending = none → s.desk.replies = [] → (∀ c, (s.channel c).offers = false) → s.transmit .desk = s) ∧
    (∀ c : Fin 4, s.desk.sending = none → s.desk.replies = [] → (s.channel c).offers = true →
      (∀ e : Fin 4, (e - s.deskTurn - 1).val < (c - s.deskTurn - 1).val → (s.channel e).offers = false) →
      ∃ t : State, s.transmit .desk = t ∧ (∀ e, e ≠ c → t.channel e = s.channel e) ∧
        t = { s with mover := { s.mover with channels := t.mover.channels }, deskTurn := c
                     desk := { s.desk with sending := some (.channel c) } } ∧
        (∀ (p : Place) (rest : List Place), (s.channel c).buffer = p :: rest → p.state = .offered →
          t.channel c = { s.channel c with buffer := { p with state := .sending } :: rest, periodFrame := none }) ∧
        (∀ (f : PeriodFrame) (n : Nat), (∀ p, (s.channel c).buffer.head? = some p → p.state ≠ .offered) →
          (s.channel c).periodFrame = some f → f.fill = some n →
          t.channel c = { s.channel c with sendingFill := some n, periodFrame := none })) ∧
    (∀ c, (s.channel c).offers = true ↔ (∃ p, (s.channel c).buffer.head? = some p ∧ p.state = .offered) ∨
      ∃ f n, (s.channel c).periodFrame = some f ∧ f.offered = true ∧ f.fill = some n)) ∧
  (∀ (c : Fin 4) (s : State) (d : Delivery) (e : Extent), s.power = .running →
    s.desk.sending = some (.channel c) → (s.channel c).work = some (.delivery d.handle) →
    s.table.find d.handle = some d → (s.channel c).state = .running → s.alloc.find d.extent = some e →
    (∀ (p : Place) (rest : List Place), (s.channel c).sendingFill = none → (s.channel c).buffer = p :: rest →
      p.state = .sending → 2 ≤ (s.channel c).terminal →
      ∃ t : State, exec (.frameSent .desk) s = .next t.settle ∧
        (t.channel c).terminal = (s.channel c).terminal - 1 ∧ s.ReadsOn c d e rest t ∧
        t.table.find d.handle =
          some (if p.damaged then { d with damaged := d.damaged + 1 } else { d with sent := d.sent + 1 }) ∧
        (∀ h, h ≠ d.handle → t.table.find h = s.table.find h) ∧ (∀ e, e ≠ c → t.channel e = s.channel e) ∧
        t.store.mem = s.store.mem ∧
        t = { s with store := t.store, mover := t.mover, table := t.table, desk := { s.desk with sending := none } }) ∧
    (∀ n, (s.channel c).sendingFill = some n → 1 ≤ (s.channel c).terminal →
      ∃ t : State, exec (.frameSent .desk) s = .next t.settle ∧
        (t.channel c).terminal = (s.channel c).terminal ∧ (t.channel c).sendingFill = none ∧
        s.ReadsOn c d e (s.channel c).buffer t ∧
        t.table.find d.handle = some { d with fills := min (d.fills + 1) 65535 } ∧
        (∀ h, h ≠ d.handle → t.table.find h = s.table.find h) ∧ (∀ e, e ≠ c → t.channel e = s.channel e) ∧
        t.store.mem = s.store.mem ∧
        t = { s with store := t.store, mover := t.mover, table := t.table, desk := { s.desk with sending := none } }))

/-- A frame that ends its delivery has been sent, the last TILE or DAMAGED frame of the walk or any frame of a STOPPING
delivery, a FILL frame among them: the record is DONE, STOPPED or FAILED with its end cause and its frame counted, its
channel is IDLE or handed to other work, its extent has a reader less, and DELIVERY_DONE or DELIVERY_STOPPED is pending. A
desk view changes no order and no account. A fulfilment delivery whose account stays in its status or falls out of WATCH
posts its tiles sent with the figures it captured; its item is DELIVERED when it is DONE or a repeat and READY otherwise; its
order counts a delivery less, and a CLOSING order left with none is CLOSED with ORDER_CLOSED pending (R92, R94, R96, R112,
R113, R115, R156, R166, R183). -/
def Obligations.LastFrameSent : Prop :=
  ∀ (c : Fin 4) (s : State) (d counted : Delivery) (left : Nat) (e : Extent) (final : DeliveryState) (cause : EndCause),
    s.power = .running → s.desk.sending = some (.channel c) → (s.channel c).work = some (.delivery d.handle) →
    s.table.find d.handle = some d → (s.channel c).Sends d counted left → (s.channel c).Ends d left final cause →
    d.handle ∉ s.mover.queue → s.alloc.find d.extent = some e → s.OnlyCounts e →
    s.desk.notices.sources.length = 4 → s.ChargesQuietly d counted.sent →
    ∃ t : State, exec (.frameSent .desk) s = .next t.settle ∧
      t.table.find d.handle = some { counted with state := final, channel := none, cause := some cause } ∧
      (t.alloc.find d.extent).map (·.readers) = some (e.readers - 1) ∧
      t.pendingMark .desk (if final = .done then 0 else 1) (t.desk.notices.sources.getD (if final = .done then 0 else 1) {}) = true ∧
      (t.channel c).work ≠ some (.delivery d.handle) ∧ t.store.mem = s.store.mem ∧ t.port = s.port ∧ t.cat = s.cat ∧
      s.SaleEnded d final counted.sent t

/-! ## Notices (chapter 10) -/

/-- ATTN is high exactly when the link has a pending, unmasked source whose priority is below both the floor and the priority
of every source in service. With the floor 8 and no source in service every priority up to 7 raises it, with the floor 0 it
is low always, and the source that raises it is never one in service (R199). -/
def Obligations.AttnLine : Prop :=
  ∀ (s : State) (l : LinkId),
    (s.attn l = true ↔ ∃ (n : Nat) (src : Source), (s.link l).notices.sources[n]? = some src ∧
      s.pendingMark l n src = true ∧ src.mask = false ∧ src.priority < (s.link l).notices.floor ∧
      ∀ (m : Nat) (other : Source), (s.link l).notices.sources[m]? = some other → other.inService = true →
        src.priority < other.priority) ∧
    ((∀ (m : Nat) (other : Source), (s.link l).notices.sources[m]? = some other → other.inService = false) →
      (s.attn l = true ↔ ∃ (n : Nat) (src : Source), (s.link l).notices.sources[n]? = some src ∧
        s.pendingMark l n src = true ∧ src.mask = false ∧ src.priority < (s.link l).notices.floor)) ∧
    ((s.link l).notices.floor = 8 →
      (∀ (m : Nat) (other : Source), (s.link l).notices.sources[m]? = some other → other.inService = false) →
      ∀ (n : Nat) (src : Source), (s.link l).notices.sources[n]? = some src → s.pendingMark l n src = true →
        src.mask = false → src.priority ≤ 7 → s.attn l = true) ∧
    ((s.link l).notices.floor = 0 → s.attn l = false) ∧
    (∀ (n : Nat) (src : Source), (s.link l).notices.sources[n]? = some src → src.inService = true →
      s.attn l = true → ∃ (m : Nat) (other : Source), m ≠ n ∧ (s.link l).notices.sources[m]? = some other ∧
        s.pendingMark l m other = true ∧ other.mask = false ∧ other.inService = false)

/-- An event sets the pending mark of its EDGE source whatever its mask and in-service mark, coalesces with one already
there, and changes nothing but that mark; SPACE_LOW and TARIFF_UNSET, the LEVEL sources, are pending exactly while their
condition holds and they are not in service (R56, R173, R198). -/
def Obligations.PendingMarks : Prop :=
  (∀ (n : Notice) (s : State) (src : Source), (s.link n.link).notices.sources[n.number]? = some src →
    ((s.raise n).link n.link).notices.sources[n.number]? = some { src with latched := true } ∧
    (s.raise n).pendingMark n.link n.number { src with latched := true } = true ∧
    (s.raise n).raise n = s.raise n ∧
    s.raise n = s.setLink n.link { s.link n.link with notices := (s.link n.link).notices.withSource n.number { src with latched := true } }) ∧
  (∀ (s : State) (src : Source),
    (s.pendingMark .production 6 src = true ↔ (s.alloc.runs.map FreeRun.size).sum < s.alloc.lowWater ∧ src.inService = false) ∧
    (s.pendingMark .sales 6 src = true ↔ (∃ c ∈ s.meter.tariffs, c.set = false) ∧ src.inService = false))

/-- POLL with a candidate: the reply names a source that is pending, unmasked and not in service, of the lowest priority
number and then the lowest source number; it goes into service, its latch clears, and every other source, every priority,
every mask and the floor stay. With no candidate the reply is NOTHING_PENDING and nothing else changes (R200). -/
def Obligations.PollTakesBestSource : Prop :=
  ∀ (l : LinkId) (tag : Byte) (ps : List Word) (fs : Fields) (s s₁ : State),
    Taken l (requestOf tag 0x74 ps) [] fs s s₁ →
    ((∃ (n : Nat) (src : Source), (s.link l).notices.sources[n]? = some src ∧ s.pendingMark l n src = true ∧ src.mask = false ∧
        src.inService = false) →
      ∃ (n : Nat) (src : Source), (s.link l).notices.sources[n]? = some src ∧ s.pendingMark l n src = true ∧ src.mask = false ∧
        src.inService = false ∧
        (∀ (m : Nat) (other : Source), (s.link l).notices.sources[m]? = some other → s.pendingMark l m other = true → other.mask = false →
          other.inService = false → src.priority < other.priority ∨ (src.priority = other.priority ∧ n ≤ m)) ∧
        exec (.poll l tag ps) s =
          .next (((s₁.setLink l { s₁.link l with notices := (s.link l).notices.withSource n { src with inService := true, latched := false } }).reply l tag
              { result := .ok, fields := [.one n] }).transmit l)) ∧
    ((∀ (n : Nat) (src : Source), (s.link l).notices.sources[n]? = some src → s.pendingMark l n src = true → src.mask = false →
        src.inService = true) →
      exec (.poll l tag ps) s = .next ((s₁.reply l tag { result := .nothingPending }).transmit l))

/-- END_NOTICE with a source named ends its service and says whether it was in service; with none named it ends the service
of the source in service of the lowest priority number, then the lowest source number, or answers NOTHING_PENDING. Nothing
but that in-service mark changes (R201). -/
def Obligations.EndNotice : Prop :=
  ∀ (l : LinkId) (tag : Byte) (ps : List Word) (fs : Fields) (s s₁ : State),
    Taken l (requestOf tag 0x76 ps) [.one] fs s s₁ →
    (∀ (n : Nat) (src : Source), fs.nat 0 = some n → n < sourceCount l → (s.link l).notices.sources[n]? = some src →
      exec (.endNotice l tag ps) s =
        .next (((s₁.setLink l { s₁.link l with notices := (s.link l).notices.withSource n { src with inService := false } }).reply l tag
            { result := .ok, fields := [.one n, .one src.inService.toNat] }).transmit l)) ∧
    (fs.nat 0 = none → (∃ (n : Nat) (src : Source), (s.link l).notices.sources[n]? = some src ∧ src.inService = true) →
      ∃ (n : Nat) (src : Source), (s.link l).notices.sources[n]? = some src ∧ src.inService = true ∧
        (∀ (m : Nat) (other : Source), (s.link l).notices.sources[m]? = some other → other.inService = true →
          src.priority < other.priority ∨ (src.priority = other.priority ∧ n ≤ m)) ∧
        exec (.endNotice l tag ps) s =
          .next (((s₁.setLink l { s₁.link l with notices := (s.link l).notices.withSource n { src with inService := false } }).reply l tag
              { result := .ok, fields := [.one n] }).transmit l)) ∧
    (fs.nat 0 = none → (∀ src : Source, src ∈ (s.link l).notices.sources → src.inService = false) →
      exec (.endNotice l tag ps) s = .next ((s₁.reply l tag { result := .nothingPending }).transmit l))

/-- SET_NOTICE with sources of the link, priorities up to 7 and a floor up to 8 writes every value named at once and keeps
the others, the latches and the in-service marks; its reply carries the masks, priorities and floor that were in force,
packed as log 48 says (R202, R205). -/
def Obligations.SetNotice : Prop :=
  ∀ (l : LinkId) (tag : Byte) (ps : List Word) (fs : Fields) (s s₁ : State),
    Taken l (requestOf tag 0x77 ps) [.one, .one, .one, .one, .one, .one, .one, .one, .mask, .one] fs s s₁ →
    (∀ n, n < 8 → sourceCount l ≤ n → fs.nat n = none) → (∀ v ∈ (fs.values 8).getD [], v < 2 ^ sourceCount l) →
    (∀ n p, n < 8 → fs.nat n = some p → p ≤ 7) → (∀ f, fs.nat 9 = some f → f ≤ 8) →
    ∃ t : State, exec (.setNotice l tag ps) s = .next ((t.reply l tag { result := .ok, fields :=
          [.one (markWord ((s.link l).notices.sources.map (·.mask))),
           .many ((s.link l).notices.sources.length :: (s.link l).notices.sources.map (·.priority)),
           .one (s.link l).notices.floor] }).transmit l) ∧
      t = s₁.setLink l { s₁.link l with notices := (t.link l).notices } ∧
      (t.link l).notices.floor = (fs.nat 9).getD (s.link l).notices.floor ∧
      (t.link l).notices.sources.length = (s.link l).notices.sources.length ∧
      (∀ (n : Nat) (src : Source), (s.link l).notices.sources[n]? = some src → ∃ src', (t.link l).notices.sources[n]? = some src' ∧
        src'.priority = (fs.nat n).getD src.priority ∧ src'.latched = src.latched ∧ src'.inService = src.inService ∧
        src'.mask = match fs.values 8 with
          | some [written, value] => if written.testBit n then value.testBit n else src.mask
          | _ => src.mask)

/-! ## Taking requests (chapter 10) -/

/-- A request command whose request is at the head of its link's queue, or arrives at an empty one, waits in the queue while
both reply places hold replies. With a free place it is taken: it leaves the queue, whose freed place a request held at the
receiver takes, its rule acts on the state without it, and its one reply carries its tag. Whatever the answer, in a state
that keeps its bounds the rule leaves every link but for its notices as the taking left it, so one reply joins the replies of
its own link and none another's, and no other command joins or leaves the waiting ones. On a link it does not belong to the
reply is WRONG_LINK, and on its own link it is BAD_VALUE when the parameter words do not read as the fields of the request;
and whenever the reply is neither OK nor ACCEPTED the request has changed nothing. A request with a code that Table 11-4 does
not list (unknownRequestCode) completes on every link with the one reply BAD_VALUE and changes nothing else. That a request
may arrive by its own command is log 1, the choices at the end of the step are log 9, and that no parameter words leave every
field out is log 14 (R189, R190, R191, R192, R205). -/
def Obligations.RequestsAnsweredOnce : Prop :=
  (∀ (i : Instr) (l : LinkId) (r : Request) (k : Link) (s : State),
    requestOfCommand i = some (l, r) → s.power = .running → (s.link l).present r = some k →
    (2 ≤ k.replies.length → exec i s = .next (s.setLink l k)) ∧
    (k.replies.length < 2 → ∃ (t : State) (a : Answer) (finish : State → State), Finish l finish ∧
      exec i s = .next (finish (t.reply l r.tag a)) ∧
      ((homeOfCommand i).allows l = false → a = { result := .wrongLink }) ∧
      ((homeOfCommand i).allows l = true → readFields (layoutOfCommand i) r.params = none → a = { result := .badValue }) ∧
      (s.sound → (t.link l).queue = k.take.queue ∧ (t.link l).held = k.take.held ∧ (t.link l).replies = k.replies ∧
        (∀ m, t.link m = { (s.setLink l k.take).link m with notices := (t.link m).notices }) ∧ t.pending = s.pending) ∧
      (a.result ≠ .ok → a.result ≠ .accepted → t = s.setLink l k.take)) ∧
    (∀ r', k.held = some (.request r') → k.take = { k with queue := k.queue.tail ++ [r'], held := none }) ∧
    ((∀ r', k.held ≠ some (.request r')) → k.take = { k with queue := k.queue.tail })) ∧
  (∀ (l : LinkId) (tag : Byte) (code : Word) (ps : List Word) (k : Link) (s : State),
    code.toNat ∉ requestCodes → s.power = .running → (s.link l).present { tag, code, params := ps } = some k →
    k.replies.length < 2 →
    exec (.unknownRequestCode l tag code ps) s =
      .next (((s.setLink l k.take).reply l tag { result := .badValue }).transmit l))

/-- EDITION_INFO, PAGE_INFO, PHOTO_INFO, STORE_INFO and PEEK, taken on any link, report the record asked for and change
nothing: EXACT the record of the id, NEXT the first of the table above the id; PAGE_INFO the page summary, or the detail of
the revision named; PEEK the source that POLL would take. EDITION_INFO gives the number of extents with a reader and last the
sum of their counts (log 38). STORE_INFO gives first the slot count in force, the SIZE strap as now read, which is the level
of its last move so far or that of the last start where it has not moved since (log 41), and SIZE_MISMATCH when the two
differ. PEEK gives its fields, packed as log 48 says, with NOTHING_PENDING too (log 33); the revision list of a page summary
is packed as log 54 says. The codes of
marks and named values, an owner's five fields, the lowest of several largest free runs and the record number of the extent
that moves are log 15 (R18, R19, R20, R49, R66, R81, R200). -/
def Obligations.CatalogueQueries : Prop :=
  ∀ (l : LinkId) (tag : Byte) (ps : List Word) (fs : Fields) (s s₁ : State),
    (∀ id mode e, Taken l (requestOf tag 0x70 ps) [.one, .one] fs s s₁ → fs.nat 0 = some id → fs.nat 1 = some mode →
      (mode = 0 ∧ s.cat.edition id = some e) ∨
        (mode = 1 ∧ (s.cat.editions.filter fun x => id < x.id).head? = some e) →
      exec (.editionInfo l tag ps) s = .next ((s₁.reply l tag (Answer.ok (s.editionFields e))).transmit l)) ∧
    (∀ ed pg e p, Taken l (requestOf tag 0x71 ps) [.one, .one, .one] fs s s₁ → fs.nat 0 = some ed → fs.nat 1 = some pg →
      s.cat.edition ed = some e → e.page pg = some p →
      (fs.nat 2 = none →
        exec (.pageInfo l tag ps) s = .next ((s₁.reply l tag (Answer.ok p.fields)).transmit l)) ∧
      (∀ n v, fs.nat 2 = some n → p.rev n = some v →
        exec (.pageInfo l tag ps) s = .next ((s₁.reply l tag (Answer.ok (s.revisionFields v))).transmit l))) ∧
    (∀ id mode p, Taken l (requestOf tag 0x72 ps) [.one, .one] fs s s₁ → fs.nat 0 = some id → fs.nat 1 = some mode →
      (mode = 0 ∧ s.cat.photo id = some p) ∨
        (mode = 1 ∧ (s.cat.photos.filter fun x => id < x.id).head? = some p) →
      exec (.photoInfo l tag ps) s = .next ((s₁.reply l tag (Answer.ok (s.photoFields p))).transmit l)) ∧
    (Taken l (requestOf tag 0x73 ps) [] fs s s₁ →
      exec (.storeInfo l tag ps) s = .next ((s₁.reply l tag (Answer.ok s.storeFields)).transmit l)) ∧
    (∀ level, ((∀ m ∈ s.sizeMoves, s.now < m.1) → level = s.store.sizeHigh) →
      (∀ earlier m later, s.sizeMoves = earlier ++ m :: later → m.1 ≤ s.now → (∀ x ∈ later, s.now < x.1) → level = m.2) →
      ∃ rest, s.storeFields = .two s.store.slotCount :: .mark level ::
        .mark (decide ((if level then 524288 else 262144) ≠ s.store.slotCount)) :: rest) ∧
    (∀ n, Taken l (requestOf tag 0x75 ps) [] fs s s₁ → s.candidate l = some n →
      exec (.peek l tag ps) s = .next ((s₁.reply l tag (Answer.ok (.one n :: s.peekFields l))).transmit l)) ∧
    (Taken l (requestOf tag 0x75 ps) [] fs s s₁ → s.candidate l = none →
      exec (.peek l tag ps) s =
        .next ((s₁.reply l tag { result := .nothingPending, fields := .absent :: s.peekFields l }).transmit l))

/-- ACCOUNT_STATUS, ORDER_STATUS, READ_PROFILE, READ_TARIFF and METER_STATUS, taken on their links, report the record asked
for and change nothing, but that METER_STATUS of the whole log moves the model's own counter of free values (log 16). A
timer's time left counts a begun step of 100 ms whole, and a full log entry has the layout of its own kind, which are the
model's choices (log 23, log 46) (R146, R155, R168, R175, R184). -/
def Obligations.LedgerQueries : Prop :=
  ∀ (tag : Byte) (ps : List Word) (fs : Fields) (s s₁ : State),
    (∀ id mode a, Taken .sales (requestOf tag 0x54 ps) [.one, .one] fs s s₁ → fs.nat 0 = some id → fs.nat 1 = some mode →
      (mode = 0 ∧ s.book.account id = some a) ∨
        (mode = 1 ∧ (s.book.accounts.filter fun x => id < x.id).head? = some a) →
      exec (.accountStatus .sales tag ps) s = .next ((s₁.reply .sales tag (Answer.ok
        [.one a.id, .two a.owed, .two a.ceiling, .one a.status.code,
         .ofOption (a.timer.map fun t => ceilDiv (t - s.now) 500000), .one a.orderCount])).transmit .sales)) ∧
    (∀ id mode o, Taken .sales (requestOf tag 0x59 ps) [.one, .one, .one] fs s s₁ → fs.nat 0 = some id →
      fs.nat 1 = some mode →
      (mode = 0 ∧ s.book.order id = some o) ∨ (mode = 1 ∧ (s.book.orders.filter fun x => id < x.id).head? = some o) →
      (fs.nat 2 = none → exec (.orderStatus .sales tag ps) s = .next ((s₁.reply .sales tag (Answer.ok
        [.one o.id, .one o.account, .one o.discount, .one o.state.code, .two o.units, .one o.accumulator,
         .one o.saturated.toNat, .one o.clamped.toNat, .one o.inFlight,
         .many (o.items.length :: o.items.map Item.word)])).transmit .sales)) ∧
      (∀ n i, fs.nat 2 = some n → mode = 0 → o.item n = some i → exec (.orderStatus .sales tag ps) s =
        .next ((s₁.reply .sales tag (Answer.ok (s.itemFields o.id i))).transmit .sales))) ∧
    (∀ n p, Taken .desk (requestOf tag 0x3A ps) [.one] fs s s₁ → fs.nat 0 = some n → n ≤ 31 →
      s.engine.profiles[n]? = some p → exec (.readProfile .desk tag ps) s = .next ((s₁.reply .desk tag (Answer.ok
        [.one p.tone.b, .one p.tone.w, .one p.tone.s, .one p.repaired.toNat])).transmit .desk)) ∧
    (∀ n c, Taken .sales (requestOf tag 0x5C ps) [.one] fs s s₁ → fs.nat 0 = some n → n ≤ 15 →
      s.meter.tariffs[n]? = some c → exec (.readTariff .sales tag ps) s = .next ((s₁.reply .sales tag (Answer.ok
        (if c.set then [.one c.rt, .one c.rr, .one c.c, .one c.a, .one c.s, .one 0]
         else [.absent, .absent, .absent, .absent, .absent, .one 1]))).transmit .sales)) ∧
    (Taken .sales (requestOf tag 0x60 ps) [.one] fs s s₁ → fs.nat 0 = none → exec (.meterStatus .sales tag ps) s =
      .next ((({ s₁ with freeCount := s.freeCount + s.meter.log.length } : State).reply .sales tag
        (Answer.ok (s.meter.statusFields ++ summaries s.freeCount s.meter.log))).transmit .sales)) ∧
    (∀ n e, Taken .sales (requestOf tag 0x60 ps) [.one] fs s s₁ → fs.nat 0 = some n → s.meter.log[n]? = some e →
      exec (.meterStatus .sales tag ps) s =
        .next ((s₁.reply .sales tag (Answer.ok (s.meter.statusFields ++ e.full))).transmit .sales))

/-- DEPOSIT_STATUS, DELIVERY_STATUS and RESTORE_STATUS report a running deposit, a delivery and a queued job as they stand
and change nothing; of an ended deposit, a final delivery and an ended job they report the record and remove it, and no other
record changes. The code of a job's allocation refusal and the repeat mark of a desk view are the model's (log 50, log 51),
and so is the packing of its requester list (log 54). A target as four fields, those it lacks left out, and the codes of
named values are log 15 (R35, R118, R128). -/
def Obligations.StatusReadsRecords : Prop :=
  ∀ (tag : Byte) (ps : List Word) (fs : Fields) (h : Nat) (s s₁ : State), fs.nat 0 = some h →
    (Taken .production (requestOf tag 0x18 ps) [.one] fs s s₁ →
      (∀ i d, s.port.find h = some (i, d) → exec (.depositStatus .production tag ps) s =
        .next ((s₁.reply .production tag (Answer.ok (d.fields s.now))).transmit .production)) ∧
      (∀ e, s.port.find h = none → s.port.ended.find? (fun x => x.handle = h) = some e →
        ∃ t : State, exec (.depositStatus .production tag ps) s =
            .next ((t.reply .production tag (Answer.ok e.fields)).transmit .production) ∧
          t = { s₁ with port := { s.port with ended := t.port.ended } } ∧ t.port.ended.find? (fun x => x.handle = h) = none ∧
          ∀ n, n ≠ h → t.port.ended.find? (fun x => x.handle = n) = s.port.ended.find? (fun x => x.handle = n))) ∧
    (Taken .desk (requestOf tag 0x33 ps) [.one] fs s s₁ → ∀ d, s.table.find h = some d →
      (d.state.final = false → exec (.deliveryStatus .desk tag ps) s =
        .next ((s₁.reply .desk tag (Answer.ok (s.deliveryFields d))).transmit .desk)) ∧
      (d.state.final = true → ∃ t : State, exec (.deliveryStatus .desk tag ps) s =
            .next ((t.reply .desk tag (Answer.ok (s.deliveryFields d))).transmit .desk) ∧
          t = { s₁ with table := { s.table with records := t.table.records } } ∧ t.table.find h = none ∧
          ∀ n, n ≠ h → t.table.find n = s.table.find n)) ∧
    (Taken .desk (requestOf tag 0x37 ps) [.one] fs s s₁ →
      (∀ j, s.engine.find h = some j → exec (.restoreStatus .desk tag ps) s =
        .next ((s₁.reply .desk tag (Answer.ok j.fields)).transmit .desk)) ∧
      (∀ j, s.engine.find h = none → s.engine.ended.find? (fun x => x.id = h) = some j →
        ∃ t : State, exec (.restoreStatus .desk tag ps) s = .next ((t.reply .desk tag (Answer.ok j.fields)).transmit .desk) ∧
          t = { s₁ with engine := { s.engine with ended := t.engine.ended } } ∧
          t.engine.ended.find? (fun x => x.id = h) = none ∧
          ∀ n, n ≠ h → t.engine.ended.find? (fun x => x.id = n) = s.engine.ended.find? (fun x => x.id = n)))

/-! ## Power and RESET (chapter 4) -/

/-- What a cold start of a kind makes of a state: the slot count that SIZE calls for with a new header, the store as R82
gives it, one free run over the whole store, empty tables, the profiles and classes verified, the current day 0, the links
and controllers in their start state and ATTN low. The model's choices in it: the slots read as nothing (log 6), the
compaction counts and stop mark are 0 (log 5), and the operand of the start says whether the DRAM kept the header (log 8)
(R21, R24, R64, R66, R67, R82, R99, R120, R148, R169, R187, R203). -/
def Obligations.ColdStart : Prop :=
  ∀ (sizeHigh upset : Bool) (s : State),
    (∀ kind t n, (n = if sizeHigh then 524288 else 262144) →
      (s.power = .off ∧ kind = .cold ∧ exec (.powerUp false sizeHigh false upset) s = .next t) ∨
      (s.power = .off ∧ kind = .coldByHeader ∧ (upset = true ∨ s.store.header.isGood = false) ∧
        exec (.powerUp true sizeHigh false upset) s = .next t) ∨
      (s.power = .inReset true ∧ s.standbyOk = false ∧ kind = .cold ∧ exec (.resetRelease sizeHigh upset) s = .next t) ∨
      (s.power = .inReset false ∧ kind = .coldByHeader ∧ (upset = true ∨ s.store.header.isGood = false) ∧
        exec (.resetRelease sizeHigh upset) s = .next t) →
      t.power = .running ∧ t.now = s.now ∧ t.pending = s.pending ∧
      t.store = { mem := [], header := { slotCount := n, check := checkHeader n }, slotCount := n, sizeHigh := sizeHigh
                  lastStart := kind, state := .active, selfRefresh := false, debt := 0, refreshDue := some (s.now + 312)
                  burst := none, halted := false, haltCount := 0, fixedCount := 0, quietThreshold := 50, burstLength := 8
                  damagedReads := 0, lastDamage := none, waiting := [], inFlight := none, withdrawn := none, pointer := .deposit
                  idleSince := some s.now, wakeEnds := none } ∧
      t.alloc = { extents := [], runs := [⟨0, n⟩], lowWater := 4096, compaction := {} } ∧
      t.cat = {} ∧ t.port = {} ∧ t.mover = {} ∧ t.table = {} ∧ t.book = {} ∧
      t.engine = { profiles := s.engine.profiles.map Profile.verify } ∧
      t.meter.tariffs = s.meter.tariffs.map Tariff.verify ∧ t.meter.day = 0 ∧ t.meter.log = [] ∧
      t.meter.settings = (if s.meter.settings.isGood then s.meter.settings else MeterSettings.default) ∧
      t.meter.repaired = !s.meter.settings.isGood ∧
      t.production = Link.start 7 ∧ t.desk = Link.start 4 ∧ t.sales = Link.start 7 ∧ ∀ l, t.attn l = false) ∧
    (s.power = .off → ∃ t : State, exec (.powerUp false sizeHigh false upset) s = .next t ∧ t.store.lastStart = .cold) ∧
    (s.power = .off → exec (.powerUp true sizeHigh true upset) s =
      .next { s with power := .inReset true, standbyOk := true }) ∧
    (s.power = .inReset true → s.standbyOk = false →
      ∃ t : State, exec (.resetRelease sizeHigh upset) s = .next t ∧ t.store.lastStart = .cold)

/-- A start that finds STANDBY_OK high at power-up, or RESET released with power on, and a good header is warm: every slot
keeps its data and check word and the header stays. Every edition but a RETIRING one keeps its record, CLOSED when it was
CLOSING and with nothing FILLING; every COMPLETE revision of it stays as it was, and every COMPLETE photograph with the
references of those revisions. No edition is CLOSING or RETIRING, no order CLOSING, no item IN_DELIVERY, no delivery counted
in flight. The compaction is IDLE without a move, with outcome NONE, and the low-water mark is 4,096. The ports, channels,
queues and links are in their start state. With a good meter record every order keeps its figures and its items their
numbers, targets and walks, and every account's timer is loaded with the full delay of its status (R22, R65, R67, R82, R120,
R170, R187, R203). -/
def Obligations.WarmStart : Prop :=
  ∀ (sizeHigh : Bool) (s : State), s.store.header.isGood = true →
    ∀ i kind, (s.power = .off ∧ i = .powerUp true sizeHigh false false ∧ kind = .warmPower) ∨
      (s.power = .inReset true ∧ s.standbyOk = true ∧ i = .resetRelease sizeHigh false ∧ kind = .warmPower) ∨
      (s.power = .inReset false ∧ i = .resetRelease sizeHigh false ∧ kind = .warmReset) →
    ∃ t : State, exec i s = .next t ∧ t.power = .running ∧ t.store.lastStart = kind ∧
      t.store.mem = s.store.mem ∧ t.store.header = s.store.header ∧ t.store.slotCount = s.store.header.slotCount ∧
      t.store.sizeHigh = sizeHigh ∧ t.store.state = .active ∧ t.store.debt = 0 ∧ t.store.halted = false ∧
      t.store.fixedCount = 0 ∧ t.store.quietThreshold = 50 ∧ t.store.burstLength = 8 ∧ t.store.haltCount = 0 ∧
      t.store.damagedReads = 0 ∧ t.store.lastDamage = none ∧ t.store.withdrawn = none ∧
      t.port = {} ∧ t.mover = {} ∧ t.table = {} ∧ t.engine.ended = [] ∧ t.alloc.lowWater = 4096 ∧
      t.alloc.compaction.state = .idle ∧ t.alloc.compaction.move = none ∧ t.alloc.compaction.outcome = .none ∧
      (s.cat.distinct →
        (∀ id e, s.cat.edition id = some e → e.state ≠ .retiring → ∃ ps, t.cat.edition id = some { e with
          pages := ps, filling := 0, state := if e.state = .closing then .closed else e.state }) ∧
        (∀ r v e, s.cat.revision r = some v → v.state = .complete → s.cat.edition r.edition = some e →
          e.state ≠ .retiring → t.cat.revision r = some v) ∧
        (∀ id p, s.cat.photo id = some p → p.state = .complete → ∃ rs, t.cat.photo id = some { p with refs := rs } ∧
          rs.Sublist p.refs ∧ ∀ r ∈ p.refs, ∀ v e, s.cat.revision r = some v → v.state = .complete →
            s.cat.edition r.edition = some e → e.state ≠ .retiring → r ∈ rs)) ∧
      (s.meter.settings.isGood = true → t.book.lastOrderId = s.book.lastOrderId ∧
        t.book.orders.map (fun o => (o.id, o.account, o.discount, o.units, o.accumulator, o.saturated, o.clamped,
            o.items.map fun i => (i.number, i.target, i.walk))) =
          s.book.orders.map (fun o => (o.id, o.account, o.discount, o.units, o.accumulator, o.saturated, o.clamped,
            o.items.map fun i => (i.number, i.target, i.walk)))) ∧
      (∀ e ∈ t.cat.editions, e.state ≠ .closing ∧ e.state ≠ .retiring) ∧
      (∀ o ∈ t.book.orders, o.state ≠ .closing ∧ o.inFlight = 0 ∧ ∀ x ∈ o.items, x.state ≠ .inDelivery) ∧
      (s.meter.settings.isGood = true → t.book.accounts = s.book.accounts.map fun a => { a with timer :=
        match a.status with
        | .watch => some (s.now + s.meter.settings.cutOff * 500000)
        | .reinstating => some (s.now + s.meter.settings.reinstate * 500000)
        | _ => none }) ∧
      t.engine.profiles = s.engine.profiles.map Profile.verify ∧
      t.production = Link.start 7 ∧ t.desk = Link.start 4 ∧ t.sales = Link.start 7 ∧ ∀ l, t.attn l = false

/-- RESET asserted while the part runs: the DRAM is in self-refresh, no transfer is in flight or waits, no slot, table or
link changes, READY is low on every link, and then no command but RESET_RELEASE and POWER_LOSS changes anything (R68 for the
links and the transfers; for every other command log 2). A loss
of power keeps the profiles, the classes and the meter settings; the slots, the header and the tables of the DRAM are kept
with the standby supply, and without it the header is bad (R67, log 8, log 25). -/
def Obligations.ResetAssertAndPowerLoss : Prop :=
  (∀ s : State, s.power = .running → ∃ t : State, exec .resetAssert s = .next t ∧
    t = { s with power := .inReset false, store := t.store } ∧ t.store = { s.store with
      selfRefresh := true, inFlight := none, withdrawn := none, waiting := [], burst := none, halted := false, debt := 0
      refreshDue := none
      wakeEnds := none, idleSince := none } ∧
    (∀ l, t.ready l = false) ∧
    (∀ i, (∀ a b, i ≠ .resetRelease a b) → (∀ a, i ≠ .powerLoss a) → exec i t = .next t)) ∧
  (∀ (kept : Bool) (s : State), s.power ≠ .off → ∃ t : State, exec (.powerLoss kept) s = .next t ∧ t.power = .off ∧
    t.engine.profiles = s.engine.profiles ∧ t.meter.tariffs = s.meter.tariffs ∧ t.meter.settings = s.meter.settings ∧
    t.pending = s.pending ∧
    (kept = true → t.cat = s.cat ∧ t.alloc = s.alloc ∧ t.book = s.book ∧ t.store.mem = s.store.mem ∧
      t.store.header = s.store.header) ∧
    (kept = false → t.store.header.isGood = false ∧ t.cat = {} ∧ t.book = {} ∧ t.store.mem = []))

/-! ## Editions and photographs (chapters 1 and 2) -/

/-- OPEN_EDITION with an id of at least 1 that no record holds, an edition number of 1..8 and a record free: the record comes
into use OPEN with an empty page list and a FILLING count of 0. CLOSE_EDITION of an OPEN edition that has a page: it is
CLOSED when its FILLING count is 0, else CLOSING, and the reply says which; of an edition that is not OPEN the refusal names
its state, and of one without pages it is EMPTY_EDITION. No other record, no photograph and no other block changes (R23,
R40). -/
def Obligations.OpenAndCloseEdition : Prop :=
  (∀ (tag : Byte) (ps : List Word) (fs : Fields) (id day number : Nat) (s s₁ : State),
      Taken .production (requestOf tag 0x10 ps) [.one, .one, .one] fs s s₁ →
      fs.nat 0 = some id → fs.nat 1 = some day → fs.nat 2 = some number → 1 ≤ id → 1 ≤ number → number ≤ 8 →
      s.cat.edition id = none → s.cat.editions.length < 1024 →
      ∃ t : State, exec (.openEdition .production tag ps) s = .next ((t.reply .production tag { result := .ok }).transmit .production) ∧
        t = { s₁ with cat := { s.cat with editions := t.cat.editions } } ∧
        t.cat.edition id = some { id, issueDay := day, number, state := .opened, pages := [], filling := 0 } ∧
        ∀ other, other ≠ id → t.cat.edition other = s.cat.edition other) ∧
  (∀ (tag : Byte) (ps : List Word) (fs : Fields) (id : Nat) (e : Edition) (s s₁ : State),
      Taken .production (requestOf tag 0x14 ps) [.one] fs s s₁ → fs.nat 0 = some id → s.cat.edition id = some e →
      (e.state = .opened → e.pages ≠ [] →
        ∃ t : State, exec (.closeEdition .production tag ps) s = .next ((t.reply .production tag
            { result := .ok, fields := [.one (if e.filling = 0 then 2 else 1)] }).transmit .production) ∧
          t = { s₁ with cat := { s.cat with editions := t.cat.editions } } ∧
          t.cat.edition id = some { e with state := if e.filling = 0 then .closed else .closing } ∧
          ∀ other, other ≠ id → t.cat.edition other = s.cat.edition other) ∧
      (∀ r, (e.state = .closing ∧ r = .closing) ∨ (e.state = .closed ∧ r = .notOpen) ∨ (e.state = .retiring ∧ r = .retiring) ∨
          (e.state = .opened ∧ e.pages = [] ∧ r = .emptyEdition) →
        exec (.closeEdition .production tag ps) s = .next ((s₁.reply .production tag { result := r }).transmit .production)))

/-- RETIRE_EDITION of an edition that is not RETIRING and has no pinned revision leaves it freed or RETIRING, as the reply
says. The open deposits into it end RETIRED with their slots FREE and DEPOSIT_ABORTED pending, and the other slots stay; the
QUEUED jobs that name it leave the queue, and an active one that stays carries the mark RETIRED. With no open deposit into it
and no job that names it, it is freed at once when none of its extents has a reader, and only the catalogue and the allocator
change; with a reader it is RETIRING and nothing else changes. When the last reader of its extents then ends, its record is
free, its LIVE extents are returned, RETIRE_DONE is raised, and nothing else changes. A reader's end that leaves another
reader, or the last one's on a LIVE or MOVING extent whose edition is not RETIRING, or on a MOVING one whose release waits,
changes the count alone (R42, R43, R44, R55, log 29). -/
def Obligations.RetireEdition : Prop :=
  (∀ (s : State) (n : Nat) (x : Extent), s.alloc.find n = some x →
    (s.OnlyCounts x → s.readerEnd n = { s with alloc := (s.readerEnd n).alloc } ∧
      s.alloc.Rewritten n { x with readers := x.readers - 1 } (s.readerEnd n).alloc) ∧
    (∀ ed e, x.readers = 1 → x.state = .live ∨ x.state = .moving ∧ x.releasePending = false → x.owner.edition = some ed →
      s.cat.distinct → s.cat.edition ed = some e → e.state = .retiring → e.retireReplied = true →
      (∀ m ∈ e.extents, m ≠ n → s.alloc.readersOf m = 0) → (∀ j ∈ s.engine.queue, j.revision.edition ≠ ed) →
      ∃ t : State, s.readerEnd n = t.raise .retireDone ∧ t = { s with cat := t.cat, alloc := t.alloc } ∧
        t.cat.edition ed = none ∧ (∀ other, other ≠ ed → t.cat.edition other = s.cat.edition other) ∧
        ∀ m ∈ e.extents, ∀ y, s.alloc.find m = some y → y.state = .live → t.alloc.find m = none)) ∧
  ∀ (tag : Byte) (ps : List Word) (fs : Fields) (id : Nat) (e : Edition) (s s₁ : State),
    Taken .production (requestOf tag 0x15 ps) [.one] fs s s₁ → fs.nat 0 = some id → s.cat.edition id = some e →
    e.state ≠ .retiring → e.retireReplied = false → (∀ p ∈ e.pages, ∀ v ∈ p.revs, v.pins = 0) →
    ∃ t : State, exec (.retireEdition .production tag ps) s = .next ((t.reply .production tag
        { result := .ok, fields := [.one (if (t.cat.edition id).isSome then 0 else 1)] }).passHeldTile.settle) ∧
      (∀ x, t.cat.edition id = some x → x.state = .retiring) ∧
      ((s.port.occupants.map (·.handle)).Nodup → ∀ i d, s.port.slots.get i = some d →
        (∀ r, d.target = .page r → r.edition = id → t.port.slots.get i = none ∧ d.toEnded .retired ∈ t.port.ended ∧
          ∀ src, s.production.notices.sources[1]? = some src →
            (t.production.notices.sources[1]?).map (·.latched) = some true) ∧
        ((∀ r, d.target = .page r → r.edition ≠ id) → t.port.slots.get i = some d)) ∧
      ((s.engine.queue.map (·.id)).Nodup → (∀ j ∈ s.engine.queue, j.state = .queued ∨ j.active = true) →
        (∀ j ∈ t.engine.queue, j.revision.edition = id → j.active = true ∧ j.cancel = some .retired) ∧
        ∀ j ∈ s.engine.queue, j.revision.edition = id → j.state = .queued → ∀ k ∈ t.engine.queue, k.id ≠ j.id) ∧
      (s.port.ofEdition id = [] → (∀ j ∈ s.engine.queue, j.revision.edition ≠ id) →
        ((∀ n ∈ e.extents, s.alloc.readersOf n = 0) →
          t.cat.edition id = none ∧ t = { s₁ with cat := t.cat, alloc := t.alloc } ∧
          ∀ other, other ≠ id → t.cat.edition other = s.cat.edition other) ∧
        ((∃ n ∈ e.extents, s.alloc.readersOf n ≠ 0) →
          t = { s₁ with cat := { s.cat with editions := t.cat.editions } } ∧
          t.cat.edition id = some { e with state := .retiring, retireReplied := true } ∧
          ∀ other, other ≠ id → t.cat.edition other = s.cat.edition other))

/-- DISCARD_PHOTO of a COMPLETE photograph with no reference, no pin and no reader: its record is free, its LIVE extent
returns to the free runs, and no other photograph, no edition and no other block changes; a MOVING extent takes the
release-pending mark instead and keeps its slots. A FILLING one is refused FILLING, and one that something holds IN_USE (R15,
R45, R53, R54). -/
def Obligations.DiscardPhoto : Prop :=
  ∀ (tag : Byte) (ps : List Word) (fs : Fields) (id : Nat) (p : Photo) (s s₁ : State),
    Taken .production (requestOf tag 0x16 ps) [.one] fs s s₁ → fs.nat 0 = some id → s.cat.photo id = some p →
    (∀ x, p.state = .complete → p.refs = [] → p.pins = 0 → s.alloc.find p.extent = some x → x.state = .live → x.readers = 0 →
      ∃ t : State, exec (.discardPhoto .production tag ps) s =
          .next ((t.reply .production tag { result := .ok }).transmit .production) ∧
        t = { s₁ with
          cat := { s.cat with photos := t.cat.photos }
          alloc := { s.alloc with runs := giveSlots x.first x.size s.alloc.runs, extents := t.alloc.extents } } ∧
        t.cat.photo id = none ∧ (∀ other, other ≠ id → t.cat.photo other = s.cat.photo other) ∧
        t.alloc.find p.extent = none ∧ ∀ n, n ≠ p.extent → t.alloc.find n = s.alloc.find n) ∧
    (∀ x, p.state = .complete → p.refs = [] → p.pins = 0 → s.alloc.find p.extent = some x → x.state = .moving → x.readers = 0 →
      ∃ t : State, exec (.discardPhoto .production tag ps) s =
          .next ((t.reply .production tag { result := .ok }).transmit .production) ∧
        t = { s₁ with cat := { s.cat with photos := t.cat.photos }, alloc := t.alloc } ∧ t.cat.photo id = none ∧
        (∀ other, other ≠ id → t.cat.photo other = s.cat.photo other) ∧
        s.alloc.Rewritten p.extent { x with releasePending := true } t.alloc) ∧
    (p.state = .filling → exec (.discardPhoto .production tag ps) s =
      .next ((s₁.reply .production tag { result := .filling }).transmit .production)) ∧
    (p.state = .complete → (p.refs ≠ [] ∨ p.pins ≠ 0 ∨ s.alloc.readersOf p.extent ≠ 0) →
      exec (.discardPhoto .production tag ps) s =
        .next ((s₁.reply .production tag { result := .inUse }).transmit .production))

/-! ## Deposits (chapter 2) -/

/-- DEPOSIT_PAGE when every check of Table 2-2 passes: page entry and FILLING revision 0 with the size, class and photographs
given, a reference in each of those photographs, the edition's FILLING count one higher, a FILLING extent at the place the
allocator gives, and the lowest free deposit slot RECEIVING under the next handle with its idle timer loaded; no other
revision, edition, photograph, extent, slot or block changes. A photo list left out names no photograph (log 13), and the
slot and the record taken are the lowest free ones (log 11) (R12, R26, R31). -/
def Obligations.DepositPage : Prop :=
  ∀ (tag : Byte) (ps : List Word) (fs : Fields) (ed pg w h cls first : Nat) (photos : List Nat) (e : Edition) (i : Fin 4)
      (s s₁ : State),
    Taken .production (requestOf tag 0x11 ps) [.one, .one, .one, .one, .one, .list] fs s s₁ →
    fs.nat 0 = some ed → fs.nat 1 = some pg → fs.nat 2 = some w → fs.nat 3 = some h → fs.nat 4 = some cls →
    (fs.values 5).getD [] = photos → s.cat.edition ed = some e → e.state = .opened → e.page pg = none →
    1 ≤ pg → pg ≤ 160 → 1 ≤ w → w ≤ 40 → 1 ≤ h → h ≤ 56 → cls ≤ 15 →
    photos.length ≤ 12 → photos.Nodup → 0 ∉ photos →
    (∀ id ∈ photos, ∃ p, s.cat.photo id = some p ∧ p.state = .complete ∧ p.refs.length < 8) →
    s.port.slots.get i = none → (∀ j, j < i → s.port.slots.get j ≠ none) → s.cat.pageCount < 16384 →
    s.alloc.place (w * h) = .ok first →
    ∃ t : State, exec (.depositPage .production tag ps) s = .next ((t.reply .production tag
        { result := .accepted, fields := [.one s.port.nextHandle] }).passHeldTile.settle) ∧
      t = { s₁ with cat := t.cat, alloc := t.alloc, port := t.port } ∧
      t.cat.revision ⟨ed, pg, 0⟩ = some { number := 0, state := .filling, width := w, height := h, cls, raw := s.alloc.freshNumber
                                          restored := none, damage := {}, photos, pins := 0 } ∧
      (∀ r, r ≠ ⟨ed, pg, 0⟩ → t.cat.revision r = s.cat.revision r) ∧
      (t.cat.edition ed).map (·.filling) = some (e.filling + 1) ∧ (t.cat.edition ed).map (·.state) = some .opened ∧
      (∀ other, other ≠ ed → t.cat.edition other = s.cat.edition other) ∧
      (∀ id p, s.cat.photo id = some p →
        t.cat.photo id = some (if id ∈ photos then { p with refs := p.refs ++ [⟨ed, pg, 0⟩] } else p)) ∧
      t.alloc = { s.alloc with runs := takeSlots first (w * h) s.alloc.runs, extents := t.alloc.extents } ∧
      s.alloc.find s.alloc.freshNumber = none ∧
      t.alloc.find s.alloc.freshNumber = some { number := s.alloc.freshNumber, first, size := w * h, owner := .raw ⟨ed, pg, 0⟩
                                                state := .filling, readers := 0, releasePending := false } ∧
      (∀ n, n ≠ s.alloc.freshNumber → t.alloc.find n = s.alloc.find n) ∧
      t.port.slots.get i = some { handle := s.port.nextHandle, target := .page ⟨ed, pg, 0⟩, extent := s.alloc.freshNumber
                                  total := w * h, next := 0, finishing := false
                                  expires := some (s.now + s.port.timeout * Config.second), checkRefusals := 0, orderRefusals := 0 } ∧
      (∀ j, j ≠ i → t.port.slots.get j = s.port.slots.get j) ∧
      t.port = { s.port with slots := t.port.slots, lastHandle := s.port.nextHandle }

/-- DEPOSIT_PHOTO when every check of R27 passes: a FILLING photograph with no reference, damage or pin, its FILLING extent,
and the lowest free deposit slot RECEIVING under the next handle with its idle timer loaded; no edition, no other photograph,
extent, slot or block changes. The slot and the record taken are the lowest free ones (log 11) (R27, R31). -/
def Obligations.DepositPhoto : Prop :=
  ∀ (tag : Byte) (ps : List Word) (fs : Fields) (id w h cls first : Nat) (i : Fin 4) (s s₁ : State),
    Taken .production (requestOf tag 0x12 ps) [.one, .one, .one, .one] fs s s₁ →
    fs.nat 0 = some id → fs.nat 1 = some w → fs.nat 2 = some h → fs.nat 3 = some cls →
    1 ≤ id → 1 ≤ w → w ≤ 32 → 1 ≤ h → h ≤ 32 → cls ≤ 15 → s.cat.photo id = none → s.cat.photos.length < 8192 →
    s.port.slots.get i = none → (∀ j, j < i → s.port.slots.get j ≠ none) → s.alloc.place (w * h) = .ok first →
    ∃ t : State, exec (.depositPhoto .production tag ps) s = .next ((t.reply .production tag
        { result := .accepted, fields := [.one s.port.nextHandle] }).passHeldTile.settle) ∧
      t = { s₁ with
        cat := { s.cat with photos := t.cat.photos }
        alloc := { s.alloc with runs := takeSlots first (w * h) s.alloc.runs, extents := t.alloc.extents }
        port := { s.port with slots := t.port.slots, lastHandle := s.port.nextHandle } } ∧
      t.cat.photo id = some { id, width := w, height := h, cls, extent := s.alloc.freshNumber, state := .filling, refs := []
                              damage := {}, pins := 0 } ∧
      (∀ other, other ≠ id → t.cat.photo other = s.cat.photo other) ∧
      t.alloc.find s.alloc.freshNumber = some { number := s.alloc.freshNumber, first, size := w * h, owner := .photo id
                                                state := .filling, readers := 0, releasePending := false } ∧
      (∀ n, n ≠ s.alloc.freshNumber → t.alloc.find n = s.alloc.find n) ∧
      t.port.slots.get i = some { handle := s.port.nextHandle, target := .photo id, extent := s.alloc.freshNumber
                                  total := w * h, next := 0, finishing := false
                                  expires := some (s.now + s.port.timeout * Config.second), checkRefusals := 0, orderRefusals := 0 } ∧
      ∀ j, j ≠ i → t.port.slots.get j = s.port.slots.get j

/-- REPLATE_PAGE when every check of Table 2-4 passes: a FILLING revision numbered one above the last issued one joins the
newest end of the page's list, the oldest of a full list is gone and named in the reply, the FILLING count of the edition is
one higher, the new extent is FILLING at the place found before the drop, and the lowest free slot is RECEIVING under the
next handle; every other revision of the page stays. The reference of the dropped revision leaves each photograph that it
names, and one of the new revision joins the end of each list it names. The dropped revision's extents are released: a LIVE
one's record is free and its slots FREE, a MOVING one carries the release-pending mark and keeps them. A photo list left out
names no photograph (log 13), the field of the dropped revision is left out when there is none (log 15), the slot is the
lowest free one (log 11), and so is the extent's record, after the drop (log 32) (R12, R14, R37, R38, R39, R53, R54). -/
def Obligations.ReplatePage : Prop :=
  ∀ (tag : Byte) (ps : List Word) (fs : Fields) (ed pg w h cls first : Nat) (photos : List Nat) (e : Edition) (p : Page)
      (i : Fin 4) (s s₁ : State),
    Taken .production (requestOf tag 0x13 ps) [.one, .one, .one, .one, .one, .list] fs s s₁ →
    fs.nat 0 = some ed → fs.nat 1 = some pg → fs.nat 2 = some w → fs.nat 3 = some h → fs.nat 4 = some cls →
    (fs.values 5).getD [] = photos → s.cat.edition ed = some e → e.state ≠ .retiring → e.page pg = some p →
    1 ≤ pg → pg ≤ 160 → 1 ≤ w → w ≤ 40 → 1 ≤ h → h ≤ 56 → cls ≤ 15 →
    (∀ v ∈ p.revs, v.state = .complete) → (p.revs.map (·.number)).Nodup → (∀ v ∈ p.revs, v.number ≤ p.lastIssued) →
    p.lastIssued < 255 →
    photos.length ≤ 12 → photos.Nodup → 0 ∉ photos →
    (∀ id ∈ photos, ∃ x, s.cat.photo id = some x ∧ x.state = .complete ∧ x.refs.length < 8) →
    (∀ v, 4 ≤ p.revs.length → p.revs.head? = some v → (∀ n ∈ v.extents, s.alloc.readersOf n = 0) ∧
      (∀ j ∈ s.engine.queue, j.revision ≠ ⟨ed, pg, v.number⟩) ∧ v.pins = 0) →
    s.port.slots.get i = none → (∀ j, j < i → s.port.slots.get j ≠ none) → s.alloc.place (w * h) = .ok first →
    ∃ (t : State) (n : Nat), exec (.replatePage .production tag ps) s = .next ((t.reply .production tag
        { result := .accepted, fields := [.one s.port.nextHandle, .one (p.lastIssued + 1),
          if 4 ≤ p.revs.length then .ofOption (p.revs.head?.map (·.number)) else .absent] }).passHeldTile.settle) ∧
      t = { s₁ with cat := t.cat, alloc := t.alloc, port := t.port } ∧
      ((t.cat.edition ed).bind (·.page pg)) = some { p with
        revs := (if 4 ≤ p.revs.length then p.revs.tail else p.revs) ++
          [{ number := p.lastIssued + 1, state := .filling, width := w, height := h, cls, raw := n, restored := none
             damage := {}, photos, pins := 0 }]
        lastIssued := p.lastIssued + 1 } ∧
      (∀ q, q ≠ pg → (t.cat.edition ed).bind (·.page q) = e.page q) ∧ (∀ m, m < n → t.alloc.find m ≠ none) ∧
      (t.cat.edition ed).map (·.filling) = some (e.filling + 1) ∧ (t.cat.edition ed).map (·.state) = some e.state ∧
      (∀ other, other ≠ ed → t.cat.edition other = s.cat.edition other) ∧
      (∀ dropped, dropped = (if 4 ≤ p.revs.length then p.revs.head? else none) →
        (∀ id x, s.cat.photo id = some x → t.cat.photo id = some { x with refs :=
          (match dropped with
            | some v => if id ∈ v.photos then x.refs.filter (· ≠ ⟨ed, pg, v.number⟩) else x.refs
            | none => x.refs) ++ if id ∈ photos then [⟨ed, pg, p.lastIssued + 1⟩] else [] }) ∧
        (∀ id, s.cat.photo id = none → t.cat.photo id = none) ∧
        ((∀ v, dropped = some v → v.extents.Nodup ∧
            ∀ m ∈ v.extents, ∃ x, s.alloc.find m = some x ∧ (x.state = .live ∨ x.state = .moving)) →
          t.alloc = { s.alloc with
            runs := takeSlots first (w * h) (s.alloc.runsWithout (dropped.elim [] Revision.extents)), extents := t.alloc.extents } ∧
          (∀ m, m ≠ n → m ∉ dropped.elim [] Revision.extents → t.alloc.find m = s.alloc.find m) ∧
          ∀ v m x, dropped = some v → m ∈ v.extents → s.alloc.find m = some x →
            (x.state = .live → m ≠ n → t.alloc.find m = none) ∧
            (x.state = .moving → t.alloc.find m = some { x with releasePending := true }))) ∧
      t.alloc.find n = some { number := n, first, size := w * h, owner := .raw ⟨ed, pg, p.lastIssued + 1⟩, state := .filling
                              readers := 0, releasePending := false } ∧
      t.port.slots.get i = some { handle := s.port.nextHandle, target := .page ⟨ed, pg, p.lastIssued + 1⟩, extent := n
                                  total := w * h, next := 0, finishing := false
                                  expires := some (s.now + s.port.timeout * Config.second), checkRefusals := 0, orderRefusals := 0 } ∧
      (∀ j, j ≠ i → t.port.slots.get j = s.port.slots.get j) ∧
      t.port = { s.port with slots := t.port.slots, lastHandle := s.port.nextHandle }

/-- A TILE frame that is passed to the port: NO_DEPOSIT when no slot holds the handle; TILE_ORDER with the order refusal
count one higher when the slot is FINISHING or expects another index; CHECK_ERROR with the check refusal count one higher
when the check word is wrong, both counts holding at 65,535; otherwise OK, with the tile in the buffer, the next index one
higher, the timer reloaded or, at the total, stopped and the slot FINISHING, and one write asked for. A frame that cannot be
passed is held. No slot of the store changes (R28, R29, R31, R193). -/
def Obligations.TileFrame : Prop :=
  ∀ (ws : List Word) (h i : Nat) (x : Tile) (s : State), s.power = .running → sortFrame .production ws = .tile h i x →
    s.production.held = none →
    (s.port.buffer ≠ none ∨ 2 ≤ s.production.replies.length →
      exec (.tileFrame ws) s = .next (s.setLink .production { s.production with held := some (.tile h i x) })) ∧
    (s.port.buffer = none → s.production.replies.length < 2 →
      (s.port.find h = none → exec (.tileFrame ws) s =
        .next (s.reply .production 0 { result := .noDeposit, fields := [.one h, .one i] }).settle) ∧
      (∀ k d, s.port.find h = some (k, d) → (d.finishing = true ∨ i ≠ d.next) → exec (.tileFrame ws) s =
        .next ((s.modPort (·.setSlot k (some { d with orderRefusals := min (d.orderRefusals + 1) 65535 }))).reply .production 0
          { result := .tileOrder, fields := [.one h, .one i] }).settle) ∧
      (∀ k d, s.port.find h = some (k, d) → d.finishing = false → i = d.next → checkBytes x.bytes ≠ x.check →
        exec (.tileFrame ws) s =
          .next ((s.modPort (·.setSlot k (some { d with checkRefusals := min (d.checkRefusals + 1) 65535 }))).reply
            .production 0 { result := .checkError, fields := [.one h, .one i] }).settle) ∧
      (∀ k d e, s.port.find h = some (k, d) → d.finishing = false → i = d.next → checkBytes x.bytes = x.check →
        s.alloc.find d.extent = some e →
        ∃ t : State, exec (.tileFrame ws) s =
            .next (t.reply .production 0 { result := .ok, fields := [.one h, .one i] }).settle ∧
          t = { s with port := { s.port with slots := t.port.slots, buffer := some ⟨h, i, x⟩ }, store := t.store } ∧
          t.port.slots.get k = some (if i + 1 < d.total
            then { d with next := i + 1, expires := some (s.now + s.port.timeout * Config.second) }
            else { d with next := i + 1, finishing := true, expires := none }) ∧
          (∀ j, j ≠ k → t.port.slots.get j = s.port.slots.get j) ∧ t.store.mem = s.store.mem ∧
          t.store.inFlight = s.store.inFlight ∧
          t.store.waiting = s.store.waiting ++ [⟨.deposit, e.first + i, .write x.bytes (some x.check)⟩]))

/-- The withdrawn write of an aborted deposit ends: its slot is unchanged, nothing is reported, and the store can grant again.
The write of the buffered tile completes: the slot holds the tile with its check word and every other slot reads as
before; the buffer is empty. When it was the last tile of a FINISHING deposit, the deposit slot is FREE, the extent LIVE, the
target COMPLETE, a DONE entry is the newest of the ended list and DEPOSIT_DONE is pending, and a page's edition counts a fill
less: a CLOSING edition left with none is CLOSED with CLOSE_DONE pending, and any other keeps its state; otherwise nothing
else changes. That TILE_WRITE_COMPLETE stands for the end of a withdrawn write too is the model's choice (log 10) (R29, R30,
R32, R41, R69). -/
def Obligations.TileWriteComplete : Prop :=
  (∀ (y : Transfer) (s : State), s.power = .running → s.store.withdrawn = some y → y.client = .deposit →
    y.slot < s.store.slotCount →
    exec .tileWriteComplete s = .next ({ s with store := { s.store with withdrawn := none } } : State).settle) ∧
  ∀ (slot : Nat) (bytes : List Byte) (check : Word) (b : BufferedTile) (k : Fin 4) (d : Deposit) (s : State),
    s.power = .running → s.store.withdrawn = none →
    s.store.inFlight = some ⟨.deposit, slot, .write bytes (some check)⟩ → slot < s.store.slotCount →
    bytes.length = 4096 → s.port.buffer = some b → s.port.find b.handle = some (k, d) →
    ∃ t : State, exec .tileWriteComplete s = .next t.passHeldTile.settle ∧ t.port.buffer = none ∧ t.store.inFlight = none ∧
      Memory.readSlot t.store.mem slot = ⟨bytes, check⟩ ∧
      (∀ other, other ≠ slot → Memory.readSlot t.store.mem other = Memory.readSlot s.store.mem other) ∧
      ((d.finishing = false ∨ b.index + 1 ≠ d.total) →
        t = { s with store := { s.store with inFlight := none, mem := t.store.mem }, port := { s.port with buffer := none } }) ∧
      (d.finishing = true → b.index + 1 = d.total →
        t.port.slots.get k = none ∧ (∀ j, j ≠ k → t.port.slots.get j = s.port.slots.get j) ∧
        t.port.ended.getLast? = some { handle := d.handle, target := d.target, outcome := .done, accepted := d.next
                                       total := d.total, checkRefusals := d.checkRefusals, orderRefusals := d.orderRefusals } ∧
        (∀ e, s.alloc.find d.extent = some e → t.alloc.find d.extent = some { e with state := .live }) ∧
        (∀ r v, d.target = .page r → s.cat.revision r = some v → t.cat.revision r = some { v with state := .complete }) ∧
        (∀ id p, d.target = .photo id → s.cat.photo id = some p → t.cat.photo id = some { p with state := .complete }) ∧
        (∀ r v e, d.target = .page r → s.cat.revision r = some v → s.cat.edition r.edition = some e →
          (∃ ps, t.cat.edition r.edition = some { e with
            pages := ps, filling := e.filling - 1, state := if e.state = .closing ∧ e.filling ≤ 1 then .closed else e.state }) ∧
          ∀ src, s.production.notices.sources[2]? = some src → t.production.notices.sources[2]? =
            some (if e.state = .closing ∧ e.filling ≤ 1 then { src with latched := true } else src)) ∧
        (∀ src, s.production.notices.sources[0]? = some src → (t.production.notices.sources[0]?).map (·.latched) = some true) ∧
        t.book = s.book ∧ t.meter = s.meter ∧ t.engine = s.engine ∧ t.table = s.table ∧ t.mover = s.mover ∧
        t.desk = s.desk ∧ t.sales = s.sales)

/-- A deposit is aborted, by ABANDON_DEPOSIT with outcome ABANDONED or by the expiry of its idle timer with outcome TIMED_OUT
and DEPOSIT_ABORTED: its target is gone from the catalogue, its slot FREE, its entry the newest of the ended list, a tile of
it out of the buffer with its write not made, a write in flight withdrawn and running on (R69); the other slots, the store's
slots, orders, accounts and meter stay. That the clock stands at the timer's moment at least, whenever the command comes, is
log 4. The
edition of a FILLING revision counts a fill less: a CLOSING one left with none is CLOSED with CLOSE_DONE pending, and any
other keeps its state (R31, R32, R34, R41). -/
def Obligations.DepositAborted : Prop :=
  ∀ (k : Fin 4) (d : Deposit) (s : State) (o : DepositOutcome) (t : State),
    ((∃ tag ps fs s₁, Taken .production (requestOf tag 0x17 ps) [.one] fs s s₁ ∧ fs.nat 0 = some d.handle ∧
        s.port.find d.handle = some (k, d) ∧ o = .abandoned ∧
        t = s₁.abortDeposit k d (some .abandoned)) ∨
      (∃ moment, s.power = .running ∧ s.port.slots.get k = some d ∧ d.expires = some moment ∧ o = .timedOut ∧
        t = ((s.reach moment).abortDeposit k d (some .timedOut)).raise .depositAborted)) →
    (∀ tag ps fs s₁, Taken .production (requestOf tag 0x17 ps) [.one] fs s s₁ → fs.nat 0 = some d.handle →
      s.port.find d.handle = some (k, d) → exec (.abandonDeposit .production tag ps) s =
        .next (((s₁.abortDeposit k d (some .abandoned)).reply .production tag { result := .ok }).passHeldTile.settle)) ∧
    (∀ moment, s.power = .running → s.port.slots.get k = some d → d.expires = some moment →
      exec (.depositTimeout k.val) s =
        .next (((s.reach moment).abortDeposit k d (some .timedOut)).raise .depositAborted).passHeldTile.settle) ∧
    t.port.slots.get k = none ∧ (∀ j, j ≠ k → t.port.slots.get j = s.port.slots.get j) ∧
    t.port.ended.getLast? = some { handle := d.handle, target := d.target, outcome := o, accepted := d.next, total := d.total
                                   checkRefusals := d.checkRefusals, orderRefusals := d.orderRefusals } ∧
    (∀ r, d.target = .page r → t.cat.revision r = none) ∧ (∀ id, d.target = .photo id → t.cat.photo id = none) ∧
    (∀ r v e, d.target = .page r → s.cat.revision r = some v → v.state = .filling → s.cat.edition r.edition = some e →
      (∃ ps, t.cat.edition r.edition = some { e with
        pages := ps, filling := e.filling - 1, state := if e.state = .closing ∧ e.filling ≤ 1 then .closed else e.state }) ∧
      ∀ src, s.production.notices.sources[2]? = some src → t.production.notices.sources[2]? =
        some (if e.state = .closing ∧ e.filling ≤ 1 then { src with latched := true } else src)) ∧
    (∀ b, s.port.buffer = some b → b.handle = d.handle → t.port.buffer = none ∧ t.store.outstanding .deposit = false ∧
      t.store.waiting = s.store.waiting.filter (fun y => y.client ≠ .deposit) ∧
      (∀ y, s.store.inFlight = some y → y.client = .deposit →
        t.store.inFlight = none ∧ t.store.withdrawn = some y) ∧
      ((∀ y, s.store.inFlight = some y → y.client ≠ .deposit) →
        t.store.inFlight = s.store.inFlight ∧ t.store.withdrawn = s.store.withdrawn)) ∧
    ((∀ b, s.port.buffer = some b → b.handle ≠ d.handle) → t.port.buffer = s.port.buffer ∧ t.store = s.store) ∧
    t.store.mem = s.store.mem ∧ t.book = s.book ∧ t.meter = s.meter ∧ t.engine = s.engine ∧ t.table = s.table ∧
    (o = .timedOut → ∀ src, s.production.notices.sources[1]? = some src →
      (t.production.notices.sources[1]?).map (·.latched) = some true)

/-! ## Settings (chapters 2, 3, 4, 6, 7, 9) -/

/-- SET_LOW_WATER with a mark of at most 524,288 puts it in force, SPACE_LOW then holds exactly while the free total is below
it, and the reply is OK with the mark before; a greater mark is refused BAD_RANGE. After every start the mark is 4,096
(R57). -/
def Obligations.SetLowWater : Prop :=
  (∀ (tag : Byte) (ps : List Word) (fs : Fields) (n : Nat) (s s₁ : State),
    Taken .production (requestOf tag 0x1A ps) [.two] fs s s₁ → fs.nat 0 = some n →
    (n ≤ 524288 → ∃ t : State, exec (.setLowWater .production tag ps) s =
        .next ((t.reply .production tag { result := .ok, fields := [.two s.alloc.lowWater] }).transmit .production) ∧
      t = { s₁ with alloc := { s.alloc with lowWater := n } } ∧
      (t.level .production 6 = some true ↔ (s.alloc.runs.map FreeRun.size).sum < n)) ∧
    (524288 < n → exec (.setLowWater .production tag ps) s =
      .next ((s₁.reply .production tag { result := .badRange }).transmit .production))) ∧
  (∀ (i : Instr) (s t : State), exec i s = .next t → s.power ≠ .running → t.power = .running → t.alloc.lowWater = 4096)

/-- SET_DEPOSIT_TIMEOUT, SET_PACING, SET_SURVEY and SET_DAY put the values named in force, keep the values left out and
answer OK with the values before; no timer, delivery or job changes. The first three refuse a value of 0 or above its range
BAD_RANGE and change nothing; SET_DAY takes every day (R36, R114, R129, R178). -/
def Obligations.VolatileSettings : Prop :=
  ∀ (tag : Byte) (ps : List Word) (fs : Fields) (s s₁ : State),
    (∀ n, Taken .production (requestOf tag 0x19 ps) [.one] fs s s₁ → fs.nat 0 = some n →
      (1 ≤ n → n ≤ 255 → exec (.setDepositTimeout .production tag ps) s =
        .next ((({ s₁ with port := { s.port with timeout := n } } : State).reply .production tag
          { result := .ok, fields := [.one s.port.timeout] }).transmit .production)) ∧
      (n = 0 ∨ 255 < n → exec (.setDepositTimeout .production tag ps) s =
        .next ((s₁.reply .production tag { result := .badRange }).transmit .production))) ∧
    (Taken .desk (requestOf tag 0x34 ps) [.one, .one] fs s s₁ →
      ((∀ p, fs.nat 0 = some p → 1 ≤ p ∧ p ≤ 255) → (∀ d, fs.nat 1 = some d → 1 ≤ d ∧ d ≤ 15) →
        exec (.setPacing .desk tag ps) s =
          .next ((({ s₁ with table := { s.table with period := (fs.nat 0).getD s.table.period
                                                     depth := (fs.nat 1).getD s.table.depth } } : State).reply .desk tag
            { result := .ok, fields := [.one s.table.period, .one s.table.depth] }).transmit .desk)) ∧
      ((∃ p, fs.nat 0 = some p ∧ (p = 0 ∨ 255 < p)) ∨ (∃ d, fs.nat 1 = some d ∧ (d = 0 ∨ 15 < d)) →
        exec (.setPacing .desk tag ps) s = .next ((s₁.reply .desk tag { result := .badRange }).transmit .desk))) ∧
    (Taken .desk (requestOf tag 0x38 ps) [.one, .one, .one, .one] fs s s₁ →
      ((∀ i v, i < 4 → fs.nat i = some v → 1 ≤ v ∧ v ≤ if i = 2 then 40 else 255) →
        exec (.setSurvey .desk tag ps) s =
          .next ((({ s₁ with engine := { s.engine with settings :=
              { edge := (fs.nat 0).getD s.engine.settings.edge, contrast := (fs.nat 1).getD s.engine.settings.contrast
                fadeRun := (fs.nat 2).getD s.engine.settings.fadeRun
                voidLimit := (fs.nat 3).getD s.engine.settings.voidLimit } } } : State).reply .desk tag
            { result := .ok, fields := [.one s.engine.settings.edge, .one s.engine.settings.contrast,
                .one s.engine.settings.fadeRun, .one s.engine.settings.voidLimit] }).transmit .desk)) ∧
      ((∃ i v, i < 4 ∧ fs.nat i = some v ∧ (v = 0 ∨ (if i = 2 then 40 else 255) < v)) →
        exec (.setSurvey .desk tag ps) s = .next ((s₁.reply .desk tag { result := .badRange }).transmit .desk))) ∧
    (∀ n, Taken .sales (requestOf tag 0x5E ps) [.one] fs s s₁ → fs.nat 0 = some n →
      exec (.setDay .sales tag ps) s =
        .next ((({ s₁ with meter := { s.meter with day := n } } : State).reply .sales tag
          { result := .ok, fields := [.one s.meter.day] }).transmit .sales))

/-- SET_STORE with a threshold up to 255 and a burst length of 1..16 puts the values named in force and answers OK with the
two values before; an ACTIVE store that has been idle for a new nonzero threshold, with no FIXED delivery and no burst, is
QUIET at once, and otherwise the settings alone change: the interval of the refresh timer that runs is kept, and a burst
served from now on has the new length, which is how log 45 reads R71 beside R80. A value out of range is refused BAD_RANGE
(R71, R80). -/
def Obligations.SetStore : Prop :=
  ∀ (tag : Byte) (ps : List Word) (fs : Fields) (threshold burst : Nat) (s s₁ : State),
    Taken .production (requestOf tag 0x1C ps) [.one, .one] fs s s₁ →
    threshold = (fs.nat 0).getD s.store.quietThreshold → burst = (fs.nat 1).getD s.store.burstLength →
    ((∀ v, fs.nat 0 = some v → v ≤ 255) → (∀ v, fs.nat 1 = some v → 1 ≤ v ∧ v ≤ 16) →
      ∃ t : State, exec (.setStore .production tag ps) s = .next ((t.reply .production tag
          { result := .ok, fields := [.one s.store.quietThreshold, .one s.store.burstLength] }).settle) ∧
        t = { s₁ with store := t.store } ∧
        (∀ since, s.store.idle = true → s.store.idleSince = some since → threshold ≠ 0 → s.store.fixedCount = 0 →
          s.store.burst = none → since + threshold * 50 ≤ s.now →
          t.store = { s.store with
            quietThreshold := threshold, burstLength := burst, state := .quiet, selfRefresh := true, debt := 0
            halted := false, refreshDue := none, idleSince := none }) ∧
        (s.store.idle = false ∨ threshold = 0 ∨ s.store.fixedCount ≠ 0 ∨ s.store.burst ≠ none ∨
          (∀ since, s.store.idleSince = some since → s.now < since + threshold * 50) →
          t.store = { s.store with quietThreshold := threshold, burstLength := burst })) ∧
    ((∃ v, fs.nat 0 = some v ∧ 255 < v) ∨ (∃ v, fs.nat 1 = some v ∧ (v = 0 ∨ 16 < v)) →
      exec (.setStore .production tag ps) s = .next ((s₁.reply .production tag { result := .badRange }).settle))

/-! ## The store arbiter, refresh and quiet (chapter 4) -/

/-- The choice of the arbiter of an ACTIVE store with no transfer in flight, withdrawn or not, and no burst: at debt 8 or
halted a burst, with a halt counted when it begins; at 4 to 7 a burst; at 1 to 3 with nothing waiting a burst; at 0 with
nothing waiting nothing; else a grant to the first waiting client from the grant pointer on, after which the pointer names
the next client and every other waiting client stands nearer to it. Otherwise nothing is chosen. A client that withdraws
leaves the arbiter; its transfer in flight runs on, withdrawn, and until it ends nothing is granted and the store is not
idle. At the end of a step this choice alone is made, besides the idle time (R69, R70, R72, R73, R77, log 9). -/
def Obligations.ArbiterChoice : Prop :=
  (∀ st : Store, st.state = .active → st.inFlight = none → st.withdrawn = none → st.burst = none →
    (st.halted = true → st.choose = { st with burst := some st.burstLength }) ∧
    (st.halted = false → 8 ≤ st.debt → st.choose =
      { st with halted := true, haltCount := min (st.haltCount + 1) 65535, burst := some st.burstLength }) ∧
    (st.halted = false → 4 ≤ st.debt → st.debt ≤ 7 → st.choose = { st with burst := some st.burstLength }) ∧
    (st.halted = false → 1 ≤ st.debt → st.debt ≤ 3 → st.waiting = [] → st.choose = { st with burst := some st.burstLength }) ∧
    (st.halted = false → st.debt = 0 → st.waiting = [] → st.choose = st) ∧
    (st.halted = false → st.debt ≤ 3 → st.waiting ≠ [] → ∃ x ∈ st.waiting,
      st.choose = { st with inFlight := some x, waiting := st.waiting.filter (fun y => y.client ≠ x.client)
                            pointer := x.client.next } ∧
      ∀ y ∈ st.waiting, y.client ≠ x.client →
        st.pointer.cycle.idxOf x.client < st.pointer.cycle.idxOf y.client ∧
        x.client.next.cycle.idxOf y.client < st.pointer.cycle.idxOf y.client)) ∧
  (∀ st : Store, st.state ≠ .active ∨ st.inFlight ≠ none ∨ st.withdrawn ≠ none ∨ st.burst ≠ none → st.choose = st) ∧
  (∀ (st : Store) (c : Client),
    (∀ y, st.inFlight = some y → y.client = c → st.withdraw c =
      { st with inFlight := none, withdrawn := some y, waiting := st.waiting.filter (fun y => y.client ≠ c) }) ∧
    ((∀ y, st.inFlight = some y → y.client ≠ c) →
      st.withdraw c = { st with waiting := st.waiting.filter (fun y => y.client ≠ c) })) ∧
  (∀ st : Store, st.idle = true ↔
    st.state = .active ∧ st.inFlight = none ∧ st.withdrawn = none ∧ st.waiting = []) ∧
  (∀ s : State, s.settle.store = { s.store.choose with idleSince := s.settle.store.idleSince })

/-- When the refresh timer falls due the debt rises by 1 up to 8 and the next due moment is one burst length of 7.8 µs later;
a debt that reaches 8 halts transfers at once, with a transfer or a burst in progress too, and the halt is counted up to
65,535. When a burst ends the debt falls by 1, and a halt ends at debt 0; a store whose idle time reached the threshold
during the burst is then QUIET (R71, R72, R73, R77, log 3, log 4, log 21). -/
def Obligations.RefreshAndBursts : Prop :=
  ∀ s : State, s.power = .running →
    (∀ due, s.store.refreshDue = some due → exec .refreshDue s =
      .next (({ s with now := max s.now due, store := { s.store with
        debt := min (s.store.debt + 1) 8, refreshDue := some (due + s.store.burstLength * 39)
        halted := s.store.halted || decide (7 ≤ s.store.debt)
        haltCount := if 7 ≤ s.store.debt ∧ s.store.halted = false then min (s.store.haltCount + 1) 65535
          else s.store.haltCount } } : State).settle)) ∧
    (∀ n, s.store.burst = some n →
      (∀ since, s.store.idle = true → s.store.idleSince = some since → s.store.quietThreshold ≠ 0 → s.store.fixedCount = 0 →
        since + s.store.quietThreshold * 50 ≤ s.now → exec .burstEnd s =
        .next (({ s with store := { s.store with
          burst := none, state := .quiet, selfRefresh := true, debt := 0, halted := false, refreshDue := none
          idleSince := none } } : State).settle)) ∧
      (s.store.idle = false ∨ s.store.quietThreshold = 0 ∨ s.store.fixedCount ≠ 0 ∨
        (∀ since, s.store.idleSince = some since → s.now < since + s.store.quietThreshold * 50) → exec .burstEnd s =
        .next (({ s with store := { s.store with
          burst := none, debt := s.store.debt - 1, halted := s.store.halted && decide (1 < s.store.debt) } } : State).settle)))

/-- An ACTIVE store that is idle, with a nonzero threshold and no FIXED delivery, is QUIET when its idle time reaches the
threshold: self-refresh, no refresh timer, debt 0; during a burst only the clock moves on. A transfer asked for in QUIET
starts a WAKING of 20 µs, at whose end the store is ACTIVE with debt 0 and the timer one interval ahead. A store with a FIXED
delivery does not enter QUIET (R71, R77, R78, R79, log 3, log 4, log 21). -/
def Obligations.QuietAndWaking : Prop :=
  (∀ (s : State) (since : Nat), s.power = .running → s.store.idle = true → s.store.quietThreshold ≠ 0 →
    s.store.fixedCount = 0 → s.store.idleSince = some since →
    (s.store.burst = none → exec .enterQuiet s =
      .next (({ s with now := max s.now (since + s.store.quietThreshold * 50), store := { s.store with
        state := .quiet, selfRefresh := true, debt := 0, halted := false, refreshDue := none
        idleSince := none } } : State).settle)) ∧
    (s.store.burst ≠ none → exec .enterQuiet s =
      .next (({ s with now := max s.now (since + s.store.quietThreshold * 50) } : State).settle))) ∧
  (∀ (now : Nat) (x : Transfer) (st : Store), st.state = .quiet → st.ask now x =
    { st with state := .waking, selfRefresh := false, wakeEnds := some (now + 100), waiting := st.waiting ++ [x]
              idleSince := none }) ∧
  (∀ (s : State) (moment : Nat), s.power = .running → s.store.state = .waking → s.store.wakeEnds = some moment →
    exec .wakeTimeEnds s = .next (({ s with now := max s.now moment, store := { s.store with
      state := .active, debt := 0, wakeEnds := none, refreshDue := some (max s.now moment + s.store.burstLength * 39)
      idleSince := none } } : State).settle)) ∧
  (∀ (now : Nat) (st : Store), st.fixedCount ≠ 0 → st.quietIfDue now = st)

/-! ## The allocator and its compaction (chapter 3) -/

/-- Free runs in order, none empty, no two touching and all inside the store stay so when slots outside them are returned and
when slots inside one of them are taken; then exactly those slots more, or fewer, are free, and the free total changes by
their number. An allocation without a move in flight takes the lowest run that is large enough; with a move in flight it
takes the lowest free slots that leave the move's target alone. A release returns a FILLING or BUILDING extent, and a LIVE
one without readers; it makes a LIVE one with readers RELEASING and sets the release-pending mark of a MOVING one. The last
reader's end returns a RELEASING extent (R50 to R55). -/
def Obligations.FreeRuns : Prop :=
  (∀ (a : Allocator) (n : Nat) (e : Extent), a.find n = some e →
    (e.state = .filling ∨ e.state = .building ∨ e.state = .live ∧ e.readers = 0 → a.Returned n e (a.release n)) ∧
    (e.state = .live → e.readers ≠ 0 → a.Rewritten n { e with state := .releasing } (a.release n)) ∧
    (e.state = .moving → a.Rewritten n { e with releasePending := true } (a.release n)) ∧
    (e.state = .releasing → a.release n = a)) ∧
  (∀ (s : State) (n : Nat) (e : Extent), s.alloc.find n = some e → e.state = .releasing → e.readers = 1 →
    s.readerEnd n = { s with alloc := (s.readerEnd n).alloc } ∧ s.alloc.Returned n e (s.readerEnd n).alloc) ∧
  ∀ (n : Nat) (runs : List FreeRun) (a k : Nat), runsSound n runs → 0 < k → a + k ≤ n →
    ((∀ slot, a ≤ slot → slot < a + k → ¬ slotFree runs slot) →
      runsSound n (giveSlots a k runs) ∧
      (∀ slot, slotFree (giveSlots a k runs) slot ↔ slotFree runs slot ∨ (a ≤ slot ∧ slot < a + k)) ∧
      ((giveSlots a k runs).map FreeRun.size).sum = (runs.map FreeRun.size).sum + k) ∧
    ((∃ r ∈ runs, r.first ≤ a ∧ a + k ≤ r.first + r.size) →
      runsSound n (takeSlots a k runs) ∧
      (∀ slot, slotFree (takeSlots a k runs) slot ↔ slotFree runs slot ∧ ¬ (a ≤ slot ∧ slot < a + k)) ∧
      ((takeSlots a k runs).map FreeRun.size).sum + k = (runs.map FreeRun.size).sum) ∧
    (∀ (x : Allocator) (m : Move) (e : Extent) (first : Nat), x.runs = runs → x.compaction.move = some m →
      x.find m.extent = some e → (∃ r ∈ runs, r.first ≤ m.target ∧ m.target + e.size ≤ r.first + r.size) →
      x.place k = .ok first →
      (∃ r ∈ runs, r.first ≤ first ∧ first + k ≤ r.first + r.size) ∧ (first + k ≤ m.target ∨ m.target + e.size ≤ first) ∧
      ∀ b, b < first → (∃ r ∈ runs, r.first ≤ b ∧ b + k ≤ r.first + r.size) → b < m.target + e.size ∧ m.target < b + k) ∧
    (∀ x : Allocator, x.runs = runs → x.compaction.move = none → x.extents.length < 32768 →
      (∀ first, x.place k = .ok first → (∃ r ∈ runs, r.first = first ∧ k ≤ r.size) ∧
        ∀ r ∈ runs, r.first < first → r.size < k) ∧
      ((∀ r ∈ runs, r.size < k) → x.place k = .error (.noSpace (decide (k ≤ (runs.map FreeRun.size).sum)))))

/-- COMPACT of 1 to 64 moves while no compaction runs, with the work queue empty: with no IDLE channel its copy request
waits; with an IDLE channel the search is made at once, and it either finds nothing and ends the compaction with COMPACT_DONE
pending, or starts the move on the lowest IDLE channel, whose first read is asked for. The search takes the lowest free run
whose upper neighbour is LIVE, without readers and no larger than the run, where every run below has an upper neighbour. A
count outside 1 to 64 is refused BAD_RANGE, also while a compaction runs, and any other COMPACT then IN_USE (R58, R59, R60,
R62, R97, log 34). -/
def Obligations.Compact : Prop :=
  (∀ (tag : Byte) (ps : List Word) (fs : Fields) (n : Nat) (s s₁ : State),
    Taken .production (requestOf tag 0x1B ps) [.one] fs s s₁ → fs.nat 0 = some n →
    (n = 0 ∨ 64 < n → exec (.compact .production tag ps) s =
      .next ((s₁.reply .production tag { result := .badRange }).settle)) ∧
    (1 ≤ n → n ≤ 64 → s.alloc.compaction.state ≠ .idle → exec (.compact .production tag ps) s =
      .next ((s₁.reply .production tag { result := .inUse }).settle)) ∧
    (1 ≤ n → n ≤ 64 → s.alloc.compaction.state = .idle → s.mover.queue = [] →
      ((∀ c, (s.channel c).state ≠ .idle) → exec (.compact .production tag ps) s =
        .next ((({ s₁ with
          alloc := { s.alloc with compaction := { s.alloc.compaction with state := .waiting, asked := n, made := 0, stop := false } }
          mover := { s.mover with copyRequest := true } } : State).reply .production tag { result := .ok }).settle)) ∧
      (∀ c, (s.channel c).state = .idle → (∀ b, b < c → (s.channel b).state ≠ .idle) →
        (searchMove s.alloc.extents s.alloc.runs = none → exec (.compact .production tag ps) s =
          .next (((({ s₁ with
            alloc := { s.alloc with compaction := { s.alloc.compaction with
              state := .idle, asked := n, made := 0, stop := false, move := none, outcome := .nothingMovable, outcomeMade := 0 } }
            mover := { s.mover with copyRequest := false } } : State).raise .compactDone).reply .production tag
              { result := .ok }).settle)) ∧
        (∀ e f, searchMove s.alloc.extents s.alloc.runs = some (e, f) → s.alloc.find e.number = some e →
          ∃ t : State, exec (.compact .production tag ps) s = .next ((t.reply .production tag { result := .ok }).settle) ∧
            t = { s₁ with alloc := t.alloc, mover := t.mover, store := t.store } ∧
            t.alloc = { s.alloc with
              extents := t.alloc.extents
              compaction := { s.alloc.compaction with
                state := .copying, asked := n, made := 0, stop := false
                move := some { extent := e.number, oldFirst := e.first, target := f.first, copied := 0 } } } ∧
            t.alloc.find e.number = some { e with state := .moving } ∧
            (∀ m, m ≠ e.number → t.alloc.find m = s.alloc.find m) ∧
            t.channel c = { state := .running, work := some .copy, terminal := e.size
                            buffer := [{ state := .reading, index := 0 }] } ∧
            (∀ b, b ≠ c → t.channel b = s.channel b) ∧ t.mover.copyRequest = false ∧
            t.store.waiting = s.store.waiting ++ [⟨.channel c, e.first, .read⟩] ∧ t.store.mem = s.store.mem)))) ∧
  (∀ (es : List Extent) (runs : List FreeRun) (e : Extent) (f : FreeRun), searchMove es runs = some (e, f) →
    e ∈ es ∧ e.first = f.first + f.size ∧ e.state = .live ∧ e.readers = 0 ∧ e.size ≤ f.size ∧
    ∃ below above, runs = below ++ f :: above ∧ ∀ g ∈ below, ∃ x ∈ es, x.first = g.first + g.size ∧
      (x.state ≠ .live ∨ x.readers ≠ 0 ∨ g.size < x.size))

/-- A copy's read completes: its tile is written on to the target at the same index with the check word it was read with,
even when it is damaged, and a damaged tile is recorded. A copy's write completes: the slot holds the tile and every other
slot reads as before; with tiles left the counts move on and the next tile is read; at the last one the extent lies at the
target, its old slots are free, and the compaction ends when its stop mark is set or its moves are made. An extent with the
release-pending mark is then returned, or RELEASING when it has readers. The bytes a read finds changed are log 7 (R60, R61,
R62, R69, R75, R97). -/
def Obligations.CopyCompletes : Prop :=
  ∀ (c : Fin 4) (slot : Nat) (m : Move) (s : State), s.power = .running → (s.channel c).work = some .copy →
    s.alloc.compaction.move = some m → slot < s.store.slotCount →
    (∀ (upset : List Upset) (x : Tile), s.store.inFlight = some ⟨.channel c, slot, .read⟩ →
      x = Memory.readSlot (Memory.upset s.store.mem slot upset) slot →
      ∃ t : State, exec (.copyReadComplete upset) s = .next t.settle ∧
        t.store.mem = Memory.upset s.store.mem slot upset ∧ t.store.inFlight = none ∧
        t.store.waiting = s.store.waiting ++ [⟨.channel c, m.target + (s.channel c).nextCopy, .write x.bytes (some x.check)⟩] ∧
        t.store.damagedReads = (if checkBytes x.bytes = x.check then s.store.damagedReads
          else min (s.store.damagedReads + 1) 65535) ∧
        t.channel c = { s.channel c with buffer := [{ state := .writing, index := (s.channel c).nextCopy, tile := some x
                                                      damaged := decide (checkBytes x.bytes ≠ x.check) }] } ∧
        (∀ b, b ≠ c → t.channel b = s.channel b) ∧
        (checkBytes x.bytes = x.check → t = { s with store := t.store, mover := t.mover }) ∧
        (checkBytes x.bytes ≠ x.check → s.DamageRecorded slot .copy t) ∧
        t.alloc = s.alloc ∧ t.book = s.book ∧ t.meter = s.meter ∧ t.engine = s.engine ∧ t.port = s.port ∧ t.table = s.table) ∧
    (∀ (bytes : List Byte) (check : Word), s.store.inFlight = some ⟨.channel c, slot, .write bytes (some check)⟩ →
      bytes.length = 4096 →
      (2 ≤ (s.channel c).terminal → ∃ t : State, exec .copyWriteComplete s = .next t.settle ∧
        t = { s with store := t.store, mover := t.mover, alloc := { s.alloc with compaction :=
          { s.alloc.compaction with move := some { m with copied := m.copied + 1 } } } } ∧
        Memory.readSlot t.store.mem slot = ⟨bytes, check⟩ ∧
        (∀ other, other ≠ slot → Memory.readSlot t.store.mem other = Memory.readSlot s.store.mem other) ∧
        t.store.waiting = s.store.waiting ++ [⟨.channel c, m.oldFirst + ((s.channel c).nextCopy + 1), .read⟩] ∧
        t.channel c = { s.channel c with
          nextCopy := (s.channel c).nextCopy + 1, terminal := (s.channel c).terminal - 1
          buffer := [{ state := .reading, index := (s.channel c).nextCopy + 1 }] } ∧
        ∀ b, b ≠ c → t.channel b = s.channel b) ∧
      (∀ e gone, (s.channel c).terminal = 1 → s.alloc.find m.extent = some e →
        gone = (e.releasePending && decide (e.readers = 0)) → s.mover.queue = [] →
        s.mover.copyRequest = false → s.engine.queue = [] →
        (s.alloc.compaction.stop = true ∨ s.alloc.compaction.made + 1 = s.alloc.compaction.asked) →
        ∃ t : State, exec .copyWriteComplete s = .next t.settle ∧
          t = { s with store := t.store, mover := t.mover, alloc := t.alloc, production := t.production } ∧
          Memory.readSlot t.store.mem slot = ⟨bytes, check⟩ ∧
          (∀ other, other ≠ slot → Memory.readSlot t.store.mem other = Memory.readSlot s.store.mem other) ∧
          (∀ runs, runs = giveSlots m.oldFirst e.size (takeSlots m.target e.size s.alloc.runs) →
            t.alloc.runs = if gone then giveSlots m.target e.size runs else runs) ∧
          t.alloc.find m.extent = (if gone then none else some { e with
            first := m.target, releasePending := false, state := if e.releasePending then .releasing else .live }) ∧
          (∀ x, x ≠ m.extent → t.alloc.find x = s.alloc.find x) ∧
          t.alloc.compaction = { s.alloc.compaction with
            state := .idle, move := none, made := s.alloc.compaction.made + 1, outcomeMade := s.alloc.compaction.made + 1
            outcome := if s.alloc.compaction.stop then .stopped else .done } ∧
          t.channel c = {} ∧ (∀ b, b ≠ c → t.channel b = s.channel b) ∧
          t.production = (if s.alloc.compaction.stop then s else s.raise .compactDone).production))

/-! ## Walks and retrieval (chapters 5 and 6) -/

/-- A walk names, over its lines and places, every tile of a selected column and a selected row exactly once, ceil(w/s) by
ceil(h/s) tiles, and its position goes through them line by line. A line of a ROWS walk is a row and of a COLUMNS walk a
column; FORWARD begins with the lowest, BACKWARD with the highest selected one. A region left out is the whole image; one
given is refused exactly when it has no width or no height or its corner lies outside the image, and is else clipped to the
smaller of its size and what the image has from its corner on, with CLIPPED when that is less than asked for (R88, R89,
R103). -/
def Obligations.WalkCoversRegion : Prop :=
  (∀ (w : Walk) (W : Nat), 1 ≤ w.step → w.region.x0 + w.region.w ≤ W →
    w.lines * w.places = w.columnCount * w.rowCount ∧ w.count = w.columnCount * w.rowCount ∧
    (∀ n, n < w.columnCount ↔ w.step * n < w.region.w) ∧ (∀ n, n < w.rowCount ↔ w.step * n < w.region.h) ∧
    (∀ line place, line < w.lines → place < w.places → ∃ i j, i < w.columnCount ∧ j < w.rowCount ∧
      w.tileAt W line place = some ((w.region.y0 + w.step * j) * W + (w.region.x0 + w.step * i)) ∧
      i = (let n := if w.columns then line else place; if w.xBack then w.columnCount - 1 - n else n) ∧
      j = (let n := if w.columns then place else line; if w.yBack then w.rowCount - 1 - n else n)) ∧
    (∀ i j, i < w.columnCount → j < w.rowCount → ∃ line place, line < w.lines ∧ place < w.places ∧
      w.tileAt W line place = some ((w.region.y0 + w.step * j) * W + (w.region.x0 + w.step * i)) ∧
      ∀ line' place', line' < w.lines → place' < w.places → w.tileAt W line' place' = w.tileAt W line place →
        line' = line ∧ place' = place) ∧
    (∀ line place, w.lines ≤ line → w.tileAt W line place = none) ∧
    (0 < w.places → ∀ k, Nat.repeat (fun p : Nat × Nat => w.advance p.1 p.2) k (0, 0) = (k / w.places, k % w.places))) ∧
  (∀ (W H : Nat) (r : Region), clipRegion W H none = some (⟨0, 0, W, H⟩, false) ∧
    (clipRegion W H (some r) = none ↔ r.w = 0 ∨ r.h = 0 ∨ W ≤ r.x0 ∨ H ≤ r.y0) ∧
    ∀ (q : Region) (clipped : Bool), clipRegion W H (some r) = some (q, clipped) →
      q = ⟨r.x0, r.y0, min r.w (W - r.x0), min r.h (H - r.y0)⟩ ∧
      1 ≤ q.w ∧ 1 ≤ q.h ∧ q.x0 + q.w ≤ W ∧ q.y0 + q.h ≤ H ∧ (clipped = true ↔ q.w < r.w ∨ q.h < r.h))

/-- A read that passes its checks: READ_PAGE and READ_PHOTO, each as a desk view and as a fulfilment read, whose rendition
and walk come from its item. The reply is ACCEPTED with the next free handle, rendition, region and tile count; the delivery
record carries target, rendition, extent, walk, pacing and the figures captured; the item is IN_DELIVERY and its order counts
it. A reader is taken on the extent. With no channel IDLE, or with its extent MOVING and every delivery before it waiting for
a move, the delivery waits at the end of the work queue, and nothing else changes. With a channel IDLE, its extent not MOVING
and no delivery before it that can start, it is RUNNING on the lowest IDLE channel: the terminal count is the tile count of
the walk, the FIXED count is one higher for a FIXED one, its period count stands at 1 (log 31), the first tile of the walk is
READING, the store is asked for its slot, and nothing else changes. A fulfilment read is accepted whatever rendition and walk
fields it gives, since they are not read (R100; that check 1 of Table 6-3 does not reach them is log 30). READ_PHOTO with a
rendition other than RAW is BAD_VALUE in both kinds (R86, R87, R90, R91, R100, R101, R104, R106 to R109). -/
def Obligations.ReadAccepted : Prop :=
  (∀ (tag : Byte) (ps : List Word) (fs : Fields) (id w : Nat) (s s₁ : State),
    Taken .desk (requestOf tag 0x31 ps) readPhotoLayout fs s s₁ → fs.nat 0 = some id → fs.nat 1 = some w → w ≠ 0 →
    exec (.readPhoto .desk tag ps) s = .next ((s₁.reply .desk tag { result := .badValue }).settle)) ∧
  ∀ (tag : Byte) (ps : List Word) (fs : Fields) (h base : Nat) (i : Instr) (r : Read) (s s₁ : State) (d : Delivery),
    h = nextFree 255 s.table.handleInUse 9 s.table.lastHandle → s.table.records.length < 8 →
    r.fixed = decide (fs.nat (base + 6) = some 1) → (∀ m, fs.nat (base + 6) = some m → m ≤ 1) →
    d = { handle := h, target := r.target, rendition := r.rendition, extent := r.extent, walk := r.walk
          imageWidth := r.imageWidth, pacing := if r.fixed then some ⟨s.table.period, s.table.depth⟩ else none
          order := r.order, figures := r.order.map fun o => s.figuresOf r.target o.1 r.repeated
          state := .waiting, channel := none, sent := 0, damaged := 0, fills := 0, cause := none } →
    ((∃ ed pg name v region, base = 3 ∧ i = .readPage .desk tag ps ∧ Taken .desk (requestOf tag 0x30 ps) readPageLayout fs s s₁ ∧
        fs.nat 0 = some ed ∧ fs.nat 1 = some pg ∧ pageNameInRange ed pg (fs.nat 2) = true ∧
        s.cat.resolve ed pg (fs.nat 2) = .ok (name, v) ∧ fs.nat 10 = none ∧ fs.nat 11 = none ∧
        fs.inRange 3 0 2 = true ∧ fs.walkInRange 4 = true ∧ clipRegion v.width v.height (fs.region 4) = some (region, r.clipped) ∧
        r.target = .page name ∧ r.imageWidth = v.width ∧ r.walk = fs.walk 4 region ∧ r.order = none ∧ r.repeated = false ∧
        ((fs.nat 3 = some 0 ∨ (fs.nat 3 ≠ some 1 ∧ v.restored = none)) ∧ r.rendition = .raw ∧ r.extent = v.raw ∨
          ∃ x, fs.nat 3 ≠ some 0 ∧ v.restored = some x ∧ r.rendition = .restored ∧ r.extent = x.extent)) ∨
      (∃ id p region, base = 1 ∧ i = .readPhoto .desk tag ps ∧ Taken .desk (requestOf tag 0x31 ps) readPhotoLayout fs s s₁ ∧
        fs.nat 0 = some id ∧ 1 ≤ id ∧ s.cat.photo id = some p ∧ p.state = .complete ∧ fs.nat 8 = none ∧ fs.nat 9 = none ∧
        fs.inRange 1 0 0 = true ∧ fs.walkInRange 2 = true ∧ clipRegion p.width p.height (fs.region 2) = some (region, r.clipped) ∧
        r.target = .photo id ∧ r.imageWidth = p.width ∧ r.walk = fs.walk 2 region ∧ r.order = none ∧ r.repeated = false ∧
        r.rendition = .raw ∧ r.extent = p.extent) ∨
      (∃ ed pg name v order n o it, base = 3 ∧ i = .readPage .desk tag ps ∧
        Taken .desk (requestOf tag 0x30 ps) readPageLayout fs s s₁ ∧
        fs.nat 0 = some ed ∧ fs.nat 1 = some pg ∧ pageNameInRange ed pg (fs.nat 2) = true ∧
        s.cat.resolve ed pg (fs.nat 2) = .ok (name, v) ∧ fs.nat 10 = some order ∧ fs.nat 11 = some n ∧ 1 ≤ order ∧ 1 ≤ n ∧
        n ≤ 16 ∧ s.book.order order = some o ∧ o.state = .opened ∧ o.item n = some it ∧ it.target = .page name ∧
        (it.state = .ready ∨ it.state = .delivered) ∧ (∀ a, s.book.account o.account = some a → a.status ≠ .cutOff) ∧
        (s.meter.tariff (s.cat.classOf (.page name))).set = true ∧
        r.target = .page name ∧ r.imageWidth = v.width ∧ r.walk = it.walk ∧ r.clipped = false ∧ r.order = some (order, n) ∧
        r.repeated = decide (it.state = .delivered) ∧ r.rendition = it.finish ∧
        (it.finish = .raw ∧ r.extent = v.raw ∨ ∃ x, it.finish = .restored ∧ v.restored = some x ∧ r.extent = x.extent)) ∨
      (∃ id p order n o it, base = 1 ∧ i = .readPhoto .desk tag ps ∧ Taken .desk (requestOf tag 0x31 ps) readPhotoLayout fs s s₁ ∧
        fs.nat 0 = some id ∧ 1 ≤ id ∧ s.cat.photo id = some p ∧ p.state = .complete ∧ fs.inRange 1 0 0 = true ∧
        fs.nat 8 = some order ∧ fs.nat 9 = some n ∧ 1 ≤ order ∧ 1 ≤ n ∧ n ≤ 16 ∧ s.book.order order = some o ∧
        o.state = .opened ∧ o.item n = some it ∧ it.target = .photo id ∧ (it.state = .ready ∨ it.state = .delivered) ∧
        (∀ a, s.book.account o.account = some a → a.status ≠ .cutOff) ∧
        (s.meter.tariff (s.cat.classOf (.photo id))).set = true ∧
        r.target = .photo id ∧ r.imageWidth = p.width ∧ r.walk = it.walk ∧ r.clipped = false ∧ r.order = some (order, n) ∧
        r.repeated = decide (it.state = .delivered) ∧ it.finish = .raw ∧ r.rendition = .raw ∧ r.extent = p.extent)) →
    s.table.find h = none ∧
    ∃ t : State, exec i s = .next ((t.reply .desk tag
        { result := .accepted, clipped := r.clipped, repeated := r.repeated
          fields := [.one h, .one r.rendition.code, .many [r.walk.region.x0, r.walk.region.y0, r.walk.region.w, r.walk.region.h],
            .one r.walk.count] }).settle) ∧
      (∃ x, t.table.find h = some x ∧ x = { d with state := x.state, channel := x.channel } ∧
        (x.state = .waiting ∨ x.state = .running)) ∧
      (∀ other, other ≠ h → (∃ x, s.table.find other = some x) → ∃ x, t.table.find other = some x) ∧
      t.cat = s.cat ∧ t.meter = s.meter ∧ t.engine = s.engine ∧ t.port = s.port ∧ t.store.mem = s.store.mem ∧
      (r.order = none → t.book = s.book) ∧
      (∀ o n it x, r.order = some (o, n) → s.book.item o n = some it → s.book.order o = some x →
        t.book.item o n = some { it with state := .inDelivery } ∧
        (t.book.order o).map (·.inFlight) = some (x.inFlight + 1) ∧ t.book.accounts = s.book.accounts) ∧
      (s.mover.copyRequest = false ∨ (∀ c, (s.channel c).state ≠ .idle) → t.alloc = { s.alloc with extents := t.alloc.extents } ∧
        (∀ e, s.alloc.find r.extent = some e → t.alloc.find r.extent = some { e with readers := e.readers + 1 }) ∧
        ∀ m, m ≠ r.extent → t.alloc.find m = s.alloc.find m) ∧
      ((∀ c, (s.channel c).state ≠ .idle) ∨ (∃ e, s.alloc.find r.extent = some e ∧ e.state = .moving) ∧ s.QueueMoves ∧
          s.mover.copyRequest = false →
        t = { s₁ with
          table := { s.table with records := s.table.records ++ [d], lastHandle := h }
          alloc := t.alloc, mover := { s.mover with queue := s.mover.queue ++ [h] }, book := t.book }) ∧
      (∀ c e j, (s.channel c).state = .idle → (∀ b, b < c → (s.channel b).state ≠ .idle) → s.alloc.find r.extent = some e →
        e.state ≠ .moving → s.QueueMoves → s.mover.copyRequest = false →
        r.walk.tileAt r.imageWidth 0 0 = some j → s.store.outstanding (.channel c) = false →
        t = { s₁ with
          table := { s.table with records := s.table.records ++ [{ d with state := .running, channel := some c }], lastHandle := h }
          alloc := t.alloc, mover := { s.mover with channels := t.mover.channels }, book := t.book
          store := ({ s.store with fixedCount := if r.fixed then s.store.fixedCount + 1 else s.store.fixedCount } : Store).ask s.now
            ⟨.channel c, e.first + j, .read⟩ } ∧
        t.channel c = { state := .running, work := some (.delivery h), terminal := r.walk.count, started := s.now, period := 1
                        buffer := [{ state := .reading, index := j }]
                        line := (r.walk.advance 0 0).1, place := (r.walk.advance 0 0).2 } ∧
        ∀ b, b ≠ c → t.channel b = s.channel b)

/-- The read that a stopped or failed delivery withdrew ends: its data are discarded, a damaged one is recorded all the same,
and nothing else changes. A delivery's read completes: the READING place is HELD with the tile and its damaged mark, the next
tile of the walk is read into a new place while one is free and no read is asked for when all four are taken, and a VARIABLE
delivery offers its head place. A damaged tile is recorded: counted, and offered to the list of the owner of its extent, with
TILE_DAMAGED raised when the list changes. A list takes an entry that it does not hold at its end, up to 8, and then sets
DAMAGE_OVERFLOW; the owner's list alone changes. No order, account, job, deposit or extent changes. That
DELIVERY_READ_COMPLETE stands for the end of a withdrawn read too is the model's choice (log 10), and the bytes a read finds
changed are log 7 (R9, R69, R74, R75, R91, R92, R95). -/
def Obligations.DeliveryReadComplete : Prop :=
  (∀ (d : DamageList) (x : DamageEntry),
    (x ∈ d.entries → d.add x = d) ∧
    (x ∉ d.entries → d.entries.length < 8 → d.add x = { d with entries := d.entries ++ [x] }) ∧
    (x ∉ d.entries → 8 ≤ d.entries.length → d.add x = { d with overflow := true })) ∧
  (∀ (k : Catalogue) (r : RevName) (v : Revision) (i : Nat), k.revision r = some v →
    ∀ o rendition, (o = Owner.raw r ∧ rendition = .raw ∨ o = Owner.restored r ∧ rendition = .restored) →
      k.damageOf o = v.damage ∧ (k.addDamage o i).revision r = some { v with damage := v.damage.add ⟨i, rendition⟩ } ∧
      (k.addDamage o i).photos = k.photos ∧ ∀ q, q ≠ r → (k.addDamage o i).revision q = k.revision q) ∧
  (∀ (k : Catalogue) (id i : Nat) (p : Photo), k.photo id = some p → k.damageOf (.photo id) = p.damage ∧
    (k.addDamage (.photo id) i).photo id = some { p with damage := p.damage.add ⟨i, .raw⟩ } ∧
    (k.addDamage (.photo id) i).editions = k.editions ∧
    ∀ q, q ≠ id → (k.addDamage (.photo id) i).photo q = k.photo q) ∧
  (∀ (c : Fin 4) (slot : Nat) (upset : List Upset) (x : Tile) (s : State), s.power = .running →
    s.store.withdrawn = some ⟨.channel c, slot, .read⟩ → slot < s.store.slotCount →
    x = Memory.readSlot (Memory.upset s.store.mem slot upset) slot →
    ∃ t : State, exec (.deliveryReadComplete upset) s = .next t.settle ∧
      t = { s with cat := t.cat, production := t.production, store := { s.store with
        withdrawn := none, mem := Memory.upset s.store.mem slot upset
        damagedReads := t.store.damagedReads, lastDamage := t.store.lastDamage } } ∧
      (checkBytes x.bytes = x.check → t = { s with store := { s.store with
        withdrawn := none, mem := Memory.upset s.store.mem slot upset } }) ∧
      (checkBytes x.bytes ≠ x.check → s.DamageRecorded slot .delivery t)) ∧
  ∀ (c : Fin 4) (slot j : Nat) (upset : List Upset) (d : Delivery) (pre : List Place) (p : Place) (x : Tile) (s : State),
    s.power = .running → s.store.withdrawn = none → s.store.inFlight = some ⟨.channel c, slot, .read⟩ →
    slot < s.store.slotCount → (s.channel c).work = some (.delivery d.handle) → s.table.find d.handle = some d → (s.channel c).state = .running →
    (∀ y ∈ s.store.waiting, y.client ≠ .channel c) → (s.channel c).buffer = pre ++ [p] → p.state = .reading →
    (∀ q ∈ pre, q.state ≠ .reading) → x = Memory.readSlot (Memory.upset s.store.mem slot upset) slot →
    ∃ (t : State) (ch : Channel), exec (.deliveryReadComplete upset) s = .next t.settle ∧
      t.channel c = (if d.pacing.isSome then ch else ch.offerHead) ∧ (∀ b, b ≠ c → t.channel b = s.channel b) ∧
      t.store.mem = Memory.upset s.store.mem slot upset ∧ t.store.inFlight = none ∧
      t.store.damagedReads = (if checkBytes x.bytes = x.check then s.store.damagedReads
        else min (s.store.damagedReads + 1) 65535) ∧
      (checkBytes x.bytes = x.check → t = { s with store := t.store, mover := t.mover }) ∧
      (checkBytes x.bytes ≠ x.check → s.DamageRecorded slot .delivery t) ∧
      t.table = s.table ∧ t.alloc = s.alloc ∧ t.book = s.book ∧ t.meter = s.meter ∧ t.engine = s.engine ∧ t.port = s.port ∧
      (d.walk.tileAt d.imageWidth (s.channel c).line (s.channel c).place = none ∨ 3 ≤ pre.length →
        t.store.waiting = s.store.waiting ∧
        ch = { s.channel c with buffer := pre ++
          [{ state := .held, index := p.index, tile := some x, damaged := decide (checkBytes x.bytes ≠ x.check) }] }) ∧
      (∀ e, d.walk.tileAt d.imageWidth (s.channel c).line (s.channel c).place = some j → pre.length < 3 →
        s.alloc.find d.extent = some e →
        t.store.waiting = s.store.waiting ++ [⟨.channel c, e.first + j, .read⟩] ∧
        ch = { s.channel c with
          buffer := pre ++ [{ state := .held, index := p.index, tile := some x, damaged := decide (checkBytes x.bytes ≠ x.check) },
            { state := .reading, index := j }]
          line := (d.walk.advance (s.channel c).line (s.channel c).place).1
          place := (d.walk.advance (s.channel c).line (s.channel c).place).2 })

/-- A period of a RUNNING FIXED delivery begins: the clock stands at its moment at least and the period count moves on.
Before period L no frame is due. From period L on the next tile not yet offered is the frame when it is HELD and a FILL frame
with its index when it is not, a tile with no place yet by the walk; with every tile offered no frame is due. The frame is
offered at once, and with the frame before it SENDING it is chosen now and waits for that frame's end. A frame of the last
period that the link has not taken fails the delivery with LINK_LATE, at once or, with a frame of it SENDING, when that frame
ends. A fulfilment delivery that fails at once is posted with its tiles sent (R112, R113, R115, R156, R183, log 4, log 20,
log 31). -/
def Obligations.FixedPeriodBegins : Prop :=
  ∀ (c : Fin 4) (d : Delivery) (p : Pacing) (s : State), s.power = .running →
    (s.channel c).work = some (.delivery d.handle) → s.table.find d.handle = some d → d.pacing = some p →
    (s.channel c).state = .running →
    ∀ moment, moment = max s.now ((s.channel c).started + (s.channel c).period * (p.period * 500)) →
    ((s.channel c).periodFrame = none → (s.channel c).period < p.depth → exec (.fixedPeriodBegins c.val) s =
      .next (({ s with now := moment } : State).modChannel c
        fun ch => { ch with period := ch.period + 1 }).settle) ∧
    (∀ q rest, (s.channel c).periodFrame = none → p.depth ≤ (s.channel c).period → (s.channel c).sendingFill = none →
      (∀ y ∈ (s.channel c).buffer, y.state ≠ .sending) → (s.channel c).buffer = q :: rest →
      (q.state = .held → exec (.fixedPeriodBegins c.val) s =
        .next (({ s with now := moment } : State).modChannel c fun ch => { ch with
          period := ch.period + 1, periodFrame := some { fill := none, offered := true }
          buffer := { q with state := .offered } :: rest }).settle) ∧
      (q.state ≠ .held → exec (.fixedPeriodBegins c.val) s =
        .next (({ s with now := moment } : State).modChannel c fun ch => { ch with
          period := ch.period + 1, periodFrame := some { fill := some q.index, offered := true } }).settle)) ∧
    ((s.channel c).periodFrame = none → p.depth ≤ (s.channel c).period → (s.channel c).sendingFill = none →
      (s.channel c).buffer = [] → exec (.fixedPeriodBegins c.val) s =
        .next (({ s with now := moment } : State).modChannel c fun ch => { ch with
          period := ch.period + 1
          periodFrame := (d.walk.tileAt d.imageWidth (s.channel c).line (s.channel c).place).map
            fun i => { fill := some i, offered := true } }).settle) ∧
    (∀ sent rest, (s.channel c).periodFrame = none → p.depth ≤ (s.channel c).period → (s.channel c).frameSending = true →
      (s.channel c).buffer = sent ++ rest → (∀ y ∈ sent, y.state = .sending) → (∀ q ∈ rest, q.state ≠ .sending) →
      ∀ frame : Option PeriodFrame,
        (∀ q more, rest = q :: more → q.state = .held → frame = some { fill := none, offered := false }) →
        (∀ q more, rest = q :: more → q.state ≠ .held → frame = some { fill := some q.index, offered := false }) →
        (rest = [] → frame = (d.walk.tileAt d.imageWidth (s.channel c).line (s.channel c).place).map
          fun i => { fill := some i, offered := false }) →
        exec (.fixedPeriodBegins c.val) s = .next (({ s with now := moment } : State).modChannel c
          fun ch => { ch with period := ch.period + 1, periodFrame := frame }).settle) ∧
    ((s.channel c).periodFrame ≠ none → ∃ t : State, exec (.fixedPeriodBegins c.val) s = .next t.settle ∧
      t.now = moment ∧ t.store.mem = s.store.mem ∧
      ((s.channel c).frameSending = true →
        t = { s with now := moment, store := t.store, mover := t.mover, table := t.table } ∧
        t.table.find d.handle = some { d with state := .stopping, cause := some .linkLate } ∧
        (∀ other, other ≠ d.handle → t.table.find other = s.table.find other) ∧
        (t.channel c).state = .stopping ∧ (t.channel c).periodFrame = none ∧
        (t.channel c).buffer = (s.channel c).buffer.filter (fun y => y.state = .sending) ∧
        t.store = s.store.withdraw (.channel c) ∧ t.store.outstanding (.channel c) = false) ∧
      ((s.channel c).frameSending = false → s.ChargesQuietly d d.sent → d.handle ∉ s.mover.queue →
        t.table.find d.handle = some { d with state := .failed, channel := none, cause := some .linkLate } ∧
        (t.channel c).work ≠ some (.delivery d.handle) ∧ s.SaleEnded d .failed d.sent t ∧
        (∀ src, s.desk.notices.sources[1]? = some src → (t.desk.notices.sources[1]?).map (·.latched) = some true)))

/-- STOP_DELIVERY. A WAITING delivery leaves the work queue and is STOPPED; a RUNNING one with no frame SENDING is STOPPED at
once and its channel IDLE or handed on, and with a frame SENDING it is STOPPING and issues no read; both have end cause
REQUESTED, and DELIVERY_STOPPED is pending at the end. A desk view changes no order and no account, and a fulfilment delivery
is posted with its tiles sent, its account staying in its status or falling out of WATCH. A STOPPING or final delivery stays
as it is, and a handle that no record has is BAD_VALUE. The reply gives the state the record is left in: that it is STOPPING
with the last frame of the walk SENDING too, and DONE only for a DONE record, is log 55 (R94, R107, R115, R117, R156,
R183). -/
def Obligations.StopDelivery : Prop :=
  ∀ (tag : Byte) (ps : List Word) (fs : Fields) (h : Nat) (s s₁ : State),
    Taken .desk (requestOf tag 0x32 ps) [.one] fs s s₁ → fs.nat 0 = some h →
    (s.table.find h = none →
      exec (.stopDelivery .desk tag ps) s = .next ((s₁.reply .desk tag { result := .badValue }).settle)) ∧
    (∀ d, s.table.find h = some d →
      ((d.state = .stopping ∨ d.state = .done ∨ d.state = .stopped ∨ d.state = .failed) →
        exec (.stopDelivery .desk tag ps) s =
          .next ((s₁.reply .desk tag { result := .ok, fields := [.one d.state.code] }).settle)) ∧
      (∀ c, d.state = .running → d.channel = some c → (s.channel c).frameSending = true →
        ∃ t : State, exec (.stopDelivery .desk tag ps) s =
            .next ((t.reply .desk tag { result := .ok, fields := [.one 2] }).settle) ∧
          t = { s₁ with store := t.store, mover := t.mover, table := t.table } ∧
          t.store = s.store.withdraw (.channel c) ∧ t.store.outstanding (.channel c) = false ∧
          t.table.find h = some { d with state := .stopping, cause := some .requested } ∧
          (∀ other, other ≠ h → t.table.find other = s.table.find other) ∧
          (t.channel c).state = .stopping ∧ (t.channel c).periodFrame = none ∧
          (t.channel c).buffer = (s.channel c).buffer.filter (fun y => y.state = .sending) ∧
          ∀ b, b ≠ c → t.channel b = s.channel b) ∧
      (((d.state = .waiting ∧ d.channel = none) ∨
          (∃ c, d.state = .running ∧ d.channel = some c ∧ (s.channel c).frameSending = false ∧ h ∉ s.mover.queue)) →
        s.ChargesQuietly d d.sent →
        ∃ t : State, exec (.stopDelivery .desk tag ps) s =
            .next ((t.reply .desk tag { result := .ok, fields := [.one 4] }).settle) ∧
          t.table.find h = some { d with state := .stopped, channel := none, cause := some .requested } ∧
          (∀ c, d.channel = some c → (t.channel c).work ≠ some (.delivery h) ∧
            ((t.channel c).state = .idle ∨ (t.channel c).state = .running ∧ (t.channel c).work ≠ none)) ∧
          h ∉ t.mover.queue ∧ t.store.mem = s.store.mem ∧ s.SaleEnded d .stopped d.sent t ∧ t.port = s.port ∧
          t.engine = s.engine ∧
          ∀ src, s₁.desk.notices.sources[1]? = some src → (t.desk.notices.sources[1]?).map (·.latched) = some true))

/-! ## Restoration (chapter 7) -/

/-- RESTORE_PAGE of a revision that is found. A rendition already made from the tone source gives ALREADY_RESTORED, an
overflowed damage list NOT_RESTORABLE, both changing nothing. A job of the same revision and source is joined: its desk flag
is set and a cancel mark other than RETIRED cleared. Otherwise a full queue gives QUEUE_FULL; behind an active job a QUEUED
job is appended; and on an empty queue the new job starts at once with its settings and profile captured, its scratch extent
BUILDING and a reader on the raw extent. In the reply 1 stands for joined and 0 for a new job (log 15), and the scratch
extent takes the lowest free record (log 11) (R122, R123, R125, R130). -/
def Obligations.RestorePage : Prop :=
  ∀ (tag : Byte) (ps : List Word) (fs : Fields) (ed pg code : Nat) (name : RevName) (v : Revision) (source : ToneSource)
      (s s₁ : State),
    Taken .desk (requestOf tag 0x35 ps) [.one, .one, .one, .one] fs s s₁ →
    fs.nat 0 = some ed → fs.nat 1 = some pg → fs.nat 3 = some code →
    (code = 0 ∧ source = .auto ∨ ∃ n, code = n + 1 ∧ n ≤ 31 ∧ source = .profile n) →
    1 ≤ ed → 1 ≤ pg → pg ≤ 160 → (∀ n, fs.nat 2 = some n → n ≤ 255) → s.cat.resolve ed pg (fs.nat 2) = .ok (name, v) →
    ((v.restored.map (·.source)) = some source → exec (.restorePage .desk tag ps) s =
      .next ((s₁.reply .desk tag { result := .alreadyRestored }).settle)) ∧
    ((v.restored.map (·.source)) ≠ some source → v.damage.overflow = true → exec (.restorePage .desk tag ps) s =
      .next ((s₁.reply .desk tag { result := .notRestorable }).settle)) ∧
    ((v.restored.map (·.source)) ≠ some source → v.damage.overflow = false →
      (∀ j, s.engine.queue.find? (fun j => j.revision = name && j.source = source) = some j → s.engine.find j.id = some j →
        ∃ t : State, exec (.restorePage .desk tag ps) s =
            .next ((t.reply .desk tag { result := .accepted, fields := [.one j.id, .one 1] }).settle) ∧
          t = { s₁ with engine := { s.engine with queue := t.engine.queue } } ∧
          t.engine.find j.id = some { j with desk := true, cancel := if j.cancel = some .retired then some .retired else none } ∧
          ∀ id, id ≠ j.id → t.engine.find id = s.engine.find id) ∧
      ((∀ j ∈ s.engine.queue, j.revision = name → j.source ≠ source) →
        (16 ≤ s.engine.queue.length → exec (.restorePage .desk tag ps) s =
          .next ((s₁.reply .desk tag { result := .queueFull }).settle)) ∧
        (∀ id head rest, id = nextFree 255 s.engine.idInUse 25 s.engine.lastId →
          (s.engine.queue = head :: rest → s.engine.queue.length < 16 → head.state ≠ .queued →
            exec (.restorePage .desk tag ps) s = .next ((({ s₁ with engine := { s.engine with
                queue := s.engine.queue ++ [{ id, revision := name, source, desk := true, requesters := [], state := .queued }]
                lastId := id } } : State).reply .desk tag { result := .accepted, fields := [.one id, .one 0] }).settle)) ∧
          (∀ first e, s.engine.queue = [] → s.cat.revision name = some v → s.alloc.place (v.width * v.height) = .ok first →
            s.alloc.find v.raw = some e → e.state ≠ .moving →
            (∀ y ∈ s.store.waiting, y.client ≠ .restoration) → (∀ y, s.store.inFlight = some y → y.client ≠ .restoration) →
            ∃ t : State, exec (.restorePage .desk tag ps) s =
                .next ((t.reply .desk tag { result := .accepted, fields := [.one id, .one 0] }).settle) ∧
              t = { s₁ with engine := t.engine, alloc := t.alloc, store := t.store } ∧
              s.JobStarted id name source true [] v first e t))))

/-- CANCEL_RESTORE. A job with requesters loses its desk flag and goes on; a job of the desk alone that is QUEUED is
CANCELLED and joins the ended list with end cause REQUESTED and no notice; an active one with a transfer of the restoration
port in flight is marked, and one without ends at once by the rules of a job's end, its waiting request withdrawn; one whose
desk flag is clear stays as it is; an id that no job of the queue has is BAD_VALUE. The reply gives state, cancel mark and
whether the desk flag was set (log 15). A mark RETIRED is kept over REQUESTED (log 18), and an ended record keeps its mark
(log 35) (R127, R131, R143). -/
def Obligations.CancelRestore : Prop :=
  ∀ (tag : Byte) (ps : List Word) (fs : Fields) (id : Nat) (s s₁ : State),
    Taken .desk (requestOf tag 0x36 ps) [.one] fs s s₁ → fs.nat 0 = some id →
    (s.engine.find id = none →
      exec (.cancelRestore .desk tag ps) s = .next ((s₁.reply .desk tag { result := .badValue }).settle)) ∧
    (∀ j, s.engine.find id = some j →
      (j.desk = false → exec (.cancelRestore .desk tag ps) s = .next ((s₁.reply .desk tag { result := .ok, fields :=
        [.one j.state.code, .ofOption (j.cancel.map CancelCause.code), .one 0] }).settle)) ∧
      (j.desk = true → j.requesters ≠ [] → ∃ t : State, exec (.cancelRestore .desk tag ps) s =
          .next ((t.reply .desk tag { result := .ok, fields :=
            [.one j.state.code, .ofOption (j.cancel.map CancelCause.code), .one 1] }).settle) ∧
        t = { s₁ with engine := { s.engine with queue := t.engine.queue } } ∧
        t.engine.find id = some { j with desk := false } ∧ ∀ other, other ≠ id → t.engine.find other = s.engine.find other) ∧
      (j.desk = true → j.requesters = [] → j.state = .queued → j.scratch = none →
        s.engine.ended.find? (fun x => x.id = id) = none →
        exec (.cancelRestore .desk tag ps) s = .next ((({ s₁ with engine := { s.engine with
            queue := s.engine.queue.filter (fun x => x.id ≠ id)
            ended := (if 8 ≤ s.engine.ended.length then s.engine.ended.tail else s.engine.ended) ++
              [{ j with state := .cancelled, endCause := some .requested, allocRefusal := none }] } } : State).reply .desk tag
          { result := .ok, fields := [.one 5, .ofOption (j.cancel.map CancelCause.code), .one 1] }).settle)) ∧
      (∀ y, j.desk = true → j.requesters = [] → (j.state = .surveying ∨ j.state = .correcting) →
        s.store.inFlight = some y → y.client = .restoration → ∃ t : State, exec (.cancelRestore .desk tag ps) s =
          .next ((t.reply .desk tag { result := .ok, fields :=
            [.one j.state.code, .one (if j.cancel = some .retired then 2 else 0), .one 1] }).settle) ∧
        t = { s₁ with engine := { s.engine with queue := t.engine.queue } } ∧
        t.engine.find id = some { j with cancel := if j.cancel = some .retired then some .retired else some .requested } ∧
        ∀ other, other ≠ id → t.engine.find other = s.engine.find other) ∧
      (∀ c : CancelCause, j.desk = true → j.requesters = [] → (j.state = .surveying ∨ j.state = .correcting) →
        (∀ y, s.store.inFlight = some y → y.client ≠ .restoration) →
        c = (if j.cancel = some .retired then .retired else .requested) → exec (.cancelRestore .desk tag ps) s =
          .next ((((({ s₁ with store := s.store.withdraw .restoration } : State).endJob .cancelled c.toEnd none
            { j with cancel := some c }).startNext).reply .desk tag { result := .ok, fields :=
              [.one 5, .one c.code, .one 1] }).settle)))

/-- WRITE_PROFILE of a profile up to 31 with B, W and S up to 255 and W at least B + 16 stores B, W and the smaller of S and
63 with their check word, clears REPAIRED and changes no other profile, setting or job; a value out of range is refused
BAD_VALUE, before a narrow range BAD_RANGE (log 34). A start keeps a profile whose check word matches, which a stored one's
does, and makes any other the identity profile marked REPAIRED (R145, R147). -/
def Obligations.ToneProfiles : Prop :=
  (∀ (tag : Byte) (ps : List Word) (fs : Fields) (n b w sp : Nat) (s s₁ : State),
    Taken .desk (requestOf tag 0x39 ps) [.one, .one, .one, .one] fs s s₁ →
    fs.nat 0 = some n → fs.nat 1 = some b → fs.nat 2 = some w → fs.nat 3 = some sp →
    (n ≤ 31 → b ≤ 255 → w ≤ 255 → sp ≤ 255 → b + 16 ≤ w → exec (.writeProfile .desk tag ps) s =
      .next ((({ s₁ with engine := { s.engine with
          profiles := s.engine.profiles.set n (Profile.mk (Tone.mk b w (min sp 63)) (checkValues [b, w, min sp 63]) false) } } : State).reply .desk tag
        { result := .ok, fields := [.one b, .one w, .one (min sp 63)] }).transmit .desk)) ∧
    (31 < n ∨ 255 < b ∨ 255 < w ∨ 255 < sp → exec (.writeProfile .desk tag ps) s =
      .next ((s₁.reply .desk tag { result := .badValue }).transmit .desk)) ∧
    (n ≤ 31 → b ≤ 255 → w ≤ 255 → sp ≤ 255 → w < b + 16 → exec (.writeProfile .desk tag ps) s =
      .next ((s₁.reply .desk tag { result := .badRange }).transmit .desk))) ∧
  (∀ p : Profile, (checkValues [p.tone.b, p.tone.w, p.tone.s] = p.check → p.verify = p) ∧
    (checkValues [p.tone.b, p.tone.w, p.tone.s] ≠ p.check →
      p.verify.tone = ⟨0, 255, 0⟩ ∧ p.verify.repaired = true ∧ p.verify.check = checkValues [0, 255, 0])) ∧
  (∀ p : Profile, p.verify.verify = p.verify)

/-- The tone mapping with W at least B + 16: 0 up to B, 255 from W on, and between them (v - B) x 255 / (W - B) rounded to
the nearest whole number with a half up; an output of at least 255 - S is 255. With B 0, W 255 and S 0 it is the identity,
and with B 0 and W 255 the values it changes are those from 255 - S to 254. It takes every pixel of a tile alike (R139). -/
def Obligations.ToneMapping : Prop :=
  (∀ (t : Tone) (v : Nat), t.b + 16 ≤ t.w → t.w ≤ 255 → t.s ≤ 63 → v ≤ 255 →
    (v ≤ t.b → t.stretch v = 0) ∧ (t.w ≤ v → t.stretch v = 255) ∧
    (t.b < v → v < t.w → t.stretch v = ((v - t.b) * 510 + (t.w - t.b)) / (2 * (t.w - t.b)) ∧
      2 * ((v - t.b) * 255) < (2 * t.stretch v + 1) * (t.w - t.b) ∧
      2 * (t.stretch v * (t.w - t.b)) ≤ 2 * ((v - t.b) * 255) + (t.w - t.b)) ∧
    (255 - t.s ≤ t.stretch v → t.map v = 255) ∧ (t.stretch v < 255 - t.s → t.map v = t.stretch v) ∧ t.map v ≤ 255) ∧
  (∀ v, v ≤ 255 → Tone.map ⟨0, 255, 0⟩ v = v) ∧
  (∀ sp v, sp ≤ 63 → v ≤ 255 → (Tone.map ⟨0, 255, sp⟩ v ≠ v ↔ 255 - sp ≤ v ∧ v ≤ 254)) ∧
  (∀ (t : Tone) (bs : List Byte) (i : Nat) (b : Byte), t.b + 16 ≤ t.w → t.w ≤ 255 → t.s ≤ 63 → bs[i]? = some b →
    ((t.mapTile bs)[i]?).map BitVec.toNat = some (t.map b.toNat))

/-- A survey read of the active job completes, with no cancel mark and no damage overflow. The tile joins the statistics when
neither it nor the revision's list is damaged: B falls to its minimum, W rises to its mean; a tile is faint when its range is
below the contrast floor or it is damaged. The fade detector opens a FADED_BAND at the run length, lengthens it by each tile
that is faint, and closes it at the row's end; the void detector opens a VOID_RUN at the limit and lengthens it until an
edge; the list keeps 8, and a defect past it sets DEFECTS_OVERFLOW. With tiles left the next one is read; at the last one the
job is CORRECTING with its tone values fixed, with B 0, W 255, S kept and LOW_RANGE when the range is below 16, and reads
tile 0. A damaged tile is recorded; one that the revision's full list cannot take sets DAMAGE_OVERFLOW. A job with a cancel
mark ends CANCELLED at the boundary, and one whose revision's damage list has overflowed, by this read or before it, FAILED
before the tile is taken (log 18). A job that ends without a publish returns its scratch extent, leaves the queue, gives up
its reader, makes its items READY, RAW and DOWNGRADED with ITEM_READY, and, with its desk flag set, joins the ended list with
RESTORE_FAILED unless it was cancelled by request. The bytes a read finds changed are log 7 (R9, R75, R131 to R138, R142,
R143). -/
def Obligations.SurveyReadComplete : Prop :=
  (∀ (slot : Nat) (upset : List Upset) (x : Tile) (j : Job) (rest : List Job) (v : Revision) (s : State),
    s.power = .running → s.store.inFlight = some ⟨.restoration, slot, .read⟩ → slot < s.store.slotCount →
    s.engine.queue = j :: rest → j.state = .surveying → (∀ y ∈ rest, y.id ≠ j.id) → s.cat.revision j.revision = some v →
    x = Memory.readSlot (Memory.upset s.store.mem slot upset) slot →
    ∃ u : State, s.RawReadEnds slot (Memory.upset s.store.mem slot upset) x u ∧
      (v.damage.overflow = true ∨ checkBytes x.bytes ≠ x.check ∧ s.Overflows slot j.revision v.damage →
        exec (.surveyReadComplete upset) s = .next ((u.endJob .failed .damageOverflow none j).startNext).settle) ∧
      (∀ cause k, v.damage.overflow = false → checkBytes x.bytes = x.check ∨ ¬ s.Overflows slot j.revision v.damage →
        j.cancel = some cause → k = j.surveyTile v.width j.surveyed
          (if checkBytes x.bytes ≠ x.check ∨ ⟨j.surveyed, .raw⟩ ∈ v.damage.entries then none
            else some (measureTile j.settings.edge x)) →
        exec (.surveyReadComplete upset) s = .next ((({ u with engine := { s.engine with queue := k :: rest } } : State).endJob
          .cancelled cause.toEnd none k).startNext).settle)) ∧
  (∀ (final : JobState) (cause : JobEnd) (refusal : Option AllocRefusal) (j : Job) (v : Revision) (n : Nat) (x e : Extent)
      (s t : State), t = s.endJob final cause refusal j →
    s.cat.revision j.revision = some v → (j.state = .surveying ∨ j.state = .correcting) → j.scratch = some n →
    s.alloc.find n = some x → x.state = .building → s.alloc.find v.raw = some e → n ≠ v.raw → s.OnlyCounts e →
    t.alloc.runs = giveSlots x.first x.size s.alloc.runs ∧ t.alloc.find n = none ∧
    t.alloc.find v.raw = some { e with readers := e.readers - 1 } ∧
    (∀ m, m ≠ n → m ≠ v.raw → t.alloc.find m = s.alloc.find m) ∧
    t.engine = { s.engine with
      queue := s.engine.queue.filter (fun y => y.id ≠ j.id)
      ended := if j.desk then (if 8 ≤ s.engine.ended.length then s.engine.ended.tail else s.engine.ended) ++
        [{ j with state := final, endCause := some cause, allocRefusal := refusal, scratch := none }] else s.engine.ended } ∧
    (∀ r ∈ j.requesters, ∀ i, s.book.item r.1 r.2 = some i →
      t.book.item r.1 r.2 = some { i with state := .ready, finish := .raw, downgraded := true }) ∧
    (∀ o i, (o, i) ∉ j.requesters → t.book.item o i = s.book.item o i) ∧ t.book.accounts = s.book.accounts ∧
    (j.requesters ≠ [] → ∀ src, s.sales.notices.sources[4]? = some src →
      (t.sales.notices.sources[4]?).map (·.latched) = some true) ∧
    (j.desk = true → cause ≠ .requested → ∀ src, s.desk.notices.sources[3]? = some src →
      (t.desk.notices.sources[3]?).map (·.latched) = some true) ∧
    (j.desk = false ∨ cause = .requested → t.desk = s.desk) ∧
    t.cat = s.cat ∧ t.meter = s.meter ∧ t.store = s.store ∧ t.port = s.port ∧ t.table = s.table ∧ t.mover = s.mover) ∧
  (∀ (slot : Nat) (upset : List Upset) (x : Tile) (f : TileFigures) (bad : Bool) (j : Job) (rest : List Job) (v : Revision)
      (e : Extent) (s : State),
    s.power = .running → s.store.inFlight = some ⟨.restoration, slot, .read⟩ → slot < s.store.slotCount →
    s.engine.queue = j :: rest → j.state = .surveying → j.cancel = none → (∀ y ∈ rest, y.id ≠ j.id) →
    s.cat.revision j.revision = some v → v.damage.overflow = false →
    s.alloc.find v.raw = some e → e.state ≠ .moving → (∀ y ∈ s.store.waiting, y.client ≠ .restoration) →
    x = Memory.readSlot (Memory.upset s.store.mem slot upset) slot →
    checkBytes x.bytes = x.check ∨ ¬ s.Overflows slot j.revision v.damage → f = measureTile j.settings.edge x →
    bad = (decide (checkBytes x.bytes ≠ x.check) || v.damage.entries.contains ⟨j.surveyed, .raw⟩) →
    ∃ (t : State) (k : Job), exec (.surveyReadComplete upset) s = .next t.settle ∧
      k = j.surveyTile v.width j.surveyed (if bad then none else some f) ∧
      k.surveyed = j.surveyed + 1 ∧ k.id = j.id ∧ k.revision = j.revision ∧ k.settings = j.settings ∧ k.scratch = j.scratch ∧
      k.inStatistics = (if bad then j.inStatistics else j.inStatistics + 1) ∧
      (bad = true → k.bAuto = j.bAuto ∧ k.wAuto = j.wAuto ∧ k.faint = j.faint + 1) ∧
      (bad = false → k.bAuto = (if j.inStatistics = 0 then f.low else min j.bAuto f.low) ∧
        k.wAuto = (if j.inStatistics = 0 then f.mean else max j.wAuto f.mean) ∧
        k.faint = if f.high - f.low < j.settings.contrast then j.faint + 1 else j.faint) ∧
      t.store.mem = Memory.upset s.store.mem slot upset ∧ t.alloc = s.alloc ∧ t.book = s.book ∧ t.meter = s.meter ∧
      t.port = s.port ∧ t.table = s.table ∧ t.mover = s.mover ∧
      (checkBytes x.bytes ≠ x.check → s.DamageRecorded slot .restoration t) ∧
      (k.surveyed ≠ v.width * v.height → t.engine = { s.engine with queue := k :: rest } ∧
        t.store.waiting = s.store.waiting ++ [⟨.restoration, e.first + (j.surveyed + 1), .read⟩]) ∧
      (k.surveyed = v.width * v.height → ∃ tone : Tone,
        tone = (match k.source, k.profileTone with
          | .profile _, some q => q
          | _, _ => ⟨k.bAuto, k.wAuto, 8⟩) ∧
        t.engine = { s.engine with queue := { k with
          state := .correcting, openVoid := .closed, corrected := 0, changed := 0, blanked := 0
          tone := some (if tone.w - tone.b < 16 then ⟨0, 255, tone.s⟩ else tone)
          lowRange := decide (tone.w - tone.b < 16) } :: rest } ∧
        t.store.waiting = s.store.waiting ++ [⟨.restoration, e.first, .read⟩])) ∧
  (∀ (width i : Nat) (f : Option TileFigures) (j k : Job), k = j.surveyTile width i f →
    (∀ q, f = some q → 0 < q.edges → k.voidCounter = j.settings.voidLimit ∧ k.openVoid = .closed) ∧
    (f = none ∨ (∃ q, f = some q ∧ q.edges = 0) →
      (2 ≤ j.voidCounter → k.voidCounter = j.voidCounter - 1 ∧ k.openVoid = j.openVoid) ∧
      (j.voidCounter = 1 → k.voidCounter = 0 ∧ ∃ ds : List Defect,
        ds = (j.fade i (f.all fun q => decide (q.high - q.low < j.settings.contrast)) (decide ((i + 1) % width = 0))).defects ∧
        (ds.length < 8 → k.openVoid = .kept ds.length ∧
          k.defects = ds ++ [⟨.voidRun, i + 1 - j.settings.voidLimit, j.settings.voidLimit⟩]) ∧
        (8 ≤ ds.length → k.openVoid = .notKept ∧ k.defects = ds ∧ k.defectsOverflow = true)) ∧
      (j.voidCounter = 0 → k.voidCounter = 0 ∧ k.openVoid = j.openVoid ∧
        ∀ p d, j.openVoid = .kept p → j.defects[p]? = some d → j.openBand ≠ .kept p →
          k.defects[p]? = some { d with length := d.length + 1 })) ∧
    ((i + 1) % width = 0 → k.fadeCounter = 0 ∧ k.openBand = .closed) ∧
    (∀ q, f = some q → j.settings.contrast ≤ q.high - q.low → k.fadeCounter = 0 ∧ k.openBand = .closed) ∧
    ((i + 1) % width ≠ 0 → (f = none ∨ ∃ q, f = some q ∧ q.high - q.low < j.settings.contrast) →
      k.fadeCounter = j.fadeCounter + 1 ∧
      (j.openBand ≠ .closed → k.openBand = j.openBand) ∧
      (j.openBand = .closed → j.fadeCounter + 1 = j.settings.fadeRun →
        (j.defects.length < 8 → k.openBand = .kept j.defects.length) ∧ (8 ≤ j.defects.length → k.openBand = .notKept)) ∧
      (j.openBand = .closed → j.fadeCounter + 1 ≠ j.settings.fadeRun → k.openBand = .closed)) ∧
    (f = none ∨ (∃ q, f = some q ∧ q.high - q.low < j.settings.contrast) →
      (∀ p d, j.openBand = .kept p → j.defects[p]? = some d → j.openVoid ≠ .kept p →
        k.defects[p]? = some { d with length := d.length + 1 }) ∧
      (j.openBand = .closed → j.fadeCounter + 1 = j.settings.fadeRun →
        (j.defects.length < 8 → j.openVoid ≠ .kept j.defects.length → k.defects[j.defects.length]? =
          some ⟨.fadedBand, i + 1 - j.settings.fadeRun, j.settings.fadeRun⟩) ∧
        (8 ≤ j.defects.length → k.defectsOverflow = true ∧ k.defects.length = j.defects.length))))

/-- A correction read of the active job completes, with no cancel mark and no damage overflow: a damaged tile is blanked to
255 and counted, any other is mapped pixel by pixel and counted when it changed, and the result is to be written to the same
index of the scratch extent. A correction write completes: the slot holds what was written, and with tiles left the next raw
tile is read; after the last tile of a job of the desk alone the rendition is published: its extent is LIVE, the RESTORED
damage entries are gone, the rendition before it is released and the raw extent has a reader less, the job leaves the queue
for the ended list, and RESTORE_DONE is pending. A job of one item, whose account stays in its status or falls out of WATCH,
publishes likewise with the item READY and RESTORED, its RESTORE posting logged and ITEM_READY pending. A damaged tile is
recorded; one that the revision's full list cannot take sets DAMAGE_OVERFLOW. A cancel mark ends the job CANCELLED at the end
of a read, before the tile is mapped or counted (log 18), or of a write, and a damage list that has overflowed, by this read
or before it, FAILED at the end of a read. The bytes a read finds changed are log 7 (R9, R75, R137, R139 to R143, R156, R183,
log 18). -/
def Obligations.Correction : Prop :=
  (∀ (slot : Nat) (j : Job) (rest : List Job) (v : Revision) (s : State) (cause : CancelCause),
    s.power = .running → slot < s.store.slotCount → s.engine.queue = j :: rest → j.state = .correcting →
    (∀ y ∈ rest, y.id ≠ j.id) → s.cat.revision j.revision = some v →
    (∀ (upset : List Upset) (x : Tile), s.store.inFlight = some ⟨.restoration, slot, .read⟩ →
      x = Memory.readSlot (Memory.upset s.store.mem slot upset) slot →
      ∃ u : State, s.RawReadEnds slot (Memory.upset s.store.mem slot upset) x u ∧
        (v.damage.overflow = true ∨ checkBytes x.bytes ≠ x.check ∧ s.Overflows slot j.revision v.damage →
          exec (.correctionReadComplete upset) s = .next ((u.endJob .failed .damageOverflow none j).startNext).settle) ∧
        (v.damage.overflow = false → checkBytes x.bytes = x.check ∨ ¬ s.Overflows slot j.revision v.damage →
          j.cancel = some cause → exec (.correctionReadComplete upset) s =
            .next ((u.endJob .cancelled cause.toEnd none j).startNext).settle)) ∧
    (∀ (bytes : List Byte) (u : State), s.store.inFlight = some ⟨.restoration, slot, .write bytes none⟩ → j.cancel = some cause →
      u = { s with
        store := s.store.complete ⟨.restoration, slot, .write bytes none⟩
        engine := { s.engine with queue := { j with corrected := j.corrected + 1 } :: rest } } →
      exec .correctionWriteComplete s =
        .next ((u.endJob .cancelled cause.toEnd none { j with corrected := j.corrected + 1 }).startNext).settle)) ∧
  ∀ (slot : Nat) (j : Job) (rest : List Job) (v : Revision) (x : Extent) (n : Nat) (s : State),
    s.power = .running → slot < s.store.slotCount → s.engine.queue = j :: rest → j.state = .correcting → j.cancel = none →
    (∀ y ∈ rest, y.id ≠ j.id) → s.cat.revision j.revision = some v → v.damage.overflow = false →
    j.scratch = some n → s.alloc.find n = some x → (∀ y ∈ s.store.waiting, y.client ≠ .restoration) →
    (∀ (upset : List Upset) (y : Tile) (bad : Bool) (tone : Tone), s.store.inFlight = some ⟨.restoration, slot, .read⟩ →
      j.tone = some tone → y = Memory.readSlot (Memory.upset s.store.mem slot upset) slot →
      checkBytes y.bytes = y.check ∨ ¬ s.Overflows slot j.revision v.damage →
      bad = (decide (checkBytes y.bytes ≠ y.check) || v.damage.entries.contains ⟨j.corrected, .raw⟩) →
      ∃ (t : State) (out : List Byte), exec (.correctionReadComplete upset) s = .next t.settle ∧
        out = (if bad then List.replicate 4096 255 else y.bytes.map fun b => BitVec.ofNat 8 (tone.map b.toNat)) ∧
        t.store.mem = Memory.upset s.store.mem slot upset ∧
        t.store.waiting = s.store.waiting ++ [⟨.restoration, x.first + j.corrected, .write out none⟩] ∧
        t.engine = { s.engine with queue := { j with
          blanked := if bad then j.blanked + 1 else j.blanked
          changed := if bad = false ∧ out ≠ y.bytes then j.changed + 1 else j.changed } :: rest } ∧
        (checkBytes y.bytes ≠ y.check → s.DamageRecorded slot .restoration t) ∧
        t.alloc = s.alloc ∧ t.book = s.book ∧ t.meter = s.meter ∧ t.port = s.port ∧ t.table = s.table ∧ t.mover = s.mover) ∧
    (∀ bytes : List Byte, s.store.inFlight = some ⟨.restoration, slot, .write bytes none⟩ → bytes.length = 4096 →
      (∀ e, j.corrected + 1 ≠ v.width * v.height → s.alloc.find v.raw = some e → e.state ≠ .moving →
        ∃ t : State, exec .correctionWriteComplete s = .next t.settle ∧
          t = { s with store := t.store, engine := { s.engine with queue := { j with corrected := j.corrected + 1 } :: rest } } ∧
          Memory.readSlot t.store.mem slot = ⟨bytes, checkBytes bytes⟩ ∧
          (∀ other, other ≠ slot → Memory.readSlot t.store.mem other = Memory.readSlot s.store.mem other) ∧
          t.store.waiting = s.store.waiting ++ [⟨.restoration, e.first + (j.corrected + 1), .read⟩]) ∧
      (∀ tone, j.corrected + 1 = v.width * v.height → rest = [] → j.desk = true → j.requesters = [] → j.tone = some tone →
        (∀ e ∈ s.cat.editions, e.state ≠ .retiring) → v.raw ≠ n →
        ∃ t : State, exec .correctionWriteComplete s = .next t.settle ∧
          Memory.readSlot t.store.mem slot = ⟨bytes, checkBytes bytes⟩ ∧
          (∀ other, other ≠ slot → Memory.readSlot t.store.mem other = Memory.readSlot s.store.mem other) ∧
          s.Published j v n x tone t ∧
          t.engine = { s.engine with
            queue := []
            ended := (if 8 ≤ s.engine.ended.length then s.engine.ended.tail else s.engine.ended) ++
              [{ j with corrected := j.corrected + 1, state := .done, endCause := some .published, scratch := none }] } ∧
          t.book = s.book ∧ t.meter = s.meter ∧ t.port = s.port ∧ t.table = s.table ∧ t.mover = s.mover ∧
          t.store.waiting = s.store.waiting ∧ t.production = s.production ∧ t.sales = s.sales ∧
          ∀ src, s.desk.notices.sources[2]? = some src → (t.desk.notices.sources[2]?).map (·.latched) = some true) ∧
      (∀ tone o i ord it a b (k : Charge) (q : Nat), j.corrected + 1 = v.width * v.height → rest = [] → j.desk = false →
        j.requesters = [(o, i)] → j.tone = some tone → (∀ e ∈ s.cat.editions, e.state ≠ .retiring) → v.raw ≠ n →
        s.book.order o = some ord → ord.item i = some it → it.target = .page j.revision →
        s.book.account ord.account = some a →
        k = { restore := true, order := o, item := i, work := j.id, count := j.changed, rate := (s.meter.tariff v.cls).rr
              creep := 0, ageThreshold := (s.meter.tariff v.cls).a, surcharge := (s.meter.tariff v.cls).s
              discount := ord.discount, age := s.ageOf (.page j.revision), repeated := false
              unset := !(s.meter.tariff v.cls).set } →
        q = ord.quotient s.meter.settings.divisor k.reckon.net → a.AfterPosting (min (a.owed + q) 16777215) b →
        ∃ t : State, exec .correctionWriteComplete s = .next t.settle ∧
          s.Published j v n x tone t ∧ t.book.item o i = some { it with state := .ready, finish := .restored } ∧
          (∀ other, other ≠ o → t.book.order other = s.book.order other) ∧
          t.book.account ord.account = some b ∧
          t.meter.log.getLast? = some (k.entry k.reckon q (decide (16777215 < ord.units + q)) (decide (16777215 < a.owed + q))) ∧
          t.engine = { s.engine with queue := [] } ∧ t.desk = s.desk ∧
          ∀ src, s.sales.notices.sources[4]? = some src → (t.sales.notices.sources[4]?).map (·.latched) = some true))

/-! ## Accounts, orders and items (chapter 8) -/

/-- OPEN_ACCOUNT puts an ACTIVE account that owes nothing into use, REMOVE_ACCOUNT frees one that owes nothing and has no
order, and OPEN_ORDER puts an empty OPEN order into use under the next free id and raises its account's order count; every
other account and order and every other block stay. The refusals of OPEN_ACCOUNT are BAD_VALUE, ACCOUNT_EXISTS and TABLE_FULL,
of REMOVE_ACCOUNT NO_ACCOUNT and ACCOUNT_BUSY, and of OPEN_ORDER BAD_VALUE, NO_ACCOUNT and TABLE_FULL, each in that order
(R151, R154, R161). -/
def Obligations.AccountsAndOrders : Prop :=
  ∀ (tag : Byte) (ps : List Word) (fs : Fields) (id : Nat) (s s₁ : State), fs.nat 0 = some id →
    (∀ ceiling, Taken .sales (requestOf tag 0x50 ps) [.one, .two] fs s s₁ → ceiling = (fs.nat 1).getD 0 →
      (id = 0 ∨ 16777215 < ceiling → exec (.openAccount .sales tag ps) s =
        .next ((s₁.reply .sales tag { result := .badValue }).transmit .sales)) ∧
      (1 ≤ id → ceiling ≤ 16777215 → s.book.account id ≠ none → exec (.openAccount .sales tag ps) s =
        .next ((s₁.reply .sales tag { result := .accountExists }).transmit .sales)) ∧
      (1 ≤ id → ceiling ≤ 16777215 → s.book.account id = none → 256 ≤ s.book.accounts.length →
        exec (.openAccount .sales tag ps) s =
          .next ((s₁.reply .sales tag { result := .tableFull, fields := [.one 6] }).transmit .sales)) ∧
      (1 ≤ id → ceiling ≤ 16777215 → s.book.account id = none → s.book.accounts.length < 256 →
        ∃ t : State, exec (.openAccount .sales tag ps) s = .next ((t.reply .sales tag { result := .ok }).transmit .sales) ∧
          t = { s₁ with book := { s.book with accounts := t.book.accounts } } ∧
          t.book.account id = some { id, owed := 0, ceiling, status := .active, timer := none, orderCount := 0 } ∧
          ∀ other, other ≠ id → t.book.account other = s.book.account other)) ∧
    (Taken .sales (requestOf tag 0x53 ps) [.one] fs s s₁ →
      (s.book.account id = none → exec (.removeAccount .sales tag ps) s =
        .next ((s₁.reply .sales tag { result := .noAccount }).transmit .sales)) ∧
      (∀ a, s.book.account id = some a →
        (a.orderCount ≠ 0 ∨ a.owed ≠ 0 → exec (.removeAccount .sales tag ps) s =
          .next ((s₁.reply .sales tag { result := .accountBusy }).transmit .sales)) ∧
        (a.orderCount = 0 → a.owed = 0 → ∃ t : State, exec (.removeAccount .sales tag ps) s =
            .next ((t.reply .sales tag { result := .ok }).transmit .sales) ∧
          t = { s₁ with book := { s.book with accounts := t.book.accounts } } ∧ t.book.account id = none ∧
          ∀ other, other ≠ id → t.book.account other = s.book.account other))) ∧
    (∀ discount a new, Taken .sales (requestOf tag 0x55 ps) [.one, .one] fs s s₁ → fs.nat 1 = some discount →
      discount ≤ 255 → s.book.account id = some a → s.book.orders.length < 64 →
      new = nextFree 65535 s.book.orderInUse 65 s.book.lastOrderId →
      s.book.order new = none ∧ ∃ t : State, exec (.openOrder .sales tag ps) s =
          .next ((t.reply .sales tag { result := .ok, fields := [.one new] }).transmit .sales) ∧
        t = { s₁ with book := t.book } ∧ t.book.lastOrderId = new ∧
        t.book.order new = some { id := new, account := id, discount, state := .opened, accumulator := 0, units := 0
                                  saturated := false, clamped := false, inFlight := 0, items := [] } ∧
        (∀ other, other ≠ new → t.book.order other = s.book.order other) ∧
        t.book.account id = some { a with orderCount := a.orderCount + 1 } ∧
        ∀ other, other ≠ id → t.book.account other = s.book.account other) ∧
    (∀ discount, Taken .sales (requestOf tag 0x55 ps) [.one, .one] fs s s₁ → fs.nat 1 = some discount →
      (255 < discount → exec (.openOrder .sales tag ps) s =
        .next ((s₁.reply .sales tag { result := .badValue }).transmit .sales)) ∧
      (discount ≤ 255 → s.book.account id = none → exec (.openOrder .sales tag ps) s =
        .next ((s₁.reply .sales tag { result := .noAccount }).transmit .sales)) ∧
      (discount ≤ 255 → s.book.account id ≠ none → 64 ≤ s.book.orders.length → exec (.openOrder .sales tag ps) s =
        .next ((s₁.reply .sales tag { result := .tableFull, fields := [.one 7] }).transmit .sales)))

/-- CLOSE_ORDER of an OPEN order: it is CLOSED with no delivery in flight and CLOSING with one, and its waiting items are
READY, RAW and DOWNGRADED and leave their jobs. A job that keeps the desk or another requester goes on, a QUEUED one of a
single item is gone with it, and nothing else changes. In the reply of RELEASE_ORDER SATURATED and CLAMPED are 0 or 1 (log
15). RELEASE_ORDER of a CLOSED order: its record is free, its account's order count one lower, and each of its targets has
one pin less for each item; no other order, account or block changes. Orders in other states are refused (R13, R126, R165,
R167). -/
def Obligations.CloseAndReleaseOrder : Prop :=
  ∀ (tag : Byte) (ps : List Word) (fs : Fields) (id : Nat) (o : Order) (s s₁ : State),
    fs.nat 0 = some id → s.book.order id = some o →
    (Taken .sales (requestOf tag 0x58 ps) [.one] fs s s₁ →
      (o.state ≠ .opened → exec (.closeOrder .sales tag ps) s =
        .next ((s₁.reply .sales tag { result := .orderClosed }).settle)) ∧
      (∀ queue, o.state = .opened → (o.items.map (·.number)).Nodup →
        ((s.engine.queue.map (·.id)).Nodup ∧ (s.engine.queue.flatMap (·.requesters)).Nodup ∧
            (∀ j ∈ s.engine.queue, ∀ q ∈ j.requesters, q.1 = id → ∃ i ∈ o.items, i.number = q.2 ∧ i.state = .waitingRestore) ∧
            (∀ j ∈ s.engine.queue, (∃ q ∈ j.requesters, q.1 = id) → j.desk = true ∨ ∃ q ∈ j.requesters, q.1 ≠ id) ∧
            queue = s.engine.queue.map fun j => { j with requesters := j.requesters.filter fun q => q.1 ≠ id }) ∨
          (∃ j n, (s.engine.queue.map (·.id)).Nodup ∧ j ∈ s.engine.queue ∧ j.state = .queued ∧ j.scratch = none ∧
            j.desk = false ∧ j.requesters = [(id, n)] ∧ (∃ i ∈ o.items, i.number = n ∧ i.state = .waitingRestore) ∧
            (∀ k ∈ s.engine.queue, k.id ≠ j.id → ∀ q ∈ k.requesters, q.1 ≠ id) ∧
            queue = s.engine.queue.filter fun k => k.id ≠ j.id) →
        ∃ t : State, exec (.closeOrder .sales tag ps) s = .next ((t.reply .sales tag
            { result := .ok, fields := [.one (if o.inFlight = 0 then 2 else 1)] }).settle) ∧
          t = { s₁ with book := { s.book with orders := t.book.orders }, engine := { s.engine with queue } } ∧
          t.book.order id = some { o with
            state := if o.inFlight = 0 then .closed else .closing
            items := o.items.map fun i =>
              if i.state = .waitingRestore then { i with state := .ready, finish := .raw, downgraded := true } else i } ∧
          ∀ other, other ≠ id → t.book.order other = s.book.order other)) ∧
    (Taken .sales (requestOf tag 0x5A ps) [.one] fs s s₁ →
      (o.state ≠ .closed → exec (.releaseOrder .sales tag ps) s =
        .next ((s₁.reply .sales tag { result := .inUse }).transmit .sales)) ∧
      (o.state = .closed → ∃ t : State, exec (.releaseOrder .sales tag ps) s = .next ((t.reply .sales tag
            { result := .ok, fields := [.two o.units, .one o.saturated.toNat, .one o.clamped.toNat] }).transmit .sales) ∧
          t = { s₁ with book := t.book, cat := t.cat } ∧ t.book.order id = none ∧ t.book.lastOrderId = s.book.lastOrderId ∧
          (∀ other, other ≠ id → t.book.order other = s.book.order other) ∧
          (∀ a, s.book.account o.account = some a → t.book.account o.account = some { a with orderCount := a.orderCount - 1 }) ∧
          (∀ other, other ≠ o.account → t.book.account other = s.book.account other) ∧
          (∀ r v, s.cat.revision r = some v → t.cat.revision r =
            some { v with pins := v.pins - (o.items.filter fun i => i.target = .page r).length }) ∧
          (∀ n p, s.cat.photo n = some p → t.cat.photo n =
            some { p with pins := p.pins - (o.items.filter fun i => i.target = .photo n).length })))

/-- ADD_ITEM to an OPEN order, of a page or a photograph found and a region inside it: the item takes the lowest free number
with the clipped walk, its target has one pin more, and no other item, order, account or target changes. A full order gives
ITEMS_FULL. With finish RAW, or RESTORED where the AUTO rendition is there, the item is READY; a photograph with RESTORED is
BAD_VALUE. Otherwise the item is WAITING_RESTORE: it joins the AUTO job of its revision, or a new job behind an active one,
or a new job that starts at once on an empty queue; where that job finds no place it fails at once and the item is READY, RAW
and DOWNGRADED with ITEM_READY raised. The refusals NOT_RESTORABLE, JOB_FULL and QUEUE_FULL change nothing. REMOVE_ITEM takes
an item out of its order with one pin less, and refuses one IN_DELIVERY. A waiting item first leaves its job, which goes on
for the desk or other items, and alone is cancelled: gone when QUEUED, marked when active with a transfer in flight, and
ended at once without one. The record number of a new job's scratch extent is log 11 (R13, R124, R126, R131, R142, R163,
R164, log 32). -/
def Obligations.Items : Prop :=
  ∀ (tag : Byte) (ps : List Word) (fs : Fields) (order : Nat) (o : Order) (s s₁ : State),
    fs.nat 0 = some order → s.book.order order = some o → o.state = .opened →
    (∀ (ed pg n : Nat) (name : RevName) (v : Revision) (r : Region) (clipped : Bool) (finish : Rendition),
      Taken .sales (requestOf tag 0x56 ps) addItemLayout fs s s₁ → 1 ≤ order →
      fs.nat 1 = some ed → fs.nat 2 = some pg → fs.nat 4 = none → pageNameInRange ed pg (fs.nat 3) = true →
      fs.walkInRange 6 = true → s.cat.resolve ed pg (fs.nat 3) = .ok (name, v) → s.cat.revision name = some v →
      clipRegion v.width v.height (fs.region 6) = some (r, clipped) →
      (finish = .raw ∧ (fs.nat 5 = none ∨ fs.nat 5 = some 0) ∨ finish = .restored ∧ fs.nat 5 = some 1) →
      (16 ≤ o.items.length → exec (.addItem .sales tag ps) s =
        .next ((s₁.reply .sales tag { result := .itemsFull }).settle)) ∧
      (o.items.length < 16 → n = o.freeNumber →
        o.item n = none ∧ 1 ≤ n ∧ n ≤ 16 ∧ (∀ m, 1 ≤ m → m < n → o.item m ≠ none) ∧
        (∀ a, (finish = .restored ∧ (v.restored.map (·.source)) ≠ some .auto) →
          (v.damage.overflow = true ∧ a = .notRestorable ∨
            (v.damage.overflow = false ∧ a = .jobFull ∧
              ∃ j, s.engine.queue.find? (fun j => j.revision = name && j.source = .auto) = some j ∧ 4 ≤ j.requesters.length) ∨
            (v.damage.overflow = false ∧ a = .queueFull ∧ (∀ j ∈ s.engine.queue, j.revision = name → j.source ≠ .auto) ∧
              16 ≤ s.engine.queue.length)) →
          exec (.addItem .sales tag ps) s = .next ((s₁.reply .sales tag { result := a }).settle)) ∧
        (∀ st, ((finish = .raw ∨ (v.restored.map (·.source)) = some .auto) ∧ st = .ready) ∨
          (finish = .restored ∧ (v.restored.map (·.source)) ≠ some .auto ∧ v.damage.overflow = false ∧ st = .waitingRestore ∧
            ((∃ j, s.engine.queue.find? (fun j => j.revision = name && j.source = .auto) = some j ∧ j.requesters.length < 4) ∨
              ((∀ j ∈ s.engine.queue, j.revision = name → j.source ≠ .auto) ∧ s.engine.queue.length < 16 ∧
                ∃ head rest, s.engine.queue = head :: rest ∧ head.state ≠ .queued))) →
          ∃ t : State, exec (.addItem .sales tag ps) s = .next ((t.reply .sales tag { result := .ok, clipped, fields :=
              [.one n, .one name.revision, .many [r.x0, r.y0, r.w, r.h], .one (if st = .ready then 1 else 0)] }).settle) ∧
            t = { s₁ with
              cat := { s.cat with editions := t.cat.editions }, book := t.book
              engine := { s.engine with queue := t.engine.queue, lastId := t.engine.lastId } } ∧
            s.book.ItemAdded order o { number := n, target := .page name, finish, walk := fs.walk 6 r, state := st
                                       downgraded := false } t.book ∧
            t.cat.revision name = some { v with pins := v.pins + 1 } ∧
            (∀ q, q ≠ name → t.cat.revision q = s.cat.revision q) ∧
            (st = .ready → t.engine = s.engine) ∧
            (st = .waitingRestore → ∃ j ∈ t.engine.queue, j.revision = name ∧ j.source = .auto ∧ (order, n) ∈ j.requesters)) ∧
        (∀ id, finish = .restored → (v.restored.map (·.source)) ≠ some .auto → v.damage.overflow = false →
          s.engine.queue = [] → id = nextFree 255 s.engine.idInUse 25 s.engine.lastId →
          (∀ first e, s.alloc.place (v.width * v.height) = .ok first → s.alloc.find v.raw = some e → e.state ≠ .moving →
            (∀ y ∈ s.store.waiting, y.client ≠ .restoration) → (∀ y, s.store.inFlight = some y → y.client ≠ .restoration) →
            ∃ t : State, exec (.addItem .sales tag ps) s = .next ((t.reply .sales tag { result := .ok, clipped, fields :=
                [.one n, .one name.revision, .many [r.x0, r.y0, r.w, r.h], .one 0] }).settle) ∧
              t = { s₁ with cat := { s.cat with editions := t.cat.editions }, book := t.book, engine := t.engine
                            alloc := t.alloc, store := t.store } ∧
              s.book.ItemAdded order o { number := n, target := .page name, finish := .restored, walk := fs.walk 6 r
                                         state := .waitingRestore, downgraded := false } t.book ∧
              t.cat.revision name = some { v with pins := v.pins + 1 } ∧
              (∀ q, q ≠ name → t.cat.revision q = s.cat.revision q) ∧
              s.JobStarted id name .auto false [(order, n)] v first e t) ∧
          (∀ refusal, s.alloc.place (v.width * v.height) = .error refusal →
            ∃ t : State, exec (.addItem .sales tag ps) s = .next (((t.raise .itemReady).reply .sales tag
                { result := .ok, clipped, fields :=
                  [.one n, .one name.revision, .many [r.x0, r.y0, r.w, r.h], .one 1] }).settle) ∧
              t = { s₁ with cat := { s.cat with editions := t.cat.editions }, book := t.book
                            engine := { s.engine with lastId := id } } ∧
              s.book.ItemAdded order o { number := n, target := .page name, finish := .raw, walk := fs.walk 6 r
                                         state := .ready, downgraded := true } t.book ∧
              t.cat.revision name = some { v with pins := v.pins + 1 } ∧
              ∀ q, q ≠ name → t.cat.revision q = s.cat.revision q)))) ∧
    (∀ (id n : Nat) (p : Photo) (r : Region) (clipped : Bool),
      Taken .sales (requestOf tag 0x56 ps) addItemLayout fs s s₁ → 1 ≤ order →
      fs.nat 1 = none → fs.nat 2 = none → fs.nat 3 = none → fs.nat 4 = some id → 1 ≤ id → fs.walkInRange 6 = true →
      (fs.nat 5 = some 1 → exec (.addItem .sales tag ps) s =
        .next ((s₁.reply .sales tag { result := .badValue }).settle)) ∧
      (fs.nat 5 = none ∨ fs.nat 5 = some 0 → s.cat.photo id = some p → p.state = .complete →
        clipRegion p.width p.height (fs.region 6) = some (r, clipped) →
        (16 ≤ o.items.length → exec (.addItem .sales tag ps) s =
          .next ((s₁.reply .sales tag { result := .itemsFull }).settle)) ∧
        (o.items.length < 16 → n = o.freeNumber →
          ∃ t : State, exec (.addItem .sales tag ps) s = .next ((t.reply .sales tag { result := .ok, clipped, fields :=
              [.one n, .absent, .many [r.x0, r.y0, r.w, r.h], .one 1] }).settle) ∧
            t = { s₁ with cat := { s.cat with photos := t.cat.photos }, book := t.book } ∧
            s.book.ItemAdded order o { number := n, target := .photo id, finish := .raw, walk := fs.walk 6 r, state := .ready
                                       downgraded := false } t.book ∧
            t.cat.photo id = some { p with pins := p.pins + 1 } ∧ ∀ q, q ≠ id → t.cat.photo q = s.cat.photo q))) ∧
    (∀ (n : Nat) (i : Item), Taken .sales (requestOf tag 0x57 ps) [.one, .one] fs s s₁ → fs.nat 1 = some n → o.item n = some i →
      (i.state = .inDelivery → exec (.removeItem .sales tag ps) s =
        .next ((s₁.reply .sales tag { result := .itemBusy }).settle)) ∧
      (∀ u : State, (i.state = .ready ∨ i.state = .delivered) ∧ u = s₁ ∨
          i.state = .waitingRestore ∧ s₁.LeavesJob order n u →
        ∃ t : State, exec (.removeItem .sales tag ps) s = .next ((t.reply .sales tag { result := .ok }).settle) ∧
          t = { u with cat := t.cat, book := { u.book with orders := t.book.orders } } ∧
          t.book.item order n = none ∧ (∀ m, m ≠ n → t.book.item order m = u.book.item order m) ∧
          (∀ other, other ≠ order → t.book.order other = u.book.order other) ∧
          (∃ its, t.book.order order = (u.book.order order).map fun x => { x with items := its }) ∧
          (∀ r v, u.cat.revision r = some v → t.cat.revision r =
            some (if i.target = .page r then { v with pins := v.pins - 1 } else v)) ∧
          (∀ x p, u.cat.photo x = some p → t.cat.photo x =
            some (if i.target = .photo x then { p with pins := p.pins - 1 } else p))))

/-- An evaluation of an account by Table 8-3, the zero delays and the ceiling 0; SET_CEILING and SETTLE, which change the
ceiling and the owed units and evaluate the account; and the expiry of the WATCH and the REINSTATING timer. A cut-off stops
the account's fulfilment deliveries, all of them and no other, in ascending order id and within an order in ascending handle;
the postings of those ends may evaluate again to the depth that log 35 gives (R119, R152, R153, R156 to R159). -/
def Obligations.AccountEvaluation : Prop :=
  (∀ (s : State) (id : Nat), (s.table.records.map (·.handle)).Nodup → (s.book.orders.map (·.id)).Pairwise (· < ·) →
    (∀ h, h ∈ s.deliveriesOf id ↔ ∃ d o n, s.table.find h = some d ∧ s.book.order o = some n ∧ n.account = id ∧
      (d.order.map Prod.fst) = some o) ∧
    (s.deliveriesOf id).Pairwise fun h g => ∀ d e o p, s.table.find h = some d → s.table.find g = some e →
      d.order = some o → e.order = some p → o.1 < p.1 ∨ (o.1 = p.1 ∧ h < g)) ∧
  (∀ (s : State) (id : Nat) (a : Account) (status : AccountStatus) (timer : Option Nat), s.book.account id = some a →
    (s.setStatus id status timer).book.account id = some { a with status, timer } ∧
    s.setStatus id status timer = { s with book := { s.book with accounts := (s.setStatus id status timer).book.accounts } } ∧
    ∀ other, other ≠ id → (s.setStatus id status timer).book.account other = s.book.account other) ∧
  (∀ (s : State) (id : Nat) (a : Account) (cut : State → State), s.book.account id = some a →
    (∀ x, cut x = ((x.deliveriesOf id).foldl (fun y h => y.stopDelivery (State.stopAccount 7) .cutOff h)
      (x.setStatus id .cutOff none)).raise .accountCutOff) →
    (a.ceiling = 0 → s.evaluate cutOffDeliveries id =
      (if a.status = .cutOff ∨ a.status = .reinstating then (s.setStatus id .active none).raise .accountReinstated
       else s.setStatus id .active none)) ∧
    (a.ceiling ≠ 0 → a.status = .active → a.ceiling ≤ a.owed → ∀ w,
      w = (s.setStatus id .watch (some (s.now + s.meter.settings.cutOff * 500000))).raise .accountWatch →
      s.evaluate cutOffDeliveries id = (if s.meter.settings.cutOff = 0 then cut w else w)) ∧
    (a.ceiling ≠ 0 → a.status = .watch → a.owed < a.ceiling → s.evaluate cutOffDeliveries id = s.setStatus id .active none) ∧
    (a.ceiling ≠ 0 → a.status = .cutOff → a.owed < a.ceiling → s.evaluate cutOffDeliveries id =
      (if s.meter.settings.reinstate = 0 then (s.setStatus id .active none).raise .accountReinstated
       else s.setStatus id .reinstating (some (s.now + s.meter.settings.reinstate * 500000)))) ∧
    (a.ceiling ≠ 0 → a.status = .reinstating → a.ceiling ≤ a.owed → s.evaluate cutOffDeliveries id = cut s) ∧
    (a.ceiling ≠ 0 → (a.status = .active ∨ a.status = .reinstating) ∧ a.owed < a.ceiling ∨
        (a.status = .watch ∨ a.status = .cutOff) ∧ a.ceiling ≤ a.owed → s.evaluate cutOffDeliveries id = s) ∧
    (∀ moment, s.power = .running → a.status = .watch → a.timer = some moment →
      exec (.watchTimerExpires id) s = .next (cut { s with now := max s.now moment }).settle) ∧
    (∀ moment, s.power = .running → a.status = .reinstating → a.timer = some moment →
      exec (.reinstatingTimerExpires id) s =
        .next ((({ s with now := max s.now moment } : State).setStatus id .active none).raise .accountReinstated))) ∧
  (∀ (tag : Byte) (ps : List Word) (fs : Fields) (id n : Nat) (a : Account) (s s₁ : State),
    fs.nat 0 = some id → fs.nat 1 = some n → s.book.account id = some a →
    (Taken .sales (requestOf tag 0x51 ps) [.one, .two] fs s s₁ →
      (16777215 < n → exec (.setCeiling .sales tag ps) s = .next ((s₁.reply .sales tag { result := .badValue }).settle)) ∧
      (n ≤ 16777215 → ∃ u t : State, u = { s₁ with book := { s.book with accounts := u.book.accounts } } ∧
        u.book.account id = some { a with ceiling := n } ∧
        (∀ other, other ≠ id → u.book.account other = s.book.account other) ∧ t = u.evaluate cutOffDeliveries id ∧
        exec (.setCeiling .sales tag ps) s = .next ((t.reply .sales tag { result := .ok, fields :=
          [.two a.ceiling, .ofOption ((t.book.account id).map (·.status.code))] }).settle))) ∧
    (Taken .sales (requestOf tag 0x52 ps) [.one, .two] fs s s₁ →
      (16777215 < n → exec (.settle .sales tag ps) s = .next ((s₁.reply .sales tag { result := .badValue }).settle)) ∧
      (n ≤ 16777215 → ∃ u t : State, u = { s₁ with book := { s.book with accounts := u.book.accounts } } ∧
        u.book.account id = some { a with owed := a.owed - n } ∧
        (∀ other, other ≠ id → u.book.account other = s.book.account other) ∧ t = u.evaluate cutOffDeliveries id ∧
        exec (.settle .sales tag ps) s = .next ((t.reply .sales tag { result := .ok, fields :=
          [.two (min n a.owed), .two (t.book.owed id), .ofOption ((t.book.account id).map (·.status.code))] }).settle))))

/-! ## The fee meter (chapter 9) -/

/-- WRITE_TARIFF of a class up to 15 with a surcharge up to 255 stores the five values with their check word, makes the class
SET, so that a start finds it SET, and answers with the values before or the mark UNSET; no other class, setting or order
changes. SET_METER with delays up to 16,383 stores what it names, a divisor of 0 as 1, keeps what it leaves out and answers
with the three settings before; a running timer keeps its expiry. A divisor named leaves every accumulator below it; and with
the orders in ascending id, where no delivery is stopped by it, every order keeps the remainder of its grains and the
quotient joins its units and the owed units of its account, SATURATED and METER_SATURATED marking what was clamped and the
account in the status that Table 8-3 gives, with no log entry and nothing else changed. Values out of range are refused, a
class BAD_VALUE before a surcharge BAD_RANGE (log 34) (R156, R159, R173, R174, R177, R183, R186, log 15). -/
def Obligations.TariffAndMeter : Prop :=
  ∀ (tag : Byte) (ps : List Word) (fs : Fields) (s s₁ : State),
    (∀ n rt rr c a sv old, Taken .sales (requestOf tag 0x5B ps) [.one, .one, .one, .one, .one, .one] fs s s₁ →
      fs.nat 0 = some n → fs.nat 1 = some rt → fs.nat 2 = some rr → fs.nat 3 = some c → fs.nat 4 = some a → fs.nat 5 = some sv →
      (15 < n → exec (.writeTariff .sales tag ps) s =
        .next ((s₁.reply .sales tag { result := .badValue }).transmit .sales)) ∧
      (n ≤ 15 → 255 < sv → exec (.writeTariff .sales tag ps) s =
        .next ((s₁.reply .sales tag { result := .badRange }).transmit .sales)) ∧
      (n ≤ 15 → sv ≤ 255 → s.meter.tariffs[n]? = some old → ∃ t : State, exec (.writeTariff .sales tag ps) s =
          .next ((t.reply .sales tag { result := .ok, fields :=
            if old.set then [.one old.rt, .one old.rr, .one old.c, .one old.a, .one old.s, .absent]
            else [.absent, .absent, .absent, .absent, .absent, .one 1] }).transmit .sales) ∧
        t = { s₁ with meter := { s.meter with tariffs := t.meter.tariffs } } ∧
        t.meter.tariffs[n]? = some { rt, rr, c, a, s := sv, check := checkValues [rt, rr, c, a, sv], set := true } ∧
        (∀ m, m ≠ n → t.meter.tariffs[m]? = s.meter.tariffs[m]?) ∧
        (∀ x, t.meter.tariffs[n]? = some x → x.verify = x) ∧
        (t.level .sales 6 = some true ↔ ∃ x ∈ t.meter.tariffs, x.set = false))) ∧
    (Taken .sales (requestOf tag 0x5D ps) [.one, .one, .one] fs s s₁ →
      ((∃ v, fs.nat 1 = some v ∧ 16383 < v) ∨ (∃ v, fs.nat 2 = some v ∧ 16383 < v) → exec (.setMeter .sales tag ps) s =
        .next ((s₁.reply .sales tag { result := .badRange }).settle)) ∧
      ((∀ v, fs.nat 1 = some v → v ≤ 16383) → (∀ v, fs.nat 2 = some v → v ≤ 16383) →
        ∃ t : State, exec (.setMeter .sales tag ps) s = .next ((t.reply .sales tag { result := .ok, fields :=
            [.one s.meter.settings.divisor, .one s.meter.settings.cutOff, .one s.meter.settings.reinstate] }).settle) ∧
          (fs.nat 0 = none → fs.nat 1 = none → fs.nat 2 = none → t = s₁) ∧
          (fs.nat 0 = none → t = { s₁ with meter := { s.meter with settings := t.meter.settings } }) ∧
          ((fs.nat 0 ≠ none ∨ fs.nat 1 ≠ none ∨ fs.nat 2 ≠ none) →
            t.meter.settings.divisor = max ((fs.nat 0).getD s.meter.settings.divisor) 1 ∧
            t.meter.settings.cutOff = (fs.nat 1).getD s.meter.settings.cutOff ∧
            t.meter.settings.reinstate = (fs.nat 2).getD s.meter.settings.reinstate ∧ t.meter.settings.isGood = true) ∧
          (∀ d, fs.nat 0 = some d → (∀ o ∈ t.book.orders, o.accumulator < max d 1) ∧
            t.meter.tariffs = s.meter.tariffs ∧ t.meter.day = s.meter.day ∧
            t.book.orders.map (·.id) = s.book.orders.map (·.id) ∧
            (s.book.orders.Pairwise (fun a b => a.id < b.id) → s.ResolvesInPeace t.meter.settings.cutOff →
              s.Resolved (max d 1) t ∧
              t = { s₁ with
                book := { s.book with orders := t.book.orders, accounts := t.book.accounts }
                meter := { s.meter with settings := t.meter.settings }
                sales := { s₁.sales with notices := t.sales.notices } }))))

/-- CREDIT of units to an order whose account stays in its status, has no ceiling or falls out of WATCH: order and account
lose the smaller of the units named and what they have, CLAMPED is set when either had less, the accumulator and SATURATED
stay, and an entry joins the posting log, which keeps the last 8; no other order or account changes. An unknown order is
NO_ORDER and units above 16,777,215 BAD_VALUE, the order looked for first (log 34) (R156, R159, R184, R185). -/
def Obligations.Credit : Prop :=
  ∀ (tag : Byte) (ps : List Word) (fs : Fields) (id u : Nat) (s s₁ : State),
    Taken .sales (requestOf tag 0x5F ps) [.one, .two] fs s s₁ → fs.nat 0 = some id → fs.nat 1 = some u →
    (s.book.order id = none → exec (.credit .sales tag ps) s =
      .next ((s₁.reply .sales tag { result := .noOrder }).settle)) ∧
    (∀ o, s.book.order id = some o → 16777215 < u → exec (.credit .sales tag ps) s =
      .next ((s₁.reply .sales tag { result := .badValue }).settle)) ∧
    (∀ o a b, s.book.order id = some o → s.book.account o.account = some a → u ≤ 16777215 → a.EvaluatesTo (a.owed - u) b →
      ∃ t : State, exec (.credit .sales tag ps) s = .next ((t.reply .sales tag { result := .ok, fields :=
          [.two (min u o.units), .two (min u a.owed), .two (o.units - u), .two (a.owed - u), .one b.status.code] }).settle) ∧
        t = { s₁ with book := t.book, meter := { s.meter with log :=
          (if 8 ≤ s.meter.log.length then s.meter.log.tail else s.meter.log) ++
            [.credit id u (min u o.units) (min u a.owed) (decide (o.units < u)) (decide (a.owed < u))] } } ∧
        t.book.order id = some { o with
          units := o.units - u, clamped := o.clamped || decide (o.units < u) || decide (a.owed < u) } ∧
        (∀ other, other ≠ id → t.book.order other = s.book.order other) ∧
        t.book.account o.account = some b ∧
        (∀ other, other ≠ o.account → t.book.account other = s.book.account other) ∧ t.book.lastOrderId = s.book.lastOrderId)

/-- The stages of a posting: gross is count by rate; a DELIVERY posting with its repeat mark or with a gross below the creep
threshold nets 0; the surcharge joins a gross of a target old enough, and the discount comes off; an UNSET RESTORE posting
nets 0. The net joins the order's accumulator, the divisor's quotient joins units and owed units, each clamped at 16,777,215
with SATURATED and METER_SATURATED, and an entry joins the posting log, on an account that stays in its status, has no
ceiling or falls out of WATCH. A posting that leaves the owed units as they were evaluates nothing, and the account stays.
The age of an edition is the current day less its issue day, never below 0 (R156, R159, R179 to R184). -/
def Obligations.Postings : Prop :=
  (∀ c : Charge,
    (c.unset = true → c.reckon = ⟨0, 0, 0, .unset⟩) ∧
    (c.unset = false → c.restore = false → c.repeated = true → c.reckon = ⟨c.count * c.rate, 0, 0, .repeated⟩) ∧
    (c.unset = false → c.restore = false → c.repeated = false → c.count * c.rate < c.creep →
      c.reckon = ⟨c.count * c.rate, 0, 0, .crept⟩) ∧
    (c.unset = false → c.restore = true ∨ (c.repeated = false ∧ c.creep ≤ c.count * c.rate) → ∀ g aged, g = c.count * c.rate →
      (aged = if c.ageThreshold ≠ 0 ∧ c.ageThreshold ≤ c.age then g + g * c.surcharge / 256 else g) →
      c.reckon = ⟨g, aged, aged * (256 - c.discount) / 256, .charged⟩ ∧
      (c.count ≤ 2240 → c.rate ≤ 65535 → c.surcharge ≤ 255 → c.reckon.net ≤ 293023368))) ∧
  (∀ (c : Charge) (o : Order) (a b : Account) (d q net : Nat) (s : State),
    s.book.order c.order = some o → s.book.account o.account = some a → d = s.meter.settings.divisor →
    net = c.reckon.net → q = (o.accumulator + net) / d → a.AfterPosting (min (a.owed + q) 16777215) b →
    ∃ t : State, s.post cutOffDeliveries c =
        (if 16777215 < o.units + q ∨ 16777215 < a.owed + q then t.raise .meterSaturated else t) ∧
      t = { s with book := t.book, meter := { s.meter with log :=
        (if 8 ≤ s.meter.log.length then s.meter.log.tail else s.meter.log) ++
          [.posting c.restore c.order c.item c.work c.count c.reckon.gross c.reckon.aged net q c.reckon.outcome
            (decide (16777215 < o.units + q)) (decide (16777215 < a.owed + q))] } } ∧
      t.book.order c.order = some { o with
        accumulator := (o.accumulator + net) % d, units := min (o.units + q) 16777215
        saturated := o.saturated || decide (16777215 < o.units + q) } ∧
      (∀ other, other ≠ c.order → t.book.order other = s.book.order other) ∧
      t.book.account o.account = some b ∧
      (∀ other, other ≠ o.account → t.book.account other = s.book.account other)) ∧
  (∀ (s : State) (r : RevName) (e : Edition) (n : Nat), s.cat.edition r.edition = some e →
    s.ageOf (.page r) = (if e.issueDay ≤ s.meter.day then s.meter.day - e.issueDay else 0) ∧ s.ageOf (.photo n) = 0)

/-- Every step keeps a fee divisor of at least 1 and every order's grain accumulator below the divisor in force, whatever
posts, credits, stops, starts and divisor changes the step makes (R177, R183, R186, R187). -/
def Obligations.AccumulatorsBelowDivisor : Prop :=
  ∀ s t : State, (1 ≤ s.meter.settings.divisor ∧ ∀ o ∈ s.book.orders, o.accumulator < s.meter.settings.divisor) →
    step s = .next t → 1 ≤ t.meter.settings.divisor ∧ ∀ o ∈ t.book.orders, o.accumulator < t.meter.settings.divisor
end

