-- ==== Sys2Proof/Laws/State.lean ====
section
/-! SUPPORT. One lemma for each field and each update of the state, so that no proof unfolds a record update. -/

namespace Sys2Proof.Machine

/-! ## modCat -/

@[simp] theorem State.modCat_power (s : State) (f : Catalogue → Catalogue) : (s.modCat f).power = s.power := rfl
@[simp] theorem State.modCat_standbyOk (s : State) (f : Catalogue → Catalogue) : (s.modCat f).standbyOk = s.standbyOk := rfl
@[simp] theorem State.modCat_sizeMoves (s : State) (f : Catalogue → Catalogue) : (s.modCat f).sizeMoves = s.sizeMoves := rfl
@[simp] theorem State.modCat_now (s : State) (f : Catalogue → Catalogue) : (s.modCat f).now = s.now := rfl
@[simp] theorem State.modCat_freeCount (s : State) (f : Catalogue → Catalogue) : (s.modCat f).freeCount = s.freeCount := rfl
@[simp] theorem State.modCat_cat (s : State) (f : Catalogue → Catalogue) : (s.modCat f).cat = f s.cat := rfl
@[simp] theorem State.modCat_alloc (s : State) (f : Catalogue → Catalogue) : (s.modCat f).alloc = s.alloc := rfl
@[simp] theorem State.modCat_store (s : State) (f : Catalogue → Catalogue) : (s.modCat f).store = s.store := rfl
@[simp] theorem State.modCat_port (s : State) (f : Catalogue → Catalogue) : (s.modCat f).port = s.port := rfl
@[simp] theorem State.modCat_mover (s : State) (f : Catalogue → Catalogue) : (s.modCat f).mover = s.mover := rfl
@[simp] theorem State.modCat_table (s : State) (f : Catalogue → Catalogue) : (s.modCat f).table = s.table := rfl
@[simp] theorem State.modCat_engine (s : State) (f : Catalogue → Catalogue) : (s.modCat f).engine = s.engine := rfl
@[simp] theorem State.modCat_book (s : State) (f : Catalogue → Catalogue) : (s.modCat f).book = s.book := rfl
@[simp] theorem State.modCat_meter (s : State) (f : Catalogue → Catalogue) : (s.modCat f).meter = s.meter := rfl
@[simp] theorem State.modCat_production (s : State) (f : Catalogue → Catalogue) : (s.modCat f).production = s.production := rfl
@[simp] theorem State.modCat_desk (s : State) (f : Catalogue → Catalogue) : (s.modCat f).desk = s.desk := rfl
@[simp] theorem State.modCat_sales (s : State) (f : Catalogue → Catalogue) : (s.modCat f).sales = s.sales := rfl
@[simp] theorem State.modCat_deskTurn (s : State) (f : Catalogue → Catalogue) : (s.modCat f).deskTurn = s.deskTurn := rfl
@[simp] theorem State.modCat_pending (s : State) (f : Catalogue → Catalogue) : (s.modCat f).pending = s.pending := rfl
@[simp] theorem State.modCat_link (s : State) (f : Catalogue → Catalogue) (l : LinkId) : (s.modCat f).link l = s.link l := by
  cases l <;> rfl

/-! ## modAlloc -/

@[simp] theorem State.modAlloc_power (s : State) (f : Allocator → Allocator) : (s.modAlloc f).power = s.power := rfl
@[simp] theorem State.modAlloc_standbyOk (s : State) (f : Allocator → Allocator) : (s.modAlloc f).standbyOk = s.standbyOk := rfl
@[simp] theorem State.modAlloc_sizeMoves (s : State) (f : Allocator → Allocator) : (s.modAlloc f).sizeMoves = s.sizeMoves := rfl
@[simp] theorem State.modAlloc_now (s : State) (f : Allocator → Allocator) : (s.modAlloc f).now = s.now := rfl
@[simp] theorem State.modAlloc_freeCount (s : State) (f : Allocator → Allocator) : (s.modAlloc f).freeCount = s.freeCount := rfl
@[simp] theorem State.modAlloc_cat (s : State) (f : Allocator → Allocator) : (s.modAlloc f).cat = s.cat := rfl
@[simp] theorem State.modAlloc_alloc (s : State) (f : Allocator → Allocator) : (s.modAlloc f).alloc = f s.alloc := rfl
@[simp] theorem State.modAlloc_store (s : State) (f : Allocator → Allocator) : (s.modAlloc f).store = s.store := rfl
@[simp] theorem State.modAlloc_port (s : State) (f : Allocator → Allocator) : (s.modAlloc f).port = s.port := rfl
@[simp] theorem State.modAlloc_mover (s : State) (f : Allocator → Allocator) : (s.modAlloc f).mover = s.mover := rfl
@[simp] theorem State.modAlloc_table (s : State) (f : Allocator → Allocator) : (s.modAlloc f).table = s.table := rfl
@[simp] theorem State.modAlloc_engine (s : State) (f : Allocator → Allocator) : (s.modAlloc f).engine = s.engine := rfl
@[simp] theorem State.modAlloc_book (s : State) (f : Allocator → Allocator) : (s.modAlloc f).book = s.book := rfl
@[simp] theorem State.modAlloc_meter (s : State) (f : Allocator → Allocator) : (s.modAlloc f).meter = s.meter := rfl
@[simp] theorem State.modAlloc_production (s : State) (f : Allocator → Allocator) : (s.modAlloc f).production = s.production := rfl
@[simp] theorem State.modAlloc_desk (s : State) (f : Allocator → Allocator) : (s.modAlloc f).desk = s.desk := rfl
@[simp] theorem State.modAlloc_sales (s : State) (f : Allocator → Allocator) : (s.modAlloc f).sales = s.sales := rfl
@[simp] theorem State.modAlloc_deskTurn (s : State) (f : Allocator → Allocator) : (s.modAlloc f).deskTurn = s.deskTurn := rfl
@[simp] theorem State.modAlloc_pending (s : State) (f : Allocator → Allocator) : (s.modAlloc f).pending = s.pending := rfl
@[simp] theorem State.modAlloc_link (s : State) (f : Allocator → Allocator) (l : LinkId) : (s.modAlloc f).link l = s.link l := by
  cases l <;> rfl

/-! ## modStore -/

@[simp] theorem State.modStore_power (s : State) (f : Store → Store) : (s.modStore f).power = s.power := rfl
@[simp] theorem State.modStore_standbyOk (s : State) (f : Store → Store) : (s.modStore f).standbyOk = s.standbyOk := rfl
@[simp] theorem State.modStore_sizeMoves (s : State) (f : Store → Store) : (s.modStore f).sizeMoves = s.sizeMoves := rfl
@[simp] theorem State.modStore_now (s : State) (f : Store → Store) : (s.modStore f).now = s.now := rfl
@[simp] theorem State.modStore_freeCount (s : State) (f : Store → Store) : (s.modStore f).freeCount = s.freeCount := rfl
@[simp] theorem State.modStore_cat (s : State) (f : Store → Store) : (s.modStore f).cat = s.cat := rfl
@[simp] theorem State.modStore_alloc (s : State) (f : Store → Store) : (s.modStore f).alloc = s.alloc := rfl
@[simp] theorem State.modStore_store (s : State) (f : Store → Store) : (s.modStore f).store = f s.store := rfl
@[simp] theorem State.modStore_port (s : State) (f : Store → Store) : (s.modStore f).port = s.port := rfl
@[simp] theorem State.modStore_mover (s : State) (f : Store → Store) : (s.modStore f).mover = s.mover := rfl
@[simp] theorem State.modStore_table (s : State) (f : Store → Store) : (s.modStore f).table = s.table := rfl
@[simp] theorem State.modStore_engine (s : State) (f : Store → Store) : (s.modStore f).engine = s.engine := rfl
@[simp] theorem State.modStore_book (s : State) (f : Store → Store) : (s.modStore f).book = s.book := rfl
@[simp] theorem State.modStore_meter (s : State) (f : Store → Store) : (s.modStore f).meter = s.meter := rfl
@[simp] theorem State.modStore_production (s : State) (f : Store → Store) : (s.modStore f).production = s.production := rfl
@[simp] theorem State.modStore_desk (s : State) (f : Store → Store) : (s.modStore f).desk = s.desk := rfl
@[simp] theorem State.modStore_sales (s : State) (f : Store → Store) : (s.modStore f).sales = s.sales := rfl
@[simp] theorem State.modStore_deskTurn (s : State) (f : Store → Store) : (s.modStore f).deskTurn = s.deskTurn := rfl
@[simp] theorem State.modStore_pending (s : State) (f : Store → Store) : (s.modStore f).pending = s.pending := rfl
@[simp] theorem State.modStore_link (s : State) (f : Store → Store) (l : LinkId) : (s.modStore f).link l = s.link l := by
  cases l <;> rfl

/-! ## modPort -/

@[simp] theorem State.modPort_power (s : State) (f : DepositPort → DepositPort) : (s.modPort f).power = s.power := rfl
@[simp] theorem State.modPort_standbyOk (s : State) (f : DepositPort → DepositPort) : (s.modPort f).standbyOk = s.standbyOk := rfl
@[simp] theorem State.modPort_sizeMoves (s : State) (f : DepositPort → DepositPort) : (s.modPort f).sizeMoves = s.sizeMoves := rfl
@[simp] theorem State.modPort_now (s : State) (f : DepositPort → DepositPort) : (s.modPort f).now = s.now := rfl
@[simp] theorem State.modPort_freeCount (s : State) (f : DepositPort → DepositPort) : (s.modPort f).freeCount = s.freeCount := rfl
@[simp] theorem State.modPort_cat (s : State) (f : DepositPort → DepositPort) : (s.modPort f).cat = s.cat := rfl
@[simp] theorem State.modPort_alloc (s : State) (f : DepositPort → DepositPort) : (s.modPort f).alloc = s.alloc := rfl
@[simp] theorem State.modPort_store (s : State) (f : DepositPort → DepositPort) : (s.modPort f).store = s.store := rfl
@[simp] theorem State.modPort_port (s : State) (f : DepositPort → DepositPort) : (s.modPort f).port = f s.port := rfl
@[simp] theorem State.modPort_mover (s : State) (f : DepositPort → DepositPort) : (s.modPort f).mover = s.mover := rfl
@[simp] theorem State.modPort_table (s : State) (f : DepositPort → DepositPort) : (s.modPort f).table = s.table := rfl
@[simp] theorem State.modPort_engine (s : State) (f : DepositPort → DepositPort) : (s.modPort f).engine = s.engine := rfl
@[simp] theorem State.modPort_book (s : State) (f : DepositPort → DepositPort) : (s.modPort f).book = s.book := rfl
@[simp] theorem State.modPort_meter (s : State) (f : DepositPort → DepositPort) : (s.modPort f).meter = s.meter := rfl
@[simp] theorem State.modPort_production (s : State) (f : DepositPort → DepositPort) : (s.modPort f).production = s.production := rfl
@[simp] theorem State.modPort_desk (s : State) (f : DepositPort → DepositPort) : (s.modPort f).desk = s.desk := rfl
@[simp] theorem State.modPort_sales (s : State) (f : DepositPort → DepositPort) : (s.modPort f).sales = s.sales := rfl
@[simp] theorem State.modPort_deskTurn (s : State) (f : DepositPort → DepositPort) : (s.modPort f).deskTurn = s.deskTurn := rfl
@[simp] theorem State.modPort_pending (s : State) (f : DepositPort → DepositPort) : (s.modPort f).pending = s.pending := rfl
@[simp] theorem State.modPort_link (s : State) (f : DepositPort → DepositPort) (l : LinkId) : (s.modPort f).link l = s.link l := by
  cases l <;> rfl

/-! ## modMover -/

@[simp] theorem State.modMover_power (s : State) (f : Mover → Mover) : (s.modMover f).power = s.power := rfl
@[simp] theorem State.modMover_standbyOk (s : State) (f : Mover → Mover) : (s.modMover f).standbyOk = s.standbyOk := rfl
@[simp] theorem State.modMover_sizeMoves (s : State) (f : Mover → Mover) : (s.modMover f).sizeMoves = s.sizeMoves := rfl
@[simp] theorem State.modMover_now (s : State) (f : Mover → Mover) : (s.modMover f).now = s.now := rfl
@[simp] theorem State.modMover_freeCount (s : State) (f : Mover → Mover) : (s.modMover f).freeCount = s.freeCount := rfl
@[simp] theorem State.modMover_cat (s : State) (f : Mover → Mover) : (s.modMover f).cat = s.cat := rfl
@[simp] theorem State.modMover_alloc (s : State) (f : Mover → Mover) : (s.modMover f).alloc = s.alloc := rfl
@[simp] theorem State.modMover_store (s : State) (f : Mover → Mover) : (s.modMover f).store = s.store := rfl
@[simp] theorem State.modMover_port (s : State) (f : Mover → Mover) : (s.modMover f).port = s.port := rfl
@[simp] theorem State.modMover_mover (s : State) (f : Mover → Mover) : (s.modMover f).mover = f s.mover := rfl
@[simp] theorem State.modMover_table (s : State) (f : Mover → Mover) : (s.modMover f).table = s.table := rfl
@[simp] theorem State.modMover_engine (s : State) (f : Mover → Mover) : (s.modMover f).engine = s.engine := rfl
@[simp] theorem State.modMover_book (s : State) (f : Mover → Mover) : (s.modMover f).book = s.book := rfl
@[simp] theorem State.modMover_meter (s : State) (f : Mover → Mover) : (s.modMover f).meter = s.meter := rfl
@[simp] theorem State.modMover_production (s : State) (f : Mover → Mover) : (s.modMover f).production = s.production := rfl
@[simp] theorem State.modMover_desk (s : State) (f : Mover → Mover) : (s.modMover f).desk = s.desk := rfl
@[simp] theorem State.modMover_sales (s : State) (f : Mover → Mover) : (s.modMover f).sales = s.sales := rfl
@[simp] theorem State.modMover_deskTurn (s : State) (f : Mover → Mover) : (s.modMover f).deskTurn = s.deskTurn := rfl
@[simp] theorem State.modMover_pending (s : State) (f : Mover → Mover) : (s.modMover f).pending = s.pending := rfl
@[simp] theorem State.modMover_link (s : State) (f : Mover → Mover) (l : LinkId) : (s.modMover f).link l = s.link l := by
  cases l <;> rfl

/-! ## modTable -/

@[simp] theorem State.modTable_power (s : State) (f : DeliveryTable → DeliveryTable) : (s.modTable f).power = s.power := rfl
@[simp] theorem State.modTable_standbyOk (s : State) (f : DeliveryTable → DeliveryTable) : (s.modTable f).standbyOk = s.standbyOk := rfl
@[simp] theorem State.modTable_sizeMoves (s : State) (f : DeliveryTable → DeliveryTable) : (s.modTable f).sizeMoves = s.sizeMoves := rfl
@[simp] theorem State.modTable_now (s : State) (f : DeliveryTable → DeliveryTable) : (s.modTable f).now = s.now := rfl
@[simp] theorem State.modTable_freeCount (s : State) (f : DeliveryTable → DeliveryTable) : (s.modTable f).freeCount = s.freeCount := rfl
@[simp] theorem State.modTable_cat (s : State) (f : DeliveryTable → DeliveryTable) : (s.modTable f).cat = s.cat := rfl
@[simp] theorem State.modTable_alloc (s : State) (f : DeliveryTable → DeliveryTable) : (s.modTable f).alloc = s.alloc := rfl
@[simp] theorem State.modTable_store (s : State) (f : DeliveryTable → DeliveryTable) : (s.modTable f).store = s.store := rfl
@[simp] theorem State.modTable_port (s : State) (f : DeliveryTable → DeliveryTable) : (s.modTable f).port = s.port := rfl
@[simp] theorem State.modTable_mover (s : State) (f : DeliveryTable → DeliveryTable) : (s.modTable f).mover = s.mover := rfl
@[simp] theorem State.modTable_table (s : State) (f : DeliveryTable → DeliveryTable) : (s.modTable f).table = f s.table := rfl
@[simp] theorem State.modTable_engine (s : State) (f : DeliveryTable → DeliveryTable) : (s.modTable f).engine = s.engine := rfl
@[simp] theorem State.modTable_book (s : State) (f : DeliveryTable → DeliveryTable) : (s.modTable f).book = s.book := rfl
@[simp] theorem State.modTable_meter (s : State) (f : DeliveryTable → DeliveryTable) : (s.modTable f).meter = s.meter := rfl
@[simp] theorem State.modTable_production (s : State) (f : DeliveryTable → DeliveryTable) : (s.modTable f).production = s.production := rfl
@[simp] theorem State.modTable_desk (s : State) (f : DeliveryTable → DeliveryTable) : (s.modTable f).desk = s.desk := rfl
@[simp] theorem State.modTable_sales (s : State) (f : DeliveryTable → DeliveryTable) : (s.modTable f).sales = s.sales := rfl
@[simp] theorem State.modTable_deskTurn (s : State) (f : DeliveryTable → DeliveryTable) : (s.modTable f).deskTurn = s.deskTurn := rfl
@[simp] theorem State.modTable_pending (s : State) (f : DeliveryTable → DeliveryTable) : (s.modTable f).pending = s.pending := rfl
@[simp] theorem State.modTable_link (s : State) (f : DeliveryTable → DeliveryTable) (l : LinkId) : (s.modTable f).link l = s.link l := by
  cases l <;> rfl

/-! ## modEngine -/

@[simp] theorem State.modEngine_power (s : State) (f : Engine → Engine) : (s.modEngine f).power = s.power := rfl
@[simp] theorem State.modEngine_standbyOk (s : State) (f : Engine → Engine) : (s.modEngine f).standbyOk = s.standbyOk := rfl
@[simp] theorem State.modEngine_sizeMoves (s : State) (f : Engine → Engine) : (s.modEngine f).sizeMoves = s.sizeMoves := rfl
@[simp] theorem State.modEngine_now (s : State) (f : Engine → Engine) : (s.modEngine f).now = s.now := rfl
@[simp] theorem State.modEngine_freeCount (s : State) (f : Engine → Engine) : (s.modEngine f).freeCount = s.freeCount := rfl
@[simp] theorem State.modEngine_cat (s : State) (f : Engine → Engine) : (s.modEngine f).cat = s.cat := rfl
@[simp] theorem State.modEngine_alloc (s : State) (f : Engine → Engine) : (s.modEngine f).alloc = s.alloc := rfl
@[simp] theorem State.modEngine_store (s : State) (f : Engine → Engine) : (s.modEngine f).store = s.store := rfl
@[simp] theorem State.modEngine_port (s : State) (f : Engine → Engine) : (s.modEngine f).port = s.port := rfl
@[simp] theorem State.modEngine_mover (s : State) (f : Engine → Engine) : (s.modEngine f).mover = s.mover := rfl
@[simp] theorem State.modEngine_table (s : State) (f : Engine → Engine) : (s.modEngine f).table = s.table := rfl
@[simp] theorem State.modEngine_engine (s : State) (f : Engine → Engine) : (s.modEngine f).engine = f s.engine := rfl
@[simp] theorem State.modEngine_book (s : State) (f : Engine → Engine) : (s.modEngine f).book = s.book := rfl
@[simp] theorem State.modEngine_meter (s : State) (f : Engine → Engine) : (s.modEngine f).meter = s.meter := rfl
@[simp] theorem State.modEngine_production (s : State) (f : Engine → Engine) : (s.modEngine f).production = s.production := rfl
@[simp] theorem State.modEngine_desk (s : State) (f : Engine → Engine) : (s.modEngine f).desk = s.desk := rfl
@[simp] theorem State.modEngine_sales (s : State) (f : Engine → Engine) : (s.modEngine f).sales = s.sales := rfl
@[simp] theorem State.modEngine_deskTurn (s : State) (f : Engine → Engine) : (s.modEngine f).deskTurn = s.deskTurn := rfl
@[simp] theorem State.modEngine_pending (s : State) (f : Engine → Engine) : (s.modEngine f).pending = s.pending := rfl
@[simp] theorem State.modEngine_link (s : State) (f : Engine → Engine) (l : LinkId) : (s.modEngine f).link l = s.link l := by
  cases l <;> rfl

/-! ## modBook -/

@[simp] theorem State.modBook_power (s : State) (f : OrderBook → OrderBook) : (s.modBook f).power = s.power := rfl
@[simp] theorem State.modBook_standbyOk (s : State) (f : OrderBook → OrderBook) : (s.modBook f).standbyOk = s.standbyOk := rfl
@[simp] theorem State.modBook_sizeMoves (s : State) (f : OrderBook → OrderBook) : (s.modBook f).sizeMoves = s.sizeMoves := rfl
@[simp] theorem State.modBook_now (s : State) (f : OrderBook → OrderBook) : (s.modBook f).now = s.now := rfl
@[simp] theorem State.modBook_freeCount (s : State) (f : OrderBook → OrderBook) : (s.modBook f).freeCount = s.freeCount := rfl
@[simp] theorem State.modBook_cat (s : State) (f : OrderBook → OrderBook) : (s.modBook f).cat = s.cat := rfl
@[simp] theorem State.modBook_alloc (s : State) (f : OrderBook → OrderBook) : (s.modBook f).alloc = s.alloc := rfl
@[simp] theorem State.modBook_store (s : State) (f : OrderBook → OrderBook) : (s.modBook f).store = s.store := rfl
@[simp] theorem State.modBook_port (s : State) (f : OrderBook → OrderBook) : (s.modBook f).port = s.port := rfl
@[simp] theorem State.modBook_mover (s : State) (f : OrderBook → OrderBook) : (s.modBook f).mover = s.mover := rfl
@[simp] theorem State.modBook_table (s : State) (f : OrderBook → OrderBook) : (s.modBook f).table = s.table := rfl
@[simp] theorem State.modBook_engine (s : State) (f : OrderBook → OrderBook) : (s.modBook f).engine = s.engine := rfl
@[simp] theorem State.modBook_book (s : State) (f : OrderBook → OrderBook) : (s.modBook f).book = f s.book := rfl
@[simp] theorem State.modBook_meter (s : State) (f : OrderBook → OrderBook) : (s.modBook f).meter = s.meter := rfl
@[simp] theorem State.modBook_production (s : State) (f : OrderBook → OrderBook) : (s.modBook f).production = s.production := rfl
@[simp] theorem State.modBook_desk (s : State) (f : OrderBook → OrderBook) : (s.modBook f).desk = s.desk := rfl
@[simp] theorem State.modBook_sales (s : State) (f : OrderBook → OrderBook) : (s.modBook f).sales = s.sales := rfl
@[simp] theorem State.modBook_deskTurn (s : State) (f : OrderBook → OrderBook) : (s.modBook f).deskTurn = s.deskTurn := rfl
@[simp] theorem State.modBook_pending (s : State) (f : OrderBook → OrderBook) : (s.modBook f).pending = s.pending := rfl
@[simp] theorem State.modBook_link (s : State) (f : OrderBook → OrderBook) (l : LinkId) : (s.modBook f).link l = s.link l := by
  cases l <;> rfl

/-! ## modMeter -/

@[simp] theorem State.modMeter_power (s : State) (f : Meter → Meter) : (s.modMeter f).power = s.power := rfl
@[simp] theorem State.modMeter_standbyOk (s : State) (f : Meter → Meter) : (s.modMeter f).standbyOk = s.standbyOk := rfl
@[simp] theorem State.modMeter_sizeMoves (s : State) (f : Meter → Meter) : (s.modMeter f).sizeMoves = s.sizeMoves := rfl
@[simp] theorem State.modMeter_now (s : State) (f : Meter → Meter) : (s.modMeter f).now = s.now := rfl
@[simp] theorem State.modMeter_freeCount (s : State) (f : Meter → Meter) : (s.modMeter f).freeCount = s.freeCount := rfl
@[simp] theorem State.modMeter_cat (s : State) (f : Meter → Meter) : (s.modMeter f).cat = s.cat := rfl
@[simp] theorem State.modMeter_alloc (s : State) (f : Meter → Meter) : (s.modMeter f).alloc = s.alloc := rfl
@[simp] theorem State.modMeter_store (s : State) (f : Meter → Meter) : (s.modMeter f).store = s.store := rfl
@[simp] theorem State.modMeter_port (s : State) (f : Meter → Meter) : (s.modMeter f).port = s.port := rfl
@[simp] theorem State.modMeter_mover (s : State) (f : Meter → Meter) : (s.modMeter f).mover = s.mover := rfl
@[simp] theorem State.modMeter_table (s : State) (f : Meter → Meter) : (s.modMeter f).table = s.table := rfl
@[simp] theorem State.modMeter_engine (s : State) (f : Meter → Meter) : (s.modMeter f).engine = s.engine := rfl
@[simp] theorem State.modMeter_book (s : State) (f : Meter → Meter) : (s.modMeter f).book = s.book := rfl
@[simp] theorem State.modMeter_meter (s : State) (f : Meter → Meter) : (s.modMeter f).meter = f s.meter := rfl
@[simp] theorem State.modMeter_production (s : State) (f : Meter → Meter) : (s.modMeter f).production = s.production := rfl
@[simp] theorem State.modMeter_desk (s : State) (f : Meter → Meter) : (s.modMeter f).desk = s.desk := rfl
@[simp] theorem State.modMeter_sales (s : State) (f : Meter → Meter) : (s.modMeter f).sales = s.sales := rfl
@[simp] theorem State.modMeter_deskTurn (s : State) (f : Meter → Meter) : (s.modMeter f).deskTurn = s.deskTurn := rfl
@[simp] theorem State.modMeter_pending (s : State) (f : Meter → Meter) : (s.modMeter f).pending = s.pending := rfl
@[simp] theorem State.modMeter_link (s : State) (f : Meter → Meter) (l : LinkId) : (s.modMeter f).link l = s.link l := by
  cases l <;> rfl

/-! ## reach -/

@[simp] theorem State.reach_power (s : State) (m : Nat) : (s.reach m).power = s.power := rfl
@[simp] theorem State.reach_standbyOk (s : State) (m : Nat) : (s.reach m).standbyOk = s.standbyOk := rfl
@[simp] theorem State.reach_sizeMoves (s : State) (m : Nat) : (s.reach m).sizeMoves = s.sizeMoves := rfl
@[simp] theorem State.reach_now (s : State) (m : Nat) : (s.reach m).now = max s.now m := rfl
@[simp] theorem State.reach_freeCount (s : State) (m : Nat) : (s.reach m).freeCount = s.freeCount := rfl
@[simp] theorem State.reach_cat (s : State) (m : Nat) : (s.reach m).cat = s.cat := rfl
@[simp] theorem State.reach_alloc (s : State) (m : Nat) : (s.reach m).alloc = s.alloc := rfl
@[simp] theorem State.reach_store (s : State) (m : Nat) : (s.reach m).store = s.store := rfl
@[simp] theorem State.reach_port (s : State) (m : Nat) : (s.reach m).port = s.port := rfl
@[simp] theorem State.reach_mover (s : State) (m : Nat) : (s.reach m).mover = s.mover := rfl
@[simp] theorem State.reach_table (s : State) (m : Nat) : (s.reach m).table = s.table := rfl
@[simp] theorem State.reach_engine (s : State) (m : Nat) : (s.reach m).engine = s.engine := rfl
@[simp] theorem State.reach_book (s : State) (m : Nat) : (s.reach m).book = s.book := rfl
@[simp] theorem State.reach_meter (s : State) (m : Nat) : (s.reach m).meter = s.meter := rfl
@[simp] theorem State.reach_production (s : State) (m : Nat) : (s.reach m).production = s.production := rfl
@[simp] theorem State.reach_desk (s : State) (m : Nat) : (s.reach m).desk = s.desk := rfl
@[simp] theorem State.reach_sales (s : State) (m : Nat) : (s.reach m).sales = s.sales := rfl
@[simp] theorem State.reach_deskTurn (s : State) (m : Nat) : (s.reach m).deskTurn = s.deskTurn := rfl
@[simp] theorem State.reach_pending (s : State) (m : Nat) : (s.reach m).pending = s.pending := rfl
@[simp] theorem State.reach_link (s : State) (m : Nat) (l : LinkId) : (s.reach m).link l = s.link l := by
  cases l <;> rfl

/-! ## readStrap -/

@[simp] theorem State.readStrap_power (s : State) : s.readStrap.power = s.power := rfl
@[simp] theorem State.readStrap_standbyOk (s : State) : s.readStrap.standbyOk = s.standbyOk := rfl
@[simp] theorem State.readStrap_sizeMoves (s : State) : s.readStrap.sizeMoves = s.sizeMoves.filter (s.now < ·.1) := rfl
@[simp] theorem State.readStrap_now (s : State) : s.readStrap.now = s.now := rfl
@[simp] theorem State.readStrap_freeCount (s : State) : s.readStrap.freeCount = s.freeCount := rfl
@[simp] theorem State.readStrap_cat (s : State) : s.readStrap.cat = s.cat := rfl
@[simp] theorem State.readStrap_alloc (s : State) : s.readStrap.alloc = s.alloc := rfl
@[simp] theorem State.readStrap_store (s : State) : s.readStrap.store = s.store := rfl
@[simp] theorem State.readStrap_port (s : State) : s.readStrap.port = s.port := rfl
@[simp] theorem State.readStrap_mover (s : State) : s.readStrap.mover = s.mover := rfl
@[simp] theorem State.readStrap_table (s : State) : s.readStrap.table = s.table := rfl
@[simp] theorem State.readStrap_engine (s : State) : s.readStrap.engine = s.engine := rfl
@[simp] theorem State.readStrap_book (s : State) : s.readStrap.book = s.book := rfl
@[simp] theorem State.readStrap_meter (s : State) : s.readStrap.meter = s.meter := rfl
@[simp] theorem State.readStrap_production (s : State) : s.readStrap.production = s.production := rfl
@[simp] theorem State.readStrap_desk (s : State) : s.readStrap.desk = s.desk := rfl
@[simp] theorem State.readStrap_sales (s : State) : s.readStrap.sales = s.sales := rfl
@[simp] theorem State.readStrap_deskTurn (s : State) : s.readStrap.deskTurn = s.deskTurn := rfl
@[simp] theorem State.readStrap_pending (s : State) : s.readStrap.pending = s.pending := rfl
@[simp] theorem State.readStrap_link (s : State) (l : LinkId) : s.readStrap.link l = s.link l := by
  cases l <;> rfl

/-! ## setLink, modLink, modNotices, reply, raise -/

@[simp] theorem State.setLink_power (s : State) (l : LinkId) (k : Link) : (s.setLink l k).power = s.power := by
  cases l <;> rfl
@[simp] theorem State.setLink_standbyOk (s : State) (l : LinkId) (k : Link) : (s.setLink l k).standbyOk = s.standbyOk := by
  cases l <;> rfl
@[simp] theorem State.setLink_sizeMoves (s : State) (l : LinkId) (k : Link) : (s.setLink l k).sizeMoves = s.sizeMoves := by
  cases l <;> rfl
@[simp] theorem State.setLink_now (s : State) (l : LinkId) (k : Link) : (s.setLink l k).now = s.now := by
  cases l <;> rfl
@[simp] theorem State.setLink_freeCount (s : State) (l : LinkId) (k : Link) : (s.setLink l k).freeCount = s.freeCount := by
  cases l <;> rfl
@[simp] theorem State.setLink_cat (s : State) (l : LinkId) (k : Link) : (s.setLink l k).cat = s.cat := by
  cases l <;> rfl
@[simp] theorem State.setLink_alloc (s : State) (l : LinkId) (k : Link) : (s.setLink l k).alloc = s.alloc := by
  cases l <;> rfl
@[simp] theorem State.setLink_store (s : State) (l : LinkId) (k : Link) : (s.setLink l k).store = s.store := by
  cases l <;> rfl
@[simp] theorem State.setLink_port (s : State) (l : LinkId) (k : Link) : (s.setLink l k).port = s.port := by
  cases l <;> rfl
@[simp] theorem State.setLink_mover (s : State) (l : LinkId) (k : Link) : (s.setLink l k).mover = s.mover := by
  cases l <;> rfl
@[simp] theorem State.setLink_table (s : State) (l : LinkId) (k : Link) : (s.setLink l k).table = s.table := by
  cases l <;> rfl
@[simp] theorem State.setLink_engine (s : State) (l : LinkId) (k : Link) : (s.setLink l k).engine = s.engine := by
  cases l <;> rfl
@[simp] theorem State.setLink_book (s : State) (l : LinkId) (k : Link) : (s.setLink l k).book = s.book := by
  cases l <;> rfl
@[simp] theorem State.setLink_meter (s : State) (l : LinkId) (k : Link) : (s.setLink l k).meter = s.meter := by
  cases l <;> rfl
@[simp] theorem State.setLink_deskTurn (s : State) (l : LinkId) (k : Link) : (s.setLink l k).deskTurn = s.deskTurn := by
  cases l <;> rfl
@[simp] theorem State.setLink_pending (s : State) (l : LinkId) (k : Link) : (s.setLink l k).pending = s.pending := by
  cases l <;> rfl

@[simp] theorem State.modLink_power (s : State) (l : LinkId) (f : Link → Link) : (s.modLink l f).power = s.power := by
  cases l <;> rfl
@[simp] theorem State.modLink_standbyOk (s : State) (l : LinkId) (f : Link → Link) : (s.modLink l f).standbyOk = s.standbyOk := by
  cases l <;> rfl
@[simp] theorem State.modLink_sizeMoves (s : State) (l : LinkId) (f : Link → Link) : (s.modLink l f).sizeMoves = s.sizeMoves := by
  cases l <;> rfl
@[simp] theorem State.modLink_now (s : State) (l : LinkId) (f : Link → Link) : (s.modLink l f).now = s.now := by
  cases l <;> rfl
@[simp] theorem State.modLink_freeCount (s : State) (l : LinkId) (f : Link → Link) : (s.modLink l f).freeCount = s.freeCount := by
  cases l <;> rfl
@[simp] theorem State.modLink_cat (s : State) (l : LinkId) (f : Link → Link) : (s.modLink l f).cat = s.cat := by
  cases l <;> rfl
@[simp] theorem State.modLink_alloc (s : State) (l : LinkId) (f : Link → Link) : (s.modLink l f).alloc = s.alloc := by
  cases l <;> rfl
@[simp] theorem State.modLink_store (s : State) (l : LinkId) (f : Link → Link) : (s.modLink l f).store = s.store := by
  cases l <;> rfl
@[simp] theorem State.modLink_port (s : State) (l : LinkId) (f : Link → Link) : (s.modLink l f).port = s.port := by
  cases l <;> rfl
@[simp] theorem State.modLink_mover (s : State) (l : LinkId) (f : Link → Link) : (s.modLink l f).mover = s.mover := by
  cases l <;> rfl
@[simp] theorem State.modLink_table (s : State) (l : LinkId) (f : Link → Link) : (s.modLink l f).table = s.table := by
  cases l <;> rfl
@[simp] theorem State.modLink_engine (s : State) (l : LinkId) (f : Link → Link) : (s.modLink l f).engine = s.engine := by
  cases l <;> rfl
@[simp] theorem State.modLink_book (s : State) (l : LinkId) (f : Link → Link) : (s.modLink l f).book = s.book := by
  cases l <;> rfl
@[simp] theorem State.modLink_meter (s : State) (l : LinkId) (f : Link → Link) : (s.modLink l f).meter = s.meter := by
  cases l <;> rfl
@[simp] theorem State.modLink_deskTurn (s : State) (l : LinkId) (f : Link → Link) : (s.modLink l f).deskTurn = s.deskTurn := by
  cases l <;> rfl
@[simp] theorem State.modLink_pending (s : State) (l : LinkId) (f : Link → Link) : (s.modLink l f).pending = s.pending := by
  cases l <;> rfl

@[simp] theorem State.modNotices_power (s : State) (l : LinkId) (f : Controller → Controller) : (s.modNotices l f).power = s.power := by
  cases l <;> rfl
@[simp] theorem State.modNotices_standbyOk (s : State) (l : LinkId) (f : Controller → Controller) : (s.modNotices l f).standbyOk = s.standbyOk := by
  cases l <;> rfl
@[simp] theorem State.modNotices_sizeMoves (s : State) (l : LinkId) (f : Controller → Controller) : (s.modNotices l f).sizeMoves = s.sizeMoves := by
  cases l <;> rfl
@[simp] theorem State.modNotices_now (s : State) (l : LinkId) (f : Controller → Controller) : (s.modNotices l f).now = s.now := by
  cases l <;> rfl
@[simp] theorem State.modNotices_freeCount (s : State) (l : LinkId) (f : Controller → Controller) : (s.modNotices l f).freeCount = s.freeCount := by
  cases l <;> rfl
@[simp] theorem State.modNotices_cat (s : State) (l : LinkId) (f : Controller → Controller) : (s.modNotices l f).cat = s.cat := by
  cases l <;> rfl
@[simp] theorem State.modNotices_alloc (s : State) (l : LinkId) (f : Controller → Controller) : (s.modNotices l f).alloc = s.alloc := by
  cases l <;> rfl
@[simp] theorem State.modNotices_store (s : State) (l : LinkId) (f : Controller → Controller) : (s.modNotices l f).store = s.store := by
  cases l <;> rfl
@[simp] theorem State.modNotices_port (s : State) (l : LinkId) (f : Controller → Controller) : (s.modNotices l f).port = s.port := by
  cases l <;> rfl
@[simp] theorem State.modNotices_mover (s : State) (l : LinkId) (f : Controller → Controller) : (s.modNotices l f).mover = s.mover := by
  cases l <;> rfl
@[simp] theorem State.modNotices_table (s : State) (l : LinkId) (f : Controller → Controller) : (s.modNotices l f).table = s.table := by
  cases l <;> rfl
@[simp] theorem State.modNotices_engine (s : State) (l : LinkId) (f : Controller → Controller) : (s.modNotices l f).engine = s.engine := by
  cases l <;> rfl
@[simp] theorem State.modNotices_book (s : State) (l : LinkId) (f : Controller → Controller) : (s.modNotices l f).book = s.book := by
  cases l <;> rfl
@[simp] theorem State.modNotices_meter (s : State) (l : LinkId) (f : Controller → Controller) : (s.modNotices l f).meter = s.meter := by
  cases l <;> rfl
@[simp] theorem State.modNotices_deskTurn (s : State) (l : LinkId) (f : Controller → Controller) : (s.modNotices l f).deskTurn = s.deskTurn := by
  cases l <;> rfl
@[simp] theorem State.modNotices_pending (s : State) (l : LinkId) (f : Controller → Controller) : (s.modNotices l f).pending = s.pending := by
  cases l <;> rfl

@[simp] theorem State.reply_power (s : State) (l : LinkId) (tag : Byte) (a : Answer) : (s.reply l tag a).power = s.power := by
  cases l <;> rfl
@[simp] theorem State.reply_standbyOk (s : State) (l : LinkId) (tag : Byte) (a : Answer) : (s.reply l tag a).standbyOk = s.standbyOk := by
  cases l <;> rfl
@[simp] theorem State.reply_sizeMoves (s : State) (l : LinkId) (tag : Byte) (a : Answer) : (s.reply l tag a).sizeMoves = s.sizeMoves := by
  cases l <;> rfl
@[simp] theorem State.reply_now (s : State) (l : LinkId) (tag : Byte) (a : Answer) : (s.reply l tag a).now = s.now := by
  cases l <;> rfl
@[simp] theorem State.reply_freeCount (s : State) (l : LinkId) (tag : Byte) (a : Answer) : (s.reply l tag a).freeCount = s.freeCount := by
  cases l <;> rfl
@[simp] theorem State.reply_cat (s : State) (l : LinkId) (tag : Byte) (a : Answer) : (s.reply l tag a).cat = s.cat := by
  cases l <;> rfl
@[simp] theorem State.reply_alloc (s : State) (l : LinkId) (tag : Byte) (a : Answer) : (s.reply l tag a).alloc = s.alloc := by
  cases l <;> rfl
@[simp] theorem State.reply_store (s : State) (l : LinkId) (tag : Byte) (a : Answer) : (s.reply l tag a).store = s.store := by
  cases l <;> rfl
@[simp] theorem State.reply_port (s : State) (l : LinkId) (tag : Byte) (a : Answer) : (s.reply l tag a).port = s.port := by
  cases l <;> rfl
@[simp] theorem State.reply_mover (s : State) (l : LinkId) (tag : Byte) (a : Answer) : (s.reply l tag a).mover = s.mover := by
  cases l <;> rfl
@[simp] theorem State.reply_table (s : State) (l : LinkId) (tag : Byte) (a : Answer) : (s.reply l tag a).table = s.table := by
  cases l <;> rfl
@[simp] theorem State.reply_engine (s : State) (l : LinkId) (tag : Byte) (a : Answer) : (s.reply l tag a).engine = s.engine := by
  cases l <;> rfl
@[simp] theorem State.reply_book (s : State) (l : LinkId) (tag : Byte) (a : Answer) : (s.reply l tag a).book = s.book := by
  cases l <;> rfl
@[simp] theorem State.reply_meter (s : State) (l : LinkId) (tag : Byte) (a : Answer) : (s.reply l tag a).meter = s.meter := by
  cases l <;> rfl
@[simp] theorem State.reply_deskTurn (s : State) (l : LinkId) (tag : Byte) (a : Answer) : (s.reply l tag a).deskTurn = s.deskTurn := by
  cases l <;> rfl
@[simp] theorem State.reply_pending (s : State) (l : LinkId) (tag : Byte) (a : Answer) : (s.reply l tag a).pending = s.pending := by
  cases l <;> rfl

@[simp] theorem State.raise_power (s : State) (n : Notice) : (s.raise n).power = s.power := by
  cases n <;> rfl
@[simp] theorem State.raise_standbyOk (s : State) (n : Notice) : (s.raise n).standbyOk = s.standbyOk := by
  cases n <;> rfl
@[simp] theorem State.raise_sizeMoves (s : State) (n : Notice) : (s.raise n).sizeMoves = s.sizeMoves := by
  cases n <;> rfl
@[simp] theorem State.raise_now (s : State) (n : Notice) : (s.raise n).now = s.now := by
  cases n <;> rfl
@[simp] theorem State.raise_freeCount (s : State) (n : Notice) : (s.raise n).freeCount = s.freeCount := by
  cases n <;> rfl
@[simp] theorem State.raise_cat (s : State) (n : Notice) : (s.raise n).cat = s.cat := by
  cases n <;> rfl
@[simp] theorem State.raise_alloc (s : State) (n : Notice) : (s.raise n).alloc = s.alloc := by
  cases n <;> rfl
@[simp] theorem State.raise_store (s : State) (n : Notice) : (s.raise n).store = s.store := by
  cases n <;> rfl
@[simp] theorem State.raise_port (s : State) (n : Notice) : (s.raise n).port = s.port := by
  cases n <;> rfl
@[simp] theorem State.raise_mover (s : State) (n : Notice) : (s.raise n).mover = s.mover := by
  cases n <;> rfl
@[simp] theorem State.raise_table (s : State) (n : Notice) : (s.raise n).table = s.table := by
  cases n <;> rfl
@[simp] theorem State.raise_engine (s : State) (n : Notice) : (s.raise n).engine = s.engine := by
  cases n <;> rfl
@[simp] theorem State.raise_book (s : State) (n : Notice) : (s.raise n).book = s.book := by
  cases n <;> rfl
@[simp] theorem State.raise_meter (s : State) (n : Notice) : (s.raise n).meter = s.meter := by
  cases n <;> rfl
@[simp] theorem State.raise_deskTurn (s : State) (n : Notice) : (s.raise n).deskTurn = s.deskTurn := by
  cases n <;> rfl
@[simp] theorem State.raise_pending (s : State) (n : Notice) : (s.raise n).pending = s.pending := by
  cases n <;> rfl

@[simp] theorem State.setLink_link (s : State) (l : LinkId) (k : Link) : (s.setLink l k).link l = k := by
  cases l <;> rfl

theorem State.setLink_link_other (s : State) (l m : LinkId) (k : Link) (h : m ≠ l) : (s.setLink l k).link m = s.link m := by
  cases l <;> cases m <;> first | rfl | exact absurd rfl h

@[simp] theorem State.setLink_setLink (s : State) (l : LinkId) (k k' : Link) :
    (s.setLink l k).setLink l k' = s.setLink l k' := by
  cases l <;> rfl

@[simp] theorem State.modLink_link (s : State) (l : LinkId) (f : Link → Link) : (s.modLink l f).link l = f (s.link l) := by
  cases l <;> rfl

theorem State.modLink_link_other (s : State) (l m : LinkId) (f : Link → Link) (h : m ≠ l) :
    (s.modLink l f).link m = s.link m := by
  cases l <;> cases m <;> first | rfl | exact absurd rfl h

/-! ## Four like things -/

@[simp] theorem Four.get_set_same {α : Type} (f : Four α) (i : Fin 4) (x : α) : (f.set i x).get i = x := by
  match i with
  | 0 => rfl
  | 1 => rfl
  | 2 => rfl
  | 3 => rfl

theorem Four.get_set_other {α : Type} (f : Four α) (i j : Fin 4) (x : α) (h : j ≠ i) : (f.set i x).get j = f.get j := by
  match i, j with
  | 0, 0 | 1, 1 | 2, 2 | 3, 3 => exact absurd rfl h
  | 0, 1 | 0, 2 | 0, 3 | 1, 0 | 1, 2 | 1, 3 | 2, 0 | 2, 1 | 2, 3 | 3, 0 | 3, 1 | 3, 2 => rfl

@[simp] theorem State.modChannel_channel (s : State) (c : Fin 4) (f : Channel → Channel) :
    (s.modChannel c f).channel c = f (s.channel c) := by
  simp [State.modChannel, State.channel, Four.get_set_same]

theorem State.modChannel_channel_other (s : State) (c e : Fin 4) (f : Channel → Channel) (h : e ≠ c) :
    (s.modChannel c f).channel e = s.channel e := by
  simp [State.modChannel, State.channel, Four.get_set_other _ _ _ _ h]

end Sys2Proof.Machine
end

