-- ==== Sys2Proof/Laws/Memory.lean ====
section
/-! SUPPORT. The slot memory: every operation keeps the canonical form, a read after a write gives what was written, and a
write leaves every other byte alone. -/

namespace Sys2Proof.Machine

/-! ## Canonical form -/

theorem Memory.wf_nil : Memory.wf [] := ⟨List.Pairwise.nil, by simp⟩

theorem Memory.cells_range (a : Nat) (bs : List Byte) (c : Host.Cell) (h : c ∈ Memory.cells a bs) :
    a ≤ c.1 ∧ c.1 < a + bs.length ∧ c.2 ≠ Memory.unlisted := by
  induction bs generalizing a with
  | nil => simp [Memory.cells] at h
  | cons b bs ih =>
    unfold Memory.cells at h
    split at h
    · have := ih (a + 1) h
      exact ⟨by omega, by simp; omega, this.2.2⟩
    · rcases List.mem_cons.mp h with rfl | h
      · exact ⟨Nat.le_refl _, by simp, by assumption⟩
      · have := ih (a + 1) h
        exact ⟨by omega, by simp; omega, this.2.2⟩

theorem Memory.cells_wf (a : Nat) (bs : List Byte) : Memory.wf (Memory.cells a bs) := by
  refine ⟨?_, fun c hc => (Memory.cells_range a bs c hc).2.2⟩
  rw [List.pairwise_map]
  induction bs generalizing a with
  | nil => exact List.Pairwise.nil
  | cons b bs ih =>
    unfold Memory.cells
    split
    · exact ih _
    · refine List.Pairwise.cons (fun c hc => ?_) (ih _)
      have := Memory.cells_range _ _ c hc
      exact Nat.lt_of_succ_le this.1

/-- A write keeps the canonical form. -/
theorem Memory.write_wf (m : List Host.Cell) (a : Nat) (bs : List Byte) (h : Memory.wf m) : Memory.wf (Memory.write m a bs) := by
  obtain ⟨hs, hn⟩ := h
  have hc := Memory.cells_wf a bs
  rw [List.pairwise_map] at hs
  refine ⟨?_, fun c hc' => ?_⟩
  · rw [List.pairwise_map, Memory.write, List.pairwise_append, List.pairwise_append]
    refine ⟨⟨hs.filter _, (List.pairwise_map.mp hc.1), fun x hx y hy => ?_⟩, hs.filter _, fun x hx y hy => ?_⟩
    · have h1 := (List.mem_filter.mp hx).2
      have h2 := Memory.cells_range _ _ y hy
      simp at h1; omega
    · have h2 := (List.mem_filter.mp hy).2
      simp at h2
      rcases List.mem_append.mp hx with hx | hx
      · have h1 := (List.mem_filter.mp hx).2
        simp at h1; omega
      · have h1 := Memory.cells_range _ _ x hx
        omega
  · rcases List.mem_append.mp hc' with h1 | h1
    · rcases List.mem_append.mp h1 with h2 | h2
      · exact hn c (List.mem_filter.mp h2).1
      · exact hc.2 c h2
    · exact hn c (List.mem_filter.mp h1).1

/-- A slot write keeps the canonical form. -/
theorem Memory.writeSlot_wf (m : List Host.Cell) (slot : Nat) (t : Tile) (h : Memory.wf m) :
    Memory.wf (Memory.writeSlot m slot t) := Memory.write_wf _ _ _ h

/-- Changed DRAM cells keep the canonical form. -/
theorem Memory.upset_wf (m : List Host.Cell) (slot : Nat) (us : List Upset) (h : Memory.wf m) :
    Memory.wf (Memory.upset m slot us) := by
  induction us generalizing m with
  | nil => exact h
  | cons u us ih =>
    obtain ⟨o, b⟩ := u
    unfold Memory.upset
    split
    · exact ih _ (Memory.write_wf _ _ _ h)
    · exact ih _ h

/-! ## Reading what was written -/

theorem Memory.read_append (m n : List Host.Cell) (a : Nat) (h : ∀ c ∈ m, c.1 ≠ a) :
    Memory.read (m ++ n) a = Memory.read n a := by
  have : m.find? (·.1 = a) = none := by
    rw [List.find?_eq_none]; intro c hc; simpa using h c hc
  simp [Memory.read, List.find?_append, this]

theorem Memory.read_append_left (m n : List Host.Cell) (a : Nat) (h : ∀ c ∈ n, c.1 ≠ a) :
    Memory.read (m ++ n) a = Memory.read m a := by
  have : n.find? (·.1 = a) = none := by
    rw [List.find?_eq_none]; intro c hc; simpa using h c hc
  cases hm : m.find? (·.1 = a) <;> simp [Memory.read, List.find?_append, this, hm]

theorem Memory.read_filter (m : List Host.Cell) (p : Host.Cell → Bool) (a : Nat) (h : ∀ c : Host.Cell, c.1 = a → p c = true) :
    Memory.read (m.filter p) a = Memory.read m a := by
  have : (m.filter p).find? (·.1 = a) = m.find? (·.1 = a) := by
    rw [List.find?_filter]
    congr 1; funext c
    by_cases hc : c.1 = a
    · simp [hc, h c hc]
    · simp [hc]
  simp only [Memory.read, this]

theorem Memory.read_cells (a : Nat) (bs : List Byte) (i : Nat) (h : i < bs.length) :
    Memory.read (Memory.cells a bs) (a + i) = bs[i] := by
  induction bs generalizing a i with
  | nil => simp at h
  | cons b bs ih =>
    unfold Memory.cells
    match i with
    | 0 =>
      split
      next hb =>
        have : (Memory.cells (a + 1) bs).find? (·.1 = a + 0) = none := by
          rw [List.find?_eq_none]; intro c hc
          have := Memory.cells_range _ _ c hc
          simp; omega
        rw [Nat.add_zero] at this
        simp [Memory.read, this, hb]
      next => simp [Memory.read]
    | i + 1 =>
      have hi : i < bs.length := by simpa using h
      have e : a + (i + 1) = (a + 1) + i := by omega
      split
      · rw [e, ih (a + 1) i hi]; rfl
      · have : Memory.read ((a, b) :: Memory.cells (a + 1) bs) (a + (i + 1)) =
            Memory.read (Memory.cells (a + 1) bs) (a + (i + 1)) := by
          refine Memory.read_append [(a, b)] _ _ ?_
          intro c hc; simp at hc; subst hc; simp
        rw [this, e, ih (a + 1) i hi]; rfl

/-- A read of a byte that a write covered gives the byte written. -/
theorem Memory.read_write (m : List Host.Cell) (a : Nat) (bs : List Byte) (i : Nat) (h : i < bs.length) :
    Memory.read (Memory.write m a bs) (a + i) = bs[i] := by
  rw [Memory.write, Memory.read_append_left, Memory.read_append, Memory.read_cells a bs i h]
  · intro c hc; have := (List.mem_filter.mp hc).2; simp at this; omega
  · intro c hc; have := (List.mem_filter.mp hc).2; simp at this; omega

/-- A write leaves every other byte alone. -/
theorem Memory.read_write_other (m : List Host.Cell) (a : Nat) (bs : List Byte) (b : Nat) (h : b < a ∨ a + bs.length ≤ b) :
    Memory.read (Memory.write m a bs) b = Memory.read m b := by
  have hcells : ∀ c ∈ Memory.cells a bs, c.1 ≠ b := by
    intro c hc; have := Memory.cells_range _ _ c hc; omega
  rw [Memory.write]
  rcases h with h | h
  · rw [Memory.read_append_left, Memory.read_append_left _ _ _ hcells, Memory.read_filter]
    · intro c hc; simp; omega
    · intro c hc; have := (List.mem_filter.mp hc).2; simp at this; omega
  · rw [Memory.read_append, Memory.read_filter]
    · intro c hc; simp; omega
    · intro c hc
      rcases List.mem_append.mp hc with h1 | h1
      · have := (List.mem_filter.mp h1).2; simp at this; omega
      · exact hcells c h1

theorem fitTile_length (bs : List Byte) : (fitTile bs).length = tileBytes := by
  simp [fitTile]; omega

/-- A slot write leaves every address outside the slot alone. -/
theorem Memory.read_writeSlot_other (m : List Host.Cell) (slot : Nat) (t : Tile) (b : Nat)
    (h : b < slotAddr slot ∨ slotAddr slot + slotBytes ≤ b) :
    Memory.read (Memory.writeSlot m slot t) b = Memory.read m b := by
  refine Memory.read_write_other _ _ _ _ ?_
  simpa [fitTile_length, tileBytes, slotBytes, Nat.add_assoc] using h

theorem hiByte_append_loByte (w : Word) : (hiByte w.toNat) ++ (loByte w.toNat) = w := by
  have h : hiByte w.toNat = w.extractLsb' 8 8 := by
    apply BitVec.eq_of_toNat_eq; simp [hiByte, Nat.shiftRight_eq_div_pow]
  have l : loByte w.toNat = w.extractLsb' 0 8 := by
    apply BitVec.eq_of_toNat_eq; simp [loByte]
  rw [h, l]
  ext i hi
  simp only [BitVec.getElem_append, BitVec.getElem_extractLsb']
  split
  · simp [BitVec.getLsbD_eq_getElem hi]
  · rw [show 8 + (i - 8) = i by omega, BitVec.getLsbD_eq_getElem hi]

theorem Memory.readSlot_writeSlot_byte (m : List Host.Cell) (slot : Nat) (t : Tile) (i : Nat) (h : i < tileBytes) :
    Memory.read (Memory.writeSlot m slot t) (slotAddr slot + i) = (fitTile t.bytes)[i]'(by rw [fitTile_length]; exact h) := by
  have hl := fitTile_length t.bytes
  rw [Memory.writeSlot, Memory.read_write _ _ _ _ (by simp [hl]; omega), List.getElem_append_left]

/-- What was written to a slot is what a read of it gives (R69). -/
theorem Memory.readSlot_writeSlot (m : List Host.Cell) (slot : Nat) (t : Tile) :
    Memory.readSlot (Memory.writeSlot m slot t) slot = { bytes := fitTile t.bytes, check := t.check } := by
  have hl := fitTile_length t.bytes
  have h0 : Memory.read (Memory.writeSlot m slot t) (slotAddr slot + tileBytes) = hiByte t.check.toNat := by
    rw [Memory.writeSlot, Memory.read_write _ _ _ _ (by simp [hl]), List.getElem_append_right (by omega)]
    simp [hl]
  have h1 : Memory.read (Memory.writeSlot m slot t) (slotAddr slot + tileBytes + 1) = loByte t.check.toNat := by
    rw [Nat.add_assoc, Memory.writeSlot, Memory.read_write _ _ _ _ (by simp [hl]), List.getElem_append_right (by omega)]
    simp [hl]
  have hb : (List.range tileBytes).map (fun i => Memory.read (Memory.writeSlot m slot t) (slotAddr slot + i)) =
      fitTile t.bytes := by
    apply List.ext_getElem
    · simp [hl]
    · intro i h1 h2
      simp only [List.getElem_map, List.getElem_range]
      exact Memory.readSlot_writeSlot_byte m slot t i (by simpa using h1)
  rw [Memory.readSlot, h0, h1, hb, hiByte_append_loByte]

/-- A write to a slot leaves every other slot as it read. -/
theorem Memory.readSlot_writeSlot_other (m : List Host.Cell) (slot other : Nat) (t : Tile) (h : other ≠ slot) :
    Memory.readSlot (Memory.writeSlot m slot t) other = Memory.readSlot m other := by
  have far : ∀ i, i < slotBytes →
      Memory.read (Memory.writeSlot m slot t) (slotAddr other + i) = Memory.read m (slotAddr other + i) := by
    intro i hi
    apply Memory.read_writeSlot_other
    simp only [slotAddr, slotBytes] at *
    omega
  have hb : (List.range tileBytes).map (fun i => Memory.read (Memory.writeSlot m slot t) (slotAddr other + i)) =
      (List.range tileBytes).map fun i => Memory.read m (slotAddr other + i) := by
    apply List.map_congr_left
    intro i hi
    have := List.mem_range.mp hi
    exact far i (Nat.lt_trans this (by decide))
  rw [Memory.readSlot, Memory.readSlot, hb, far tileBytes (by decide), Nat.add_assoc, far (tileBytes + 1) (by decide)]

end Sys2Proof.Machine
end

