-- ==== Sys2Proof/Laws/Requests.lean ====
section
/-! SUPPORT. The taking of a request: what serve answers in each case, said once. -/

namespace Sys2Proof.Machine

variable {finish : State → State} {l : LinkId} {home : Home} {layout : List Layout} {r : Request} {body : Body}
  {fs : Fields} {s s₁ : State}

/-- A request that its link takes is answered by its rule (R192). -/
theorem serve_taken (h : Taken l r layout fs s s₁) (hl : home.allows l = true) :
    serve finish l home layout r body s = .next (finish ((body fs s₁).2.reply l r.tag (body fs s₁).1)) := by
  obtain ⟨hp, hf, k, hk, hfree, rfl⟩ := h
  simp [serve, whenRunning, hp, hk, hfree, answerRequest, hl, hf]

/-- A request on a link it does not belong to is answered WRONG_LINK, before its parameters are read (R190, R191). -/
theorem serve_wrongLink (k : Link) (hp : s.power = .running) (hk : (s.link l).present r = some k)
    (hfree : k.placeFree = true) (hl : home.allows l = false) :
    serve finish l home layout r body s =
      .next (finish ((s.setLink l k.take).reply l r.tag (Answer.refuse .wrongLink))) := by
  simp [serve, whenRunning, hp, hk, hfree, answerRequest, hl]

/-- A request whose parameter words do not fit its layout is answered BAD_VALUE (R205). -/
theorem serve_malformed (k : Link) (hp : s.power = .running) (hk : (s.link l).present r = some k)
    (hfree : k.placeFree = true) (hl : home.allows l = true) (hf : readFields layout r.params = none) :
    serve finish l home layout r body s =
      .next (finish ((s.setLink l k.take).reply l r.tag (Answer.refuse .badValue))) := by
  simp [serve, whenRunning, hp, hk, hfree, answerRequest, hl, hf]

/-- A request waits in its link's queue while no reply place is free (R192). -/
theorem serve_waits (k : Link) (hp : s.power = .running) (hk : (s.link l).present r = some k)
    (hfree : k.placeFree = false) : serve finish l home layout r body s = .next (s.setLink l k) := by
  simp [serve, whenRunning, hp, hk, hfree]

/-- A request that is not at the head of the queue does nothing (log 2). -/
theorem serve_absent (hp : s.power = .running) (hk : (s.link l).present r = none) :
    serve finish l home layout r body s = .next s := by
  simp [serve, whenRunning, hp, hk]

/-- A part that does not run takes no request (R68). -/
theorem serve_stopped (hp : s.power ≠ .running) : serve finish l home layout r body s = .next s := by
  simp [serve, whenRunning, hp]

/-- What serve can answer: the state itself, the request left in the queue, or one reply with the request's tag (R192). -/
theorem serve_cases : serve finish l home layout r body s = .next s ∨
    ∃ k, s.power = .running ∧ (s.link l).present r = some k ∧
      ((k.placeFree = false ∧ serve finish l home layout r body s = .next (s.setLink l k)) ∨
       (k.placeFree = true ∧ serve finish l home layout r body s =
          .next (finish ((answerRequest l home layout r.params body (s.setLink l k.take)).2.reply l r.tag
            (answerRequest l home layout r.params body (s.setLink l k.take)).1)))) := by
  by_cases hp : s.power = .running
  · cases hk : (s.link l).present r with
    | none => exact .inl (serve_absent hp hk)
    | some k =>
      refine .inr ⟨k, hp, rfl, ?_⟩
      cases hfree : k.placeFree with
      | false => exact .inl ⟨rfl, serve_waits k hp hk hfree⟩
      | true => exact .inr ⟨rfl, by simp [serve, whenRunning, hp, hk, hfree]⟩
  · exact .inl (serve_stopped hp)

@[simp] theorem requestOf_tag (tag : Byte) (code : Nat) (ps : List Word) : (requestOf tag code ps).tag = tag := rfl
@[simp] theorem requestOf_params (tag : Byte) (code : Nat) (ps : List Word) : (requestOf tag code ps).params = ps := rfl
@[simp] theorem Home.allows_all (l : LinkId) : Home.all.allows l = true := rfl
@[simp] theorem Home.allows_only (l m : LinkId) : (Home.only m).allows l = decide (m = l) := rfl
@[simp] theorem required_some (n : Nat) (s : State) (f : Nat → Answer × State) : required (some n) s f = f n := rfl
@[simp] theorem required_none (s : State) (f : Nat → Answer × State) : required none s f = refuseWith .badValue s := rfl
@[simp] theorem checked_ok {α : Type} (x : α) (s : State) (f : α → Answer × State) : checked (.ok x) s f = f x := rfl
@[simp] theorem checked_error {α : Type} (a : Answer) (s : State) (f : α → Answer × State) :
    checked (.error a) s f = (a, s) := rfl

/-- The link after a request was taken keeps what is not its queue or its held frame. -/
@[simp] theorem Link.take_replies (k : Link) : k.take.replies = k.replies := by
  unfold Link.take; split <;> rfl
@[simp] theorem Link.take_sending (k : Link) : k.take.sending = k.sending := by
  unfold Link.take; split <;> rfl
@[simp] theorem Link.take_notices (k : Link) : k.take.notices = k.notices := by
  unfold Link.take; split <;> rfl

/-- Presenting a request keeps what is not the queue. -/
theorem Link.present_keeps {k k' : Link} {r : Request} (h : k.present r = some k') :
    k'.replies = k.replies ∧ k'.sending = k.sending ∧ k'.notices = k.notices ∧ k'.held = k.held := by
  unfold Link.present at h
  split at h
  · split at h
    · cases h; exact ⟨rfl, rfl, rfl, rfl⟩
    · cases h
  · split at h
    · cases h; exact ⟨rfl, rfl, rfl, rfl⟩
    · cases h

/-- The state a taken request acts on differs from the one before only in its link's queue and held frame. -/
theorem Taken.frame (h : Taken l r layout fs s s₁) :
    s₁ = s.setLink l (s₁.link l) ∧ (s₁.link l).replies = (s.link l).replies ∧
      (s₁.link l).sending = (s.link l).sending ∧ (s₁.link l).notices = (s.link l).notices := by
  obtain ⟨-, -, k, hk, -, rfl⟩ := h
  obtain ⟨h1, h2, h3, -⟩ := Link.present_keeps hk
  simp [h1, h2, h3]

end Sys2Proof.Machine
end

