-- ==== Sys2Proof/Laws/Bounds.lean ====
section
/-! SUPPORT. The shared operations keep the bounds of State.sound. -/

namespace Sys2Proof.Machine

/-! ## Updates of one block -/

theorem State.modCat_sound {s : State} (f : Catalogue → Catalogue) (h : s.sound) : (s.modCat f).sound := h
theorem State.modAlloc_sound {s : State} (f : Allocator → Allocator) (h : s.sound) : (s.modAlloc f).sound := h
theorem State.modMover_sound {s : State} (f : Mover → Mover) (h : s.sound) : (s.modMover f).sound := h
theorem State.modBook_sound {s : State} (f : OrderBook → OrderBook) (h : s.sound) : (s.modBook f).sound := h
theorem State.modChannel_sound {s : State} (c : Fin 4) (f : Channel → Channel) (h : s.sound) : (s.modChannel c f).sound := h
theorem State.reach_sound {s : State} (m : Nat) (h : s.sound) : (s.reach m).sound := h

theorem State.modStore_sound {s : State} (f : Store → Store) (h : s.sound) (hm : (f s.store).mem = s.store.mem)
    (hd : (f s.store).debt ≤ s.store.debt) (hs : s.store.single → (f s.store).single) : (s.modStore f).sound := by
  obtain ⟨h1, h2, h3⟩ := h
  exact ⟨by rw [State.modStore_store, hm]; exact h1, ⟨Nat.le_trans hd h2.1, hs h2.2⟩, h3⟩

theorem State.modPort_sound {s : State} (f : DepositPort → DepositPort) (h : s.sound) (he : (f s.port).ended.length ≤ 8) :
    (s.modPort f).sound := by
  obtain ⟨h1, h2, -, h4⟩ := h
  exact ⟨h1, h2, he, h4⟩

theorem State.modTable_sound {s : State} (f : DeliveryTable → DeliveryTable) (h : s.sound)
    (he : (f s.table).records.length ≤ deliveryPlaces) : (s.modTable f).sound := by
  obtain ⟨h1, h2, h3, -, h5⟩ := h
  exact ⟨h1, h2, h3, he, h5⟩

theorem State.modEngine_sound {s : State} (f : Engine → Engine) (h : s.sound) (hq : (f s.engine).queue.length ≤ 16)
    (he : (f s.engine).ended.length ≤ 8) (hp : (f s.engine).profiles.length = 32) : (s.modEngine f).sound := by
  obtain ⟨h1, h2, h3, h4, -, -, -, h8⟩ := h
  exact ⟨h1, h2, h3, h4, hq, he, hp, h8⟩

theorem State.modMeter_sound {s : State} (f : Meter → Meter) (h : s.sound) (ht : (f s.meter).tariffs.length = 16)
    (hl : (f s.meter).log.length ≤ 8) (hd : 1 ≤ (f s.meter).settings.divisor) : (s.modMeter f).sound := by
  obtain ⟨h1, h2, h3, h4, h5, h6, h7, -, -, -, h11⟩ := h
  exact ⟨h1, h2, h3, h4, h5, h6, h7, ht, hl, hd, h11⟩

/-! ## Links -/

theorem State.sound_link {s : State} (h : s.sound) (l : LinkId) : Link.sound l (s.link l) := by
  obtain ⟨-, -, -, -, -, -, -, -, -, -, h1, h2, h3⟩ := h
  cases l <;> assumption

theorem State.setLink_sound {s : State} (l : LinkId) (k : Link) (h : s.sound) (hk : Link.sound l k) :
    (s.setLink l k).sound := by
  obtain ⟨h1, h2, h3, h4, h5, h6, h7, h8, h9, h10, p, d, a⟩ := h
  cases l
  · exact ⟨h1, h2, h3, h4, h5, h6, h7, h8, h9, h10, hk, d, a⟩
  · exact ⟨h1, h2, h3, h4, h5, h6, h7, h8, h9, h10, p, hk, a⟩
  · exact ⟨h1, h2, h3, h4, h5, h6, h7, h8, h9, h10, p, d, hk⟩

theorem State.modNotices_sound {s : State} (l : LinkId) (f : Controller → Controller) (h : s.sound)
    (hf : (f (s.link l).notices).sources.length = sourceCount l) : (s.modNotices l f).sound := by
  have := s.sound_link h l
  exact State.setLink_sound _ _ h ⟨this.1, this.2.1, hf⟩

theorem Controller.modify_length (c : Controller) (n : Nat) (f : Source → Source) :
    (c.modify n f).sources.length = c.sources.length := by
  simp [Controller.modify]

theorem State.modSource_sound {s : State} (l : LinkId) (n : Nat) (f : Source → Source) (h : s.sound) :
    (s.modNotices l (·.modify n f)).sound :=
  State.modNotices_sound _ _ h (by rw [Controller.modify_length]; exact (s.sound_link h l).2.2)

/-- Raising a notice. -/
theorem State.raise_sound {s : State} (n : Notice) (h : s.sound) : (s.raise n).sound := State.modSource_sound _ _ _ h

/-- A reply into a free place. -/
theorem State.reply_sound {s : State} (l : LinkId) (tag : Byte) (a : Answer) (h : s.sound)
    (hfree : (s.link l).placeFree = true) : (s.reply l tag a).sound := by
  have hk := s.sound_link h l
  refine State.setLink_sound _ _ h ⟨hk.1, ?_, hk.2.2⟩
  simp [Link.placeFree, replyPlaces] at *; omega

/-! ## The store -/

/-- What of the store only a start changes (R66, R67, R82). -/
def Store.fixed (st : Store) : StoreHeader × Nat × Bool × StartKind := (st.header, st.slotCount, st.sizeHigh, st.lastStart)

/-- A store operation that leaves the slot memory and what a start fixes alone, does not raise the debt and grants no
second transfer. -/
def Store.Calm (f : Store → Store) : Prop :=
  ∀ st, (f st).mem = st.mem ∧ (f st).debt ≤ st.debt ∧ (f st).fixed = st.fixed ∧ (st.single → (f st).single)

theorem State.calm_sound {s : State} {f : Store → Store} (hf : Store.Calm f) (h : s.sound) : (s.modStore f).sound :=
  State.modStore_sound f h (hf _).1 (hf _).2.1 (hf _).2.2.2

theorem Store.ask_calm (now : Nat) (t : Transfer) : Store.Calm (Store.ask now t) := by
  intro st; unfold Store.ask; dsimp only; split <;> exact ⟨rfl, Nat.le_refl _, rfl, id⟩
theorem Store.withdraw_calm (c : Client) : Store.Calm (Store.withdraw c) := by
  intro st; unfold Store.withdraw; dsimp only; split
  · exact ⟨rfl, Nat.le_refl _, rfl, fun _ => .inl rfl⟩
  · exact ⟨rfl, Nat.le_refl _, rfl, id⟩
theorem Store.endWithdrawn_calm : Store.Calm Store.endWithdrawn := fun _ => ⟨rfl, Nat.le_refl _, rfl, fun _ => .inr rfl⟩
theorem Store.enterQuiet_calm : Store.Calm Store.enterQuiet := fun _ => ⟨rfl, Nat.zero_le _, rfl, id⟩
theorem Store.quietIfDue_calm (now : Nat) : Store.Calm (Store.quietIfDue now) := by
  intro st; unfold Store.quietIfDue; split
  · exact Store.enterQuiet_calm st
  · exact ⟨rfl, Nat.le_refl _, rfl, id⟩
theorem Store.fixedDown_calm (now : Nat) : Store.Calm (Store.fixedDown now) := by
  intro st; unfold Store.fixedDown; dsimp only; split
  · exact Store.quietIfDue_calm now { st with fixedCount := st.fixedCount - 1 }
  · exact ⟨rfl, Nat.le_refl _, rfl, id⟩
theorem Store.choose_calm : Store.Calm Store.choose := by
  intro st; unfold Store.choose Store.serveBurst Store.halt Store.grant Store.busy
  split
  · exact ⟨rfl, Nat.le_refl _, rfl, id⟩
  · rename_i hb
    simp only [Bool.or_eq_true, not_or, Bool.not_eq_true, Option.isSome_eq_false_iff, Option.isNone_iff_eq_none] at hb
    repeat' split
    all_goals exact ⟨rfl, Nat.le_refl _, rfl, fun h => by first | exact h | exact .inr hb.2.1.2⟩
theorem Store.settle_calm (now : Nat) : Store.Calm (Store.settle now) := fun st => Store.choose_calm st
theorem Store.burstEnds_calm : Store.Calm Store.burstEnds := fun _ => ⟨rfl, Nat.sub_le _ _, rfl, id⟩
theorem Store.hold_calm : Store.Calm Store.hold := fun _ => ⟨rfl, Nat.zero_le _, rfl, fun _ => .inl rfl⟩
theorem Store.wake_calm (now : Nat) : Store.Calm (Store.wake now) := fun _ => ⟨rfl, Nat.zero_le _, rfl, id⟩
theorem Store.setSettings_calm (now a b : Nat) : Store.Calm (Store.setSettings now a b) :=
  fun st => Store.quietIfDue_calm now { st with quietThreshold := a, burstLength := b }

/-- A transfer that completes keeps the memory's form, and nothing is in flight after it. -/
theorem State.complete_sound {s : State} (t : Transfer) (h : s.sound) : (s.modStore (Store.complete t)).sound := by
  obtain ⟨h1, h2, h3⟩ := h
  refine ⟨?_, ⟨h2.1, .inl rfl⟩, h3⟩
  rw [State.modStore_store]
  unfold Store.complete
  dsimp only
  split
  · exact h1
  · exact Memory.writeSlot_wf _ _ _ h1

/-- The refresh timer keeps the slots, the transfers and what a start fixes, and the debt is at most 8 after it. -/
theorem Store.refreshFalls_keeps (due : Nat) (st : Store) : (st.refreshFalls due).mem = st.mem ∧
    (st.refreshFalls due).debt ≤ 8 ∧ (st.refreshFalls due).fixed = st.fixed ∧
      (st.single → (st.refreshFalls due).single) := by
  unfold Store.refreshFalls
  dsimp only
  split <;> exact ⟨rfl, Nat.min_le_right _ _, rfl, id⟩

/-- The refresh debt rises by 1 up to 8. -/
theorem State.refreshFalls_sound {s : State} (due : Nat) (h : s.sound) : (s.modStore (Store.refreshFalls due)).sound := by
  obtain ⟨h1, h2, h3⟩ := h
  obtain ⟨hm, hd, -, hs⟩ := Store.refreshFalls_keeps due s.store
  exact ⟨by rw [State.modStore_store, hm]; exact h1, by rw [State.modStore_store]; exact ⟨hd, hs h2.2⟩, h3⟩

/-! ## Transmitters and the end of a step -/

theorem State.transmit_sound {s : State} (l : LinkId) (h : s.sound) : (s.transmit l).sound := by
  have link (s : State) (h : s.sound) (m : LinkId) (x : Option Sending) :
      (s.modLink m fun k => { k with sending := x }).sound := by
    have := s.sound_link h m
    exact State.setLink_sound _ _ h this
  unfold State.transmit
  split
  · exact h
  · split
    · exact link _ h _ _
    · split
      · split
        · exact link _ (State.modChannel_sound _ _ h) _ _
        · exact h
      · exact h

theorem State.settle_sound {s : State} (h : s.sound) : s.settle.sound :=
  State.transmit_sound _ (State.transmit_sound _ (State.transmit_sound _ (State.calm_sound (Store.settle_calm _) h)))

/-! ## Steady operations

The rules of the blocks leave alone the command queue, the power, what a start fixes, and the queues, held frames, reply
places and transmitters of the links. An operation that does so and keeps the bounds is steady. -/

/-- What a link has in passage: its queue, its held frame, its replies and what it is sending. -/
def Link.traffic (k : Link) : List Request × Option Held × List Reply × Option Sending :=
  (k.queue, k.held, k.replies, k.sending)

/-- What the rules of the blocks leave alone. -/
structure Passage where
  pending : List Instr
  power : Power
  standbyOk : Bool
  fixed : StoreHeader × Nat × Bool × StartKind
  traffic : LinkId → List Request × Option Held × List Reply × Option Sending

/-- What the rules of the blocks leave alone, of a state. -/
def State.passage (s : State) : Passage := ⟨s.pending, s.power, s.standbyOk, s.store.fixed, fun l => (s.link l).traffic⟩

/-- The bounds hold, and what the rules of the blocks leave alone is `T`. -/
def State.steady (T : Passage) (s : State) : Prop := s.sound ∧ s.passage = T

variable {T : Passage}

theorem State.sound.steady {s : State} (h : s.sound) : s.steady s.passage := ⟨h, rfl⟩

theorem State.modCat_steady {s : State} (f : Catalogue → Catalogue) (h : s.steady T) : (s.modCat f).steady T := h
theorem State.modAlloc_steady {s : State} (f : Allocator → Allocator) (h : s.steady T) : (s.modAlloc f).steady T := h
theorem State.modMover_steady {s : State} (f : Mover → Mover) (h : s.steady T) : (s.modMover f).steady T := h
theorem State.modBook_steady {s : State} (f : OrderBook → OrderBook) (h : s.steady T) : (s.modBook f).steady T := h
theorem State.modChannel_steady {s : State} (c : Fin 4) (f : Channel → Channel) (h : s.steady T) :
    (s.modChannel c f).steady T := h
theorem State.reach_steady {s : State} (m : Nat) (h : s.steady T) : (s.reach m).steady T := h
theorem State.modStore_steady {s : State} (f : Store → Store) (h : s.steady T) (hm : (f s.store).mem = s.store.mem)
    (hd : (f s.store).debt ≤ s.store.debt) (hx : (f s.store).fixed = s.store.fixed)
    (hs : s.store.single → (f s.store).single) : (s.modStore f).steady T :=
  ⟨State.modStore_sound f h.1 hm hd hs, by rw [← h.2]; simp only [State.passage, State.modStore_store, hx]; rfl⟩
theorem State.calm_steady {s : State} {f : Store → Store} (hf : Store.Calm f) (h : s.steady T) :
    (s.modStore f).steady T := State.modStore_steady f h (hf _).1 (hf _).2.1 (hf _).2.2.1 (hf _).2.2.2
theorem State.modPort_steady {s : State} (f : DepositPort → DepositPort) (h : s.steady T)
    (he : (f s.port).ended.length ≤ 8) : (s.modPort f).steady T := ⟨State.modPort_sound f h.1 he, h.2⟩
theorem State.modTable_steady {s : State} (f : DeliveryTable → DeliveryTable) (h : s.steady T)
    (he : (f s.table).records.length ≤ deliveryPlaces) : (s.modTable f).steady T := ⟨State.modTable_sound f h.1 he, h.2⟩
theorem State.modEngine_steady {s : State} (f : Engine → Engine) (h : s.steady T) (hq : (f s.engine).queue.length ≤ 16)
    (he : (f s.engine).ended.length ≤ 8) (hp : (f s.engine).profiles.length = 32) : (s.modEngine f).steady T :=
  ⟨State.modEngine_sound f h.1 hq he hp, h.2⟩
theorem State.modMeter_steady {s : State} (f : Meter → Meter) (h : s.steady T) (ht : (f s.meter).tariffs.length = 16)
    (hl : (f s.meter).log.length ≤ 8) (hd : 1 ≤ (f s.meter).settings.divisor) : (s.modMeter f).steady T :=
  ⟨State.modMeter_sound f h.1 ht hl hd, h.2⟩

theorem State.modSource_steady {s : State} (l : LinkId) (n : Nat) (f : Source → Source) (h : s.steady T) :
    (s.modNotices l (·.modify n f)).steady T := by
  refine ⟨State.modSource_sound l n f h.1, ?_⟩
  rw [← h.2]
  cases l <;> simp only [State.passage, Passage.mk.injEq] <;> refine ⟨rfl, rfl, rfl, rfl, ?_⟩ <;> funext m <;> cases m <;> rfl

/-- Raising a notice. -/
theorem State.raise_steady {s : State} (n : Notice) (h : s.steady T) : (s.raise n).steady T := State.modSource_steady _ _ _ h

theorem State.complete_steady {s : State} (t : Transfer) (h : s.steady T) : (s.modStore (Store.complete t)).steady T :=
  ⟨State.complete_sound t h.1, h.2⟩
theorem State.refreshFalls_steady {s : State} (due : Nat) (h : s.steady T) :
    (s.modStore (Store.refreshFalls due)).steady T :=
  ⟨State.refreshFalls_sound due h.1, by
    rw [← h.2]; simp only [State.passage, State.modStore_store, (Store.refreshFalls_keeps due s.store).2.2.1]; rfl⟩

/-! ## The catalogue and the accounts -/

theorem foldl_steady {α : Type} {f : State → α → State} (hf : ∀ s a, s.steady T → (f s a).steady T) (l : List α) {s : State}
    (h : s.steady T) : (l.foldl f s).steady T := by
  induction l generalizing s with
  | nil => exact h
  | cons a l ih => exact ih (hf s a h)

theorem State.releaseAll_steady {s : State} (ns : List Nat) (h : s.steady T) : (s.releaseAll ns).steady T := h

theorem State.removeRevision_steady {s : State} (r : RevName) (h : s.steady T) : (s.removeRevision r).steady T := by
  unfold State.removeRevision; split <;> exact h

theorem State.removePhoto_steady {s : State} (id : Nat) (h : s.steady T) : (s.removePhoto id).steady T := by
  unfold State.removePhoto; split <;> exact h

theorem State.closeIfDone_steady {s : State} (ed : Nat) (h : s.steady T) : (s.closeIfDone ed).steady T := by
  unfold State.closeIfDone
  split
  · exact h
  · split
    · exact State.raise_steady _ (State.modCat_steady _ h)
    · exact h

theorem State.dissolve_steady {s : State} (e : Edition) (h : s.steady T) : (s.dissolve e).steady T :=
  State.modCat_steady _ (foldl_steady (fun _ r h => State.removeRevision_steady r h) _ h)

theorem State.retireCheck_steady {s : State} (ed : Nat) (h : s.steady T) : (s.retireCheck ed).steady T := by
  unfold State.retireCheck
  split
  · exact h
  · split
    · dsimp only
      split
      · exact State.raise_steady _ (State.dissolve_steady _ h)
      · exact State.dissolve_steady _ h
    · exact h

theorem State.readerEnd_steady {s : State} (n : Nat) (h : s.steady T) : (s.readerEnd n).steady T := by
  unfold State.readerEnd
  split
  · exact h
  · dsimp only
    repeat' split
    all_goals first | exact h | exact State.retireCheck_steady _ h

theorem State.recordDamage_steady {s : State} (slot : Nat) (reader : ReaderKind) (h : s.steady T) :
    (s.recordDamage slot reader).steady T := by
  unfold State.recordDamage
  dsimp only
  split
  · exact h
  · split
    · exact h
    · exact State.raise_steady _ h

/-- A read with changed DRAM cells keeps the memory's form. -/
theorem State.readTile_steady {s : State} (slot : Nat) (us : List Upset) (reader : ReaderKind) (h : s.steady T) :
    (s.readTile slot us reader).2.2.steady T := by
  have h' : (s.modStore fun st => { st with mem := Memory.upset st.mem slot us }).steady T := by
    obtain ⟨⟨h1, h2⟩, h3⟩ := h
    exact ⟨⟨Memory.upset_wf _ _ _ h1, h2⟩, h3⟩
  unfold State.readTile
  dsimp only
  split
  · exact State.recordDamage_steady _ _ h'
  · exact h'

/-- What stops the deliveries of an account keeps the bounds. -/
def StopDeliveries.Steady (stop : StopDeliveries) : Prop :=
  ∀ T n (s : State), s.steady T → (stop n s).steady T

theorem State.cutOffAccount_steady {stop : StopDeliveries} (hs : stop.Steady) {s : State} (id : Nat) (h : s.steady T) :
    (s.cutOffAccount stop id).steady T := State.raise_steady _ (hs _ _ _ h)

theorem State.enterWatch_steady {stop : StopDeliveries} (hs : stop.Steady) {s : State} (id : Nat) (h : s.steady T) :
    (s.enterWatch stop id).steady T := by
  have h' : ((s.setStatus id .watch (some (s.timerEnd s.meter.settings.cutOff))).raise .accountWatch).steady T :=
    State.raise_steady _ h
  unfold State.enterWatch
  dsimp only
  split
  · exact State.cutOffAccount_steady hs _ h'
  · exact h'

theorem State.enterReinstating_steady {s : State} (id : Nat) (h : s.steady T) : (s.enterReinstating id).steady T := by
  unfold State.enterReinstating
  split
  · exact State.raise_steady _ h
  · exact h

theorem State.evaluate_steady {stop : StopDeliveries} (hs : stop.Steady) {s : State} (id : Nat) (h : s.steady T) :
    (s.evaluate stop id).steady T := by
  unfold State.evaluate
  split
  · exact h
  · dsimp only
    repeat' split
    all_goals first
      | exact h
      | exact State.raise_steady _ h
      | exact State.enterWatch_steady hs _ h
      | exact State.enterReinstating_steady _ h
      | exact State.cutOffAccount_steady hs _ h

theorem State.accumulate_steady {s : State} (o : Order) (net : Nat) (h : s.steady T) : (s.accumulate o net).steady T := by
  unfold State.accumulate
  dsimp only
  split
  · exact State.raise_steady _ h
  · exact h

theorem State.addEntry_steady {s : State} (e : LogEntry) (h : s.steady T) : (s.modMeter (Meter.addEntry e)).steady T := by
  obtain ⟨-, -, -, -, -, -, -, h8, h9, h10, -⟩ := h.1
  refine State.modMeter_steady _ h h8 ?_ h10
  unfold Meter.addEntry
  dsimp only
  split <;> simp <;> omega

theorem State.post_steady {stop : StopDeliveries} (hs : stop.Steady) {s : State} (c : Charge) (h : s.steady T) :
    (s.post stop c).steady T := by
  unfold State.post
  split
  · exact h
  · dsimp only
    split
    · exact State.addEntry_steady _ (State.accumulate_steady _ _ h)
    · exact State.evaluate_steady hs _ (State.addEntry_steady _ (State.accumulate_steady _ _ h))

theorem State.inFlightDown_steady {s : State} (id : Nat) (h : s.steady T) : (s.inFlightDown id).steady T := by
  unfold State.inFlightDown
  dsimp only
  repeat' split
  all_goals first | exact h | exact State.raise_steady _ (State.modBook_steady _ h)

theorem State.resolveOrder_steady {stop : StopDeliveries} (hs : stop.Steady) {s : State} (id : Nat) (h : s.steady T) :
    (s.resolveOrder stop id).steady T := by
  unfold State.resolveOrder
  split
  · exact h
  · dsimp only
    split
    · exact State.accumulate_steady _ _ h
    · exact State.evaluate_steady hs _ (State.accumulate_steady _ _ h)

theorem State.resolve_steady {stop : StopDeliveries} (hs : stop.Steady) {s : State} (h : s.steady T) : (s.resolve stop).steady T :=
  foldl_steady (fun _ id h => State.resolveOrder_steady hs id h) _ h

/-! ## The mover -/

theorem DeliveryTable.modify_length (t : DeliveryTable) (h : Nat) (f : Delivery → Delivery) :
    (t.modify h f).records.length = t.records.length := by
  simp [DeliveryTable.modify, modifyWhere]

theorem State.modDelivery_steady {s : State} (n : Nat) (f : Delivery → Delivery) (h : s.steady T) :
    (s.modTable (·.modify n f)).steady T := by
  refine State.modTable_steady _ h ?_
  rw [DeliveryTable.modify_length]
  exact h.1.2.2.2.1

theorem State.issueRead_steady {s : State} (c : Fin 4) (h : s.steady T) : (s.issueRead c).steady T := by
  unfold State.issueRead
  dsimp only
  repeat' split
  all_goals first | exact h | exact State.calm_steady (Store.ask_calm _ _) (State.modChannel_steady _ _ h)

theorem State.startDelivery_steady {s : State} (c : Fin 4) (d : Delivery) (h : s.steady T) : (s.startDelivery c d).steady T := by
  unfold State.startDelivery
  dsimp only
  refine State.issueRead_steady _ ?_
  split
  · exact State.modStore_steady _ (State.modDelivery_steady _ _ (State.modChannel_steady _ _ (State.modMover_steady _ h))) rfl
      (Nat.le_refl _) rfl id
  · exact State.modDelivery_steady _ _ (State.modChannel_steady _ _ (State.modMover_steady _ h))

theorem State.endCompaction_steady {s : State} (o : CompactionOutcome) (h : s.steady T) : (s.endCompaction o).steady T := by
  unfold State.endCompaction
  dsimp only
  split
  · exact h
  · exact State.raise_steady _ (State.modAlloc_steady _ h)

theorem State.issueCopyRead_steady {s : State} (c : Fin 4) (h : s.steady T) : (s.issueCopyRead c).steady T := by
  unfold State.issueCopyRead
  split
  · exact h
  · exact State.calm_steady (Store.ask_calm _ _) (State.modChannel_steady _ _ h)

theorem State.startCopy_steady {s : State} (c : Fin 4) (h : s.steady T) : (s.startCopy c).steady T := by
  unfold State.startCopy
  dsimp only
  split
  · exact State.endCompaction_steady _ (State.modMover_steady _ h)
  · exact State.issueCopyRead_steady _ (State.modChannel_steady _ _ (State.modAlloc_steady _ (State.modMover_steady _ h)))

theorem State.handoutLoop_steady (n : Nat) {s : State} (h : s.steady T) : (s.handoutLoop n).steady T := by
  induction n generalizing s with
  | zero => exact h
  | succ n ih =>
    unfold State.handoutLoop
    repeat' split
    all_goals first | exact h | exact ih (State.startDelivery_steady _ _ h) | exact ih (State.startCopy_steady _ h)

theorem State.handout_steady {s : State} (h : s.steady T) : s.handout.steady T := State.handoutLoop_steady _ h

theorem State.finishRecord_steady {s : State} (n : Nat) (final : DeliveryState) (cause : EndCause) (h : s.steady T) :
    (s.finishRecord n final cause).steady T := State.modDelivery_steady _ _ h

theorem State.deliveryEnd_steady {stop : StopDeliveries} (hs : stop.Steady) {s : State} (notice : Bool) (d : Delivery)
    (h : s.steady T) : (s.deliveryEnd stop notice d).steady T := by
  unfold State.deliveryEnd
  dsimp only
  have h1 := State.readerEnd_steady d.extent h
  repeat' split
  all_goals first
    | exact h1
    | exact State.raise_steady _ h1
    | exact State.raise_steady _ (State.inFlightDown_steady _ (State.modBook_steady _ (State.post_steady hs _ h1)))
    | exact State.inFlightDown_steady _ (State.modBook_steady _ (State.post_steady hs _ h1))

theorem State.endRecord_steady {stop : StopDeliveries} (hs : stop.Steady) {s : State} (notice : Bool) (n : Nat)
    (h : s.steady T) : (s.endRecord stop notice n).steady T := by
  unfold State.endRecord
  split
  · exact State.deliveryEnd_steady hs _ _ h
  · exact h

theorem State.endChannelWork_steady {stop : StopDeliveries} (hs : stop.Steady) {s : State} (notice : Bool) (c : Fin 4)
    (d : Delivery) (final : DeliveryState) (cause : EndCause) (h : s.steady T) :
    (s.endChannelWork stop notice c d final cause).steady T := by
  unfold State.endChannelWork
  dsimp only
  have h1 : ((((s.modStore (Store.withdraw (.channel c))).modChannel c fun _ => {}).finishRecord d.handle final
      cause).endRecord stop notice d.handle).steady T :=
    State.endRecord_steady hs _ _ (State.finishRecord_steady _ _ _ (State.modChannel_steady _ _
      (State.calm_steady (Store.withdraw_calm _) h)))
  refine State.handout_steady ?_
  split
  · exact State.calm_steady (Store.fixedDown_calm _) h1
  · exact h1

theorem State.endWaiting_steady {stop : StopDeliveries} (hs : stop.Steady) {s : State} (notice : Bool) (d : Delivery)
    (cause : EndCause) (h : s.steady T) : (s.endWaiting stop notice d cause).steady T :=
  State.handout_steady (State.endRecord_steady hs _ _ (State.finishRecord_steady _ _ _ (State.modMover_steady _ h)))

theorem State.breakOff_steady {stop : StopDeliveries} (hs : stop.Steady) {s : State} (c : Fin 4) (d : Delivery)
    (final : DeliveryState) (cause : EndCause) (h : s.steady T) : (s.breakOff stop c d final cause).steady T := by
  have h1 : (s.quietChannel c).steady T := State.modChannel_steady _ _ (State.calm_steady (Store.withdraw_calm _) h)
  unfold State.breakOff
  dsimp only
  split
  · exact State.modDelivery_steady _ _ (State.modChannel_steady _ _ h1)
  · exact State.endChannelWork_steady hs _ _ _ _ _ h1

theorem State.stopDelivery_steady {stop : StopDeliveries} (hs : stop.Steady) {s : State} (cause : EndCause) (n : Nat)
    (h : s.steady T) : (s.stopDelivery stop cause n).steady T := by
  unfold State.stopDelivery
  repeat' split
  all_goals first
    | exact h
    | exact State.endWaiting_steady hs _ _ _ h
    | exact State.breakOff_steady hs _ _ _ _ h

theorem State.stopAccount_steady (depth : Nat) : StopDeliveries.Steady (State.stopAccount depth) := by
  induction depth with
  | zero => exact fun _ _ _ h => h
  | succ depth ih => exact fun _ _ _ h => foldl_steady (fun _ n h => State.stopDelivery_steady ih _ n h) _ h

/-- Stopping an account's deliveries keeps the bounds. -/
theorem cutOffDeliveries_steady : cutOffDeliveries.Steady := State.stopAccount_steady 8

theorem State.afterFrame_steady {stop : StopDeliveries} (hs : stop.Steady) {s : State} (c : Fin 4) (d : Delivery)
    (h : s.steady T) : (s.afterFrame stop c d).steady T := by
  unfold State.afterFrame
  dsimp only
  repeat' split
  all_goals first
    | exact State.endChannelWork_steady hs _ _ _ _ _ h
    | exact State.modChannel_steady _ _ (State.issueRead_steady _ h)

theorem State.frameEnd_steady {stop : StopDeliveries} (hs : stop.Steady) {s : State} (c : Fin 4) (h : s.steady T) :
    (s.frameEnd stop c).steady T := by
  unfold State.frameEnd
  dsimp only
  repeat' split
  all_goals first
    | exact h
    | exact State.afterFrame_steady hs _ _ (State.modDelivery_steady _ _ (State.modChannel_steady _ _ h))

theorem State.periodBegins_steady {stop : StopDeliveries} (hs : stop.Steady) {s : State} (c : Fin 4) (d : Delivery)
    (p : Pacing) (h : s.steady T) : (s.periodBegins stop c d p).steady T := by
  unfold State.periodBegins
  dsimp only
  repeat' split
  all_goals first
    | exact h
    | exact State.breakOff_steady hs _ _ _ _ (State.modChannel_steady _ _ (State.reach_steady _ h))

theorem State.readArrives_steady {s : State} (c : Fin 4) (t : Tile) (bad : Bool) (h : s.steady T) :
    (s.readArrives c t bad).steady T := by
  unfold State.readArrives
  repeat' split
  all_goals first
    | exact h
    | exact State.issueRead_steady _ (State.modChannel_steady _ _ h)

theorem State.copyArrives_steady {s : State} (c : Fin 4) (t : Tile) (bad : Bool) (h : s.steady T) :
    (s.copyArrives c t bad).steady T := by
  unfold State.copyArrives
  split
  · exact h
  · exact State.calm_steady (Store.ask_calm _ _) (State.modChannel_steady _ _ h)

theorem State.resetDelivery_steady {stop : StopDeliveries} (hs : stop.Steady) {s : State} (n : Nat) (h : s.steady T) :
    (s.resetDelivery stop n).steady T := by
  unfold State.resetDelivery
  repeat' split
  all_goals first
    | with_reducible exact h
    | with_reducible exact State.endWaiting_steady hs _ _ _ h
    | with_reducible exact State.endChannelWork_steady hs _ _ _ _ _ h

theorem State.endAllDeliveries_steady {stop : StopDeliveries} (hs : stop.Steady) {s : State} (h : s.steady T) :
    (s.endAllDeliveries stop).steady T := by
  have hf : ∀ (s : State) (n : Nat), s.steady T → (State.resetDelivery stop s n).steady T :=
    fun _ n h => State.resetDelivery_steady hs n h
  have h1 (l : List Nat) (s : State) (h : s.steady T) : (l.foldl (State.resetDelivery stop) s).steady T := foldl_steady hf l h
  exact State.modTable_steady (fun t => { t with records := [] }) (h1 _ _ (h1 _ _ h)) (Nat.zero_le _)

end Sys2Proof.Machine
end

