-- ==== Sys2Proof/Laws/BoundsEngine.lean ====
section
/-! SUPPORT. The restoration engine, the deposit port, the starts and LINK_RESET keep the bounds of State.steady T. -/

namespace Sys2Proof.Machine

variable {T : Passage}

/-! ## The restoration engine -/

theorem Engine.modJob_length (g : Engine) (id : Nat) (f : Job → Job) : (g.modJob id f).queue.length = g.queue.length := by
  simp [Engine.modJob, modifyWhere]

theorem State.modJob_steady {s : State} (id : Nat) (f : Job → Job) (h : s.steady T) : (s.modEngine (·.modJob id f)).steady T := by
  obtain ⟨-, -, -, -, h5, h6, h7, -⟩ := h.1
  exact State.modEngine_steady _ h (by rw [Engine.modJob_length]; exact h5) h6 h7

theorem State.dropJob_steady {s : State} (id : Nat) (h : s.steady T) :
    (s.modEngine fun g => { g with queue := g.queue.filter (·.id ≠ id) }).steady T := by
  obtain ⟨-, -, -, -, h5, h6, h7, -⟩ := h.1
  exact State.modEngine_steady _ h (Nat.le_trans (List.length_filter_le _ _) h5) h6 h7

theorem State.addEnded_steady {s : State} (j : Job) (h : s.steady T) : (s.modEngine (Engine.addEnded j)).steady T := by
  obtain ⟨-, -, -, -, h5, h6, h7, -⟩ := h.1
  refine State.modEngine_steady _ h h5 ?_ h7
  unfold Engine.addEnded
  dsimp only
  split <;> simp <;> omega

theorem State.askRestoration_steady {s : State} (slot : Nat) (kind : TransferKind) (h : s.steady T) :
    (s.askRestoration slot kind).steady T := State.calm_steady (Store.ask_calm _ _) h

theorem State.engineRead_steady {s : State} (h : s.steady T) : s.engineRead.steady T := by
  unfold State.engineRead
  repeat' split
  all_goals first | with_reducible exact h | exact State.askRestoration_steady _ _ h

theorem State.downgradeItems_steady {s : State} (rs : List (Nat × Nat)) (h : s.steady T) : (s.downgradeItems rs).steady T :=
  foldl_steady (fun _ _ h => State.raise_steady _ (State.modBook_steady _ h)) _ h

theorem State.jobReaderEnd_steady {s : State} (j : Job) (h : s.steady T) : (s.jobReaderEnd j).steady T := by
  unfold State.jobReaderEnd
  repeat' split
  all_goals first | with_reducible exact h | exact State.readerEnd_steady _ h

theorem State.endJob_steady {s : State} (final : JobState) (cause : JobEnd) (refusal : Option AllocRefusal) (j : Job)
    (h : s.steady T) : (s.endJob final cause refusal j).steady T := by
  have h0 : (match j.scratch with
      | some n => s.modAlloc (·.release n)
      | none => s).steady T := by split <;> exact h
  have h1 := State.downgradeItems_steady j.requesters (State.jobReaderEnd_steady j (State.dropJob_steady j.id h0))
  unfold State.endJob
  dsimp only
  split
  · refine State.addEnded_steady _ ?_
    split
    · exact h1
    · exact State.raise_steady _ h1
  · exact h1

theorem State.startJob_steady {s : State} (j : Job) (h : s.steady T) : (s.startJob j).steady T := by
  unfold State.startJob
  split
  · exact h
  · split
    · exact State.endJob_steady _ _ _ _ h
    · split
      · exact State.endJob_steady _ _ _ _ h
      · exact State.engineRead_steady (State.modJob_steady _ _ (State.modAlloc_steady _ (State.modAlloc_steady _ h)))

theorem State.startJobs_steady (n : Nat) {s : State} (h : s.steady T) : (s.startJobs n).steady T := by
  induction n generalizing s with
  | zero => exact h
  | succ n ih =>
    unfold State.startJobs
    repeat' split
    all_goals first | with_reducible exact h | exact ih (State.startJob_steady _ h)

theorem State.startNext_steady {s : State} (h : s.steady T) : s.startNext.steady T := State.startJobs_steady _ h

theorem State.cancelJob_steady {s : State} (cause : CancelCause) (j : Job) (h : s.steady T) : (s.cancelJob cause j).steady T := by
  unfold State.cancelJob
  split
  · exact State.endJob_steady _ _ _ _ h
  · split
    · exact State.modJob_steady _ _ h
    · exact State.startNext_steady (State.endJob_steady _ _ _ _ (State.calm_steady (Store.withdraw_calm _) h))

theorem State.cancelIfAlone_steady {s : State} (id : Nat) (h : s.steady T) : (s.cancelIfAlone id).steady T := by
  unfold State.cancelIfAlone
  repeat' split
  all_goals first | with_reducible exact h | exact State.cancelJob_steady _ _ h

theorem State.leaveJob_steady {s : State} (order item : Nat) (h : s.steady T) : (s.leaveJob order item).steady T := by
  unfold State.leaveJob
  split
  · exact h
  · exact State.cancelIfAlone_steady _ (State.modJob_steady _ _ h)

theorem State.requestJob_steady {s : State} (who : Option (Nat × Nat)) (r : RevName) (v : Revision) (source : ToneSource)
    (h : s.steady T) : (s.requestJob who r v source).2.steady T := by
  unfold State.requestJob
  split
  · exact h
  · split
    · exact h
    · split
      · split
        · exact h
        · exact State.modJob_steady _ _ h
      · split
        · exact h
        · obtain ⟨-, -, -, -, h5, h6, h7, -⟩ := h.1
          refine State.modEngine_steady _ h ?_ h6 h7
          simp
          omega

theorem State.itemPublished_steady {stop : StopDeliveries} (hs : stop.Steady) {s : State} (j : Job) (r : Nat × Nat)
    (h : s.steady T) : (State.itemPublished stop j s r).steady T := by
  unfold State.itemPublished
  split
  · exact h
  · exact State.raise_steady _ (State.post_steady hs _ (State.modBook_steady _ h))

theorem State.publish_steady {stop : StopDeliveries} (hs : stop.Steady) {s : State} (j : Job) (scratch : Nat) (h : s.steady T) :
    (s.publish stop j scratch).steady T := by
  unfold State.publish
  dsimp only
  refine State.startNext_steady ?_
  have h1 (s : State) (h : s.steady T) : (j.requesters.foldl (State.itemPublished stop j)
      ((s.modEngine fun g => { g with queue := g.queue.filter (·.id ≠ j.id) }).jobReaderEnd j)).steady T :=
    foldl_steady (fun _ r h => State.itemPublished_steady hs j r h) _
      (State.jobReaderEnd_steady j (State.dropJob_steady j.id h))
  split
  · refine State.addEnded_steady _ (State.raise_steady _ (h1 _ ?_))
    split <;> exact h
  · refine h1 _ ?_
    split <;> exact h

theorem State.atBoundary_steady {s : State} (j : Job) (goOn : State → State) (hg : ∀ s : State, s.steady T → (goOn s).steady T)
    (h : s.steady T) : (s.atBoundary j goOn).steady T := by
  unfold State.atBoundary
  split
  · exact State.startNext_steady (State.endJob_steady _ _ _ _ h)
  · exact hg _ h

theorem State.afterRawRead_steady {s : State} (j : Job) (goOn : State → State) (hg : ∀ s : State, s.steady T → (goOn s).steady T)
    (h : s.steady T) : (s.afterRawRead j goOn).steady T := by
  unfold State.afterRawRead
  split
  · exact State.startNext_steady (State.endJob_steady _ _ _ _ h)
  · exact hg _ h

theorem State.surveyArrives_steady {s : State} (t : Tile) (bad : Bool) (j : Job) (v : Revision) (h : s.steady T) :
    (s.surveyArrives t bad j v).steady T := by
  unfold State.surveyArrives
  refine State.afterRawRead_steady _ _ (fun s h => ?_) h
  refine State.atBoundary_steady _ _ (fun s h => ?_) (State.modJob_steady _ _ h)
  refine State.engineRead_steady ?_
  repeat' split
  all_goals first | with_reducible exact h | exact State.modJob_steady _ _ h

theorem State.correctionArrives_steady {s : State} (t : Tile) (bad : Bool) (j : Job) (h : s.steady T) :
    (s.correctionArrives t bad j).steady T := by
  unfold State.correctionArrives
  refine State.afterRawRead_steady _ _ (fun s h => ?_) h
  refine State.atBoundary_steady _ _ (fun s h => ?_) h
  split
  · exact h
  · exact State.askRestoration_steady _ _ (State.modJob_steady _ _ h)

theorem State.correctionWritten_steady {stop : StopDeliveries} (hs : stop.Steady) {s : State} (j : Job) (v : Revision)
    (h : s.steady T) : (s.correctionWritten stop j v).steady T := by
  unfold State.correctionWritten
  refine State.atBoundary_steady _ _ (fun s h => ?_) (State.modJob_steady _ _ h)
  repeat' split
  all_goals first
    | with_reducible exact h
    | with_reducible exact State.publish_steady hs _ _ h
    | with_reducible exact State.engineRead_steady h

theorem State.resetDeskFlags_steady {s : State} (h : s.steady T) : s.resetDeskFlags.steady T := by
  obtain ⟨-, -, -, -, h5, h6, h7, -⟩ := h.1
  have h1 : (s.modEngine fun g => { g with queue := g.queue.map fun j => { j with desk := false }, ended := [] }).steady T :=
    State.modEngine_steady _ h (by simpa using h5) (Nat.zero_le _) h7
  exact foldl_steady (f := fun s id => State.cancelIfAlone id s) (fun _ id h => State.cancelIfAlone_steady id h) _ h1

theorem State.requestCopy_steady {s : State} (h : s.steady T) : s.requestCopy.steady T := h

theorem State.moveEnd_steady {s : State} (c : Fin 4) (m : Move) (h : s.steady T) : (s.moveEnd c m).steady T := by
  unfold State.moveEnd
  dsimp only
  have h1 (s : State) (h : s.steady T) : s.handout.engineRead.steady T := State.engineRead_steady (State.handout_steady h)
  have h2 (s : State) (h : s.steady T) : ((s.modChannel c fun _ => {}).handout).steady T :=
    State.handout_steady (State.modChannel_steady _ _ h)
  have h3 := h2 _ (State.modAlloc_steady (fun a => a.modCompaction fun c => { c with move := none, made := c.made + 1 })
    (h1 _ (State.modAlloc_steady (Allocator.settleMoved m.extent)
      (State.modAlloc_steady (Allocator.relocate m (((s.alloc.find m.extent).map (·.size)).getD 0)) h))))
  split
  · exact State.endCompaction_steady _ h3
  · split
    · exact State.endCompaction_steady _ h3
    · exact State.handout_steady (State.requestCopy_steady h3)

theorem State.copyWritten_steady {s : State} (c : Fin 4) (h : s.steady T) : (s.copyWritten c).steady T := by
  unfold State.copyWritten
  dsimp only
  have h1 := State.modChannel_steady c
    (fun ch => { ch with buffer := [], nextCopy := ch.nextCopy + 1, terminal := ch.terminal - 1 })
    (State.modAlloc_steady (fun a => a.modCompaction fun k =>
      { k with move := k.move.map fun m => { m with copied := m.copied + 1 } }) h)
  split
  · exact State.issueCopyRead_steady _ h1
  · split
    · exact State.moveEnd_steady _ _ h1
    · exact h1

/-! ## The deposit port -/

theorem State.claimSlot_steady {s : State} (i : Fin 4) (t : Target) (e n : Nat) (h : s.steady T) :
    (s.claimSlot i t e n).2.steady T := State.modPort_steady _ h h.1.2.2.1

theorem State.setSlot_steady {s : State} (i : Fin 4) (d : Option Deposit) (h : s.steady T) :
    (s.modPort (DepositPort.setSlot i d)).steady T := State.modPort_steady _ h h.1.2.2.1

theorem DepositPort.addEnded_length (e : EndedDeposit) (p : DepositPort) (h : p.ended.length ≤ 8) :
    (p.addEnded e).ended.length ≤ 8 := by
  unfold DepositPort.addEnded
  dsimp only
  split <;> simp <;> omega

theorem State.removeTarget_steady {s : State} (t : Target) (h : s.steady T) : (s.removeTarget t).steady T := by
  unfold State.removeTarget
  split
  · exact State.closeIfDone_steady _ (State.removeRevision_steady _ h)
  · exact State.removePhoto_steady _ h

theorem State.dropBuffered_steady {s : State} (n : Nat) (h : s.steady T) : (s.dropBuffered n).steady T := by
  unfold State.dropBuffered
  split
  · split
    · exact State.calm_steady (Store.withdraw_calm _) (State.modPort_steady _ h h.1.2.2.1)
    · exact h
  · exact h

theorem State.abortDeposit_steady {s : State} (i : Fin 4) (d : Deposit) (o : Option DepositOutcome) (h : s.steady T) :
    (s.abortDeposit i d o).steady T := by
  have h1 := State.setSlot_steady i none (State.dropBuffered_steady d.handle (State.removeTarget_steady d.target h))
  unfold State.abortDeposit
  dsimp only
  split
  · exact State.modPort_steady _ h1 (DepositPort.addEnded_length _ _ h1.1.2.2.1)
  · exact h1

theorem State.completeTarget_steady {s : State} (t : Target) (h : s.steady T) : (s.completeTarget t).steady T := by
  unfold State.completeTarget
  split
  · exact State.closeIfDone_steady _ (State.modCat_steady _ (State.modCat_steady _ h))
  · exact h

theorem State.completeDeposit_steady {s : State} (i : Fin 4) (d : Deposit) (h : s.steady T) : (s.completeDeposit i d).steady T := by
  have h1 : ((s.modAlloc (·.modExtent d.extent fun e => { e with state := .live })).completeTarget d.target).steady T :=
    State.completeTarget_steady _ (State.modAlloc_steady _ h)
  exact State.raise_steady _ (State.modPort_steady _ h1 (DepositPort.addEnded_length _ _ h1.1.2.2.1))

theorem State.tileWritten_steady {s : State} (h : s.steady T) : s.tileWritten.steady T := by
  have h1 : (s.modPort fun p => { p with buffer := none }).steady T := State.modPort_steady _ h h.1.2.2.1
  unfold State.tileWritten
  dsimp only
  repeat' split
  all_goals first
    | with_reducible exact h
    | with_reducible exact h1
    | with_reducible exact State.completeDeposit_steady _ _ h1

theorem State.takeTile_steady {s : State} (n i : Nat) (t : Tile) (h : s.steady T) : (s.takeTile n i t).2.steady T := by
  unfold State.takeTile
  split
  · exact h
  · split
    · exact State.setSlot_steady _ _ h
    · split
      · exact h
      · exact State.calm_steady (Store.ask_calm _ _) (State.modPort_steady _ h h.1.2.2.1)

/-- Taking a tile leaves the links alone. -/
theorem State.takeTile_link (s : State) (n i : Nat) (t : Tile) (l : LinkId) : (s.takeTile n i t).2.link l = s.link l := by
  unfold State.takeTile
  split
  · rfl
  · split
    · simp
    · split
      · rfl
      · simp

theorem State.passTile_sound {s : State} (n i : Nat) (t : Tile) (h : s.sound) (hp : s.tilePassable = true) :
    (s.passTile n i t).sound := by
  refine State.reply_sound _ _ _ (State.takeTile_steady n i t h.steady).1 ?_
  rw [State.takeTile_link]
  simp [State.tilePassable] at hp
  exact hp.2

theorem State.setHeld_sound {s : State} (l : LinkId) (x : Option Held) (h : s.sound) :
    (s.modLink l fun k => { k with held := x }).sound :=
  State.setLink_sound _ _ h (s.sound_link h l)

theorem State.passHeldTile_sound {s : State} (h : s.sound) : s.passHeldTile.sound := by
  unfold State.passHeldTile
  split
  · split
    · next hp =>
      exact State.passTile_sound _ _ _ (State.setHeld_sound _ _ h)
        (by
          simp only [State.tilePassable, Bool.and_eq_true] at hp ⊢
          exact hp)
    · exact h
  · exact h

theorem State.passHeldRefusal_sound {s : State} (l : LinkId) (h : s.sound) : (s.passHeldRefusal l).sound := by
  have hk := s.sound_link h l
  unfold State.passHeldRefusal
  split
  · split
    · next hp =>
      refine State.setLink_sound _ _ h ⟨hk.1, ?_, hk.2.2⟩
      simp [Link.placeFree, replyPlaces] at *; omega
    · exact h
  · exact h

theorem State.abortHandle_steady {s : State} (o : Option DepositOutcome) (n : Nat) (h : s.steady T) :
    (s.abortHandle o n).steady T := by
  unfold State.abortHandle
  split
  · exact State.abortDeposit_steady _ _ _ h
  · exact h

theorem State.resetDeposits_steady {s : State} (h : s.steady T) : s.resetDeposits.steady T :=
  State.calm_steady (Store.withdraw_calm _)
    (State.modPort_steady _ (foldl_steady (fun _ n h => State.abortHandle_steady none n h) _ h) (Nat.zero_le _))

/-! ## Starts -/

theorem State.reloadTimers_steady {s : State} (h : s.steady T) : s.reloadTimers.steady T := h
theorem State.warmOrders_steady {s : State} (h : s.steady T) : s.warmOrders.steady T := h

theorem State.warmCatalogue_steady {s : State} (h : s.steady T) : s.warmCatalogue.steady T := by
  unfold State.warmCatalogue
  dsimp only
  refine foldl_steady (fun _ e h => State.dissolve_steady e h) _ (State.modCat_steady _ ?_)
  exact foldl_steady (f := fun s id => State.removePhoto id s) (fun _ id h => State.removePhoto_steady id h) _
    (foldl_steady (f := fun s r => State.removeRevision r s) (fun _ r h => State.removeRevision_steady r h) _ h)

theorem State.reRequest_steady {s : State} (r : Nat × Nat) (h : s.steady T) : (s.reRequest r).steady T := by
  unfold State.reRequest
  split
  · split
    · exact h
    · next v hv =>
      have h1 := State.requestJob_steady (some r) ‹RevName› v .auto h
      dsimp only
      split
      · exact h1
      · exact h1
      · exact h1
      · exact State.startNext_steady h1
  · exact h

theorem State.startEngine_steady {s : State} (warm : Bool) (h : s.steady T) : (s.startEngine warm).steady T := by
  have h1 (s : State) (h : s.steady T) : (s.modEngine fun g => { profiles := g.profiles.map Profile.verify }).steady T := by
    obtain ⟨-, -, -, -, -, -, h7, -⟩ := h.1
    exact State.modEngine_steady _ h (Nat.zero_le _) (Nat.zero_le _) (by simpa using h7)
  unfold State.startEngine
  cases warm
  · exact h1 _ h
  · exact foldl_steady (fun _ r h => State.reRequest_steady r h) _ (h1 _ (State.modAlloc_steady _ h))

theorem State.startMeter_steady {stop : StopDeliveries} (hs : stop.Steady) {s : State} (warm : Bool) (h : s.steady T) :
    (s.startMeter stop warm).steady T := by
  have h1 : (s.modMeter fun m =>
      { tariffs := m.tariffs.map Tariff.verify
        settings := if s.meter.settings.isGood then m.settings else MeterSettings.default
        repaired := !s.meter.settings.isGood }).steady T := by
    obtain ⟨-, -, -, -, -, -, -, h8, -, h10, -⟩ := h.1
    refine State.modMeter_steady _ h (by simpa using h8) (Nat.zero_le _) ?_
    dsimp only
    split
    · exact h10
    · decide
  unfold State.startMeter
  dsimp only
  split
  · exact State.resolve_steady hs (State.reloadTimers_steady h1)
  · exact h1

theorem Link.start_sound (l : LinkId) : Link.sound l (Link.start (sourceCount l)) := by
  cases l <;> exact ⟨Nat.zero_le _, Nat.zero_le _, rfl⟩

theorem State.startLinks_sound {s : State} (h : s.sound) : s.startLinks.sound := by
  obtain ⟨h1, h2, h3, h4, h5, h6, h7, h8, h9, h10, -⟩ := h
  exact ⟨h1, h2, h3, h4, h5, h6, h7, h8, h9, h10, Link.start_sound _, Link.start_sound _, Link.start_sound _⟩

theorem State.coldStart_sound {s : State} (kind : StartKind) (sizeHigh : Bool) (h : s.sound) :
    (s.coldStart kind sizeHigh).sound := by
  obtain ⟨-, -, -, -, h5, h6, h7, h8, h9, h10, h11⟩ := h
  refine State.settle_sound (State.startLinks_sound (State.startMeter_steady cutOffDeliveries_steady _
    (State.startEngine_steady _ (State.sound.steady ?_))).1)
  exact ⟨Memory.wf_nil, ⟨Nat.zero_le _, .inl rfl⟩, Nat.zero_le _, Nat.zero_le _, h5, h6, h7, h8, h9, h10, h11⟩

theorem State.warmStart_sound {s : State} (kind : StartKind) (sizeHigh : Bool) (h : s.sound) :
    (s.warmStart kind sizeHigh).sound := by
  obtain ⟨h1, -, -, -, -, -, h7, h8, h9, h10, h11⟩ := h
  refine State.settle_sound (State.startLinks_sound (State.startMeter_steady cutOffDeliveries_steady _
    (State.warmOrders_steady (State.startEngine_steady _ (State.warmCatalogue_steady (State.sound.steady ?_))))).1)
  exact ⟨h1, ⟨Nat.zero_le _, .inl rfl⟩, Nat.zero_le _, Nat.zero_le _, Nat.zero_le _, Nat.zero_le _, h7, h8, h9, h10, h11⟩

theorem State.readHeader_sound {s : State} (u : Bool) (h : s.sound) : (s.readHeader u).sound := by
  unfold State.readHeader; split <;> exact h

theorem State.startByHeader_sound {s : State} (warm : StartKind) (sizeHigh : Bool) (h : s.sound) :
    (s.startByHeader warm sizeHigh).sound := by
  unfold State.startByHeader
  split
  · exact State.warmStart_sound _ _ h
  · exact State.coldStart_sound _ _ h

theorem State.startAtPowerUp_sound {s : State} (sizeHigh u : Bool) (h : s.sound) : (s.startAtPowerUp sizeHigh u).sound := by
  unfold State.startAtPowerUp
  split
  · exact State.startByHeader_sound _ _ (State.readHeader_sound _ h)
  · exact State.coldStart_sound _ _ h

theorem State.losePower_sound {s : State} (kept : Bool) (h : s.sound) : (s.losePower kept).sound := by
  obtain ⟨h1, -, -, -, -, -, h7, h8, -, h10, -⟩ := h
  unfold State.losePower
  dsimp only
  split
  · exact ⟨h1, ⟨Nat.zero_le _, .inl rfl⟩, Nat.zero_le _, Nat.zero_le _, Nat.zero_le _, Nat.zero_le _, h7, h8, Nat.zero_le _, h10,
      Link.start_sound _, Link.start_sound _, Link.start_sound _⟩
  · exact ⟨Memory.wf_nil, ⟨Nat.zero_le _, .inl rfl⟩, Nat.zero_le _, Nat.zero_le _, Nat.zero_le _, Nat.zero_le _, h7, h8,
      Nat.zero_le _, h10, Link.start_sound _, Link.start_sound _, Link.start_sound _⟩

/-! ## LINK_RESET -/

theorem State.resetWork_steady {s : State} (l : LinkId) (h : s.steady T) : (s.resetWork l).steady T := by
  unfold State.resetWork
  split
  · have h1 := State.resetDeposits_steady h
    dsimp only
    split
    · exact h1
    · exact State.endCompaction_steady _ (State.modMover_steady _ h1)
    · exact h1
  · exact State.resetDeskFlags_steady (State.endAllDeliveries_steady cutOffDeliveries_steady h)
  · exact h

/-- A link with nothing in its reply places (R195). -/
theorem State.linkReset_sound {s : State} (l : LinkId) (tag : Byte) (h : s.sound) : (s.linkReset l tag).sound := by
  have hk := s.sound_link h l
  have h1 : (s.modLink l Link.clear).sound := State.setLink_sound _ _ h ⟨Nat.zero_le _, Nat.zero_le _, hk.2.2⟩
  have h2 := State.resetWork_steady l h1.steady
  have hempty : ((s.modLink l Link.clear).resetWork l |>.link l).replies = [] := by
    have := congrFun (congrArg Passage.traffic h2.2) l
    simp only [State.passage] at this
    simp only [Link.traffic, Prod.mk.injEq, State.modLink_link] at this
    exact this.2.2.1
  unfold State.linkReset
  dsimp only
  refine State.settle_sound (State.passHeldTile_sound (State.reply_sound _ _ _ ?_ ?_))
  · split
    · exact State.modNotices_sound l _ h2.1 (by cases l <;> rfl)
    · exact State.modNotices_sound l _ h2.1 (by cases l <;> rfl)
  · have h3 (t : State) : ((t.modNotices l fun _ => Controller.start (sourceCount l)).link l).replies = (t.link l).replies := by
      simp [State.modNotices]
    unfold Link.placeFree
    split
    · next hl => subst hl; rw [show ∀ t : State, (({ t with deskTurn := 3 } : State).link .desk) = t.link .desk from fun _ => rfl, h3, hempty]; rfl
    · rw [h3, hempty]; rfl

end Sys2Proof.Machine
end

