-- ==== Sys2Proof/Laws/BoundsCommands.lean ====
section
/-! SUPPORT. The rules of the requests and the completions of transfers keep the bounds of State.sound. -/

namespace Sys2Proof.Machine

variable {T : Passage}

/-- A request's rule keeps the bounds and the traffic of the links. -/
def Body.Steady (b : Body) : Prop := ∀ T fs (s : State), s.steady T → (b fs s).2.steady T

theorem required_steady {o : Option Nat} {s : State} {f : Nat → Answer × State} (h : s.steady T)
    (hf : ∀ n, (f n).2.steady T) : (required o s f).2.steady T := by
  cases o
  · exact h
  · exact hf _

theorem checked_steady {α : Type} {c : Except Answer α} {s : State} {f : α → Answer × State} (h : s.steady T)
    (hf : ∀ x, (f x).2.steady T) : (checked c s f).2.steady T := by
  cases c
  · exact h
  · exact hf _

/-- A served request keeps the bounds when its rule is steady and the choices after it keep them. -/
theorem serve_sound {finish : State → State} {l : LinkId} {home : Home} {layout : List Layout} {r : Request} {body : Body}
    {s t : State} (hb : body.Steady) (hfin : ∀ s : State, s.sound → (finish s).sound) (h : s.sound)
    (ht : serve finish l home layout r body s = .next t) : t.sound := by
  rcases serve_cases (finish := finish) (l := l) (home := home) (layout := layout) (r := r) (body := body) (s := s) with
    hc | ⟨k, -, hk, ⟨-, hc⟩ | ⟨hfree, hc⟩⟩
  · rw [hc] at ht; cases ht; exact h
  · rw [hc] at ht; cases ht
    refine State.setLink_sound _ _ h ?_
    have hl := s.sound_link h l
    obtain ⟨h1, -, h3, -⟩ := Link.present_keeps hk
    refine ⟨?_, by rw [h1]; exact hl.2.1, by rw [h3]; exact hl.2.2⟩
    unfold Link.present at hk
    split at hk
    · split at hk
      · cases hk; exact Nat.le_of_ble_eq_true rfl
      · cases hk
    · split at hk
      · cases hk; exact hl.1
      · cases hk
  · rw [hc] at ht; cases ht
    have hl := s.sound_link h l
    obtain ⟨h1, -, h3, -⟩ := Link.present_keeps hk
    have hq : k.queue.length ≤ queuePlaces := by
      unfold Link.present at hk
      split at hk
      · split at hk
        · cases hk; exact Nat.le_of_ble_eq_true rfl
        · cases hk
      · split at hk
        · cases hk; exact hl.1
        · cases hk
    have hne : k.queue ≠ [] := by
      unfold Link.present at hk
      split at hk
      · split at hk
        · cases hk; simp
        · cases hk
      · next hd tl hqq =>
        split at hk
        · cases hk; rw [hqq]; simp
        · cases hk
    have hs1 : (s.setLink l k.take).sound := by
      refine State.setLink_sound _ _ h ⟨?_, by rw [Link.take_replies, h1]; exact hl.2.1, by
        rw [Link.take_notices, h3]; exact hl.2.2⟩
      have := List.length_pos_of_ne_nil hne
      unfold Link.take
      split <;> simp <;> omega
    have hst : (answerRequest l home layout r.params body (s.setLink l k.take)).2.steady (s.setLink l k.take).passage := by
      unfold answerRequest
      split
      · split
        · exact hb _ _ _ hs1.steady
        · exact hs1.steady
      · exact hs1.steady
    refine hfin _ (State.reply_sound _ _ _ hst.1 ?_)
    have := congrFun (congrArg Passage.traffic hst.2) l
    simp only [State.passage] at this
    simp only [Link.traffic, Prod.mk.injEq, State.setLink_link, Link.take_replies] at this
    unfold Link.placeFree at *
    rw [this.2.2.1]
    exact hfree

/-! ## Chapter 2 -/

theorem openEditionBody_steady : openEditionBody.Steady := fun _ _ _ h =>
  required_steady h fun _ => required_steady h fun _ => required_steady h fun _ => checked_steady h fun _ => h

theorem closeEditionBody_steady : closeEditionBody.Steady := fun _ _ _ h =>
  required_steady h fun _ => checked_steady h fun _ => h

theorem State.retire_steady {s : State} (id : Nat) (h : s.steady T) : (s.retire id).steady T := by
  unfold State.retire
  dsimp only
  refine State.modCat_steady _ (State.retireCheck_steady _ ?_)
  refine foldl_steady (fun s j h => ?_) _ (foldl_steady (fun s d h => ?_) _ (State.modCat_steady _ h))
  · unfold State.retireJob
    split
    · exact State.cancelJob_steady _ _ h
    · exact h
  · exact State.raise_steady _ (State.abortHandle_steady _ _ h)

theorem retireEditionBody_steady : retireEditionBody.Steady := fun _ _ _ h =>
  required_steady h fun _ => checked_steady h fun _ => State.retire_steady _ h

theorem discardPhotoBody_steady : discardPhotoBody.Steady := fun _ _ _ h =>
  required_steady h fun _ => checked_steady h fun _ => State.removePhoto_steady _ h

theorem depositPageBody_steady : depositPageBody.Steady := fun _ _ _ h =>
  required_steady h fun _ => required_steady h fun _ => required_steady h fun _ => required_steady h fun _ =>
    required_steady h fun _ => checked_steady h fun _ => State.claimSlot_steady _ _ _ _ h

theorem depositPhotoBody_steady : depositPhotoBody.Steady := fun _ _ _ h =>
  required_steady h fun _ => required_steady h fun _ => required_steady h fun _ => required_steady h fun _ =>
    checked_steady h fun _ => State.claimSlot_steady _ _ _ _ h

theorem State.takeReplate_steady {s : State} (ed w hh cls : Nat) (photos : List Nat) (p : Page) (slot : Fin 4)
    (first : Nat) (h : s.steady T) : (s.takeReplate ed w hh cls photos p slot first).2.steady T := by
  unfold State.takeReplate
  dsimp only
  refine State.claimSlot_steady _ _ _ _ (State.modCat_steady _ (State.modCat_steady _ (State.modAlloc_steady _ ?_)))
  split
  · exact State.removeRevision_steady _ h
  · exact h

theorem replatePageBody_steady : replatePageBody.Steady := fun _ _ _ h =>
  required_steady h fun _ => required_steady h fun _ => required_steady h fun _ => required_steady h fun _ =>
    required_steady h fun _ => checked_steady h fun _ => State.takeReplate_steady _ _ _ _ _ _ _ _ h

theorem abandonDepositBody_steady : abandonDepositBody.Steady := fun _ _ _ h =>
  required_steady h fun _ => by
    split
    · exact h
    · exact State.abortDeposit_steady _ _ _ h

theorem depositStatusBody_steady : depositStatusBody.Steady := fun _ _ _ h =>
  required_steady h fun _ => by
    split
    · exact h
    · split
      · exact State.modPort_steady _ h (Nat.le_trans (List.length_filter_le _ _) h.1.2.2.1)
      · exact h

theorem setDepositTimeoutBody_steady : setDepositTimeoutBody.Steady := fun _ _ _ h =>
  required_steady h fun _ => by
    split
    · exact h
    · exact State.modPort_steady _ h h.1.2.2.1

/-! ## Chapters 3 and 4 -/

theorem setLowWaterBody_steady : setLowWaterBody.Steady := fun _ _ _ h =>
  required_steady h fun _ => by split <;> exact h

theorem compactBody_steady : compactBody.Steady := fun _ _ _ h =>
  required_steady h fun _ => by
    split
    · exact h
    · split
      · exact h
      · exact State.handout_steady (State.requestCopy_steady (State.modAlloc_steady _ h))

theorem setStoreBody_steady : setStoreBody.Steady := fun _ fs s h => by
  unfold setStoreBody
  dsimp only
  split
  · exact h
  · exact State.calm_steady (Store.setSettings_calm _ _ _) h

/-! ## Chapter 6 -/

theorem State.acceptRead_steady {s : State} (r : Read) (h : s.steady T) (hroom : s.table.records.length < deliveryPlaces) :
    (s.acceptRead r).2.steady T := by
  unfold State.acceptRead
  dsimp only
  refine State.handout_steady (State.modMover_steady _ ?_)
  have h1 : ((s.modTable fun t => { t with
      records := t.records ++ [s.newDelivery r (nextFree 255 s.table.handleInUse 9 s.table.lastHandle)]
      lastHandle := nextFree 255 s.table.handleInUse 9 s.table.lastHandle }).modAlloc
        (Allocator.takeReader r.extent)).steady T :=
    State.modAlloc_steady _ (State.modTable_steady _ h (by simp; omega))
  unfold State.itemInDelivery
  split <;> exact h1

theorem State.deliveryRoom_ok {s : State} {r r' : Read} (h : s.deliveryRoom r = .ok r') :
    r' = r ∧ s.table.records.length < deliveryPlaces := by
  unfold State.deliveryRoom at h
  split at h
  · cases h
  · cases h; exact ⟨rfl, by omega⟩

theorem readWith_steady (fs : Fields) (i : Nat) (wanted : Wanted) (ok : Bool) (t : Except Result ReadTarget) {s : State}
    (h : s.steady T) : (readWith fs i wanted ok t s).2.steady T := by
  unfold readWith
  dsimp only
  split
  · exact h
  · split
    · exact h
    · split
      · exact h
      · split
        · exact h
        · next r hr =>
          refine State.acceptRead_steady _ h ?_
          split at hr
          · unfold State.checkItemRead at hr
            split at hr
            · cases hr
            · split at hr
              · cases hr
              · exact (State.deliveryRoom_ok hr).2
          · unfold State.checkView at hr
            split at hr
            · cases hr
            · split at hr
              · cases hr
              · exact (State.deliveryRoom_ok hr).2

theorem readPageBody_steady : readPageBody.Steady := fun _ _ _ h =>
  required_steady h fun _ => required_steady h fun _ => by
    split
    · exact readWith_steady _ _ _ _ _ h
    · exact h

theorem readPhotoBody_steady : readPhotoBody.Steady := fun _ _ _ h =>
  required_steady h fun _ => by
    split
    · exact readWith_steady _ _ _ _ _ h
    · exact h

theorem stopDeliveryBody_steady : stopDeliveryBody.Steady := fun _ _ _ h =>
  required_steady h fun _ => by
    split
    · exact h
    · exact State.stopDelivery_steady cutOffDeliveries_steady _ _ h

theorem deliveryStatusBody_steady : deliveryStatusBody.Steady := fun _ _ _ h =>
  required_steady h fun _ => by
    split
    · exact h
    · dsimp only
      split
      · exact State.modTable_steady _ h (Nat.le_trans (List.length_filter_le _ _) h.1.2.2.2.1)
      · exact h

theorem setPacingBody_steady : setPacingBody.Steady := fun _ fs s h => by
  unfold setPacingBody
  split
  · exact h
  · exact State.modTable_steady _ h h.1.2.2.2.1

/-! ## Chapter 7 -/

theorem State.deskRestore_steady {s : State} (name : RevName) (v : Revision) (source : ToneSource) (h : s.steady T) :
    (s.deskRestore name v source).2.steady T := by
  have h1 := State.requestJob_steady none name v source h
  unfold State.deskRestore
  dsimp only
  split
  · exact h1
  · exact h1
  · exact h1
  · exact State.startNext_steady h1

theorem restorePageBody_steady : restorePageBody.Steady := fun _ _ _ h =>
  required_steady h fun _ => required_steady h fun _ => required_steady h fun _ => by
    split
    · exact h
    · split
      · split
        · exact h
        · exact State.deskRestore_steady _ _ _ h
      · exact h

theorem cancelRestoreBody_steady : cancelRestoreBody.Steady := fun _ _ _ h =>
  required_steady h fun _ => by
    split
    · exact h
    · dsimp only
      unfold State.cancelByDesk
      split
      · exact h
      · split
        · exact State.cancelJob_steady _ _ h
        · exact State.modJob_steady _ _ h

theorem restoreStatusBody_steady : restoreStatusBody.Steady := fun _ _ _ h =>
  required_steady h fun _ => by
    split
    · exact h
    · split
      · obtain ⟨-, -, -, -, h5, h6, h7, -⟩ := h.1
        exact State.modEngine_steady _ h h5 (Nat.le_trans (List.length_filter_le _ _) h6) h7
      · exact h

theorem setSurveyBody_steady : setSurveyBody.Steady := fun _ fs s h => by
  unfold setSurveyBody
  dsimp only
  split
  · exact h
  · obtain ⟨-, -, -, -, h5, h6, h7, -⟩ := h.1
    exact State.modEngine_steady _ h h5 h6 h7

theorem writeProfileBody_steady : writeProfileBody.Steady := fun _ _ _ h =>
  required_steady h fun _ => required_steady h fun _ => required_steady h fun _ => required_steady h fun _ => by
    split
    · exact h
    · split
      · exact h
      · obtain ⟨-, -, -, -, h5, h6, h7, -⟩ := h.1
        exact State.modEngine_steady _ h h5 h6 (by simpa using h7)

theorem readProfileBody_steady : readProfileBody.Steady := fun _ _ _ h =>
  required_steady h fun _ => by split <;> exact h

/-! ## Chapter 8 -/

theorem openAccountBody_steady : openAccountBody.Steady := fun _ _ _ h =>
  required_steady h fun _ => checked_steady h fun _ => h

theorem setCeilingBody_steady : setCeilingBody.Steady := fun _ _ _ h =>
  required_steady h fun _ => required_steady h fun _ => checked_steady h fun _ =>
    State.evaluate_steady cutOffDeliveries_steady _ (State.modBook_steady _ h)

theorem settleBody_steady : settleBody.Steady := fun _ _ _ h =>
  required_steady h fun _ => required_steady h fun _ => checked_steady h fun _ =>
    State.evaluate_steady cutOffDeliveries_steady _ (State.modBook_steady _ h)

theorem removeAccountBody_steady : removeAccountBody.Steady := fun _ _ _ h =>
  required_steady h fun _ => checked_steady h fun _ => h

theorem accountStatusBody_steady : accountStatusBody.Steady := fun _ _ _ h =>
  required_steady h fun _ => required_steady h fun _ => by
    split
    · exact h
    · split <;> exact h

theorem openOrderBody_steady : openOrderBody.Steady := fun _ _ _ h =>
  required_steady h fun _ => required_steady h fun _ => checked_steady h fun _ => h

theorem State.itemRequest_steady {s : State} (n : NewItem) (h : s.steady T) : (s.itemRequest n).2.steady T := by
  unfold State.itemRequest
  split
  · split
    · exact State.requestJob_steady _ _ _ _ h
    · exact h
  · exact h

theorem State.addItem_steady {s : State} (n : NewItem) (h : s.steady T) : (s.addItem n).2.steady T := by
  have h1 := State.itemRequest_steady n h
  unfold State.addItem
  dsimp only
  split
  · exact h
  · exact h1
  · exact h1
  · exact State.startNext_steady h1

theorem addItemBody_steady : addItemBody.Steady := fun _ _ _ h =>
  required_steady h fun _ => by
    split
    · exact h
    · dsimp only
      split
      · exact h
      · split
        · exact h
        · exact State.addItem_steady _ h

theorem State.removeItem_steady {s : State} (order : Nat) (i : Item) (h : s.steady T) : (s.removeItem order i).steady T := by
  unfold State.removeItem
  dsimp only
  split
  · exact State.modCat_steady _ (State.modBook_steady _ (State.leaveJob_steady _ _ h))
  · exact h

theorem removeItemBody_steady : removeItemBody.Steady := fun _ _ _ h =>
  required_steady h fun _ => required_steady h fun _ => checked_steady h fun _ => State.removeItem_steady _ _ h

theorem State.closeOrder_steady {s : State} (o : Order) (h : s.steady T) : (s.closeOrder o).steady T := by
  unfold State.closeOrder
  dsimp only
  exact State.modBook_steady _ (foldl_steady (fun s i h => State.modBook_steady _ (State.leaveJob_steady _ _ h)) _ h)

theorem closeOrderBody_steady : closeOrderBody.Steady := fun _ _ _ h =>
  required_steady h fun _ => checked_steady h fun _ => State.closeOrder_steady _ h

theorem releaseOrderBody_steady : releaseOrderBody.Steady := fun _ _ _ h =>
  required_steady h fun _ => checked_steady h fun _ => h

theorem orderStatusBody_steady : orderStatusBody.Steady := fun _ _ _ h =>
  required_steady h fun _ => required_steady h fun _ => by
    split
    · exact h
    · split
      · exact h
      · split
        · exact h
        · split <;> exact h

/-! ## Chapter 9 -/

theorem writeTariffBody_steady : writeTariffBody.Steady := fun _ _ _ h =>
  required_steady h fun _ => required_steady h fun _ => required_steady h fun _ => required_steady h fun _ =>
    required_steady h fun _ => required_steady h fun _ => by
      split
      · exact h
      · split
        · exact h
        · obtain ⟨-, -, -, -, -, -, -, h8, h9, h10, -⟩ := h.1
          exact State.modMeter_steady _ h (by simpa using h8) h9 h10

theorem readTariffBody_steady : readTariffBody.Steady := fun _ _ _ h =>
  required_steady h fun _ => by split <;> exact h

theorem State.setMeter_steady {s : State} (a b c : Option Nat) (h : s.steady T) : (s.setMeter a b c).steady T := by
  have h1 (d e f : Nat) : (s.modMeter fun m => { m with settings := MeterSettings.stored d e f }).steady T := by
    obtain ⟨-, -, -, -, -, -, -, h8, h9, -, -⟩ := h.1
    exact State.modMeter_steady _ h h8 h9 (Nat.le_max_right _ _)
  unfold State.setMeter
  dsimp only
  split
  · exact h
  · split
    · exact State.resolve_steady cutOffDeliveries_steady (h1 _ _ _)
    · exact h1 _ _ _

theorem setMeterBody_steady : setMeterBody.Steady := fun _ fs s h => by
  unfold setMeterBody
  dsimp only
  split
  · exact h
  · exact State.setMeter_steady _ _ _ h

theorem setDayBody_steady : setDayBody.Steady := fun _ _ _ h =>
  required_steady h fun _ => by
    obtain ⟨-, -, -, -, -, -, -, h8, h9, h10, -⟩ := h.1
    exact State.modMeter_steady _ h h8 h9 h10

theorem creditBody_steady : creditBody.Steady := fun _ _ _ h =>
  required_steady h fun _ => required_steady h fun _ => checked_steady h fun _ =>
    State.addEntry_steady _ (State.evaluate_steady cutOffDeliveries_steady _ (State.modBook_steady _ h))

theorem meterStatusBody_steady : meterStatusBody.Steady := fun _ fs s h => by
  unfold meterStatusBody
  split
  · exact h
  · split <;> exact h

/-! ## Queries and notices -/

theorem editionInfoBody_steady : editionInfoBody.Steady := fun _ _ _ h =>
  required_steady h fun _ => required_steady h fun _ => by
    split
    · exact h
    · split <;> exact h

theorem pageInfoBody_steady : pageInfoBody.Steady := fun _ _ _ h =>
  required_steady h fun _ => required_steady h fun _ => by
    split
    · exact h
    · split
      · exact h
      · split
        · exact h
        · split <;> exact h

theorem photoInfoBody_steady : photoInfoBody.Steady := fun _ _ _ h =>
  required_steady h fun _ => required_steady h fun _ => by
    split
    · exact h
    · split <;> exact h

theorem storeInfoBody_steady : storeInfoBody.Steady := fun _ _ _ h => h

theorem pollBody_steady (l : LinkId) : (pollBody l).Steady := fun _ fs s h => by
  unfold pollBody
  split
  · exact h
  · exact State.modSource_steady _ _ _ h

theorem peekBody_steady (l : LinkId) : (peekBody l).Steady := fun _ fs s h => by
  unfold peekBody
  split <;> exact h

theorem endNoticeBody_steady (l : LinkId) : (endNoticeBody l).Steady := fun _ fs s h => by
  unfold endNoticeBody
  split
  · split
    · exact h
    · exact State.modSource_steady _ _ _ h
  · split
    · exact State.modSource_steady _ _ _ h
    · exact h

theorem setNoticeBody_steady (l : LinkId) : (setNoticeBody l).Steady := fun T fs s h => by
  unfold setNoticeBody
  split
  · exact h
  · split
    · exact h
    · refine ⟨State.modNotices_sound _ _ h.1 (by simp [Controller.write]; exact (s.sound_link h.1 l).2.2), ?_⟩
      rw [← h.2]
      cases l <;> simp only [State.passage, Passage.mk.injEq] <;> refine ⟨rfl, rfl, rfl, rfl, ?_⟩ <;> funext m <;>
        cases m <;> rfl

/-! ## Transfers that complete -/

/-- All that the end of a granted transfer can do: nothing, a fault on an absent slot, or the work of its end. -/
theorem whenEnds_cases {s : State} {granted : Option Transfer} {mine : Transfer → Bool} {f : Transfer → State → State} :
    whenEnds s granted mine f = .next s ∨
      ∃ x, granted = some x ∧ mine x = true ∧ s.power = .running ∧
        (s.store.slotCount ≤ x.slot ∧ whenEnds s granted mine f = .fault .noSuchSlot ∨
          x.slot < s.store.slotCount ∧ whenEnds s granted mine f = .next (f x s).settle) := by
  unfold whenEnds whenRunning
  split
  · rename_i hp
    cases granted with
    | none => exact .inl rfl
    | some x =>
      dsimp only
      split
      · rename_i hm
        refine .inr ⟨x, rfl, hm, hp, ?_⟩
        split
        · exact .inl ⟨‹_›, rfl⟩
        · exact .inr ⟨Nat.lt_of_not_le ‹_›, rfl⟩
      · exact .inl rfl
  · exact .inl rfl

theorem whenEnds_sound {s t : State} {granted : Option Transfer} {mine : Transfer → Bool} {f : Transfer → State → State}
    (hf : ∀ x s, s.sound → (f x s).sound) (h : s.sound) (ht : whenEnds s granted mine f = .next t) : t.sound := by
  rcases whenEnds_cases (s := s) (granted := granted) (mine := mine) (f := f) with e | ⟨x, -, -, -, ⟨-, e⟩ | ⟨-, e⟩⟩ <;>
    rw [e] at ht <;> cases ht
  · exact h
  · exact State.settle_sound (hf _ _ h)

theorem whenCompletes_sound {s t : State} {mine : Transfer → Bool} {f : Transfer → State → State}
    (hf : ∀ x s, s.sound → (f x s).sound) (h : s.sound) (ht : whenCompletes s mine f = .next t) : t.sound :=
  whenEnds_sound (fun x _ hs => hf x _ (State.complete_sound x hs)) h ht

theorem whenWithdrawnEnds_sound {s t : State} {mine : Transfer → Bool} {f : Transfer → State → State}
    (hf : ∀ x s, s.sound → (f x s).sound) (h : s.sound) (ht : whenWithdrawnEnds s mine f = .next t) : t.sound :=
  whenEnds_sound (fun x _ hs => hf x _ (State.calm_sound Store.endWithdrawn_calm hs)) h ht

end Sys2Proof.Machine
end

