-- ==== Sys2Proof/Laws/Tables.lean ====
section
/-! SUPPORT. What finding a record gives after a table was changed: records changed in place, put in, taken out; and the next
free numbers. Said once for every table of the part. -/

namespace Sys2Proof.Machine

/-! ## Lists of records -/

section Lists

variable {α : Type}

/-- A record found stays the one found when records are changed in place without changing what the search looks at. -/
theorem find_modifyWhere (p q : α → Bool) (f : α → α) (hq : ∀ y, q (f y) = q y) (l : List α) :
    (modifyWhere p f l).find? q = (l.find? q).map fun x => if p x then f x else x := by
  unfold modifyWhere
  induction l with
  | nil => rfl
  | cons a l ih =>
    have key : q (if p a then f a else a) = q a := by split <;> simp [hq]
    cases ha : q a <;> simp [List.find?, key, ha, ih]

/-- Records that a change does not pick out are found as before. -/
theorem find_modifyWhere_other (p q : α → Bool) (f : α → α) (hq : ∀ y, q (f y) = q y) (l : List α)
    (h : ∀ y, q y = true → p y = false) : (modifyWhere p f l).find? q = l.find? q := by
  rw [find_modifyWhere p q f hq]
  cases hl : l.find? q with
  | none => rfl
  | some x => simp [h x (List.find?_some hl)]

/-- Changing records in place keeps a property of the records that the change keeps. -/
theorem map_modifyWhere {β : Type} (p : α → Bool) (f : α → α) (g : α → β) (hg : ∀ y, g (f y) = g y) (l : List α) :
    (modifyWhere p f l).map g = l.map g := by
  unfold modifyWhere
  induction l with
  | nil => rfl
  | cons a l ih => simp only [List.map_cons, ih]; split <;> simp [hg]

theorem mem_modifyWhere {p : α → Bool} {f : α → α} {l : List α} {y : α} (h : y ∈ modifyWhere p f l) :
    ∃ x ∈ l, y = if p x then f x else x := by
  obtain ⟨x, hx, rfl⟩ := List.mem_map.mp h
  exact ⟨x, hx, rfl⟩

/-- A list with one record put in somewhere. -/
def Inserted (x : α) (l l' : List α) : Prop := ∃ a b, l = a ++ b ∧ l' = a ++ x :: b

theorem Inserted.cons {x a : α} {l l' : List α} (h : Inserted x l l') : Inserted x (a :: l) (a :: l') := by
  obtain ⟨b, c, rfl, rfl⟩ := h
  exact ⟨a :: b, c, rfl, rfl⟩

/-- A search that the new record does not answer finds what it found. -/
theorem Inserted.find_other {x : α} {l l' : List α} (h : Inserted x l l') {q : α → Bool} (hx : q x = false) :
    l'.find? q = l.find? q := by
  obtain ⟨a, b, rfl, rfl⟩ := h
  simp [List.find?_append, List.find?, hx]

/-- A search that only the new record answers finds it. -/
theorem Inserted.find_new {x : α} {l l' : List α} (h : Inserted x l l') {q : α → Bool} (hx : q x = true)
    (hl : l.find? q = none) : l'.find? q = some x := by
  obtain ⟨a, b, rfl, rfl⟩ := h
  simp only [List.find?_append, Option.or_eq_none_iff] at hl
  simp [List.find?_append, List.find?, hx, hl.1]

theorem Inserted.length {x : α} {l l' : List α} (h : Inserted x l l') : l'.length = l.length + 1 := by
  obtain ⟨a, b, rfl, rfl⟩ := h
  simp [Nat.add_assoc]

theorem Inserted.mem {x y : α} {l l' : List α} (h : Inserted x l l') : y ∈ l' ↔ y = x ∨ y ∈ l := by
  obtain ⟨a, b, rfl, rfl⟩ := h
  simp; tauto

/-- Taking records out leaves a search for others as it was. -/
theorem find_filter_other (p q : α → Bool) (l : List α) (h : ∀ y, q y = true → p y = true) :
    (l.filter p).find? q = l.find? q := by
  induction l with
  | nil => rfl
  | cons a l ih =>
    cases hp : p a
    · have : q a = false := by cases hq : q a; rfl; simp [h a hq] at hp
      simp [List.filter, List.find?, hp, this, ih]
    · cases hq : q a <;> simp [List.filter, List.find?, hp, hq, ih]

/-- Records taken out are not found. -/
theorem find_filter_gone (p q : α → Bool) (l : List α) (h : ∀ y, p y = true → q y = false) :
    (l.filter p).find? q = none := by
  rw [List.find?_eq_none]
  intro y hy
  simp [h y (List.mem_filter.mp hy).2]

end Lists

/-! ## Tables kept in order -/

theorem insertEdition_inserted (e : Edition) (l : List Edition) : Inserted e l (insertEdition e l) := by
  induction l with
  | nil => exact ⟨[], [], rfl, rfl⟩
  | cons x xs ih => unfold insertEdition; split; exacts [⟨[], x :: xs, rfl, rfl⟩, ih.cons]
theorem insertPage_inserted (p : Page) (l : List Page) : Inserted p l (insertPage p l) := by
  induction l with
  | nil => exact ⟨[], [], rfl, rfl⟩
  | cons x xs ih => unfold insertPage; split; exacts [⟨[], x :: xs, rfl, rfl⟩, ih.cons]
theorem insertPhoto_inserted (p : Photo) (l : List Photo) : Inserted p l (insertPhoto p l) := by
  induction l with
  | nil => exact ⟨[], [], rfl, rfl⟩
  | cons x xs ih => unfold insertPhoto; split; exacts [⟨[], x :: xs, rfl, rfl⟩, ih.cons]
theorem insertExtent_inserted (e : Extent) (l : List Extent) : Inserted e l (insertExtent e l) := by
  induction l with
  | nil => exact ⟨[], [], rfl, rfl⟩
  | cons x xs ih => unfold insertExtent; split; exacts [⟨[], x :: xs, rfl, rfl⟩, ih.cons]
theorem insertAccount_inserted (a : Account) (l : List Account) : Inserted a l (insertAccount a l) := by
  induction l with
  | nil => exact ⟨[], [], rfl, rfl⟩
  | cons x xs ih => unfold insertAccount; split; exacts [⟨[], x :: xs, rfl, rfl⟩, ih.cons]
theorem insertOrder_inserted (o : Order) (l : List Order) : Inserted o l (insertOrder o l) := by
  induction l with
  | nil => exact ⟨[], [], rfl, rfl⟩
  | cons x xs ih => unfold insertOrder; split; exacts [⟨[], x :: xs, rfl, rfl⟩, ih.cons]
theorem insertItem_inserted (i : Item) (l : List Item) : Inserted i l (insertItem i l) := by
  induction l with
  | nil => exact ⟨[], [], rfl, rfl⟩
  | cons x xs ih => unfold insertItem; split; exacts [⟨[], x :: xs, rfl, rfl⟩, ih.cons]

/-! ## Free numbers -/

/-- The lowest free number: it is not in use, every number from `n` to it is, and it lies within the fuel. -/
theorem lowestFree_spec (used : List Nat) (fuel n : Nat) (h : (used.filter (n ≤ ·)).length < fuel) :
    lowestFree used fuel n ∉ used ∧ n ≤ lowestFree used fuel n ∧ lowestFree used fuel n < n + fuel ∧
      ∀ m, n ≤ m → m < lowestFree used fuel n → m ∈ used := by
  induction fuel generalizing n with
  | zero => simp at h
  | succ k ih =>
    unfold lowestFree
    by_cases hc : used.contains n = true
    · rw [if_pos hc]
      have hmem : n ∈ used := by simpa using hc
      have hlt : (used.filter (n + 1 ≤ ·)).length < k := by
        have hsub : (used.filter (n + 1 ≤ ·)).length < (used.filter (n ≤ ·)).length := by
          have e : used.filter (n + 1 ≤ ·) = (used.filter (n ≤ ·)).filter (· ≠ n) := by
            rw [List.filter_filter]
            congr 1; funext x; rw [Bool.eq_iff_iff]; simp; omega
          rw [e]
          apply List.length_filter_lt_length_iff_exists.mpr
          exact ⟨n, by simp [hmem], by simp⟩
        exact lt_of_lt_of_le hsub (Nat.lt_succ_iff.mp h)
      obtain ⟨h1, h2, h3, h4⟩ := ih (n + 1) hlt
      refine ⟨h1, by omega, by omega, fun m hm hlt' => ?_⟩
      by_cases hn : m = n
      · exact hn ▸ hmem
      · exact h4 m (by omega) hlt'
    · rw [if_neg hc]
      exact ⟨by simpa using hc, Nat.le_refl _, by omega, fun m hm hlt' => by omega⟩

/-- A new extent's record number is free. -/
theorem Allocator.freshNumber_free (a : Allocator) : a.find a.freshNumber = none := by
  have h := (lowestFree_spec (a.extents.map (·.number)) (a.extents.length + 1) 0 (by
    have := List.length_filter_le (fun x => decide (0 ≤ x)) (a.extents.map (·.number))
    simp at this ⊢)).1
  rw [Allocator.find, List.find?_eq_none]
  intro e he hn
  apply h
  simp only [decide_eq_true_eq] at hn
  exact List.mem_map.mpr ⟨e, he, hn⟩

/-- A new item's number: 1 to 16, free, and the lowest such. -/
theorem Order.freeNumber_spec (o : Order) (h : o.items.length < 16) :
    o.item o.freeNumber = none ∧ 1 ≤ o.freeNumber ∧ o.freeNumber ≤ 16 ∧
      ∀ m, 1 ≤ m → m < o.freeNumber → o.item m ≠ none := by
  have hs := lowestFree_spec (o.items.map (·.number)) 16 1 (by
    have := List.length_filter_le (fun x => decide (1 ≤ x)) (o.items.map (·.number))
    simp only [List.length_map] at this; omega)
  obtain ⟨h1, h2, h3, h4⟩ := hs
  refine ⟨?_, h2, by unfold Order.freeNumber; omega, fun m hm hlt hnone => ?_⟩
  · rw [Order.item, List.find?_eq_none]
    intro i hi hn
    simp only [decide_eq_true_eq] at hn
    exact h1 (List.mem_map.mpr ⟨i, hi, hn⟩)
  · obtain ⟨i, hi, hn⟩ := List.mem_map.mp (h4 m hm hlt)
    rw [Order.item, List.find?_eq_none] at hnone
    exact hnone i hi (by simpa using hn)

/-- The value after the last one, wrapping from `top` to 1. -/
def nextValue (top last : Nat) : Nat := if top ≤ last then 1 else last + 1

/-- The numbers a search for a free one looks at, in order: the k-th of them. -/
def nthValue (top last k : Nat) : Nat := ((if top ≤ last then 0 else last) + k) % top + 1

theorem nextValue_nthValue (top last k : Nat) (h : 0 < top) :
    nextValue top (nthValue top last k) = nthValue top last (k + 1) := by
  unfold nextValue nthValue
  generalize (if top ≤ last then 0 else last) = b
  have hlt := Nat.mod_lt (b + k) h
  rw [← Nat.add_assoc, Nat.add_mod (b + k) 1]
  by_cases h1 : top = 1
  · subst h1; simp [Nat.mod_one]
  · rw [Nat.mod_eq_of_lt (show 1 < top by omega)]
    split
    · rw [show (b + k) % top + 1 = top by omega, Nat.mod_self]
    · rw [Nat.mod_eq_of_lt (show (b + k) % top + 1 < top by omega)]

theorem nthValue_inj (top last : Nat) {x y : Nat} (hx : x < top) (hy : y < top)
    (h : nthValue top last x = nthValue top last y) : x = y := by
  unfold nthValue at h
  generalize (if top ≤ last then 0 else last) = b at h
  have h2 : x ≡ y [MOD top] := Nat.ModEq.add_left_cancel' b (Nat.add_right_cancel h)
  have h3 : x % top = y % top := h2
  rwa [Nat.mod_eq_of_lt hx, Nat.mod_eq_of_lt hy] at h3

theorem nthValue_range (top last k : Nat) (h : 0 < top) : 1 ≤ nthValue top last k ∧ nthValue top last k ≤ top := by
  unfold nthValue
  have := Nat.mod_lt ((if top ≤ last then 0 else last) + k) h
  omega

/-- A number given out next is free and lies in 1 to `top`, when fewer numbers are in use than there are tries and tries than
numbers. -/
theorem nextFree_spec (top : Nat) (inUse : Nat → Bool) (used : List Nat) (hu : ∀ v, inUse v = true → v ∈ used) (fuel last : Nat)
    (hlen : used.length < fuel) (htop : fuel ≤ top) :
    inUse (nextFree top inUse fuel last) = false ∧ 1 ≤ nextFree top inUse fuel last ∧ nextFree top inUse fuel last ≤ top := by
  have hpos : 0 < top := by omega
  have walk : ∀ m k last', fuel = k + m → 0 < m → nextValue top last' = nthValue top last k →
      (∀ j, j < k → inUse (nthValue top last j) = true) →
      inUse (nextFree top inUse m last') = false ∧ 1 ≤ nextFree top inUse m last' ∧ nextFree top inUse m last' ≤ top := by
    intro m
    induction m with
    | zero => intro k last' _ h0; omega
    | succ m ih =>
      intro k last' hk _ hval hprev
      have hrange := nthValue_range top last k hpos
      have hstep : nextFree top inUse (m + 1) last' =
          if inUse (nthValue top last k) then nextFree top inUse m (nthValue top last k) else nthValue top last k := by
        rw [← hval]; rfl
      rw [hstep]
      cases hin : inUse (nthValue top last k)
      · simpa [hin] using hrange
      · have hnext : ∀ j, j < k + 1 → inUse (nthValue top last j) = true := by
          intro j hj
          by_cases hjk : j = k
          · rw [hjk]; exact hin
          · exact hprev j (by omega)
        by_cases hlast : 0 < m
        · simpa using ih (k + 1) (nthValue top last k) (by omega) hlast (nextValue_nthValue top last k hpos) hnext
        · exfalso
          have hinj : ((List.range fuel).map (nthValue top last)).Nodup := by
            refine List.Nodup.map_on ?_ List.nodup_range
            intro x hx y hy hxy
            simp only [List.mem_range] at hx hy
            exact nthValue_inj top last (by omega) (by omega) hxy
          have hsub : ((List.range fuel).map (nthValue top last)) ⊆ used := by
            intro v hv
            obtain ⟨j, hj, rfl⟩ := List.mem_map.mp hv
            exact hu _ (hnext j (by have := List.mem_range.mp hj; omega))
          have := (List.subperm_of_subset hinj hsub).length_le
          simp at this; omega
  refine walk fuel 0 last (by omega) (by omega) ?_ (fun j hj => by omega)
  unfold nextValue nthValue
  split
  · simp
  · rw [Nat.add_zero, Nat.mod_eq_of_lt (by omega)]

end Sys2Proof.Machine
end

