-- ==== Sys2Proof/Laws/Lookups.lean ====
section
/-! SUPPORT. Finding a record of each table after a change of it: the record of that name is changed, every other record is
found as before. -/

namespace Sys2Proof.Machine

theorem OrderBook.account_modAccount_same (b : OrderBook) (k : Nat) (f : Account → Account) (hf : ∀ x, (f x).id = x.id) :
    (b.modAccount k f).account k = (b.account k).map f := by
  simp only [OrderBook.account, OrderBook.modAccount]
  rw [find_modifyWhere _ _ _ (fun y => by simp only [hf])]
  cases h : List.find? _ _ with
  | none => rfl
  | some x =>
    have hk := List.find?_some h
    simp only [Option.map_some, hk, if_true]
theorem OrderBook.account_modAccount_other (b : OrderBook) (k m : Nat) (f : Account → Account) (hf : ∀ x, (f x).id = x.id) (hm : m ≠ k) :
    (b.modAccount k f).account m = b.account m := by
  simp only [OrderBook.account, OrderBook.modAccount]
  refine find_modifyWhere_other _ _ _ (fun y => by simp only [hf]) _ (fun y hy => ?_)
  simp only [decide_eq_true_eq, decide_eq_false_iff_not] at hy ⊢
  omega

theorem OrderBook.order_modOrder_same (b : OrderBook) (k : Nat) (f : Order → Order) (hf : ∀ x, (f x).id = x.id) :
    (b.modOrder k f).order k = (b.order k).map f := by
  simp only [OrderBook.order, OrderBook.modOrder]
  rw [find_modifyWhere _ _ _ (fun y => by simp only [hf])]
  cases h : List.find? _ _ with
  | none => rfl
  | some x =>
    have hk := List.find?_some h
    simp only [Option.map_some, hk, if_true]
theorem OrderBook.order_modOrder_other (b : OrderBook) (k m : Nat) (f : Order → Order) (hf : ∀ x, (f x).id = x.id) (hm : m ≠ k) :
    (b.modOrder k f).order m = b.order m := by
  simp only [OrderBook.order, OrderBook.modOrder]
  refine find_modifyWhere_other _ _ _ (fun y => by simp only [hf]) _ (fun y hy => ?_)
  simp only [decide_eq_true_eq, decide_eq_false_iff_not] at hy ⊢
  omega

theorem Order.item_modItem_same (o : Order) (k : Nat) (f : Item → Item) (hf : ∀ x, (f x).number = x.number) :
    (o.modItem k f).item k = (o.item k).map f := by
  simp only [Order.item, Order.modItem]
  rw [find_modifyWhere _ _ _ (fun y => by simp only [hf])]
  cases h : List.find? _ _ with
  | none => rfl
  | some x =>
    have hk := List.find?_some h
    simp only [Option.map_some, hk, if_true]
theorem Order.item_modItem_other (o : Order) (k m : Nat) (f : Item → Item) (hf : ∀ x, (f x).number = x.number) (hm : m ≠ k) :
    (o.modItem k f).item m = o.item m := by
  simp only [Order.item, Order.modItem]
  refine find_modifyWhere_other _ _ _ (fun y => by simp only [hf]) _ (fun y hy => ?_)
  simp only [decide_eq_true_eq, decide_eq_false_iff_not] at hy ⊢
  omega

theorem Catalogue.edition_modEdition_same (c : Catalogue) (k : Nat) (f : Edition → Edition) (hf : ∀ x, (f x).id = x.id) :
    (c.modEdition k f).edition k = (c.edition k).map f := by
  simp only [Catalogue.edition, Catalogue.modEdition]
  rw [find_modifyWhere _ _ _ (fun y => by simp only [hf])]
  cases h : List.find? _ _ with
  | none => rfl
  | some x =>
    have hk := List.find?_some h
    simp only [Option.map_some, hk, if_true]
theorem Catalogue.edition_modEdition_other (c : Catalogue) (k m : Nat) (f : Edition → Edition) (hf : ∀ x, (f x).id = x.id) (hm : m ≠ k) :
    (c.modEdition k f).edition m = c.edition m := by
  simp only [Catalogue.edition, Catalogue.modEdition]
  refine find_modifyWhere_other _ _ _ (fun y => by simp only [hf]) _ (fun y hy => ?_)
  simp only [decide_eq_true_eq, decide_eq_false_iff_not] at hy ⊢
  omega

theorem Catalogue.photo_modPhoto_same (c : Catalogue) (k : Nat) (f : Photo → Photo) (hf : ∀ x, (f x).id = x.id) :
    (c.modPhoto k f).photo k = (c.photo k).map f := by
  simp only [Catalogue.photo, Catalogue.modPhoto]
  rw [find_modifyWhere _ _ _ (fun y => by simp only [hf])]
  cases h : List.find? _ _ with
  | none => rfl
  | some x =>
    have hk := List.find?_some h
    simp only [Option.map_some, hk, if_true]
theorem Catalogue.photo_modPhoto_other (c : Catalogue) (k m : Nat) (f : Photo → Photo) (hf : ∀ x, (f x).id = x.id) (hm : m ≠ k) :
    (c.modPhoto k f).photo m = c.photo m := by
  simp only [Catalogue.photo, Catalogue.modPhoto]
  refine find_modifyWhere_other _ _ _ (fun y => by simp only [hf]) _ (fun y hy => ?_)
  simp only [decide_eq_true_eq, decide_eq_false_iff_not] at hy ⊢
  omega

theorem Edition.page_modPage_same (e : Edition) (k : Nat) (f : Page → Page) (hf : ∀ x, (f x).number = x.number) :
    (e.modPage k f).page k = (e.page k).map f := by
  simp only [Edition.page, Edition.modPage]
  rw [find_modifyWhere _ _ _ (fun y => by simp only [hf])]
  cases h : List.find? _ _ with
  | none => rfl
  | some x =>
    have hk := List.find?_some h
    simp only [Option.map_some, hk, if_true]
theorem Edition.page_modPage_other (e : Edition) (k m : Nat) (f : Page → Page) (hf : ∀ x, (f x).number = x.number) (hm : m ≠ k) :
    (e.modPage k f).page m = e.page m := by
  simp only [Edition.page, Edition.modPage]
  refine find_modifyWhere_other _ _ _ (fun y => by simp only [hf]) _ (fun y hy => ?_)
  simp only [decide_eq_true_eq, decide_eq_false_iff_not] at hy ⊢
  omega

theorem Allocator.find_modExtent_same (a : Allocator) (k : Nat) (f : Extent → Extent) (hf : ∀ x, (f x).number = x.number) :
    (a.modExtent k f).find k = (a.find k).map f := by
  simp only [Allocator.find, Allocator.modExtent]
  rw [find_modifyWhere _ _ _ (fun y => by simp only [hf])]
  cases h : List.find? _ _ with
  | none => rfl
  | some x =>
    have hk := List.find?_some h
    simp only [Option.map_some, hk, if_true]
theorem Allocator.find_modExtent_other (a : Allocator) (k m : Nat) (f : Extent → Extent) (hf : ∀ x, (f x).number = x.number) (hm : m ≠ k) :
    (a.modExtent k f).find m = a.find m := by
  simp only [Allocator.find, Allocator.modExtent]
  refine find_modifyWhere_other _ _ _ (fun y => by simp only [hf]) _ (fun y hy => ?_)
  simp only [decide_eq_true_eq, decide_eq_false_iff_not] at hy ⊢
  omega

theorem DeliveryTable.find_modify_same (t : DeliveryTable) (k : Nat) (f : Delivery → Delivery) (hf : ∀ x, (f x).handle = x.handle) :
    (t.modify k f).find k = (t.find k).map f := by
  simp only [DeliveryTable.find, DeliveryTable.modify]
  rw [find_modifyWhere _ _ _ (fun y => by simp only [hf])]
  cases h : List.find? _ _ with
  | none => rfl
  | some x =>
    have hk := List.find?_some h
    simp only [Option.map_some, hk, if_true]
theorem DeliveryTable.find_modify_other (t : DeliveryTable) (k m : Nat) (f : Delivery → Delivery) (hf : ∀ x, (f x).handle = x.handle) (hm : m ≠ k) :
    (t.modify k f).find m = t.find m := by
  simp only [DeliveryTable.find, DeliveryTable.modify]
  refine find_modifyWhere_other _ _ _ (fun y => by simp only [hf]) _ (fun y hy => ?_)
  simp only [decide_eq_true_eq, decide_eq_false_iff_not] at hy ⊢
  omega

theorem Engine.find_modJob_same (g : Engine) (k : Nat) (f : Job → Job) (hf : ∀ x, (f x).id = x.id) :
    (g.modJob k f).find k = (g.find k).map f := by
  simp only [Engine.find, Engine.modJob]
  rw [find_modifyWhere _ _ _ (fun y => by simp only [hf])]
  cases h : List.find? _ _ with
  | none => rfl
  | some x =>
    have hk := List.find?_some h
    simp only [Option.map_some, hk, if_true]
theorem Engine.find_modJob_other (g : Engine) (k m : Nat) (f : Job → Job) (hf : ∀ x, (f x).id = x.id) (hm : m ≠ k) :
    (g.modJob k f).find m = g.find m := by
  simp only [Engine.find, Engine.modJob]
  refine find_modifyWhere_other _ _ _ (fun y => by simp only [hf]) _ (fun y hy => ?_)
  simp only [decide_eq_true_eq, decide_eq_false_iff_not] at hy ⊢
  omega

/-! ## Page revisions -/

/-- Changing the revision of a name changes just that revision (R7). -/
theorem Catalogue.revision_modRevision_same (c : Catalogue) (r : RevName) (f : Revision → Revision)
    (hf : ∀ x, (f x).number = x.number) : (c.modRevision r f).revision r = (c.revision r).map f := by
  unfold Catalogue.revision Catalogue.modRevision
  rw [Catalogue.edition_modEdition_same _ _ _ (by intro _; rfl)]
  cases c.edition r.edition with
  | none => rfl
  | some e =>
    simp only [Option.map_some, Option.bind_some]
    rw [Edition.page_modPage_same _ _ _ (by intro _; rfl)]
    cases e.page r.page with
    | none => rfl
    | some p =>
      simp only [Option.map_some, Option.bind_some, Page.rev]
      rw [find_modifyWhere _ _ _ (fun y => by simp only [hf])]
      cases h : List.find? _ _ with
      | none => rfl
      | some x =>
        have hk := List.find?_some h
        simp only [Option.map_some, hk, if_true]

theorem Catalogue.revision_modRevision_other (c : Catalogue) (r q : RevName) (f : Revision → Revision)
    (hf : ∀ x, (f x).number = x.number) (hq : q ≠ r) : (c.modRevision r f).revision q = c.revision q := by
  unfold Catalogue.revision Catalogue.modRevision
  by_cases he : q.edition = r.edition
  · rw [he, Catalogue.edition_modEdition_same _ _ _ (by intro _; rfl)]
    cases c.edition r.edition with
    | none => rfl
    | some e =>
      simp only [Option.map_some, Option.bind_some]
      by_cases hp : q.page = r.page
      · rw [hp, Edition.page_modPage_same _ _ _ (by intro _; rfl)]
        cases e.page r.page with
        | none => rfl
        | some p =>
          simp only [Option.map_some, Option.bind_some, Page.rev]
          refine find_modifyWhere_other _ _ _ (fun y => by simp only [hf]) _ (fun y hy => ?_)
          simp only [decide_eq_true_eq, decide_eq_false_iff_not] at hy ⊢
          intro h
          apply hq
          cases q; cases r; simp_all
      · rw [Edition.page_modPage_other _ _ _ _ (by intro _; rfl) hp]
  · rw [Catalogue.edition_modEdition_other _ _ _ _ (by intro _; rfl) he]

/-- An edition's own data stay when one of its revisions changes: all but its pages. -/
theorem Catalogue.edition_modRevision (c : Catalogue) (r : RevName) (f : Revision → Revision) (id : Nat) :
    ∀ e, c.edition id = some e → ∃ ps, (c.modRevision r f).edition id = some { e with pages := ps } := by
  intro e he
  unfold Catalogue.modRevision
  by_cases h : id = r.edition
  · subst h
    rw [Catalogue.edition_modEdition_same _ _ _ (by intro _; rfl), he]
    exact ⟨_, rfl⟩
  · rw [Catalogue.edition_modEdition_other _ _ _ _ (by intro _; rfl) h, he]
    exact ⟨_, rfl⟩

/-! ## Items -/

theorem OrderBook.item_modItem_same (b : OrderBook) (o n : Nat) (f : Item → Item) (hf : ∀ x, (f x).number = x.number) :
    (b.modItem o n f).item o n = (b.item o n).map f := by
  unfold OrderBook.item OrderBook.modItem
  rw [OrderBook.order_modOrder_same _ _ _ (by intro _; rfl)]
  cases b.order o with
  | none => rfl
  | some x => simp only [Option.map_some, Option.bind_some]; exact Order.item_modItem_same x n f hf

theorem OrderBook.item_modItem_other (b : OrderBook) (o n p m : Nat) (f : Item → Item) (hf : ∀ x, (f x).number = x.number)
    (h : p ≠ o ∨ m ≠ n) : (b.modItem o n f).item p m = b.item p m := by
  unfold OrderBook.item OrderBook.modItem
  by_cases hp : p = o
  · subst hp
    rw [OrderBook.order_modOrder_same _ _ _ (by intro _; rfl)]
    cases b.order p with
    | none => rfl
    | some x =>
      simp only [Option.map_some, Option.bind_some]
      exact Order.item_modItem_other x n m f hf (h.resolve_left (fun k => k rfl))
  · rw [OrderBook.order_modOrder_other _ _ _ _ (by intro _; rfl) hp]

/-! ## Extents coming and going -/

/-- The record a new extent takes, and every other record as before (R51). -/
theorem Allocator.find_occupy (a : Allocator) (first size : Nat) (owner : Owner) (state : ExtentState) :
    (a.occupy first size owner state).2.find a.freshNumber =
      some { number := a.freshNumber, first, size, owner, state } ∧
    ∀ n, n ≠ a.freshNumber → (a.occupy first size owner state).2.find n = a.find n := by
  refine ⟨?_, fun n hn => ?_⟩
  · exact (insertExtent_inserted _ _).find_new (by simp) a.freshNumber_free
  · exact (insertExtent_inserted _ _).find_other (by simp; omega)

/-- An extent returned has no record, and every other record is as before (R54). -/
theorem Allocator.find_giveBack (a : Allocator) (n : Nat) :
    (a.giveBack n).find n = none ∧ ∀ m, m ≠ n → (a.giveBack n).find m = a.find m := by
  unfold Allocator.giveBack
  cases h : a.find n with
  | none => exact ⟨h, fun _ _ => rfl⟩
  | some e =>
    refine ⟨find_filter_gone _ _ _ (fun y hy => ?_), fun m hm => find_filter_other _ _ _ (fun y hy => ?_)⟩
    · simpa using hy
    · simp at hy ⊢; omega

/-- A release leaves every other record as it was (R53). -/
theorem Allocator.find_release_other (a : Allocator) (n m : Nat) (hm : m ≠ n) : (a.release n).find m = a.find m := by
  unfold Allocator.release
  cases h : a.find n with
  | none => rfl
  | some e =>
    simp only
    split
    · exact Allocator.find_modExtent_other _ _ _ _ (by intro _; rfl) hm
    · exact (Allocator.find_giveBack a n).2 m hm
    · exact (Allocator.find_giveBack a n).2 m hm
    · split
      · exact (Allocator.find_giveBack a n).2 m hm
      · exact Allocator.find_modExtent_other _ _ _ _ (by intro _; rfl) hm
    · rfl

end Sys2Proof.Machine
end

