-- ==== Sys2Proof/WellFormed.lean ====
section
/-! DEFINITION. Which commands are well formed: requests that fit a frame, frames of the kind their row names, records and
offsets that exist. -/

namespace Sys2Proof

open Machine

/-- Parameter words of a request: 0..60 (R204). -/
def paramsFit (ps : List Word) : Bool := ps.length ≤ 60

/-- Offsets of DRAM cells lie in the slot (R66, log 7). -/
def upsetFits (us : List Upset) : Bool := us.all (·.1 < slotBytes)

/-- An id of 1..65,535 (R1, R10, R150, R160). -/
def idFits (n : Nat) : Bool := 1 ≤ n && n ≤ 65535

/-- A frame that the receiver takes as a request (R188, R189). -/
def isRequestFrame (l : LinkId) (ws : List Word) : Bool :=
  match sortFrame l ws with
  | .request _ => true
  | _ => false

/-- A frame that the receiver refuses (R188). -/
def isRefusedFrame (l : LinkId) (ws : List Word) : Bool :=
  match sortFrame l ws with
  | .refused _ => true
  | _ => false

/-- A frame that goes to the deposit port (R188, R193). -/
def isTileFrame (ws : List Word) : Bool :=
  match sortFrame .production ws with
  | .tile _ _ _ => true
  | _ => false

/-- The command is one that the part can meet. -/
def Instr.wf : Instr → Bool
  | .powerUp _ _ _ _ => true
  | .resetAssert => true
  | .resetRelease _ _ => true
  | .requestFrameArrives l ws => isRequestFrame l ws
  | .frameRefused l ws => isRefusedFrame l ws
  | .unknownRequestCode _ _ code ps => !requestCodes.contains code.toNat && paramsFit ps
  | .tileFrame ws => isTileFrame ws
  | .tileWriteComplete => true
  | .depositTimeout slot => slot < 4
  | .openEdition _ _ ps => paramsFit ps
  | .depositPage _ _ ps => paramsFit ps
  | .depositPhoto _ _ ps => paramsFit ps
  | .replatePage _ _ ps => paramsFit ps
  | .closeEdition _ _ ps => paramsFit ps
  | .retireEdition _ _ ps => paramsFit ps
  | .discardPhoto _ _ ps => paramsFit ps
  | .abandonDeposit _ _ ps => paramsFit ps
  | .depositStatus _ _ ps => paramsFit ps
  | .setDepositTimeout _ _ ps => paramsFit ps
  | .setLowWater _ _ ps => paramsFit ps
  | .compact _ _ ps => paramsFit ps
  | .setStore _ _ ps => paramsFit ps
  | .copyReadComplete us => upsetFits us
  | .copyWriteComplete => true
  | .refreshDue => true
  | .burstEnd => true
  | .enterQuiet => true
  | .wakeTimeEnds => true
  | .readPage _ _ ps => paramsFit ps
  | .readPhoto _ _ ps => paramsFit ps
  | .deliveryReadComplete us => upsetFits us
  | .fixedPeriodBegins channel => channel < 4
  | .frameSent _ => true
  | .stopDelivery _ _ ps => paramsFit ps
  | .deliveryStatus _ _ ps => paramsFit ps
  | .setPacing _ _ ps => paramsFit ps
  | .restorePage _ _ ps => paramsFit ps
  | .cancelRestore _ _ ps => paramsFit ps
  | .restoreStatus _ _ ps => paramsFit ps
  | .setSurvey _ _ ps => paramsFit ps
  | .writeProfile _ _ ps => paramsFit ps
  | .readProfile _ _ ps => paramsFit ps
  | .surveyReadComplete us => upsetFits us
  | .correctionReadComplete us => upsetFits us
  | .correctionWriteComplete => true
  | .openAccount _ _ ps => paramsFit ps
  | .setCeiling _ _ ps => paramsFit ps
  | .settle _ _ ps => paramsFit ps
  | .removeAccount _ _ ps => paramsFit ps
  | .accountStatus _ _ ps => paramsFit ps
  | .watchTimerExpires account => idFits account
  | .reinstatingTimerExpires account => idFits account
  | .openOrder _ _ ps => paramsFit ps
  | .addItem _ _ ps => paramsFit ps
  | .removeItem _ _ ps => paramsFit ps
  | .closeOrder _ _ ps => paramsFit ps
  | .orderStatus _ _ ps => paramsFit ps
  | .releaseOrder _ _ ps => paramsFit ps
  | .writeTariff _ _ ps => paramsFit ps
  | .readTariff _ _ ps => paramsFit ps
  | .setMeter _ _ ps => paramsFit ps
  | .setDay _ _ ps => paramsFit ps
  | .credit _ _ ps => paramsFit ps
  | .meterStatus _ _ ps => paramsFit ps
  | .editionInfo _ _ ps => paramsFit ps
  | .pageInfo _ _ ps => paramsFit ps
  | .photoInfo _ _ ps => paramsFit ps
  | .storeInfo _ _ ps => paramsFit ps
  | .poll _ _ ps => paramsFit ps
  | .peek _ _ ps => paramsFit ps
  | .endNotice _ _ ps => paramsFit ps
  | .setNotice _ _ ps => paramsFit ps
  | .linkReset _ _ => true
  | .powerLoss _ => true

end Sys2Proof
end

