-- ==== Sys2Proof/Tests/Slice0.lean ====
section
/-! SUPPORT. Tests: the checks of well-formedness, the worked examples of the manual, and for each statement with hypotheses a
state and operands that meet them. -/

namespace Sys2Proof.Tests

open Sys2Proof Sys2Proof.Machine

-- The tests are many and small: one after the other, they need no threads of their own.
set_option Elab.async false

/-! ## Well-formedness: one ill-formed term for each check -/

theorem test_wf_too_many_params : (Instr.compact .production 7 (List.replicate 61 0)).wf = false := by decide +kernel
theorem test_wf_sixty_params : (Instr.compact .production 7 (List.replicate 60 0)).wf = true := by decide +kernel
theorem test_wf_upset_outside_slot : (Instr.copyReadComplete [(4098, 1)]).wf = false := by decide +kernel
theorem test_wf_deposit_slot : (Instr.depositTimeout 4).wf = false := by decide +kernel
theorem test_wf_channel : (Instr.fixedPeriodBegins 4).wf = false := by decide +kernel
theorem test_wf_account : (Instr.watchTimerExpires 0).wf = false := by decide +kernel
theorem test_wf_account_high : (Instr.reinstatingTimerExpires 65536).wf = false := by decide +kernel
theorem test_wf_listed_code : (Instr.unknownRequestCode .desk 7 0x74 []).wf = false := by decide +kernel
theorem test_wf_request_frame_short : (Instr.requestFrameArrives .desk [0x9C01, 0x0701, 0x33]).wf = false := by decide +kernel
theorem test_wf_refused_frame : (Instr.frameRefused .desk [0x9C01, 0x0700, 0x74]).wf = false := by decide +kernel
theorem test_wf_tile_frame_short : (Instr.tileFrame [0x9C03, 1, 0]).wf = false := by decide +kernel

/-! ## Frames and codes (chapter 11) -/

/-- The check code of the nine bytes 31h to 39h is 29B1h (R206). -/
theorem test_check_code : checkBytes [0x31, 0x32, 0x33, 0x34, 0x35, 0x36, 0x37, 0x38, 0x39] = 0x29B1 := by decide +kernel

/-- The frame of DEPOSIT_STATUS naming handle 17 with tag 40: kind 9C01h, tag 28h with a count of 2, code 18h, presence
word 1, the handle (R204, R205, Table 11-4). -/
theorem test_request_frame : sortFrame .production [0x9C01, 0x2802, 0x18, 0x0001, 17] =
    .request { tag := 40, code := 0x18, params := [1, 17] } := by decide +kernel

/-- Presence bits skip the fields left out, and a two-word field has its high word first (R205). -/
theorem test_fields : readFields [.one, .two, .list] [0x0006, 0x0001, 0x0002, 0x0003, 7, 8, 9] =
    some [none, some [65538], some [7, 8, 9]] := by decide +kernel

/-- A presence bit above the last field is refused (R205). -/
theorem test_fields_bit_above : readFields [.one] [0x0003, 1, 2] = none := by decide +kernel

/-- The reply of DEPOSIT_PHOTO in Table 2-3, ACCEPTED with handle 17, as a frame (R204, Table 11-5). -/
theorem test_reply_frame : Reply.words { tag := 40, answer := { result := .accepted, fields := [.one 17] } } =
    [0x9C02, 0x2801, 0x0001, 17] := by decide +kernel

/-! ## The allocator (chapter 3) -/

/-- Table 3-3: the photograph's 12 slots return between two extents and form a run of their own. -/
theorem test_return_alone : giveSlots 192 12 [⟨304, 261840⟩] = [⟨192, 12⟩, ⟨304, 261840⟩] := by decide +kernel

/-- Table 3-3: 20 slots pass over the run of 12, and 8 slots leave a run of 4. -/
theorem test_first_fit :
    ({ runs := [⟨192, 12⟩, ⟨304, 261840⟩] } : Allocator).place 20 = .ok 304 ∧
    takeSlots 304 20 [⟨192, 12⟩, ⟨304, 261840⟩] = [⟨192, 12⟩, ⟨324, 261820⟩] ∧
    takeSlots 192 8 [⟨192, 12⟩, ⟨324, 261820⟩] = [⟨200, 4⟩, ⟨324, 261820⟩] := by decide +kernel

/-- The extents of Table 3-4 as COMPACT finds them: E5, E3 and E4. -/
def compactExtents : List Extent :=
  [⟨1, 192, 8, .photo 9, .live, 0, false⟩, ⟨2, 204, 100, .raw ⟨1, 1, 0⟩, .live, 0, false⟩, ⟨3, 304, 20, .raw ⟨1, 2, 0⟩, .live, 0, false⟩]

/-- Table 3-4: the first move takes E5 to slot 0. -/
theorem test_search_move : searchMove compactExtents [⟨0, 192⟩, ⟨200, 4⟩, ⟨324, 261820⟩] =
    some (⟨1, 192, 8, .photo 9, .live, 0, false⟩, ⟨0, 192⟩) := by decide +kernel

/-- Table 3-4: the free runs after each of the three moves. -/
theorem test_move_runs :
    giveSlots 192 8 (takeSlots 0 8 [⟨0, 192⟩, ⟨200, 4⟩, ⟨324, 261820⟩]) = [⟨8, 196⟩, ⟨324, 261820⟩] ∧
    giveSlots 204 100 (takeSlots 8 100 [⟨8, 196⟩, ⟨324, 261820⟩]) = [⟨108, 196⟩, ⟨324, 261820⟩] ∧
    giveSlots 304 20 (takeSlots 108 20 [⟨108, 196⟩, ⟨324, 261820⟩]) = [⟨128, 262016⟩] := by decide +kernel

/-! ## The store arbiter (chapter 4) -/

/-- A read of a client, for the arbiter's example. -/
def readOf (c : Client) : Transfer := ⟨c, 0, .read⟩

/-- The store of Table 4-2 when channel 2 has completed and channel 0 asks. -/
def grantStore : Store :=
  { Store.coldStart false .cold 0 with
    debt := 3, pointer := .channel 1, waiting := [readOf .deposit, readOf .restoration, readOf (.channel 0)] }

/-- Table 4-2, row 3: from channel 1 on, the restoration port is the first that waits. -/
theorem test_grant_from_pointer : grantStore.choose.inFlight = some (readOf .restoration) ∧ grantStore.choose.pointer = .deposit ∧
    grantStore.choose.waiting = [readOf .deposit, readOf (.channel 0)] := by decide +kernel

/-- Table 4-2, row 5: at debt 4 a burst comes before the waiting transfers. -/
theorem test_burst_at_debt_four : ({ grantStore with debt := 4 } : Store).choose.burst = some 8 ∧
    ({ grantStore with debt := 4 } : Store).choose.inFlight = none := by decide +kernel

/-- A granted read that its client withdraws runs on: nothing else is granted and the store is not idle before its end, and
then the client that waits is served (R69, R70, R77). -/
theorem test_withdrawn_runs_on :
    let st := ({ grantStore with inFlight := some (readOf (.channel 1)), waiting := [readOf .deposit] } : Store).withdraw (.channel 1)
    st.choose = st ∧ st.inFlight = none ∧ st.withdrawn = some (readOf (.channel 1)) ∧
    st.endWithdrawn.choose.inFlight = some (readOf .deposit) ∧
    ({ st with waiting := [] } : Store).idle = false ∧ ({ st.endWithdrawn with waiting := [] } : Store).idle = true := by
  decide +kernel

/-! ## Walks (chapter 5) -/

/-- The region of Table 5-4 with a walk's order and directions. -/
def walkOf (columns xBack yBack : Bool) : Walk := ⟨⟨1, 2, 6, 3⟩, 2, columns, xBack, yBack⟩

/-- The tiles of a walk in an image of a width, in the order visited. -/
def visited (w : Walk) (width : Nat) : List (Option Nat) :=
  (List.range w.lines).flatMap fun l => (List.range w.places).map fun p => w.tileAt width l p

/-- Table 5-4, first walk: ROWS, x BACKWARD, y FORWARD. -/
theorem test_walk_rows : visited (walkOf false true false) 10 = [25, 23, 21, 45, 43, 41].map some := by decide +kernel

/-- Table 5-4, second walk: COLUMNS, x FORWARD, y BACKWARD. -/
theorem test_walk_columns : visited (walkOf true false true) 10 = [41, 21, 43, 23, 45, 25].map some := by decide +kernel

/-! ## Deposits (chapter 2) -/

/-- Deposit 17 of Table 2-3 with an index and an order. -/
def deposit17 : Deposit := { handle := 17, target := .photo 2050, extent := 0, total := 3, next := 1, finishing := false, expires := some 32 }

/-- Table 2-3: index 2 is out of order, and a frame in order with a wrong check word is a check error (R28). -/
theorem test_tile_checks : deposit17.check 2 ⟨[], 0xFFFF⟩ = some .tileOrder ∧ deposit17.check 1 ⟨[], 0⟩ = some .checkError ∧
    deposit17.check 1 ⟨[], 0xFFFF⟩ = none := by decide +kernel

/-- Table 2-3: tile 1 reloads the timer; tile 2, the last, stops it and the slot is FINISHING. -/
theorem test_tile_accepted : deposit17.accept 35 = { deposit17 with next := 2, expires := some 35 } ∧
    (deposit17.accept 35).accept 36 = { deposit17 with next := 3, finishing := true, expires := none } := by decide +kernel

/-! ## The survey and the tone mapping (chapter 7) -/

/-- A tile's figures with a range of 100 or 10, and an edge count. -/
def figuresOf (faint : Bool) (edges : Nat) : TileFigures := ⟨38, if faint then 48 else 138, 120, edges⟩

/-- The 18 tiles of Table 7-4. Tile 12 is damaged. -/
def surveyTiles : List (Option TileFigures) :=
  [some (figuresOf false 212), some (figuresOf true 0), some (figuresOf true 0), some (figuresOf true 0), some (figuresOf true 0),
   some (figuresOf false 97), some (figuresOf false 305), some (figuresOf false 0), some (figuresOf false 0),
   some (figuresOf true 0), some (figuresOf true 0), some (figuresOf true 0), none, some (figuresOf false 188),
   some (figuresOf false 240), some (figuresOf false 156), some (figuresOf true 0), some (figuresOf true 0)]

/-- The job of Table 7-4 at its start: fade run 3, void limit 4. -/
def surveyJob : Job :=
  Job.started 5 (Job.capture { fadeRun := 3, voidLimit := 4 } none (Job.fresh 1 ⟨4410, 3, 0⟩ .auto none))

/-- The survey of the first tiles of a list, in an image 6 tiles wide. -/
def surveyOf (ts : List (Option TileFigures)) : Job := (ts.zipIdx).foldl (fun j t => j.surveyTile 6 t.2 t.1) surveyJob

/-- Table 7-5: the results of the survey. -/
theorem test_survey_results : (surveyOf surveyTiles).surveyed = 18 ∧ (surveyOf surveyTiles).faint = 10 ∧
    (surveyOf surveyTiles).inStatistics = 17 ∧ (surveyOf surveyTiles).defects =
      [⟨.fadedBand, 1, 4⟩, ⟨.voidRun, 1, 4⟩, ⟨.voidRun, 7, 6⟩, ⟨.fadedBand, 9, 3⟩] ∧
    (surveyOf surveyTiles).defectsOverflow = false := by decide +kernel

/-- Table 7-4: the counters after tiles 4, 11 and 17. -/
theorem test_survey_counters :
    (((surveyOf (surveyTiles.take 5)).fadeCounter, (surveyOf (surveyTiles.take 5)).voidCounter) = (4, 0)) ∧
    (((surveyOf (surveyTiles.take 12)).fadeCounter, (surveyOf (surveyTiles.take 12)).voidCounter) = (0, 0)) ∧
    (((surveyOf surveyTiles).fadeCounter, (surveyOf surveyTiles).voidCounter) = (0, 2)) := by decide +kernel

/-- Table 7-6: the mapping with B 38, W 214, S 8. -/
theorem test_tone_mapping :
    [30, 39, 126, 200, 208, 209, 210, 214].map (Tone.map ⟨38, 214, 8⟩) = [0, 1, 128, 235, 246, 255, 255, 255] := by decide +kernel

/-- 7.4: with B 20, W 180 and S 0, 100 gives 128 and 179 gives 253. -/
theorem test_tone_mapping_profile : [100, 179].map (Tone.map ⟨20, 180, 0⟩) = [128, 253] := by decide +kernel

/-! ## Accounts and fees (chapters 8 and 9) -/

/-- A posting to order 77, class 3: rt 1,250, rr 400, c 2,000, a 7,300, s 64, discount 32. -/
def chargeOf (restore repeated : Bool) (count age : Nat) : Charge :=
  { restore, order := 77, item := 1, work := 14, count, rate := if restore then 400 else 1250, creep := 2000
    ageThreshold := 7300, surcharge := 64, discount := 32, age, repeated, unset := false }

/-- Tables 9-3 and 9-4: stages 1 to 4 of the two postings. -/
theorem test_reckon_charged : (chargeOf false false 192 9125).reckon = ⟨240000, 300000, 262500, .charged⟩ ∧
    (chargeOf true false 150 9125).reckon = ⟨60000, 75000, 65625, .charged⟩ := by decide +kernel

/-- Table 9-6: the further postings. -/
theorem test_reckon_further : (chargeOf false false 1 9125).reckon = ⟨1250, 0, 0, .crept⟩ ∧
    (chargeOf false false 2 9125).reckon = ⟨2500, 3125, 2734, .charged⟩ ∧
    (chargeOf false false 2 0).reckon = ⟨2500, 2500, 2187, .charged⟩ ∧
    (chargeOf true false 3 9125).reckon = ⟨1200, 1500, 1312, .charged⟩ ∧
    (chargeOf false true 192 9125).reckon = ⟨240000, 0, 0, .repeated⟩ ∧
    (chargeOf true false 0 9125).reckon = ⟨0, 0, 0, .charged⟩ := by decide +kernel

/-- Account 3310 and order 77 with an owed amount, a status, a timer, an accumulator and units. -/
def bookOf (owed : Nat) (status : AccountStatus) (timer : Option Nat) (accumulator units : Nat) : OrderBook :=
  { accounts := [{ id := 3310, owed, ceiling := 1000, status, timer, orderCount := 1 }]
    orders := [{ id := 77, account := 3310, discount := 32, accumulator, units, items := [] }], lastOrderId := 77 }

/-- The running part with a book. -/
def withBook (b : OrderBook) : State := { State.reset with book := b }

/-- Tables 9-3 and 9-5: the posting leaves accumulator 240, 275 units, 1,163 owed and the account in WATCH with its timer at
60 s, which is 600 steps of 100 ms. -/
theorem test_post_delivery :
    ((withBook (bookOf 900 .active none 740 12)).post cutOffDeliveries (chargeOf false false 192 9125)).book =
      bookOf 1163 .watch (some 300000000) 240 275 := by decide +kernel

/-- Table 9-5: the RESTORE posting leaves 865 grains, 340 units and 728 owed, and the timer as it was. -/
theorem test_post_restore :
    ((withBook (bookOf 663 .reinstating (some 70) 240 275)).post cutOffDeliveries (chargeOf true false 150 9125)).book =
      bookOf 728 .reinstating (some 70) 865 340 := by decide +kernel

/-- Table 9-8: dividing by 300 carries 2 units out of 865 grains and leaves 265. -/
theorem test_resolve : (({ withBook (bookOf 0 .active none 865 0) with
      meter := { State.reset.meter with settings := { MeterSettings.default with divisor := 300 } } } : State).resolve
        cutOffDeliveries).book = bookOf 2 .active none 265 2 := by decide +kernel

/-! ## Notices (chapter 10) -/

/-- The sources of the sales link in Table 10-4 with latches and in-service marks. -/
def salesSources (latched1 latched4 served1 served4 served6 : Bool) : Controller :=
  { sources := [{}, { mask := false, priority := 1, latched := latched1, inService := served1 }, {}, {},
      { mask := false, priority := 5, latched := latched4, inService := served4 }, {},
      { mask := false, priority := 3, inService := served6 }] }

/-- The part with that controller. TARIFF_UNSET holds, since no class is SET. -/
def withSales (c : Controller) : State := { State.reset with sales := { State.reset.sales with notices := c } }

/-- Table 10-4: ATTN after SET_NOTICE, after POLL of 6, after ITEM_READY, and after ACCOUNT_CUT_OFF. -/
theorem test_attn : (withSales (salesSources false false false false false)).attn .sales = true ∧
    (withSales (salesSources false false false false true)).attn .sales = false ∧
    (withSales (salesSources false true false false true)).attn .sales = false ∧
    (withSales (salesSources true true false false true)).attn .sales = true := by decide +kernel

/-- Table 10-4: POLL takes source 6 first, and source 1 before source 4; END_NOTICE not named ends source 1. -/
theorem test_poll_order : (withSales (salesSources false false false false false)).candidate .sales = some 6 ∧
    (withSales (salesSources true true false false true)).candidate .sales = some 1 ∧
    (withSales (salesSources false true true false true)).bestInService .sales = some 1 := by decide +kernel

/-- A cold start puts the store and the production link into the state State.reset gives them (R82, R203). -/
theorem test_reset_is_cold : (State.reset.coldStart .cold false).store = State.reset.store ∧
    (State.reset.coldStart .cold false).production = State.reset.production := by decide +kernel

/-! ## Witnesses: a state and operands that meet the hypotheses of each statement -/

/-- A link that holds nothing takes a request of these fields at once. -/
def free (l : LinkId) (layout : List Layout) (fs : Fields) (s : State) : Bool :=
  s.power = .running && readFields layout (writeFields layout fs) = some fs && (s.link l).queue = [] && (s.link l).held.isNone &&
    (s.link l).replies = []

/-- The link takes the request of a code and fields in the state, which is left as it is but for the answer to come. -/
abbrev Asks (l : LinkId) (code : Nat) (layout : List Layout) (fs : Fields) (s : State) : Prop :=
  Taken l (requestOf 7 code (writeFields layout fs)) layout fs s s

theorem asks {l : LinkId} {code : Nat} {layout : List Layout} {fs : Fields} {s : State} (h : free l layout fs s = true) :
    Asks l code layout fs s := by
  simp only [free, Bool.and_eq_true, decide_eq_true_eq, Option.isNone_iff_eq_none] at h
  obtain ⟨⟨⟨⟨hp, hf⟩, hq⟩, hh⟩, hr⟩ := h
  refine ⟨hp, hf, { s.link l with queue := [requestOf 7 code (writeFields layout fs)] }, ?_, ?_, ?_⟩
  · simp [Link.present, hq, hh]
  · simp [Link.placeFree, hr, replyPlaces]
  · have : ({ s.link l with queue := [requestOf 7 code (writeFields layout fs)] } : Link).take = s.link l := by
      cases hk : s.link l
      rw [hk] at hq hh
      cases hq; cases hh
      rfl
    rw [this]
    cases l <;> rfl

/-- A one-value field. -/
abbrev v (n : Nat) : Option (List Nat) := some [n]

/-! ### A part with holdings -/

/-- A COMPLETE or FILLING revision of one class. -/
def revOf (number w h raw : Nat) (state : FillState) : Revision := { number, state, width := w, height := h, cls := 3, raw, photos := [] }

/-- Page 3 of edition 10: one revision of 2 by 1 tiles with a photograph. -/
def page3 : Page := { number := 3, revs := [{ revOf 0 2 1 0 .complete with photos := [2050] }], lastIssued := 0 }

/-- Editions in every state: 10 and 11 OPEN, 12 CLOSING, 13 CLOSED, 14 RETIRING; photographs 2050 referenced, 2051 free of holds,
2052 FILLING. -/
def shopCat : Catalogue where
  editions :=
    [{ id := 10, issueDay := 100, number := 1, pages := [page3] }, { id := 11, issueDay := 0, number := 8 },
     { id := 12, issueDay := 0, number := 1, state := .closing, filling := 1
       pages := [{ number := 1, revs := [revOf 0 1 1 1 .filling], lastIssued := 0 }] },
     { id := 13, issueDay := 0, number := 1, state := .closed, pages := [{ number := 1, revs := [revOf 0 1 1 5 .complete], lastIssued := 0 }] },
     { id := 14, issueDay := 0, number := 1, state := .retiring, retireReplied := true
       pages := [{ number := 1, revs := [revOf 0 1 1 6 .complete], lastIssued := 0 }] }]
  photos :=
    [{ id := 2050, width := 1, height := 1, cls := 2, extent := 2, state := .complete, refs := [⟨10, 3, 0⟩] },
     { id := 2051, width := 1, height := 1, cls := 2, extent := 3, state := .complete },
     { id := 2052, width := 3, height := 1, cls := 2, extent := 4, state := .filling }]

/-- The extents of those holdings, and two free runs. -/
def shopAlloc : Allocator where
  extents :=
    [⟨0, 0, 2, .raw ⟨10, 3, 0⟩, .live, 0, false⟩, ⟨1, 2, 1, .raw ⟨12, 1, 0⟩, .filling, 0, false⟩, ⟨2, 3, 1, .photo 2050, .live, 0, false⟩,
     ⟨3, 4, 1, .photo 2051, .live, 0, false⟩, ⟨4, 5, 3, .photo 2052, .filling, 0, false⟩, ⟨5, 8, 1, .raw ⟨13, 1, 0⟩, .live, 1, false⟩,
     ⟨6, 10, 1, .raw ⟨14, 1, 0⟩, .live, 1, false⟩]
  runs := [⟨9, 1⟩, ⟨11, 262133⟩]

/-- Deposit 1, of the page of edition 12, whose only tile has been accepted. -/
def shopFinishing : Deposit :=
  { handle := 1, target := .page ⟨12, 1, 0⟩, extent := 1, total := 1, next := 1, finishing := true, expires := none }

/-- Deposit 1 is FINISHING, deposit 17 RECEIVING, deposit 5 has ended. -/
def shopPort : DepositPort where
  slots := ⟨some shopFinishing,
    some { handle := 17, target := .photo 2052, extent := 4, total := 3, next := 1, finishing := false, expires := some 32 }, none, none⟩
  ended := [⟨5, .photo 2051, .done, 1, 1, 0, 0⟩]
  lastHandle := 17

/-- Item 1 of order 77 is READY, item 2 DELIVERED, item 3 IN_DELIVERY. -/
def itemOf (n : Nat) (state : ItemState) : Item :=
  { number := n, target := .page ⟨10, 3, 0⟩, finish := .raw, walk := ⟨⟨0, 0, 2, 1⟩, 1, false, false, false⟩, state }

/-- Account 3310 has the OPEN order 77 and the CLOSED order 80; account 4100 has no order and owes nothing. -/
def shopBook : OrderBook where
  accounts := [{ id := 3310, owed := 900, ceiling := 1000, orderCount := 2 }, { id := 4100, ceiling := 0 }]
  orders :=
    [{ id := 77, account := 3310, discount := 32, accumulator := 740, units := 12
       items := [itemOf 1 .ready, itemOf 2 .delivered, itemOf 3 .inDelivery] },
     { id := 80, account := 3310, discount := 0, state := .closed, units := 5 }]
  lastOrderId := 80

/-- A running part with those holdings. -/
def shop : State := { State.reset with now := 10, cat := shopCat, alloc := shopAlloc, port := shopPort, book := shopBook }

/-- The bounds hold of it. -/
theorem shop_sound : shop.sound := by
  simp only [State.sound, Link.sound]
  decide +kernel

/-! ### Steps and links -/

theorem witness_OnlyPowerCommandsChangePower : shop.sound ∧ (∃ t, exec .refreshDue shop = .next t) ∧
    ∀ a b c d, Instr.refreshDue ≠ .powerUp a b c d := ⟨shop_sound, ⟨_, rfl⟩, by intros; simp⟩

theorem witness_BoundsKept : shop.sound ∧ ∃ t, step shop = .next t := ⟨shop_sound, _, rfl⟩

/-- A read of the copy on channel 0 for a slot that does not exist. -/
def absentRead : State :=
  { shop with
    mover := { shop.mover with channels := shop.mover.channels.set 0 { state := .running, work := some .copy } }
    store := { shop.store with inFlight := some ⟨.channel 0, 262144, .read⟩ } }

theorem witness_OnlyAbsentSlotsFault : exec (.copyReadComplete []) absentRead = .fault .noSuchSlot := rfl

theorem witness_RequestFieldsReadBack :
    fieldsFit [.one, .two, .region, .list, .mask] [v 65535, v 4294967295, none, some [], some [1, 65535]] = true ∧
    readFields [.one, .two] [3, 1, 0, 65535] = some [v 1, v 65535] := by decide +kernel

theorem witness_FramesReadBack : ({ tag := 255, code := 0x10, params := List.replicate 60 9 } : Request).params.length ≤ 60 ∧
    65535 < 65536 ∧ (List.replicate 4096 (255 : Byte)).length = 4096 :=
  ⟨by decide, by decide, List.length_replicate⟩

/-- A part whose desk link has n requests in its queue and m replies in its places. -/
def deskHas (n m : Nat) : State :=
  { shop with desk := { shop.desk with
      queue := List.replicate n { tag := 1, code := 0x74, params := [] }
      replies := List.replicate m { tag := 1, answer := { result := .ok } } } }

/-- A tile that is not damaged: no data, and the check word of no data. -/
def noTile : Tile := ⟨[], 0xFFFF⟩

/-- The part with a frame held at the production receiver and m replies in its places. -/
def holding (held : Option Held) (m : Nat) : State :=
  { shop with production := { shop.production with
      held, replies := List.replicate m { tag := 1, answer := { result := .ok } } } }

/-- FramesArrive: a LINK_RESET frame with each form of parameter words, a tile frame held or none, and places free or not. -/
theorem witness_FramesArrive_reset :
    (∀ ps ∈ [[], [0], [1], [0, 0]], sortFrame .production (Request.words { tag := 7, code := 0x7F, params := ps }) =
      .request { tag := 7, code := 0x7F, params := ps }) ∧
    (∀ held ∈ [none, some (Held.tile 17 1 noTile)], ∀ m ∈ [0, 1, 2], (holding held m).power = .running ∧
      (holding held m).production.held = held ∧ (holding held m).production.replies.length = m) := by decide +kernel

/-- FramesArrive: LINK_RESET, a request at a queue of 3 and of 4, a refused frame with one and with two replies in place. -/
theorem witness_FramesArrive :
    sortFrame .desk [0x9C01, 0x0700, 0x7F] = .request { tag := 7, code := 0x7F, params := [] } ∧
    sortFrame .desk [0x9C01, 0x0700, 0x74] = .request { tag := 7, code := 0x74, params := [] } ∧
    sortFrame .desk [0x9C02] = .refused { tag := 0, answer := { result := .badValue } } ∧
    (∀ n ∈ [3, 4], (deskHas n 0).power = .running ∧ (deskHas n 0).desk.held = none ∧ (deskHas n 0).desk.queue.length = n) ∧
    (∀ m ∈ [1, 2], (deskHas 0 m).power = .running ∧ (deskHas 0 m).desk.held = none ∧ (deskHas 0 m).desk.replies.length = m) ∧
    LinkId.desk ≠ .production ∧ ([] : List Word).length ≠ 2049 ∧ (0x9C05 : Word).toNat ≠ 0x9C01 ∧ (0x9C05 : Word).toNat ≠ 0x9C03 ∧
    60 < (0x073D : Word).toNat % 256 ∧ ([] : List Word).length < (0x0701 : Word).toNat % 256 := by decide +kernel

theorem witness_LinkResetStartsAfresh : ∀ l, shop.power = .running ∧ (shop.link l).held = none ∧
    (holding (some (.tile 17 1 noTile)) 0).production.held = some (.tile 17 1 noTile) := by
  intro l; cases l <;> decide +kernel

/-- LINK_RESET with a wrong count of parameter words resets nothing (R205). -/
theorem test_reset_wrong_words : ∃ t, exec (.requestFrameArrives .desk [0x9C01, 0x0702, 0x7F, 0, 0]) (deskHas 2 0) = .next t ∧
    t.desk.queue = (deskHas 2 0).desk.queue ∧ t.desk.replies = [{ tag := 7, answer := { result := .badValue } }] :=
  ⟨_, rfl, by decide +kernel, by decide +kernel⟩

/-- Delivery 4 of the page, a desk view on channel 1, VARIABLE or FIXED. -/
def viewOf (pacing : Option Pacing) (state : DeliveryState) (channel : Option (Fin 4)) : Delivery :=
  { handle := 4, target := .page ⟨10, 3, 0⟩, rendition := .raw, extent := 0, walk := ⟨⟨0, 0, 2, 1⟩, 1, false, false, false⟩
    imageWidth := 2, pacing, order := none, figures := none, state, channel }

/-- The part with delivery 4 RUNNING on channel 1, its channel as given, with n readers on its extent. -/
def pressed (pacing : Option Pacing) (ch : Channel) (readers : Nat) : State :=
  { shop with
    mover := { shop.mover with channels := shop.mover.channels.set 1 { ch with state := .running, work := some (.delivery 4) } }
    table := { records := [viewOf pacing .running (some 1)], lastHandle := 4 }
    alloc := shopAlloc.modExtent 0 fun e => { e with readers } }

/-- The desk link sends the frame of channel 1. -/
def sendingOne (s : State) : State := { s with desk := { s.desk with sending := some (.channel 1) } }

/-- Channel 1 with its head tile SENDING, so many frames to come, and a FILL frame in place of it or not. -/
def headSending (damaged : Bool) (terminal : Nat) : Channel :=
  { buffer := [⟨.sending, 0, some noTile, damaged⟩], terminal, line := 1 }

/-- A link that is sending a reply. -/
def sendingReply (s : State) (l : LinkId) : State := s.modLink l fun k => { k with sending := some .reply }

/-- FrameSent: a reply sent with nothing, a refusal, a request or a tile frame held, one place or both full, and the tile
buffer empty or full. -/
theorem witness_FrameSent_held : ∀ m ∈ [1, 2], ∀ buffer ∈ [none, some ⟨17, 0, noTile⟩],
    ∀ held ∈ [none, some (Held.refusal { tag := 9, answer := { result := .badValue } }),
      some (.request { tag := 1, code := 0x74, params := [] }), some (.tile 17 1 noTile)],
    let s : State := sendingReply { holding held m with port := { shopPort with buffer } } .production
    s.power = .running ∧ s.production.sending = some .reply ∧ s.production.held = held ∧ s.port.buffer = buffer ∧
    s.production.replies.length = m ∧ s.production.replies.tail.length < 2 := by decide +kernel

/-- A refusal held at the receiver takes the place that a sent reply frees, as the newer reply (R188, R194). -/
theorem test_held_refusal : ∃ t, exec (.frameSent .production)
      (sendingReply (holding (some (.refusal { tag := 9, answer := { result := .badValue } })) 2) .production) = .next t ∧
    t.production.held = none ∧ t.production.replies.map (·.tag) = [1, 9] ∧ t.production.sending = some .reply :=
  ⟨_, rfl, by decide +kernel⟩

/-- A part that sends nothing on the desk link, where channel 2 was served last and these channels offer a tile. -/
def offering (cs : List (Fin 4)) (replies : List Reply) : State :=
  cs.foldl (fun s c => s.modChannel c fun _ => { buffer := [⟨.offered, 0, some noTile, false⟩] })
    { shop with deskTurn := 2, desk := { shop.desk with replies } }

/-- FrameSent: the transmitter with a reply and without, and with no channel, one and three offering after channel 2; a
channel whose head is HELD offers its FILL frame. -/
theorem witness_FrameSent_transmit :
    (∀ c ∈ fourIndices, ((offering [] []).channel c).offers = false) ∧
    (∀ cs ∈ [[0, 1, 2], [0], [2, 0]], (offering cs []).desk.sending = none ∧ (offering cs []).desk.replies = [] ∧
      ((offering cs []).channel 0).offers = true ∧ ((offering cs []).channel 0).buffer = [⟨.offered, 0, some noTile, false⟩] ∧
      ∀ e : Fin 4, (e - (offering cs []).deskTurn - 1).val < ((0 : Fin 4) - (offering cs []).deskTurn - 1).val →
        ((offering cs []).channel e).offers = false) ∧
    (offering [0] [{ tag := 1, answer := { result := .ok } }]).desk.replies ≠ [] ∧
    ({ buffer := [⟨.held, 0, some noTile, false⟩], periodFrame := some ⟨some 0, true⟩ } : Channel).offers = true ∧
    (⟨.held, 0, some noTile, false⟩ : Place).state ≠ .offered := by decide +kernel

/-- R194: after channel 2 the pointer finds channel 0 before 1 and 2, and a reply goes before all of them. -/
theorem test_desk_turn :
    let t := (offering [0, 1, 2] []).transmit .desk
    t.desk.sending = some (.channel 0) ∧ t.deskTurn = 0 ∧ (t.channel 0).buffer = [⟨.sending, 0, some noTile, false⟩] ∧
    ((offering [0, 1, 2] [{ tag := 1, answer := { result := .ok } }]).transmit .desk).desk.sending = some .reply := by
  decide +kernel

theorem witness_FrameSent :
    (∀ n ∈ [1, 2], let s := { deskHas 0 n with desk := { (deskHas 0 n).desk with sending := some .reply } }
      s.power = .running ∧ s.desk.sending = some .reply ∧ s.desk.held = none) ∧
    (∀ damaged ∈ [true, false], ∀ line ∈ [0, 1], ∀ rest ∈ [[], [⟨.held, 1, some noTile, false⟩]],
      let ch : Channel := { headSending damaged 2 with buffer := ⟨.sending, 0, some noTile, damaged⟩ :: rest, line, place := 1 }
      let s := sendingOne (pressed none ch 1)
      s.power = .running ∧ s.desk.sending = some (.channel 1) ∧ (s.channel 1).work = some (.delivery 4) ∧
      s.table.find 4 = some (viewOf none .running (some 1)) ∧ (s.channel 1).state = .running ∧ (s.channel 1).sendingFill = none ∧
      (s.channel 1).buffer = ⟨.sending, 0, some noTile, damaged⟩ :: rest ∧ 2 ≤ (s.channel 1).terminal ∧
      s.alloc.find 0 = some ⟨0, 0, 2, .raw ⟨10, 3, 0⟩, .live, 1, false⟩ ∧ s.store.outstanding (.channel 1) = false ∧
      (viewOf none .running (some 1)).walk.tileAt 2 line 1 = if line = 0 then some 1 else none) ∧
    (∀ frame ∈ [none, some ⟨some 1, false⟩],
      let s := sendingOne (pressed (some ⟨20, 4⟩) { sendingFill := some 0, terminal := 1, periodFrame := frame } 1)
      s.power = .running ∧ s.desk.sending = some (.channel 1) ∧ (s.channel 1).work = some (.delivery 4) ∧
      s.table.find 4 = some (viewOf (some ⟨20, 4⟩) .running (some 1)) ∧ (s.channel 1).state = .running ∧
      (s.channel 1).sendingFill = some 0 ∧ 1 ≤ (s.channel 1).terminal ∧ (s.channel 1).periodFrame = frame ∧
      s.alloc.find 0 = some ⟨0, 0, 2, .raw ⟨10, 3, 0⟩, .live, 1, false⟩) := by decide +kernel

/-- Delivery 4 for item 3 of order 77, first delivered or a repeat, with an end cause when it is STOPPING. -/
def saleOf (state : DeliveryState) (cause : Option EndCause) (repeated : Bool) : Delivery :=
  { viewOf none state (some 1) with order := some (77, 3), figures := some ⟨1250, 2000, 50, 64, 32, 9125, repeated⟩, cause }

/-- Account 3310 without a ceiling, with order 77 in a state and one delivery of it in flight. -/
def saleBook (state : OrderState) : OrderBook where
  accounts := [{ id := 3310, owed := 900, ceiling := 0, orderCount := 1 }]
  orders := [{ id := 77, account := 3310, discount := 32, state, accumulator := 740, units := 12, inFlight := 1
               items := [itemOf 3 .inDelivery] }]
  lastOrderId := 80

/-- The desk link sends the head of delivery d on channel 1, which has so many frames to come. -/
def ending (d : Delivery) (state : ChannelState) (terminal : Nat) (order : OrderState) : State :=
  let s := sendingOne (pressed none (headSending false terminal) 2)
  let ch := { headSending false terminal with state, work := some (.delivery 4) }
  { s with
    mover := { s.mover with channels := s.mover.channels.set 1 ch }
    table := { records := [d], lastHandle := 4 }, book := saleBook order }

/-- The same with a FILL frame in place of the head. -/
def endingFill (d : Delivery) (terminal : Nat) (order : OrderState) : State :=
  let s := ending d .stopping terminal order
  let ch : Channel := { state := .stopping, work := some (.delivery 4), sendingFill := some 0, terminal }
  { s with mover := { s.mover with channels := s.mover.channels.set 1 ch } }

/-- LastFrameSent: a desk view and a fulfilment delivery, first or repeated, of an OPEN and of a CLOSING order, at each end. -/
theorem witness_LastFrameSent :
    (∀ q ∈ [(DeliveryState.running, ChannelState.running, none, 1), (.stopping, .stopping, some .linkLate, 2),
        (.stopping, .stopping, some .requested, 1), (.stopping, .stopping, some .requested, 2)],
      ∀ order ∈ [OrderState.opened, .closing],
      ∀ d ∈ [{ viewOf none q.1 (some 1) with cause := q.2.2.1 }, saleOf q.1 q.2.2.1 false, saleOf q.1 q.2.2.1 true],
      let s := ending d q.2.1 q.2.2.2 order
      s.power = .running ∧ s.desk.sending = some (.channel 1) ∧ (s.channel 1).work = some (.delivery d.handle) ∧
      s.table.find d.handle = some d ∧ (s.channel 1).sendingFill = none ∧
      (s.channel 1).buffer = [⟨.sending, 0, some noTile, false⟩] ∧ d.handle ∉ s.mover.queue ∧
      s.alloc.find d.extent = some ⟨0, 0, 2, .raw ⟨10, 3, 0⟩, .live, 2, false⟩ ∧ s.desk.notices.sources.length = 4 ∧
      (d.order = none ∨ d.order = some (77, 3) ∧ d.figures.isSome = true) ∧ (s.book.order 77).isSome = true ∧
      ((s.book.order 77).bind (·.item 3)) = some (itemOf 3 .inDelivery) ∧
      s.book.account 3310 = some { id := 3310, owed := 900, ceiling := 0, orderCount := 1 }) ∧
    (∀ d order, ((ending d .running 1 order).channel 1).Sends d { d with sent := d.sent + 1 } 0 ∧
      ((ending d .running 1 order).channel 1).Ends d 0 .done .completed) ∧
    (∀ d order, d.cause = some .linkLate → ((ending d .stopping 2 order).channel 1).Sends d { d with sent := d.sent + 1 } 1 ∧
      ((ending d .stopping 2 order).channel 1).Ends d 1 .failed .linkLate) ∧
    (∀ d order, d.cause = some .requested → ((ending d .stopping 1 order).channel 1).Ends d 0 .done .completed ∧
      ((ending d .stopping 2 order).channel 1).Ends d 1 .stopped .requested) := by
  refine ⟨by decide +kernel, ?_, ?_, ?_⟩
  · exact fun _ _ => ⟨.inl ⟨rfl, rfl, _, _, rfl, rfl, rfl⟩, .inl ⟨rfl, rfl, rfl, rfl⟩⟩
  · exact fun _ _ h => ⟨.inl ⟨rfl, rfl, _, _, rfl, rfl, rfl⟩, .inr (.inl ⟨rfl, h, rfl, rfl⟩)⟩
  · intro d order h
    refine ⟨.inr (.inr (.inl ⟨rfl, ?_, rfl, rfl, rfl⟩)), .inr (.inr (.inr ⟨rfl, h, by decide, Nat.le_refl 1, rfl⟩))⟩
    rw [h]; decide

/-- LastFrameSent: a FILL frame of a STOPPING delivery, which fails, and which is stopped with a tile left and with none. -/
theorem witness_LastFrameSent_fill :
    (∀ cause ∈ [EndCause.linkLate, .requested, .cutOff], ∀ terminal ∈ [0, 2], ∀ order ∈ [OrderState.opened, .closing],
      ∀ d ∈ [{ viewOf none .stopping (some 1) with cause := some cause }, saleOf .stopping (some cause) false],
      let s := endingFill d terminal order
      s.power = .running ∧ s.desk.sending = some (.channel 1) ∧ (s.channel 1).work = some (.delivery d.handle) ∧
      s.table.find d.handle = some d ∧ d.handle ∉ s.mover.queue ∧ s.book = saleBook order ∧
      s.alloc.find d.extent = some ⟨0, 0, 2, .raw ⟨10, 3, 0⟩, .live, 2, false⟩ ∧ s.desk.notices.sources.length = 4) ∧
    ∀ d terminal order, ((endingFill d terminal order).channel 1).Sends d { d with fills := min (d.fills + 1) 65535 } terminal ∧
      (d.cause = some .linkLate → ((endingFill d terminal order).channel 1).Ends d terminal .failed .linkLate) ∧
      (∀ cause, d.cause = some cause → cause ≠ .linkLate → 1 ≤ terminal →
        ((endingFill d terminal order).channel 1).Ends d terminal .stopped cause) :=
  ⟨by decide +kernel, fun _ _ _ => ⟨.inr ⟨⟨0, rfl⟩, rfl, rfl⟩, fun h => .inr (.inl ⟨rfl, h, rfl, rfl⟩),
    fun _ h n t => .inr (.inr (.inr ⟨rfl, h, n, t, rfl⟩))⟩⟩

/-- A FILL frame that ends a STOPPING sale counts itself and no tile, posts nothing sent and leaves the item READY (R94, R112,
R115). -/
theorem test_fill_ends : ∃ t, exec (.frameSent .desk) (endingFill (saleOf .stopping (some .linkLate) false) 2 .closing) = .next t ∧
    t.book.item 77 3 = some (itemOf 3 .ready) ∧ ((t.book.order 77).map (·.state)) = some .closed ∧
    (t.table.find 4).map (fun d => (d.state, d.cause, d.sent, d.fills)) = some (.failed, some .linkLate, 0, 1) :=
  ⟨_, rfl, by decide +kernel, by decide +kernel, by decide +kernel⟩

/-- An evaluation that leaves an account without a ceiling, one that falls out of WATCH, and ones that no row of Table 8-3
moves, at the ceiling and next to it. -/
theorem witness_EvaluatesTo :
    (∀ status ∈ [AccountStatus.active, .watch], Account.EvaluatesTo { id := 3310, owed := 900, ceiling := 0, status } 163
      { id := 3310, owed := 163, ceiling := 0 }) ∧
    Account.EvaluatesTo { id := 3310, owed := 1163, ceiling := 1000, status := .watch, timer := some 70 } 999
      { id := 3310, owed := 999, ceiling := 1000 } ∧
    (∀ status ∈ [AccountStatus.active, .reinstating], Account.EvaluatesTo { id := 3310, owed := 900, ceiling := 1000, status } 999
      { id := 3310, owed := 999, ceiling := 1000, status }) ∧
    (∀ status ∈ [AccountStatus.watch, .cutOff], Account.EvaluatesTo { id := 3310, owed := 1163, ceiling := 1000, status } 1000
      { id := 3310, owed := 1000, ceiling := 1000, status }) := by
  unfold Account.EvaluatesTo
  decide +kernel

/-- A posting on an account that owes 900 units and has no ceiling, whether it changes the owed units or not. -/
theorem charge_without_ceiling (owed : Nat) : Account.AfterPosting { id := 3310, owed := 900, ceiling := 0, orderCount := 1 } owed
    { id := 3310, owed, ceiling := 0, orderCount := 1 } :=
  if h : owed = 900 then .inl ⟨h, by rw [h]⟩ else .inr ⟨h, .inl ⟨.inl ⟨rfl, .inl rfl⟩, rfl⟩⟩

/-- Postings, Correction and the ends of deliveries: a posting of 0 units on an ACTIVE account of ceiling 0 with a timer and on
WATCH accounts of ceiling 0 and below their ceiling, and one that changes the owed units, at the ceiling. -/
theorem witness_AfterPosting :
    (∀ a ∈ [({ id := 3310, owed := 900, ceiling := 0, timer := some 70 } : Account),
        { id := 3310, owed := 900, ceiling := 0, status := .watch }, { id := 3310, owed := 900, ceiling := 1000, status := .watch }],
      a.AfterPosting a.owed a) ∧
    Account.AfterPosting { id := 3310, owed := 1163, ceiling := 1000, status := .watch, timer := some 70 } 1164
      { id := 3310, owed := 1164, ceiling := 1000, status := .watch, timer := some 70 } := by
  unfold Account.AfterPosting Account.EvaluatesTo
  decide +kernel

/-- A posting of 0 units leaves a WATCH account below its ceiling as it is (R183). -/
theorem test_zero_posting :
    ((withBook (bookOf 900 .watch (some 70) 740 12)).post cutOffDeliveries (chargeOf false true 192 9125)).book =
      bookOf 900 .watch (some 70) 740 12 := by decide +kernel

/-- LastFrameSent, StopDelivery and FixedPeriodBegins: the sales of `ending` charge an account without a ceiling. -/
theorem witness_ChargesQuietly (state : DeliveryState) (cause : Option EndCause) (repeated : Bool) (s : State) (order : OrderState)
    (h : s.book = saleBook order) (n : Nat) : s.ChargesQuietly (saleOf state cause repeated) n :=
  .inr ⟨77, 3, _, _, _, _, _, rfl, rfl, by rw [h]; rfl, rfl, by rw [h]; rfl, charge_without_ceiling _⟩

/-- LastFrameSent and RetireEdition: one reader and two of a LIVE extent of OPEN edition 10, the last reader of a MOVING one
of CLOSED edition 13, of a photograph's, and of a MOVING one of RETIRING edition 14 whose release waits. -/
theorem witness_OnlyCounts :
    (∀ n ∈ [1, 2], (∀ d state terminal order, ({ ending d state terminal order with
        alloc := shopAlloc.modExtent 0 fun e => { e with readers := n } } : State).alloc.find 0 =
          some ⟨0, 0, 2, .raw ⟨10, 3, 0⟩, .live, n, false⟩) ∧ shop.OnlyCounts ⟨0, 0, 2, .raw ⟨10, 3, 0⟩, .live, n, false⟩) ∧
    (∀ d state terminal order, (ending d state terminal order).cat = shop.cat) ∧
    shop.OnlyCounts ⟨5, 8, 1, .raw ⟨13, 1, 0⟩, .moving, 1, false⟩ ∧ shop.OnlyCounts ⟨2, 3, 1, .photo 2050, .live, 1, false⟩ ∧
    shop.OnlyCounts ⟨6, 10, 1, .raw ⟨14, 1, 0⟩, .moving, 1, true⟩ := by
  have h : ∀ id ∈ [10, 13], ∀ x ∈ shop.cat.edition id, x.state ≠ .retiring := by decide +kernel
  refine ⟨?_, fun _ _ _ _ => rfl, .inr ⟨rfl, .inr ⟨rfl, ?_⟩⟩, .inr ⟨rfl, .inr ⟨rfl, ?_⟩⟩, .inr ⟨rfl, .inl ⟨rfl, rfl⟩⟩⟩
  · intro n hn
    simp only [List.mem_cons, List.not_mem_nil, or_false] at hn
    rcases hn with rfl | rfl
    · refine ⟨fun _ _ _ _ => rfl, .inr ⟨rfl, .inr ⟨rfl, ?_⟩⟩⟩
      rintro ed x he hx; cases he
      exact h 10 (by decide) x hx
    · exact ⟨fun _ _ _ _ => rfl, .inl (Nat.le_refl 2)⟩
  · rintro ed x he hx; cases he
    exact h 13 (by decide) x hx
  · rintro ed x he hx; cases he

/-- The last frame of item 3 ends its delivery DONE, and the CLOSING order is CLOSED (R115, R166). -/
theorem test_sale_ends : ∃ t, exec (.frameSent .desk) (ending (saleOf .running none false) .running 1 .closing) = .next t ∧
    t.book.item 77 3 = some (itemOf 3 .delivered) ∧ ((t.book.order 77).map (·.state)) = some .closed ∧
    (t.table.find 4).map (·.sent) = some 1 := ⟨_, rfl, by decide +kernel, by decide +kernel, by decide +kernel⟩

/-! ### Notices -/

/-- The sales link with sources 1 and 4 pending and unmasked and source 6 in service, as in Table 10-4. -/
def noticing : State := { shop with sales := { shop.sales with notices := salesSources true true false false true } }

/-- The desk link with source 0 pending and unmasked at priority 7, and source 1 in service or not. -/
def raising (served : Bool) (floor : Nat) : State :=
  { shop with desk := { shop.desk with notices := ⟨[{ mask := false, latched := true }, { inService := served }, {}, {}], floor⟩ } }

theorem witness_AttnLine :
    (∀ (m : Nat) (other : Source), ((raising false 8).link .desk).notices.sources[m]? = some other → other.inService = false) ∧
    ((raising false 8).link .desk).notices.floor = 8 ∧
    ((raising false 8).link .desk).notices.sources[0]? = some { mask := false, latched := true } ∧
    (raising false 8).pendingMark .desk 0 { mask := false, latched := true } = true ∧
    ((raising false 0).link .desk).notices.floor = 0 ∧
    ((noticing.link .sales).notices.sources[6]? = some { mask := false, priority := 3, inService := true } ∧
      noticing.attn .sales = true) := by
  refine ⟨?_, rfl, rfl, by decide +kernel, rfl, by decide +kernel⟩
  intro m other h
  have : ∀ x ∈ ((raising false 8).link .desk).notices.sources, x.inService = false := by decide +kernel
  exact this other (List.mem_of_getElem? h)

theorem witness_PendingMarks : ∀ n : Notice, (shop.link n.link).notices.sources[n.number]? = some {} := by
  intro n; cases n <;> rfl

theorem witness_PollTakesBestSource :
    Asks .sales 0x74 [] [] noticing ∧
    ((noticing.link .sales).notices.sources[1]? = some { mask := false, priority := 1, latched := true } ∧
      noticing.pendingMark .sales 1 { mask := false, priority := 1, latched := true } = true) ∧
    Asks .sales 0x74 [] [] shop ∧
    (∀ (n : Nat) (src : Source), (shop.link .sales).notices.sources[n]? = some src → src.mask = false → src.inService = true) := by
  refine ⟨asks (by decide +kernel), by decide +kernel, asks (by decide +kernel), ?_⟩
  intro n src h hm
  have : ∀ x ∈ (shop.link .sales).notices.sources, x.mask = true := by decide +kernel
  rw [this src (List.mem_of_getElem? h)] at hm
  cases hm

theorem witness_EndNotice :
    Asks .sales 0x76 [.one] [v 6] noticing ∧ (noticing.link .sales).notices.sources[6]? =
      some { mask := false, priority := 3, inService := true } ∧ 6 < sourceCount .sales ∧
    Asks .sales 0x76 [.one] [none] noticing ∧
    Asks .sales 0x76 [.one] [none] shop ∧ (∀ src ∈ (shop.link .sales).notices.sources, src.inService = false) :=
  ⟨asks (by decide +kernel), by decide +kernel, by decide, asks (by decide +kernel), asks (by decide +kernel), by decide +kernel⟩

/-- SET_NOTICE of Table 10-4 with the boundary values 0 and 7 of a priority and 8 of the floor. -/
def noticeFields : Fields := [v 0, v 1, none, none, v 5, v 7, v 3, none, some [127, 127], v 8]

theorem witness_SetNotice :
    Asks .sales 0x77 [.one, .one, .one, .one, .one, .one, .one, .one, .mask, .one] noticeFields shop ∧
    (∀ n, n < 8 → sourceCount .sales ≤ n → noticeFields.nat n = none) ∧
    (∀ x ∈ (noticeFields.values 8).getD [], x < 2 ^ sourceCount .sales) ∧
    (∀ n < 8, ∀ p ∈ noticeFields.nat n, p ≤ 7) ∧ (∀ f ∈ noticeFields.nat 9, f ≤ 8) :=
  ⟨asks (by decide +kernel), by decide +kernel, by decide +kernel, by decide +kernel, by decide +kernel⟩

/-! ### Requests that query -/

/-- The part whose SIZE strap has moved at moment 5 and moves again at moment 11. -/
def strapMoved : State := { shop with sizeMoves := [(5, true), (11, false)] }

/-- A request at the head of its queue with two, with one and with no reply in place, in states that keep their bounds, and a
code that Table 11-4 does not list. -/
theorem witness_RequestsAnsweredOnce : shop.sound ∧
    requestOfCommand (.poll .desk 1 []) = some (.desk, { tag := 1, code := 0x74, params := [] }) ∧
    (∀ m ∈ [0, 1, 2], (deskHas 3 m).power = .running ∧
      ((deskHas 3 m).link .desk).present { tag := 1, code := 0x74, params := [] } = some (deskHas 3 m).desk ∧
      (deskHas 3 m).desk.replies.length = m) ∧
    (homeOfCommand (.credit .desk 1 [])).allows .desk = false ∧
    (∀ ps ∈ [[2, 9], [1], [1, 9, 9]], (homeOfCommand (.stopDelivery .desk 1 ps)).allows .desk = true ∧
      readFields (layoutOfCommand (.stopDelivery .desk 1 ps)) ps = none) ∧
    (∀ r : Request, ∃ k : Link, k.held = some (.request r)) ∧ (0x78 : Word).toNat ∉ requestCodes ∧
    ((shop.link .desk).present { tag := 1, code := 0x78, params := [] }).isSome := by
  refine ⟨shop_sound, by decide +kernel, by decide +kernel, by decide +kernel, by decide +kernel,
    fun r => ⟨{ shop.desk with held := some (.request r) }, rfl⟩, by decide +kernel, by decide +kernel⟩

/-- STOP_DELIVERY whose presence word names a second field is BAD_VALUE, and a request held at a full queue takes the place
that it frees (R189, R205). -/
theorem test_unread_words :
    let held : Request := { tag := 5, code := 0x75, params := [] }
    let s : State := { shop with desk := { shop.desk with
      queue := requestOf 7 0x32 [2, 9] :: List.replicate 3 { tag := 1, code := 0x74, params := [] }, held := some (.request held) } }
    ∃ t, exec (.stopDelivery .desk 7 [2, 9]) s = .next t ∧ t.desk.held = none ∧ t.desk.queue.getLast? = some held ∧
      t.desk.queue.length = 4 ∧ t.desk.replies = [{ tag := 7, answer := { result := .badValue } }] :=
  ⟨_, rfl, by decide +kernel⟩

theorem witness_CatalogueQueries :
    Asks .desk 0x70 [.one, .one] [v 10, v 0] shop ∧ (shop.cat.edition 10).isSome ∧
    Asks .desk 0x70 [.one, .one] [v 0, v 1] shop ∧ ((shop.cat.editions.filter fun x => 0 < x.id).head?).isSome ∧
    Asks .desk 0x71 [.one, .one, .one] [v 10, v 3, none] shop ∧ ((shop.cat.edition 10).bind (·.page 3)) = some page3 ∧
    Asks .desk 0x71 [.one, .one, .one] [v 10, v 3, v 0] shop ∧ (page3.rev 0).isSome ∧
    Asks .desk 0x72 [.one, .one] [v 2052, v 0] shop ∧ (shop.cat.photo 2052).isSome ∧
    Asks .desk 0x72 [.one, .one] [v 2051, v 1] shop ∧ ((shop.cat.photos.filter fun x => 2051 < x.id).head?).isSome ∧
    Asks .production 0x73 [] [] shop ∧ Asks .sales 0x75 [] [] noticing ∧ noticing.candidate .sales = some 1 ∧
    Asks .sales 0x75 [] [] shop ∧ shop.candidate .sales = none ∧ Asks .production 0x73 [] [] strapMoved ∧
    strapMoved.sizeMoves = [] ++ (5, true) :: [(11, false)] ∧ 5 ≤ strapMoved.now ∧ (∀ x ∈ [(11, false)], strapMoved.now < x.1) ∧
    (∀ m ∈ shop.sizeMoves, shop.now < m.1) :=
  ⟨asks (by decide +kernel), by decide +kernel, asks (by decide +kernel), by decide +kernel, asks (by decide +kernel),
   by decide +kernel, asks (by decide +kernel), by decide +kernel, asks (by decide +kernel), by decide +kernel,
   asks (by decide +kernel), by decide +kernel, asks (by decide +kernel), asks (by decide +kernel), by decide +kernel,
   asks (by decide +kernel), by decide +kernel, asks (by decide +kernel), by decide +kernel, by decide +kernel,
   by decide +kernel, by decide +kernel⟩

/-- STORE_INFO reports the SIZE strap as now read, and SIZE_MISMATCH; a start at moment 10 leaves the move still to come
(R66, R81). -/
theorem test_size_as_now_read :
    shop.storeFields.take 3 = [.two 262144, .mark false, .mark false] ∧
    strapMoved.storeFields.take 3 = [.two 262144, .mark true, .mark true] ∧
    ({ strapMoved with now := 11 } : State).storeFields.take 3 = [.two 262144, .mark false, .mark false] ∧
    (strapMoved.warmStart .warmReset false).sizeMoves = [(11, false)] := by decide +kernel

/-- The part with one entry in its posting log. -/
def logged : State := { shop with meter := { shop.meter with log := [.credit 77 1 1 1 false false] } }

theorem witness_LedgerQueries :
    Asks .sales 0x54 [.one, .one] [v 3310, v 0] shop ∧ (shop.book.account 3310).isSome ∧
    Asks .sales 0x54 [.one, .one] [v 3310, v 1] shop ∧ ((shop.book.accounts.filter fun x => 3310 < x.id).head?).isSome ∧
    Asks .sales 0x59 [.one, .one, .one] [v 77, v 0, none] shop ∧ (shop.book.order 77).isSome ∧
    Asks .sales 0x59 [.one, .one, .one] [v 77, v 1, none] shop ∧ ((shop.book.orders.filter fun x => 77 < x.id).head?).isSome ∧
    Asks .sales 0x59 [.one, .one, .one] [v 77, v 0, v 3] shop ∧ ((shop.book.order 77).bind (·.item 3)) = some (itemOf 3 .inDelivery) ∧
    Asks .desk 0x3A [.one] [v 31] shop ∧ shop.engine.profiles[31]?.isSome ∧
    Asks .sales 0x5C [.one] [v 15] shop ∧ shop.meter.tariffs[15]?.isSome ∧
    Asks .sales 0x60 [.one] [none] logged ∧ Asks .sales 0x60 [.one] [v 0] logged ∧ logged.meter.log[0]?.isSome :=
  ⟨asks (by decide +kernel), by decide +kernel, asks (by decide +kernel), by decide +kernel, asks (by decide +kernel),
   by decide +kernel, asks (by decide +kernel), by decide +kernel, asks (by decide +kernel), by decide +kernel,
   asks (by decide +kernel), by decide +kernel, asks (by decide +kernel), by decide +kernel, asks (by decide +kernel),
   asks (by decide +kernel), by decide +kernel⟩

/-- An active job of the page for the desk, in a state. -/
def jobOf (state : JobState) : Job :=
  { Job.fresh 1 ⟨10, 3, 0⟩ .auto none with state, scratch := some 7, tone := some ⟨0, 255, 8⟩, settings := { fadeRun := 3, voidLimit := 4 } }

/-- A part with jobs in its queue. -/
def withJobs (js : List Job) (s : State) : State := { s with engine := { s.engine with queue := js, lastId := 1 } }

/-- The part with delivery 4 in a state, and with a queued and an ended job. -/
def reported (state : DeliveryState) : State :=
  { shop with
    table := { records := [viewOf none state none], lastHandle := 4 }
    engine := { shop.engine with queue := [jobOf .surveying], ended := [{ jobOf .done with id := 2 }], lastId := 2 } }

theorem witness_StatusReadsRecords :
    Asks .production 0x18 [.one] [v 17] shop ∧ (shop.port.find 17).isSome ∧
    Asks .production 0x18 [.one] [v 5] shop ∧ shop.port.find 5 = none ∧ (shop.port.ended.find? (fun x => x.handle = 5)).isSome ∧
    Asks .desk 0x33 [.one] [v 4] (reported .waiting) ∧ (reported .waiting).table.find 4 = some (viewOf none .waiting none) ∧
    Asks .desk 0x33 [.one] [v 4] (reported .done) ∧ (reported .done).table.find 4 = some (viewOf none .done none) ∧
    Asks .desk 0x37 [.one] [v 1] (reported .done) ∧ (reported .done).engine.find 1 = some (jobOf .surveying) ∧
    Asks .desk 0x37 [.one] [v 2] (reported .done) ∧ (reported .done).engine.find 2 = none ∧
    ((reported .done).engine.ended.find? (fun x => x.id = 2)).isSome :=
  ⟨asks (by decide +kernel), by decide +kernel, asks (by decide +kernel), by decide +kernel, by decide +kernel,
   asks (by decide +kernel), by decide +kernel, asks (by decide +kernel), by decide +kernel, asks (by decide +kernel),
   by decide +kernel, asks (by decide +kernel), by decide +kernel, by decide +kernel⟩

/-! ### Power and RESET -/

/-- The part without power, or held in RESET, with a good or a spoilt store header. -/
def powered (p : Power) (good : Bool) : State :=
  { shop with power := p, store := { shop.store with header := if good then shop.store.header else shop.store.header.spoilt } }

/-- ColdStart: one start for each of its four causes, and the three commands it says complete. -/
theorem witness_ColdStart :
    ((powered .off true).power = .off ∧ ∃ t, exec (.powerUp false true false false) (powered .off true) = .next t) ∧
    ((powered .off false).store.header.isGood = false ∧
      ∃ t, exec (.powerUp true false false false) (powered .off false) = .next t) ∧
    (∃ t, exec (.powerUp true false false true) (powered .off true) = .next t) ∧
    ((powered (.inReset true) true).standbyOk = false ∧
      ∃ t, exec (.resetRelease false true) (powered (.inReset true) true) = .next t) ∧
    (∃ t, exec (.resetRelease false false) (powered (.inReset false) false) = .next t) :=
  ⟨⟨rfl, _, rfl⟩, ⟨by decide +kernel, _, rfl⟩, ⟨_, rfl⟩, ⟨rfl, _, rfl⟩, ⟨_, rfl⟩⟩

theorem shop_distinct : shop.cat.distinct := by
  simp only [Catalogue.distinct]
  decide +kernel

theorem witness_WarmStart : (shop.cat.distinct ∧ (shop.cat.edition 12).isSome = true ∧
      shop.cat.revision ⟨10, 3, 0⟩ = some { revOf 0 2 1 0 .complete with photos := [2050] } ∧
      ((shop.cat.photo 2050).map (·.refs)) = some [⟨10, 3, 0⟩] ∧ ((shop.cat.edition 10).map (·.state)) = some .opened) ∧
    (powered .off true).store.header.isGood = true ∧ (powered .off true).power = .off ∧
    (powered (.inReset true) true).power = .inReset true ∧
    ({ powered (.inReset true) true with standbyOk := true } : State).standbyOk = true ∧
    (powered (.inReset false) true).power = .inReset false ∧ shop.meter.settings.isGood = true :=
  ⟨⟨shop_distinct, by decide +kernel⟩, by decide +kernel⟩

/-- A warm start keeps the page of an OPEN edition, drops a RETIRING edition and closes a CLOSING one (R22). -/
theorem test_warm_start : ∃ t, exec (.powerUp true false false false) (powered .off true) = .next t ∧
    t.cat.revision ⟨10, 3, 0⟩ = shop.cat.revision ⟨10, 3, 0⟩ ∧ t.cat.edition 14 = none ∧
    ((t.cat.edition 12).map fun e => (e.state, e.pages)) = some (.closed, []) := by
  refine ⟨_, rfl, ?_⟩
  decide +kernel

theorem witness_ResetAssertAndPowerLoss : shop.power = .running ∧ (powered (.inReset false) true).power ≠ .off ∧
    requestOfCommand (.poll .desk 1 []) = some (.desk, requestOf 1 0x74 []) := by decide +kernel

/-! ### Editions, photographs and deposits -/

theorem witness_OpenAndCloseEdition :
    Asks .production 0x10 [.one, .one, .one] [v 65535, v 0, v 8] shop ∧ shop.cat.edition 65535 = none ∧
    shop.cat.editions.length < 1024 ∧
    (∀ id ∈ [10, 11, 12, 13, 14], free .production [.one] [v id] shop = true ∧ (shop.cat.edition id).isSome = true) ∧
    ((shop.cat.edition 10).map (·.state)) = some .opened ∧ ((shop.cat.edition 10).map (·.pages)) = some [page3] ∧
    ((shop.cat.edition 11).map (·.pages)) = some [] ∧ ((shop.cat.edition 12).map (·.state)) = some .closing ∧
    ((shop.cat.edition 13).map (·.state)) = some .closed ∧ ((shop.cat.edition 14).map (·.state)) = some .retiring :=
  ⟨asks (by decide +kernel), by decide +kernel, by decide +kernel, by decide +kernel, by decide +kernel, by decide +kernel,
   by decide +kernel, by decide +kernel, by decide +kernel, by decide +kernel⟩

/-- RetireEdition: the end of the last reader of RETIRING edition 14, on its LIVE or MOVING extent, and of one reader of two;
and an edition with an open deposit, with QUEUED jobs and with an active job. -/
theorem witness_RetireEdition_more :
    (∀ q ∈ [(ExtentState.live, 1), (.moving, 1), (.live, 2)],
      let a := shopAlloc.modExtent 6 fun e => { e with state := q.1, readers := q.2 }
      a.find 6 = some ⟨6, 10, 1, .raw ⟨14, 1, 0⟩, q.1, q.2, false⟩) ∧
    shop.cat.distinct ∧ (Owner.raw ⟨14, 1, 0⟩).edition = some 14 ∧
    (∀ e ∈ shop.cat.edition 14, e.state = .retiring ∧ e.retireReplied = true ∧ ∀ m ∈ e.extents, m = 6) ∧
    Asks .production 0x15 [.one] [v 12] shop ∧ (shop.port.slots.get 0).map (·.target) = some (.page ⟨12, 1, 0⟩) ∧
    (shop.port.occupants.map (·.handle)).Nodup ∧
    (∀ e ∈ shop.cat.edition 12, e.state ≠ .retiring ∧ e.retireReplied = false ∧ ∀ p ∈ e.pages, ∀ x ∈ p.revs, x.pins = 0) ∧
    (∀ state ∈ [JobState.queued, .surveying, .correcting], Asks .production 0x15 [.one] [v 10] (withJobs [jobOf state] shop) ∧
      (jobOf state).revision.edition = 10 ∧ ((withJobs [jobOf state] shop).engine.queue.map (·.id)).Nodup ∧
      (state = .queued ∨ (jobOf state).active = true)) := by
  refine ⟨by decide +kernel, shop_distinct, rfl, by decide +kernel, asks (by decide +kernel), by decide +kernel, by decide +kernel,
    by decide +kernel, ?_⟩
  intro state h
  simp only [List.mem_cons, List.not_mem_nil, or_false] at h
  rcases h with rfl | rfl | rfl <;> exact ⟨asks (by decide +kernel), rfl, by decide +kernel, by decide +kernel⟩

/-- The end of the last reader of RETIRING edition 14 completes its retirement (R44). -/
theorem test_retire_done : (shop.readerEnd 6).cat.edition 14 = none ∧ (shop.readerEnd 6).alloc.find 6 = none ∧
    ((shop.readerEnd 6).production.notices.sources[3]?).map (·.latched) = some true := by decide +kernel

/-- RETIRE_EDITION of CLOSING edition 12 ends its deposit RETIRED (R42). -/
theorem test_retire_deposit : ∃ t, exec (.retireEdition .production 7 [1, 12]) shop = .next t ∧
    t.port.slots.get 0 = none ∧ t.cat.edition 12 = none ∧ (t.port.ended.map fun e => (e.handle, e.outcome)) = [(5, .done), (1, .retired)] :=
  ⟨_, rfl, by decide +kernel, by decide +kernel, by decide +kernel⟩

/-- RetireEdition: edition 10, whose extents have no reader, and edition 13, whose extent has one. -/
theorem witness_RetireEdition :
    Asks .production 0x15 [.one] [v 10] shop ∧ Asks .production 0x15 [.one] [v 13] shop ∧
    (∀ id ∈ [10, 13], ∀ e ∈ shop.cat.edition id, e.state ≠ .retiring ∧ e.retireReplied = false ∧
      (∀ p ∈ e.pages, ∀ x ∈ p.revs, x.pins = 0) ∧ shop.port.ofEdition id = [] ∧ (∀ j ∈ shop.engine.queue, j.revision.edition ≠ id)) ∧
    (∀ e ∈ shop.cat.edition 10, ∀ n ∈ e.extents, shop.alloc.readersOf n = 0) ∧
    (∀ e ∈ shop.cat.edition 13, ∃ n ∈ e.extents, shop.alloc.readersOf n ≠ 0) :=
  ⟨asks (by decide +kernel), asks (by decide +kernel), by decide +kernel, by decide +kernel, by decide +kernel⟩

theorem witness_DiscardPhoto :
    Asks .production 0x16 [.one] [v 2051] shop ∧
    shop.cat.photo 2051 = some { id := 2051, width := 1, height := 1, cls := 2, extent := 3, state := .complete } ∧
    shop.alloc.find 3 = some ⟨3, 4, 1, .photo 2051, .live, 0, false⟩ ∧
    (shopAlloc.modExtent 3 fun e => { e with state := .moving }).find 3 = some ⟨3, 4, 1, .photo 2051, .moving, 0, false⟩ ∧
    Asks .production 0x16 [.one] [v 2052] shop ∧ ((shop.cat.photo 2052).map (·.state)) = some .filling ∧
    Asks .production 0x16 [.one] [v 2050] shop ∧ ((shop.cat.photo 2050).map (·.refs)) = some [⟨10, 3, 0⟩] :=
  ⟨asks (by decide +kernel), by decide +kernel, by decide +kernel, by decide +kernel, asks (by decide +kernel), by decide +kernel,
   asks (by decide +kernel), by decide +kernel⟩

/-- DepositPage: page 160 of edition 11 at the greatest size and class, with two photographs, in slot 2. -/
theorem witness_DepositPage :
    Asks .production 0x11 [.one, .one, .one, .one, .one, .list] [v 11, v 160, v 40, v 56, v 15, some [2050, 2051]] shop ∧
    shop.cat.edition 11 = some { id := 11, issueDay := 0, number := 8 } ∧
    ({ id := 11, issueDay := 0, number := 8 } : Edition).page 160 = none ∧ [2050, 2051].Nodup ∧ 0 ∉ [2050, 2051] ∧
    (∀ id ∈ [2050, 2051], ∃ p, shop.cat.photo id = some p ∧ p.state = .complete ∧ p.refs.length < 8) ∧
    shop.port.slots.get 2 = none ∧ (∀ j : Fin 4, j < 2 → shop.port.slots.get j ≠ none) ∧ shop.cat.pageCount < 16384 ∧
    shop.alloc.place (40 * 56) = .ok 11 := by
  refine ⟨asks (by decide +kernel), by decide +kernel, by decide +kernel, by decide, by decide, ?_, by decide +kernel,
    by decide +kernel, by decide +kernel, by decide +kernel⟩
  intro id h
  simp only [List.mem_cons, List.not_mem_nil, or_false] at h
  rcases h with rfl | rfl
  · exact ⟨_, rfl, rfl, by decide⟩
  · exact ⟨_, rfl, rfl, by decide⟩

theorem witness_DepositPhoto :
    Asks .production 0x12 [.one, .one, .one, .one] [v 65535, v 32, v 32, v 15] shop ∧ shop.cat.photo 65535 = none ∧
    shop.cat.photos.length < 8192 ∧ shop.port.slots.get 2 = none ∧ (∀ j : Fin 4, j < 2 → shop.port.slots.get j ≠ none) ∧
    shop.alloc.place (32 * 32) = .ok 11 :=
  ⟨asks (by decide +kernel), by decide +kernel, by decide +kernel, by decide +kernel, by decide +kernel, by decide +kernel⟩

/-- Page 3 of edition 10 with a full list of four revisions. -/
def page3Full : Page :=
  { number := 3, revs := [revOf 0 2 1 0 .complete, revOf 1 1 1 20 .complete, revOf 2 1 1 21 .complete, revOf 254 1 1 22 .complete]
    lastIssued := 254 }

/-- The part with that page. -/
def shopFull : State := { shop with cat := shop.cat.modEdition 10 fun e => { e with pages := [page3Full] } }

/-- ReplatePage: a list of one revision and a full list. -/
theorem witness_ReplatePage :
    (∀ q ∈ [(shop, page3), (shopFull, page3Full)],
      free .production [.one, .one, .one, .one, .one, .list] [v 10, v 3, v 1, v 56, v 0, some [2051]] q.1 = true ∧
      ((q.1.cat.edition 10).bind (·.page 3)) = some q.2 ∧ ((q.1.cat.edition 10).map (·.state)) = some .opened ∧
      (∀ x ∈ q.2.revs, x.state = .complete) ∧ (q.2.revs.map (·.number)).Nodup ∧ (∀ x ∈ q.2.revs, x.number ≤ q.2.lastIssued) ∧
      q.2.lastIssued < 255 ∧ ((q.1.cat.photo 2051).map (·.state)) = some .complete ∧
      ((q.1.cat.photo 2051).map (·.refs.length)) = some 0 ∧
      (∀ x ∈ q.2.revs.head?, (∀ n ∈ x.extents, q.1.alloc.readersOf n = 0) ∧ x.pins = 0) ∧ q.1.engine.queue = [] ∧
      q.1.port.slots.get 2 = none ∧ (∀ j : Fin 4, j < 2 → q.1.port.slots.get j ≠ none)) ∧
    shop.alloc.place (1 * 56) = .ok 11 ∧ shopFull.alloc = shop.alloc ∧ 4 ≤ page3Full.revs.length := by decide +kernel

/-- A rendition of page 3 made by AUTO or from a profile. -/
def restoredOf (source : ToneSource) : Restored :=
  { extent := 8, source, tone := ⟨0, 255, 8⟩, lowRange := false, defects := [], defectsOverflow := false, changed := 2, blanked := 0 }

/-- The oldest revision of a full list, with photograph 2050 and a rendition. -/
def oldest : Revision := { revOf 0 2 1 0 .complete with photos := [2050], restored := some (restoredOf .auto) }

/-- The part with that list, the extents 0 and 8 of the oldest revision in states of their own. -/
def dropping (raw restored : ExtentState) : State :=
  { shop with
    cat := shop.cat.modEdition 10 fun e => { e with pages := [{ page3Full with revs := oldest :: page3Full.revs.tail }] }
    alloc :=
      { extents := (shopAlloc.modExtent 0 fun e => { e with state := raw }).extents ++
          [⟨8, 13, 2, .restored ⟨10, 3, 0⟩, restored, 0, false⟩]
        runs := [⟨9, 1⟩, ⟨11, 2⟩, ⟨15, 262129⟩] } }

/-- ReplatePage with a drop: LIVE and MOVING extents, a photograph that the dropped revision names and one that the new one
names. -/
theorem witness_ReplatePage_drop : ∀ raw ∈ [ExtentState.live, .moving], ∀ restored ∈ [ExtentState.live, .moving],
    free .production [.one, .one, .one, .one, .one, .list] [v 10, v 3, v 1, v 56, v 0, some [2051]] (dropping raw restored) = true ∧
    (((dropping raw restored).cat.edition 10).bind (·.page 3)) = some { page3Full with revs := oldest :: page3Full.revs.tail } ∧
    oldest.extents.Nodup ∧ oldest.pins = 0 ∧ (∀ m ∈ oldest.extents, (dropping raw restored).alloc.readersOf m = 0) ∧
    (dropping raw restored).alloc.find 0 = some ⟨0, 0, 2, .raw ⟨10, 3, 0⟩, raw, 0, false⟩ ∧
    (dropping raw restored).alloc.find 8 = some ⟨8, 13, 2, .restored ⟨10, 3, 0⟩, restored, 0, false⟩ ∧
    (dropping raw restored).cat.photos = shopCat.photos ∧ (dropping raw restored).alloc.place (1 * 56) = .ok 15 := by
  decide +kernel

/-- A replate drops revision 0: its reference leaves photograph 2050, that of revision 255 joins photograph 2051, and its LIVE
extents return their slots, which the new extent at 15 does not use (R12, R14, R37, R39). -/
theorem test_replate_drop : ∃ t, exec (.replatePage .production 7 [0x3F, 10, 3, 1, 56, 0, 1, 2051]) (dropping .live .live) = .next t ∧
    ((t.cat.photo 2050).map (·.refs)) = some [] ∧ ((t.cat.photo 2051).map (·.refs)) = some [⟨10, 3, 255⟩] ∧
    t.alloc.runs = [⟨0, 2⟩, ⟨9, 1⟩, ⟨11, 4⟩, ⟨71, 262073⟩] :=
  ⟨_, rfl, by decide +kernel, by decide +kernel, by decide +kernel⟩

/-- A dropped raw extent that is MOVING keeps its slots until the move ends (R38, R53). -/
theorem test_replate_drop_moving : ∃ t, exec (.replatePage .production 7 [0x3F, 10, 3, 1, 56, 0, 1, 2051]) (dropping .moving .live) =
    .next t ∧ t.alloc.runs = [⟨9, 1⟩, ⟨11, 4⟩, ⟨71, 262073⟩] ∧ ((t.alloc.find 0).map (·.releasePending)) = some true :=
  ⟨_, rfl, by decide +kernel, by decide +kernel⟩

/-- A frame's 2,048 data words, all of one value, and their pixels. -/
@[irreducible] def evenWords : List Word := List.replicate 2048 0xF0F0
def evenPixels : List Byte := pixelsOfWords evenWords

theorem evenWords_length : evenWords.length = 2048 := by unfold evenWords; exact List.length_replicate

theorem pixelsOfWords_length (ws : List Word) : (pixelsOfWords ws).length = 2 * ws.length := by
  induction ws with
  | nil => rfl
  | cons w ws ih => simp only [pixelsOfWords, List.flatMap_cons, List.length_append, List.length_cons, List.length_nil] at *; omega

theorem evenPixels_length : evenPixels.length = 4096 := by rw [evenPixels, pixelsOfWords_length, evenWords_length]

/-- A TILE frame of 2,048 data words, as the production link receives it. -/
theorem sort_tileWords (h i c : Word) (ws : List Word) (n : Nat) (hn : n = 2048) (hw : ws.length = n) :
    sortFrame .production (0x9C03 :: h :: i :: (ws ++ [c])) = .tile h.toNat i.toNat ⟨pixelsOfWords ws, c⟩ := by
  have h3 : (h :: i :: (ws ++ [c])).length = n + 3 := by simp [hw]
  have h1 : (ws ++ [c]).take n = ws := by rw [← hw]; exact List.take_left
  have h4 : (h :: i :: (ws ++ [c])).getD (n + 2) 0 = c := by simp [← hw]
  rw [hn] at h1 h3 h4
  unfold sortFrame
  dsimp only
  rw [if_neg (by decide), if_pos (by decide)]
  unfold sortTile
  rw [if_neg (by decide), if_neg (by rw [h3]; decide), h4, List.drop_succ_cons, List.drop_succ_cons, List.drop_zero, h1]
  rfl

/-- The check word of the even tile. -/
def evenCheck : Word := checkBytes evenPixels

theorem evenCheck_wrong : checkBytes evenPixels ≠ evenCheck + 1 := by
  show evenCheck ≠ evenCheck + 1
  generalize evenCheck = c
  bv_omega

/-- Deposit 17 of the part. -/
def shopDeposit : Deposit := { handle := 17, target := .photo 2052, extent := 4, total := 3, next := 1, finishing := false, expires := some 32 }

/-- TileFrame: frames for no deposit, out of order, FINISHING, with a wrong check word and right, and with the buffer full. -/
theorem witness_TileFrame :
    (∀ h i c : Word, ∃ ws, sortFrame .production ws = .tile h.toNat i.toNat ⟨evenPixels, c⟩) ∧
    shop.power = .running ∧ shop.production.held = none ∧ shop.port.buffer = none ∧ shop.production.replies.length < 2 ∧
    shop.port.find 9 = none ∧ shop.port.find 17 = some (1, shopDeposit) ∧ 2 ≠ shopDeposit.next ∧ 1 = shopDeposit.next ∧
    shopDeposit.finishing = false ∧ checkBytes evenPixels ≠ evenCheck + 1 ∧ checkBytes evenPixels = evenCheck ∧
    (shop.alloc.find shopDeposit.extent).isSome = true ∧ ((shop.port.find 1).map (·.2.finishing)) = some true ∧
    ({ shop.port with buffer := some ⟨17, 1, ⟨evenPixels, evenCheck⟩⟩ } : DepositPort).buffer ≠ none := by
  refine ⟨fun h i c => ⟨_, sort_tileWords h i c evenWords _ rfl evenWords_length⟩, rfl, rfl, rfl, by decide +kernel, by decide +kernel, by decide +kernel,
    by decide, by decide, rfl, evenCheck_wrong, rfl, by decide +kernel, by decide +kernel, by simp⟩

/-- FrameSent: a reply sent on the production link, one place or both full, with a tile frame held for the empty buffer. -/
theorem witness_FrameSent_tile :
    (∃ ws, sortFrame .production ws = .tile 17 1 ⟨evenPixels, evenCheck⟩) ∧
    ∀ m, m = 1 ∨ m = 2 → let s := sendingReply (holding (some (.tile 17 1 ⟨evenPixels, evenCheck⟩)) m) .production
      s.power = .running ∧ s.production.sending = some .reply ∧ s.production.held = some (.tile 17 1 ⟨evenPixels, evenCheck⟩) ∧
      s.port.buffer = none ∧ s.production.replies.length = m ∧ s.production.replies.tail.length < 2 := by
  refine ⟨⟨_, sort_tileWords 17 1 evenCheck evenWords _ rfl evenWords_length⟩, ?_⟩
  rintro m (rfl | rfl) <;> exact ⟨rfl, rfl, rfl, rfl, rfl, by decide⟩

/-- A slot that holds the even pixels with a check word, right or wrong, and nothing else in the store. -/
def tileAt (slot : Nat) (check : Word) (s : State) : State :=
  { s with store := { s.store with mem := Memory.writeSlot [] slot ⟨evenPixels, check⟩ } }

/-- That slot reads as it was written; with its own check word it is not damaged, and with another it is (R69, R74). -/
theorem read_tileAt (slot : Nat) (check : Word) (s : State) :
    Memory.readSlot (Memory.upset (tileAt slot check s).store.mem slot []) slot = ⟨evenPixels, check⟩ := by
  have h : fitTile evenPixels = evenPixels := by
    unfold fitTile
    rw [evenPixels_length, List.take_of_length_le (by rw [evenPixels_length]; decide)]
    exact List.append_nil _
  simp only [tileAt, Memory.upset, Memory.readSlot_writeSlot, h]

/-- The part while the write of a buffered tile of a deposit is in flight. -/
def writing (handle index slot : Nat) : State :=
  { shop with
    port := { shop.port with buffer := some ⟨handle, index, ⟨evenPixels, evenCheck⟩⟩ }
    store := { shop.store with inFlight := some ⟨.deposit, slot, .write evenPixels (some evenCheck)⟩ } }

/-- The edition, revision and notice source of deposit 1: CLOSING with a count of 1, OPEN or CLOSING with a count of 2. -/
def fillsOf (state : EditionState) (filling : Nat) : State :=
  { writing 1 0 2 with cat := shop.cat.modEdition 12 fun e => { e with state, filling } }

/-- TileWriteComplete and DepositAborted: deposit 1 into an edition that closes with it, and into ones that do not. -/
theorem witness_DepositEnds_edition :
    (∀ q ∈ [(EditionState.closing, 1), (.closing, 2), (.opened, 1), (.closed, 2)],
      let s := fillsOf q.1 q.2
      ((s.port.find 1).map fun x => (x.1, x.2.target)) = some (0, .page ⟨12, 1, 0⟩) ∧
      s.cat.revision ⟨12, 1, 0⟩ = some (revOf 0 1 1 1 .filling) ∧ ((s.cat.edition 12).map (·.state)) = some q.1 ∧
      ((s.cat.edition 12).map (·.filling)) = some q.2 ∧ (s.production.notices.sources[2]?).isSome = true) ∧
    Asks .production 0x17 [.one] [v 1] shop := ⟨by decide +kernel, asks (by decide +kernel)⟩

/-- The last fill of a CLOSING edition closes it with CLOSE_DONE, at a completion and at an abort (R41). -/
theorem test_close_done : (∀ t ∈ [(fillsOf .closing 1).tileWritten,
      (fillsOf .closing 1).abortDeposit 0 shopFinishing (some .abandoned)],
    ((t.cat.edition 12).map fun e => (e.state, e.filling)) = some (.closed, 0) ∧
    (t.production.notices.sources[2]?).map (·.latched) = some true) := by decide +kernel

/-- The part after deposit 17 has been aborted during the write of its tile. -/
def abortedWrite : State := (writing 17 0 5).abortDeposit 1 shopDeposit (some .abandoned)

/-- The write of an aborted deposit runs on, withdrawn, and ends with its slot unchanged (R32, R69). -/
theorem test_withdrawn_write : abortedWrite.power = .running ∧ abortedWrite.store.inFlight = none ∧
    abortedWrite.store.withdrawn = some ⟨.deposit, 5, .write evenPixels (some evenCheck)⟩ ∧
    ∃ t, exec .tileWriteComplete abortedWrite = .next t ∧ t.store.withdrawn = none ∧ t.store.mem = [] :=
  ⟨rfl, rfl, rfl, _, rfl, rfl, rfl⟩

/-- TileWriteComplete: the last tile of deposit 1, and a tile of deposit 17 with more to come. -/
theorem witness_TileWriteComplete :
    ((writing 1 0 2).power = .running ∧ (writing 1 0 2).store.withdrawn = none ∧ (writing 1 0 2).store.inFlight = some ⟨.deposit, 2, .write evenPixels (some evenCheck)⟩ ∧
      2 < (writing 1 0 2).store.slotCount ∧ evenPixels.length = 4096 ∧
      (writing 1 0 2).port.buffer = some ⟨1, 0, ⟨evenPixels, evenCheck⟩⟩ ∧
      ∃ d, (writing 1 0 2).port.find 1 = some (0, d) ∧ d.finishing = true ∧ 0 + 1 = d.total) ∧
    (∃ d, (writing 17 0 5).port.find 17 = some (1, d) ∧ d.finishing = false ∧
      (writing 17 0 5).port.buffer = some ⟨17, 0, ⟨evenPixels, evenCheck⟩⟩ ∧
      (writing 17 0 5).store.inFlight = some ⟨.deposit, 5, .write evenPixels (some evenCheck)⟩) :=
  ⟨⟨rfl, rfl, rfl, by decide, evenPixels_length, rfl, _, rfl, rfl, rfl⟩, _, rfl, rfl, rfl, rfl⟩

/-- DepositAborted: deposit 17 abandoned, and its idle timer expired at moment 32; a tile of it and of another in the buffer. -/
theorem witness_DepositAborted :
    Asks .production 0x17 [.one] [v 17] (writing 17 0 5) ∧ (writing 17 0 5).port.find 17 = some (1, shopDeposit) ∧
    (writing 17 0 5).port.slots.get 1 = some shopDeposit ∧ shopDeposit.expires = some 32 ∧
    (writing 17 0 5).port.buffer = some ⟨17, 0, ⟨evenPixels, evenCheck⟩⟩ ∧
    (writing 1 0 2).port.buffer = some ⟨1, 0, ⟨evenPixels, evenCheck⟩⟩ ∧ 1 ≠ shopDeposit.handle ∧
    (∃ src, (writing 17 0 5).production.notices.sources[1]? = some src) :=
  ⟨asks (by decide +kernel), rfl, rfl, rfl, rfl, rfl, by decide, _, rfl⟩

/-! ### Settings -/

theorem witness_SetLowWater :
    Asks .production 0x1A [.two] [v 524288] shop ∧ Asks .production 0x1A [.two] [v 524289] shop ∧
    exec (.powerUp true false false false) (powered .off true) =
      .next (({ powered .off true with standbyOk := true } : State).startAtPowerUp false false) ∧
    (powered .off true).power ≠ .running ∧
    (({ powered .off true with standbyOk := true } : State).startAtPowerUp false false).power = .running :=
  ⟨asks (by decide +kernel), asks (by decide +kernel), rfl, by decide +kernel, by decide +kernel⟩

/-- VolatileSettings: the ends of each range, and the values next to them. -/
theorem witness_VolatileSettings :
    (∀ n ∈ [0, 1, 255, 256], free .production [.one] [v n] shop = true) ∧
    (∀ q ∈ [(1, 1), (255, 15), (0, 1), (256, 1), (1, 0), (1, 16)], free .desk [.one, .one] [v q.1, v q.2] shop = true) ∧
    (∀ q ∈ [(1, 1), (255, 40), (0, 1), (256, 1), (1, 0), (1, 41)],
      free .desk [.one, .one, .one, .one] [v q.1, v q.1, v q.2, v q.1] shop = true) ∧
    (∀ n ∈ [0, 65535], free .sales [.one] [v n] shop = true) := by decide +kernel

/-- SetStore: an idle time of one threshold step at moment 50, the values that do not enter QUIET, and those out of range. -/
theorem witness_SetStore :
    Asks .production 0x1C [.one, .one] [v 1, none] { shop with now := 50 } ∧ shop.store.idle = true ∧
    shop.store.idleSince = some 0 ∧ shop.store.fixedCount = 0 ∧ shop.store.burst = none ∧ 0 + 1 * 50 ≤ 50 ∧
    Asks .production 0x1C [.one, .one] [v 255, v 1] shop ∧ 10 < 0 + 255 * 50 ∧
    Asks .production 0x1C [.one, .one] [v 0, v 16] shop ∧
    (∀ q ∈ [(256, 1), (0, 0), (0, 17)], free .production [.one, .one] [v q.1, v q.2] shop = true) :=
  ⟨asks (by decide +kernel), by decide +kernel, by decide +kernel, by decide +kernel, by decide +kernel, by decide,
   asks (by decide +kernel), by decide, asks (by decide +kernel), by decide +kernel⟩

/-! ### The store -/

/-- ArbiterChoice: an ACTIVE store with nothing in flight, halted or at the debts 0, 1, 3, 4, 7 and 8, and with waiting reads. -/
theorem witness_ArbiterChoice :
    (∀ debt ∈ [0, 1, 3, 4, 7, 8], ∀ halted ∈ [true, false],
      let st : Store := { shop.store with debt, halted }
      st.state = .active ∧ st.inFlight = none ∧ st.withdrawn = none ∧ st.burst = none ∧ st.waiting = []) ∧
    grantStore.state = .active ∧ grantStore.inFlight = none ∧ grantStore.withdrawn = none ∧ grantStore.burst = none ∧ grantStore.halted = false ∧
    grantStore.debt ≤ 3 ∧ grantStore.waiting ≠ [] ∧ ({ grantStore with state := .quiet } : Store).state ≠ .active ∧
    ({ grantStore with withdrawn := some (readOf .deposit) } : Store).withdrawn ≠ none ∧
    ({ grantStore with inFlight := some (readOf .deposit) } : Store).inFlight = some (readOf .deposit) := by decide +kernel

/-- The refresh timer takes the debt from 7 to 8, a transfer is in flight, and the halt begins and is counted (R73). -/
theorem test_halt : ∃ t, exec .refreshDue
      { shop with store := { shop.store with debt := 7, inFlight := some (readOf .deposit) } } = .next t ∧
    t.store.debt = 8 ∧ t.store.halted = true ∧ t.store.haltCount = 1 ∧ t.store.inFlight = some (readOf .deposit) :=
  ⟨_, rfl, by decide +kernel, by decide +kernel, by decide +kernel, by decide +kernel⟩

/-- RefreshAndBursts: the timer at the debts next to the halt, a transfer or a burst in progress; a burst that ends a halt. -/
theorem witness_RefreshAndBursts_halt : ∀ debt ∈ [6, 7, 8], ∀ halted ∈ [true, false], ∀ burst ∈ [none, some 8],
    let s : State := { shop with store := { shop.store with debt, halted, burst, inFlight := some (readOf .deposit) } }
    s.power = .running ∧ s.store.refreshDue = some 312 ∧ s.store.burst = burst ∧ s.store.idle = false := by decide +kernel

/-- RefreshAndBursts: the timer due at 312; a burst on a store idle for its threshold, and on one that is not. -/
theorem witness_RefreshAndBursts :
    shop.power = .running ∧ shop.store.refreshDue = some 312 ∧
    (∀ now ∈ [2500, 2499], let s : State := { shop with now, store := { shop.store with burst := some 8, debt := 1 } }
      s.store.burst = some 8 ∧ s.store.idle = true ∧ s.store.idleSince = some 0 ∧ s.store.quietThreshold = 50 ∧
      s.store.fixedCount = 0) ∧ 0 + 50 * 50 ≤ 2500 ∧ 2499 < 0 + 50 * 50 := by decide +kernel

theorem witness_QuietAndWaking :
    shop.power = .running ∧ shop.store.idle = true ∧ shop.store.quietThreshold ≠ 0 ∧ shop.store.fixedCount = 0 ∧
    shop.store.idleSince = some 0 ∧ shop.store.burst = none ∧ ({ shop.store with burst := some 8 } : Store).burst ≠ none ∧
    shop.store.enterQuiet.state = .quiet ∧
    (shop.store.enterQuiet.ask 7 (readOf .deposit)).state = .waking ∧
    (shop.store.enterQuiet.ask 7 (readOf .deposit)).wakeEnds = some 107 ∧
    ({ shop.store with fixedCount := 1 } : Store).fixedCount ≠ 0 := by decide +kernel

/-! ### The allocator -/

/-- FreeRuns: slot 8 returns below a run, slots 11 to 2,250 leave one, and a size that no run has. -/
theorem witness_FreeRuns :
    runsSound 262144 shopAlloc.runs ∧ (∀ slot, 8 ≤ slot → slot < 8 + 1 → ¬ slotFree shopAlloc.runs slot) ∧
    (∃ r ∈ shopAlloc.runs, r.first ≤ 11 ∧ 11 + 2240 ≤ r.first + r.size) ∧ shopAlloc.compaction.move = none ∧
    shopAlloc.extents.length < 32768 ∧ shopAlloc.place 2240 = .ok 11 ∧ 0 + 262134 ≤ 262144 ∧
    (∀ r ∈ shopAlloc.runs, r.size < 262134) := by
  refine ⟨by unfold runsSound; decide +kernel, ?_, by decide +kernel, rfl, by decide +kernel, by decide +kernel, by decide,
    by decide +kernel⟩
  intro slot h1 h2
  simp only [slotFree, shopAlloc, List.mem_cons, List.not_mem_nil, or_false, exists_eq_or_imp, exists_eq_left]
  omega

/-- FreeRuns: an extent of each state to be released, and one whose last reader ends. -/
theorem witness_FreeRuns_release :
    (∀ q ∈ [(ExtentState.filling, 0), (.building, 0), (.live, 0), (.live, 1), (.moving, 0), (.moving, 1), (.releasing, 1)],
      (shopAlloc.modExtent 5 fun e => { e with state := q.1, readers := q.2 }).find 5 =
        some ⟨5, 8, 1, .raw ⟨13, 1, 0⟩, q.1, q.2, false⟩) := by decide +kernel

/-- The part with every channel at other work, and the part of Table 3-4. -/
def busy : State :=
  { shop with mover := { shop.mover with channels :=
      ⟨{ state := .running }, { state := .running }, { state := .running }, { state := .stopping }⟩ } }
def compacting : State := { shop with alloc := { extents := compactExtents, runs := [⟨0, 192⟩, ⟨200, 4⟩, ⟨324, 261820⟩] } }

/-- The allocator of Table 3-4 while E5 moves to slot 0. -/
def movingAlloc : Allocator :=
  { compacting.alloc with compaction := { state := .copying, asked := 3, move := some ⟨1, 192, 0, 0⟩ } }

/-- FreeRuns with a move: sizes that lie beside the target in its run, in the run of 4, and past both. -/
theorem witness_FreeRuns_move :
    movingAlloc.compaction.move = some ⟨1, 192, 0, 0⟩ ∧ movingAlloc.find 1 = some ⟨1, 192, 8, .photo 9, .live, 0, false⟩ ∧
    runsSound 262144 movingAlloc.runs ∧ (∃ r ∈ movingAlloc.runs, r.first ≤ 0 ∧ 0 + 8 ≤ r.first + r.size) ∧
    (∀ q ∈ [(4, 8), (184, 8), (185, 324)], movingAlloc.place q.1 = .ok q.2) := by
  refine ⟨rfl, by decide +kernel, by unfold runsSound; decide +kernel, by decide +kernel, by decide +kernel⟩

theorem witness_Compact :
    (∀ n ∈ [0, 1, 64, 65], free .production [.one] [v n] shop = true) ∧ shop.mover.queue = [] ∧
    shop.alloc.compaction.state = .idle ∧ Asks .production 0x1B [.one] [v 64] busy ∧
    busy.alloc.compaction.state = .idle ∧ busy.mover.queue = [] ∧ (∀ c, (busy.channel c).state ≠ .idle) ∧
    (shop.channel 0).state = .idle ∧ (∀ b : Fin 4, b < 0 → (shop.channel b).state ≠ .idle) ∧
    searchMove shop.alloc.extents shop.alloc.runs = none ∧
    Asks .production 0x1B [.one] [v 3] compacting ∧ (searchMove compacting.alloc.extents compacting.alloc.runs).isSome = true ∧
    compacting.alloc.find 1 = some ⟨1, 192, 8, .photo 9, .live, 0, false⟩ ∧
    ({ shop.alloc.compaction with state := .copying } : Compaction).state ≠ .idle :=
  ⟨by decide +kernel, rfl, rfl, asks (by decide +kernel), rfl, rfl, by decide +kernel, rfl, by decide +kernel, by decide +kernel,
   asks (by decide +kernel), by decide +kernel, by decide +kernel, by decide⟩

/-- Channel 2 with the copy and so many tiles to come. -/
def copyChannel (terminal : Nat) : Channel := { state := .running, work := some .copy, nextCopy := 8 - terminal, terminal }

/-- The move of E5 to slot 0 with so many tiles to come, the moves made and the stop mark. -/
def copyRecord (terminal made : Nat) (stop : Bool) : Compaction :=
  { state := .copying, asked := 3, made, stop, move := some ⟨1, 192, 0, 8 - terminal⟩ }

/-- The part with that copy and its transfer in flight. -/
def copying (t : Transfer) (terminal made : Nat) (stop : Bool) : State :=
  { compacting with
    alloc := { compacting.alloc with compaction := copyRecord terminal made stop }
    mover := { shop.mover with channels := shop.mover.channels.set 2 (copyChannel terminal) }
    store := { shop.store with inFlight := some t } }

/-- The last write of a copy whose extent a release waits for, without readers and with one: it is returned, or RELEASING
with its slots at the target (R61). -/
def releasedCopy (readers : Nat) : State :=
  let s := copying ⟨.channel 2, 7, .write evenPixels (some evenCheck)⟩ 1 0 true
  { s with alloc := s.alloc.modExtent 1 fun e => { e with state := .moving, readers, releasePending := true } }

theorem witness_CopyCompletes_release :
    (∀ readers ∈ [0, 1], (releasedCopy readers).alloc.find 1 = some ⟨1, 192, 8, .photo 9, .moving, readers, true⟩ ∧
      ((releasedCopy readers).channel 2).terminal = 1 ∧ (releasedCopy readers).alloc.compaction.stop = true) ∧
    (∀ readers, (releasedCopy readers).store.inFlight = some ⟨.channel 2, 7, .write evenPixels (some evenCheck)⟩) :=
  ⟨by decide +kernel, fun _ => rfl⟩

/-- CopyCompletes: a read, a write with two tiles to come, and the last write with the stop mark and with the moves made. -/
theorem witness_CopyCompletes :
    (∀ q ∈ [(2, 0, false), (1, 0, true), (1, 2, false)],
      let s := copying ⟨.channel 2, 7, .read⟩ q.1 q.2.1 q.2.2
      s.power = .running ∧ (s.channel 2).work = some .copy ∧ s.alloc.compaction.move = some ⟨1, 192, 0, 8 - q.1⟩ ∧
      7 < s.store.slotCount ∧ s.store.inFlight = some ⟨.channel 2, 7, .read⟩ ∧ (s.channel 2).terminal = q.1 ∧
      s.alloc.find 1 = some ⟨1, 192, 8, .photo 9, .live, 0, false⟩ ∧ s.mover.queue = [] ∧ s.mover.copyRequest = false ∧
      s.engine.queue = [] ∧ (q.1 = 1 → s.alloc.compaction.stop = true ∨ s.alloc.compaction.made + 1 = s.alloc.compaction.asked)) ∧
    (∀ terminal made stop, (copying ⟨.channel 2, 7, .write evenPixels (some evenCheck)⟩ terminal made stop).store.inFlight =
      some ⟨.channel 2, 7, .write evenPixels (some evenCheck)⟩) ∧ evenPixels.length = 4096 :=
  ⟨by decide +kernel, fun _ _ _ => rfl, evenPixels_length⟩

/-! ### Walks, reads and deliveries -/

theorem witness_WalkCoversRegion : 1 ≤ (walkOf true false true).step ∧ 1 + 6 ≤ 7 ∧ 0 < (walkOf true false true).places ∧
    clipRegion 2 1 (some ⟨1, 0, 255, 255⟩) = some (⟨1, 0, 1, 1⟩, true) ∧
    clipRegion 2 1 (some ⟨0, 0, 2, 1⟩) = some (⟨0, 0, 2, 1⟩, false) := by decide +kernel

/-- The example of R103: a page of 12 by 16 tiles. -/
theorem test_clip : clipRegion 12 16 (some ⟨8, 10, 6, 6⟩) = some (⟨8, 10, 4, 6⟩, true) ∧
    clipRegion 12 16 (some ⟨12, 0, 1, 1⟩) = none := by decide +kernel

/-- The revision of page 3. -/
def rev3 : Revision := { revOf 0 2 1 0 .complete with photos := [2050] }

/-- A part in which the revision of page 3 is changed. -/
def withRev (f : Revision → Revision) : State := { shop with cat := shop.cat.modRevision ⟨10, 3, 0⟩ f }

/-- A part with a rendition of page 3 and with every class SET. -/
def priced : State :=
  { withRev (fun x => { x with restored := some (restoredOf .auto) }) with
    meter := { shop.meter with tariffs := List.replicate 16 ⟨1250, 400, 2000, 50, 64, 0, true⟩ } }

/-- The fields of a desk view of page 3 with every walk field named and pacing FIXED, of a photograph, and of item n of order 77. -/
def pageView (rendition : Nat) : Fields :=
  [v 10, v 3, v 0, v rendition, some [0, 0, 255, 255], v 4, v 1, v 1, v 1, v 1, none, none]
def photoView : Fields := [v 2050, none, none, none, none, none, none, none, none, none]
def itemRead (n : Nat) : Fields := [v 10, v 3, none, none, none, none, none, none, none, none, v 77, v n]

/-- The part with channel 0 at other work, extent 5 MOVING with delivery 9 waiting for it, and extent 0 in a state. -/
def waitingForMove (queue : List Nat) (state : ExtentState) : State :=
  { shop with
    mover := { shop.mover with queue, channels := shop.mover.channels.set 0 { state := .running } }
    table := { shop.table with records := [{ viewOf none .waiting none with handle := 9, extent := 5 }] }
    alloc := (shopAlloc.modExtent 5 fun e => { e with state := .moving }).modExtent 0 fun e => { e with state } }

/-- ReadAccepted as a desk view of a page, RAW and RESTORED: the record of the reads and what their checks find. -/
theorem witness_ReadAccepted_page :
    (∀ code ∈ [0, 1, 2], free .desk readPageLayout (pageView code) priced = true ∧ (pageView code).inRange 3 0 2 = true ∧
      (pageView code).walkInRange 4 = true ∧
      clipRegion 2 1 ((pageView code).region 4) = some (⟨0, 0, 2, 1⟩, true) ∧ (pageView code).nat 9 = some 1) ∧
    pageNameInRange 10 3 (some 0) = true ∧
    priced.cat.resolve 10 3 (some 0) = .ok (⟨10, 3, 0⟩, { rev3 with restored := some (restoredOf .auto) }) ∧
    shop.cat.resolve 10 3 none = .ok (⟨10, 3, 0⟩, rev3) ∧ priced.table.records.length < 8 ∧
    nextFree 255 priced.table.handleInUse 9 priced.table.lastHandle = 1 ∧ (∀ c, (busy.channel c).state ≠ .idle) ∧
    (∀ c ∈ [0, 1], free .desk readPageLayout (pageView c) busy = true) := by decide +kernel

/-- ReadAccepted as a desk view of a photograph. -/
theorem witness_ReadAccepted_photo :
    Asks .desk 0x31 readPhotoLayout photoView shop ∧ ((shop.cat.photo 2050).map (·.state)) = some .complete ∧
    photoView.inRange 1 0 0 = true ∧ photoView.walkInRange 2 = true ∧
    clipRegion 1 1 (photoView.region 2) = some (⟨0, 0, 1, 1⟩, false) :=
  ⟨asks (by decide +kernel), by decide +kernel, by decide +kernel, by decide +kernel, by decide +kernel⟩

/-- ReadAccepted as a fulfilment read, of an item that is READY and of one that is DELIVERED. -/
theorem witness_ReadAccepted_item :
    (∀ q ∈ [(1, ItemState.ready), (2, ItemState.delivered)],
      free .desk readPageLayout (itemRead q.1) priced = true ∧ priced.book.item 77 q.1 = some (itemOf q.1 q.2) ∧
      ((priced.book.order 77).map (·.inFlight)) = some 0) ∧
    pageNameInRange 10 3 none = true ∧ ((priced.cat.resolve 10 3 none).toOption.map Prod.fst) = some ⟨10, 3, 0⟩ ∧
    ((priced.book.order 77).map (·.state)) = some .opened ∧ ((priced.book.account 3310).map (·.status)) = some .active ∧
    (priced.meter.tariff (priced.cat.classOf (.page ⟨10, 3, 0⟩))).set = true := by decide +kernel

/-- ReadAccepted with channels IDLE: channel 1 and those after it, an empty work queue, the extent LIVE; and with a delivery
in the queue whose extent is MOVING, as that of the new one may be. -/
theorem witness_ReadAccepted_starts :
    (∀ queue ∈ [[], [9]], ∀ state ∈ [ExtentState.live, .moving],
      let s := waitingForMove queue state
      free .desk readPageLayout (pageView 0) s = true ∧ (s.channel 0).state = .running ∧ (s.channel 1).state = .idle ∧
      s.mover.queue = queue ∧ s.mover.copyRequest = false ∧ s.table.find 9 = some { viewOf none .waiting none with handle := 9, extent := 5 } ∧
      s.alloc.find 5 = some ⟨5, 8, 1, .raw ⟨13, 1, 0⟩, .moving, 1, false⟩ ∧ s.store.outstanding (.channel 1) = false ∧
      s.alloc.find 0 = some ⟨0, 0, 2, .raw ⟨10, 3, 0⟩, state, 0, false⟩ ∧
      ((pageView 0).walk 4 ⟨0, 0, 2, 1⟩).tileAt 2 0 0 = some 0) ∧
    (∀ state, (waitingForMove [] state).QueueMoves ∧ (waitingForMove [9] state).QueueMoves) ∧ shop.QueueMoves := by
  refine ⟨by decide +kernel, fun state => ⟨fun h hh => by simp [waitingForMove] at hh, fun h hh => ?_⟩,
    fun h hh => by simp [shop, State.reset] at hh⟩
  simp only [waitingForMove, List.mem_cons, List.not_mem_nil, or_false] at hh
  subst hh
  exact ⟨_, _, rfl, by cases state <;> rfl, rfl⟩

/-- A FIXED desk view of page 3 with step 4 starts on channel 1 with its one tile to send and asks for slot 0 (R86, R88, R90,
R91). -/
theorem test_read_starts : ∃ t, exec (.readPage .desk 7 (writeFields readPageLayout (pageView 0))) (waitingForMove [9] .live) = .next t ∧
    (t.table.find 1).map (fun d => (d.state, d.channel)) = some (.running, some 1) ∧ (t.channel 1).terminal = 1 ∧
    t.store.fixedCount = 1 ∧ t.mover.queue = [9] ∧ t.store.inFlight = some ⟨.channel 1, 0, .read⟩ :=
  ⟨_, rfl, by decide +kernel, by decide +kernel, by decide +kernel, by decide +kernel, by decide +kernel⟩

/-- Item 1 of order 77 names photograph 2050. -/
def photoItem (state : ItemState) : Item :=
  { itemOf 1 state with target := .photo 2050, walk := ⟨⟨0, 0, 1, 1⟩, 1, false, false, false⟩ }

/-- The part with that item, and with every class SET. -/
def photoSold (state : ItemState) : State :=
  { priced with book := priced.book.modOrder 77 fun o => { o with items := [photoItem state] } }

/-- ReadAccepted as a fulfilment read of a photograph, READY and DELIVERED. -/
theorem witness_ReadAccepted_photoItem :
    (∀ st ∈ [ItemState.ready, .delivered],
      let fs : Fields := [v 2050, none, none, none, none, none, none, none, v 77, v 1]
      let s := photoSold st
      free .desk readPhotoLayout fs s = true ∧ ((s.cat.photo 2050).map (·.state)) = some .complete ∧ fs.inRange 1 0 0 = true ∧
      s.book.item 77 1 = some (photoItem st) ∧ ((s.book.order 77).map (·.state)) = some .opened ∧
      ((s.book.account 3310).map (·.status)) = some .active ∧
      (s.meter.tariff (s.cat.classOf (.photo 2050))).set = true ∧ s.table.records.length < 8) := by decide +kernel

/-- ReadAccepted refused: READ_PHOTO with a rendition of 1 or 2, as a desk view and as a fulfilment read. -/
theorem witness_ReadAccepted_rendition : ∀ w ∈ [1, 2], ∀ item ∈ [[none, none], [v 77, v 1]],
    free .desk readPhotoLayout ([v 2050, v w, none, none, none, none, none, none] ++ item) priced = true := by decide +kernel

/-- A fulfilment READ_PHOTO with rendition RESTORED is BAD_VALUE (R101, R102). -/
theorem test_photo_rendition :
    ∃ t, exec (.readPhoto .desk 7 (writeFields readPhotoLayout [v 2050, v 1, none, none, none, none, none, none, v 77, v 1])) priced =
      .next t ∧ t.desk.replies = [{ tag := 7, answer := { result := .badValue } }] ∧ t.book = priced.book :=
  ⟨_, rfl, by decide +kernel, by decide +kernel⟩

/-- The part with delivery 4 on channel 1 and its read in flight. -/
def readingOne (ch : Channel) : State :=
  { pressed none ch 1 with store := { shop.store with inFlight := some ⟨.channel 1, 1, .read⟩ } }

/-- A place that is READING tile i, and one that is HELD. -/
def readingPlace (i : Nat) : Place := { state := .reading, index := i }
def heldPlace (i : Nat) : Place := { state := .held, index := i, tile := some noTile }

/-- DeliveryReadComplete: the first tile with another to read, a third place with another to read, the fourth place with tiles
left, and the last tile. -/
theorem witness_DeliveryReadComplete :
    (∀ q ∈ [(0, 1, []), (0, 1, [heldPlace 0, heldPlace 1]), (0, 1, [heldPlace 0, heldPlace 0, heldPlace 0]), (1, 0, [heldPlace 0])],
      let s := readingOne { buffer := q.2.2 ++ [readingPlace 1], line := q.1, place := q.2.1, terminal := 2 }
      s.power = .running ∧ s.store.withdrawn = none ∧ s.store.inFlight = some ⟨.channel 1, 1, .read⟩ ∧
      1 < s.store.slotCount ∧ (s.channel 1).work = some (.delivery 4) ∧ s.table.find 4 = some (viewOf none .running (some 1)) ∧
      (s.channel 1).state = .running ∧ (∀ y ∈ s.store.waiting, y.client ≠ .channel 1) ∧
      (s.channel 1).buffer = q.2.2 ++ [readingPlace 1] ∧ (∀ p ∈ q.2.2, p.state ≠ .reading) ∧ q.2.2.length ≤ 3 ∧
      s.alloc.find 0 = some ⟨0, 0, 2, .raw ⟨10, 3, 0⟩, .live, 1, false⟩ ∧
      (viewOf none .running (some 1)).walk.tileAt 2 (s.channel 1).line (s.channel 1).place =
        if q.1 = 0 then some 1 else none) := by decide +kernel

/-- DeliveryReadComplete: the read of a delivery that was stopped, withdrawn in flight. -/
def withdrawnRead : State := (readingOne { buffer := [readingPlace 1], terminal := 2 }).quietChannel 1

theorem witness_DeliveryReadComplete_withdrawn : ∀ check, (tileAt 1 check withdrawnRead).power = .running ∧
    (tileAt 1 check withdrawnRead).store.withdrawn = some ⟨.channel 1, 1, .read⟩ ∧
    1 < (tileAt 1 check withdrawnRead).store.slotCount := fun _ => ⟨rfl, rfl, by show 1 < 262144; decide⟩

/-- The end of a withdrawn read of a damaged tile: the damage is recorded, and the channel hears nothing of it (R69, R95). -/
theorem test_withdrawn_read : let t := ((withdrawnRead.modStore Store.endWithdrawn).recordDamage 1 .delivery).settle
    t.store.withdrawn = none ∧ t.store.damagedReads = 1 ∧ (t.channel 1).buffer = [] ∧ t.table = withdrawnRead.table := by
  decide +kernel

/-- A list of n damage entries. -/
def damaged (n : Nat) : DamageList := { entries := (List.range n).map fun i => ⟨i, .raw⟩ }

/-- DeliveryReadComplete: a damaged and an undamaged tile in the slot that is read; lists of 0, 7 and 8 entries with an entry
that they hold and one that they do not; the revision and the photograph of an extent's owner. -/
theorem witness_DeliveryReadComplete_damage :
    (∀ check s, Memory.readSlot (Memory.upset (tileAt 1 check s).store.mem 1 []) 1 = ⟨evenPixels, check⟩) ∧
    checkBytes evenPixels = evenCheck ∧ checkBytes evenPixels ≠ evenCheck + 1 ∧
    (∀ n ∈ [0, 7, 8], (⟨n, .raw⟩ : DamageEntry) ∉ (damaged n).entries ∧ (damaged n).entries.length = n) ∧
    (⟨7, .raw⟩ : DamageEntry) ∈ (damaged 8).entries ∧ (⟨7, .restored⟩ : DamageEntry) ∉ (damaged 8).entries ∧
    shop.cat.revision ⟨10, 3, 0⟩ = some rev3 ∧ (shop.cat.photo 2050).isSome = true ∧
    shop.alloc.holding 1 = some ⟨0, 0, 2, .raw ⟨10, 3, 0⟩, .live, 0, false⟩ ∧ shop.alloc.holding 9 = none :=
  ⟨read_tileAt 1, rfl, evenCheck_wrong, by decide +kernel⟩

/-- The first entry of an owner's list raises TILE_DAMAGED, and one it already holds raises nothing (R9, R75). -/
theorem test_damaged_owner : let s := shop.recordDamage 1 .delivery
    (s.cat.damageOf (.raw ⟨10, 3, 0⟩)).entries = [⟨1, .raw⟩] ∧
    (s.production.notices.sources[5]?).map (·.latched) = some true ∧ s.store.damagedReads = 1 ∧
    (s.recordDamage 1 .copy).cat = s.cat ∧ (s.recordDamage 1 .copy).production = s.production ∧
    (s.recordDamage 1 .copy).store.damagedReads = 2 := by decide +kernel

/-- Period n of the FIXED delivery 4 with a buffer and the frame of the last period. -/
def pacedOne (period : Nat) (buffer : List Place) (periodFrame : Option PeriodFrame) : State :=
  pressed (some ⟨20, 4⟩) { buffer, period, periodFrame, terminal := 2 } 1

/-- FixedPeriodBegins: before period L, at it with a HELD and a READING head, and with a frame left, SENDING one or not. -/
theorem witness_FixedPeriodBegins :
    (∀ s ∈ [pacedOne 3 [] none, pacedOne 4 [heldPlace 0] none, pacedOne 4 [readingPlace 0] none,
        pacedOne 5 [heldPlace 0] (some ⟨none, true⟩), pacedOne 5 [{ heldPlace 0 with state := .sending }, heldPlace 1] (some ⟨none, false⟩)],
      s.power = .running ∧ (s.channel 1).work = some (.delivery 4) ∧
      s.table.find 4 = some (viewOf (some ⟨20, 4⟩) .running (some 1)) ∧ (s.channel 1).state = .running ∧ 4 ∉ s.mover.queue ∧
      (s.channel 1).sendingFill = none) ∧
    ((pacedOne 3 [] none).channel 1).period < 4 ∧ ((pacedOne 4 [heldPlace 0] none).channel 1).period = 4 ∧
    ((pacedOne 5 [heldPlace 0] (some ⟨none, true⟩)).channel 1).frameSending = false ∧
    ((pacedOne 5 [{ heldPlace 0 with state := .sending }, heldPlace 1] (some ⟨none, false⟩)).channel 1).frameSending = true ∧
    (viewOf (some ⟨20, 4⟩) .running (some 1)).order = none := by decide +kernel

/-- The frames of channel 1 while its head or a FILL frame is SENDING. -/
def stillSending (fill : Option Nat) (line : Nat) (buffer : List Place) : State :=
  pressed (some ⟨20, 4⟩) { buffer, line, period := 5, terminal := 2, sendingFill := fill } 1

/-- FixedPeriodBegins with the frame before SENDING, TILE or FILL, and the next tile HELD, READING, without a place, or none
left; and with an empty buffer. -/
theorem witness_FixedPeriodBegins_sending :
    (∀ q ∈ [(none, [{ heldPlace 0 with state := .sending }, heldPlace 1]), (none, [{ heldPlace 0 with state := .sending }, readingPlace 1]),
        (none, [{ heldPlace 0 with state := .sending }]), (some 0, [heldPlace 0]), (some 0, [readingPlace 0]), (some 0, [])],
      ∀ line ∈ [0, 1], let s := stillSending q.1 line q.2
      s.power = .running ∧ (s.channel 1).work = some (.delivery 4) ∧ s.table.find 4 = some (viewOf (some ⟨20, 4⟩) .running (some 1)) ∧
      (s.channel 1).state = .running ∧ (s.channel 1).periodFrame = none ∧ 4 ≤ (s.channel 1).period ∧
      (s.channel 1).frameSending = true ∧ (s.channel 1).buffer = q.2 ∧
      (viewOf (some ⟨20, 4⟩) .running (some 1)).walk.tileAt 2 line 0 = if line = 0 then some 0 else none) ∧
    ((stillSending none 0 []).channel 1).buffer = [] ∧ ((stillSending none 0 []).channel 1).sendingFill = none ∧
    ((stillSending none 0 []).channel 1).frameSending = false := by decide +kernel

/-- With the frame before it SENDING the period's frame is chosen and waits for its end (R112). -/
theorem test_period_waits :
    (∃ t, exec (.fixedPeriodBegins 1) (stillSending none 1 [{ heldPlace 0 with state := .sending }, heldPlace 1]) = .next t ∧
      (t.channel 1).periodFrame = some ⟨none, false⟩ ∧ ((t.channel 1).buffer.map (·.state)) = [.sending, .held]) ∧
    ∃ t, exec (.fixedPeriodBegins 1) (stillSending (some 0) 1 [readingPlace 0]) = .next t ∧
      (t.channel 1).periodFrame = some ⟨some 0, false⟩ :=
  ⟨⟨_, rfl, by decide +kernel, by decide +kernel⟩, _, rfl, by decide +kernel⟩

/-- StopDelivery: no record, a record in each state that a stop leaves alone, and the three that it stops. -/
theorem witness_StopDelivery :
    Asks .desk 0x32 [.one] [v 9] (reported .done) ∧ (reported .done).table.find 9 = none ∧
    (∀ state ∈ [DeliveryState.waiting, .stopping, .done, .stopped, .failed], free .desk [.one] [v 4] (reported state) = true ∧
      (reported state).table.find 4 = some (viewOf none state none)) ∧
    (∀ q ∈ [(.sending, true), (.held, false)],
      let s := pressed none { buffer := [{ heldPlace 0 with state := q.1 }], terminal := 2 } 1
      free .desk [.one] [v 4] s = true ∧ s.table.find 4 = some (viewOf none .running (some 1)) ∧
      (s.channel 1).frameSending = q.2 ∧ 4 ∉ s.mover.queue) :=
  ⟨asks (by decide +kernel), by decide +kernel, by decide +kernel, by decide +kernel⟩

/-- Delivery 4 for item 3 of order 77, WAITING with no channel, and RUNNING on channel 1, VARIABLE or FIXED. -/
def waitingSale : Delivery := { saleOf .waiting none false with channel := none }
def runningSale (pacing : Option Pacing) : Delivery := { saleOf .running none false with pacing, sent := 1 }

/-- A part with such a delivery: in the work queue, or on channel 1 with its head HELD. -/
def selling (d : Delivery) (order : OrderState) : State :=
  let s := pressed none { buffer := [heldPlace 0], terminal := 2, period := 5, periodFrame := d.pacing.map fun _ => ⟨none, true⟩ } 1
  { s with
    mover := if d.channel = none then { shop.mover with queue := [4] } else s.mover
    table := { records := [d], lastHandle := 4 }, book := saleBook order }

/-- StopDelivery and FixedPeriodBegins on a fulfilment delivery of an OPEN and of a CLOSING order. -/
theorem witness_StopDelivery_sale : ∀ order ∈ [OrderState.opened, .closing],
    ∀ d ∈ [waitingSale, runningSale none, runningSale (some ⟨20, 4⟩)],
    let s := selling d order
    free .desk [.one] [v 4] s = true ∧ s.table.find 4 = some d ∧ s.book = saleBook order ∧
    (d.state = .waiting ∧ d.channel = none ∨ d.state = .running ∧ d.channel = some 1 ∧ (s.channel 1).frameSending = false ∧
      4 ∉ s.mover.queue ∧ (s.channel 1).work = some (.delivery 4) ∧ (s.channel 1).state = .running ∧
      ((s.channel 1).periodFrame.isSome = d.pacing.isSome)) := by decide +kernel

/-- STOP_DELIVERY of a waiting sale posts nothing sent, makes its item READY and closes the CLOSING order (R115, R166). -/
theorem test_stop_sale : ∃ t, exec (.stopDelivery .desk 7 [1, 4]) (selling waitingSale .closing) = .next t ∧
    t.book.item 77 3 = some (itemOf 3 .ready) ∧ ((t.book.order 77).map (·.state)) = some .closed ∧
    t.meter.log = [.posting false 77 3 4 0 0 0 0 0 .crept false false] ∧ (t.table.find 4).map (·.cause) = some (some .requested) :=
  ⟨_, rfl, by decide +kernel, by decide +kernel, by decide +kernel, by decide +kernel⟩

/-! ### Restoration -/

/-- The fields of RESTORE_PAGE for page 3, revision 0, with a tone source code. -/
def restoreFields (code : Nat) : Fields := [v 10, v 3, v 0, v code]

/-- The same job for another revision. -/
def otherJob (state : JobState) : Job := { jobOf state with revision := ⟨13, 1, 0⟩ }

/-- RestorePage: ALREADY_RESTORED, NOT_RESTORABLE, a join, a full queue, behind an active job, and at once. -/
theorem witness_RestorePage :
    (∀ code ∈ [0, 1, 32], ∀ s ∈ [priced, withRev (fun x => { x with damage := { overflow := true } }), withJobs [jobOf .queued] shop,
        withJobs (List.replicate 16 (otherJob .queued)) shop, withJobs [otherJob .surveying] shop, shop],
      free .desk [.one, .one, .one, .one] (restoreFields code) s = true ∧
      ((s.cat.resolve 10 3 (some 0)).toOption.map Prod.fst) = some ⟨10, 3, 0⟩) ∧
    ((priced.cat.revision ⟨10, 3, 0⟩).map (·.restored)) = some (some (restoredOf .auto)) ∧
    shop.cat.resolve 10 3 (some 0) = .ok (⟨10, 3, 0⟩, rev3) ∧ rev3.damage.overflow = false ∧ rev3.restored = none ∧
    (withJobs [jobOf .queued] shop).engine.queue.find? (fun j => j.revision = ⟨10, 3, 0⟩ && j.source = .auto) = some (jobOf .queued) ∧
    (withJobs [jobOf .queued] shop).engine.find 1 = some (jobOf .queued) ∧
    (∀ j ∈ List.replicate 16 (otherJob .queued), j.revision ≠ ⟨10, 3, 0⟩) ∧ (otherJob .surveying).state ≠ .queued ∧
    shop.cat.revision ⟨10, 3, 0⟩ = some rev3 ∧ shop.alloc.place (2 * 1) = .ok 11 ∧
    shop.alloc.find 0 = some ⟨0, 0, 2, .raw ⟨10, 3, 0⟩, .live, 0, false⟩ ∧ shop.store.waiting = [] ∧
    shop.store.inFlight = none := by decide +kernel

/-- A read of the restoration port in flight. -/
def restoring (s : State) (kind : TransferKind) : State := { s with store := { s.store with inFlight := some ⟨.restoration, 0, kind⟩ } }

/-- CancelRestore: no job, a clear desk flag, a job with requesters, a QUEUED job of the desk alone, an active one under way. -/
theorem witness_CancelRestore :
    (∀ q ∈ [(2, jobOf .queued), (1, { jobOf .queued with desk := false }), (1, { jobOf .queued with requesters := [(77, 1)] }),
        (1, { jobOf .queued with scratch := none }), (1, jobOf .surveying), (1, jobOf .correcting)],
      free .desk [.one] [v q.1] (restoring (withJobs [q.2] shop) .read) = true ∧
      (restoring (withJobs [q.2] shop) .read).engine.find 1 = some q.2 ∧
      (restoring (withJobs [q.2] shop) .read).engine.find 2 = none ∧
      (restoring (withJobs [q.2] shop) .read).store.inFlight = some ⟨.restoration, 0, .read⟩) ∧
    shop.engine.ended = [] ∧ (jobOf .queued).desk = true ∧ (jobOf .queued).requesters = [] := by decide +kernel

/-- CancelRestore: an active job with no transfer in flight, with no cancel mark and with each mark. -/
theorem witness_CancelRestore_at_once : ∀ state ∈ [JobState.surveying, .correcting],
    ∀ cancel ∈ [none, some .requested, some .retired],
    free .desk [.one] [v 1] (withJobs [{ jobOf state with cancel }] shop) = true ∧
    (withJobs [{ jobOf state with cancel }] shop).engine.find 1 = some { jobOf state with cancel } ∧
    (withJobs [{ jobOf state with cancel }] shop).store.inFlight = none ∧ (jobOf state).desk = true ∧
    (jobOf state).requesters = [] := by decide +kernel

/-- The reply to a CANCEL_RESTORE that ends the job at once carries its mark (R127, Table 7-2). -/
theorem test_cancel_at_once : ∃ t, exec (.cancelRestore .desk 7 [1, 1]) (withJobs [jobOf .surveying] shop) = .next t ∧
    t.desk.replies = [{ tag := 7, answer := { result := .ok, fields := [.one 5, .one 0, .one 1] } }] ∧ t.engine.queue = [] :=
  ⟨_, rfl, by decide +kernel, by decide +kernel⟩

/-- ToneProfiles: the greatest profile number at the narrowest range, each value next to its range, and a range of 15. -/
theorem witness_ToneProfiles :
    (∀ q ∈ [(31, 239, 255, 255), (0, 0, 16, 0), (32, 0, 16, 0), (0, 256, 255, 0), (0, 0, 256, 0), (0, 0, 16, 256), (0, 0, 15, 0)],
      free .desk [.one, .one, .one, .one] [v q.1, v q.2.1, v q.2.2.1, v q.2.2.2] shop = true) ∧
    checkValues [Profile.identity.tone.b, Profile.identity.tone.w, Profile.identity.tone.s] = Profile.identity.check ∧
    checkValues [0, 255, 8] ≠ ({ Profile.identity with tone := ⟨0, 255, 8⟩ } : Profile).check := by decide +kernel

theorem witness_ToneMapping : 239 + 16 ≤ 255 ∧ (∀ x ∈ [239, 240, 254, 255], x ≤ 255) ∧ 239 < 240 ∧ 254 < 255 ∧
    ([255] : List Byte)[0]? = some 255 := by decide +kernel

/-- SurveyReadComplete: the first of two tiles and the last, with the revision's list clear and naming the tile. -/
theorem witness_SurveyReadComplete :
    (∀ i ∈ [0, 1], ∀ f ∈ [id, fun x : Revision => { x with damage := { entries := [⟨1, .raw⟩] } }],
      let s := restoring (withJobs [{ jobOf .surveying with surveyed := i }] (withRev f)) .read
      s.power = .running ∧ s.store.inFlight = some ⟨.restoration, 0, .read⟩ ∧ 0 < s.store.slotCount ∧
      s.engine.queue = [{ jobOf .surveying with surveyed := i }] ∧ (jobOf .surveying).cancel = none ∧
      s.cat.revision (jobOf .surveying).revision = some (f rev3) ∧ (f rev3).damage.overflow = false ∧
      (f rev3).damage.entries.length < 8 ∧ s.alloc.find (f rev3).raw = some ⟨0, 0, 2, .raw ⟨10, 3, 0⟩, .live, 0, false⟩ ∧
      s.store.waiting = []) := by decide +kernel

/-- A full list of damaged raw tiles from n on. -/
def listed (n : Nat) : DamageList := { entries := (List.range 8).map fun i => ⟨n + i, .raw⟩ }

/-- SurveyReadComplete and Correction at a boundary: slot 0 holds an undamaged tile, the job is active with or without a mark,
and the revision's list has overflowed or not. -/
theorem witness_boundary :
    (∀ s, Memory.readSlot (Memory.upset (tileAt 0 evenCheck s).store.mem 0 []) 0 = ⟨evenPixels, evenCheck⟩) ∧
    checkBytes evenPixels = evenCheck ∧
    (∀ state ∈ [JobState.surveying, .correcting], ∀ cancel ∈ [none, some CancelCause.requested, some .retired],
      ∀ overflow ∈ [true, false],
      let s := restoring (withJobs [{ jobOf state with cancel }] (withRev fun x => { x with damage := { overflow } })) .read
      s.power = .running ∧ 0 < s.store.slotCount ∧ s.engine.queue = [{ jobOf state with cancel }] ∧
      s.store.inFlight = some ⟨.restoration, 0, .read⟩ ∧
      s.cat.revision ⟨10, 3, 0⟩ = some { rev3 with damage := { overflow } }) :=
  ⟨read_tileAt 0 evenCheck, rfl, by decide +kernel⟩

/-- SurveyReadComplete and Correction with a damaged read: the slot belongs to the revision, whose list is full and holds its
tile or not, or takes one more. -/
theorem witness_overflow :
    (∀ s, Memory.readSlot (Memory.upset (tileAt 0 (evenCheck + 1) s).store.mem 0 []) 0 = ⟨evenPixels, evenCheck + 1⟩) ∧
    checkBytes evenPixels ≠ evenCheck + 1 ∧
    (∀ state ∈ [JobState.surveying, .correcting],
      let s := restoring (withJobs [jobOf state] (withRev fun x => { x with damage := listed 1 })) .read
      s.cat.revision ⟨10, 3, 0⟩ = some { rev3 with damage := listed 1 } ∧ s.Overflows 0 ⟨10, 3, 0⟩ (listed 1)) ∧
    ¬ shop.Overflows 0 ⟨10, 3, 0⟩ (listed 0) ∧ ¬ shop.Overflows 0 ⟨10, 3, 0⟩ { entries := [⟨1, .raw⟩] } := by
  refine ⟨read_tileAt 0 _, evenCheck_wrong, ?_, ?_, fun h => absurd h.1 (by decide)⟩
  · intro state hs
    simp only [List.mem_cons, List.not_mem_nil, or_false] at hs
    rcases hs with rfl | rfl
    all_goals
      exact ⟨by decide +kernel, by decide, ⟨0, 0, 2, .raw ⟨10, 3, 0⟩, .live, 0, false⟩, .raw, by decide +kernel, rfl,
        .inl ⟨rfl, rfl⟩, by decide +kernel⟩
  · rintro ⟨-, e, rendition, he, -, ho, hn⟩
    have h : shop.alloc.holding 0 = some ⟨0, 0, 2, .raw ⟨10, 3, 0⟩, .live, 0, false⟩ := by decide +kernel
    rw [h] at he; cases he
    rcases ho with ⟨-, rfl⟩ | ⟨ho, -⟩
    · exact hn (by decide +kernel)
    · cases ho

/-- A damaged survey read that the full list cannot take sets DAMAGE_OVERFLOW, and the job FAILS with that end cause (R9, R75,
R137). -/
theorem test_overflow_read :
    let s := restoring (withJobs [jobOf .surveying] (withRev fun x => { x with damage := listed 1 })) .read
    let u := s.recordDamage 0 .restoration
    ((u.cat.revision ⟨10, 3, 0⟩).map (·.damage)) = some { listed 1 with overflow := true } ∧
    (u.surveyArrives noTile true (jobOf .surveying) rev3).engine.ended.map (fun j => (j.state, j.endCause)) =
      [(.failed, some .damageOverflow)] := by decide +kernel

/-- A part in which the scratch extent 7 of page 3 is BUILDING and the raw extent has readers. -/
def building (readers : Nat) (s : State) : State :=
  { s with alloc := { shopAlloc with
      extents := (shopAlloc.modExtent 0 fun e => { e with readers }).extents ++
        [⟨7, 11, 2, .restored ⟨10, 3, 0⟩, .building, 0, false⟩] } }

/-- Order 77 with item 1 WAITING_RESTORE, on an account without a ceiling. -/
def waitingBook : OrderBook :=
  { saleBook .opened with orders := [{ id := 77, account := 3310, discount := 32, accumulator := 740, units := 12
                                       items := [itemOf 1 .waitingRestore, itemOf 2 .ready] }] }

/-- SurveyReadComplete: the end of a job without a publish, of the desk, of an item, and of both. -/
theorem witness_SurveyReadComplete_end :
    (∀ desk ∈ [true, false], ∀ requesters ∈ [[], [(77, 1)]], ∀ state ∈ [JobState.surveying, .correcting], ∀ n ∈ [1, 2],
      let j : Job := { jobOf state with desk, requesters }
      let s := building n { withJobs [j] shop with book := waitingBook }
      s.cat.revision j.revision = some rev3 ∧ j.scratch = some 7 ∧ 7 ≠ rev3.raw ∧
      s.alloc.find 7 = some ⟨7, 11, 2, .restored ⟨10, 3, 0⟩, .building, 0, false⟩ ∧
      s.cat = shop.cat ∧ s.alloc.find rev3.raw = some ⟨0, 0, 2, .raw ⟨10, 3, 0⟩, .live, n, false⟩ ∧
      s.book.item 77 1 = some (itemOf 1 .waitingRestore) ∧ s.book.item 77 2 = some (itemOf 2 .ready)) := by decide +kernel

/-- The survey of a tile: an edge, the last step to the void limit with room for the defect, the end of a row, a faint tile
at the fade run. -/
theorem witness_SurveyReadComplete_tile :
    0 < (figuresOf false 97).edges ∧ (figuresOf true 0).edges = 0 ∧ surveyJob.settings.voidLimit = 4 ∧
    ({ surveyJob with voidCounter := 2 } : Job).voidCounter = 2 ∧ ({ surveyJob with voidCounter := 1 } : Job).voidCounter = 1 ∧
    (5 + 1) % 6 = 0 ∧ (2 + 1) % 6 ≠ 0 ∧ surveyJob.settings.contrast ≤ (figuresOf false 0).high - (figuresOf false 0).low ∧
    (figuresOf true 0).high - (figuresOf true 0).low < surveyJob.settings.contrast ∧ surveyJob.openBand = .closed ∧
    ({ surveyJob with fadeCounter := 2 } : Job).fadeCounter + 1 = surveyJob.settings.fadeRun ∧
    ({ surveyJob with fadeCounter := 1 } : Job).fadeCounter + 1 ≠ surveyJob.settings.fadeRun ∧
    surveyJob.defects.length < 8 := by decide +kernel

/-- The survey job with a band or a void run open, in a list of one defect or of eight. -/
def openJob (n : Nat) (band void : OpenDefect) : Job :=
  { surveyJob with defects := List.replicate n ⟨.fadedBand, 2, 3⟩, openBand := band, openVoid := void, voidCounter := 0, fadeCounter := 2 }

/-- A faint tile without an edge lengthens the open band and the open void run, and at a full list opens a band that is not
kept (R134 to R136). -/
theorem test_survey_open :
    ((openJob 1 (.kept 0) .closed).surveyTile 6 2 none).defects = [⟨.fadedBand, 2, 4⟩] ∧
    ((openJob 1 .closed (.kept 0)).surveyTile 6 2 (some (figuresOf false 0))).defects = [⟨.fadedBand, 2, 4⟩] ∧
    ((openJob 8 .closed .notKept).surveyTile 6 2 none).openBand = .notKept ∧
    ((openJob 8 .closed .notKept).surveyTile 6 2 none).defectsOverflow = true := by decide +kernel

/-- SurveyReadComplete: a tile that lengthens an open band or an open void run, and a full list at the fade detector. -/
theorem witness_SurveyReadComplete_open :
    (openJob 1 (.kept 0) .closed).defects[0]? = some ⟨.fadedBand, 2, 3⟩ ∧ (openJob 1 (.kept 0) .closed).openVoid ≠ .kept 0 ∧
    (openJob 1 .closed (.kept 0)).voidCounter = 0 ∧ (openJob 1 .closed (.kept 0)).openBand ≠ .kept 0 ∧
    (openJob 8 .closed .notKept).fadeCounter + 1 = (openJob 8 .closed .notKept).settings.fadeRun ∧
    8 ≤ (openJob 8 .closed .notKept).defects.length ∧ (openJob 8 .closed .notKept).openBand = .closed := by decide +kernel

/-- A part in the correction pass, with the scratch extent 7 and a reader on the raw one, in which no edition is RETIRING. -/
def correcting (corrected : Nat) (kind : TransferKind) : State :=
  restoring (withJobs [{ jobOf .correcting with corrected }]
    { shop with
      cat := { shop.cat with editions := shop.cat.editions.filter (·.state ≠ .retiring) }
      alloc := (building 1 shop).alloc }) kind

/-- Correction: a read, the write of the first of two tiles and the write of the last. -/
theorem witness_Correction :
    (∀ corrected ∈ [0, 1], let s := correcting corrected .read
      s.power = .running ∧ 0 < s.store.slotCount ∧ s.engine.queue = [{ jobOf .correcting with corrected }] ∧
      s.cat.revision ⟨10, 3, 0⟩ = some rev3 ∧ s.alloc.find 7 = some ⟨7, 11, 2, .restored ⟨10, 3, 0⟩, .building, 0, false⟩ ∧
      s.store.waiting = [] ∧ s.store.inFlight = some ⟨.restoration, 0, .read⟩ ∧
      s.alloc.find rev3.raw = some ⟨0, 0, 2, .raw ⟨10, 3, 0⟩, .live, 1, false⟩ ∧ (∀ e ∈ s.cat.editions, e.state ≠ .retiring)) ∧
    (jobOf .correcting).tone = some ⟨0, 255, 8⟩ ∧ (jobOf .correcting).scratch = some 7 ∧ (jobOf .correcting).desk = true ∧
    (jobOf .correcting).requesters = [] ∧ rev3.raw ≠ 7 ∧ 0 + 1 ≠ rev3.width * rev3.height ∧ 1 + 1 = rev3.width * rev3.height ∧
    (∀ corrected, (correcting corrected (.write evenPixels none)).store.inFlight =
      some ⟨.restoration, 0, .write evenPixels none⟩) ∧ evenPixels.length = 4096 :=
  ⟨by decide +kernel, rfl, rfl, rfl, rfl, by decide, by decide, by decide, fun _ => rfl, evenPixels_length⟩

/-- The last write of a correction for item 1 of order 77 alone. -/
def publishing : State :=
  restoring (withJobs [{ jobOf .correcting with corrected := 1, desk := false, requesters := [(77, 1)] }]
    { building 1 shop with
      book := waitingBook, cat := { shop.cat with editions := shop.cat.editions.filter (·.state ≠ .retiring) } })
    (.write evenPixels none)

/-- Correction: a write with a cancel mark, and the publish for one item. -/
theorem witness_Correction_publish :
    publishing.power = .running ∧ publishing.store.inFlight = some ⟨.restoration, 0, .write evenPixels none⟩ ∧
    (∀ e ∈ publishing.cat.editions, e.state ≠ .retiring) ∧ publishing.cat.revision ⟨10, 3, 0⟩ = some rev3 ∧
    publishing.alloc.find 7 = some ⟨7, 11, 2, .restored ⟨10, 3, 0⟩, .building, 0, false⟩ ∧
    publishing.book.item 77 1 = some (itemOf 1 .waitingRestore) ∧ (itemOf 1 .waitingRestore).target = .page ⟨10, 3, 0⟩ ∧
    publishing.book.account 3310 = some { id := 3310, owed := 900, ceiling := 0, orderCount := 1 } ∧
    (∀ cause, (restoring (withJobs [{ jobOf .correcting with cancel := some cause }] shop) (.write evenPixels none)).engine.queue =
      [{ jobOf .correcting with cancel := some cause }]) :=
  ⟨rfl, rfl, by decide +kernel, by decide +kernel, by decide +kernel, by decide +kernel, rfl, by decide +kernel, fun _ => rfl⟩

/-- The last write of a correction of a page that has a rendition already, in extent 8. -/
def replacing (state : ExtentState) (readers : Nat) : State :=
  let s := correcting 1 (.write evenPixels none)
  { s with
    cat := s.cat.modRevision ⟨10, 3, 0⟩ fun x => { x with restored := some (restoredOf (.profile 2)) }
    alloc := { s.alloc with extents := s.alloc.extents ++ [⟨8, 13, 2, .restored ⟨10, 3, 0⟩, state, readers, false⟩] } }

/-- Correction: a publish over a rendition that is LIVE without and with a reader, and MOVING. -/
theorem witness_Correction_replaces : ∀ q ∈ [(ExtentState.live, 0), (.live, 1), (.moving, 0)],
    (replacing q.1 q.2).cat.revision ⟨10, 3, 0⟩ = some { rev3 with restored := some (restoredOf (.profile 2)) } ∧
    (replacing q.1 q.2).alloc.find 8 = some ⟨8, 13, 2, .restored ⟨10, 3, 0⟩, q.1, q.2, false⟩ ∧
    (replacing q.1 q.2).alloc.find 7 = some ⟨7, 11, 2, .restored ⟨10, 3, 0⟩, .building, 0, false⟩ ∧
    (replacing q.1 q.2).alloc.find 0 = some ⟨0, 0, 2, .raw ⟨10, 3, 0⟩, .live, 1, false⟩ ∧
    (replacing q.1 q.2).engine.queue = [{ jobOf .correcting with corrected := 1 }] ∧
    (∀ e ∈ (replacing q.1 q.2).cat.editions, e.state ≠ .retiring) := by decide +kernel

/-! ### Accounts, orders and items -/

/-- A part with a full account table. -/
def fullAccounts : State :=
  { shop with book := { shop.book with accounts := (List.range 256).map fun i => { id := i + 1, ceiling := 0 } } }

/-- AccountsAndOrders: each refusal of OPEN_ACCOUNT and its success, REMOVE_ACCOUNT of no, a busy and a free account, and
OPEN_ORDER. -/
theorem witness_AccountsAndOrders :
    (∀ q ∈ [(0, 0), (1, 16777216), (3310, 0), (1, 16777215), (65535, 0)], free .sales [.one, .two] [v q.1, v q.2] shop = true) ∧
    (shop.book.account 3310).isSome = true ∧ shop.book.account 1 = none ∧ shop.book.account 65535 = none ∧
    shop.book.accounts.length < 256 ∧ Asks .sales 0x50 [.one, .two] [v 300, none] fullAccounts ∧
    fullAccounts.book.account 300 = none ∧ 256 ≤ fullAccounts.book.accounts.length ∧
    (∀ id ∈ [1, 3310, 4100], free .sales [.one] [v id] shop = true) ∧
    ((shop.book.account 3310).map (·.orderCount)) = some 2 ∧ shop.book.account 4100 = some { id := 4100, ceiling := 0 } ∧
    Asks .sales 0x55 [.one, .one] [v 4100, v 255] shop ∧ shop.book.orders.length < 64 :=
  ⟨by decide +kernel, by decide +kernel, by decide +kernel, by decide +kernel, by decide +kernel, asks (by decide +kernel),
   by decide +kernel, by decide +kernel, by decide +kernel, by decide +kernel, by decide +kernel, asks (by decide +kernel),
   by decide +kernel⟩

/-- A part with a full order table. -/
def fullOrders : State :=
  { shop with book := { shop.book with orders := (List.range 64).map fun i => { id := i + 1, account := 3310, discount := 0 } } }

/-- AccountsAndOrders: each refusal of OPEN_ORDER. -/
theorem witness_AccountsAndOrders_refused :
    (∀ q ∈ [(4100, 256), (1, 255)], free .sales [.one, .one] [v q.1, v q.2] shop = true) ∧ shop.book.account 1 = none ∧
    Asks .sales 0x55 [.one, .one] [v 4100, v 0] fullOrders ∧ fullOrders.book.account 4100 ≠ none ∧
    64 ≤ fullOrders.book.orders.length :=
  ⟨by decide +kernel, by decide +kernel, asks (by decide +kernel), by decide +kernel, by decide +kernel⟩

/-- CloseAndReleaseOrder: order 77 OPEN and order 80 CLOSED, each asked to close and to be released. -/
theorem witness_CloseAndReleaseOrder :
    (∀ id ∈ [77, 80], free .sales [.one] [v id] shop = true) ∧ ((shop.book.order 77).map (·.state)) = some .opened ∧
    (∀ o ∈ shop.book.order 77, (o.items.map (·.number)).Nodup) ∧ shop.engine.queue = [] ∧
    ((shop.book.order 80).map (·.state)) = some .closed ∧ (shop.book.account 3310).isSome = true := by decide +kernel

/-- CloseAndReleaseOrder: an order whose waiting item stands on a job of the desk, of another item too, or of none else. -/
theorem witness_CloseAndReleaseOrder_jobs :
    (∀ q ∈ [(true, [(77, 1)]), (false, [(77, 1), (80, 1)]), (false, [(77, 1)])],
      let j : Job := { jobOf .queued with desk := q.1, requesters := q.2, scratch := none }
      let s : State := { withJobs [j] shop with book := waitingBook }
      free .sales [.one] [v 77] s = true ∧ ((s.book.order 77).map (·.state)) = some .opened ∧
      ((s.book.order 77).map (·.items.map fun i => (i.number, i.state))) = some [(1, .waitingRestore), (2, .ready)] ∧
      s.engine.queue = [j] ∧ (s.engine.queue.flatMap (·.requesters)).Nodup ∧ (s.engine.queue.map (·.id)).Nodup ∧
      j.state = .queued) := by decide +kernel

/-- Closing an order takes its last item off a QUEUED job, and the job with it (R126, R165). -/
theorem test_close_waiting : ∃ t, exec (.closeOrder .sales 7 [1, 77])
      { withJobs [{ jobOf .queued with desk := false, requesters := [(77, 1)], scratch := none }] shop with book := waitingBook } =
        .next t ∧ t.engine.queue = [] ∧
    t.book.item 77 1 = some { itemOf 1 .ready with finish := .raw, downgraded := true } :=
  ⟨_, rfl, by decide +kernel, by decide +kernel⟩

/-- ADD_ITEM of page 3 to order 77 with a finish and a region of the greatest size. -/
def addFields (finish : Option (List Nat)) : Fields :=
  [v 77, v 10, v 3, none, none, finish, some [0, 0, 255, 255], v 4, v 1, v 1, v 1]

/-- A job of page 3 with n requesters. -/
def sharedJob (n : Nat) : Job := { jobOf .queued with requesters := List.replicate n (80, 1) }

/-- Items: READY with finish RAW and with the AUTO rendition, waiting on a job it joins and on a new one, the two refusals, and
REMOVE_ITEM of an item in each state. -/
theorem witness_Items :
    (∀ q ∈ [(none, shop), (v 0, shop), (v 1, priced), (v 1, withJobs [sharedJob 3] shop), (v 1, withJobs [otherJob .surveying] shop),
        (v 1, withRev (fun x => { x with damage := { overflow := true } })), (v 1, withJobs [sharedJob 4] shop)],
      free .sales addItemLayout (addFields q.1) q.2 = true ∧ (addFields q.1).walkInRange 6 = true ∧
      ((q.2.cat.resolve 10 3 none).toOption.map Prod.fst) = some ⟨10, 3, 0⟩ ∧
      clipRegion 2 1 ((addFields q.1).region 6) = some (⟨0, 0, 2, 1⟩, true) ∧ q.2.book = shop.book) ∧
    pageNameInRange 10 3 none = true ∧ ((shop.book.order 77).map (·.state)) = some .opened ∧
    ((shop.book.order 77).map (·.items.length)) = some 3 ∧ ((shop.book.order 77).map (·.freeNumber)) = some 4 ∧
    ((restoredOf .auto).source = .auto) ∧ rev3.restored = none ∧ rev3.damage.overflow = false ∧
    (withJobs [sharedJob 3] shop).engine.queue.find? (fun j => j.revision = ⟨10, 3, 0⟩ && j.source = .auto) = some (sharedJob 3) ∧
    (sharedJob 3).requesters.length < 4 ∧ 4 ≤ (sharedJob 4).requesters.length ∧
    (∀ j ∈ [otherJob .surveying], j.revision ≠ ⟨10, 3, 0⟩) ∧ (otherJob .surveying).state ≠ .queued ∧
    (∀ q ∈ [(1, ItemState.ready), (2, .delivered), (3, .inDelivery)], free .sales [.one, .one] [v 77, v q.1] shop = true ∧
      ((shop.book.order 77).bind (·.item q.1)) = some (itemOf q.1 q.2)) := by decide +kernel

/-- A part whose order 77 holds 16 items. -/
def fullItems : State :=
  { shop with book := shop.book.modOrder 77 fun o => { o with items := (List.range 16).map fun i => itemOf (i + 1) .ready } }

/-- Items: a full order; a full job queue; and an empty one, with a place for the scratch extent and without. -/
theorem witness_Items_refused :
    (∀ q ∈ [(v 0, fullItems), (v 1, withJobs (List.replicate 16 (otherJob .queued)) shop), (v 1, shop),
        (v 1, { shop with alloc := { shopAlloc with runs := [] } })],
      free .sales addItemLayout (addFields q.1) q.2 = true ∧
      ((q.2.cat.resolve 10 3 none).toOption.map Prod.fst) = some ⟨10, 3, 0⟩ ∧ q.2.cat.revision ⟨10, 3, 0⟩ = some rev3) ∧
    ((fullItems.book.order 77).map (·.items.length)) = some 16 ∧ (∀ j ∈ List.replicate 16 (otherJob .queued), j.revision ≠ ⟨10, 3, 0⟩) ∧
    shop.engine.queue = [] ∧ shop.alloc.place 2 = .ok 11 ∧ ({ shopAlloc with runs := [] } : Allocator).place 2 = .error (.noSpace false) ∧
    shop.alloc.find rev3.raw = some ⟨0, 0, 2, .raw ⟨10, 3, 0⟩, .live, 0, false⟩ ∧ shop.store.waiting = [] ∧
    shop.store.inFlight = none := by decide +kernel

/-- ADD_ITEM of photograph 2050 with a finish. -/
def addPhoto (finish : Option (List Nat)) : Fields := [v 77, none, none, none, v 2050, finish, none, none, none, none, none]

/-- Items: a photograph with finish RAW, left out and RESTORED, to an order with room and to a full one. -/
theorem witness_Items_photo :
    (∀ finish ∈ [none, v 0, v 1], ∀ s ∈ [shop, fullItems], free .sales addItemLayout (addPhoto finish) s = true ∧
      (addPhoto finish).walkInRange 6 = true ∧ clipRegion 1 1 ((addPhoto finish).region 6) = some (⟨0, 0, 1, 1⟩, false) ∧
      ((s.cat.photo 2050).map (·.state)) = some .complete) := by decide +kernel

/-- The part with the waiting item 1 of order 77 on a job. -/
def waitingOn (j : Job) : State := { withJobs [j] shop with book := waitingBook }

/-- Items: REMOVE_ITEM of a waiting item of a job that keeps the desk or another item, of a QUEUED one of it alone, and of an
active one of it alone, with a transfer in flight and without. -/
theorem witness_Items_waiting :
    (∀ q ∈ [(JobState.queued, true, [(77, 1)]), (.queued, false, [(77, 1), (80, 1)]), (.queued, false, [(77, 1)]),
        (.surveying, false, [(77, 1)]), (.correcting, false, [(77, 1)])],
      let j : Job := { jobOf q.1 with desk := q.2.1, requesters := q.2.2, scratch := none }
      ∀ s ∈ [waitingOn j, restoring (waitingOn j) .read], free .sales [.one, .one] [v 77, v 1] s = true ∧
      (s.book.item 77 1) = some (itemOf 1 .waitingRestore) ∧ (s.engine.queue.map (·.id)).Nodup ∧
      s.engine.queue.find? (fun j => j.requesters.contains (77, 1)) = some j) ∧
    (∀ j, (waitingOn j).store.inFlight = none ∧ (restoring (waitingOn j) .read).store.inFlight = some ⟨.restoration, 0, .read⟩) :=
  ⟨by decide +kernel, fun _ => ⟨rfl, rfl⟩⟩

/-- REMOVE_ITEM of the only item of a QUEUED job cancels the job (R126, R164). -/
theorem test_remove_waiting : ∃ t, exec (.removeItem .sales 7 [3, 77, 1])
      (waitingOn { jobOf .queued with desk := false, requesters := [(77, 1)], scratch := none }) = .next t ∧
    t.engine.queue = [] ∧ t.book.item 77 1 = none ∧ (t.book.item 77 2).isSome = true :=
  ⟨_, rfl, by decide +kernel, by decide +kernel, by decide +kernel⟩

/-- AccountEvaluation: owed at and next to the ceiling in every status, the ceiling 0, a running timer, and the ends of the range
of SET_CEILING and SETTLE. -/
theorem witness_AccountEvaluation :
    (∀ status ∈ [AccountStatus.active, .watch, .cutOff, .reinstating], ∀ owed ∈ [999, 1000],
      (withBook (bookOf owed status (some 70) 0 0)).book.account 3310 =
        some { id := 3310, owed, ceiling := 1000, status, timer := some 70, orderCount := 1 }) ∧
    shop.book.account 4100 = some { id := 4100, ceiling := 0 } ∧ (withBook (bookOf 0 .watch (some 70) 0 0)).power = .running ∧
    (∀ n ∈ [0, 16777215, 16777216], free .sales [.one, .two] [v 3310, v n] shop = true) := by decide +kernel

/-- Deliveries of account 3310: handles 9 and 4 of order 77 and 2 of order 80, and a desk view 5. -/
def sold : State :=
  { shop with table := { lastHandle := 9, records :=
      [(9, some 77), (2, some 80), (5, none), (4, some 77)].map fun q =>
        { viewOf none .waiting none with handle := q.1, order := q.2.map fun o => (o, 1) } } }

/-- AccountEvaluation: the handles are distinct and the order ids ascend. -/
theorem witness_AccountEvaluation_deliveries : (sold.table.records.map (·.handle)).Nodup ∧
    (sold.book.orders.map (·.id)).Pairwise (· < ·) := by decide +kernel

/-- A cut-off takes the deliveries in ascending order id, and within an order in ascending handle (R157). -/
theorem test_deliveries_order : sold.deliveriesOf 3310 = [4, 9, 2] ∧ sold.deliveriesOf 4100 = [] := by decide +kernel

/-- Table 8-4, course B: the WATCH timer expires at 60 s and the account is CUT_OFF with its timer stopped. -/
theorem test_watch_expires :
    ∃ t, exec (.watchTimerExpires 3310) (withBook (bookOf 1163 .watch (some 300000000) 240 275)) = .next t ∧
      t.book = bookOf 1163 .cutOff none 240 275 ∧ t.now = 300000000 ∧ t.sales.notices.sources[1]? = some { latched := true } :=
  ⟨_, rfl, by decide +kernel, by decide +kernel, by decide +kernel⟩

/-- Table 8-4, course B: SETTLE of 500 leaves 663 and begins a reinstatement of 10 s. -/
theorem test_settle :
    ∃ t, exec (.settle .sales 7 [3, 3310, 0, 500]) { withBook (bookOf 1163 .cutOff none 240 275) with now := 300000000 } = .next t ∧
      t.book = bookOf 663 .reinstating (some 350000000) 240 275 ∧
      t.sales.replies = [{ tag := 7, answer := { result := .ok, fields := [.two 500, .two 663, .one 3] } }] :=
  ⟨_, rfl, by decide +kernel, by decide +kernel⟩

/-! ### The fee meter -/

/-- The orders and accounts of Table 9-8, with owed units and status of account 3310. -/
def resolvingBook (owed : Nat) (status : AccountStatus) : OrderBook where
  accounts := [{ id := 3310, owed, ceiling := 1000, status, orderCount := 1 }, { id := 4100, owed := 5, ceiling := 0, orderCount := 2 }]
  orders :=
    [{ id := 77, account := 3310, discount := 0, accumulator := 865 },
     { id := 80, account := 4100, discount := 0, accumulator := 40, units := 5 }, { id := 91, account := 4100, discount := 0 }]
  lastOrderId := 91

/-- TariffAndMeter: a resolution of orders in ascending id, with no delivery to stop and with none to cut off; accounts below
and in WATCH at their ceiling, and one whose total is clamped. -/
theorem witness_TariffAndMeter_resolution :
    (∀ q ∈ [(0, AccountStatus.active), (1000, .watch), (16777215, .watch)],
      let s := withBook (resolvingBook q.1 q.2)
      free .sales [.one, .one, .one] [v 300, v 0, none] s = true ∧
      s.book.orders.Pairwise (fun a b => a.id < b.id) ∧
      (∀ o ∈ s.book.orders, s.table.ofOrder o.id = []) ∧
      (∀ a ∈ s.book.accounts, a.status = .active ∨ a.status = .watch) ∧
      (∀ a ∈ s.book.account 3310, a.owed ≤ 16777215 ∧ (a.status = .watch ∨ a.status = .cutOff → a.ceiling ≤ a.owed)) ∧
      s.sales.notices.sources[Notice.meterSaturated.number]? = some {}) ∧
    16777215 < 16777215 + (resolvingBook 16777215 .watch).resolvedUnits 300 3310 := by decide +kernel

/-- Table 9-8: a divisor of 300 makes 2 units of the 865 grains of order 77 and leaves 265. -/
theorem test_resolution :
    ∃ t, exec (.setMeter .sales 7 [1, 300]) (withBook (resolvingBook 0 .active)) = .next t ∧
      t.book.orders.map (fun o => (o.id, o.accumulator, o.units)) = [(77, 265, 2), (80, 40, 5), (91, 0, 0)] ∧
      t.book.accounts.map (fun a => (a.id, a.owed)) = [(3310, 2), (4100, 5)] :=
  ⟨_, rfl, by decide +kernel, by decide +kernel⟩

/-- TariffAndMeter: the last class with the greatest surcharge, and the values next to the ranges; SET_METER that names nothing,
a divisor of 0, and the delays at and next to their range. -/
theorem witness_TariffAndMeter :
    (∀ q ∈ [(15, 255), (16, 0), (0, 256)],
      free .sales [.one, .one, .one, .one, .one, .one] [v q.1, v 1, v 2, v 3, v 4, v q.2] shop = true) ∧
    shop.meter.tariffs[15]?.isSome = true ∧
    (∀ fs ∈ [[none, none, none], [v 0, none, none], [none, v 16383, v 16383], [none, v 16384, none], [none, none, v 16384]],
      free .sales [.one, .one, .one] fs shop = true) := by decide +kernel

/-- Credit: no order, units out of range, and units that leave the account in its status, ACTIVE and CUT_OFF, that bring it out
of WATCH, or whose account has no ceiling. -/
theorem witness_Credit :
    (∀ q ∈ [(9, 1), (77, 16777216), (77, 16777215)], free .sales [.one, .two] [v q.1, v q.2] shop = true) ∧
    shop.book.order 9 = none ∧ (shop.book.order 77).isSome = true ∧
    shop.book.account 3310 = some { id := 3310, owed := 900, ceiling := 1000, orderCount := 2 } ∧ 900 - 16777215 < 1000 ∧
    free .sales [.one, .two] [v 77, v 163] (withBook (bookOf 1163 .cutOff none 0 12)) = true ∧ 1000 ≤ 1163 - 163 ∧
    free .sales [.one, .two] [v 77, v 164] (withBook (bookOf 1163 .watch (some 70) 0 12)) = true ∧ 1163 - 164 < 1000 ∧
    free .sales [.one, .two] [v 77, v 0] (withBook (saleBook .opened)) = true ∧
    (saleBook .opened).account 3310 = some { id := 3310, owed := 900, ceiling := 0, orderCount := 1 } := by decide +kernel

/-- Table 9-7: CREDIT of 400 takes 340 from the order and 28 from the account and sets CLAMPED. -/
theorem test_credit :
    ∃ t, exec (.credit .sales 7 [3, 77, 0, 400]) (withBook (bookOf 28 .reinstating (some 70) 865 340)) = .next t ∧
      t.book.account 3310 = some { id := 3310, ceiling := 1000, status := .reinstating, timer := some 70, orderCount := 1 } ∧
      t.book.order 77 = some { id := 77, account := 3310, discount := 32, accumulator := 865, units := 0, clamped := true } ∧
      t.sales.replies = [{ tag := 7, answer := { result := .ok, fields := [.two 340, .two 28, .two 0, .two 0, .one 3] } }] :=
  ⟨_, rfl, by decide +kernel, by decide +kernel, by decide +kernel⟩

/-- Postings: each outcome of stages 1 to 4, and postings that leave the account in its status, with and without a clamp. -/
theorem witness_Postings :
    (chargeOf true false 2240 9125).unset = false ∧ (chargeOf false false 2 0).creep ≤ 2 * 1250 ∧ 1 * 1250 < (chargeOf false false 1 0).creep ∧
    ({ chargeOf true false 1 0 with unset := true } : Charge).unset = true ∧ (chargeOf false true 1 0).repeated = true ∧
    (withBook (bookOf 736 .active none 740 12)).book.order 77 =
      some { id := 77, account := 3310, discount := 32, accumulator := 740, units := 12 } ∧
    (withBook (bookOf 736 .active none 740 12)).book.account 3310 =
      some { id := 3310, owed := 736, ceiling := 1000, status := .active, orderCount := 1 } ∧
    min (736 + (740 + (chargeOf false false 192 9125).reckon.net) / 1000) 16777215 < 1000 ∧
    (withBook (bookOf 16777000 .cutOff none 740 16777215)).book.account 3310 =
      some { id := 3310, owed := 16777000, ceiling := 1000, status := .cutOff, orderCount := 1 } ∧
    16777215 < 16777000 + (740 + (chargeOf false false 192 9125).reckon.net) / 1000 ∧
    shop.cat.edition 10 = some { id := 10, issueDay := 100, number := 1, pages := [page3] } := by decide +kernel

theorem witness_AccumulatorsBelowDivisor :
    1 ≤ shop.meter.settings.divisor ∧ (∀ o ∈ shop.book.orders, o.accumulator < shop.meter.settings.divisor) ∧
    ∃ t, step shop = .next t := ⟨by decide +kernel, by decide +kernel, _, rfl⟩

end Sys2Proof.Tests
end

