-- ==== Sys2Proof/Proofs/LowWater.lean ====
section
/-! PROOF. The low-water mark: SET_LOW_WATER puts it in force, and every start leaves it at 4,096 (R57, R65). -/

namespace Sys2Proof.Machine

/-! ## A part that does not run -/

/-- The four power commands, the only ones that can act on a part that does not run (R67, R68). -/
def isPowerCommand : Instr → Bool
  | .powerUp _ _ _ _ | .resetAssert | .resetRelease _ _ | .powerLoss _ => true
  | _ => false

/-- A part that does not run answers every command but the four power commands by doing nothing: the meaning of each is a
step that only a running part makes, at once or after the case split of its first line (R68). -/
theorem exec_stopped {i : Instr} {s : State} (hi : isPowerCommand i = false) (hp : s.power ≠ .running) :
    exec i s = .next s := by
  cases i with
  | powerUp | resetAssert | resetRelease | powerLoss => exact absurd hi Bool.noConfusion
  | tileWriteComplete =>
    show execTileWriteComplete s = _
    unfold execTileWriteComplete
    split <;> exact if_neg hp
  | deliveryReadComplete upset =>
    show execDeliveryReadComplete upset s = _
    unfold execDeliveryReadComplete
    split <;> exact if_neg hp
  | unknownRequestCode l tag code ps =>
    show execUnknownRequestCode l tag code ps s = _
    unfold execUnknownRequestCode
    split
    · rfl
    · exact if_neg hp
  | _ => exact if_neg hp

/-- Only the two commands that start the part take it from a power that is not RUNNING to RUNNING, and the state they leave
is that of a start (R67). -/
theorem exec_starts {i : Instr} {s t : State} (ht : exec i s = .next t) (hs : s.power ≠ .running)
    (hr : t.power = .running) :
    ∃ (r : State) (sizeHigh upset : Bool), t = r.startAtPowerUp sizeHigh upset ∨
      t = (r.readHeader upset).startByHeader .warmReset sizeHigh := by
  cases i with
  | powerUp standbyOk sizeHigh resetHeld upset =>
    replace ht : execPowerUp standbyOk sizeHigh resetHeld upset s = .next t := ht
    unfold execPowerUp at ht
    split at ht
    · dsimp only at ht
      split at ht <;> cases ht
      · cases hr
      · exact ⟨_, _, _, .inl rfl⟩
    · cases ht; exact absurd hr hs
  | resetRelease sizeHigh upset =>
    replace ht : execResetRelease sizeHigh upset s = .next t := ht
    unfold execResetRelease at ht
    split at ht <;> cases ht
    · exact ⟨_, _, _, .inl rfl⟩
    · exact ⟨_, _, _, .inr rfl⟩
    · exact absurd hr hs
  | resetAssert =>
    replace ht : execResetAssert s = .next t := ht
    unfold execResetAssert at ht
    split at ht <;> cases ht
    · cases hr
    · exact absurd hr hs
  | powerLoss dramKept =>
    replace ht : execPowerLoss dramKept s = .next t := ht
    unfold execPowerLoss at ht
    split at ht <;> cases ht
    · exact absurd hr hs
    · exact absurd hr (by unfold State.losePower; dsimp only; split <;> exact Power.noConfusion)
  | _ => rw [exec_stopped rfl hs] at ht; cases ht; exact absurd hr hs

/-! ## The mark in the allocator -/

@[simp] theorem Allocator.giveBack_lowWater (a : Allocator) (n : Nat) : (a.giveBack n).lowWater = a.lowWater := by
  unfold Allocator.giveBack; split <;> rfl

@[simp] theorem Allocator.release_lowWater (a : Allocator) (n : Nat) : (a.release n).lowWater = a.lowWater := by
  unfold Allocator.release
  split
  · rfl
  · split
    · rfl
    · exact a.giveBack_lowWater n
    · exact a.giveBack_lowWater n
    · split
      · exact a.giveBack_lowWater n
      · rfl
    · rfl

theorem foldl_lowWater {α : Type} {f : Allocator → α → Allocator} (hf : ∀ a x, (f a x).lowWater = a.lowWater)
    (l : List α) (a : Allocator) : (l.foldl f a).lowWater = a.lowWater :=
  List.foldlRecOn (motive := fun b => b.lowWater = a.lowWater) l f rfl fun _ hb x _ => (hf _ x).trans hb

@[simp] theorem Allocator.giveBackAll_lowWater (a : Allocator) (state : ExtentState) :
    (a.giveBackAll state).lowWater = a.lowWater :=
  foldl_lowWater (f := fun a (e : Extent) => a.giveBack e.number) (fun a e => a.giveBack_lowWater e.number) _ a

/-! ## The start work keeps the mark

At a start the blocks work on a state whose mark is the default and whose delivery table is empty, and both stay so: with no
delivery, what a repaired meter makes of an account stops none. -/

/-- The mark is the default, and no delivery has a record. -/
def State.starting (s : State) : Prop := s.alloc.lowWater = Config.defaultLowWater ∧ s.table.records = []

theorem State.modAlloc_starting {s : State} {f : Allocator → Allocator} (hf : (f s.alloc).lowWater = s.alloc.lowWater)
    (h : s.starting) : (s.modAlloc f).starting := ⟨hf.trans h.1, h.2⟩

theorem State.raise_starting {s : State} (n : Notice) (h : s.starting) : (s.raise n).starting := by
  simpa [State.starting] using h

theorem foldl_starting {α : Type} {f : State → α → State} (hf : ∀ s x, s.starting → (f s x).starting) (l : List α)
    {s : State} (h : s.starting) : (l.foldl f s).starting :=
  List.foldlRecOn l f h fun s hs x _ => hf s x hs

/-! ### The catalogue -/

theorem State.releaseAll_starting {s : State} (ns : List Nat) (h : s.starting) : (s.releaseAll ns).starting :=
  State.modAlloc_starting (foldl_lowWater Allocator.release_lowWater ns s.alloc) h

theorem State.removeRevision_starting {s : State} (r : RevName) (h : s.starting) : (s.removeRevision r).starting := by
  unfold State.removeRevision
  split
  · exact h
  · next v _ => exact State.releaseAll_starting (s := s.modCat (Catalogue.dropRefs r v.photos)) v.extents h

theorem State.removePhoto_starting {s : State} (id : Nat) (h : s.starting) : (s.removePhoto id).starting := by
  unfold State.removePhoto
  split
  · exact h
  · next p _ => exact State.releaseAll_starting [p.extent] h

theorem State.dissolve_starting {s : State} (e : Edition) (h : s.starting) : (s.dissolve e).starting :=
  foldl_starting (f := fun s r => s.removeRevision r) (fun _ r h => State.removeRevision_starting r h) e.revNames h

theorem State.retireCheck_starting {s : State} (ed : Nat) (h : s.starting) : (s.retireCheck ed).starting := by
  unfold State.retireCheck
  split
  · exact h
  · next e _ =>
    have hd := State.dissolve_starting e h
    dsimp only
    repeat' split
    · exact State.raise_starting _ hd
    · exact hd
    · exact h

theorem State.readerEnd_starting {s : State} (n : Nat) (h : s.starting) : (s.readerEnd n).starting := by
  unfold State.readerEnd
  split
  · exact h
  · have hr : (s.modAlloc (·.modExtent n fun e => { e with readers := e.readers - 1 })).starting := h
    dsimp only
    split
    · exact hr
    · split
      · exact State.modAlloc_starting (Allocator.giveBack_lowWater _ n) hr
      · split
        · exact State.retireCheck_starting _ hr
        · exact hr
      · split
        · exact hr
        · split
          · exact State.retireCheck_starting _ hr
          · exact hr
      · exact hr

theorem State.warmCatalogue_starting {s : State} (h : s.starting) : s.warmCatalogue.starting := by
  have hrevs := foldl_starting (f := fun s r => s.removeRevision r) (fun _ r h => State.removeRevision_starting r h)
    s.cat.fillingRevs h
  have hphotos := foldl_starting (f := fun s id => s.removePhoto id) (fun _ id h => State.removePhoto_starting id h)
    (s.cat.fillingRevs.foldl (fun s r => s.removeRevision r) s).cat.fillingPhotos hrevs
  unfold State.warmCatalogue
  exact foldl_starting (fun _ e h => State.dissolve_starting e h) _ hphotos

/-! ### The engine -/

theorem State.engineRead_starting {s : State} (h : s.starting) : s.engineRead.starting := by
  unfold State.engineRead
  repeat' split
  all_goals exact h

theorem State.downgradeItems_starting {s : State} (rs : List (Nat × Nat)) (h : s.starting) :
    (s.downgradeItems rs).starting :=
  foldl_starting (f := fun s (r : Nat × Nat) => (s.modBook (·.modItem r.1 r.2 Item.downgrade)).raise .itemReady)
    (fun s r h => State.raise_starting .itemReady (s := s.modBook (·.modItem r.1 r.2 Item.downgrade)) h) rs h

theorem State.jobReaderEnd_starting {s : State} (j : Job) (h : s.starting) : (s.jobReaderEnd j).starting := by
  unfold State.jobReaderEnd
  split
  · split
    · exact State.readerEnd_starting _ h
    · exact h
  · exact h

theorem State.endJob_starting {s : State} (final : JobState) (cause : JobEnd) (refusal : Option AllocRefusal) (j : Job)
    (h : s.starting) : (s.endJob final cause refusal j).starting := by
  have hscratch : (match j.scratch with
      | some n => s.modAlloc (·.release n)
      | none => s).starting := by
    split
    · exact State.modAlloc_starting (Allocator.release_lowWater _ _) h
    · exact h
  have hitems := State.downgradeItems_starting j.requesters
    (State.jobReaderEnd_starting j (s := State.modEngine _ fun g => { g with queue := g.queue.filter (·.id ≠ j.id) }) hscratch)
  unfold State.endJob
  dsimp only
  split
  · split
    · exact hitems
    · exact State.raise_starting .restoreFailed hitems
  · exact hitems

theorem State.startJob_starting {s : State} (j : Job) (h : s.starting) : (s.startJob j).starting := by
  unfold State.startJob
  split
  · exact h
  · split
    · exact State.endJob_starting _ _ _ _ h
    · split
      · exact State.endJob_starting _ _ _ _ h
      · exact State.engineRead_starting h

theorem State.startJobs_starting (n : Nat) {s : State} (h : s.starting) : (s.startJobs n).starting := by
  induction n generalizing s with
  | zero => exact h
  | succ n ih =>
    unfold State.startJobs
    split
    · split
      · exact ih (State.startJob_starting _ h)
      · exact h
    · exact h

theorem State.requestJob_starting {s : State} (who : Option (Nat × Nat)) (r : RevName) (v : Revision) (source : ToneSource)
    (h : s.starting) : (s.requestJob who r v source).2.starting := by
  unfold State.requestJob
  repeat' split
  all_goals exact h

theorem State.reRequest_starting {s : State} (r : Nat × Nat) (h : s.starting) : (s.reRequest r).starting := by
  unfold State.reRequest
  split
  · split
    · exact h
    · next v _ =>
      have hjob := State.requestJob_starting (some r) ‹RevName› v .auto h
      dsimp only
      split
      · exact hjob
      · exact hjob
      · exact hjob
      · exact State.startJobs_starting _ hjob
  · exact h

theorem State.startEngine_starting {s : State} (warm : Bool) (h : s.starting) : (s.startEngine warm).starting := by
  cases warm with
  | false => exact h
  | true =>
    have hgiven := State.modAlloc_starting (s.alloc.giveBackAll_lowWater .building) h
    exact foldl_starting (fun _ r h => State.reRequest_starting r h) _ hgiven

/-! ### The accounts and the meter -/

/-- With no delivery record, stopping an account's deliveries does nothing (R119). -/
theorem State.stopAccount_empty (depth account : Nat) {s : State} (h : s.table.records = []) :
    State.stopAccount depth account s = s := by
  have hnone : s.deliveriesOf account = [] := by simp [State.deliveriesOf, DeliveryTable.ofOrder, h]
  cases depth with
  | zero => rfl
  | succ depth => simp [State.stopAccount, hnone]

theorem State.cutOffAccount_starting {s : State} (id : Nat) (h : s.starting) :
    (s.cutOffAccount cutOffDeliveries id).starting := by
  have hset : (s.setStatus id .cutOff none).starting := h
  unfold State.cutOffAccount cutOffDeliveries
  rw [State.stopAccount_empty _ _ hset.2]
  exact State.raise_starting .accountCutOff hset

theorem State.enterWatch_starting {s : State} (id : Nat) (h : s.starting) :
    (s.enterWatch cutOffDeliveries id).starting := by
  have hwatch := State.raise_starting .accountWatch
    (s := s.setStatus id .watch (some (s.timerEnd s.meter.settings.cutOff))) h
  unfold State.enterWatch
  dsimp only
  split
  · exact State.cutOffAccount_starting id hwatch
  · exact hwatch

theorem State.enterReinstating_starting {s : State} (id : Nat) (h : s.starting) : (s.enterReinstating id).starting := by
  unfold State.enterReinstating
  split
  · exact State.raise_starting .accountReinstated (s := s.setStatus id .active none) h
  · exact h

theorem State.evaluate_starting {s : State} (id : Nat) (h : s.starting) : (s.evaluate cutOffDeliveries id).starting := by
  have hactive : (s.setStatus id .active none).starting := h
  unfold State.evaluate
  split
  · exact h
  · split
    · dsimp only
      split
      · exact State.raise_starting .accountReinstated hactive
      · exact hactive
    · split <;> split
      · exact State.enterWatch_starting id h
      · exact h
      · exact hactive
      · exact h
      · exact State.enterReinstating_starting id h
      · exact h
      · exact State.cutOffAccount_starting id h
      · exact h

theorem State.accumulate_starting {s : State} (o : Order) (net : Nat) (h : s.starting) : (s.accumulate o net).starting := by
  unfold State.accumulate
  dsimp only
  split
  · exact State.raise_starting .meterSaturated (s := s.modBook _) h
  · exact h

theorem State.resolveOrder_starting {s : State} (id : Nat) (h : s.starting) :
    (s.resolveOrder cutOffDeliveries id).starting := by
  unfold State.resolveOrder
  split
  · exact h
  · next o _ =>
    have hacc := State.accumulate_starting o 0 h
    dsimp only
    split
    · exact hacc
    · exact State.evaluate_starting _ hacc

theorem State.warmOrders_starting {s : State} (h : s.starting) : s.warmOrders.starting := h

theorem State.startMeter_starting {s : State} (warm : Bool) (h : s.starting) :
    (s.startMeter cutOffDeliveries warm).starting := by
  unfold State.startMeter
  dsimp only
  split
  · exact foldl_starting (fun _ id h => State.resolveOrder_starting id h) _ h
  · exact h

/-! ### The starts -/

@[simp] theorem State.transmit_alloc (s : State) (l : LinkId) : (s.transmit l).alloc = s.alloc := by
  unfold State.transmit
  repeat' split
  all_goals simp [State.modChannel]

@[simp] theorem State.settle_alloc (s : State) : s.settle.alloc = s.alloc := by
  simp [State.settle]

theorem State.coldBlocks_starting {s : State} (h : s.alloc.lowWater = Config.defaultLowWater) : s.coldBlocks.starting :=
  State.startMeter_starting false (State.startEngine_starting false ⟨h, rfl⟩)

/-- The allocator's own warm start puts the default in force (R65), and every block after it keeps it. -/
theorem State.warmBlocks_starting (s : State) : s.warmBlocks.starting := by
  unfold State.warmBlocks
  exact State.startMeter_starting true (State.warmOrders_starting
    (State.startEngine_starting true (State.warmCatalogue_starting ⟨rfl, rfl⟩)))

/-- The last row of Table 4-1 and the choices at the end of a start keep the mark. -/
theorem State.startLinks_settle_lowWater {s : State} (h : s.starting) :
    s.startLinks.settle.alloc.lowWater = Config.defaultLowWater := by
  rw [State.settle_alloc]
  exact h.1

theorem State.coldStart_lowWater (kind : StartKind) (sizeHigh : Bool) (s : State) :
    (s.coldStart kind sizeHigh).alloc.lowWater = Config.defaultLowWater :=
  State.startLinks_settle_lowWater (State.coldBlocks_starting rfl)

theorem State.warmStart_lowWater (kind : StartKind) (sizeHigh : Bool) (s : State) :
    (s.warmStart kind sizeHigh).alloc.lowWater = Config.defaultLowWater := by
  unfold State.warmStart
  dsimp only
  exact State.startLinks_settle_lowWater (State.warmBlocks_starting _)

theorem State.startByHeader_lowWater (warm : StartKind) (sizeHigh : Bool) (s : State) :
    (s.startByHeader warm sizeHigh).alloc.lowWater = Config.defaultLowWater := by
  unfold State.startByHeader
  split
  · exact State.warmStart_lowWater warm sizeHigh s
  · exact State.coldStart_lowWater .coldByHeader sizeHigh s

theorem State.startAtPowerUp_lowWater (sizeHigh upset : Bool) (s : State) :
    (s.startAtPowerUp sizeHigh upset).alloc.lowWater = Config.defaultLowWater := by
  unfold State.startAtPowerUp
  split
  · exact State.startByHeader_lowWater .warmPower sizeHigh _
  · exact State.coldStart_lowWater .cold sizeHigh s

/-! ## SET_LOW_WATER -/

/-- A taken request leaves the allocator to its rule as it was. -/
theorem Taken.alloc {l : LinkId} {r : Request} {layout : List Layout} {fs : Fields} {s s₁ : State}
    (h : Taken l r layout fs s s₁) : s₁.alloc = s.alloc := by
  obtain ⟨-, -, k, -, -, rfl⟩ := h
  exact State.setLink_alloc s l k.take

/-- The rule of SET_LOW_WATER on a mark within its range. -/
theorem setLowWaterBody_inRange {fs : Fields} {n : Nat} (s : State) (hn : fs.nat 0 = some n) (hr : n ≤ maxLowWater) :
    setLowWaterBody fs s = (Answer.ok [.two s.alloc.lowWater], s.modAlloc fun a => { a with lowWater := n }) := by
  simp [setLowWaterBody, hn, Nat.not_lt.mpr hr]

/-- The rule of SET_LOW_WATER on a mark above its range. -/
theorem setLowWaterBody_aboveRange {fs : Fields} {n : Nat} (s : State) (hn : fs.nat 0 = some n) (hr : maxLowWater < n) :
    setLowWaterBody fs s = (Answer.refuse .badRange, s) := by
  simp [setLowWaterBody, hn, hr, refuseWith]

/-- A taken SET_LOW_WATER is answered by its rule, and only its own link's transmitter has a choice after it. -/
theorem exec_setLowWater_taken {tag : Byte} {ps : List Word} {fs : Fields} {s s₁ : State}
    (h : Taken .production (requestOf tag 0x1A ps) [.two] fs s s₁) :
    exec (.setLowWater .production tag ps) s =
      .next (((setLowWaterBody fs s₁).2.reply .production tag (setLowWaterBody fs s₁).1).transmit .production) := by
  show execSetLowWater .production tag ps s = _
  unfold execSetLowWater serveLocal
  exact serve_taken h rfl

/-- SPACE_LOW, source 6 of the production link, holds exactly while the free total is below the mark (R56). -/
theorem State.spaceLow_iff (s : State) :
    s.level .production 6 = some true ↔ (s.alloc.runs.map FreeRun.size).sum < s.alloc.lowWater :=
  Option.some_inj.trans decide_eq_true_iff

/-- Settles O33: the rule of SET_LOW_WATER on each side of its range, and the mark that each kind of start leaves. -/
theorem setLowWater : Obligations.SetLowWater := by
  refine ⟨fun tag ps fs n s s₁ htaken hn => ⟨fun hr => ?_, fun hr => ?_⟩, fun i s t ht hs hrun => ?_⟩
  · refine ⟨_, ?_, rfl, State.spaceLow_iff _⟩
    rw [exec_setLowWater_taken htaken, setLowWaterBody_inRange s₁ hn hr, State.modAlloc, htaken.alloc]
    rfl
  · rw [exec_setLowWater_taken htaken, setLowWaterBody_aboveRange s₁ hn hr]
    rfl
  · obtain ⟨r, sizeHigh, upset, rfl | rfl⟩ := exec_starts ht hs hrun
    · exact State.startAtPowerUp_lowWater sizeHigh upset r
    · exact State.startByHeader_lowWater .warmReset sizeHigh _

end Sys2Proof.Machine
end

