-- ==== Sys2Proof/Proofs/RestorationEngine.lean ====
section
/-! PROOF. The tone mapping of a pixel and of a tile: the stretch between B and W and the clean-up of speckle (R139). -/

namespace Sys2Proof.Machine

/-! ## The tone mapping (R139)

A stretched value lies in one of three places: up to B, from W on, or between them. What the mapping does is said from these
three equations and from the bounds of the rounding in the third. -/

/-- A value up to B becomes 0. -/
theorem Tone.stretch_of_le_black {t : Tone} {v : Nat} (h : v ≤ t.b) : t.stretch v = 0 :=
  if_pos h

/-- A value from W on becomes 255, where W lies above B. -/
theorem Tone.stretch_of_white_le {t : Tone} {v : Nat} (hbw : t.b < t.w) (h : t.w ≤ v) : t.stretch v = 255 := by
  rw [Tone.stretch, if_neg (Nat.not_le.mpr (hbw.trans_le h)), if_pos h]

/-- A value strictly between B and W is scaled and rounded. -/
theorem Tone.stretch_of_between {t : Tone} {v : Nat} (hb : t.b < v) (hw : v < t.w) :
    t.stretch v = ((v - t.b) * 510 + (t.w - t.b)) / (2 * (t.w - t.b)) := by
  rw [Tone.stretch, if_neg (Nat.not_le.mpr hb), if_neg (Nat.not_le.mpr hw)]

/-- The quotient `(2 n + d) / (2 d)` is `n / d` rounded to the nearest whole number with a half up. -/
theorem round_half_up_bounds {d : Nat} (n : Nat) (hd : 0 < d) :
    2 * n < (2 * ((2 * n + d) / (2 * d)) + 1) * d ∧ 2 * ((2 * n + d) / (2 * d) * d) ≤ 2 * n + d := by
  have hpos : 0 < 2 * d := by omega
  have below := Nat.div_mul_le_self (2 * n + d) (2 * d)
  have above := Nat.lt_mul_of_div_lt (Nat.lt_succ_self ((2 * n + d) / (2 * d))) hpos
  generalize (2 * n + d) / (2 * d) = q at below above ⊢
  constructor <;> linarith

/-- Between B and W the output is the nearest whole number to `(v - B) × 255 / (W - B)`, with a half up. -/
theorem Tone.stretch_nearest {t : Tone} {v : Nat} (hb : t.b < v) (hw : v < t.w) :
    2 * ((v - t.b) * 255) < (2 * t.stretch v + 1) * (t.w - t.b) ∧
      2 * (t.stretch v * (t.w - t.b)) ≤ 2 * ((v - t.b) * 255) + (t.w - t.b) := by
  have hscale : (v - t.b) * 510 = 2 * ((v - t.b) * 255) := by omega
  rw [Tone.stretch_of_between hb hw, hscale]
  exact round_half_up_bounds _ (Nat.sub_pos_of_lt (hb.trans hw))

/-- A stretched value is a pixel value, where W lies above B. -/
theorem Tone.stretch_le {t : Tone} (hbw : t.b < t.w) (v : Nat) : t.stretch v ≤ 255 := by
  rcases Nat.lt_or_ge t.b v with hb | hb
  · rcases Nat.lt_or_ge v t.w with hw | hw
    · rw [Tone.stretch_of_between hb hw]
      apply Nat.le_of_lt_succ
      rw [Nat.div_lt_iff_lt_mul (by omega)]
      omega
    · exact (Tone.stretch_of_white_le hbw hw).le
  · exact (Tone.stretch_of_le_black hb).trans_le (Nat.zero_le _)

/-- The clean-up takes an output of at least 255 - S to 255. -/
theorem Tone.map_of_bright {t : Tone} {v : Nat} (h : 255 - t.s ≤ t.stretch v) : t.map v = 255 :=
  if_pos h

/-- The clean-up leaves an output below 255 - S. -/
theorem Tone.map_of_dark {t : Tone} {v : Nat} (h : t.stretch v < 255 - t.s) : t.map v = t.stretch v :=
  if_neg (Nat.not_le.mpr h)

/-- A mapped value is a pixel value, so that a byte holds it. -/
theorem Tone.map_le {t : Tone} (hbw : t.b < t.w) (v : Nat) : t.map v ≤ 255 := by
  rcases Nat.lt_or_ge (t.stretch v) (255 - t.s) with h | h
  · exact (Tone.map_of_dark h).trans_le (Tone.stretch_le hbw v)
  · exact (Tone.map_of_bright h).le

/-- With B 0 and W 255 the stretch changes nothing: what the mapping changes is the clean-up's. -/
theorem Tone.stretch_fullRange (sp : Nat) {v : Nat} (hv : v ≤ 255) : Tone.stretch ⟨0, 255, sp⟩ v = v := by
  rcases Nat.eq_zero_or_pos v with rfl | hpos
  · exact Tone.stretch_of_le_black (le_refl 0)
  · rcases hv.lt_or_eq with hlt | rfl
    · rw [Tone.stretch_of_between (t := ⟨0, 255, sp⟩) hpos hlt]
      dsimp only
      omega
    · exact Tone.stretch_of_white_le (t := ⟨0, 255, sp⟩) hpos (le_refl 255)

/-- With B 0, W 255 and S 0 the mapping is the identity. -/
theorem Tone.map_identity {v : Nat} (hv : v ≤ 255) : Tone.map ⟨0, 255, 0⟩ v = v := by
  have hs := Tone.stretch_fullRange 0 hv
  rcases hv.lt_or_eq with hlt | rfl
  · exact (Tone.map_of_dark (hs.trans_lt hlt)).trans hs
  · exact Tone.map_of_bright hs.ge

/-- With B 0 and W 255 the mapping changes the values from 255 - S to 254, and no other. -/
theorem Tone.map_fullRange_ne_iff (sp : Nat) {v : Nat} (hv : v ≤ 255) :
    Tone.map ⟨0, 255, sp⟩ v ≠ v ↔ 255 - sp ≤ v ∧ v ≤ 254 := by
  have hs := Tone.stretch_fullRange sp hv
  rcases Nat.lt_or_ge v (255 - sp) with h | h
  · have hmap : Tone.map ⟨0, 255, sp⟩ v = v := (Tone.map_of_dark (hs.trans_lt h)).trans hs
    omega
  · have hmap : Tone.map ⟨0, 255, sp⟩ v = 255 := Tone.map_of_bright (h.trans_eq hs.symm)
    omega

/-- Each byte of a mapped tile is the mapping of the raw tile's byte in its place. -/
theorem Tone.mapTile_getElem? {t : Tone} (hbw : t.b < t.w) {bs : List Byte} {i : Nat} {b : Byte} (hb : bs[i]? = some b) :
    ((t.mapTile bs)[i]?).map BitVec.toNat = some (t.map b.toNat) := by
  have hbyte : (BitVec.ofNat 8 (t.map b.toNat)).toNat = t.map b.toNat :=
    Nat.mod_eq_of_lt (Nat.lt_succ_of_le (Tone.map_le hbw b.toNat))
  simp only [Tone.mapTile, List.getElem?_map, hb, Option.map_some, hbyte]

/-- Settles O50: the three places of a value against B and W, the clean-up, the full range, and the bytes of a tile. -/
theorem toneMapping : Obligations.ToneMapping := by
  refine ⟨fun t v hbw _ _ _ => ?_, fun v => Tone.map_identity, fun sp v _ => Tone.map_fullRange_ne_iff sp,
    fun t bs i b hbw _ _ => Tone.mapTile_getElem? (by omega)⟩
  have hlt : t.b < t.w := by omega
  exact ⟨Tone.stretch_of_le_black, Tone.stretch_of_white_le hlt,
    fun hb hw => ⟨Tone.stretch_of_between hb hw, Tone.stretch_nearest hb hw⟩,
    Tone.map_of_bright, Tone.map_of_dark, Tone.map_le hlt v⟩

end Sys2Proof.Machine
end

