-- ==== Sys2Proof/Proofs/NoticeLines.lean ====
section
/-! PROOF. The ATTN line of a link: which sources raise it, and what the floor and the sources in service hold back
(R199). -/

namespace Sys2Proof.Machine

/-! ## ATTN (R199)

The model tests the numbered sources of a link in a list. The first lemmas turn that test into a statement about the source
at a number; what the floor and the sources in service do to the line is then said from it. -/

/-- A source of a link is listed with the number under which the controller holds it. -/
theorem State.mem_numbered {s : State} {l : LinkId} {n : Nat} {src : Source} :
    (src, n) ∈ s.numbered l ↔ (s.link l).notices.sources[n]? = some src :=
  List.mem_zipIdx_iff_getElem?

/-- A source has a priority below that of every source in service. -/
theorem Controller.all_outranked_iff {c : Controller} {src : Source} :
    (c.sources.all fun other => !other.inService || src.priority < other.priority) = true ↔
      ∀ (m : Nat) (other : Source), c.sources[m]? = some other → other.inService = true → src.priority < other.priority := by
  simp only [List.all_eq_true, Bool.or_eq_true, Bool.not_eq_true', decide_eq_true_iff]
  constructor
  · intro h m other hm hserved
    exact (h other (List.mem_of_getElem? hm)).resolve_left (by simp [hserved])
  · intro h other hmem
    obtain ⟨m, hm⟩ := List.getElem?_of_mem hmem
    cases hserved : other.inService with
    | false => exact .inl rfl
    | true => exact .inr (h m other hm hserved)

/-- ATTN is high exactly when a pending, unmasked source has a priority below the floor and below that of every source in
service. -/
theorem State.attn_iff {s : State} {l : LinkId} :
    s.attn l = true ↔ ∃ (n : Nat) (src : Source), (s.link l).notices.sources[n]? = some src ∧
      s.pendingMark l n src = true ∧ src.mask = false ∧ src.priority < (s.link l).notices.floor ∧
      ∀ (m : Nat) (other : Source), (s.link l).notices.sources[m]? = some other → other.inService = true →
        src.priority < other.priority := by
  simp only [State.attn, List.any_eq_true, Bool.and_eq_true, Bool.not_eq_true', decide_eq_true_iff,
    Controller.all_outranked_iff]
  constructor
  · rintro ⟨⟨src, n⟩, hmem, ⟨⟨hpending, hmask⟩, hfloor⟩, houtranked⟩
    exact ⟨n, src, State.mem_numbered.mp hmem, hpending, hmask, hfloor, houtranked⟩
  · rintro ⟨n, src, hsrc, hpending, hmask, hfloor, houtranked⟩
    exact ⟨(src, n), State.mem_numbered.mpr hsrc, ⟨⟨hpending, hmask⟩, hfloor⟩, houtranked⟩

/-- With no source in service only the mask and the floor hold a pending source back. -/
theorem State.attn_iff_of_noneInService {s : State} {l : LinkId}
    (hidle : ∀ (m : Nat) (other : Source), (s.link l).notices.sources[m]? = some other → other.inService = false) :
    s.attn l = true ↔ ∃ (n : Nat) (src : Source), (s.link l).notices.sources[n]? = some src ∧
      s.pendingMark l n src = true ∧ src.mask = false ∧ src.priority < (s.link l).notices.floor := by
  rw [State.attn_iff]
  constructor
  · rintro ⟨n, src, hsrc, hpending, hmask, hfloor, -⟩
    exact ⟨n, src, hsrc, hpending, hmask, hfloor⟩
  · rintro ⟨n, src, hsrc, hpending, hmask, hfloor⟩
    refine ⟨n, src, hsrc, hpending, hmask, hfloor, fun m other hm hserved => ?_⟩
    simp [hidle m other hm] at hserved

/-- No priority lies below the floor 0. -/
theorem State.attn_of_floor_zero {s : State} {l : LinkId} (hfloor : (s.link l).notices.floor = 0) : s.attn l = false := by
  rw [Bool.eq_false_iff]
  intro hattn
  obtain ⟨_, src, _, _, _, hbelow, _⟩ := State.attn_iff.mp hattn
  exact Nat.not_lt_zero src.priority (hfloor ▸ hbelow)

/-- A source that raises ATTN is not in service: its priority would lie below itself. -/
theorem State.attn_raiser_notInService {s : State} {l : LinkId} (hattn : s.attn l = true) :
    ∃ (m : Nat) (other : Source), (s.link l).notices.sources[m]? = some other ∧ s.pendingMark l m other = true ∧
      other.mask = false ∧ other.inService = false := by
  obtain ⟨m, other, hother, hpending, hmask, -, houtranked⟩ := State.attn_iff.mp hattn
  refine ⟨m, other, hother, hpending, hmask, Bool.eq_false_iff.mpr fun hserved => ?_⟩
  exact (houtranked m other hother hserved).false

/-- Settles O12: R199 as `State.attn_iff` says it, the floors 8 and 0, and the source that raises the line. -/
theorem attnLine : Obligations.AttnLine := by
  refine fun s l => ⟨State.attn_iff, State.attn_iff_of_noneInService, ?_, State.attn_of_floor_zero, ?_⟩
  · intro hfloor hidle n src hsrc hpending hmask hpriority
    have hbelow : src.priority < (s.link l).notices.floor := by omega
    exact (State.attn_iff_of_noneInService hidle).mpr ⟨n, src, hsrc, hpending, hmask, hbelow⟩
  · intro n src hsrc hserved hattn
    obtain ⟨m, other, hother, hpending, hmask, hunserved⟩ := State.attn_raiser_notInService hattn
    refine ⟨m, other, ?_, hother, hpending, hmask, hunserved⟩
    rintro rfl
    obtain rfl : src = other := Option.some_inj.mp (hsrc.symm.trans hother)
    simp [hserved] at hunserved

end Sys2Proof.Machine
end

