-- ==== Sys2Proof/Proofs/Requests.lean ====
section
/-! PROOF. The requests as commands: each is served with a rule that keeps the bounds and that changes nothing when it refuses
(R189 to R192, R205). -/

namespace Sys2Proof.Machine

/-! ## Rules that change nothing when they refuse -/

/-- What a rule answers on a state: an answer that is neither OK nor ACCEPTED leaves the state alone. -/
def Spares (s : State) (x : Answer × State) : Prop := x.1.result ≠ .ok → x.1.result ≠ .accepted → x.2 = s

/-- A request's rule changes nothing when it refuses. -/
def Body.Sparing (b : Body) : Prop := ∀ fs s, Spares s (b fs s)

theorem Spares.same (a : Answer) (s : State) : Spares s (a, s) := fun _ _ => rfl
theorem Spares.ok (fields : List Field) (s t : State) : Spares s (Answer.ok fields, t) := fun h _ => absurd rfl h
theorem Spares.accepted {a : Answer} (s t : State) (ha : a.result = .accepted) : Spares s (a, t) := fun _ h => absurd ha h
theorem Spares.okay {a : Answer} (s t : State) (ha : a.result = .ok) : Spares s (a, t) := fun h _ => absurd ha h

theorem required_spares {o : Option Nat} {s : State} {f : Nat → Answer × State} (hf : ∀ n, Spares s (f n)) :
    Spares s (required o s f) := by
  cases o
  · exact Spares.same _ s
  · exact hf _

theorem checked_spares {α : Type} {c : Except Answer α} {s : State} {f : α → Answer × State} (hf : ∀ x, Spares s (f x)) :
    Spares s (checked c s f) := by
  cases c
  · exact Spares.same _ s
  · exact hf _

/-! ### Chapter 2 -/

theorem openEditionBody_sparing : openEditionBody.Sparing := fun _ s =>
  required_spares fun _ => required_spares fun _ => required_spares fun _ => checked_spares fun _ => Spares.ok _ s _
theorem closeEditionBody_sparing : closeEditionBody.Sparing := fun _ s =>
  required_spares fun _ => checked_spares fun _ => Spares.ok _ s _
theorem retireEditionBody_sparing : retireEditionBody.Sparing := fun _ s =>
  required_spares fun _ => checked_spares fun _ => Spares.ok _ s _
theorem discardPhotoBody_sparing : discardPhotoBody.Sparing := fun _ s =>
  required_spares fun _ => checked_spares fun _ => Spares.ok _ s _
theorem depositPageBody_sparing : depositPageBody.Sparing := fun _ s =>
  required_spares fun _ => required_spares fun _ => required_spares fun _ => required_spares fun _ =>
    required_spares fun _ => checked_spares fun _ => Spares.accepted s _ rfl
theorem depositPhotoBody_sparing : depositPhotoBody.Sparing := fun _ s =>
  required_spares fun _ => required_spares fun _ => required_spares fun _ => required_spares fun _ =>
    checked_spares fun _ => Spares.accepted s _ rfl
theorem replatePageBody_sparing : replatePageBody.Sparing := fun _ s =>
  required_spares fun _ => required_spares fun _ => required_spares fun _ => required_spares fun _ =>
    required_spares fun _ => checked_spares fun _ => Spares.accepted s _ rfl
theorem abandonDepositBody_sparing : abandonDepositBody.Sparing := fun _ s => required_spares fun _ => by
  split
  · exact Spares.same _ s
  · exact Spares.ok _ s _
theorem depositStatusBody_sparing : depositStatusBody.Sparing := fun _ s => required_spares fun _ => by
  split
  · exact Spares.ok _ s _
  · split
    · exact Spares.ok _ s _
    · exact Spares.same _ s
theorem setDepositTimeoutBody_sparing : setDepositTimeoutBody.Sparing := fun _ s => required_spares fun _ => by
  split
  · exact Spares.same _ s
  · exact Spares.ok _ s _

/-! ### Chapters 3 and 4 -/

theorem setLowWaterBody_sparing : setLowWaterBody.Sparing := fun _ s => required_spares fun _ => by
  split
  · exact Spares.same _ s
  · exact Spares.ok _ s _
theorem compactBody_sparing : compactBody.Sparing := fun _ s => required_spares fun _ => by
  split
  · exact Spares.same _ s
  · split
    · exact Spares.same _ s
    · exact Spares.ok _ s _
theorem setStoreBody_sparing : setStoreBody.Sparing := fun fs s => by
  unfold setStoreBody
  dsimp only
  split
  · exact Spares.same _ s
  · exact Spares.ok _ s _

/-! ### Chapter 6 -/

theorem readWith_spares (fs : Fields) (i : Nat) (wanted : Wanted) (ok : Bool) (t : Except Result ReadTarget) (s : State) :
    Spares s (readWith fs i wanted ok t s) := by
  unfold readWith
  dsimp only
  repeat' split
  all_goals first
    | exact Spares.same _ s
    | exact Spares.accepted s _ rfl
theorem readPageBody_sparing : readPageBody.Sparing := fun _ s => required_spares fun _ => required_spares fun _ => by
  split
  · exact readWith_spares _ _ _ _ _ s
  · exact Spares.same _ s
theorem readPhotoBody_sparing : readPhotoBody.Sparing := fun _ s => required_spares fun _ => by
  split
  · exact readWith_spares _ _ _ _ _ s
  · exact Spares.same _ s
theorem stopDeliveryBody_sparing : stopDeliveryBody.Sparing := fun _ s => required_spares fun _ => by
  split
  · exact Spares.same _ s
  · exact Spares.ok _ s _
theorem deliveryStatusBody_sparing : deliveryStatusBody.Sparing := fun _ s => required_spares fun _ => by
  split
  · exact Spares.same _ s
  · exact Spares.ok _ s _
theorem setPacingBody_sparing : setPacingBody.Sparing := fun fs s => by
  unfold setPacingBody
  split
  · exact Spares.same _ s
  · exact Spares.ok _ s _

/-! ### Chapter 7 -/

/-- A request that the engine refuses, or that is restored already, changes nothing (R123). -/
theorem State.requestJob_same {who : Option (Nat × Nat)} {r : RevName} {v : Revision} {source : ToneSource} {s : State}
    (h : (∃ x, (s.requestJob who r v source).1 = .refused x) ∨ (s.requestJob who r v source).1 = .alreadyRestored) :
    (s.requestJob who r v source).2 = s := by
  unfold State.requestJob at h ⊢
  dsimp only at h ⊢
  split
  · rfl
  · split
    · rfl
    · split <;> split <;> simp_all

theorem State.deskRestore_spares (name : RevName) (v : Revision) (source : ToneSource) (s : State) :
    Spares s (s.deskRestore name v source) := by
  unfold State.deskRestore
  dsimp only
  split
  · next h => exact fun _ _ => State.requestJob_same (.inr h)
  · next h => exact fun _ _ => State.requestJob_same (.inl ⟨_, h⟩)
  · exact Spares.accepted s _ rfl
  · exact Spares.accepted s _ rfl
theorem restorePageBody_sparing : restorePageBody.Sparing := fun _ s =>
  required_spares fun _ => required_spares fun _ => required_spares fun _ => by
    split
    · exact Spares.same _ s
    · split
      · split
        · exact Spares.same _ s
        · exact State.deskRestore_spares _ _ _ s
      · exact Spares.same _ s
theorem cancelRestoreBody_sparing : cancelRestoreBody.Sparing := fun _ s => required_spares fun _ => by
  split
  · exact Spares.same _ s
  · exact Spares.ok _ s _
theorem restoreStatusBody_sparing : restoreStatusBody.Sparing := fun _ s => required_spares fun _ => by
  split
  · exact Spares.ok _ s _
  · split
    · exact Spares.ok _ s _
    · exact Spares.same _ s
theorem setSurveyBody_sparing : setSurveyBody.Sparing := fun fs s => by
  unfold setSurveyBody
  dsimp only
  split
  · exact Spares.same _ s
  · exact Spares.ok _ s _
theorem writeProfileBody_sparing : writeProfileBody.Sparing := fun _ s =>
  required_spares fun _ => required_spares fun _ => required_spares fun _ => required_spares fun _ => by
    split
    · exact Spares.same _ s
    · split
      · exact Spares.same _ s
      · exact Spares.ok _ s _
theorem readProfileBody_sparing : readProfileBody.Sparing := fun _ s => required_spares fun _ => by
  split <;> exact Spares.same _ s

/-! ### Chapter 8 -/

theorem openAccountBody_sparing : openAccountBody.Sparing := fun _ s =>
  required_spares fun _ => checked_spares fun _ => Spares.ok _ s _
theorem setCeilingBody_sparing : setCeilingBody.Sparing := fun _ s =>
  required_spares fun _ => required_spares fun _ => checked_spares fun _ => Spares.ok _ s _
theorem settleBody_sparing : settleBody.Sparing := fun _ s =>
  required_spares fun _ => required_spares fun _ => checked_spares fun _ => Spares.ok _ s _
theorem removeAccountBody_sparing : removeAccountBody.Sparing := fun _ s =>
  required_spares fun _ => checked_spares fun _ => Spares.ok _ s _
theorem accountStatusBody_sparing : accountStatusBody.Sparing := fun _ s =>
  required_spares fun _ => required_spares fun _ => by
    split
    · exact Spares.same _ s
    · split <;> exact Spares.same _ s
theorem openOrderBody_sparing : openOrderBody.Sparing := fun _ s =>
  required_spares fun _ => required_spares fun _ => checked_spares fun _ => Spares.ok _ s _
theorem State.addItem_spares (n : NewItem) (s : State) : Spares s (s.addItem n) := by
  unfold State.addItem
  dsimp only
  split
  · exact Spares.same _ s
  all_goals exact Spares.okay s _ rfl
theorem addItemBody_sparing : addItemBody.Sparing := fun _ s => required_spares fun _ => by
  split
  · exact Spares.same _ s
  · dsimp only
    split
    · exact Spares.same _ s
    · split
      · exact Spares.same _ s
      · exact State.addItem_spares _ s
theorem removeItemBody_sparing : removeItemBody.Sparing := fun _ s =>
  required_spares fun _ => required_spares fun _ => checked_spares fun _ => Spares.ok _ s _
theorem closeOrderBody_sparing : closeOrderBody.Sparing := fun _ s =>
  required_spares fun _ => checked_spares fun _ => Spares.ok _ s _
theorem releaseOrderBody_sparing : releaseOrderBody.Sparing := fun _ s =>
  required_spares fun _ => checked_spares fun _ => Spares.ok _ s _
theorem orderStatusBody_sparing : orderStatusBody.Sparing := fun _ s =>
  required_spares fun _ => required_spares fun _ => by
    repeat' split
    all_goals exact Spares.same _ s

/-! ### Chapter 9 -/

theorem writeTariffBody_sparing : writeTariffBody.Sparing := fun _ s =>
  required_spares fun _ => required_spares fun _ => required_spares fun _ => required_spares fun _ =>
    required_spares fun _ => required_spares fun _ => by
      split
      · exact Spares.same _ s
      · split
        · exact Spares.same _ s
        · exact Spares.ok _ s _
theorem readTariffBody_sparing : readTariffBody.Sparing := fun _ s => required_spares fun _ => by
  split <;> exact Spares.same _ s
theorem setMeterBody_sparing : setMeterBody.Sparing := fun fs s => by
  unfold setMeterBody
  dsimp only
  split
  · exact Spares.same _ s
  · exact Spares.ok _ s _
theorem setDayBody_sparing : setDayBody.Sparing := fun _ s => required_spares fun _ => Spares.ok _ s _
theorem creditBody_sparing : creditBody.Sparing := fun _ s =>
  required_spares fun _ => required_spares fun _ => checked_spares fun _ => Spares.ok _ s _
theorem meterStatusBody_sparing : meterStatusBody.Sparing := fun fs s => by
  unfold meterStatusBody
  split
  · exact Spares.ok _ s _
  · split <;> exact Spares.same _ s

/-! ### Queries and notices -/

theorem editionInfoBody_sparing : editionInfoBody.Sparing := fun _ s =>
  required_spares fun _ => required_spares fun _ => by
    split
    · exact Spares.same _ s
    · split <;> exact Spares.same _ s
theorem pageInfoBody_sparing : pageInfoBody.Sparing := fun _ s =>
  required_spares fun _ => required_spares fun _ => by
    repeat' split
    all_goals exact Spares.same _ s
theorem photoInfoBody_sparing : photoInfoBody.Sparing := fun _ s =>
  required_spares fun _ => required_spares fun _ => by
    split
    · exact Spares.same _ s
    · split <;> exact Spares.same _ s
theorem storeInfoBody_sparing : storeInfoBody.Sparing := fun _ s => Spares.same _ s
theorem pollBody_sparing (l : LinkId) : (pollBody l).Sparing := fun fs s => by
  unfold pollBody
  split
  · exact Spares.same _ s
  · exact Spares.ok _ s _
theorem peekBody_sparing (l : LinkId) : (peekBody l).Sparing := fun fs s => by
  unfold peekBody
  split <;> exact Spares.same _ s
theorem endNoticeBody_sparing (l : LinkId) : (endNoticeBody l).Sparing := fun fs s => by
  unfold endNoticeBody
  split
  · split
    · exact Spares.same _ s
    · exact Spares.ok _ s _
  · split
    · exact Spares.ok _ s _
    · exact Spares.same _ s
theorem setNoticeBody_sparing (l : LinkId) : (setNoticeBody l).Sparing := fun fs s => by
  unfold setNoticeBody
  split
  · exact Spares.same _ s
  · split
    · exact Spares.same _ s
    · exact Spares.ok _ s _

/-! ## The command of a request -/

/-- A command is served as a request: with a choice at the end of its step that its link knows, and a rule that keeps the
bounds and changes nothing when it refuses. -/
def ServedAs (i : Instr) (l : LinkId) (r : Request) (finish : State → State) (body : Body) : Prop :=
  Finish l finish ∧ body.Steady ∧ body.Sparing ∧
    ∀ s, exec i s = serve finish l (homeOfCommand i) (layoutOfCommand i) r body s

theorem ServedAs.ofLocal {i : Instr} {l : LinkId} {r : Request} {body : Body} (hb : body.Steady) (hp : body.Sparing)
    (he : ∀ s, exec i s = serveLocal l (homeOfCommand i) (layoutOfCommand i) r body s) :
    ServedAs i l r (fun s => s.transmit l) body := ⟨.inl rfl, hb, hp, he⟩
theorem ServedAs.ofWide {i : Instr} {l : LinkId} {r : Request} {body : Body} (hb : body.Steady) (hp : body.Sparing)
    (he : ∀ s, exec i s = serveWide l (homeOfCommand i) (layoutOfCommand i) r body s) :
    ServedAs i l r State.settle body := ⟨.inr (.inl rfl), hb, hp, he⟩
theorem ServedAs.ofDeposit {i : Instr} {l : LinkId} {r : Request} {body : Body} (hb : body.Steady) (hp : body.Sparing)
    (he : ∀ s, exec i s = serveDeposit l (homeOfCommand i) (layoutOfCommand i) r body s) :
    ServedAs i l r (fun s => s.passHeldTile.settle) body := ⟨.inr (.inr rfl), hb, hp, he⟩

/-- The rule of a request command (Table 11-4). Commands that are no requests have none. -/
def bodyOfCommand : Instr → Body
  | .openEdition _ _ _ => openEditionBody
  | .depositPage _ _ _ => depositPageBody
  | .depositPhoto _ _ _ => depositPhotoBody
  | .replatePage _ _ _ => replatePageBody
  | .closeEdition _ _ _ => closeEditionBody
  | .retireEdition _ _ _ => retireEditionBody
  | .discardPhoto _ _ _ => discardPhotoBody
  | .abandonDeposit _ _ _ => abandonDepositBody
  | .depositStatus _ _ _ => depositStatusBody
  | .setDepositTimeout _ _ _ => setDepositTimeoutBody
  | .setLowWater _ _ _ => setLowWaterBody
  | .compact _ _ _ => compactBody
  | .setStore _ _ _ => setStoreBody
  | .readPage _ _ _ => readPageBody
  | .readPhoto _ _ _ => readPhotoBody
  | .stopDelivery _ _ _ => stopDeliveryBody
  | .deliveryStatus _ _ _ => deliveryStatusBody
  | .setPacing _ _ _ => setPacingBody
  | .restorePage _ _ _ => restorePageBody
  | .cancelRestore _ _ _ => cancelRestoreBody
  | .restoreStatus _ _ _ => restoreStatusBody
  | .setSurvey _ _ _ => setSurveyBody
  | .writeProfile _ _ _ => writeProfileBody
  | .readProfile _ _ _ => readProfileBody
  | .openAccount _ _ _ => openAccountBody
  | .setCeiling _ _ _ => setCeilingBody
  | .settle _ _ _ => settleBody
  | .removeAccount _ _ _ => removeAccountBody
  | .accountStatus _ _ _ => accountStatusBody
  | .openOrder _ _ _ => openOrderBody
  | .addItem _ _ _ => addItemBody
  | .removeItem _ _ _ => removeItemBody
  | .closeOrder _ _ _ => closeOrderBody
  | .orderStatus _ _ _ => orderStatusBody
  | .releaseOrder _ _ _ => releaseOrderBody
  | .writeTariff _ _ _ => writeTariffBody
  | .readTariff _ _ _ => readTariffBody
  | .setMeter _ _ _ => setMeterBody
  | .setDay _ _ _ => setDayBody
  | .credit _ _ _ => creditBody
  | .meterStatus _ _ _ => meterStatusBody
  | .editionInfo _ _ _ => editionInfoBody
  | .pageInfo _ _ _ => pageInfoBody
  | .photoInfo _ _ _ => photoInfoBody
  | .storeInfo _ _ _ => storeInfoBody
  | .poll l _ _ => pollBody l
  | .peek l _ _ => peekBody l
  | .endNotice l _ _ => endNoticeBody l
  | .setNotice l _ _ => setNoticeBody l
  | _ => fun _ s => refuseWith .badValue s

/-- Every request command is served with its own rule (R190 to R192). -/
theorem exec_request {i : Instr} {l : LinkId} {r : Request} (h : requestOfCommand i = some (l, r)) :
    ∃ finish, ServedAs i l r finish (bodyOfCommand i) := by
  cases i <;> cases h
  case openEdition => exact ⟨_, .ofLocal openEditionBody_steady openEditionBody_sparing fun _ => rfl⟩
  case depositPage => exact ⟨_, .ofDeposit depositPageBody_steady depositPageBody_sparing fun _ => rfl⟩
  case depositPhoto => exact ⟨_, .ofDeposit depositPhotoBody_steady depositPhotoBody_sparing fun _ => rfl⟩
  case replatePage => exact ⟨_, .ofDeposit replatePageBody_steady replatePageBody_sparing fun _ => rfl⟩
  case closeEdition => exact ⟨_, .ofLocal closeEditionBody_steady closeEditionBody_sparing fun _ => rfl⟩
  case retireEdition => exact ⟨_, .ofDeposit retireEditionBody_steady retireEditionBody_sparing fun _ => rfl⟩
  case discardPhoto => exact ⟨_, .ofLocal discardPhotoBody_steady discardPhotoBody_sparing fun _ => rfl⟩
  case abandonDeposit => exact ⟨_, .ofDeposit abandonDepositBody_steady abandonDepositBody_sparing fun _ => rfl⟩
  case depositStatus => exact ⟨_, .ofLocal depositStatusBody_steady depositStatusBody_sparing fun _ => rfl⟩
  case setDepositTimeout => exact ⟨_, .ofLocal setDepositTimeoutBody_steady setDepositTimeoutBody_sparing fun _ => rfl⟩
  case setLowWater => exact ⟨_, .ofLocal setLowWaterBody_steady setLowWaterBody_sparing fun _ => rfl⟩
  case compact => exact ⟨_, .ofWide compactBody_steady compactBody_sparing fun _ => rfl⟩
  case setStore => exact ⟨_, .ofWide setStoreBody_steady setStoreBody_sparing fun _ => rfl⟩
  case readPage => exact ⟨_, .ofWide readPageBody_steady readPageBody_sparing fun _ => rfl⟩
  case readPhoto => exact ⟨_, .ofWide readPhotoBody_steady readPhotoBody_sparing fun _ => rfl⟩
  case stopDelivery => exact ⟨_, .ofWide stopDeliveryBody_steady stopDeliveryBody_sparing fun _ => rfl⟩
  case deliveryStatus => exact ⟨_, .ofLocal deliveryStatusBody_steady deliveryStatusBody_sparing fun _ => rfl⟩
  case setPacing => exact ⟨_, .ofLocal setPacingBody_steady setPacingBody_sparing fun _ => rfl⟩
  case restorePage => exact ⟨_, .ofWide restorePageBody_steady restorePageBody_sparing fun _ => rfl⟩
  case cancelRestore => exact ⟨_, .ofWide cancelRestoreBody_steady cancelRestoreBody_sparing fun _ => rfl⟩
  case restoreStatus => exact ⟨_, .ofLocal restoreStatusBody_steady restoreStatusBody_sparing fun _ => rfl⟩
  case setSurvey => exact ⟨_, .ofLocal setSurveyBody_steady setSurveyBody_sparing fun _ => rfl⟩
  case writeProfile => exact ⟨_, .ofLocal writeProfileBody_steady writeProfileBody_sparing fun _ => rfl⟩
  case readProfile => exact ⟨_, .ofLocal readProfileBody_steady readProfileBody_sparing fun _ => rfl⟩
  case openAccount => exact ⟨_, .ofLocal openAccountBody_steady openAccountBody_sparing fun _ => rfl⟩
  case setCeiling => exact ⟨_, .ofWide setCeilingBody_steady setCeilingBody_sparing fun _ => rfl⟩
  case settle => exact ⟨_, .ofWide settleBody_steady settleBody_sparing fun _ => rfl⟩
  case removeAccount => exact ⟨_, .ofLocal removeAccountBody_steady removeAccountBody_sparing fun _ => rfl⟩
  case accountStatus => exact ⟨_, .ofLocal accountStatusBody_steady accountStatusBody_sparing fun _ => rfl⟩
  case openOrder => exact ⟨_, .ofLocal openOrderBody_steady openOrderBody_sparing fun _ => rfl⟩
  case addItem => exact ⟨_, .ofWide addItemBody_steady addItemBody_sparing fun _ => rfl⟩
  case removeItem => exact ⟨_, .ofWide removeItemBody_steady removeItemBody_sparing fun _ => rfl⟩
  case closeOrder => exact ⟨_, .ofWide closeOrderBody_steady closeOrderBody_sparing fun _ => rfl⟩
  case orderStatus => exact ⟨_, .ofLocal orderStatusBody_steady orderStatusBody_sparing fun _ => rfl⟩
  case releaseOrder => exact ⟨_, .ofLocal releaseOrderBody_steady releaseOrderBody_sparing fun _ => rfl⟩
  case writeTariff => exact ⟨_, .ofLocal writeTariffBody_steady writeTariffBody_sparing fun _ => rfl⟩
  case readTariff => exact ⟨_, .ofLocal readTariffBody_steady readTariffBody_sparing fun _ => rfl⟩
  case setMeter => exact ⟨_, .ofWide setMeterBody_steady setMeterBody_sparing fun _ => rfl⟩
  case setDay => exact ⟨_, .ofLocal setDayBody_steady setDayBody_sparing fun _ => rfl⟩
  case credit => exact ⟨_, .ofWide creditBody_steady creditBody_sparing fun _ => rfl⟩
  case meterStatus => exact ⟨_, .ofLocal meterStatusBody_steady meterStatusBody_sparing fun _ => rfl⟩
  case editionInfo => exact ⟨_, .ofLocal editionInfoBody_steady editionInfoBody_sparing fun _ => rfl⟩
  case pageInfo => exact ⟨_, .ofLocal pageInfoBody_steady pageInfoBody_sparing fun _ => rfl⟩
  case photoInfo => exact ⟨_, .ofLocal photoInfoBody_steady photoInfoBody_sparing fun _ => rfl⟩
  case storeInfo => exact ⟨_, .ofLocal storeInfoBody_steady storeInfoBody_sparing fun _ => rfl⟩
  case poll => exact ⟨_, .ofLocal (pollBody_steady _) (pollBody_sparing _) fun _ => rfl⟩
  case peek => exact ⟨_, .ofLocal (peekBody_steady _) (peekBody_sparing _) fun _ => rfl⟩
  case endNotice => exact ⟨_, .ofLocal (endNoticeBody_steady _) (endNoticeBody_sparing _) fun _ => rfl⟩
  case setNotice => exact ⟨_, .ofLocal (setNoticeBody_steady _) (setNoticeBody_sparing _) fun _ => rfl⟩

end Sys2Proof.Machine
end

