-- ==== Sys2Proof/Proofs/Steps.lean ====
section
/-! PROOF. The steps: what every command keeps, which commands change the power, and where a fault can arise. -/

namespace Sys2Proof.Machine

variable {s t u : State}

/-! ## What the transmitters leave alone -/

@[simp] theorem State.transmit_power (s : State) (l : LinkId) : (s.transmit l).power = s.power := by
  unfold State.transmit
  repeat' split
  all_goals simp [State.modChannel]
@[simp] theorem State.transmit_standbyOk (s : State) (l : LinkId) : (s.transmit l).standbyOk = s.standbyOk := by
  unfold State.transmit
  repeat' split
  all_goals simp [State.modChannel]
@[simp] theorem State.transmit_now (s : State) (l : LinkId) : (s.transmit l).now = s.now := by
  unfold State.transmit
  repeat' split
  all_goals simp [State.modChannel]
@[simp] theorem State.transmit_pending (s : State) (l : LinkId) : (s.transmit l).pending = s.pending := by
  unfold State.transmit
  repeat' split
  all_goals simp [State.modChannel]
@[simp] theorem State.transmit_cat (s : State) (l : LinkId) : (s.transmit l).cat = s.cat := by
  unfold State.transmit
  repeat' split
  all_goals simp [State.modChannel]
@[simp] theorem State.transmit_store (s : State) (l : LinkId) : (s.transmit l).store = s.store := by
  unfold State.transmit
  repeat' split
  all_goals simp [State.modChannel]
@[simp] theorem State.transmit_port (s : State) (l : LinkId) : (s.transmit l).port = s.port := by
  unfold State.transmit
  repeat' split
  all_goals simp [State.modChannel]
@[simp] theorem State.transmit_table (s : State) (l : LinkId) : (s.transmit l).table = s.table := by
  unfold State.transmit
  repeat' split
  all_goals simp [State.modChannel]
@[simp] theorem State.transmit_engine (s : State) (l : LinkId) : (s.transmit l).engine = s.engine := by
  unfold State.transmit
  repeat' split
  all_goals simp [State.modChannel]
@[simp] theorem State.transmit_book (s : State) (l : LinkId) : (s.transmit l).book = s.book := by
  unfold State.transmit
  repeat' split
  all_goals simp [State.modChannel]
@[simp] theorem State.transmit_meter (s : State) (l : LinkId) : (s.transmit l).meter = s.meter := by
  unfold State.transmit
  repeat' split
  all_goals simp [State.modChannel]

@[simp] theorem State.settle_power (s : State) : s.settle.power = s.power := by simp [State.settle]
@[simp] theorem State.settle_standbyOk (s : State) : s.settle.standbyOk = s.standbyOk := by simp [State.settle]
@[simp] theorem State.settle_now (s : State) : s.settle.now = s.now := by simp [State.settle]
@[simp] theorem State.settle_pending (s : State) : s.settle.pending = s.pending := by simp [State.settle]
@[simp] theorem State.settle_cat (s : State) : s.settle.cat = s.cat := by simp [State.settle]
@[simp] theorem State.settle_port (s : State) : s.settle.port = s.port := by simp [State.settle]
@[simp] theorem State.settle_table (s : State) : s.settle.table = s.table := by simp [State.settle]
@[simp] theorem State.settle_engine (s : State) : s.settle.engine = s.engine := by simp [State.settle]
@[simp] theorem State.settle_book (s : State) : s.settle.book = s.book := by simp [State.settle]
@[simp] theorem State.settle_meter (s : State) : s.settle.meter = s.meter := by simp [State.settle]
theorem State.settle_store (s : State) : s.settle.store = Store.settle s.now s.store := by simp [State.settle]

/-! ## What only a power command changes -/

/-- What only a power command changes: the command queue, the power, and what a start fixes (R66, R67). -/
def State.bearings (s : State) : List Instr × Power × Bool × (StoreHeader × Nat × Bool × StartKind) :=
  (s.pending, s.power, s.standbyOk, s.store.fixed)

/-- The bounds hold after, and what only a power command changes is as before. -/
def State.Keeps (s t : State) : Prop := t.sound ∧ t.bearings = s.bearings

theorem State.Keeps.refl (h : s.sound) : s.Keeps s := ⟨h, rfl⟩
theorem State.Keeps.trans (h : s.Keeps t) (h' : t.Keeps u) : s.Keeps u := ⟨h'.1, h'.2.trans h.2⟩

/-- A steady operation keeps the bearings with the traffic of the links. -/
theorem State.steady.keeps (h : t.steady s.passage) : s.Keeps t :=
  ⟨h.1, congrArg (fun T : Passage => (T.pending, T.power, T.standbyOk, T.fixed)) h.2⟩

theorem State.setLink_bearings (l : LinkId) (k : Link) : (s.setLink l k).bearings = s.bearings := by
  simp [State.bearings]
theorem State.modLink_bearings (l : LinkId) (f : Link → Link) : (s.modLink l f).bearings = s.bearings :=
  State.setLink_bearings l _
theorem State.transmit_keeps (l : LinkId) (h : s.sound) : s.Keeps (s.transmit l) :=
  ⟨State.transmit_sound l h, by simp [State.bearings]⟩

theorem State.settle_bearings (s : State) : s.settle.bearings = s.bearings := by
  simp [State.bearings, State.settle_store, (Store.settle_calm s.now s.store).2.2.1]
theorem State.settle_keeps (h : s.sound) : s.Keeps s.settle := ⟨State.settle_sound h, s.settle_bearings⟩

theorem State.takeTile_bearings (n i : Nat) (x : Tile) : (s.takeTile n i x).2.bearings = s.bearings := by
  unfold State.takeTile
  split
  · rfl
  · split
    · simp [State.bearings]
    · split
      · rfl
      · simp [State.bearings, (Store.ask_calm _ _ s.store).2.2.1]
theorem State.passTile_bearings (n i : Nat) (x : Tile) : (s.passTile n i x).bearings = s.bearings :=
  (State.setLink_bearings .production _).trans (State.takeTile_bearings n i x)
theorem State.passHeldTile_bearings (s : State) : s.passHeldTile.bearings = s.bearings := by
  unfold State.passHeldTile
  split
  · split
    · exact (State.passTile_bearings _ _ _).trans (State.modLink_bearings _ _)
    · rfl
  · rfl
theorem State.passHeldTile_keeps (h : s.sound) : s.Keeps s.passHeldTile :=
  ⟨State.passHeldTile_sound h, s.passHeldTile_bearings⟩

theorem State.passHeldRefusal_keeps (l : LinkId) (h : s.sound) : s.Keeps (s.passHeldRefusal l) := by
  refine ⟨State.passHeldRefusal_sound l h, ?_⟩
  unfold State.passHeldRefusal
  split
  · split
    · exact State.modLink_bearings _ _
    · rfl
  · rfl

theorem Finish.keeps {l : LinkId} {f : State → State} (hf : Finish l f) (h : s.sound) : s.Keeps (f s) := by
  rcases hf with rfl | rfl | rfl
  · exact State.transmit_keeps l h
  · exact State.settle_keeps h
  · exact (State.passHeldTile_keeps h).trans (State.settle_keeps (State.passHeldTile_sound h))

/-! ## Commands that go on -/

/-- The command goes on to a state that keeps the bounds and the bearings of a sound one. -/
def State.GoesOn (s : State) (o : Outcome) : Prop := ∃ t, o = .next t ∧ (s.sound → s.Keeps t)

theorem State.GoesOn.stay : s.GoesOn (.next s) := ⟨s, rfl, State.Keeps.refl⟩
theorem State.GoesOn.next (h : s.sound → s.Keeps t) : s.GoesOn (.next t) := ⟨t, rfl, h⟩
theorem State.GoesOn.settled (h : s.sound → s.Keeps t) : s.GoesOn (.next t.settle) :=
  ⟨_, rfl, fun hs => (h hs).trans (State.settle_keeps (h hs).1)⟩

theorem whenRunning_goesOn {f : State → Outcome} (hf : s.GoesOn (f s)) : s.GoesOn (whenRunning s f) := by
  unfold whenRunning
  split
  · exact hf
  · exact .stay

/-- The link with a request presented holds it, and keeps its bounds (R189). -/
theorem Link.present_sound {l : LinkId} {k k' : Link} {r : Request} (hs : Link.sound l k) (hk : k.present r = some k') :
    Link.sound l k' ∧ k'.queue ≠ [] := by
  unfold Link.present at hk
  split at hk <;> split at hk <;> cases hk
  · exact ⟨⟨Nat.le_of_ble_eq_true rfl, hs.2⟩, List.cons_ne_nil _ _⟩
  · next hq _ => exact ⟨hs, by rw [hq]; exact List.cons_ne_nil _ _⟩

/-- A link that holds a request keeps its bounds when the request is taken (R189, R192). -/
theorem Link.take_sound {l : LinkId} {k : Link} (hs : Link.sound l k) (hq : k.queue ≠ []) : Link.sound l k.take := by
  have hpos := List.length_pos_of_ne_nil hq
  obtain ⟨hqueue, hreplies, hsources⟩ := hs
  refine ⟨?_, by rw [Link.take_replies]; exact hreplies, by rw [Link.take_notices]; exact hsources⟩
  unfold Link.take
  split <;> simp <;> omega

/-- The answer to a request is that of its rule or a refusal that changes nothing (R190, R191, R205). -/
theorem answerRequest_steady {l : LinkId} {home : Home} {layout : List Layout} {ps : List Word} {body : Body}
    {T : Passage} (hb : body.Steady) (h : s.steady T) : (answerRequest l home layout ps body s).2.steady T := by
  unfold answerRequest
  split
  · split
    · exact hb _ _ _ h
    · exact h
  · exact h

/-- A request taken by a sound link is answered on a state that keeps the bounds and the traffic of the links. -/
theorem answerRequest_taken_steady {l : LinkId} {home : Home} {layout : List Layout} {r : Request} {ps : List Word}
    {body : Body} {k : Link} (hb : body.Steady) (hs : s.sound) (hk : (s.link l).present r = some k) :
    (answerRequest l home layout ps body (s.setLink l k.take)).2.steady (s.setLink l k.take).passage := by
  obtain ⟨hsound, hq⟩ := Link.present_sound (s.sound_link hs l) hk
  exact answerRequest_steady hb (State.setLink_sound l _ hs (Link.take_sound hsound hq)).steady

/-- A steady operation leaves a link but for its notices as it was. -/
theorem State.steady.link {l : LinkId} (h : t.steady s.passage) :
    t.link l = { s.link l with notices := (t.link l).notices } := by
  have hl : (t.link l).traffic = (s.link l).traffic := congrFun (congrArg Passage.traffic h.2) l
  simp only [Link.traffic, Prod.mk.injEq] at hl
  obtain ⟨hqueue, hheld, hreplies, hsending⟩ := hl
  calc t.link l = ⟨(t.link l).queue, (t.link l).held, (t.link l).replies, (t.link l).sending, (t.link l).notices⟩ := rfl
    _ = _ := by rw [hqueue, hheld, hreplies, hsending]

/-- A request is served, left in its queue, or passed over (R192). -/
theorem serve_goesOn {finish : State → State} {l : LinkId} {home : Home} {layout : List Layout} {r : Request} {body : Body}
    (hf : Finish l finish) (hb : body.Steady) : s.GoesOn (serve finish l home layout r body s) := by
  rcases serve_cases (finish := finish) (l := l) (home := home) (layout := layout) (r := r) (body := body) (s := s) with
    e | ⟨k, -, hk, ⟨-, e⟩ | ⟨hfree, e⟩⟩
  · exact e ▸ .stay
  · exact e ▸ .next fun hs => ⟨State.setLink_sound l k hs (Link.present_sound (s.sound_link hs l) hk).1,
      State.setLink_bearings l k⟩
  · refine e ▸ .next fun hs => ?_
    have hst := answerRequest_taken_steady (home := home) (layout := layout) (ps := r.params) hb hs hk
    have hroom : ((answerRequest l home layout r.params body (s.setLink l k.take)).2.link l).placeFree = true := by
      rw [hst.link]
      simpa [Link.placeFree] using hfree
    have hreply := State.reply_sound l r.tag (answerRequest l home layout r.params body (s.setLink l k.take)).1 hst.1 hroom
    exact ⟨(hf.keeps hreply).1, (hf.keeps hreply).2.trans ((State.setLink_bearings l _).trans
      (hst.keeps.2.trans (State.setLink_bearings l _)))⟩

/-- Every request command goes on (R190 to R192). -/
theorem exec_request_goesOn {i : Instr} {l : LinkId} {r : Request} (h : requestOfCommand i = some (l, r)) :
    s.GoesOn (exec i s) := by
  obtain ⟨finish, hf, hb, -, he⟩ := exec_request h
  rw [he]
  exact serve_goesOn hf hb

/-! ## Frames, timers and events -/

theorem State.refuseFrame_keeps (l : LinkId) (r : Reply) (h : s.sound) : s.Keeps (s.refuseFrame l r) := by
  have hk := s.sound_link h l
  unfold State.refuseFrame
  split
  · next hfree =>
    have hroom : Link.sound l { s.link l with replies := (s.link l).replies ++ [r] } :=
      ⟨hk.1, by simp [Link.placeFree, replyPlaces] at *; omega, hk.2.2⟩
    exact State.Keeps.trans ⟨State.setLink_sound l _ h hroom, State.setLink_bearings l _⟩
      (State.transmit_keeps l (State.setLink_sound l _ h hroom))
  · split
    · exact ⟨State.setHeld_sound l _ h, State.modLink_bearings l _⟩
    · exact .refl h

theorem State.linkReset_keeps (l : LinkId) (tag : Byte) (h : s.sound) : s.Keeps (s.linkReset l tag) := by
  refine ⟨State.linkReset_sound l tag h, ?_⟩
  have hcleared : (s.modLink l Link.clear).sound :=
    State.setLink_sound l _ h ⟨Nat.zero_le _, Nat.zero_le _, (s.sound_link h l).2.2⟩
  have hworked : ((s.modLink l Link.clear).resetWork l).bearings = s.bearings :=
    (State.resetWork_steady l hcleared.steady).keeps.2.trans (State.modLink_bearings l _)
  unfold State.linkReset
  dsimp only
  rw [State.settle_bearings, State.passHeldTile_bearings]
  refine (State.setLink_bearings l _).trans ?_
  split <;> exact (State.setLink_bearings l _).trans hworked

theorem State.resetFrame_keeps (l : LinkId) (tag : Byte) (ps : List Word) (h : s.sound) :
    s.Keeps (s.resetFrame l tag ps) := by
  unfold State.resetFrame
  split
  · exact State.linkReset_keeps l tag h
  · exact State.refuseFrame_keeps l _ h

theorem State.intake_keeps (l : LinkId) (r : Request) (h : s.sound) : s.Keeps (s.modLink l (Link.intake r)) := by
  refine ⟨State.setLink_sound l _ h ?_, State.modLink_bearings l _⟩
  obtain ⟨hqueue, hreplies, hsources⟩ := s.sound_link h l
  unfold Link.intake
  split
  · next hroom => exact ⟨by simpa using hroom, hreplies, hsources⟩
  · exact ⟨hqueue, hreplies, hsources⟩

theorem State.replySent_keeps (l : LinkId) (h : s.sound) : s.Keeps (s.replySent l) := by
  have hk := s.sound_link h l
  have hfreed : s.Keeps (s.modLink l fun k => { k with replies := k.replies.tail, sending := none }) :=
    ⟨State.setLink_sound l _ h ⟨hk.1, by simpa using Nat.le_trans (Nat.sub_le _ _) hk.2.1, hk.2.2⟩,
      State.modLink_bearings l _⟩
  have hpassed := hfreed.trans (State.passHeldRefusal_keeps l hfreed.1)
  unfold State.replySent
  dsimp only
  split
  · exact hpassed.trans (State.passHeldTile_keeps hpassed.1)
  · exact hpassed

theorem State.frameEnd_keeps (l : LinkId) (c : Fin 4) (h : s.sound) :
    s.Keeps ((s.modLink l fun k => { k with sending := none }).frameEnd cutOffDeliveries c) := by
  have hidle : s.Keeps (s.modLink l fun k => { k with sending := none }) :=
    ⟨State.setLink_sound l _ h (s.sound_link h l), State.modLink_bearings l _⟩
  exact hidle.trans (State.frameEnd_steady cutOffDeliveries_steady c hidle.1.steady).keeps

theorem execRequestFrameArrives_goesOn (l : LinkId) (ws : List Word) : s.GoesOn (execRequestFrameArrives l ws s) := by
  unfold execRequestFrameArrives
  refine whenRunning_goesOn ?_
  split
  · split
    · split
      · exact .next (State.resetFrame_keeps l _ _)
      · exact .stay
    · split
      · exact .next (State.intake_keeps l _)
      · exact .stay
  · exact .stay
theorem execFrameRefused_goesOn (l : LinkId) (ws : List Word) : s.GoesOn (execFrameRefused l ws s) := by
  unfold execFrameRefused
  refine whenRunning_goesOn ?_
  split
  · split
    · exact .next (State.refuseFrame_keeps l _)
    · exact .stay
  · exact .stay
theorem execUnknownRequestCode_goesOn (l : LinkId) (tag : Byte) (code : Word) (ps : List Word) : s.GoesOn (execUnknownRequestCode l tag code ps s) := by
  unfold execUnknownRequestCode
  split
  · exact .stay
  · exact serve_goesOn (.inl rfl) fun _ _ _ h => h
theorem execTileFrame_goesOn (ws : List Word) : s.GoesOn (execTileFrame ws s) := by
  unfold execTileFrame
  refine whenRunning_goesOn ?_
  split
  · split
    · exact .stay
    · split
      · next hpass =>
        exact .settled fun hs => ⟨State.passTile_sound _ _ _ hs hpass, State.passTile_bearings _ _ _⟩
      · exact .next fun hs => ⟨State.setHeld_sound _ _ hs, State.modLink_bearings _ _⟩
  · exact .stay
theorem execDepositTimeout_goesOn (slot : Nat) : s.GoesOn (execDepositTimeout slot s) := by
  unfold execDepositTimeout
  refine whenRunning_goesOn ?_
  split
  · exact .stay
  · split
    · exact .stay
    · refine .settled fun hs => ?_
      have habort := (State.raise_steady .depositAborted
        (State.abortDeposit_steady ‹Fin 4› ‹Deposit› (some .timedOut) (State.reach_steady ‹Nat› hs.steady))).keeps
      exact habort.trans (State.passHeldTile_keeps habort.1)
theorem execRefreshDue_goesOn : s.GoesOn (execRefreshDue s) := by
  unfold execRefreshDue
  refine whenRunning_goesOn ?_
  split
  · exact .settled fun hs => (State.refreshFalls_steady _ (State.reach_steady _ hs.steady)).keeps
  · exact .stay
theorem execBurstEnd_goesOn : s.GoesOn (execBurstEnd s) := by
  unfold execBurstEnd
  refine whenRunning_goesOn ?_
  split
  · exact .settled fun hs => (State.calm_steady (Store.quietIfDue_calm s.now)
      (State.calm_steady Store.burstEnds_calm hs.steady)).keeps
  · exact .stay
theorem execEnterQuiet_goesOn : s.GoesOn (execEnterQuiet s) := by
  unfold execEnterQuiet
  refine whenRunning_goesOn ?_
  split
  · exact .settled fun hs => (State.calm_steady (Store.quietIfDue_calm _) (State.reach_steady _ hs.steady)).keeps
  · exact .stay
theorem execWakeTimeEnds_goesOn : s.GoesOn (execWakeTimeEnds s) := by
  unfold execWakeTimeEnds
  refine whenRunning_goesOn ?_
  split
  · exact .settled fun hs => (State.calm_steady (Store.wake_calm _) (State.reach_steady _ hs.steady)).keeps
  · exact .stay
theorem execFixedPeriodBegins_goesOn (channel : Nat) : s.GoesOn (execFixedPeriodBegins channel s) := by
  unfold execFixedPeriodBegins
  refine whenRunning_goesOn ?_
  split
  · exact .stay
  · split
    · exact .stay
    · split
      · exact .stay
      · exact .settled fun hs => (State.periodBegins_steady cutOffDeliveries_steady _ _ _ hs.steady).keeps
theorem execFrameSent_goesOn (l : LinkId) : s.GoesOn (execFrameSent l s) := by
  unfold execFrameSent
  refine whenRunning_goesOn ?_
  split
  · exact .stay
  · exact .settled (State.replySent_keeps l)
  · exact .settled (State.frameEnd_keeps l _)
theorem execWatchTimerExpires_goesOn (account : Nat) : s.GoesOn (execWatchTimerExpires account s) := by
  unfold execWatchTimerExpires
  refine whenRunning_goesOn ?_
  split
  · exact .settled fun hs =>
      (State.cutOffAccount_steady cutOffDeliveries_steady account (State.reach_steady _ hs.steady)).keeps
  · exact .stay
theorem execReinstatingTimerExpires_goesOn (account : Nat) : s.GoesOn (execReinstatingTimerExpires account s) := by
  unfold execReinstatingTimerExpires
  refine whenRunning_goesOn ?_
  split
  · exact .next fun hs => (State.raise_steady _ (State.modBook_steady _ (State.reach_steady _ hs.steady))).keeps
  · exact .stay
theorem execLinkReset_goesOn (l : LinkId) (tag : Byte) : s.GoesOn (execLinkReset l tag s) := by
  unfold execLinkReset
  refine whenRunning_goesOn ?_
  split
  · exact .next (State.linkReset_keeps l tag)
  · exact .stay
/-- The commands that are completions of the store's transfers (R29, R91, R97, R132, R140). -/
def isCompletion : Instr → Bool
  | .tileWriteComplete | .copyReadComplete _ | .copyWriteComplete | .deliveryReadComplete _ | .surveyReadComplete _
  | .correctionReadComplete _ | .correctionWriteComplete => true
  | _ => false

/-- Every command but the power commands and the completions goes on. -/
theorem exec_goesOn {i : Instr} (hp : isPowerCommand i = false) (hc : isCompletion i = false) : s.GoesOn (exec i s) := by
  cases hr : requestOfCommand i with
  | some lr => exact exec_request_goesOn hr
  | none =>
    cases i with
    | powerUp | resetAssert | resetRelease | powerLoss => exact absurd hp Bool.noConfusion
    | tileWriteComplete | copyReadComplete | copyWriteComplete | deliveryReadComplete | surveyReadComplete
    | correctionReadComplete | correctionWriteComplete => exact absurd hc Bool.noConfusion
    | requestFrameArrives l ws => exact execRequestFrameArrives_goesOn l ws
    | frameRefused l ws => exact execFrameRefused_goesOn l ws
    | unknownRequestCode l tag code ps => exact execUnknownRequestCode_goesOn l tag code ps
    | tileFrame ws => exact execTileFrame_goesOn ws
    | depositTimeout slot => exact execDepositTimeout_goesOn slot
    | refreshDue => exact execRefreshDue_goesOn
    | burstEnd => exact execBurstEnd_goesOn
    | enterQuiet => exact execEnterQuiet_goesOn
    | wakeTimeEnds => exact execWakeTimeEnds_goesOn
    | fixedPeriodBegins channel => exact execFixedPeriodBegins_goesOn channel
    | frameSent l => exact execFrameSent_goesOn l
    | watchTimerExpires account => exact execWatchTimerExpires_goesOn account
    | reinstatingTimerExpires account => exact execReinstatingTimerExpires_goesOn account
    | linkReset l tag => exact execLinkReset_goesOn l tag
    | _ => cases hr

/-! ## Completions -/

/-- The end of a granted transfer goes on, or faults on a slot that does not exist (R69, log 26). -/
theorem whenEnds_goesOn {granted : Option Transfer} {mine : Transfer → Bool} {f : Transfer → State → State}
    (hf : ∀ x, s.sound → s.Keeps (f x s)) : s.GoesOn (whenEnds s granted mine f) ∨
      ∃ x, granted = some x ∧ s.store.slotCount ≤ x.slot ∧ whenEnds s granted mine f = .fault .noSuchSlot := by
  rcases whenEnds_cases (s := s) (granted := granted) (mine := mine) (f := f) with
    e | ⟨x, hx, -, -, ⟨hslot, e⟩ | ⟨-, e⟩⟩
  · exact .inl (e ▸ .stay)
  · exact .inr ⟨x, hx, hslot, e⟩
  · exact .inl (e ▸ .settled (hf x))

/-- The command goes on, or it faults on a slot that does not exist, of the granted transfer. -/
def State.GoesOnOrFaults (s : State) (o : Outcome) : Prop :=
  s.GoesOn o ∨ ∃ x, (s.store.inFlight = some x ∨ s.store.withdrawn = some x) ∧ s.store.slotCount ≤ x.slot ∧
    o = .fault .noSuchSlot

theorem whenCompletes_goesOn {mine : Transfer → Bool} {f : Transfer → State → State}
    (hf : ∀ x (u : State), u.sound → u.Keeps (f x u)) : s.GoesOnOrFaults (whenCompletes s mine f) :=
  (whenEnds_goesOn (s := s) (f := fun x s => f x (s.modStore (Store.complete x))) fun x hs =>
    State.Keeps.trans (State.complete_steady x hs.steady).keeps (hf x _ (State.complete_sound x hs))).imp_right
      fun ⟨x, hx, hslot, he⟩ => ⟨x, .inl hx, hslot, he⟩

theorem whenWithdrawnEnds_goesOn {mine : Transfer → Bool} {f : Transfer → State → State}
    (hf : ∀ x (u : State), u.sound → u.Keeps (f x u)) : s.GoesOnOrFaults (whenWithdrawnEnds s mine f) :=
  (whenEnds_goesOn (s := s) (f := fun x s => f x (s.modStore Store.endWithdrawn)) fun x hs =>
    State.Keeps.trans (State.calm_steady Store.endWithdrawn_calm hs.steady).keeps
      (hf x _ (State.calm_sound Store.endWithdrawn_calm hs))).imp_right
        fun ⟨x, hx, hslot, he⟩ => ⟨x, .inr hx, hslot, he⟩

theorem execTileWriteComplete_goesOn : s.GoesOnOrFaults (execTileWriteComplete s) := by
  unfold execTileWriteComplete
  split
  · exact whenWithdrawnEnds_goesOn fun _ _ hu => .refl hu
  · exact whenCompletes_goesOn fun _ u hu =>
      (State.tileWritten_steady hu.steady).keeps.trans (State.passHeldTile_keeps (State.tileWritten_steady hu.steady).1)

theorem execDeliveryReadComplete_goesOn (upset : List Upset) : s.GoesOnOrFaults (execDeliveryReadComplete upset s) := by
  unfold execDeliveryReadComplete
  split
  · exact whenWithdrawnEnds_goesOn fun x _ hu => (State.readTile_steady x.slot upset .delivery hu.steady).keeps
  · refine whenCompletes_goesOn fun x u hu => ?_
    have hread := State.readTile_steady x.slot upset .delivery hu.steady
    dsimp only
    split
    · exact (State.readArrives_steady _ _ _ hread).keeps
    · exact hread.keeps

theorem execCopyReadComplete_goesOn (upset : List Upset) : s.GoesOnOrFaults (execCopyReadComplete upset s) := by
  refine whenCompletes_goesOn fun x u hu => ?_
  have hread := State.readTile_steady x.slot upset .copy hu.steady
  dsimp only
  split
  · exact (State.copyArrives_steady _ _ _ hread).keeps
  · exact hread.keeps

theorem execCopyWriteComplete_goesOn : s.GoesOnOrFaults (execCopyWriteComplete s) := by
  refine whenCompletes_goesOn fun x u hu => ?_
  split
  · exact (State.copyWritten_steady _ hu.steady).keeps
  · exact .refl hu

theorem execSurveyReadComplete_goesOn (upset : List Upset) : s.GoesOnOrFaults (execSurveyReadComplete upset s) := by
  refine whenCompletes_goesOn fun x u hu => ?_
  have hread := State.readTile_steady x.slot upset .restoration hu.steady
  dsimp only
  split
  · exact (State.surveyArrives_steady _ _ _ _ hread).keeps
  · exact hread.keeps

theorem execCorrectionReadComplete_goesOn (upset : List Upset) :
    s.GoesOnOrFaults (execCorrectionReadComplete upset s) := by
  refine whenCompletes_goesOn fun x u hu => ?_
  have hread := State.readTile_steady x.slot upset .restoration hu.steady
  dsimp only
  split
  · exact (State.correctionArrives_steady _ _ _ hread).keeps
  · exact hread.keeps

theorem execCorrectionWriteComplete_goesOn : s.GoesOnOrFaults (execCorrectionWriteComplete s) := by
  refine whenCompletes_goesOn fun x u hu => ?_
  split
  · exact (State.correctionWritten_steady cutOffDeliveries_steady _ _ hu.steady).keeps
  · exact .refl hu

/-- A completion goes on, or it faults on a slot that does not exist. -/
theorem exec_completion {i : Instr} (hc : isCompletion i = true) : s.GoesOnOrFaults (exec i s) := by
  cases i with
  | tileWriteComplete => exact execTileWriteComplete_goesOn
  | copyReadComplete upset => exact execCopyReadComplete_goesOn upset
  | copyWriteComplete => exact execCopyWriteComplete_goesOn
  | deliveryReadComplete upset => exact execDeliveryReadComplete_goesOn upset
  | surveyReadComplete upset => exact execSurveyReadComplete_goesOn upset
  | correctionReadComplete upset => exact execCorrectionReadComplete_goesOn upset
  | correctionWriteComplete => exact execCorrectionWriteComplete_goesOn
  | _ => cases hc

/-- A command that is no power command leaves the bounds and the bearings of a sound state. -/
theorem exec_keeps {i : Instr} (hp : isPowerCommand i = false) (hs : s.sound) (ht : exec i s = .next t) : s.Keeps t := by
  have hgo : s.GoesOn (exec i s) := by
    cases hc : isCompletion i with
    | false => exact exec_goesOn hp hc
    | true =>
      rcases exec_completion (s := s) hc with hgo | ⟨_, _, _, he⟩
      · exact hgo
      · rw [he] at ht; cases ht
  obtain ⟨u, hu, hkeeps⟩ := hgo
  cases ht.symm.trans hu
  exact hkeeps hs

/-! ## Power commands -/

/-- What a power command keeps of a sound state: the bounds and the command queue. -/
def State.Restarts (s t : State) : Prop := t.sound ∧ t.pending = s.pending

theorem State.Restarts.trans (h : s.Restarts t) (h' : t.Restarts u) : s.Restarts u := ⟨h'.1, h'.2.trans h.2⟩
theorem State.Restarts.refl (h : s.sound) : s.Restarts s := ⟨h, rfl⟩

theorem State.coldStart_restarts (kind : StartKind) (sizeHigh : Bool) (h : s.sound) :
    s.Restarts (s.coldStart kind sizeHigh) := by
  refine ⟨State.coldStart_sound kind sizeHigh h, (State.settle_pending _).trans ?_⟩
  obtain ⟨-, -, -, -, hqueue, hended, hprofiles, htariffs, hlog, hdivisor, hlinks⟩ := h
  have hempty : ({ s.readStrap with
      store := Store.coldStart sizeHigh kind s.readStrap.now, alloc := Allocator.coldStart (Config.slotCount sizeHigh)
      cat := {}, port := {}, mover := {}, table := {}, book := {} } : State).sound :=
    ⟨Memory.wf_nil, ⟨Nat.zero_le _, .inl rfl⟩, Nat.zero_le _, Nat.zero_le _, hqueue, hended, hprofiles, htariffs, hlog,
      hdivisor, hlinks⟩
  exact congrArg Passage.pending (State.startMeter_steady cutOffDeliveries_steady false
    (State.startEngine_steady false hempty.steady)).2

theorem State.pending_of_passage (h : t.passage = s.passage) : t.pending = s.pending := congrArg Passage.pending h

/-- The work of the blocks at a warm start keeps the command queue. -/
theorem State.warmBlocks_pending (h : s.sound) : s.warmBlocks.pending = s.pending := by
  obtain ⟨hmem, hstore, -, -, -, -, hprofiles, htariffs, hlog, hdivisor, hlinks⟩ := h
  have hempty : ({ s.modAlloc Allocator.warmStart with
      port := {}, mover := {}, table := {}, engine := { profiles := s.engine.profiles } } : State).sound :=
    ⟨hmem, hstore, Nat.zero_le _, Nat.zero_le _, Nat.zero_le _, Nat.zero_le _, hprofiles, htariffs, hlog, hdivisor, hlinks⟩
  have hsteady : s.warmBlocks.steady ({ s.modAlloc Allocator.warmStart with
      port := {}, mover := {}, table := {}, engine := { profiles := s.engine.profiles } } : State).passage := by
    unfold State.warmBlocks
    exact State.startMeter_steady cutOffDeliveries_steady true (State.warmOrders_steady
      (State.startEngine_steady true (State.warmCatalogue_steady hempty.steady)))
  exact State.pending_of_passage hsteady.2

theorem State.startLinks_pending (s : State) : s.startLinks.pending = s.pending := rfl

theorem State.warmStart_restarts (kind : StartKind) (sizeHigh : Bool) (h : s.sound) :
    s.Restarts (s.warmStart kind sizeHigh) := by
  refine ⟨State.warmStart_sound kind sizeHigh h, ?_⟩
  obtain ⟨hmem, -, hrest⟩ := h
  have hstore : (s.readStrap.modStore (Store.warmStart sizeHigh kind s.now)).sound :=
    ⟨hmem, ⟨Nat.zero_le _, .inl rfl⟩, hrest⟩
  unfold State.warmStart
  rw [State.settle_pending, State.startLinks_pending, State.warmBlocks_pending hstore]
  rfl

theorem State.readHeader_restarts (upset : Bool) (h : s.sound) : s.Restarts (s.readHeader upset) := by
  refine ⟨State.readHeader_sound upset h, ?_⟩
  unfold State.readHeader
  split <;> rfl

theorem State.startByHeader_restarts (warm : StartKind) (sizeHigh : Bool) (h : s.sound) :
    s.Restarts (s.startByHeader warm sizeHigh) := by
  unfold State.startByHeader
  split
  · exact State.warmStart_restarts warm sizeHigh h
  · exact State.coldStart_restarts _ sizeHigh h

theorem State.startAtPowerUp_restarts (sizeHigh upset : Bool) (h : s.sound) :
    s.Restarts (s.startAtPowerUp sizeHigh upset) := by
  unfold State.startAtPowerUp
  split
  · exact (State.readHeader_restarts upset h).trans (State.startByHeader_restarts _ sizeHigh (State.readHeader_sound upset h))
  · exact State.coldStart_restarts _ sizeHigh h

/-- A power command always goes on, to a state that keeps the bounds and the command queue of a sound one. -/
theorem exec_power {i : Instr} (hp : isPowerCommand i = true) :
    ∃ t, exec i s = .next t ∧ (s.sound → s.Restarts t) := by
  cases i with
  | powerUp standbyOk sizeHigh resetHeld upset =>
    show ∃ t, execPowerUp standbyOk sizeHigh resetHeld upset s = .next t ∧ _
    unfold execPowerUp
    split
    · dsimp only
      split
      · exact ⟨_, rfl, fun hs => ⟨hs, rfl⟩⟩
      · exact ⟨_, rfl, fun hs => State.startAtPowerUp_restarts (s := { s with standbyOk }) sizeHigh upset hs⟩
    · exact ⟨s, rfl, .refl⟩
  | resetAssert =>
    show ∃ t, execResetAssert s = .next t ∧ _
    unfold execResetAssert
    split
    · exact ⟨_, rfl, fun hs => ⟨State.calm_sound Store.hold_calm hs, rfl⟩⟩
    · exact ⟨s, rfl, .refl⟩
  | resetRelease sizeHigh upset =>
    show ∃ t, execResetRelease sizeHigh upset s = .next t ∧ _
    unfold execResetRelease
    split
    · exact ⟨_, rfl, State.startAtPowerUp_restarts sizeHigh upset⟩
    · exact ⟨_, rfl, fun hs => (State.readHeader_restarts upset hs).trans
        (State.startByHeader_restarts _ sizeHigh (State.readHeader_sound upset hs))⟩
    · exact ⟨s, rfl, .refl⟩
  | powerLoss dramKept =>
    show ∃ t, execPowerLoss dramKept s = .next t ∧ _
    unfold execPowerLoss
    split
    · exact ⟨s, rfl, .refl⟩
    · refine ⟨_, rfl, fun hs => ⟨State.losePower_sound dramKept hs, ?_⟩⟩
      unfold State.losePower
      dsimp only
      split <;> rfl
  | _ => cases hp

/-! ## The statements -/

/-- Every command keeps the bounds and the command queue of a sound state. -/
theorem exec_restarts {i : Instr} (hs : s.sound) (ht : exec i s = .next t) : s.Restarts t := by
  cases hp : isPowerCommand i with
  | false =>
    have hk := exec_keeps hp hs ht
    exact ⟨hk.1, congrArg Prod.fst hk.2⟩
  | true =>
    obtain ⟨u, hu, hrestarts⟩ := exec_power (s := s) hp
    cases ht.symm.trans hu
    exact hrestarts hs

/-- A command that is none of the four power commands. -/
theorem isPowerCommand_eq_false {i : Instr} (hup : ∀ a b c d, i ≠ .powerUp a b c d) (hassert : i ≠ .resetAssert)
    (hrelease : ∀ a b, i ≠ .resetRelease a b) (hloss : ∀ a, i ≠ .powerLoss a) : isPowerCommand i = false := by
  cases i with
  | powerUp => exact absurd rfl (hup _ _ _ _)
  | resetAssert => exact absurd rfl hassert
  | resetRelease => exact absurd rfl (hrelease _ _)
  | powerLoss => exact absurd rfl (hloss _)
  | _ => rfl

/-- Settles O1: the two branches of a step. -/
theorem stepRunsFrontCommand : Obligations.StepRunsFrontCommand := fun _ _ => ⟨rfl, rfl⟩

/-- Settles O3: the empty tables of the state after reset. -/
theorem boundsAtReset : Obligations.BoundsAtReset :=
  ⟨Memory.wf_nil, ⟨Nat.zero_le _, .inl rfl⟩, Nat.zero_le _, Nat.zero_le _, Nat.zero_le _, Nat.zero_le _, rfl, rfl,
    Nat.zero_le _, by decide, Link.start_sound .production, Link.start_sound .desk, Link.start_sound .sales⟩

/-- Settles O4: a step is a tick of the clock or a command, and every command keeps the bounds. -/
theorem boundsKept : Obligations.BoundsKept := by
  intro s t hs ht
  unfold step at ht
  split at ht
  · cases ht
    exact State.reach_sound _ hs
  · next c rest _ => exact (exec_restarts (s := { s with pending := rest }) hs ht).1

/-- Settles O2: what every command keeps, and what every command but a power command keeps besides. -/
theorem onlyPowerCommandsChangePower : Obligations.OnlyPowerCommandsChangePower := by
  refine fun i s t hs ht => ⟨(exec_restarts hs ht).2, fun hup hassert hrelease hloss => ?_⟩
  have hk := (exec_keeps (isPowerCommand_eq_false hup hassert hrelease hloss) hs ht).2
  simp only [State.bearings, Store.fixed, Prod.mk.injEq] at hk
  obtain ⟨-, hpower, hstandby, hheader, hslots, hsize, hstart⟩ := hk
  exact ⟨hpower, hstandby, hheader, hslots, hsize, hstart⟩

/-- Settles O5: power commands and all others but the completions go on, and a completion goes on or faults on a slot that
does not exist. -/
theorem onlyAbsentSlotsFault : Obligations.OnlyAbsentSlotsFault := by
  intro i s
  by_cases hc : isCompletion i = true
  · rcases exec_completion (s := s) hc with ⟨t, he, -⟩ | ⟨x, hx, hslot, he⟩ <;> rw [he]
    · exact ⟨fun _ h => (by cases h), fun _ h => (by cases h)⟩
    · refine ⟨fun _ h => (by cases h), fun f h => ?_⟩
      cases h
      refine ⟨rfl, ⟨x, hx, hslot⟩, ?_⟩
      cases i with
      | tileWriteComplete => exact .inl rfl
      | copyWriteComplete => exact .inr (.inl rfl)
      | correctionWriteComplete => exact .inr (.inr (.inl rfl))
      | deliveryReadComplete upset => exact .inr (.inr (.inr ⟨upset, .inl rfl⟩))
      | copyReadComplete upset => exact .inr (.inr (.inr ⟨upset, .inr (.inl rfl)⟩))
      | surveyReadComplete upset => exact .inr (.inr (.inr ⟨upset, .inr (.inr (.inl rfl))⟩))
      | correctionReadComplete upset => exact .inr (.inr (.inr ⟨upset, .inr (.inr (.inr rfl))⟩))
      | _ => cases hc
  · obtain ⟨t, he⟩ : ∃ t, exec i s = .next t := by
      by_cases hp : isPowerCommand i = true
      · exact (exec_power hp).imp fun _ h => h.1
      · exact (exec_goesOn (Bool.eq_false_iff.mpr hp) (Bool.eq_false_iff.mpr hc)).imp fun _ h => h.1
    rw [he]
    exact ⟨fun _ h => (by cases h), fun _ h => (by cases h)⟩

end Sys2Proof.Machine
end

