-- ==== Sys2Proof/Proofs/Parts.lean ====
section
/-! PROOF. Parts: for every operation of the blocks, the parts of the state that it may change. One lemma for each
operation says what it leaves alone; the same lemma says that it keeps the meter settings and adds to a grain accumulator
only by stage 5 of a posting. -/

namespace Sys2Proof.Machine

/-- A part of the state that an operation of the blocks may change; `orders` is which orders are in use, `memory` what the slots
hold, `settings` what requests alone set, and `marks` all that a notice has but its latch, which an event only sets. -/
inductive Part where
  | clock | catalogue | allocator | store | memory | port | mover | table | engine | settings | book | orders | meter
  | notices (l : LinkId) | marks
  deriving DecidableEq

/-- The parts of one list are among those of another, as a test that evaluates. -/
def Part.among (R' R : List Part) : Bool := R'.all R.contains

theorem Part.mem_of_among {R' R : List Part} (h : Part.among R' R = true) {p : Part} (hp : p ∈ R') : p ∈ R :=
  List.contains_iff_mem.mp (List.all_eq_true.mp h p hp)

/-- The operation keeps the meter but for its log, and an order after it has an accumulator below the divisor, or one that an order
of that id had before (R183). -/
structure State.Accrues (s t : State) : Prop where
  meter : t.meter = { s.meter with log := t.meter.log }
  grains : 1 ≤ s.meter.settings.divisor → ∀ o ∈ t.book.orders, o.accumulator < s.meter.settings.divisor ∨
    ∃ o' ∈ s.book.orders, o'.id = o.id ∧ o'.accumulator = o.accumulator

/-- The settings in force of the allocator, the deposit port, the delivery table and the engine. -/
def State.inForce (s : State) : Nat × Nat × (Nat × Nat) × List Profile × SurveySettings :=
  (s.alloc.lowWater, s.port.timeout, (s.table.period, s.table.depth), s.engine.profiles, s.engine.settings)

/-- From one controller to another only latches have been set. -/
def Controller.Latches (c c' : Controller) : Prop :=
  ∀ (m : Nat) (src : Source), c.sources[m]? = some src → ∃ b, c'.sources[m]? = some { src with latched := src.latched || b }

theorem Controller.Latches.refl (c : Controller) : c.Latches c := fun m src h => ⟨false, by simpa using h⟩
theorem Controller.Latches.trans {c c' c'' : Controller} (h : c.Latches c') (h' : c'.Latches c'') : c.Latches c'' := by
  intro m src hm
  obtain ⟨b, hb⟩ := h m src hm
  obtain ⟨b', hb'⟩ := h' m _ hb
  exact ⟨b || b', by rw [hb', Bool.or_assoc]⟩
theorem Controller.modify_latches (c : Controller) (n : Nat) : c.Latches (c.modify n fun src => { src with latched := true }) := by
  intro m src hm
  by_cases h : n = m
  · exact ⟨true, by simp [Controller.modify, h, hm]⟩
  · exact ⟨false, by simp [Controller.modify, h, hm]⟩

/-- From a state to a state only the parts named have changed, and the meter accrues. -/
structure State.Within (R : List Part) (s t : State) : Prop where
  power : t.power = s.power
  standbyOk : t.standbyOk = s.standbyOk
  sizeMoves : t.sizeMoves = s.sizeMoves
  freeCount : t.freeCount = s.freeCount
  deskTurn : t.deskTurn = s.deskTurn
  pending : t.pending = s.pending
  link : ∀ l, t.link l = { s.link l with notices := (t.link l).notices }
  accrues : s.Accrues t
  now : .clock ∉ R → t.now = s.now
  cat : .catalogue ∉ R → t.cat = s.cat
  alloc : .allocator ∉ R → t.alloc = s.alloc
  store : .store ∉ R → t.store = s.store
  port : .port ∉ R → t.port = s.port
  mover : .mover ∉ R → t.mover = s.mover
  table : .table ∉ R → t.table = s.table
  engine : .engine ∉ R → t.engine = s.engine
  book : .book ∉ R → t.book = s.book
  orderIds : .orders ∉ R → t.book.orders.map (·.id) = s.book.orders.map (·.id)
  meter : .meter ∉ R → t.meter = s.meter
  notices : ∀ l, .notices l ∉ R → (t.link l).notices = (s.link l).notices
  memory : .memory ∉ R → t.store.mem = s.store.mem
  inForce : .settings ∉ R → t.inForce = s.inForce
  latches : .marks ∉ R → ∀ l, (s.link l).notices.Latches (t.link l).notices

variable {s t u : State} {R R' : List Part} {stop : StopDeliveries}

namespace State

theorem Accrues.settings (h : s.Accrues t) : t.meter.settings = s.meter.settings := by rw [h.meter]

theorem Accrues.of_eq (hb : t.book.orders = s.book.orders) (hm : t.meter = { s.meter with log := t.meter.log }) : s.Accrues t :=
  ⟨hm, fun _ o ho => .inr ⟨o, hb ▸ ho, rfl, rfl⟩⟩

theorem Accrues.refl (s : State) : s.Accrues s := .of_eq rfl rfl

theorem Accrues.trans (h : s.Accrues t) (h' : t.Accrues u) : s.Accrues u := by
  refine ⟨by rw [h'.meter, h.meter], fun hd o ho => ?_⟩
  rcases h'.grains (h.settings ▸ hd) o ho with hlt | ⟨o', ho', hid, hacc⟩
  · exact .inl (h.settings ▸ hlt)
  · rcases h.grains hd o' ho' with hlt | ⟨o'', ho'', hid', hacc'⟩
    · exact .inl (hacc ▸ hlt)
    · exact .inr ⟨o'', ho'', hid'.trans hid, hacc'.trans hacc⟩

/-- All that an operation of the blocks can make of a state. -/
theorem Within.frame (h : s.Within R t) : t = { s with
    now := t.now, cat := t.cat, alloc := t.alloc, store := t.store, port := t.port, mover := t.mover, table := t.table
    engine := t.engine, book := t.book, meter := t.meter
    production := { s.production with notices := t.production.notices }
    desk := { s.desk with notices := t.desk.notices }, sales := { s.sales with notices := t.sales.notices } } := by
  have hproduction : t.production = { s.production with notices := t.production.notices } := h.link .production
  have hdesk : t.desk = { s.desk with notices := t.desk.notices } := h.link .desk
  have hsales : t.sales = { s.sales with notices := t.sales.notices } := h.link .sales
  rw [← hproduction, ← hdesk, ← hsales, ← h.power, ← h.standbyOk, ← h.sizeMoves, ← h.freeCount, ← h.deskTurn, ← h.pending]

theorem Within.productionNotices (h : s.Within R t) (hn : .notices .production ∉ R) : t.production.notices = s.production.notices :=
  h.notices .production hn
theorem Within.deskNotices (h : s.Within R t) (hn : .notices .desk ∉ R) : t.desk.notices = s.desk.notices := h.notices .desk hn
theorem Within.salesNotices (h : s.Within R t) (hn : .notices .sales ∉ R) : t.sales.notices = s.sales.notices :=
  h.notices .sales hn

theorem Within.refl (s : State) : s.Within R s where
  power := rfl
  standbyOk := rfl
  sizeMoves := rfl
  freeCount := rfl
  deskTurn := rfl
  pending := rfl
  link _ := rfl
  accrues := .refl s
  now _ := rfl
  cat _ := rfl
  alloc _ := rfl
  store _ := rfl
  port _ := rfl
  mover _ := rfl
  table _ := rfl
  engine _ := rfl
  book _ := rfl
  orderIds _ := rfl
  meter _ := rfl
  notices _ _ := rfl
  memory _ := rfl
  inForce _ := rfl
  latches _ _ := .refl _

/-- What changes only some parts changes only those among more. -/
theorem Within.mono (h : s.Within R' t) (hR : Part.among R' R = true) : s.Within R t where
  power := h.power
  standbyOk := h.standbyOk
  sizeMoves := h.sizeMoves
  freeCount := h.freeCount
  deskTurn := h.deskTurn
  pending := h.pending
  link := h.link
  accrues := h.accrues
  now hn := h.now (hn ∘ Part.mem_of_among hR)
  cat hn := h.cat (hn ∘ Part.mem_of_among hR)
  alloc hn := h.alloc (hn ∘ Part.mem_of_among hR)
  store hn := h.store (hn ∘ Part.mem_of_among hR)
  port hn := h.port (hn ∘ Part.mem_of_among hR)
  mover hn := h.mover (hn ∘ Part.mem_of_among hR)
  table hn := h.table (hn ∘ Part.mem_of_among hR)
  engine hn := h.engine (hn ∘ Part.mem_of_among hR)
  book hn := h.book (hn ∘ Part.mem_of_among hR)
  orderIds hn := h.orderIds (hn ∘ Part.mem_of_among hR)
  meter hn := h.meter (hn ∘ Part.mem_of_among hR)
  notices l hn := h.notices l (hn ∘ Part.mem_of_among hR)
  memory hn := h.memory (hn ∘ Part.mem_of_among hR)
  inForce hn := h.inForce (hn ∘ Part.mem_of_among hR)
  latches hn := h.latches (hn ∘ Part.mem_of_among hR)

theorem Within.trans (h : s.Within R t) (h' : t.Within R u) : s.Within R u where
  power := h'.power.trans h.power
  standbyOk := h'.standbyOk.trans h.standbyOk
  sizeMoves := h'.sizeMoves.trans h.sizeMoves
  freeCount := h'.freeCount.trans h.freeCount
  deskTurn := h'.deskTurn.trans h.deskTurn
  pending := h'.pending.trans h.pending
  link l := by rw [h'.link l, h.link l]
  accrues := h.accrues.trans h'.accrues
  now hn := (h'.now hn).trans (h.now hn)
  cat hn := (h'.cat hn).trans (h.cat hn)
  alloc hn := (h'.alloc hn).trans (h.alloc hn)
  store hn := (h'.store hn).trans (h.store hn)
  port hn := (h'.port hn).trans (h.port hn)
  mover hn := (h'.mover hn).trans (h.mover hn)
  table hn := (h'.table hn).trans (h.table hn)
  engine hn := (h'.engine hn).trans (h.engine hn)
  book hn := (h'.book hn).trans (h.book hn)
  orderIds hn := (h'.orderIds hn).trans (h.orderIds hn)
  meter hn := (h'.meter hn).trans (h.meter hn)
  notices l hn := (h'.notices l hn).trans (h.notices l hn)
  memory hn := (h'.memory hn).trans (h.memory hn)
  inForce hn := (h'.inForce hn).trans (h.inForce hn)
  latches hn l := (h.latches hn l).trans (h'.latches hn l)

/-- A further operation that changes only parts among those that may have changed. -/
theorem Within.step (h : s.Within R t) (h' : t.Within R' u) (hR : Part.among R' R = true) : s.Within R u :=
  h.trans (h'.mono hR)

theorem foldl_within {α : Type} {f : State → α → State} (hf : ∀ (s : State) a, s.Within R (f s a)) (l : List α) (s : State) :
    s.Within R (l.foldl f s) := by
  induction l generalizing s with
  | nil => exact .refl s
  | cons a l ih => exact (hf s a).trans (ih (f s a))

/-! ## The blocks -/

theorem modCat_within (f : Catalogue → Catalogue) : s.Within [.catalogue] (s.modCat f) where
  __ := Within.refl (R := [.catalogue]) s
  accrues := .of_eq rfl rfl
  cat hn := absurd (.head _) hn
theorem modAlloc_within (f : Allocator → Allocator) (h : (f s.alloc).lowWater = s.alloc.lowWater) :
    s.Within [.allocator] (s.modAlloc f) where
  __ := Within.refl (R := [.allocator]) s
  accrues := .of_eq rfl rfl
  alloc hn := absurd (.head _) hn
  inForce _ := by simp [State.inForce, h]
/-- A change of the store that keeps what the slots hold. -/
theorem modStore_within (f : Store → Store) (h : (f s.store).mem = s.store.mem) : s.Within [.store] (s.modStore f) where
  __ := Within.refl (R := [.store]) s
  accrues := .of_eq rfl rfl
  store hn := absurd (.head _) hn
  memory _ := h
theorem modStore_mem_within (f : Store → Store) : s.Within [.store, .memory] (s.modStore f) where
  __ := Within.refl (R := [.store, .memory]) s
  accrues := .of_eq rfl rfl
  store hn := absurd (.head _) hn
  memory hn := absurd (.tail _ (.head _)) hn
theorem modPort_within (f : DepositPort → DepositPort) (h : (f s.port).timeout = s.port.timeout) :
    s.Within [.port] (s.modPort f) where
  __ := Within.refl (R := [.port]) s
  accrues := .of_eq rfl rfl
  port hn := absurd (.head _) hn
  inForce _ := by simp [State.inForce, h]
theorem modMover_within (f : Mover → Mover) : s.Within [.mover] (s.modMover f) where
  __ := Within.refl (R := [.mover]) s
  accrues := .of_eq rfl rfl
  mover hn := absurd (.head _) hn
theorem modChannel_within (c : Fin 4) (f : Channel → Channel) : s.Within [.mover] (s.modChannel c f) := modMover_within _
theorem modTable_within (f : DeliveryTable → DeliveryTable) (hp : (f s.table).period = s.table.period)
    (hd : (f s.table).depth = s.table.depth) : s.Within [.table] (s.modTable f) where
  __ := Within.refl (R := [.table]) s
  accrues := .of_eq rfl rfl
  table hn := absurd (.head _) hn
  inForce _ := by simp [State.inForce, hp, hd]
theorem modEngine_within (f : Engine → Engine) (hp : (f s.engine).profiles = s.engine.profiles)
    (hs : (f s.engine).settings = s.engine.settings) : s.Within [.engine] (s.modEngine f) where
  __ := Within.refl (R := [.engine]) s
  accrues := .of_eq rfl rfl
  engine hn := absurd (.head _) hn
  inForce _ := by simp [State.inForce, hp, hs]
/-- A change of the engine that may change its settings and profiles. -/
theorem modEngine_settings_within (f : Engine → Engine) : s.Within [.engine, .settings] (s.modEngine f) where
  __ := Within.refl (R := [.engine, .settings]) s
  accrues := .of_eq rfl rfl
  engine hn := absurd (.head _) hn
  inForce hn := absurd (.tail _ (.head _)) hn
theorem reach_within (m : Nat) : s.Within [.clock] (s.reach m) where
  __ := Within.refl (R := [.clock]) s
  accrues := .of_eq rfl rfl
  now hn := absurd (.head _) hn

/-- A change of the order book whose orders accrue, with the same orders in use. -/
theorem modBook_within (f : OrderBook → OrderBook) (h : s.Accrues (s.modBook f))
    (hids : (f s.book).orders.map (·.id) = s.book.orders.map (·.id)) : s.Within [.book] (s.modBook f) where
  __ := Within.refl (R := [.book]) s
  accrues := h
  orderIds _ := hids
  book hn := absurd (.head _) hn
/-- A change of the order book that may put orders into use or free them. -/
theorem modBook_orders_within (f : OrderBook → OrderBook) (h : s.Accrues (s.modBook f)) :
    s.Within [.book, .orders] (s.modBook f) where
  __ := Within.refl (R := [.book, .orders]) s
  accrues := h
  book hn := absurd (.head _) hn
  orderIds hn := absurd (.tail _ (.head _)) hn
/-- A change of the meter's log. -/
theorem modMeter_within (f : Meter → Meter) (h : f s.meter = { s.meter with log := (f s.meter).log }) :
    s.Within [.meter] (s.modMeter f) where
  __ := Within.refl (R := [.meter]) s
  accrues := .of_eq rfl h
  meter hn := absurd (.head _) hn

theorem modNotices_of (l : LinkId) (f : Controller → Controller) (hR : .notices l ∈ R)
    (hf : .marks ∉ R → (s.link l).notices.Latches (f (s.link l).notices)) : s.Within R (s.modNotices l f) where
  power := by simp
  standbyOk := by simp
  sizeMoves := by simp
  freeCount := by simp
  deskTurn := by simp
  pending := by simp
  link l' := by
    by_cases h : l' = l
    · subst h; simp [State.modNotices]
    · simp [State.modNotices, State.setLink_link_other _ _ _ _ h]
  accrues := .of_eq (by simp) (by simp)
  now _ := by simp
  cat _ := by simp
  alloc _ := by simp
  store _ := by simp
  port _ := by simp
  mover _ := by simp
  table _ := by simp
  engine _ := by simp
  book _ := by simp
  orderIds _ := by simp
  meter _ := by simp
  notices l' hn := by
    have : l' ≠ l := fun e => hn (e ▸ hR)
    simp [State.modNotices, State.setLink_link_other _ _ _ _ this]
  memory _ := by simp
  inForce _ := by simp [State.inForce]
  latches hn l' := by
    by_cases h : l' = l
    · subst h; simpa [State.modNotices] using hf hn
    · simpa [State.modNotices, State.setLink_link_other _ _ _ _ h] using Controller.Latches.refl _

/-- A change of a controller that only sets latches. -/
theorem modNotices_within (l : LinkId) (f : Controller → Controller) (hf : (s.link l).notices.Latches (f (s.link l).notices)) :
    s.Within [.notices l] (s.modNotices l f) := modNotices_of l f (.head _) fun _ => hf
theorem modNotices_marks_within (l : LinkId) (f : Controller → Controller) : s.Within [.notices l, .marks] (s.modNotices l f) :=
  modNotices_of l f (.head _) fun hn => absurd (.tail _ (.head _)) hn

theorem raise_within (n : Notice) : s.Within [.notices n.link] (s.raise n) :=
  modNotices_within _ _ (Controller.modify_latches _ _)

/-! ## Orders -/

/-- A change of one order that keeps its id and its accumulator. -/
theorem modOrder_accrues (id : Nat) (f : Order → Order) (hf : ∀ o, (f o).id = o.id ∧ (f o).accumulator = o.accumulator) :
    s.Accrues (s.modBook (·.modOrder id f)) := by
  refine ⟨rfl, fun _ o ho => .inr ?_⟩
  obtain ⟨o', ho', rfl⟩ := List.mem_map.mp ho
  refine ⟨o', ho', ?_⟩
  split
  · exact ⟨(hf o').1.symm, (hf o').2.symm⟩
  · exact ⟨rfl, rfl⟩

theorem modOrder_within (id : Nat) (f : Order → Order) (hf : ∀ o, (f o).id = o.id ∧ (f o).accumulator = o.accumulator) :
    s.Within [.book] (s.modBook (·.modOrder id f)) :=
  modBook_within _ (modOrder_accrues id f hf) (map_modifyWhere _ _ _ (fun o => (hf o).1) _)

theorem modItem_within (order n : Nat) (f : Item → Item) : s.Within [.book] (s.modBook (·.modItem order n f)) :=
  modOrder_within order _ fun _ => ⟨rfl, rfl⟩

theorem setStatus_within (id : Nat) (status : AccountStatus) (timer : Option Nat) :
    s.Within [.book] (s.setStatus id status timer) := modBook_within _ (.of_eq rfl rfl) rfl

theorem inFlightDown_within (id : Nat) : s.Within [.book, .notices .sales] (s.inFlightDown id) := by
  unfold State.inFlightDown
  have hdown := ((modOrder_within (s := s) id (fun o => { o with inFlight := o.inFlight - 1 }) fun _ => ⟨rfl, rfl⟩).mono
    (R := [.book, .notices .sales]) rfl)
  dsimp only
  split
  · split
    · exact (hdown.step (modOrder_within id (fun o => { o with state := .closed }) fun _ => ⟨rfl, rfl⟩) rfl).step (raise_within .orderClosed) rfl
    · exact hdown
  · exact hdown

/-! ## Editions, photographs and readers -/

theorem releaseAll_within (ns : List Nat) : s.Within [.allocator] (s.releaseAll ns) :=
  modAlloc_within _ (foldl_lowWater Allocator.release_lowWater ns s.alloc)

theorem removeRevision_within (r : RevName) : s.Within [.catalogue, .allocator] (s.removeRevision r) := by
  unfold State.removeRevision
  split
  · exact .refl s
  · exact (((Within.refl s).step (modCat_within _) rfl).step (releaseAll_within _) rfl).step (modCat_within _) rfl

theorem removePhoto_within (id : Nat) : s.Within [.catalogue, .allocator] (s.removePhoto id) := by
  unfold State.removePhoto
  split
  · exact .refl s
  · exact ((Within.refl s).step (releaseAll_within _) rfl).step (modCat_within _) rfl

theorem closeIfDone_within (ed : Nat) : s.Within [.catalogue, .notices .production] (s.closeIfDone ed) := by
  unfold State.closeIfDone
  split
  · exact .refl s
  · split
    · exact ((Within.refl s).step (modCat_within _) rfl).step (raise_within .closeDone) rfl
    · exact .refl s

theorem dissolve_within (e : Edition) : s.Within [.catalogue, .allocator] (s.dissolve e) := by
  unfold State.dissolve
  exact (foldl_within (fun _ r => removeRevision_within r) e.revNames s).step (modCat_within _) rfl

theorem retireCheck_within (ed : Nat) :
    s.Within [.catalogue, .allocator, .notices .production] (s.retireCheck ed) := by
  unfold State.retireCheck
  split
  · exact .refl s
  · split
    · dsimp only
      split
      · exact ((dissolve_within _).mono rfl).step (raise_within .retireDone) rfl
      · exact (dissolve_within _).mono rfl
    · exact .refl s

theorem readerEnd_within (n : Nat) : s.Within [.catalogue, .allocator, .notices .production] (s.readerEnd n) := by
  unfold State.readerEnd
  split
  · exact .refl s
  · have hless := ((modAlloc_within (s := s) (·.modExtent n fun e => { e with readers := e.readers - 1 }) rfl).mono
      (R := [.catalogue, .allocator, .notices .production]) rfl)
    dsimp only
    split
    · exact hless
    · repeat' split
      all_goals first
        | exact hless
        | exact hless.step (modAlloc_within _ (Allocator.giveBack_lowWater _ _)) rfl
        | exact hless.step (retireCheck_within _) rfl

theorem recordDamage_within (slot : Nat) (reader : ReaderKind) :
    s.Within [.catalogue, .store, .notices .production] (s.recordDamage slot reader) := by
  unfold State.recordDamage
  dsimp only
  split
  · exact (modStore_within _ rfl).mono rfl
  · split
    · exact ((modStore_within _ rfl).mono rfl).step (modCat_within _) rfl
    · exact (((modStore_within _ rfl).mono rfl).step (modCat_within _) rfl).step (raise_within .tileDamaged) rfl

theorem readTile_within (slot : Nat) (us : List Upset) (reader : ReaderKind) :
    s.Within [.catalogue, .store, .memory, .notices .production] (s.readTile slot us reader).2.2 := by
  unfold State.readTile
  dsimp only
  split
  · exact ((modStore_mem_within _).mono rfl).step (recordDamage_within _ _) rfl
  · exact (modStore_mem_within _).mono rfl

end State
end Sys2Proof.Machine
end

