-- ==== Sys2Proof/Proofs/Reach.lean ====
section
/-! PROOF. The mover, the meter and the restoration engine: which parts of the state their operations leave alone. -/

namespace Sys2Proof.Machine

variable {s t u : State} {R R' : List Part} {stop : StopDeliveries}

/-- The parts that a posting and the ends of deliveries may change. -/
abbrev postable : List Part :=
  [.catalogue, .allocator, .store, .mover, .table, .book, .meter, .notices .production, .notices .desk, .notices .sales]

/-- The parts that the engine may change without a posting. -/
abbrev restorable : List Part :=
  [.catalogue, .allocator, .store, .engine, .book, .notices .production, .notices .desk, .notices .sales]

/-- What stops an account's deliveries changes only what a posting may change. -/
def StopDeliveries.Bounded (stop : StopDeliveries) : Prop := ∀ n (s : State), s.Within postable (stop n s)

namespace State

/-! ## Channels and handouts -/

theorem issueRead_within (c : Fin 4) : s.Within [.mover, .store] (s.issueRead c) := by
  unfold State.issueRead
  dsimp only
  split
  · exact .refl s
  · split
    · split
      · exact ((Within.refl s).step (modChannel_within _ _) rfl).step (modStore_within _ (Store.ask_calm _ _ _).left) rfl
      · exact .refl s
    · exact .refl s

theorem startDelivery_within (c : Fin 4) (d : Delivery) : s.Within [.mover, .table, .store] (s.startDelivery c d) := by
  unfold State.startDelivery
  dsimp only
  refine Within.step ?_ (issueRead_within c) rfl
  split
  · exact ((((Within.refl s).step (modMover_within _) rfl).step (modChannel_within _ _) rfl).step (modTable_within _ rfl rfl) rfl).step
      (modStore_within _ rfl) rfl
  · exact (((Within.refl s).step (modMover_within _) rfl).step (modChannel_within _ _) rfl).step (modTable_within _ rfl rfl) rfl

theorem endCompaction_within (o : CompactionOutcome) : s.Within [.allocator, .notices .production] (s.endCompaction o) := by
  unfold State.endCompaction
  dsimp only
  split
  · exact (modAlloc_within _ rfl).mono rfl
  · exact ((modAlloc_within _ rfl).mono rfl).step (raise_within .compactDone) rfl

theorem issueCopyRead_within (c : Fin 4) : s.Within [.mover, .store] (s.issueCopyRead c) := by
  unfold State.issueCopyRead
  split
  · exact .refl s
  · exact ((Within.refl s).step (modChannel_within _ _) rfl).step (modStore_within _ (Store.ask_calm _ _ _).left) rfl

theorem startCopy_within (c : Fin 4) :
    s.Within [.allocator, .store, .mover, .notices .production] (s.startCopy c) := by
  unfold State.startCopy
  dsimp only
  split
  · exact ((Within.refl s).step (modMover_within _) rfl).step (endCompaction_within _) rfl
  · exact ((((Within.refl s).step (modMover_within _) rfl).step (modAlloc_within _ rfl) rfl).step (modChannel_within _ _) rfl).step
      (issueCopyRead_within c) rfl

theorem handoutLoop_within (n : Nat) :
    s.Within [.allocator, .store, .mover, .table, .notices .production] (s.handoutLoop n) := by
  induction n generalizing s with
  | zero => exact .refl s
  | succ n ih =>
    unfold State.handoutLoop
    repeat' split
    · exact .refl s
    · exact ((startDelivery_within _ _).mono rfl).step ih rfl
    · exact ((startCopy_within _).mono rfl).step ih rfl
    · exact .refl s

theorem handout_within : s.Within [.allocator, .store, .mover, .table, .notices .production] s.handout :=
  handoutLoop_within _

theorem finishRecord_within (n : Nat) (final : DeliveryState) (cause : EndCause) :
    s.Within [.table] (s.finishRecord n final cause) := modTable_within _ rfl rfl

theorem quietChannel_within (c : Fin 4) : s.Within [.store, .mover] (s.quietChannel c) :=
  ((modStore_within _ (Store.withdraw_calm _ _).left).mono rfl).step (modChannel_within _ _) rfl

theorem readArrives_within (c : Fin 4) (x : Tile) (bad : Bool) : s.Within [.mover, .store] (s.readArrives c x bad) := by
  unfold State.readArrives
  split
  · exact .refl s
  · have hread := ((Within.refl s).step (R := [.mover, .store]) (modChannel_within c
      fun ch => { ch with buffer := ch.buffer.map (Place.fill x bad) }) rfl).step (issueRead_within c) rfl
    dsimp only
    split
    · exact hread
    · exact hread.step (modChannel_within _ _) rfl

theorem copyArrives_within (c : Fin 4) (x : Tile) (bad : Bool) : s.Within [.mover, .store] (s.copyArrives c x bad) := by
  unfold State.copyArrives
  split
  · exact .refl s
  · exact ((Within.refl s).step (modChannel_within _ _) rfl).step (modStore_within _ (Store.ask_calm _ _ _).left) rfl

/-! ## Postings and evaluations -/

theorem cutOffAccount_within (hs : stop.Bounded) (id : Nat) : s.Within postable (s.cutOffAccount stop id) := by
  unfold State.cutOffAccount
  exact (((setStatus_within _ _ _).mono rfl).step (hs _ _) rfl).step (raise_within .accountCutOff) rfl

theorem enterWatch_within (hs : stop.Bounded) (id : Nat) : s.Within postable (s.enterWatch stop id) := by
  unfold State.enterWatch
  have hwatch := (((setStatus_within (s := s) id .watch (some (s.timerEnd s.meter.settings.cutOff))).mono (R := postable) rfl)).step
    (raise_within .accountWatch) rfl
  dsimp only
  split
  · exact hwatch.step (cutOffAccount_within hs _) rfl
  · exact hwatch

theorem enterReinstating_within (id : Nat) : s.Within [.book, .notices .sales] (s.enterReinstating id) := by
  unfold State.enterReinstating
  split
  · exact ((setStatus_within _ _ _).mono rfl).step (raise_within .accountReinstated) rfl
  · exact (setStatus_within _ _ _).mono rfl

theorem evaluate_within (hs : stop.Bounded) (id : Nat) : s.Within postable (s.evaluate stop id) := by
  unfold State.evaluate
  dsimp only
  split
  · exact .refl s
  · split
    · split
      · exact ((setStatus_within _ _ _).mono rfl).step (raise_within .accountReinstated) rfl
      · exact (setStatus_within _ _ _).mono rfl
    · split
      · split
        · exact enterWatch_within hs id
        · exact .refl s
      · split
        · exact (setStatus_within _ _ _).mono rfl
        · exact .refl s
      · split
        · exact (enterReinstating_within id).mono rfl
        · exact .refl s
      · split
        · exact cutOffAccount_within hs id
        · exact .refl s

/-- Stage 5 leaves the order's accumulator below the divisor (R183). -/
theorem carry_accumulator_lt {d : Nat} (hd : 1 ≤ d) (net : Nat) (o : Order) : (Order.carry d net o).accumulator < d :=
  Nat.mod_lt _ hd

/-- An order after stage 5: that of the posting has its accumulator below the divisor, and the others stay (R183). -/
theorem accumulate_orders (o : Order) (net : Nat) : (s.accumulate o net).book.orders =
    modifyWhere (·.id = o.id) (Order.carry s.meter.settings.divisor net) s.book.orders := by
  unfold State.accumulate
  dsimp only
  split
  · rw [raise_book]; rfl
  · rfl

theorem accumulate_within (o : Order) (net : Nat) : s.Within [.book, .notices .sales] (s.accumulate o net) := by
  unfold State.accumulate
  have hbook := ((modBook_within (s := s) (fun b => (b.modOrder o.id (Order.carry s.meter.settings.divisor net)).modAccount
    o.account fun a => { a with owed := addUnits a.owed (o.quotient s.meter.settings.divisor net) })
    ⟨rfl, fun hd x hx => by
      obtain ⟨x', hx', rfl⟩ := List.mem_map.mp hx
      split
      · exact .inl (carry_accumulator_lt hd net x')
      · exact .inr ⟨x', hx', rfl, rfl⟩⟩ (map_modifyWhere _ _ _ (by intro _; rfl) _)).mono (R := [.book, .notices .sales]) rfl)
  dsimp only
  split
  · exact hbook.step (raise_within .meterSaturated) rfl
  · exact hbook

theorem addEntry_within (e : LogEntry) : s.Within [.meter] (s.modMeter (Meter.addEntry e)) := modMeter_within _ rfl

theorem post_within (hs : stop.Bounded) (c : Charge) : s.Within postable (s.post stop c) := by
  unfold State.post
  dsimp only
  split
  · exact .refl s
  · have hlogged := fun o net e => (((accumulate_within (s := s) o net).mono (R := postable) rfl)).step (addEntry_within e) rfl
    split
    · exact hlogged _ _ _
    · exact (hlogged _ _ _).step (evaluate_within hs _) rfl

/-! ## The ends of deliveries -/

theorem deliveryEnd_within (hs : stop.Bounded) (notice : Bool) (d : Delivery) :
    s.Within postable (s.deliveryEnd stop notice d) := by
  unfold State.deliveryEnd
  have hreader := ((readerEnd_within (s := s) d.extent).mono (R := postable) rfl)
  have hposted : ∀ o i f, s.Within postable ((((s.readerEnd d.extent).post stop
      (Figures.charge f o i d.handle d.sent)).modBook (·.modItem o i (Item.afterDelivery d.state f.repeated))).inFlightDown o) :=
    fun o i f => ((hreader.step (post_within hs _) rfl).step (modItem_within _ _ _) rfl).step (inFlightDown_within _) rfl
  dsimp only
  split <;> split
  · split
    · exact (hposted _ _ _).step (raise_within .deliveryDone) rfl
    · exact (hposted _ _ _).step (raise_within .deliveryStopped) rfl
  · split
    · exact hreader.step (raise_within .deliveryDone) rfl
    · exact hreader.step (raise_within .deliveryStopped) rfl
  · exact hposted _ _ _
  · exact hreader

theorem endRecord_within (hs : stop.Bounded) (notice : Bool) (n : Nat) :
    s.Within postable (s.endRecord stop notice n) := by
  unfold State.endRecord
  split
  · exact deliveryEnd_within hs _ _
  · exact .refl s

theorem endChannelWork_within (hs : stop.Bounded) (notice : Bool) (c : Fin 4) (d : Delivery) (final : DeliveryState)
    (cause : EndCause) : s.Within postable (s.endChannelWork stop notice c d final cause) := by
  unfold State.endChannelWork
  have hended := ((((Within.refl s).step (R := postable) (modStore_within (Store.withdraw (.channel c)) (Store.withdraw_calm _ _).left) rfl).step
    (modChannel_within c fun _ => {}) rfl).step (finishRecord_within d.handle final cause) rfl).step
    (endRecord_within hs notice d.handle) rfl
  dsimp only
  refine Within.step ?_ handout_within rfl
  split
  · exact hended.step (modStore_within _ (Store.fixedDown_calm _ _).left) rfl
  · exact hended

theorem endWaiting_within (hs : stop.Bounded) (notice : Bool) (d : Delivery) (cause : EndCause) :
    s.Within postable (s.endWaiting stop notice d cause) := by
  unfold State.endWaiting
  exact ((((Within.refl s).step (modMover_within _) rfl).step (finishRecord_within _ _ _) rfl).step
    (endRecord_within hs _ _) rfl).step handout_within rfl

theorem breakOff_within (hs : stop.Bounded) (c : Fin 4) (d : Delivery) (final : DeliveryState) (cause : EndCause) :
    s.Within postable (s.breakOff stop c d final cause) := by
  unfold State.breakOff
  have hquiet := ((quietChannel_within (s := s) c).mono (R := postable) rfl)
  dsimp only
  split
  · exact (hquiet.step (modChannel_within _ _) rfl).step (modTable_within _ rfl rfl) rfl
  · exact hquiet.step (endChannelWork_within hs _ _ _ _ _) rfl

theorem stopDelivery_within (hs : stop.Bounded) (cause : EndCause) (n : Nat) :
    s.Within postable (s.stopDelivery stop cause n) := by
  unfold State.stopDelivery
  split
  · exact .refl s
  · split
    · exact endWaiting_within hs _ _ _
    · exact breakOff_within hs _ _ _ _
    · exact .refl s

theorem stopAccount_bounded (depth : Nat) : StopDeliveries.Bounded (State.stopAccount depth) := by
  induction depth with
  | zero => exact fun _ s => .refl s
  | succ depth ih => exact fun _ s => foldl_within (fun _ n => stopDelivery_within ih _ n) _ s

theorem cutOffDeliveries_bounded : cutOffDeliveries.Bounded := stopAccount_bounded 8

theorem afterFrame_within (hs : stop.Bounded) (c : Fin 4) (d : Delivery) :
    s.Within postable (s.afterFrame stop c d) := by
  unfold State.afterFrame
  dsimp only
  repeat' split
  all_goals first
    | exact endChannelWork_within hs _ _ _ _ _
    | exact ((issueRead_within c).mono rfl).step (modChannel_within _ _) rfl

theorem frameEnd_within (hs : stop.Bounded) (c : Fin 4) : s.Within postable (s.frameEnd stop c) := by
  unfold State.frameEnd
  dsimp only
  repeat' split
  all_goals first
    | exact .refl s
    | exact (((Within.refl s).step (modChannel_within _ _) rfl).step (modTable_within _ rfl rfl) rfl).step (afterFrame_within hs _ _) rfl

theorem periodBegins_within (hs : stop.Bounded) (c : Fin 4) (d : Delivery) (p : Pacing) :
    s.Within (.clock :: postable) (s.periodBegins stop c d p) := by
  unfold State.periodBegins
  have hbegun := fun m => (((reach_within (s := s) m).mono (R := .clock :: postable) rfl)).step
    (modChannel_within c fun ch => { ch with period := ch.period + 1 }) rfl
  dsimp only
  repeat' split
  all_goals first
    | exact hbegun _
    | exact (hbegun _).step (breakOff_within hs _ _ _ _) rfl
    | exact (hbegun _).step (modChannel_within _ _) rfl

theorem resetDelivery_within (hs : stop.Bounded) (n : Nat) : s.Within postable (s.resetDelivery stop n) := by
  unfold State.resetDelivery
  repeat' split
  all_goals first
    | exact .refl s
    | exact endWaiting_within hs _ _ _
    | exact endChannelWork_within hs _ _ _ _ _

theorem endAllDeliveries_within (hs : stop.Bounded) : s.Within postable (s.endAllDeliveries stop) := by
  unfold State.endAllDeliveries
  exact ((foldl_within (fun _ n => resetDelivery_within hs n) _ s).trans
    (foldl_within (fun _ n => resetDelivery_within hs n) _ _)).step (modTable_within _ rfl rfl) rfl

/-! ## Jobs -/

theorem askRestoration_within (slot : Nat) (kind : TransferKind) : s.Within [.store] (s.askRestoration slot kind) :=
  modStore_within _ (Store.ask_calm _ _ _).left

theorem engineRead_within : s.Within [.store] s.engineRead := by
  unfold State.engineRead
  repeat' split
  all_goals first
    | exact .refl s
    | exact askRestoration_within _ _

theorem downgradeItems_within (rs : List (Nat × Nat)) : s.Within [.book, .notices .sales] (s.downgradeItems rs) :=
  foldl_within (fun _ r => ((modItem_within r.1 r.2 Item.downgrade).mono rfl).step (raise_within .itemReady) rfl) rs s

theorem jobReaderEnd_within (j : Job) :
    s.Within [.catalogue, .allocator, .notices .production] (s.jobReaderEnd j) := by
  unfold State.jobReaderEnd
  repeat' split
  all_goals first
    | exact .refl s
    | exact readerEnd_within _

theorem endJob_within (final : JobState) (cause : JobEnd) (refusal : Option AllocRefusal) (j : Job) :
    s.Within [.catalogue, .allocator, .engine, .book, .notices .production, .notices .desk, .notices .sales]
      (s.endJob final cause refusal j) := by
  have hended : ∀ u : State, s.Within [.allocator] u →
      s.Within [.catalogue, .allocator, .engine, .book, .notices .production, .notices .desk, .notices .sales]
        (((u.modEngine fun g => { g with queue := g.queue.filter (·.id ≠ j.id) }).jobReaderEnd j).downgradeItems
          j.requesters) := fun u hu =>
    (((hu.mono rfl).step (modEngine_within _ rfl rfl) rfl).step (jobReaderEnd_within j) rfl).step (downgradeItems_within _) rfl
  have hfreed : s.Within [.allocator] (match j.scratch with
      | some n => s.modAlloc (·.release n)
      | none => s) := by
    split
    · exact modAlloc_within _ (Allocator.release_lowWater _ _)
    · exact .refl s
  unfold State.endJob
  dsimp only
  split
  · split
    · exact (hended _ hfreed).step (modEngine_within _ rfl rfl) rfl
    · exact ((hended _ hfreed).step (raise_within .restoreFailed) rfl).step (modEngine_within _ rfl rfl) rfl
  · exact hended _ hfreed

theorem startJob_within (j : Job) : s.Within restorable (s.startJob j) := by
  unfold State.startJob
  dsimp only
  split
  · exact .refl s
  · split
    · exact (endJob_within _ _ _ _).mono rfl
    · split
      · exact (endJob_within _ _ _ _).mono rfl
      · exact ((((modAlloc_within _ rfl).mono rfl).step (modAlloc_within _ rfl) rfl).step (modEngine_within _ rfl rfl) rfl).step engineRead_within rfl

theorem startJobs_within (n : Nat) : s.Within restorable (s.startJobs n) := by
  induction n generalizing s with
  | zero => exact .refl s
  | succ n ih =>
    unfold State.startJobs
    repeat' split
    · exact (startJob_within _).step ih rfl
    · exact .refl s
    · exact .refl s

theorem startNext_within : s.Within restorable s.startNext := startJobs_within _

theorem cancelJob_within (cause : CancelCause) (j : Job) : s.Within restorable (s.cancelJob cause j) := by
  unfold State.cancelJob
  split
  · exact (endJob_within _ _ _ _).mono rfl
  · split
    · exact (modEngine_within _ rfl rfl).mono rfl
    · exact (((modStore_within _ (Store.withdraw_calm _ _).left).mono rfl).step (endJob_within _ _ _ _) rfl).step startNext_within rfl

theorem cancelIfAlone_within (id : Nat) : s.Within restorable (s.cancelIfAlone id) := by
  unfold State.cancelIfAlone
  repeat' split
  all_goals first
    | exact .refl s
    | exact cancelJob_within _ _

theorem leaveJob_within (order item : Nat) : s.Within restorable (s.leaveJob order item) := by
  unfold State.leaveJob
  split
  · exact .refl s
  · exact ((modEngine_within _ rfl rfl).mono rfl).step (cancelIfAlone_within _) rfl

theorem requestJob_within (who : Option (Nat × Nat)) (r : RevName) (v : Revision) (source : ToneSource) :
    s.Within [.engine] (s.requestJob who r v source).2 := by
  unfold State.requestJob
  dsimp only
  repeat' split
  all_goals first
    | exact .refl s
    | (dsimp only; exact modEngine_within _ rfl rfl)

/-- The parts that the engine may change when it posts. -/
abbrev publishable : List Part := .engine :: postable

theorem itemPublished_within (hs : stop.Bounded) (j : Job) (r : Nat × Nat) :
    s.Within postable (State.itemPublished stop j s r) := by
  unfold State.itemPublished
  split
  · exact .refl s
  · exact (((modItem_within _ _ _).mono rfl).step (post_within hs _) rfl).step (raise_within .itemReady) rfl

theorem publish_within (hs : stop.Bounded) (j : Job) (scratch : Nat) : s.Within publishable (s.publish stop j scratch) := by
  have hpublished : ∀ u : State, s.Within publishable u → s.Within publishable
      (j.requesters.foldl (State.itemPublished stop j)
        ((u.modEngine fun g => { g with queue := g.queue.filter (·.id ≠ j.id) }).jobReaderEnd j)) := fun u hu =>
    ((hu.step (modEngine_within _ rfl rfl) rfl).step (jobReaderEnd_within j) rfl).step
      (foldl_within (fun _ r => itemPublished_within hs j r) _ _) rfl
  have hshown := (((modAlloc_within (s := s) (·.modExtent scratch fun e => { e with state := .live }) rfl).mono
    (R := publishable) rfl)).step (modCat_within (·.modRevision j.revision fun v =>
      { v with restored := some (j.rendition scratch), damage := v.damage.dropRestored })) rfl
  unfold State.publish
  dsimp only
  refine Within.step ?_ startNext_within rfl
  split <;> split
  · exact ((hpublished _ (hshown.step (modAlloc_within _ (Allocator.release_lowWater _ _)) rfl)).step (raise_within .restoreDone) rfl).step (modEngine_within _ rfl rfl) rfl
  · exact ((hpublished _ hshown).step (raise_within .restoreDone) rfl).step (modEngine_within _ rfl rfl) rfl
  · exact hpublished _ (hshown.step (modAlloc_within _ (Allocator.release_lowWater _ _)) rfl)
  · exact hpublished _ hshown

theorem atBoundary_within (j : Job) (goOn : State → State) (hr : Part.among restorable R = true) (hg : s.Within R (goOn s)) :
    s.Within R (s.atBoundary j goOn) := by
  unfold State.atBoundary
  split
  · exact ((((endJob_within _ _ _ _).mono (R := restorable) rfl)).step startNext_within rfl).mono hr
  · exact hg

theorem afterRawRead_within (j : Job) (goOn : State → State) (hg : s.Within restorable (goOn s)) :
    s.Within restorable (s.afterRawRead j goOn) := by
  unfold State.afterRawRead
  split
  · exact ((endJob_within _ _ _ _).mono rfl).step startNext_within rfl
  · exact hg

theorem surveyArrives_within (x : Tile) (bad : Bool) (j : Job) (v : Revision) :
    s.Within restorable (s.surveyArrives x bad j v) := by
  unfold State.surveyArrives
  refine afterRawRead_within j _ ?_
  dsimp only
  generalize j.surveyTile _ _ _ = done
  refine ((modEngine_within _ rfl rfl).mono rfl).trans (atBoundary_within _ _ rfl ?_)
  refine Within.step (R := restorable) ?_ engineRead_within rfl
  split
  · exact (modEngine_within _ rfl rfl).mono rfl
  · exact .refl _

theorem correctionArrives_within (x : Tile) (bad : Bool) (j : Job) :
    s.Within restorable (s.correctionArrives x bad j) := by
  unfold State.correctionArrives
  refine afterRawRead_within j _ (atBoundary_within _ _ rfl ?_)
  split
  · exact .refl s
  · exact ((modEngine_within _ rfl rfl).mono rfl).step (askRestoration_within _ _) rfl

theorem correctionWritten_within (hs : stop.Bounded) (j : Job) (v : Revision) :
    s.Within publishable (s.correctionWritten stop j v) := by
  unfold State.correctionWritten
  dsimp only
  refine ((modEngine_within _ rfl rfl).mono rfl).trans (atBoundary_within _ _ rfl ?_)
  repeat' split
  · exact publish_within hs _ _
  · exact .refl _
  · exact (engineRead_within.mono rfl)

theorem resetDeskFlags_within : s.Within restorable s.resetDeskFlags := by
  unfold State.resetDeskFlags
  exact ((modEngine_within _ rfl rfl).mono rfl).step (foldl_within (fun _ id => cancelIfAlone_within id) _ _) rfl

/-! ## Compaction moves -/

/-- The parts that a move's end and the handouts may change. -/
abbrev movable : List Part := [.allocator, .store, .mover, .table, .notices .production]

theorem requestCopy_within : s.Within [.allocator, .mover] s.requestCopy :=
  ((modAlloc_within _ rfl).mono rfl).step (modMover_within _) rfl

theorem settleMoved_lowWater (n : Nat) (a : Allocator) : (a.settleMoved n).lowWater = a.lowWater := by
  unfold Allocator.settleMoved
  split
  · rfl
  · split
    · dsimp only
      split
      · exact Allocator.giveBack_lowWater _ _
      · rfl
    · rfl

theorem moveEnd_within (c : Fin 4) (m : Move) : s.Within movable (s.moveEnd c m) := by
  unfold State.moveEnd
  have hmoved := fun size => (((((((((modAlloc_within (s := s) (Allocator.relocate m size) rfl).mono (R := movable) rfl)).step
    (modAlloc_within (Allocator.settleMoved m.extent) (settleMoved_lowWater _ _)) rfl).step handout_within rfl).step engineRead_within rfl).step
    (modAlloc_within (·.modCompaction fun c => { c with move := none, made := c.made + 1 }) rfl) rfl).step
    (modChannel_within c fun _ => {}) rfl).step handout_within rfl)
  dsimp only
  repeat' split
  · exact (hmoved _).step (endCompaction_within _) rfl
  · exact (hmoved _).step (endCompaction_within _) rfl
  · exact ((hmoved _).step requestCopy_within rfl).step handout_within rfl

theorem copyWritten_within (c : Fin 4) : s.Within movable (s.copyWritten c) := by
  unfold State.copyWritten
  have hcounted := (((modAlloc_within (s := s) (·.modCompaction fun k =>
    { k with move := k.move.map fun m => { m with copied := m.copied + 1 } }) rfl).mono (R := movable) rfl)).step (modChannel_within c
      fun ch => { ch with buffer := [], nextCopy := ch.nextCopy + 1, terminal := ch.terminal - 1 }) rfl
  dsimp only
  repeat' split
  · exact hcounted.step (issueCopyRead_within c) rfl
  · exact hcounted.step (moveEnd_within _ _) rfl
  · exact hcounted

/-! ## Deposits -/

theorem claimSlot_within (i : Fin 4) (x : Target) (e n : Nat) : s.Within [.port] (s.claimSlot i x e n).2 := by
  unfold State.claimSlot
  dsimp only
  exact modPort_within _ rfl

theorem removeTarget_within (x : Target) :
    s.Within [.catalogue, .allocator, .notices .production] (s.removeTarget x) := by
  cases x with
  | page r => exact ((removeRevision_within r).mono rfl).step (closeIfDone_within _) rfl
  | photo id => exact (removePhoto_within id).mono rfl

theorem dropBuffered_within (n : Nat) : s.Within [.port, .store] (s.dropBuffered n) := by
  unfold State.dropBuffered
  repeat' split
  · exact ((modPort_within _ rfl).mono rfl).step (modStore_within _ (Store.withdraw_calm _ _).left) rfl
  · exact .refl s
  · exact .refl s

/-- The parts that the end of a deposit may change. -/
abbrev abortable : List Part := [.catalogue, .allocator, .port, .store, .notices .production]

theorem abortDeposit_within (i : Fin 4) (d : Deposit) (o : Option DepositOutcome) :
    s.Within abortable (s.abortDeposit i d o) := by
  unfold State.abortDeposit
  have hfreed := ((((removeTarget_within (s := s) d.target).mono (R := abortable) rfl)).step (dropBuffered_within d.handle) rfl).step
    (modPort_within (DepositPort.setSlot i none) rfl) rfl
  dsimp only
  split
  · exact hfreed.step (modPort_within _ rfl) rfl
  · exact hfreed

theorem abortHandle_within (o : Option DepositOutcome) (n : Nat) : s.Within abortable (State.abortHandle o s n) := by
  unfold State.abortHandle
  split
  · exact abortDeposit_within _ _ _
  · exact .refl s

theorem resetDeposits_within : s.Within abortable s.resetDeposits := by
  unfold State.resetDeposits
  exact ((foldl_within (fun _ n => abortHandle_within _ n) _ s).step (modPort_within _ rfl) rfl).step (modStore_within _ (Store.withdraw_calm _ _).left) rfl

theorem completeTarget_within (x : Target) : s.Within [.catalogue, .notices .production] (s.completeTarget x) := by
  cases x with
  | page r => exact (((Within.refl s).step (modCat_within _) rfl).step (modCat_within _) rfl).step (closeIfDone_within _) rfl
  | photo id => exact (modCat_within _).mono rfl

theorem completeDeposit_within (i : Fin 4) (d : Deposit) : s.Within abortable (s.completeDeposit i d) := by
  unfold State.completeDeposit
  exact ((((modAlloc_within _ rfl).mono rfl).step (completeTarget_within _) rfl).step (modPort_within _ rfl) rfl).step (raise_within .depositDone) rfl

theorem tileWritten_within : s.Within abortable s.tileWritten := by
  unfold State.tileWritten
  have hempty := ((modPort_within (s := s) (fun p => { p with buffer := none }) rfl).mono (R := abortable) rfl)
  dsimp only
  repeat' split
  · exact .refl s
  · exact hempty.step (completeDeposit_within _ _) rfl
  · exact hempty
  · exact hempty

theorem takeTile_within (n i : Nat) (x : Tile) : s.Within [.port, .store] (s.takeTile n i x).2 := by
  unfold State.takeTile
  repeat' split
  · exact .refl s
  · exact (modPort_within _ rfl).mono rfl
  · exact .refl s
  · exact ((modPort_within _ rfl).mono rfl).step (modStore_within _ (Store.ask_calm _ _ _).left) rfl

end State
end Sys2Proof.Machine
end

