-- ==== Sys2Proof/Proofs/Accumulators.lean ====
section
/-! PROOF. The grain accumulators (R183, R186): every command keeps each of them below the fee divisor in force. First what
the requests' own operations and the starts leave alone, then the commands in groups. -/

namespace Sys2Proof.Machine

variable {s t u : State} {R R' : List Part} {stop : StopDeliveries}

namespace State

/-! ## What the requests' operations leave alone -/

theorem occupy_within (first size : Nat) (owner : Owner) : s.Within [.allocator] (s.occupy first size owner).2 := by
  unfold State.occupy
  dsimp only
  exact modAlloc_within _ rfl

theorem takeDepositPage_within (ed pg w h cls : Nat) (photos : List Nat) (slot : Fin 4) (first : Nat) :
    s.Within [.catalogue, .allocator, .port] (s.takeDepositPage ed pg w h cls photos slot first).2 := by
  unfold State.takeDepositPage
  dsimp only
  exact (((occupy_within _ _ _).mono rfl).step (modCat_within _) rfl).step (claimSlot_within _ _ _ _) rfl

theorem takeDepositPhoto_within (id w h cls : Nat) (slot : Fin 4) (first : Nat) :
    s.Within [.catalogue, .allocator, .port] (s.takeDepositPhoto id w h cls slot first).2 := by
  unfold State.takeDepositPhoto
  dsimp only
  exact (((occupy_within _ _ _).mono rfl).step (modCat_within _) rfl).step (claimSlot_within _ _ _ _) rfl

theorem takeReplate_within (ed w h cls : Nat) (photos : List Nat) (p : Page) (slot : Fin 4) (first : Nat) :
    s.Within [.catalogue, .allocator, .port] (s.takeReplate ed w h cls photos p slot first).2 := by
  unfold State.takeReplate
  dsimp only
  refine Within.step (Within.step (Within.step (Within.step ?_ (occupy_within _ _ _) rfl) (modCat_within _) rfl) (modCat_within _) rfl)
    (claimSlot_within _ _ _ _) rfl
  split
  · exact (removeRevision_within _).mono rfl
  · exact .refl s

theorem retireDeposit_within (n : Nat) : s.Within abortable (State.retireDeposit s n) := by
  unfold State.retireDeposit
  exact (abortHandle_within _ n).step (raise_within .depositAborted) rfl

theorem retireJob_within (id : Nat) : s.Within restorable (State.retireJob s id) := by
  unfold State.retireJob
  split
  · exact cancelJob_within _ _
  · exact .refl s

theorem retire_within (id : Nat) : s.Within (.port :: restorable) (s.retire id) := by
  unfold State.retire
  exact (((((Within.refl s).step (modCat_within _) rfl).step (foldl_within (fun _ n => retireDeposit_within n) _ _) rfl).step
    (foldl_within (fun _ n => retireJob_within n) _ _) rfl).step (retireCheck_within id) rfl).step (modCat_within _) rfl

theorem itemInDelivery_within (o : Option (Nat × Nat)) : s.Within [.book] (s.itemInDelivery o) := by
  unfold State.itemInDelivery
  split
  · exact .refl s
  · next order item =>
    have hitem := modItem_within (s := s) order item fun i => { i with state := .inDelivery }
    have hcount := (hitem.step (modOrder_within order (fun o => { o with inFlight := o.inFlight + 1 })
      fun _ => ⟨rfl, rfl⟩) rfl)
    exact modBook_within _ hcount.accrues (hcount.orderIds (by decide))

theorem acceptRead_within (r : Read) :
    s.Within [.allocator, .store, .mover, .table, .book, .notices .production] (s.acceptRead r).2 := by
  unfold State.acceptRead
  dsimp only
  exact (((((Within.refl s).step (modTable_within _ rfl rfl) rfl).step (modAlloc_within _ rfl) rfl).step (itemInDelivery_within _) rfl).step
    (modMover_within _) rfl).step handout_within rfl

theorem deskRestore_within (name : RevName) (v : Revision) (source : ToneSource) :
    s.Within restorable (s.deskRestore name v source).2 := by
  unfold State.deskRestore
  have hasked := ((requestJob_within (s := s) none name v source).mono (R := restorable) rfl)
  dsimp only
  split
  · exact hasked
  · exact hasked
  · exact hasked
  · exact hasked.step startNext_within rfl

theorem cancelByDesk_within (j : Job) : s.Within restorable (s.cancelByDesk j) := by
  unfold State.cancelByDesk
  split
  · exact .refl s
  · split
    · exact cancelJob_within _ _
    · exact (modEngine_within _ rfl rfl).mono rfl

theorem placeItem_within (n : NewItem) (st : ItemState) : s.Within [.catalogue, .book] (s.placeItem n st) := by
  unfold State.placeItem
  exact ((modOrder_within n.order (fun o => { o with items := insertItem { n.item with state := st } o.items })
    fun _ => ⟨rfl, rfl⟩).mono rfl).step (modCat_within _) rfl

theorem itemRequest_within (n : NewItem) : s.Within [.engine] (s.itemRequest n).2 := by
  unfold State.itemRequest
  split
  · split
    · exact requestJob_within _ _ _ _
    · exact .refl s
  · exact .refl s

theorem addItem_within (n : NewItem) : s.Within restorable (s.addItem n).2 := by
  unfold State.addItem
  have hasked := ((itemRequest_within (s := s) n).mono (R := restorable) rfl)
  dsimp only
  split
  · exact .refl s
  · exact hasked.step (placeItem_within _ _) rfl
  · exact hasked.step (placeItem_within _ _) rfl
  · exact (hasked.step (placeItem_within _ _) rfl).step startNext_within rfl

theorem removeItem_within (order : Nat) (i : Item) : s.Within restorable (s.removeItem order i) := by
  unfold State.removeItem
  dsimp only
  refine Within.step (Within.step ?_ (modOrder_within order
    (fun o => { o with items := o.items.filter (·.number ≠ i.number) }) fun _ => ⟨rfl, rfl⟩) rfl) (modCat_within _) rfl
  split
  · exact leaveJob_within _ _
  · exact .refl s

theorem giveUpWaiting_within (order item : Nat) : s.Within restorable (State.giveUpWaiting order s item) := by
  unfold State.giveUpWaiting
  exact (leaveJob_within _ _).step (modItem_within _ _ _) rfl

theorem closeOrder_within (o : Order) : s.Within restorable (s.closeOrder o) := by
  unfold State.closeOrder
  exact (foldl_within (fun _ n => giveUpWaiting_within o.id n) _ s).step
    (modOrder_within o.id (fun x => { x with state := o.closedState }) fun _ => ⟨rfl, rfl⟩) rfl

theorem releaseOrder_within (o : Order) : s.Within [.catalogue, .book, .orders] (s.releaseOrder o) := by
  unfold State.releaseOrder
  dsimp only
  exact ((modCat_within _).mono rfl).step
    (modBook_orders_within _ ⟨rfl, fun _ x hx => .inr ⟨x, List.mem_of_mem_filter hx, rfl, rfl⟩⟩) rfl

theorem startCompaction_within (n : Nat) : s.Within movable (s.startCompaction n) := by
  unfold State.startCompaction
  exact (((modAlloc_within _ rfl).mono rfl).step requestCopy_within rfl).step handout_within rfl

/-- Units taken off an order leave its accumulator (R185). -/
theorem credit_book_within (o : Order) (n : Nat) : s.Within [.book] (s.modBook (OrderBook.credit o n)) := by
  have hunits := (modOrder_within (s := s) o.id (fun x => { x with
    units := x.units - n, clamped := x.clamped || (decide (o.units < n) || decide (s.book.owed o.account < n)) })
    fun _ => ⟨rfl, rfl⟩)
  exact modBook_within _ ⟨rfl, hunits.accrues.grains⟩ (hunits.orderIds (by decide))

theorem credit_within (o : Order) (n : Nat) : s.Within postable (s.credit o n) := by
  unfold State.credit
  exact (((credit_book_within o n).mono rfl).step (evaluate_within cutOffDeliveries_bounded _) rfl).step (addEntry_within _) rfl

/-! ## What the starts leave alone -/

theorem warmCatalogue_within : s.Within [.catalogue, .allocator] s.warmCatalogue := by
  unfold State.warmCatalogue
  exact (((foldl_within (fun _ r => removeRevision_within r) _ s).step
    (foldl_within (fun _ id => removePhoto_within id) _ _) rfl).step (modCat_within _) rfl).step
    (foldl_within (fun _ e => dissolve_within e) _ _) rfl

theorem reRequest_within (r : Nat × Nat) : s.Within restorable (State.reRequest s r) := by
  unfold State.reRequest
  split
  · split
    · exact .refl s
    · have hasked := fun v => ((requestJob_within (s := s) (some r) ‹RevName› v .auto).mono (R := restorable) rfl)
      dsimp only
      split
      · exact (hasked _).step (modItem_within _ _ _) rfl
      · exact (hasked _).step (modItem_within _ _ _) rfl
      · exact hasked _
      · exact (hasked _).step startNext_within rfl
  · exact .refl s

theorem startEngine_within (warm : Bool) : s.Within (restorable ++ [.settings]) (s.startEngine warm) := by
  unfold State.startEngine
  cases warm with
  | false =>
    simp only [Bool.false_eq_true, if_false]
    exact (modEngine_settings_within _).mono rfl
  | true =>
    simp only [if_true]
    refine Within.step (Within.mono (R' := [.allocator, .engine, .settings]) ?_ rfl) (foldl_within (fun _ r => reRequest_within r) _ _) rfl
    exact (((modAlloc_within (Allocator.giveBackAll .building) (Allocator.giveBackAll_lowWater _ _)).mono
      (R := [.allocator, .engine, .settings]) rfl)).step (modEngine_settings_within fun g => { profiles := g.profiles.map Profile.verify }) rfl

theorem reloadTimers_within : s.Within [.book] s.reloadTimers := modBook_within _ (.of_eq rfl rfl) rfl

theorem warmOrders_within : s.Within [.book] s.warmOrders := by
  unfold State.warmOrders
  refine Within.step (modBook_within _ ⟨rfl, fun _ o ho => .inr ?_⟩ ?_) reloadTimers_within rfl
  swap
  · exact List.map_map.trans (List.map_congr_left fun _ _ => rfl)
  obtain ⟨o', ho', rfl⟩ := List.mem_map.mp ho
  exact ⟨o', ho', rfl, rfl⟩

/-! ## The invariant -/

/-- The fee divisor is at least 1 and every order's grain accumulator is below it (R176, R183). -/
def metered (s : State) : Prop :=
  1 ≤ s.meter.settings.divisor ∧ ∀ o ∈ s.book.orders, o.accumulator < s.meter.settings.divisor

theorem Accrues.metered (h : s.Accrues t) (hs : s.metered) : t.metered := by
  refine ⟨h.settings ▸ hs.1, fun o ho => ?_⟩
  rw [h.settings]
  rcases h.grains hs.1 o ho with hlt | ⟨o', ho', -, hacc⟩
  · exact hlt
  · exact hacc ▸ hs.2 o' ho'

theorem Within.metered (h : s.Within R t) (hs : s.metered) : t.metered := h.accrues.metered hs

theorem metered.of_eq (hs : s.metered) (hb : t.book = s.book) (hm : t.meter = s.meter) : t.metered :=
  (Accrues.of_eq (congrArg OrderBook.orders hb) (by rw [hm])).metered hs

/-! ## The divisor resolution -/

/-- The accumulators still at or above the divisor are those of orders yet to be resolved (R186). -/
def meteredBut (ids : List Nat) (s : State) : Prop :=
  1 ≤ s.meter.settings.divisor ∧ ∀ o ∈ s.book.orders, o.accumulator < s.meter.settings.divisor ∨ o.id ∈ ids

theorem Accrues.meteredBut {ids : List Nat} (h : s.Accrues t) (hs : s.meteredBut ids) : t.meteredBut ids := by
  refine ⟨h.settings ▸ hs.1, fun o ho => ?_⟩
  rw [h.settings]
  rcases h.grains hs.1 o ho with hlt | ⟨o', ho', hid, hacc⟩
  · exact .inl hlt
  · exact hid ▸ hacc ▸ hs.2 o' ho'

/-- Stage 5 takes an order out of those yet to be resolved (R186). -/
theorem accumulate_meteredBut {ids : List Nat} {o : Order} {net : Nat} (hs : s.meteredBut (o.id :: ids)) :
    (s.accumulate o net).meteredBut ids := by
  have hsettings := (accumulate_within (s := s) o net).accrues.settings
  refine ⟨hsettings ▸ hs.1, fun x hx => ?_⟩
  rw [hsettings]
  rw [accumulate_orders] at hx
  obtain ⟨x', hx', rfl⟩ := List.mem_map.mp hx
  split
  · exact .inl (carry_accumulator_lt hs.1 net x')
  · next hid =>
    refine (hs.2 x' hx').imp_right fun hmem => ?_
    rcases List.mem_cons.mp hmem with he | hmem
    · exact absurd (decide_eq_true he) hid
    · exact hmem

theorem resolveOrder_meteredBut (hstop : stop.Bounded) {id : Nat} {ids : List Nat} (hs : s.meteredBut (id :: ids)) :
    (s.resolveOrder stop id).meteredBut ids := by
  unfold State.resolveOrder
  split
  · next hnone =>
    refine ⟨hs.1, fun o ho => (hs.2 o ho).imp_right fun hmem => ?_⟩
    rcases List.mem_cons.mp hmem with he | hmem
    · exact absurd (decide_eq_true he) (by simpa using List.find?_eq_none.mp hnone o ho)
    · exact hmem
  · next o ho =>
    have hid : o.id = id := by simpa using List.find?_some (p := fun o : Order => decide (o.id = id)) ho
    have hcarried : (s.accumulate o 0).meteredBut ids := accumulate_meteredBut (hid ▸ hs)
    dsimp only
    split
    · exact hcarried
    · exact (evaluate_within hstop _).accrues.meteredBut hcarried

/-- After a resolution every accumulator is below the divisor, whatever it was before (R186). -/
theorem resolve_metered (hstop : stop.Bounded) (hd : 1 ≤ s.meter.settings.divisor) : (s.resolve stop).metered := by
  have hfold : ∀ (ids : List Nat) (u : State), u.meteredBut ids →
      (ids.foldl (fun s id => s.resolveOrder stop id) u).meteredBut [] := by
    intro ids
    induction ids with
    | nil => exact fun u hu => hu
    | cons id ids ih => exact fun u hu => ih _ (resolveOrder_meteredBut hstop hu)
  obtain ⟨hd', hlt⟩ := hfold (s.book.orders.map (·.id)) s ⟨hd, fun o ho => .inr (List.mem_map_of_mem ho)⟩
  exact ⟨hd', fun o ho => (hlt o ho).resolve_right List.not_mem_nil⟩

theorem setMeter_metered (a b c : Option Nat) (hs : s.metered) : (s.setMeter a b c).metered := by
  unfold State.setMeter
  dsimp only
  split
  · exact hs
  · split
    · exact resolve_metered cutOffDeliveries_bounded (Nat.le_max_right _ _)
    · next hnone =>
      obtain rfl : a = none := by simpa using hnone
      have hkept : max s.meter.settings.divisor 1 = s.meter.settings.divisor := Nat.max_eq_left hs.1
      exact ⟨Nat.le_max_right _ _, fun o ho => Nat.lt_of_lt_of_eq (hs.2 o ho) hkept.symm⟩

theorem startMeter_metered (warm : Bool) (hs : s.metered) (hcold : warm = false → s.book.orders = []) :
    (s.startMeter cutOffDeliveries warm).metered := by
  unfold State.startMeter
  dsimp only
  cases hgood : s.meter.settings.isGood with
  | true => simpa [State.metered] using hs
  | false =>
    cases warm with
    | true =>
      simp only [and_self, if_true]
      exact resolve_metered cutOffDeliveries_bounded (Nat.le_of_ble_eq_true rfl)
    | false =>
      simp only [Bool.false_eq_true, false_and, if_false]
      exact ⟨Nat.le_of_ble_eq_true rfl, fun o ho => by rw [modMeter_book, hcold rfl] at ho; cases ho⟩

end State

/-! ## Requests -/

/-- A rule of a request that keeps the accumulators below the divisor. -/
def Body.Metered (b : Body) : Prop := ∀ fs s, s.metered → (b fs s).2.metered

theorem required_metered {o : Option Nat} {f : Nat → Answer × State} (hs : s.metered) (hf : ∀ n, (f n).2.metered) :
    (required o s f).2.metered := by
  cases o
  · exact hs
  · exact hf _

theorem checked_metered {α : Type} {c : Except Answer α} {f : α → Answer × State} (hs : s.metered)
    (hf : ∀ x, (f x).2.metered) : (checked c s f).2.metered := by
  cases c
  · exact hs
  · exact hf _

theorem openEditionBody_metered : openEditionBody.Metered := fun _ _ hs =>
  required_metered hs fun _ => required_metered hs fun _ => required_metered hs fun _ => checked_metered hs fun _ => hs
theorem closeEditionBody_metered : closeEditionBody.Metered := fun _ _ hs =>
  required_metered hs fun _ => checked_metered hs fun _ => hs
theorem retireEditionBody_metered : retireEditionBody.Metered := fun _ _ hs =>
  required_metered hs fun id => checked_metered hs fun _ => (State.retire_within id).metered hs
theorem discardPhotoBody_metered : discardPhotoBody.Metered := fun _ _ hs =>
  required_metered hs fun id => checked_metered hs fun _ => (State.removePhoto_within id).metered hs
theorem depositPageBody_metered : depositPageBody.Metered := fun _ _ hs =>
  required_metered hs fun _ => required_metered hs fun _ => required_metered hs fun _ => required_metered hs fun _ =>
    required_metered hs fun _ => checked_metered hs fun _ => (State.takeDepositPage_within _ _ _ _ _ _ _ _).metered hs
theorem depositPhotoBody_metered : depositPhotoBody.Metered := fun _ _ hs =>
  required_metered hs fun _ => required_metered hs fun _ => required_metered hs fun _ => required_metered hs fun _ =>
    checked_metered hs fun _ => (State.takeDepositPhoto_within _ _ _ _ _ _).metered hs
theorem replatePageBody_metered : replatePageBody.Metered := fun _ _ hs =>
  required_metered hs fun _ => required_metered hs fun _ => required_metered hs fun _ => required_metered hs fun _ =>
    required_metered hs fun _ => checked_metered hs fun _ => (State.takeReplate_within _ _ _ _ _ _ _ _).metered hs
theorem abandonDepositBody_metered : abandonDepositBody.Metered := fun _ _ hs => required_metered hs fun _ => by
  split
  · exact hs
  · exact (State.abortDeposit_within _ _ _).metered hs
theorem depositStatusBody_metered : depositStatusBody.Metered := fun _ _ hs => required_metered hs fun _ => by
  repeat' split
  all_goals exact hs
theorem setDepositTimeoutBody_metered : setDepositTimeoutBody.Metered := fun _ _ hs => required_metered hs fun _ => by
  split <;> exact hs
theorem setLowWaterBody_metered : setLowWaterBody.Metered := fun _ _ hs => required_metered hs fun _ => by
  split <;> exact hs
theorem compactBody_metered : compactBody.Metered := fun _ _ hs => required_metered hs fun n => by
  repeat' split
  · exact hs
  · exact hs
  · exact (State.startCompaction_within n).metered hs
theorem setStoreBody_metered : setStoreBody.Metered := fun _ _ hs => by
  unfold setStoreBody
  dsimp only
  split <;> exact hs

theorem readWith_metered (fs : Fields) (i : Nat) (wanted : Wanted) (ok : Bool) (x : Except Result ReadTarget)
    (hs : s.metered) : (readWith fs i wanted ok x s).2.metered := by
  unfold readWith
  dsimp only
  repeat' split
  all_goals first
    | exact hs
    | exact (State.acceptRead_within _).metered hs
theorem readPageBody_metered : readPageBody.Metered := fun _ _ hs => required_metered hs fun _ => required_metered hs fun _ => by
  split
  · exact readWith_metered _ _ _ _ _ hs
  · exact hs
theorem readPhotoBody_metered : readPhotoBody.Metered := fun _ _ hs => required_metered hs fun _ => by
  split
  · exact readWith_metered _ _ _ _ _ hs
  · exact hs
theorem stopDeliveryBody_metered : stopDeliveryBody.Metered := fun _ _ hs => required_metered hs fun _ => by
  split
  · exact hs
  · exact (State.stopDelivery_within State.cutOffDeliveries_bounded _ _).metered hs
theorem deliveryStatusBody_metered : deliveryStatusBody.Metered := fun _ _ hs => required_metered hs fun _ => by
  split
  · exact hs
  · dsimp only
    split <;> exact hs
theorem setPacingBody_metered : setPacingBody.Metered := fun _ _ hs => by
  unfold setPacingBody
  split <;> exact hs
theorem restorePageBody_metered : restorePageBody.Metered := fun _ _ hs =>
  required_metered hs fun _ => required_metered hs fun _ => required_metered hs fun _ => by
    repeat' split
    all_goals first
      | exact hs
      | exact (State.deskRestore_within _ _ _).metered hs
theorem cancelRestoreBody_metered : cancelRestoreBody.Metered := fun _ _ hs => required_metered hs fun _ => by
  split
  · exact hs
  · exact (State.cancelByDesk_within _).metered hs
theorem restoreStatusBody_metered : restoreStatusBody.Metered := fun _ _ hs => required_metered hs fun _ => by
  repeat' split
  all_goals exact hs
theorem setSurveyBody_metered : setSurveyBody.Metered := fun _ _ hs => by
  unfold setSurveyBody
  dsimp only
  split <;> exact hs
theorem writeProfileBody_metered : writeProfileBody.Metered := fun _ _ hs =>
  required_metered hs fun _ => required_metered hs fun _ => required_metered hs fun _ => required_metered hs fun _ => by
    repeat' split
    all_goals exact hs
theorem readProfileBody_metered : readProfileBody.Metered := fun _ _ hs => required_metered hs fun _ => by
  split <;> exact hs

theorem openAccountBody_metered : openAccountBody.Metered := fun _ _ hs =>
  required_metered hs fun _ => checked_metered hs fun _ => hs
theorem setCeilingBody_metered : setCeilingBody.Metered := fun _ s hs =>
  required_metered hs fun id => required_metered hs fun c => checked_metered hs fun _ =>
    (State.evaluate_within State.cutOffDeliveries_bounded id).metered
      (s := s.modBook (·.modAccount id fun a => { a with ceiling := c })) hs
theorem settleBody_metered : settleBody.Metered := fun _ s hs =>
  required_metered hs fun id => required_metered hs fun n => checked_metered hs fun a =>
    (State.evaluate_within State.cutOffDeliveries_bounded id).metered
      (s := s.modBook (·.modAccount id fun x => { x with owed := x.owed - min n a.owed })) hs
theorem removeAccountBody_metered : removeAccountBody.Metered := fun _ _ hs =>
  required_metered hs fun _ => checked_metered hs fun _ => hs
theorem accountStatusBody_metered : accountStatusBody.Metered := fun _ _ hs =>
  required_metered hs fun _ => required_metered hs fun _ => by
    repeat' split
    all_goals exact hs
theorem openOrderBody_metered : openOrderBody.Metered := fun _ _ hs =>
  required_metered hs fun _ => required_metered hs fun _ => checked_metered hs fun _ => ⟨hs.1, fun o ho => by
    rcases (insertOrder_inserted _ _).mem.mp ho with rfl | ho
    · exact hs.1
    · exact hs.2 o ho⟩
theorem addItemBody_metered : addItemBody.Metered := fun _ _ hs => required_metered hs fun _ => by
  repeat' split
  all_goals first
    | exact hs
    | (dsimp only; repeat' split
       all_goals first
        | exact hs
        | exact (State.addItem_within _).metered hs)
theorem removeItemBody_metered : removeItemBody.Metered := fun _ _ hs =>
  required_metered hs fun _ => required_metered hs fun _ => checked_metered hs fun _ =>
    (State.removeItem_within _ _).metered hs
theorem closeOrderBody_metered : closeOrderBody.Metered := fun _ _ hs =>
  required_metered hs fun _ => checked_metered hs fun _ => (State.closeOrder_within _).metered hs
theorem releaseOrderBody_metered : releaseOrderBody.Metered := fun _ _ hs =>
  required_metered hs fun _ => checked_metered hs fun _ => (State.releaseOrder_within _).metered hs
theorem orderStatusBody_metered : orderStatusBody.Metered := fun _ _ hs =>
  required_metered hs fun _ => required_metered hs fun _ => by
    repeat' split
    all_goals exact hs
theorem writeTariffBody_metered : writeTariffBody.Metered := fun _ _ hs =>
  required_metered hs fun _ => required_metered hs fun _ => required_metered hs fun _ => required_metered hs fun _ =>
    required_metered hs fun _ => required_metered hs fun _ => by
      repeat' split
      all_goals exact hs
theorem readTariffBody_metered : readTariffBody.Metered := fun _ _ hs => required_metered hs fun _ => by
  split <;> exact hs
theorem setMeterBody_metered : setMeterBody.Metered := fun _ _ hs => by
  unfold setMeterBody
  dsimp only
  split
  · exact hs
  · exact State.setMeter_metered _ _ _ hs
theorem setDayBody_metered : setDayBody.Metered := fun _ _ hs => required_metered hs fun _ => hs
theorem creditBody_metered : creditBody.Metered := fun _ _ hs =>
  required_metered hs fun _ => required_metered hs fun _ => checked_metered hs fun _ =>
    (State.credit_within _ _).metered hs
theorem meterStatusBody_metered : meterStatusBody.Metered := fun _ _ hs => by
  unfold meterStatusBody
  repeat' split
  all_goals exact hs

theorem editionInfoBody_metered : editionInfoBody.Metered := fun _ _ hs =>
  required_metered hs fun _ => required_metered hs fun _ => by
    repeat' split
    all_goals exact hs
theorem pageInfoBody_metered : pageInfoBody.Metered := fun _ _ hs =>
  required_metered hs fun _ => required_metered hs fun _ => by
    repeat' split
    all_goals exact hs
theorem photoInfoBody_metered : photoInfoBody.Metered := fun _ _ hs =>
  required_metered hs fun _ => required_metered hs fun _ => by
    repeat' split
    all_goals exact hs
theorem pollBody_metered (l : LinkId) : (pollBody l).Metered := fun _ _ hs => by
  unfold pollBody
  split
  · exact hs
  · exact (State.modNotices_marks_within _ _).metered hs
theorem peekBody_metered (l : LinkId) : (peekBody l).Metered := fun _ _ hs => by
  unfold peekBody
  split <;> exact hs
theorem endNoticeBody_metered (l : LinkId) : (endNoticeBody l).Metered := fun _ _ hs => by
  unfold endNoticeBody
  repeat' split
  all_goals first
    | exact hs
    | exact (State.modNotices_marks_within _ _).metered hs
theorem setNoticeBody_metered (l : LinkId) : (setNoticeBody l).Metered := fun _ _ hs => by
  unfold setNoticeBody
  repeat' split
  all_goals first
    | exact hs
    | exact (State.modNotices_marks_within _ _).metered hs

/-- Every request's rule keeps the accumulators below the divisor. -/
theorem bodyOfCommand_metered (i : Instr) : (bodyOfCommand i).Metered := by
  cases i with
  | openEdition => exact openEditionBody_metered
  | depositPage => exact depositPageBody_metered
  | depositPhoto => exact depositPhotoBody_metered
  | replatePage => exact replatePageBody_metered
  | closeEdition => exact closeEditionBody_metered
  | retireEdition => exact retireEditionBody_metered
  | discardPhoto => exact discardPhotoBody_metered
  | abandonDeposit => exact abandonDepositBody_metered
  | depositStatus => exact depositStatusBody_metered
  | setDepositTimeout => exact setDepositTimeoutBody_metered
  | setLowWater => exact setLowWaterBody_metered
  | compact => exact compactBody_metered
  | setStore => exact setStoreBody_metered
  | readPage => exact readPageBody_metered
  | readPhoto => exact readPhotoBody_metered
  | stopDelivery => exact stopDeliveryBody_metered
  | deliveryStatus => exact deliveryStatusBody_metered
  | setPacing => exact setPacingBody_metered
  | restorePage => exact restorePageBody_metered
  | cancelRestore => exact cancelRestoreBody_metered
  | restoreStatus => exact restoreStatusBody_metered
  | setSurvey => exact setSurveyBody_metered
  | writeProfile => exact writeProfileBody_metered
  | readProfile => exact readProfileBody_metered
  | openAccount => exact openAccountBody_metered
  | setCeiling => exact setCeilingBody_metered
  | settle => exact settleBody_metered
  | removeAccount => exact removeAccountBody_metered
  | accountStatus => exact accountStatusBody_metered
  | openOrder => exact openOrderBody_metered
  | addItem => exact addItemBody_metered
  | removeItem => exact removeItemBody_metered
  | closeOrder => exact closeOrderBody_metered
  | releaseOrder => exact releaseOrderBody_metered
  | orderStatus => exact orderStatusBody_metered
  | writeTariff => exact writeTariffBody_metered
  | readTariff => exact readTariffBody_metered
  | setMeter => exact setMeterBody_metered
  | setDay => exact setDayBody_metered
  | credit => exact creditBody_metered
  | meterStatus => exact meterStatusBody_metered
  | editionInfo => exact editionInfoBody_metered
  | pageInfo => exact pageInfoBody_metered
  | photoInfo => exact photoInfoBody_metered
  | storeInfo => exact fun _ _ hs => hs
  | poll l => exact pollBody_metered l
  | peek l => exact peekBody_metered l
  | endNotice l => exact endNoticeBody_metered l
  | setNotice l => exact setNoticeBody_metered l
  | _ => exact fun _ _ hs => hs

/-! ## The end of a step, and frames held at the receivers -/

namespace State

theorem settle_metered (hs : s.metered) : s.settle.metered := hs.of_eq (settle_book s) (settle_meter s)
theorem transmit_metered (l : LinkId) (hs : s.metered) : (s.transmit l).metered :=
  hs.of_eq (transmit_book s l) (transmit_meter s l)
theorem modLink_metered (l : LinkId) (f : Link → Link) (hs : s.metered) : (s.modLink l f).metered :=
  hs.of_eq (modLink_book s l f) (modLink_meter s l f)
theorem setLink_metered (l : LinkId) (k : Link) (hs : s.metered) : (s.setLink l k).metered :=
  hs.of_eq (setLink_book s l k) (setLink_meter s l k)
theorem reply_metered (l : LinkId) (tag : Byte) (a : Answer) (hs : s.metered) : (s.reply l tag a).metered :=
  modLink_metered l _ hs

theorem passTile_metered (n i : Nat) (x : Tile) (hs : s.metered) : (s.passTile n i x).metered :=
  reply_metered _ _ _ ((takeTile_within n i x).metered hs)
theorem passHeldTile_metered (hs : s.metered) : s.passHeldTile.metered := by
  unfold State.passHeldTile
  split
  · split
    · exact passTile_metered _ _ _ (modLink_metered _ _ hs)
    · exact hs
  · exact hs
theorem passHeldRefusal_metered (l : LinkId) (hs : s.metered) : (s.passHeldRefusal l).metered := by
  unfold State.passHeldRefusal
  split
  · split
    · exact modLink_metered _ _ hs
    · exact hs
  · exact hs
theorem refuseFrame_metered (l : LinkId) (r : Reply) (hs : s.metered) : (s.refuseFrame l r).metered := by
  unfold State.refuseFrame
  split
  · exact transmit_metered _ (modLink_metered _ _ hs)
  · split
    · exact modLink_metered _ _ hs
    · exact hs

theorem resetWork_metered (l : LinkId) (hs : s.metered) : (s.resetWork l).metered := by
  have hdeposits := resetDeposits_within.metered hs
  cases l with
  | production =>
    unfold State.resetWork
    dsimp only
    split
    · exact hdeposits
    · exact (endCompaction_within .stopped).metered
        (s := s.resetDeposits.modMover fun m => { m with copyRequest := false }) hdeposits
    · exact hdeposits
  | desk =>
    exact resetDeskFlags_within.metered ((endAllDeliveries_within cutOffDeliveries_bounded).metered hs)
  | sales => exact hs

theorem linkReset_metered (l : LinkId) (tag : Byte) (hs : s.metered) : (s.linkReset l tag).metered := by
  unfold State.linkReset
  dsimp only
  refine settle_metered (passHeldTile_metered (reply_metered _ _ _ ?_))
  have hworked := (modNotices_marks_within l fun _ => Controller.start (sourceCount l)).metered
    (resetWork_metered l (modLink_metered l Link.clear hs))
  split
  · exact hworked
  · exact hworked

theorem resetFrame_metered (l : LinkId) (tag : Byte) (ps : List Word) (hs : s.metered) :
    (s.resetFrame l tag ps).metered := by
  unfold State.resetFrame
  split
  · exact linkReset_metered _ _ hs
  · exact refuseFrame_metered _ _ hs

theorem replySent_metered (l : LinkId) (hs : s.metered) : (s.replySent l).metered := by
  have hfreed := passHeldRefusal_metered l
    (modLink_metered l (fun k => { k with replies := k.replies.tail, sending := none }) hs)
  unfold State.replySent
  dsimp only
  split
  · exact passHeldTile_metered hfreed
  · exact hfreed

/-! ## Starts and the loss of power -/

theorem coldStart_metered (kind : StartKind) (sizeHigh : Bool) (hs : s.metered) :
    (s.coldStart kind sizeHigh).metered := by
  have hempty : ({ s.readStrap with
      store := Store.coldStart sizeHigh kind s.readStrap.now, alloc := Allocator.coldStart (Config.slotCount sizeHigh)
      cat := {}, port := {}, mover := {}, table := {}, book := {} } : State).metered := ⟨hs.1, fun o ho => nomatch ho⟩
  refine settle_metered ?_
  exact startMeter_metered false ((startEngine_within false).metered hempty) fun _ => rfl

theorem warmBlocks_metered (hs : s.metered) : s.warmBlocks.metered := by
  unfold State.warmBlocks
  dsimp only
  refine startMeter_metered true (warmOrders_within.metered ((startEngine_within true).metered
    (warmCatalogue_within.metered ?_))) nofun
  exact hs

theorem startLinks_metered (hs : s.metered) : s.startLinks.metered := hs.of_eq rfl rfl

theorem warmStart_metered (kind : StartKind) (sizeHigh : Bool) (hs : s.metered) :
    (s.warmStart kind sizeHigh).metered := by
  unfold State.warmStart
  exact settle_metered (startLinks_metered (warmBlocks_metered hs))

theorem readHeader_metered (upset : Bool) (hs : s.metered) : (s.readHeader upset).metered := by
  unfold State.readHeader
  split <;> exact hs

theorem startByHeader_metered (warm : StartKind) (sizeHigh : Bool) (hs : s.metered) :
    (s.startByHeader warm sizeHigh).metered := by
  unfold State.startByHeader
  split
  · exact warmStart_metered _ _ hs
  · exact coldStart_metered _ _ hs

theorem startAtPowerUp_metered (sizeHigh upset : Bool) (hs : s.metered) : (s.startAtPowerUp sizeHigh upset).metered := by
  unfold State.startAtPowerUp
  split
  · exact startByHeader_metered _ _ (readHeader_metered _ hs)
  · exact coldStart_metered _ _ hs

theorem losePower_metered (kept : Bool) (hs : s.metered) : (s.losePower kept).metered := by
  unfold State.losePower
  dsimp only
  split
  · exact hs
  · exact ⟨hs.1, fun o ho => nomatch ho⟩

end State

/-! ## Commands -/

/-- The command, where it goes on, leaves the accumulators below the divisor. -/
def Meters (s : State) (o : Outcome) : Prop := ∀ t, o = .next t → s.metered → t.metered

theorem Meters.next (h : s.metered → t.metered) : Meters s (.next t) := fun _ ht hs => by cases ht; exact h hs
theorem Meters.stay : Meters s (.next s) := .next id
theorem Meters.settled (h : s.metered → t.metered) : Meters s (.next t.settle) := .next fun hs => State.settle_metered (h hs)

theorem Meters.whenRunning {f : State → Outcome} (hf : Meters s (f s)) : Meters s (whenRunning s f) := by
  unfold Machine.whenRunning
  split
  · exact hf
  · exact .stay

theorem Finish.metered {l : LinkId} {f : State → State} (hf : Finish l f) (hs : s.metered) : (f s).metered := by
  rcases hf with rfl | rfl | rfl
  · exact State.transmit_metered l hs
  · exact State.settle_metered hs
  · exact State.settle_metered (State.passHeldTile_metered hs)

theorem serve_meters {finish : State → State} {l : LinkId} {home : Home} {layout : List Layout} {r : Request} {body : Body}
    (hf : Finish l finish) (hb : body.Metered) : Meters s (serve finish l home layout r body s) := by
  rcases serve_cases (finish := finish) (l := l) (home := home) (layout := layout) (r := r) (body := body) (s := s) with
    e | ⟨k, -, -, ⟨-, e⟩ | ⟨-, e⟩⟩
  · exact e ▸ .stay
  · exact e ▸ .next (State.setLink_metered l k)
  · refine e ▸ .next fun hs => hf.metered (State.reply_metered _ _ _ ?_)
    have htaken := State.setLink_metered l k.take hs
    unfold answerRequest
    split
    · split
      · exact hb _ _ htaken
      · exact htaken
    · exact htaken

theorem exec_request_meters {i : Instr} {l : LinkId} {r : Request} (h : requestOfCommand i = some (l, r)) :
    Meters s (exec i s) := by
  obtain ⟨finish, hf, -, -, he⟩ := exec_request h
  rw [he]
  exact serve_meters hf (bodyOfCommand_metered i)

theorem whenEnds_meters {granted : Option Transfer} {mine : Transfer → Bool} {f : Transfer → State → State}
    (hf : ∀ x, s.metered → (f x s).metered) : Meters s (whenEnds s granted mine f) := by
  rcases whenEnds_cases (s := s) (granted := granted) (mine := mine) (f := f) with
    e | ⟨x, -, -, -, ⟨-, e⟩ | ⟨-, e⟩⟩
  · exact e ▸ .stay
  · rw [e]; exact fun _ ht => nomatch ht
  · exact e ▸ .settled (hf x)

/-- A completion leaves the accumulators below the divisor when what it reports does. -/
theorem whenCompletes_meters {mine : Transfer → Bool} {f : Transfer → State → State}
    (hf : ∀ x (u : State), u.metered → (f x u).metered) : Meters s (whenCompletes s mine f) :=
  whenEnds_meters (f := fun x s => f x (s.modStore (Store.complete x))) fun x hs =>
    hf x (s.modStore (Store.complete x)) hs

theorem exec_completion_meters {i : Instr} (hc : isCompletion i = true) : Meters s (exec i s) := by
  cases i with
  | tileWriteComplete =>
    show Meters s (execTileWriteComplete s)
    unfold execTileWriteComplete
    split
    · exact whenEnds_meters fun _ hs => hs
    · exact whenCompletes_meters fun _ u hu => State.passHeldTile_metered (State.tileWritten_within.metered hu)
  | copyReadComplete upset =>
    show Meters s (execCopyReadComplete upset s)
    unfold execCopyReadComplete
    refine whenCompletes_meters fun x u hu => ?_
    have hread := (State.readTile_within (s := u) x.slot upset .copy).metered hu
    dsimp only
    split
    · exact (State.copyArrives_within _ _ _).metered hread
    · exact hread
  | copyWriteComplete =>
    show Meters s (execCopyWriteComplete s)
    unfold execCopyWriteComplete
    refine whenCompletes_meters fun x u hu => ?_
    split
    · exact (State.copyWritten_within _).metered hu
    · exact hu
  | deliveryReadComplete upset =>
    show Meters s (execDeliveryReadComplete upset s)
    unfold execDeliveryReadComplete
    split
    · exact whenEnds_meters fun x hs =>
        (State.readTile_within (s := s.modStore Store.endWithdrawn) x.slot upset .delivery).metered hs
    · refine whenCompletes_meters fun x u hu => ?_
      have hread := (State.readTile_within (s := u) x.slot upset .delivery).metered hu
      dsimp only
      split
      · exact (State.readArrives_within _ _ _).metered hread
      · exact hread
  | surveyReadComplete upset =>
    show Meters s (execSurveyReadComplete upset s)
    unfold execSurveyReadComplete
    refine whenCompletes_meters fun x u hu => ?_
    have hread := (State.readTile_within (s := u) x.slot upset .restoration).metered hu
    dsimp only
    split
    · exact (State.surveyArrives_within _ _ _ _).metered hread
    · exact hread
  | correctionReadComplete upset =>
    show Meters s (execCorrectionReadComplete upset s)
    unfold execCorrectionReadComplete
    refine whenCompletes_meters fun x u hu => ?_
    have hread := (State.readTile_within (s := u) x.slot upset .restoration).metered hu
    dsimp only
    split
    · exact (State.correctionArrives_within _ _ _).metered hread
    · exact hread
  | correctionWriteComplete =>
    show Meters s (execCorrectionWriteComplete s)
    unfold execCorrectionWriteComplete
    refine whenCompletes_meters fun x u hu => ?_
    split
    · exact (State.correctionWritten_within State.cutOffDeliveries_bounded _ _).metered hu
    · exact hu
  | _ => cases hc

theorem exec_power_meters {i : Instr} (hp : isPowerCommand i = true) : Meters s (exec i s) := by
  cases i with
  | powerUp standbyOk sizeHigh resetHeld upset =>
    show Meters s (execPowerUp standbyOk sizeHigh resetHeld upset s)
    unfold execPowerUp
    split
    · dsimp only
      split
      · exact .next fun hs => hs
      · exact .next fun hs => State.startAtPowerUp_metered sizeHigh upset (hs.of_eq rfl rfl)
    · exact .stay
  | resetAssert =>
    show Meters s (execResetAssert s)
    unfold execResetAssert
    split
    · exact .next fun hs => hs
    · exact .stay
  | resetRelease sizeHigh upset =>
    show Meters s (execResetRelease sizeHigh upset s)
    unfold execResetRelease
    split
    · exact .next fun hs => State.startAtPowerUp_metered _ _ hs
    · exact .next fun hs => State.startByHeader_metered _ _ (State.readHeader_metered _ hs)
    · exact .stay
  | powerLoss kept =>
    show Meters s (execPowerLoss kept s)
    unfold execPowerLoss
    split
    · exact .stay
    · exact .next (State.losePower_metered kept)
  | _ => cases hp

/-- The commands of frames, timers and the store. -/
theorem exec_event_meters {i : Instr} (hr : requestOfCommand i = none) (hp : isPowerCommand i = false)
    (hc : isCompletion i = false) : Meters s (exec i s) := by
  cases i with
  | requestFrameArrives l ws =>
    show Meters s (execRequestFrameArrives l ws s)
    unfold execRequestFrameArrives
    refine .whenRunning ?_
    split
    · split
      · split
        · exact .next (State.resetFrame_metered _ _ _)
        · exact .stay
      · split
        · exact .next (State.modLink_metered _ _)
        · exact .stay
    · exact .stay
  | frameRefused l ws =>
    show Meters s (execFrameRefused l ws s)
    unfold execFrameRefused
    refine .whenRunning ?_
    split
    · split
      · exact .next (State.refuseFrame_metered _ _)
      · exact .stay
    · exact .stay
  | unknownRequestCode l tag code ps =>
    show Meters s (execUnknownRequestCode l tag code ps s)
    unfold execUnknownRequestCode
    split
    · exact .stay
    · exact serve_meters (.inl rfl) fun _ _ hs => hs
  | tileFrame ws =>
    show Meters s (execTileFrame ws s)
    unfold execTileFrame
    refine .whenRunning ?_
    split
    · split
      · exact .stay
      · split
        · exact .settled (State.passTile_metered _ _ _)
        · exact .next (State.modLink_metered _ _)
    · exact .stay
  | depositTimeout slot =>
    show Meters s (execDepositTimeout slot s)
    unfold execDepositTimeout
    refine .whenRunning ?_
    split
    · exact .stay
    · split
      · exact .stay
      · next i d _ _ moment _ =>
        exact .settled fun hs => State.passHeldTile_metered ((State.raise_within .depositAborted).metered
          ((State.abortDeposit_within i d (some .timedOut)).metered (s := s.reach moment) hs))
  | refreshDue =>
    show Meters s (execRefreshDue s)
    unfold execRefreshDue
    refine .whenRunning ?_
    split
    · exact .settled fun hs => hs
    · exact .stay
  | burstEnd =>
    show Meters s (execBurstEnd s)
    unfold execBurstEnd
    refine .whenRunning ?_
    split
    · exact .settled fun hs => hs
    · exact .stay
  | enterQuiet =>
    show Meters s (execEnterQuiet s)
    unfold execEnterQuiet
    refine .whenRunning ?_
    split
    · exact .settled fun hs => hs
    · exact .stay
  | wakeTimeEnds =>
    show Meters s (execWakeTimeEnds s)
    unfold execWakeTimeEnds
    refine .whenRunning ?_
    split
    · exact .settled fun hs => hs
    · exact .stay
  | fixedPeriodBegins channel =>
    show Meters s (execFixedPeriodBegins channel s)
    unfold execFixedPeriodBegins
    refine .whenRunning ?_
    repeat' split
    all_goals first
      | exact .stay
      | exact .settled (State.periodBegins_within State.cutOffDeliveries_bounded _ _ _).metered
  | frameSent l =>
    show Meters s (execFrameSent l s)
    unfold execFrameSent
    refine .whenRunning ?_
    split
    · exact .stay
    · exact .settled (State.replySent_metered l)
    · exact .settled fun hs => (State.frameEnd_within State.cutOffDeliveries_bounded _).metered
        (State.modLink_metered l _ hs)
  | watchTimerExpires account =>
    show Meters s (execWatchTimerExpires account s)
    unfold execWatchTimerExpires
    refine .whenRunning ?_
    split
    · next moment _ =>
      exact .settled fun hs =>
        (State.cutOffAccount_within State.cutOffDeliveries_bounded account).metered (s := s.reach moment) hs
    · exact .stay
  | reinstatingTimerExpires account =>
    show Meters s (execReinstatingTimerExpires account s)
    unfold execReinstatingTimerExpires
    refine .whenRunning ?_
    split
    · next moment _ =>
      exact .next fun hs => (State.raise_within .accountReinstated).metered
        (s := (s.reach moment).setStatus account .active none) hs
    · exact .stay
  | linkReset l tag =>
    show Meters s (execLinkReset l tag s)
    unfold execLinkReset
    refine .whenRunning ?_
    split
    · exact .next (State.linkReset_metered l tag)
    · exact .stay
  | powerUp | resetAssert | resetRelease | powerLoss => exact absurd hp Bool.noConfusion
  | tileWriteComplete | copyReadComplete | copyWriteComplete | deliveryReadComplete | surveyReadComplete
  | correctionReadComplete | correctionWriteComplete => exact absurd hc Bool.noConfusion
  | _ => cases hr

/-- Every command keeps the accumulators below the divisor. -/
theorem exec_meters (i : Instr) : Meters s (exec i s) := by
  cases hr : requestOfCommand i with
  | some lr => exact exec_request_meters hr
  | none =>
    cases hp : isPowerCommand i with
    | true => exact exec_power_meters hp
    | false =>
      cases hc : isCompletion i with
      | true => exact exec_completion_meters hc
      | false => exact exec_event_meters hr hp hc

/-- Settles O60: an invariant of every command, by what each operation of the blocks does to the meter settings and the
accumulators. A new divisor resolves every order (R186), so that none is left above it. -/
theorem accumulatorsBelowDivisor : Obligations.AccumulatorsBelowDivisor := by
  unfold Obligations.AccumulatorsBelowDivisor
  intro s t hs ht
  unfold step at ht
  split at ht
  · cases ht
    exact hs
  · exact exec_meters _ _ ht hs

end Sys2Proof.Machine
end

