-- ==== Sys2Proof/Proofs/Taking.lean ====
section
/-! PROOF. Requests taken: what a taken request's rule acts on, and the one answer that it gives (R189 to R192). -/

namespace Sys2Proof.Machine

variable {s s₁ t : State} {l : LinkId} {r : Request} {layout : List Layout} {fs : Fields} {home : Home} {body : Body}
  {a : Answer} {k : Link}

/-! ## The state that a taken request's rule acts on -/

theorem Taken.power (h : Taken l r layout fs s s₁) : s₁.power = s.power := by
  obtain ⟨-, -, k, -, -, rfl⟩ := h; simp
theorem Taken.now (h : Taken l r layout fs s s₁) : s₁.now = s.now := by
  obtain ⟨-, -, k, -, -, rfl⟩ := h; simp
theorem Taken.sizeMoves (h : Taken l r layout fs s s₁) : s₁.sizeMoves = s.sizeMoves := by
  obtain ⟨-, -, k, -, -, rfl⟩ := h; simp
theorem Taken.freeCount (h : Taken l r layout fs s s₁) : s₁.freeCount = s.freeCount := by
  obtain ⟨-, -, k, -, -, rfl⟩ := h; simp
theorem Taken.cat (h : Taken l r layout fs s s₁) : s₁.cat = s.cat := by
  obtain ⟨-, -, k, -, -, rfl⟩ := h; simp
theorem Taken.store (h : Taken l r layout fs s s₁) : s₁.store = s.store := by
  obtain ⟨-, -, k, -, -, rfl⟩ := h; simp
theorem Taken.port (h : Taken l r layout fs s s₁) : s₁.port = s.port := by
  obtain ⟨-, -, k, -, -, rfl⟩ := h; simp
theorem Taken.mover (h : Taken l r layout fs s s₁) : s₁.mover = s.mover := by
  obtain ⟨-, -, k, -, -, rfl⟩ := h; simp
theorem Taken.table (h : Taken l r layout fs s s₁) : s₁.table = s.table := by
  obtain ⟨-, -, k, -, -, rfl⟩ := h; simp
theorem Taken.engine (h : Taken l r layout fs s s₁) : s₁.engine = s.engine := by
  obtain ⟨-, -, k, -, -, rfl⟩ := h; simp
theorem Taken.book (h : Taken l r layout fs s s₁) : s₁.book = s.book := by
  obtain ⟨-, -, k, -, -, rfl⟩ := h; simp
theorem Taken.meter (h : Taken l r layout fs s s₁) : s₁.meter = s.meter := by
  obtain ⟨-, -, k, -, -, rfl⟩ := h; simp

/-- Taking a request leaves every controller alone (R192). -/
theorem Taken.notices (h : Taken l r layout fs s s₁) (m : LinkId) : (s₁.link m).notices = (s.link m).notices := by
  obtain ⟨-, -, k, hk, -, rfl⟩ := h
  by_cases hm : m = l
  · subst hm
    simp [(Link.present_keeps hk).2.2.1]
  · rw [State.setLink_link_other _ _ _ _ hm]

/-! ## The answer of a taken request -/

/-- The choices that a request leaves to the end of its step: its own link's transmitter; the arbiter and every transmitter;
or these after a tile frame held at the receiver (R70, R193, R194, log 9). -/
inductive Ending where
  | ofLink | ofPart | ofPort

def Ending.finish (l : LinkId) : Ending → State → State
  | .ofLink, s => s.transmit l
  | .ofPart, s => s.settle
  | .ofPort, s => s.passHeldTile.settle

/-- The choices that a request command leaves to the end of its step. -/
def endingOfCommand : Instr → Ending
  | .depositPage _ _ _ | .depositPhoto _ _ _ | .replatePage _ _ _ | .retireEdition _ _ _ | .abandonDeposit _ _ _ => .ofPort
  | .compact _ _ _ | .setStore _ _ _ | .readPage _ _ _ | .readPhoto _ _ _ | .stopDelivery _ _ _ | .restorePage _ _ _
  | .cancelRestore _ _ _ | .setCeiling _ _ _ | .settle _ _ _ | .addItem _ _ _ | .removeItem _ _ _ | .closeOrder _ _ _
  | .setMeter _ _ _ | .credit _ _ _ => .ofPart
  | _ => .ofLink

/-- Every request command is a serving of its request with its own rule and its own end (R189 to R192). -/
theorem exec_serve {i : Instr} (hi : requestOfCommand i = some (l, r)) :
    exec i s = serve ((endingOfCommand i).finish l) l (homeOfCommand i) (layoutOfCommand i) r (bodyOfCommand i) s := by
  cases i <;> cases hi <;> rfl

/-- A request command whose request its own link takes gives the answer of its rule (R192). -/
theorem exec_taken (i : Instr) (hi : requestOfCommand i = some (l, r)) (hl : (homeOfCommand i).allows l = true)
    (h : Taken l r (layoutOfCommand i) fs s s₁) (hb : bodyOfCommand i fs s₁ = (a, t)) {e : Ending}
    (he : endingOfCommand i = e) : exec i s = .next (e.finish l (t.reply l r.tag a)) := by
  rw [exec_serve hi, serve_taken h hl, hb, he]

section
variable {tag : Byte} {code : Nat} {ps : List Word}

/-- The request only gives its own link's transmitter a choice. -/
theorem exec_takenLocal (i : Instr) (hi : requestOfCommand i = some (l, requestOf tag code ps)) (hl : (homeOfCommand i).allows l = true)
    (he : endingOfCommand i = .ofLink) (h : Taken l (requestOf tag code ps) (layoutOfCommand i) fs s s₁)
    (hb : bodyOfCommand i fs s₁ = (a, t)) : exec i s = .next ((t.reply l tag a).transmit l) := exec_taken i hi hl h hb he
/-- The request gives the arbiter and every transmitter a choice. -/
theorem exec_takenWide (i : Instr) (hi : requestOfCommand i = some (l, requestOf tag code ps)) (hl : (homeOfCommand i).allows l = true)
    (he : endingOfCommand i = .ofPart) (h : Taken l (requestOf tag code ps) (layoutOfCommand i) fs s s₁)
    (hb : bodyOfCommand i fs s₁ = (a, t)) : exec i s = .next (t.reply l tag a).settle := exec_taken i hi hl h hb he
/-- The request may make room for a tile frame held at the receiver. -/
theorem exec_takenDeposit (i : Instr) (hi : requestOfCommand i = some (l, requestOf tag code ps)) (hl : (homeOfCommand i).allows l = true)
    (he : endingOfCommand i = .ofPort) (h : Taken l (requestOf tag code ps) (layoutOfCommand i) fs s s₁)
    (hb : bodyOfCommand i fs s₁ = (a, t)) : exec i s = .next (t.reply l tag a).passHeldTile.settle :=
  exec_taken i hi hl h hb he

end

/-! ## One answer to each request -/

/-- A request held at the receiver takes the place that the taken one leaves (R189). -/
theorem Link.take_request (r : Request) (h : k.held = some (.request r)) :
    k.take = { k with queue := k.queue.tail ++ [r], held := none } := by
  unfold Link.take
  rw [h]
theorem Link.take_other (h : ∀ r, k.held ≠ some (.request r)) : k.take = { k with queue := k.queue.tail } := by
  unfold Link.take
  split
  · next r hr => exact absurd hr (h r)
  · rfl

theorem Link.placeFree_iff : k.placeFree = true ↔ k.replies.length < 2 := by simp [Link.placeFree, replyPlaces]
theorem Link.placeFree_eq_false_iff : k.placeFree = false ↔ 2 ≤ k.replies.length := by
  simp [Link.placeFree, replyPlaces, Nat.lt_iff_add_one_le]

theorem answerRequest_wrongLink {ps : List Word} (hl : home.allows l = false) :
    answerRequest l home layout ps body s = (Answer.refuse .wrongLink, s) := by simp [answerRequest, hl]
theorem answerRequest_malformed {ps : List Word} (hl : home.allows l = true) (hf : readFields layout ps = none) :
    answerRequest l home layout ps body s = (Answer.refuse .badValue, s) := by simp [answerRequest, hl, hf]

/-- The answer to a request leaves the state alone when it is neither OK nor ACCEPTED. -/
theorem answerRequest_spares {ps : List Word} (hb : body.Sparing) : Spares s (answerRequest l home layout ps body s) := by
  unfold answerRequest
  split
  · split
    · exact hb _ _
    · exact Spares.same _ s
  · exact Spares.same _ s

/-- A rule that refuses everything BAD_VALUE, as an unknown code's does, whether or not the words read (R190). -/
theorem answerRequest_refusing {ps : List Word} :
    answerRequest l .all layout ps (fun _ s => refuseWith .badValue s) s = ({ result := .badValue }, s) := by
  unfold answerRequest
  rw [if_pos (Home.allows_all l)]
  split <;> rfl

/-- Settles O17: every request command is served by its rule, which keeps the links and spares the state when it refuses. -/
theorem requestsAnsweredOnce : Obligations.RequestsAnsweredOnce := by
  unfold Obligations.RequestsAnsweredOnce
  refine ⟨fun i l r k s hi hp hk => ⟨fun hfull => ?_, fun hfree => ?_, fun _ => Link.take_request _, Link.take_other⟩,
    fun l tag code ps k s hcode hp hk hfree => ?_⟩
  · obtain ⟨finish, -, -, -, he⟩ := exec_request hi
    rw [he, serve_waits k hp hk (Link.placeFree_eq_false_iff.mpr hfull)]
  · obtain ⟨finish, hfinish, hsteady, hsparing, he⟩ := exec_request hi
    have hplace := Link.placeFree_iff.mpr hfree
    let answered := answerRequest l (homeOfCommand i) (layoutOfCommand i) r.params (bodyOfCommand i) (s.setLink l k.take)
    refine ⟨answered.2, answered.1, finish, hfinish, ?_, fun hl => ?_, fun hl hf => ?_, fun hs => ?_, ?_⟩
    · simp [he, serve, whenRunning, hp, hk, hplace, answered]
    · exact congrArg Prod.fst (answerRequest_wrongLink hl)
    · exact congrArg Prod.fst (answerRequest_malformed hl hf)
    · have hkept : answered.2.steady (s.setLink l k.take).passage := answerRequest_taken_steady hsteady hs hk
      have hlink : answered.2.link l = { k.take with notices := (answered.2.link l).notices } := by
        have hlink := hkept.link (l := l)
        rwa [State.setLink_link] at hlink
      refine ⟨by rw [hlink], by rw [hlink], by rw [hlink]; exact Link.take_replies k, fun m => hkept.link, ?_⟩
      · exact (State.pending_of_passage hkept.2).trans (State.setLink_pending s l k.take)
    · exact answerRequest_spares hsparing
  · show execUnknownRequestCode l tag code ps s = _
    unfold execUnknownRequestCode
    rw [if_neg (by simpa using hcode)]
    have hplace := Link.placeFree_iff.mpr hfree
    simp [serveLocal, serve, whenRunning, hp, hk, hplace, answerRequest_refusing]

end Sys2Proof.Machine
end

