-- ==== Sys2Proof/Proofs/Queries.lean ====
section
/-! PROOF. The queries and the status requests: what they report, and what they leave alone (R18 to R20, R35, R81, R118, R128,
R146, R155, R168, R175, R184). -/

namespace Sys2Proof.Machine

variable {s s₁ t : State} {l : LinkId} {r : Request} {layout : List Layout} {fs : Fields} {tag : Byte}
  {ps : List Word}

/-! ## Records found by mode -/

/-- The first record above an id is the first one with its own id. -/
theorem find_of_find_above {α : Type} (idOf : α → Nat) {xs : List α} {id : Nat} {x : α}
    (h : xs.find? (fun y => decide (id < idOf y)) = some x) : xs.find? (fun y => decide (idOf y = idOf x)) = some x := by
  obtain ⟨habove, before, after, rfl, hbefore⟩ := List.find?_eq_some_iff_append.mp h
  refine List.find?_eq_some_iff_append.mpr ⟨decide_eq_true rfl, before, after, rfl, fun y hy => ?_⟩
  have := hbefore y hy
  simp at this habove ⊢
  omega

/-- A record found EXACT by its id, or NEXT as the first above it, is the one that the mode finds (R18, R155). -/
theorem byMode_find {α : Type} (idOf : α → Nat) {xs : List α} {mode id : Nat} {x : α}
    (h : mode = 0 ∧ xs.find? (fun y => decide (idOf y = id)) = some x ∨
      mode = 1 ∧ (xs.filter fun y => decide (id < idOf y)).head? = some x) :
    mode ≤ 1 ∧ (byMode mode id (xs.map idOf)).bind (fun i => xs.find? fun y => decide (idOf y = i)) = some x := by
  rcases h with ⟨rfl, hfind⟩ | ⟨rfl, hhead⟩
  · have hmem : (xs.map idOf).contains id = true := by
      have hx := List.find?_some hfind
      exact List.contains_iff_mem.mpr (List.mem_map.mpr ⟨x, List.mem_of_find?_eq_some hfind, of_decide_eq_true hx⟩)
    refine ⟨Nat.zero_le _, ?_⟩
    unfold byMode
    rw [if_pos rfl, if_pos hmem]
    exact hfind
  · refine ⟨Nat.le_refl _, ?_⟩
    have hfirst : nextAbove id (xs.map idOf) = some (idOf x) := by
      unfold nextAbove
      rw [List.filter_map, List.head?_map]
      exact congrArg (Option.map idOf) hhead
    show (nextAbove id (xs.map idOf)).bind _ = some x
    rw [hfirst, Option.bind_some]
    rw [List.head?_filter] at hhead
    exact find_of_find_above idOf hhead

theorem Catalogue.edition_byMode {c : Catalogue} {mode id : Nat} {e : Edition}
    (h : (mode = 0 ∧ c.edition id = some e) ∨ (mode = 1 ∧ (c.editions.filter fun x => id < x.id).head? = some e)) :
    ¬1 < mode ∧ (byMode mode id (c.editions.map (·.id))).bind c.edition = some e :=
  (byMode_find Edition.id h).imp_left Nat.not_lt.mpr
theorem Catalogue.photo_byMode {c : Catalogue} {mode id : Nat} {p : Photo}
    (h : (mode = 0 ∧ c.photo id = some p) ∨ (mode = 1 ∧ (c.photos.filter fun x => id < x.id).head? = some p)) :
    ¬1 < mode ∧ (byMode mode id (c.photos.map (·.id))).bind c.photo = some p :=
  (byMode_find Photo.id h).imp_left Nat.not_lt.mpr
theorem OrderBook.account_byMode {b : OrderBook} {mode id : Nat} {a : Account}
    (h : (mode = 0 ∧ b.account id = some a) ∨ (mode = 1 ∧ (b.accounts.filter fun x => id < x.id).head? = some a)) :
    ¬1 < mode ∧ (byMode mode id (b.accounts.map (·.id))).bind b.account = some a :=
  (byMode_find Account.id h).imp_left Nat.not_lt.mpr
theorem OrderBook.order_byMode {b : OrderBook} {mode id : Nat} {o : Order}
    (h : (mode = 0 ∧ b.order id = some o) ∨ (mode = 1 ∧ (b.orders.filter fun x => id < x.id).head? = some o)) :
    ¬1 < mode ∧ (byMode mode id (b.orders.map (·.id))).bind b.order = some o :=
  (byMode_find Order.id h).imp_left Nat.not_lt.mpr

/-! ## The catalogue and store queries -/

theorem Taken.editionFields (h : Taken l r layout fs s s₁) (e : Edition) : s₁.editionFields e = s.editionFields e := by
  simp only [State.editionFields, State.readExtents, State.readerSum, h.alloc]
theorem Taken.revisionFields (h : Taken l r layout fs s s₁) (v : Revision) :
    s₁.revisionFields v = s.revisionFields v := by simp only [State.revisionFields, h.alloc]
theorem Taken.photoFields (h : Taken l r layout fs s s₁) (p : Photo) : s₁.photoFields p = s.photoFields p := by
  simp only [State.photoFields, h.alloc]
theorem Taken.storeFields (h : Taken l r layout fs s s₁) : s₁.storeFields = s.storeFields := by
  simp only [State.storeFields, State.sizeMismatch, State.sizeNow, h.alloc, h.store, h.sizeMoves, h.now]

theorem State.level_congr (ha : t.alloc = s.alloc) (hm : t.meter = s.meter) : t.level = s.level := by
  funext l n
  simp only [State.level, ha, hm]
theorem Taken.pendingMark (h : Taken l r layout fs s s₁) : s₁.pendingMark = s.pendingMark := by
  funext l n src
  simp only [State.pendingMark, State.level_congr h.alloc h.meter]
theorem Taken.numbered (h : Taken l r layout fs s s₁) (m : LinkId) : s₁.numbered m = s.numbered m := by
  simp only [State.numbered, h.notices]
theorem Taken.candidate (h : Taken l r layout fs s s₁) (m : LinkId) : s₁.candidate m = s.candidate m := by
  simp only [State.candidate, h.numbered, h.pendingMark]
theorem Taken.peekFields (h : Taken l r layout fs s s₁) (m : LinkId) : s₁.peekFields m = s.peekFields m := by
  simp only [State.peekFields, h.numbered, h.pendingMark, h.notices]

/-- The level of the SIZE strap now: of its last move so far, or as the last start read it (log 41). -/
theorem State.sizeNow_eq {level : Bool} (hnone : (∀ m ∈ s.sizeMoves, s.now < m.1) → level = s.store.sizeHigh)
    (hlast : ∀ earlier m later, s.sizeMoves = earlier ++ m :: later → m.1 ≤ s.now → (∀ x ∈ later, s.now < x.1) →
      level = m.2) : s.sizeNow = level := by
  unfold State.sizeNow
  cases hmoves : (s.sizeMoves.filter (·.1 ≤ s.now)).getLast? with
  | none =>
    have hempty := List.getLast?_eq_none_iff.mp hmoves
    refine (hnone fun m hm => ?_).symm
    simpa using List.filter_eq_nil_iff.mp hempty m hm
  | some m =>
    obtain ⟨front, hfront⟩ := List.getLast?_eq_some_iff.mp hmoves
    obtain ⟨earlier, rest, hsplit, hearlier, hrest⟩ := List.filter_eq_append_iff.mp hfront
    obtain ⟨between, later, rfl, -, hm, hlater⟩ := List.filter_eq_cons_iff.mp hrest
    refine (hlast (earlier ++ between) m later (by simp [hsplit]) (by simpa using hm) fun x hx => ?_).symm
    simpa using List.filter_eq_nil_iff.mp hlater x hx

theorem Config.slotCount_ne_iff (level : Bool) (n : Nat) :
    (Config.slotCount level != n) = decide ((if level then 524288 else 262144) ≠ n) := by
  simp only [Config.slotCount, bne, ne_eq, decide_not]
  rfl

/-- Settles O18: each query's rule answers with the record it finds and gives back the state it was taken in. -/
theorem catalogueQueries : Obligations.CatalogueQueries := by
  unfold Obligations.CatalogueQueries
  intro l tag ps fs s s₁
  refine ⟨fun id mode e h hid hmode he => ?_, fun ed pg e p h hed hpg he hp => ⟨fun hrev => ?_, fun n v hrev hv => ?_⟩,
    fun id mode p h hid hmode hp => ?_, fun h => ?_, fun level hnone hlast => ?_, fun n h hn => ?_, fun h hn => ?_⟩
  · obtain ⟨hle, hfound⟩ := Catalogue.edition_byMode he
    exact exec_takenLocal (.editionInfo l tag ps) rfl rfl rfl h
      (by simp [bodyOfCommand, editionInfoBody, hid, hmode, hle, h.cat, hfound, h.editionFields])
  · exact exec_takenLocal (.pageInfo l tag ps) rfl rfl rfl h (by simp [bodyOfCommand, pageInfoBody, hed, hpg, hrev, h.cat, he, hp])
  · exact exec_takenLocal (.pageInfo l tag ps) rfl rfl rfl h
      (by simp [bodyOfCommand, pageInfoBody, hed, hpg, hrev, h.cat, he, hp, hv, h.revisionFields])
  · obtain ⟨hle, hfound⟩ := Catalogue.photo_byMode hp
    exact exec_takenLocal (.photoInfo l tag ps) rfl rfl rfl h
      (by simp [bodyOfCommand, photoInfoBody, hid, hmode, hle, h.cat, hfound, h.photoFields])
  · exact exec_takenLocal (.storeInfo l tag ps) rfl rfl rfl h (by simp [bodyOfCommand, storeInfoBody, h.storeFields])
  · refine ⟨s.storeFields.drop 3, ?_⟩
    rw [State.storeFields, State.sizeMismatch, State.sizeNow_eq hnone hlast, Config.slotCount_ne_iff]
    rfl
  · exact exec_takenLocal (.peek l tag ps) rfl rfl rfl h (by simp [bodyOfCommand, peekBody, h.candidate, hn, h.peekFields])
  · exact exec_takenLocal (.peek l tag ps) rfl rfl rfl h (by simp [bodyOfCommand, peekBody, h.candidate, hn, h.peekFields])

/-! ## The ledger queries -/

theorem Taken.itemFields (h : Taken l r layout fs s s₁) (order : Nat) (i : Item) :
    s₁.itemFields order i = s.itemFields order i := by simp only [State.itemFields, h.engine]

/-- Settles O19: each query's rule answers with the record it finds; the summary of the log alone moves the counter of free
values (log 16). -/
theorem ledgerQueries : Obligations.LedgerQueries := by
  unfold Obligations.LedgerQueries
  intro tag ps fs s s₁
  refine ⟨fun id mode a h hid hmode ha => ?_,
    fun id mode o h hid hmode ho => ⟨fun hitem => ?_, fun n i hitem hexact hi => ?_⟩,
    fun n p h hn hle hp => ?_, fun n c h hn hle hc => ?_, fun h hn => ?_, fun n e h hn he => ?_⟩
  · obtain ⟨hle, hfound⟩ := OrderBook.account_byMode ha
    exact exec_takenLocal (.accountStatus .sales tag ps) rfl rfl rfl h
      (by simp [bodyOfCommand, accountStatusBody, hid, hmode, hle, h.book, hfound, h.now, Account.fields, Config.accountStep])
  · obtain ⟨hle, hfound⟩ := OrderBook.order_byMode ho
    exact exec_takenLocal (.orderStatus .sales tag ps) rfl rfl rfl h
      (by simp [bodyOfCommand, orderStatusBody, hid, hmode, hle, hitem, h.book, hfound, Order.fields, Field.mark])
  · obtain ⟨hle, hfound⟩ := OrderBook.order_byMode ho
    exact exec_takenLocal (.orderStatus .sales tag ps) rfl rfl rfl h
      (by simp [bodyOfCommand, orderStatusBody, hid, hmode, hexact ▸ hle, hexact ▸ hfound, hexact, hitem, h.book, hi, h.itemFields])
  · exact exec_takenLocal (.readProfile .desk tag ps) rfl rfl rfl h
      (by simp [bodyOfCommand, readProfileBody, hn, Nat.not_lt.mpr hle, h.engine, Engine.profile, hp, Field.mark])
  · refine exec_takenLocal (.readTariff .sales tag ps) rfl rfl rfl h ?_
    cases hset : c.set <;>
      simp [bodyOfCommand, readTariffBody, hn, Nat.not_lt.mpr hle, h.meter, Meter.tariff, hc, Tariff.valueFields, Tariff.values, hset]
  · exact exec_takenLocal (.meterStatus .sales tag ps) rfl rfl rfl h (by simp [bodyOfCommand, meterStatusBody, hn, h.meter, h.freeCount])
  · exact exec_takenLocal (.meterStatus .sales tag ps) rfl rfl rfl h (by simp [bodyOfCommand, meterStatusBody, hn, h.meter, he])

/-! ## The status requests -/

/-- Settles O20: a record that is still under way is reported alone, an ended one leaves its list with the report. -/
theorem statusReadsRecords : Obligations.StatusReadsRecords := by
  unfold Obligations.StatusReadsRecords
  intro tag ps fs n s s₁ hn
  refine ⟨fun h => ⟨fun i d hd => ?_, fun e hnone he => ⟨s₁.modPort fun p =>
      { p with ended := p.ended.filter (·.handle ≠ n) }, ?_, ?_, ?_, fun m hm => ?_⟩⟩,
    fun h d hd => ⟨fun hfinal => ?_, fun hfinal => ⟨s₁.modTable fun t =>
      { t with records := t.records.filter (·.handle ≠ n) }, ?_, ?_, ?_, fun m hm => ?_⟩⟩,
    fun h => ⟨fun j hj => ?_, fun j hnone hj => ⟨s₁.modEngine fun g =>
      { g with ended := g.ended.filter (·.id ≠ n) }, ?_, ?_, ?_, fun m hm => ?_⟩⟩⟩
  · exact exec_takenLocal (.depositStatus .production tag ps) rfl rfl rfl h (by simp [bodyOfCommand, depositStatusBody, hn, h.port, hd, h.now])
  · exact exec_takenLocal (.depositStatus .production tag ps) rfl rfl rfl h (by simp [bodyOfCommand, depositStatusBody, hn, h.port, hnone, he])
  · rw [← h.port]; rfl
  · exact find_filter_gone _ _ _ fun y hy => by simpa using hy
  · exact (find_filter_other _ _ _ fun y hy => by simp at hy ⊢; omega).trans (by rw [h.port])
  · exact exec_takenLocal (.deliveryStatus .desk tag ps) rfl rfl rfl h
      (by simp [bodyOfCommand, deliveryStatusBody, hn, h.table, hd, hfinal, State.deliveryFields, State.channel, h.mover])
  · exact exec_takenLocal (.deliveryStatus .desk tag ps) rfl rfl rfl h
      (by simp [bodyOfCommand, deliveryStatusBody, hn, h.table, hd, hfinal, State.deliveryFields, State.channel, h.mover])
  · rw [← h.table]; rfl
  · exact find_filter_gone _ _ _ fun y hy => by simpa using hy
  · exact (find_filter_other _ _ _ fun y hy => by simp at hy ⊢; omega).trans (by rw [h.table]; rfl)
  · exact exec_takenLocal (.restoreStatus .desk tag ps) rfl rfl rfl h (by simp [bodyOfCommand, restoreStatusBody, hn, h.engine, hj])
  · exact exec_takenLocal (.restoreStatus .desk tag ps) rfl rfl rfl h (by simp [bodyOfCommand, restoreStatusBody, hn, h.engine, hnone, hj])
  · rw [← h.engine]; rfl
  · exact find_filter_gone _ _ _ fun y hy => by simpa using hy
  · exact (find_filter_other _ _ _ fun y hy => by simp at hy ⊢; omega).trans (by rw [h.engine])

end Sys2Proof.Machine
end

