-- ==== Sys2Proof/Proofs/Settings.lean ====
section
/-! PROOF. Settings, editions, accounts and orders: requests that change one record or one setting (R23, R36, R40, R80, R114,
R129, R151, R154, R161, R178). -/

namespace Sys2Proof.Machine

variable {s s₁ t : State} {l : LinkId} {r : Request} {layout : List Layout} {fs : Fields} {tag : Byte} {ps : List Word}

/-! ## Ranges of fields -/

theorem Fields.inRange_iff {i lo hi : Nat} : fs.inRange i lo hi = true ↔ ∀ v, fs.nat i = some v → lo ≤ v ∧ v ≤ hi := by
  unfold Fields.inRange
  cases fs.nat i <;> simp

theorem Fields.inRange_eq_false_iff {i lo hi : Nat} :
    fs.inRange i lo hi = false ↔ ∃ v, fs.nat i = some v ∧ (v < lo ∨ hi < v) := by
  unfold Fields.inRange
  cases fs.nat i with
  | none => simp
  | some v => simp; omega

/-! ## Volatile settings -/

/-- Settles O34: each setting's rule on values in range and out of range. -/
theorem volatileSettings : Obligations.VolatileSettings := by
  unfold Obligations.VolatileSettings
  intro tag ps fs s s₁
  refine ⟨fun n h hn => ⟨fun hlo hhi => ?_, fun hout => ?_⟩, fun h => ⟨fun hp hd => ?_, fun hout => ?_⟩,
    fun h => ⟨fun hin => ?_, fun ⟨i, v, hi, hv, hout⟩ => ?_⟩, fun n h hn => ?_⟩
  · have hin : ¬(n = 0 ∨ 255 < n) := by omega
    exact exec_takenLocal (.setDepositTimeout .production tag ps) rfl rfl rfl h
      (by simp [bodyOfCommand, setDepositTimeoutBody, hn, hin, ← h.port, State.modPort]; rfl)
  · exact exec_takenLocal (.setDepositTimeout .production tag ps) rfl rfl rfl h
      (by simp [bodyOfCommand, setDepositTimeoutBody, hn, hout, refuseWith]; rfl)
  · have hperiod := Fields.inRange_iff.mpr hp
    have hdepth := Fields.inRange_iff.mpr hd
    exact exec_takenLocal (.setPacing .desk tag ps) rfl rfl rfl h
      (by simp [bodyOfCommand, setPacingBody, hperiod, hdepth, ← h.table, State.modTable]; rfl)
  · have hbad : fs.inRange 0 1 255 = false ∨ fs.inRange 1 1 15 = false := by
      simp only [Fields.inRange_eq_false_iff]
      exact hout.imp (fun ⟨p, hp, h⟩ => ⟨p, hp, by omega⟩) fun ⟨d, hd, h⟩ => ⟨d, hd, by omega⟩
    exact exec_takenLocal (.setPacing .desk tag ps) rfl rfl rfl h
      (by simp [bodyOfCommand, setPacingBody, hbad, refuseWith]; rfl)
  · have h0 := Fields.inRange_iff.mpr fun v => hin 0 v (by omega)
    have h1 := Fields.inRange_iff.mpr fun v => hin 1 v (by omega)
    have h2 := Fields.inRange_iff.mpr fun v => hin 2 v (by omega)
    have h3 := Fields.inRange_iff.mpr fun v => hin 3 v (by omega)
    simp at h0 h1 h2 h3
    exact exec_takenLocal (.setSurvey .desk tag ps) rfl rfl rfl h
      (by simp [bodyOfCommand, setSurveyBody, h0, h1, h2, h3, ← h.engine, State.modEngine]; rfl)
  · have hbad : fs.inRange 0 1 255 = false ∨ fs.inRange 1 1 255 = false ∨ fs.inRange 2 1 40 = false ∨
        fs.inRange 3 1 255 = false := by
      simp only [Fields.inRange_eq_false_iff]
      match i, hi with
      | 0, _ => exact .inl ⟨v, hv, by simp at hout; omega⟩
      | 1, _ => exact .inr (.inl ⟨v, hv, by simp at hout; omega⟩)
      | 2, _ => exact .inr (.inr (.inl ⟨v, hv, by simp at hout; omega⟩))
      | 3, _ => exact .inr (.inr (.inr ⟨v, hv, by simp at hout; omega⟩))
    exact exec_takenLocal (.setSurvey .desk tag ps) rfl rfl rfl h
      (by simp [bodyOfCommand, setSurveyBody, hbad, refuseWith]; rfl)
  · exact exec_takenLocal (.setDay .sales tag ps) rfl rfl rfl h
      (by simp [bodyOfCommand, setDayBody, hn, ← h.meter, State.modMeter]; rfl)

/-! ## SET_STORE -/

/-- The conditions of R77 at a moment. -/
theorem Store.quietDue_iff {st : Store} {now : Nat} : st.quietDue now = true ↔ st.idle = true ∧ st.quietThreshold ≠ 0 ∧
    st.fixedCount = 0 ∧ ∃ since, st.idleSince = some since ∧ since + st.quietThreshold * 50 ≤ now := by
  unfold Store.quietDue
  cases st.idleSince with
  | none => simp
  | some since => 
    simp [Config.quietStep, and_assoc]
    exact fun _ _ _ => decide_eq_true_iff

theorem Store.quietIfDue_due {st : Store} {now : Nat} (h : st.quietDue now = true) (hb : st.burst = none) :
    st.quietIfDue now = st.enterQuiet := if_pos ⟨h, by simp [hb]⟩

theorem Store.quietIfDue_other {st : Store} {now : Nat} (h : st.quietDue now = false ∨ st.burst ≠ none) :
    st.quietIfDue now = st := by
  refine if_neg fun ⟨hdue, hburst⟩ => ?_
  rcases h with h | h
  · rw [hdue] at h; cases h
  · exact h (by simpa using hburst)

/-- A store that has been idle for the new threshold is QUIET at once (R80). -/
theorem Store.setSettings_quiet {st : Store} {now threshold burst since : Nat} (hidle : st.idle = true)
    (hsince : st.idleSince = some since) (hthreshold : threshold ≠ 0) (hfixed : st.fixedCount = 0) (hburst : st.burst = none)
    (hdue : since + threshold * 50 ≤ now) :
    st.setSettings now threshold burst = { st with
      quietThreshold := threshold, burstLength := burst, state := .quiet, selfRefresh := true, debt := 0
      halted := false, refreshDue := none, idleSince := none } :=
  Store.quietIfDue_due (st := { st with quietThreshold := threshold, burstLength := burst })
    (Store.quietDue_iff.mpr ⟨hidle, hthreshold, hfixed, since, hsince, hdue⟩) hburst

/-- Otherwise the settings alone change (R80). -/
theorem Store.setSettings_kept {st : Store} {now threshold burst : Nat}
    (h : st.idle = false ∨ threshold = 0 ∨ st.fixedCount ≠ 0 ∨ st.burst ≠ none ∨
      ∀ since, st.idleSince = some since → now < since + threshold * 50) :
    st.setSettings now threshold burst = { st with quietThreshold := threshold, burstLength := burst } := by
  refine Store.quietIfDue_other (st := { st with quietThreshold := threshold, burstLength := burst }) ?_
  rw [← Bool.not_eq_true, Store.quietDue_iff]
  by_cases hb : st.burst = none
  · refine .inl fun ⟨hidle, hthreshold, hfixed, since, hsince, hdue⟩ => ?_
    rcases h with h | h | h | h | h
    · exact Bool.false_ne_true (h.symm.trans hidle)
    · exact hthreshold h
    · exact h hfixed
    · exact h hb
    · exact Nat.not_le_of_lt (h since hsince) hdue
  · exact .inr hb

/-- Settles O35: the new settings are stored, and the test for QUIET is made under them. -/
theorem setStore : Obligations.SetStore := by
  unfold Obligations.SetStore
  intro tag ps fs threshold burst s s₁ h hthreshold hburst
  refine ⟨fun h0 h1 => ⟨s₁.modStore (Store.setSettings s.now threshold burst), ?_, rfl,
    fun since hidle hsince hne hfixed hb hdue => ?_, fun hnot => ?_⟩, fun hout => ?_⟩
  · have hin0 : fs.inRange 0 0 255 = true := Fields.inRange_iff.mpr fun v hv => ⟨Nat.zero_le v, h0 v hv⟩
    have hin1 := Fields.inRange_iff.mpr h1
    have hbody : setStoreBody fs s₁ = (Answer.ok [.one s.store.quietThreshold, .one s.store.burstLength],
        s₁.modStore (Store.setSettings s.now threshold burst)) := by
      simp [setStoreBody, hin0, hin1, h.store, h.now, hthreshold, hburst]
    have he := exec_takenWide (.setStore .production tag ps) rfl rfl rfl h hbody
    exact he
  · rw [State.modStore_store, h.store]
    exact Store.setSettings_quiet hidle hsince hne hfixed hb hdue
  · rw [State.modStore_store, h.store]
    exact Store.setSettings_kept hnot
  · have hbad : fs.inRange 0 0 255 = false ∨ fs.inRange 1 1 16 = false := by
      simp only [Fields.inRange_eq_false_iff]
      exact hout.imp (fun ⟨v, hv, h⟩ => ⟨v, hv, .inr h⟩) fun ⟨v, hv, h⟩ => ⟨v, hv, by omega⟩
    exact exec_takenWide (.setStore .production tag ps) rfl rfl rfl h
      (by simp [bodyOfCommand, setStoreBody, hbad, refuseWith]; rfl)

/-! ## Editions -/

/-- Settles O24: a new record is found by its id, a closed one under its new state, and every other one as before. -/
theorem openAndCloseEdition : Obligations.OpenAndCloseEdition := by
  unfold Obligations.OpenAndCloseEdition
  refine ⟨fun tag ps fs id day number s s₁ h hid hday hnumber h0 h1 h8 hnone hroom => ?_,
    fun tag ps fs id e s s₁ h hid he => ⟨fun hopen hpages => ?_, fun r hr => ?_⟩⟩
  · let e : Edition := { id, issueDay := day, number }
    have hins := insertEdition_inserted e s.cat.editions
    have hcheck : s₁.checkOpenEdition id number = .ok () := by
      have hbad : ¬(id = 0 ∨ number = 0 ∨ 8 < number) := by omega
      have hfull : ¬Config.maxEditions ≤ s.cat.editions.length := by simpa [Config.maxEditions] using hroom
      simp [State.checkOpenEdition, h.cat, hbad, hnone, hfull]
    refine ⟨s₁.modCat fun c => { c with editions := insertEdition e c.editions }, ?_, by rw [← h.cat]; rfl, ?_, fun other ho => ?_⟩
    · exact exec_takenLocal (.openEdition .production tag ps) rfl rfl rfl h
        (by simp [bodyOfCommand, openEditionBody, hid, hday, hnumber, hcheck]; exact ⟨rfl, rfl⟩)
    · rw [State.modCat_cat, h.cat]
      exact hins.find_new (by simp [e]) hnone
    · rw [State.modCat_cat, h.cat]
      exact hins.find_other (by simpa [e] using Ne.symm ho)
  · have hcheck : s₁.checkCloseEdition id = .ok e := by
      simp [State.checkCloseEdition, h.cat, he, hopen, EditionState.refusesDeposit, hpages]
    refine ⟨s₁.modCat (·.modEdition id fun x => { x with state := e.closedState }), ?_, by rw [← h.cat]; rfl, ?_, fun other ho => ?_⟩
    · have hcode : e.closedState.code = if e.filling = 0 then 2 else 1 := by
        unfold Edition.closedState
        split <;> rfl
      exact exec_takenLocal (.closeEdition .production tag ps) rfl rfl rfl h
        (by simp [bodyOfCommand, closeEditionBody, hid, hcheck, hcode]; rfl)
    · rw [State.modCat_cat, h.cat]
      exact (Catalogue.edition_modEdition_same s.cat id _ (by intro _; rfl)).trans (by rw [he]; rfl)
    · rw [State.modCat_cat, h.cat]
      exact Catalogue.edition_modEdition_other s.cat id other _ (by intro _; rfl) ho
  · have hcheck : s₁.checkCloseEdition id = .error (Answer.refuse r) := by
      rcases hr with ⟨hs, rfl⟩ | ⟨hs, rfl⟩ | ⟨hs, rfl⟩ | ⟨hs, hp, rfl⟩
      all_goals simp [State.checkCloseEdition, h.cat, he, hs, EditionState.refusesDeposit]
      exact hp
    exact exec_takenLocal (.closeEdition .production tag ps) rfl rfl rfl h
      (by simp [bodyOfCommand, closeEditionBody, hid, hcheck]; rfl)

/-! ## Accounts and orders -/

/-- A free order id is found while 64 orders at most are in use (R161). -/
theorem OrderBook.nextOrder_free {b : OrderBook} (hroom : b.orders.length < 64) :
    b.order (nextFree 65535 b.orderInUse 65 b.lastOrderId) = none := by
  have hfree := (nextFree_spec 65535 b.orderInUse (b.orders.map (·.id))
    (fun v hv => by simpa [OrderBook.orderInUse] using hv) 65 b.lastOrderId (by simp; omega) (by omega)).1
  rw [OrderBook.order, List.find?_eq_none]
  intro o ho heq
  have hused : b.orderInUse (nextFree 65535 b.orderInUse 65 b.lastOrderId) = true := List.any_eq_true.mpr ⟨o, ho, heq⟩
  rw [hfree] at hused
  cases hused

/-- Settles O53: the checks in order, and each table with one record more, changed or gone. -/
theorem accountsAndOrders : Obligations.AccountsAndOrders := by
  unfold Obligations.AccountsAndOrders
  intro tag ps fs id s s₁ hid
  refine ⟨fun ceiling h hceiling => ⟨fun hbad => ?_, fun h1 hc hsome => ?_, fun h1 hc hnone hfull => ?_,
      fun h1 hc hnone hroom => ?_⟩,
    fun h => ⟨fun hnone => ?_, fun a ha => ⟨fun hbusy => ?_, fun horders howed => ?_⟩⟩,
    fun discount a new h hdiscount hd ha hroom hnew => ?_,
    fun discount h hdiscount => ⟨fun hd => ?_, fun hd hnone => ?_, fun hd hsome hfull => ?_⟩⟩
  · have hcheck : s₁.checkOpenAccount id ceiling = .error (Answer.refuse .badValue) := if_pos hbad
    exact exec_takenLocal (.openAccount .sales tag ps) rfl rfl rfl h
      (by simp [bodyOfCommand, openAccountBody, hid, ← hceiling, hcheck]; rfl)
  · have hcheck : s₁.checkOpenAccount id ceiling = .error (Answer.refuse .accountExists) := by
      have hbad : ¬(id = 0 ∨ Config.maxUnits < ceiling) := by simp only [Config.maxUnits]; omega
      simp [State.checkOpenAccount, hbad, h.book, Option.isSome_iff_ne_none.mpr hsome]
    exact exec_takenLocal (.openAccount .sales tag ps) rfl rfl rfl h
      (by simp [bodyOfCommand, openAccountBody, hid, ← hceiling, hcheck]; rfl)
  · have hcheck : s₁.checkOpenAccount id ceiling = .error (Answer.tableFull 6) := by
      have hbad : ¬(id = 0 ∨ Config.maxUnits < ceiling) := by simp only [Config.maxUnits]; omega
      have hlong : Config.maxAccounts ≤ s.book.accounts.length := hfull
      simp [State.checkOpenAccount, hbad, h.book, hnone, hlong]
    exact exec_takenLocal (.openAccount .sales tag ps) rfl rfl rfl h
      (by simp [bodyOfCommand, openAccountBody, hid, ← hceiling, hcheck]; rfl)
  · let a : Account := { id, ceiling }
    have hins := insertAccount_inserted a s.book.accounts
    have hcheck : s₁.checkOpenAccount id ceiling = .ok () := by
      have hbad : ¬(id = 0 ∨ Config.maxUnits < ceiling) := by simp only [Config.maxUnits]; omega
      have hlong : ¬Config.maxAccounts ≤ s.book.accounts.length := Nat.not_le.mpr hroom
      simp [State.checkOpenAccount, hbad, h.book, hnone, hlong]
    refine ⟨s₁.modBook fun b => { b with accounts := insertAccount a b.accounts }, ?_, by rw [← h.book]; rfl, ?_, fun other ho => ?_⟩
    · exact exec_takenLocal (.openAccount .sales tag ps) rfl rfl rfl h
        (by simp [bodyOfCommand, openAccountBody, hid, ← hceiling, hcheck]; exact ⟨rfl, rfl⟩)
    · rw [State.modBook_book, h.book]
      exact hins.find_new (by simp [a]) hnone
    · rw [State.modBook_book, h.book]
      exact hins.find_other (by simpa [a] using Ne.symm ho)
  · have hcheck : s₁.checkRemoveAccount id = .error (Answer.refuse .noAccount) := by
      simp [State.checkRemoveAccount, h.book, hnone]
    exact exec_takenLocal (.removeAccount .sales tag ps) rfl rfl rfl h
      (by simp [bodyOfCommand, removeAccountBody, hid, hcheck]; rfl)
  · have hcheck : s₁.checkRemoveAccount id = .error (Answer.refuse .accountBusy) := by
      simp [State.checkRemoveAccount, h.book, ha, hbusy]
    exact exec_takenLocal (.removeAccount .sales tag ps) rfl rfl rfl h
      (by simp [bodyOfCommand, removeAccountBody, hid, hcheck]; rfl)
  · have hcheck : s₁.checkRemoveAccount id = .ok () := by simp [State.checkRemoveAccount, h.book, ha, horders, howed]
    refine ⟨s₁.modBook fun b => { b with accounts := b.accounts.filter (·.id ≠ id) }, ?_, by rw [← h.book]; rfl, ?_, fun other ho => ?_⟩
    · exact exec_takenLocal (.removeAccount .sales tag ps) rfl rfl rfl h
        (by simp [bodyOfCommand, removeAccountBody, hid, hcheck]; rfl)
    · exact find_filter_gone _ _ _ fun y hy => by simpa using hy
    · rw [State.modBook_book, h.book]
      exact find_filter_other _ _ _ fun y hy => by simp at hy ⊢; omega
  · subst hnew
    have hfree := OrderBook.nextOrder_free hroom
    have hins := insertOrder_inserted { id := nextFree 65535 s.book.orderInUse 65 s.book.lastOrderId, account := id, discount } s.book.orders
    have hcheck : s₁.checkOpenOrder id discount = .ok () := by
      have hlong : ¬Config.maxOrders ≤ s.book.orders.length := Nat.not_le.mpr hroom
      simp [State.checkOpenOrder, Nat.not_lt.mpr hd, h.book, ha, hlong]
    refine ⟨hfree, s₁.modBook (OrderBook.openOrder (nextFree 65535 s.book.orderInUse 65 s.book.lastOrderId) id discount), ?_, ?_⟩
    · exact exec_takenLocal (.openOrder .sales tag ps) rfl rfl rfl h
        (by simp [bodyOfCommand, openOrderBody, hid, hdiscount, hcheck, h.book]; rfl)
    · rw [State.modBook_book, h.book]
      refine ⟨by rw [← h.book]; rfl, rfl, hins.find_new (by simp) hfree, fun other ho => hins.find_other (by simpa using Ne.symm ho), ?_,
        fun other ho => OrderBook.account_modAccount_other s.book id other _ (by intro _; rfl) ho⟩
      exact (OrderBook.account_modAccount_same s.book id _ (by intro _; rfl)).trans (by rw [ha]; rfl)
  · have hcheck : s₁.checkOpenOrder id discount = .error (Answer.refuse .badValue) := if_pos hd
    exact exec_takenLocal (.openOrder .sales tag ps) rfl rfl rfl h
      (by simp [bodyOfCommand, openOrderBody, hid, hdiscount, hcheck]; rfl)
  · have hcheck : s₁.checkOpenOrder id discount = .error (Answer.refuse .noAccount) := by
      simp [State.checkOpenOrder, Nat.not_lt.mpr hd, h.book, hnone]
    exact exec_takenLocal (.openOrder .sales tag ps) rfl rfl rfl h
      (by simp [bodyOfCommand, openOrderBody, hid, hdiscount, hcheck]; rfl)
  · have hcheck : s₁.checkOpenOrder id discount = .error (Answer.tableFull 7) := by
      have hlong : Config.maxOrders ≤ s.book.orders.length := hfull
      simp [State.checkOpenOrder, Nat.not_lt.mpr hd, h.book, hsome, hlong]
    exact exec_takenLocal (.openOrder .sales tag ps) rfl rfl rfl h
      (by simp [bodyOfCommand, openOrderBody, hid, hdiscount, hcheck]; rfl)

/-! ## Notices -/

/-- The best of a list is one of it, and no other one of it is better (R200, R201). -/
theorem bestSource_spec : ∀ {xs : List (Source × Nat)} {b : Source × Nat}, bestSource xs = some b →
    b ∈ xs ∧ ∀ x ∈ xs, b.1.priority < x.1.priority ∨ (b.1.priority = x.1.priority ∧ b.2 ≤ x.2)
  | [], _, h => by cases h
  | a :: rest, b, h => by
    unfold bestSource at h
    cases hrest : bestSource rest with
    | none =>
      rw [hrest] at h
      cases h
      have hempty : rest = [] := by
        cases rest with
        | nil => rfl
        | cons x xs =>
          unfold bestSource at hrest
          split at hrest <;> cases hrest
      subst hempty
      simp
    | some c =>
      rw [hrest] at h
      obtain ⟨hc, hbest⟩ := bestSource_spec hrest
      have hb : b = betterSource a c := by simpa using h.symm
      unfold betterSource at hb
      split at hb
      · next hlt =>
        subst hb
        refine ⟨List.mem_cons_of_mem _ hc, fun x hx => ?_⟩
        rcases List.mem_cons.mp hx with rfl | hx
        · omega
        · exact hbest x hx
      · next hnot =>
        subst hb
        refine ⟨List.mem_cons_self, fun x hx => ?_⟩
        rcases List.mem_cons.mp hx with rfl | hx
        · omega
        · have := hbest x hx
          omega

theorem bestSource_eq_none_iff {xs : List (Source × Nat)} : bestSource xs = none ↔ xs = [] := by
  cases xs with
  | nil => simp [bestSource]
  | cons x xs =>
    unfold bestSource
    split <;> simp

/-- Changing the source of a number is writing its new record. -/
theorem Controller.modify_eq_withSource {c : Controller} {n : Nat} {src : Source} (h : c.sources[n]? = some src)
    (f : Source → Source) : c.modify n f = c.withSource n (f src) := by
  simp only [Controller.modify, Controller.withSource]
  congr 1
  apply List.ext_getElem?
  intro m
  by_cases hm : m = n
  · subst hm
    obtain ⟨hlt, rfl⟩ := List.getElem?_eq_some_iff.mp h
    simp [hlt]
  · simp [Ne.symm hm]

/-- What a record of a source says is decided by its number alone. -/
theorem State.bestOf_spec {p : Source → Nat → Bool} {n : Nat}
    (h : (bestSource ((s.numbered l).filter fun (src, n) => p src n)).map Prod.snd = some n) :
    ∃ src, (s.link l).notices.sources[n]? = some src ∧ p src n = true ∧
      ∀ (m : Nat) (other : Source), (s.link l).notices.sources[m]? = some other → p other m = true →
        src.priority < other.priority ∨ (src.priority = other.priority ∧ n ≤ m) := by
  obtain ⟨⟨src, k⟩, hbest, rfl⟩ := Option.map_eq_some_iff.mp h
  obtain ⟨hmem, hleast⟩ := bestSource_spec hbest
  obtain ⟨hnumbered, hp⟩ := List.mem_filter.mp hmem
  exact ⟨src, State.mem_numbered.mp hnumbered, hp, fun m other hm ho =>
    hleast (other, m) (List.mem_filter.mpr ⟨State.mem_numbered.mpr hm, ho⟩)⟩

theorem State.bestOf_exists {p : Source → Nat → Bool} {n : Nat} {src : Source}
    (h : (s.link l).notices.sources[n]? = some src) (hp : p src n = true) :
    ∃ m, (bestSource ((s.numbered l).filter fun (src, n) => p src n)).map Prod.snd = some m := by
  cases hb : bestSource ((s.numbered l).filter fun (src, n) => p src n) with
  | none =>
    have hempty := bestSource_eq_none_iff.mp hb
    have hmem : (src, n) ∈ (s.numbered l).filter fun (src, n) => p src n :=
      List.mem_filter.mpr ⟨State.mem_numbered.mpr h, hp⟩
    rw [hempty] at hmem
    cases hmem
  | some b => exact ⟨b.2, rfl⟩

theorem State.bestOf_none {p : Source → Nat → Bool}
    (h : ∀ (n : Nat) (src : Source), (s.link l).notices.sources[n]? = some src → p src n = false) :
    (bestSource ((s.numbered l).filter fun (src, n) => p src n)).map Prod.snd = none := by
  rw [Option.map_eq_none_iff, bestSource_eq_none_iff, List.filter_eq_nil_iff]
  intro ⟨src, n⟩ hmem
  simp [h n src (State.mem_numbered.mp hmem)]

/-- A change of one source of a link, written as the record it puts there. -/
theorem State.modNotices_modify {n : Nat} {src : Source} (h : (s.link l).notices.sources[n]? = some src) (f : Source → Source) :
    s.modNotices l (·.modify n f) = s.setLink l { s.link l with notices := (s.link l).notices.withSource n (f src) } := by
  show s.setLink l { s.link l with notices := (s.link l).notices.modify n f } = _
  rw [Controller.modify_eq_withSource h]

theorem Notice.edge (n : Notice) (s : State) : s.level n.link n.number = none := by cases n <;> rfl

theorem Controller.withSource_getElem {c : Controller} {n : Nat} {src old : Source} (h : c.sources[n]? = some old) :
    (c.withSource n src).sources[n]? = some src := by
  obtain ⟨hlt, -⟩ := List.getElem?_eq_some_iff.mp h
  simp [Controller.withSource, hlt]

/-- Settles O13: a raised EDGE source is latched, and raising it again finds it so; a LEVEL source follows its condition. -/
theorem pendingMarks : Obligations.PendingMarks := by
  unfold Obligations.PendingMarks
  refine ⟨fun n s src h => ?_, fun s src => ⟨?_, ?_⟩⟩
  · have hraise := State.modNotices_modify h fun src => { src with latched := true }
    have hlink : ((s.raise n).link n.link).notices.sources[n.number]? = some { src with latched := true } := by
      unfold State.raise
      rw [hraise, State.setLink_link]
      exact Controller.withSource_getElem h
    refine ⟨hlink, ?_, ?_, hraise⟩
    · unfold State.pendingMark
      rw [Notice.edge]
    · have hagain := State.modNotices_modify hlink fun src => { src with latched := true }
      refine hagain.trans ?_
      unfold State.raise
      rw [hraise, State.setLink_link, State.setLink_setLink]
      simp [Controller.withSource]
  · simp [State.pendingMark, State.level, Allocator.spaceLow, Allocator.freeTotal]
    exact fun _ => decide_eq_true_iff
  · simp [State.pendingMark, State.level, Meter.tariffUnset]

/-- A source that POLL may take (R200). -/
def State.takeable (s : State) (l : LinkId) (src : Source) (n : Nat) : Bool :=
  s.pendingMark l n src && !src.mask && !src.inService

theorem State.takeable_iff {src : Source} {n : Nat} :
    s.takeable l src n = true ↔ s.pendingMark l n src = true ∧ src.mask = false ∧ src.inService = false := by
  simp [State.takeable, and_assoc]

/-- Settles O14: the best candidate goes into service. -/
theorem pollTakesBestSource : Obligations.PollTakesBestSource := by
  unfold Obligations.PollTakesBestSource
  intro l tag ps fs s s₁ h
  refine ⟨fun ⟨n, src, hn, hpending, hmask, hservice⟩ => ?_, fun hnone => ?_⟩
  · obtain ⟨m, hm⟩ : ∃ m, s.candidate l = some m :=
      State.bestOf_exists (p := s.takeable l) hn (State.takeable_iff.mpr ⟨hpending, hmask, hservice⟩)
    obtain ⟨best, hbest, hp, hleast⟩ := State.bestOf_spec (p := s.takeable l) hm
    obtain ⟨hpend, hunmasked, hidle⟩ := State.takeable_iff.mp hp
    refine ⟨m, best, hbest, hpend, hunmasked, hidle, fun k other hk hkp hkm hks => hleast k other hk (State.takeable_iff.mpr ⟨hkp, hkm, hks⟩), ?_⟩
    have hnotices := h.notices l
    have hchange := State.modNotices_modify (s := s₁) (l := l) (hnotices ▸ hbest) fun src => { src with inService := true, latched := false }
    rw [hnotices] at hchange
    exact exec_takenLocal (.poll l tag ps) rfl (Home.allows_all l) rfl h
      (by simp [bodyOfCommand, pollBody, h.candidate, hm, hchange]; rfl)
  · have hcandidate : s.candidate l = none := State.bestOf_none (p := s.takeable l) fun n src hn => by
      rw [← Bool.not_eq_true, State.takeable_iff]
      intro ⟨hp, hm, hs⟩
      rw [hnone n src hn hp hm] at hs
      cases hs
    exact exec_takenLocal (.poll l tag ps) rfl (Home.allows_all l) rfl h
      (by simp [bodyOfCommand, pollBody, h.candidate, hcandidate]; rfl)

theorem Taken.bestInService (h : Taken l r layout fs s s₁) (m : LinkId) : s₁.bestInService m = s.bestInService m := by
  simp only [State.bestInService, h.numbered]

/-- Settles O15: the named source, or the best one in service, leaves service. -/
theorem endNotice : Obligations.EndNotice := by
  unfold Obligations.EndNotice
  intro l tag ps fs s s₁ h
  have hnotices := h.notices l
  refine ⟨fun n src hname hcount hn => ?_, fun hname ⟨n, src, hn, hservice⟩ => ?_, fun hname hnone => ?_⟩
  · have hchange := State.modNotices_modify (s := s₁) (l := l) (hnotices ▸ hn) fun src => { src with inService := false }
    rw [hnotices] at hchange
    exact exec_takenLocal (.endNotice l tag ps) rfl (Home.allows_all l) rfl h
      (by simp [bodyOfCommand, endNoticeBody, hname, Nat.not_le.mpr hcount, State.serving, State.endService, hnotices, hn, hchange]; rfl)
  · obtain ⟨m, hm⟩ : ∃ m, s.bestInService l = some m := State.bestOf_exists (p := fun src _ => src.inService) hn hservice
    obtain ⟨best, hbest, hp, hleast⟩ := State.bestOf_spec (p := fun src _ => src.inService) hm
    have hchange := State.modNotices_modify (s := s₁) (l := l) (hnotices ▸ hbest) fun src => { src with inService := false }
    rw [hnotices] at hchange
    exact ⟨m, best, hbest, hp, hleast, exec_takenLocal (.endNotice l tag ps) rfl (Home.allows_all l) rfl h
      (by simp [bodyOfCommand, endNoticeBody, hname, h.bestInService, hm, State.endService, hchange]; rfl)⟩
  · have hbest : s.bestInService l = none := State.bestOf_none (p := fun src _ => src.inService) fun n src hn =>
      hnone src (List.mem_of_getElem? hn)
    exact exec_takenLocal (.endNotice l tag ps) rfl (Home.allows_all l) rfl h
      (by simp [bodyOfCommand, endNoticeBody, hname, h.bestInService, hbest]; rfl)

/-- Settles O16: the values named are written over the sources one by one. -/
theorem setNotice : Obligations.SetNotice := by
  unfold Obligations.SetNotice
  intro l tag ps fs s s₁ h hnames hmask hpriority hfloor
  have hnotices := h.notices l
  have hinside : namesOutside (sourceCount l) fs = false := by
    simp only [namesOutside, maskOutside, Bool.or_eq_false_iff, List.any_eq_false]
    refine ⟨fun n hn => ?_, fun v hv => by simpa using hmask v hv⟩
    have hn8 := List.mem_range.mp hn
    by_cases hc : sourceCount l ≤ n
    · simp [hnames n hn8 hc]
    · simp [hc]
  have hlevel : levelOutside fs = false := by
    simp only [levelOutside, Bool.or_eq_false_iff, List.any_eq_false]
    refine ⟨fun n hn => ?_, ?_⟩
    · simpa using Fields.inRange_iff.mpr fun v hv => ⟨Nat.zero_le v, hpriority n v (List.mem_range.mp hn) hv⟩
    · simpa using Fields.inRange_iff.mpr fun v hv => ⟨Nat.zero_le v, hfloor v hv⟩
  refine ⟨s₁.modNotices l (Controller.write fs), ?_, ?_, ?_, ?_, fun n src hn => ?_⟩
  · exact exec_takenLocal (.setNotice l tag ps) rfl (Home.allows_all l) rfl h
      (by simp [bodyOfCommand, setNoticeBody, hinside, hlevel, hnotices, Controller.fields, Controller.priorityField]; rfl)
  all_goals simp only [State.modNotices, State.setLink_link, hnotices]
  · rfl
  · simp [Controller.write]
  · refine ⟨{ src with mask := newMask (fs.values 8) n src.mask, priority := (fs.nat n).getD src.priority }, ?_, rfl, rfl, rfl, rfl⟩
    simp [Controller.write, hn]

end Sys2Proof.Machine
end

