-- ==== Sys2Proof/Proofs/Accounts.lean ====
section
/-! PROOF. Accounts and the fee meter: evaluation by Table 8-3, postings, credits and the tariff (chapters 8 and 9). -/

namespace Sys2Proof.Machine

variable {s s₁ t u : State} {l : LinkId} {r : Request} {layout : List Layout} {fs : Fields} {tag : Byte} {ps : List Word}
  {id : Nat} {a b : Account} {stop : StopDeliveries}

/-! ## One account changes -/

/-- The record of the account `id` alone has changed, to `b`. -/
def State.AccountBecomes (s : State) (id : Nat) (b : Account) (t : State) : Prop :=
  t = { s with book := { s.book with accounts := t.book.accounts } } ∧ t.book.account id = some b ∧
    ∀ other, other ≠ id → t.book.account other = s.book.account other

theorem State.AccountBecomes.trans {c : Account} (h : s.AccountBecomes id b t) (h' : t.AccountBecomes id c u) :
    s.AccountBecomes id c u := by
  obtain ⟨ht, -, hother⟩ := h
  obtain ⟨hu, hc, hother'⟩ := h'
  refine ⟨?_, hc, fun m hm => (hother' m hm).trans (hother m hm)⟩
  rw [ht] at hu
  exact hu

theorem State.AccountBecomes.book (h : s.AccountBecomes id b t) : t.book = { s.book with accounts := t.book.accounts } :=
  congrArg State.book h.1
theorem State.AccountBecomes.frame (h : s.AccountBecomes id b t) : t = { s with book := t.book } :=
  h.1.trans (congrArg (fun x => { s with book := x }) h.book.symm)

theorem State.AccountBecomes.refl (ha : s.book.account id = some a) : s.AccountBecomes id a s := ⟨rfl, ha, fun _ _ => rfl⟩

theorem State.modAccount_becomes (ha : s.book.account id = some a) (f : Account → Account) (hf : ∀ x, (f x).id = x.id) :
    s.AccountBecomes id (f a) (s.modBook (·.modAccount id f)) :=
  ⟨rfl, by rw [State.modBook_book, OrderBook.account_modAccount_same _ _ _ hf, ha]; rfl,
    fun m hm => OrderBook.account_modAccount_other s.book id m f hf hm⟩

theorem State.setStatus_becomes (ha : s.book.account id = some a) (status : AccountStatus) (timer : Option Nat) :
    s.AccountBecomes id { a with status, timer } (s.setStatus id status timer) :=
  State.modAccount_becomes ha _ fun _ => rfl

/-! ## Table 8-3 -/

theorem State.evaluate_noCeiling (ha : s.book.account id = some a) (hc : a.ceiling = 0) :
    s.evaluate stop id = if a.status = .cutOff ∨ a.status = .reinstating then
      (s.setStatus id .active none).raise .accountReinstated else s.setStatus id .active none := by
  simp [State.evaluate, ha, hc]

/-- The row of Table 8-3 for an account with a ceiling. -/
theorem State.evaluate_ceiling (ha : s.book.account id = some a) (hc : a.ceiling ≠ 0) :
    s.evaluate stop id = match a.status with
      | .active => if a.ceiling ≤ a.owed then s.enterWatch stop id else s
      | .watch => if a.owed < a.ceiling then s.setStatus id .active none else s
      | .cutOff => if a.owed < a.ceiling then s.enterReinstating id else s
      | .reinstating => if a.ceiling ≤ a.owed then s.cutOffAccount stop id else s := by
  simp [State.evaluate, ha, hc] <;> rfl

theorem State.evaluate_stays (ha : s.book.account id = some a) (hc : a.ceiling ≠ 0)
    (h : (a.status = .active ∨ a.status = .reinstating) ∧ a.owed < a.ceiling ∨
      (a.status = .watch ∨ a.status = .cutOff) ∧ a.ceiling ≤ a.owed) : s.evaluate stop id = s := by
  rw [State.evaluate_ceiling ha hc]
  rcases h with ⟨hs | hs, h⟩ | ⟨hs | hs, h⟩ <;> simp [hs, Nat.not_le.mpr, Nat.not_lt.mpr, h]

/-- An evaluation that raises no notice changes the account alone (R156, R159). -/
theorem State.evaluate_becomes (ha : s.book.account id = some a) (h : a.EvaluatesTo a.owed b) :
    s.AccountBecomes id b (s.evaluate stop id) := by
  rcases h with ⟨h, rfl⟩ | ⟨hc, h, rfl⟩
  · have hactive : s.evaluate stop id = s.setStatus id .active none := by
      by_cases hc : a.ceiling = 0
      · rw [State.evaluate_noCeiling ha hc, if_neg]
        rcases h with ⟨-, hs | hs⟩ | ⟨hs, -⟩ <;> simp [hs]
      · rw [State.evaluate_ceiling ha hc]
        rcases h with ⟨h0, -⟩ | ⟨hs, hlt⟩
        · exact absurd h0 hc
        · simp [hs, hlt]
    rw [hactive]
    exact State.setStatus_becomes ha .active none
  · rw [State.evaluate_stays ha hc h]
    exact .refl ha

/-! ## Credits -/

/-- The log with a new entry (R184). -/
theorem Meter.addEntry_eq (e : LogEntry) (m : Meter) :
    m.addEntry e = { m with log := (if 8 ≤ m.log.length then m.log.tail else m.log) ++ [e] } := rfl

theorem OrderBook.owed_of_account {b : OrderBook} (ha : b.account id = some a) : b.owed id = a.owed := by
  simp [OrderBook.owed, ha]

theorem OrderBook.order_id {b : OrderBook} {o : Order} (h : b.order id = some o) : o.id = id := by
  simpa using List.find?_some (p := fun o : Order => decide (o.id = id)) h
theorem OrderBook.account_id {b : OrderBook} (h : b.account id = some a) : a.id = id := by
  simpa using List.find?_some (p := fun a : Account => decide (a.id = id)) h

@[simp] theorem OrderBook.modAccount_order (b : OrderBook) (id m : Nat) (f : Account → Account) :
    (b.modAccount id f).order m = b.order m := rfl
@[simp] theorem OrderBook.modOrder_account (b : OrderBook) (id m : Nat) (f : Order → Order) :
    (b.modOrder id f).account m = b.account m := rfl

theorem OrderBook.credit_order {b : OrderBook} {o : Order} {n : Nat} (ho : b.order id = some o) :
    (b.credit o n).order id = some { o with
      units := o.units - n, clamped := o.clamped || decide (o.units < n) || decide (b.owed o.account < n) } := by
  have hid := OrderBook.order_id ho
  subst hid
  show (b.modOrder o.id _).order o.id = _
  rw [OrderBook.order_modOrder_same _ _ _ (by intro _; rfl), ho]
  simp [Bool.or_assoc]
theorem OrderBook.credit_order_other {b : OrderBook} {o : Order} {n m : Nat} (hm : m ≠ o.id) :
    (b.credit o n).order m = b.order m := OrderBook.order_modOrder_other b o.id m _ (by intro _; rfl) hm
theorem OrderBook.credit_account {b : OrderBook} {o : Order} {n : Nat} (ha : b.account o.account = some a) :
    (b.credit o n).account o.account = some { a with owed := a.owed - n } := by
  unfold OrderBook.credit
  dsimp only
  rw [OrderBook.account_modAccount_same _ _ _ (by intro _; rfl), OrderBook.modOrder_account, ha]
  rfl
theorem OrderBook.credit_account_other {b : OrderBook} {o : Order} {n m : Nat} (hm : m ≠ o.account) :
    (b.credit o n).account m = b.account m :=
  OrderBook.account_modAccount_other (b.modOrder o.id _) o.account m _ (by intro _; rfl) hm

/-- A credit on an account whose evaluation raises no notice: its log entry, its order and its account (R185). -/
theorem State.credit_spec {o : Order} {n : Nat} (ho : s.book.order id = some o) (ha : s.book.account o.account = some a)
    (hab : a.EvaluatesTo (a.owed - n) b) :
    s.credit o n = { s with book := (s.credit o n).book, meter := { s.meter with log :=
      (if 8 ≤ s.meter.log.length then s.meter.log.tail else s.meter.log) ++
        [.credit id n (min n o.units) (min n a.owed) (decide (o.units < n)) (decide (a.owed < n))] } } ∧
    (s.credit o n).book.order id = some { o with
      units := o.units - n, clamped := o.clamped || decide (o.units < n) || decide (a.owed < n) } ∧
    (∀ other, other ≠ id → (s.credit o n).book.order other = s.book.order other) ∧
    (s.credit o n).book.account o.account = some b ∧
    (∀ other, other ≠ o.account → (s.credit o n).book.account other = s.book.account other) ∧
    (s.credit o n).book.lastOrderId = s.book.lastOrderId := by
  have hoid := OrderBook.order_id ho
  have howed : s.book.owed o.account = a.owed := OrderBook.owed_of_account ha
  let v := s.modBook (OrderBook.credit o n)
  have heval : v.AccountBecomes o.account b (v.evaluate cutOffDeliveries o.account) :=
    State.evaluate_becomes (OrderBook.credit_account ha) hab
  have ⟨_, hb, hothers⟩ := heval
  have hlist : (s.credit o n).book.orders = (s.book.credit o n).orders := by
    have hbook := congrArg OrderBook.orders heval.book
    exact hbook
  have horder : ∀ m, (s.credit o n).book.order m = (s.book.credit o n).order m := fun m => by
    unfold OrderBook.order
    rw [hlist]
  refine ⟨?_, ?_, fun m hm => ?_, hb, fun m hm => (hothers m hm).trans (OrderBook.credit_account_other hm), ?_⟩
  · show (v.evaluate cutOffDeliveries o.account).modMeter _ = _
    rw [heval.frame, hoid, howed]
    rfl
  · rw [horder, OrderBook.credit_order ho, howed]
  · rw [horder, OrderBook.credit_order_other (hoid ▸ hm)]
  · have hbook := congrArg OrderBook.lastOrderId heval.book
    exact hbook

/-- Settles O58: the two totals lose what they can, then the account is evaluated and the entry joins the log. -/
theorem credit : Obligations.Credit := by
  unfold Obligations.Credit
  intro tag ps fs id n s s₁ h hid hn
  refine ⟨fun hnone => ?_, fun o ho hbig => ?_, fun o a b ho ha hmax hab => ?_⟩
  · have hcheck : s₁.checkCredit id n = .error (Answer.refuse .noOrder) := by simp [State.checkCredit, h.book, hnone]
    have he := exec_takenWide (.credit .sales tag ps) rfl rfl rfl h (t := s₁) (a := { result := .noOrder })
      (by simp [bodyOfCommand, creditBody, hid, hn, hcheck]; rfl)
    exact he
  · have hcheck : s₁.checkCredit id n = .error (Answer.refuse .badValue) := by
      have hmax : Config.maxUnits < n := hbig
      simp [State.checkCredit, h.book, ho, hmax]
    have he := exec_takenWide (.credit .sales tag ps) rfl rfl rfl h (t := s₁) (a := { result := .badValue })
      (by simp [bodyOfCommand, creditBody, hid, hn, hcheck]; rfl)
    exact he
  · have hcheck : s₁.checkCredit id n = .ok o := by
      have hin : ¬Config.maxUnits < n := Nat.not_lt.mpr hmax
      simp [State.checkCredit, h.book, ho, hin]
    have howed : s₁.book.owed o.account = a.owed := by rw [h.book]; exact OrderBook.owed_of_account ha
    have hspec := State.credit_spec (s := s₁) (n := n) (by rw [h.book]; exact ho) (by rw [h.book]; exact ha) hab
    rw [h.book, h.meter] at hspec
    obtain ⟨hframe, horder, horders, haccount, haccounts, hlast⟩ := hspec
    have hb : b.owed = a.owed - n := by rcases hab with ⟨-, rfl⟩ | ⟨-, -, rfl⟩ <;> rfl
    have hbody : creditBody fs s₁ = (Answer.ok [.two (min n o.units), .two (min n a.owed), .two (o.units - n),
        .two (a.owed - n), .one b.status.code], s₁.credit o n) := by
      simp [creditBody, hid, hn, hcheck, howed, OrderBook.unitsOf, horder, OrderBook.owed_of_account haccount,
        State.statusField, haccount, hb, Field.ofOption]
    have he := exec_takenWide (.credit .sales tag ps) rfl rfl rfl h hbody
    exact ⟨s₁.credit o n, he, hframe, horder, horders, haccount, haccounts, hlast⟩

/-! ## Postings -/

/-- A notice raised before a change of the meter is raised after it as well. -/
theorem State.raise_modMeter (n : Notice) (f : Meter → Meter) : (s.raise n).modMeter f = (s.modMeter f).raise n := by
  cases n <;> rfl
theorem State.raise_modBook (n : Notice) (f : OrderBook → OrderBook) : (s.raise n).modBook f = (s.modBook f).raise n := by
  cases n <;> rfl

/-- The order book after stage 5 of a posting (R183). -/
def OrderBook.carry (o : Order) (divisor net : Nat) (b : OrderBook) : OrderBook :=
  (b.modOrder o.id (Order.carry divisor net)).modAccount o.account fun a =>
    { a with owed := addUnits a.owed (o.quotient divisor net) }

/-- The new totals of stage 5 do not fit (R183). -/
def State.carryClamps (s : State) (o : Order) (net : Nat) : Bool :=
  unitsClamped o.units (o.quotient s.meter.settings.divisor net) ||
    unitsClamped (s.book.owed o.account) (o.quotient s.meter.settings.divisor net)

theorem State.accumulate_eq (o : Order) (net : Nat) : s.accumulate o net =
    if s.carryClamps o net then (s.modBook (OrderBook.carry o s.meter.settings.divisor net)).raise .meterSaturated
    else s.modBook (OrderBook.carry o s.meter.settings.divisor net) := rfl

theorem OrderBook.carry_order {b : OrderBook} {o : Order} {d net : Nat} (ho : b.order id = some o) :
    (b.carry o d net).order id = some (o.carry d net) := by
  have hid := OrderBook.order_id ho
  subst hid
  show (b.modOrder o.id _).order o.id = _
  rw [OrderBook.order_modOrder_same _ _ _ (by intro _; rfl), ho]
  rfl
theorem OrderBook.carry_order_other {b : OrderBook} {o : Order} {d net m : Nat} (hm : m ≠ o.id) :
    (b.carry o d net).order m = b.order m := OrderBook.order_modOrder_other b o.id m _ (by intro _; rfl) hm
theorem OrderBook.carry_account {b : OrderBook} {o : Order} {d net : Nat} (ha : b.account o.account = some a) :
    (b.carry o d net).account o.account = some { a with owed := addUnits a.owed (o.quotient d net) } := by
  unfold OrderBook.carry
  rw [OrderBook.account_modAccount_same _ _ _ (by intro _; rfl), OrderBook.modOrder_account, ha]
  rfl
theorem OrderBook.carry_account_other {b : OrderBook} {o : Order} {d net m : Nat} (hm : m ≠ o.account) :
    (b.carry o d net).account m = b.account m :=
  OrderBook.account_modAccount_other (b.modOrder o.id _) o.account m _ (by intro _; rfl) hm


/-- The account after stage 5 of a posting (R156, R183). -/
theorem State.post_spec {c : Charge} {o : Order} {d q net : Nat} (ho : s.book.order c.order = some o)
    (ha : s.book.account o.account = some a) (hd : d = s.meter.settings.divisor) (hnet : net = c.reckon.net)
    (hq : q = (o.accumulator + net) / d) (hab : a.AfterPosting (min (a.owed + q) 16777215) b) :
    ∃ t : State, s.post stop c =
        (if 16777215 < o.units + q ∨ 16777215 < a.owed + q then t.raise .meterSaturated else t) ∧
      t = { s with book := t.book, meter := { s.meter with log :=
        (if 8 ≤ s.meter.log.length then s.meter.log.tail else s.meter.log) ++
          [.posting c.restore c.order c.item c.work c.count c.reckon.gross c.reckon.aged net q c.reckon.outcome
            (decide (16777215 < o.units + q)) (decide (16777215 < a.owed + q))] } } ∧
      t.book.order c.order = some { o with
        accumulator := (o.accumulator + net) % d, units := min (o.units + q) 16777215
        saturated := o.saturated || decide (16777215 < o.units + q) } ∧
      (∀ other, other ≠ c.order → t.book.order other = s.book.order other) ∧
      t.book.account o.account = some b ∧
      (∀ other, other ≠ o.account → t.book.account other = s.book.account other) := by
  subst hd hnet
  have howed : s.book.owed o.account = a.owed := OrderBook.owed_of_account ha
  have hclamps : s.carryClamps o c.reckon.net = true ↔ 16777215 < o.units + q ∨ 16777215 < a.owed + q := by
    simp [State.carryClamps, unitsClamped, howed, Order.quotient, ← hq, Config.maxUnits]
  let v := (s.modBook (OrderBook.carry o s.meter.settings.divisor c.reckon.net)).modMeter
    (Meter.addEntry (c.entry c.reckon q (unitsClamped o.units q) (unitsClamped a.owed q)))
  let w := if s.carryClamps o c.reckon.net then v.raise .meterSaturated else v
  have hbook : w.book = s.book.carry o s.meter.settings.divisor c.reckon.net := by
    simp only [w]
    split
    · rw [State.raise_book]; rfl
    · rfl
  have hpost : s.post stop c = if w.book.owed o.account = a.owed then w else w.evaluate stop o.account := by
    have hw : (s.accumulate o c.reckon.net).modMeter
        (Meter.addEntry (c.entry c.reckon q (unitsClamped o.units q) (unitsClamped a.owed q))) = w := by
      rw [State.accumulate_eq]
      simp only [w, v]
      split
      · exact State.raise_modMeter _ _
      · rfl
    simp only [State.post, ho, howed]
    rw [← hw, hq]
    rfl
  have haccount : w.book.account o.account = some { a with owed := min (a.owed + q) 16777215 } := by
    rw [hbook, hq]
    exact OrderBook.carry_account ha
  have hbecomes : w.AccountBecomes o.account b (s.post stop c) := by
    rw [hpost, OrderBook.owed_of_account haccount]
    rcases hab with ⟨hsame, rfl⟩ | ⟨hrose, heval⟩
    · rw [if_pos hsame]
      rw [hsame] at haccount
      exact .refl haccount
    · rw [if_neg hrose]
      exact State.evaluate_becomes haccount heval
  have horders : (s.post stop c).book.orders = (s.book.carry o s.meter.settings.divisor c.reckon.net).orders := by
    rw [hbecomes.book, hbook]
  have horder : ∀ m, (s.post stop c).book.order m = (s.book.carry o s.meter.settings.divisor c.reckon.net).order m := fun m => by
    unfold OrderBook.order
    rw [horders]
  have ⟨_, hb, hothers⟩ := hbecomes
  refine ⟨{ v with book := (s.post stop c).book }, ?_, ?_, ?_, fun m hm => ?_, hb, fun m hm => ?_⟩
  · refine hbecomes.frame.trans ?_
    simp only [w, hclamps]
    split
    · exact State.raise_modBook .meterSaturated fun _ => (s.post stop c).book
    · rfl
  · rfl
  · show (s.post stop c).book.order c.order = _
    rw [horder, OrderBook.carry_order ho, hq]
    rfl
  · show (s.post stop c).book.order m = _
    rw [horder, OrderBook.carry_order_other (OrderBook.order_id ho ▸ hm)]
  · have hother := hothers m hm
    rw [hbook, OrderBook.carry_account_other hm] at hother
    exact hother

/-- An item that is never charged more than its gross and surcharge (R182). -/
theorem netValue_le {gross aged surcharge discount : Nat} (hg : gross ≤ 2240 * 65535) (hs : surcharge ≤ 255)
    (ha : aged = gross + gross * surcharge / 256 ∨ aged = gross) : aged * (256 - discount) / 256 ≤ 293023368 := by
  have hsurcharge : gross * surcharge ≤ 2240 * 65535 * 255 := Nat.mul_le_mul hg hs
  have hdiscount : aged * (256 - discount) ≤ aged * 256 := Nat.mul_le_mul_left _ (Nat.sub_le _ _)
  omega

/-- Settles O59: the stages by their cases, and a posting as stage 5 and an evaluation. -/
theorem postings : Obligations.Postings := by
  unfold Obligations.Postings
  refine ⟨fun c => ⟨fun hu => ?_, fun hu hr hrep => ?_, fun hu hr hrep hcreep => ?_, fun hu hcharged g aged hg haged => ?_⟩,
    fun c o a b d q net s ho ha hd hnet hq hab => State.post_spec ho ha hd hnet hq hab, fun s r e n he => ⟨?_, rfl⟩⟩
  · simp [Charge.reckon, hu]
  · simp [Charge.reckon, hu, hr, hrep]
  · simp [Charge.reckon, hu, hr, hrep, hcreep]
  · have hreckon : c.reckon = ⟨g, aged, aged * (256 - c.discount) / 256, .charged⟩ := by
      have hvalue : agedValue g c.ageThreshold c.surcharge c.age = aged := haged.symm
      rcases hcharged with hr | ⟨hrep, hcreep⟩
      · simp [Charge.reckon, hu, hr, ← hg, hvalue, netValue]
      · have hnot : ¬c.count * c.rate < c.creep := Nat.not_lt.mpr hcreep
        rw [← hg] at hnot
        simp [Charge.reckon, hu, hrep, ← hg, hnot, hvalue, netValue]
    refine ⟨hreckon, fun hcount hrate hsurcharge => ?_⟩
    rw [hreckon]
    refine netValue_le (hg ▸ Nat.mul_le_mul hcount hrate) hsurcharge ?_
    rw [haged]
    split
    · exact .inl rfl
    · exact .inr rfl
  · simp only [State.ageOf, he]
    split
    · rfl
    · next hlt => exact Nat.sub_eq_zero_of_le (Nat.le_of_not_le hlt)

/-! ## The deliveries of an account -/

theorem mem_insertNat {n m : Nat} {xs : List Nat} : m ∈ insertNat n xs ↔ m = n ∨ m ∈ xs := by
  induction xs with
  | nil => simp [insertNat]
  | cons x xs ih =>
    unfold insertNat
    split
    · simp
    · simp only [List.mem_cons, ih]
      tauto

theorem insertNat_ascending {n : Nat} {xs : List Nat} (h : xs.Pairwise (· < ·)) (hn : n ∉ xs) :
    (insertNat n xs).Pairwise (· < ·) := by
  induction xs with
  | nil => simp [insertNat]
  | cons x xs ih =>
    obtain ⟨hx, hxs⟩ := List.pairwise_cons.mp h
    unfold insertNat
    split
    · next hlt => exact List.pairwise_cons.mpr ⟨fun y hy => by
        rcases List.mem_cons.mp hy with rfl | hy
        · exact hlt
        · exact hlt.trans (hx y hy), h⟩
    · next hge =>
      refine List.pairwise_cons.mpr ⟨fun y hy => ?_, ih hxs fun hmem => hn (List.mem_cons_of_mem _ hmem)⟩
      rcases mem_insertNat.mp hy with rfl | hy
      · exact Nat.lt_of_le_of_ne (Nat.le_of_not_lt hge) fun he => hn (he ▸ List.mem_cons_self)
      · exact hx y hy

theorem mem_foldr_insertNat {m : Nat} {xs : List Nat} : m ∈ xs.foldr insertNat [] ↔ m ∈ xs := by
  induction xs with
  | nil => simp
  | cons x xs ih => simp [mem_insertNat, ih]

theorem foldr_insertNat_ascending {xs : List Nat} (h : xs.Nodup) : (xs.foldr insertNat []).Pairwise (· < ·) := by
  induction xs with
  | nil => exact .nil
  | cons x xs ih =>
    obtain ⟨hx, hxs⟩ := List.nodup_cons.mp h
    exact insertNat_ascending (ih hxs) (by rwa [mem_foldr_insertNat])

/-- Under distinct names a record of a table is the one found by its name. -/
theorem find_of_mem_nodup {α : Type} (idOf : α → Nat) {xs : List α} (h : (xs.map idOf).Nodup) {x : α} (hx : x ∈ xs) :
    xs.find? (fun y => decide (idOf y = idOf x)) = some x := by
  induction xs with
  | nil => cases hx
  | cons y ys ih =>
    obtain ⟨hy, hys⟩ := List.nodup_cons.mp h
    rcases List.mem_cons.mp hx with rfl | hx
    · simp
    · have hne : idOf y ≠ idOf x := fun he => hy (he ▸ List.mem_map_of_mem hx)
      rw [List.find?_cons_of_neg (by simpa using hne)]
      exact ih hys hx

theorem DeliveryTable.mem_ofOrder {tb : DeliveryTable} {o h : Nat} :
    h ∈ tb.ofOrder o ↔ ∃ d ∈ tb.records, d.order.map Prod.fst = some o ∧ d.handle = h := by
  unfold DeliveryTable.ofOrder
  rw [mem_foldr_insertNat]
  simp [List.mem_map, List.mem_filter, and_assoc]

theorem DeliveryTable.mem_ofOrder_of_nodup {tb : DeliveryTable} {o h : Nat} (hn : (tb.records.map (·.handle)).Nodup) :
    h ∈ tb.ofOrder o ↔ ∃ d, tb.find h = some d ∧ d.order.map Prod.fst = some o := by
  rw [DeliveryTable.mem_ofOrder]
  constructor
  · rintro ⟨d, hd, ho, rfl⟩
    exact ⟨d, find_of_mem_nodup Delivery.handle hn hd, ho⟩
  · rintro ⟨d, hd, ho⟩
    exact ⟨d, List.mem_of_find?_eq_some hd, ho, by simpa using List.find?_some (p := fun d : Delivery => decide (d.handle = h)) hd⟩

theorem State.mem_deliveriesOf {h : Nat} (hh : (s.table.records.map (·.handle)).Nodup)
    (ho : (s.book.orders.map (·.id)).Pairwise (· < ·)) :
    h ∈ s.deliveriesOf id ↔ ∃ d o n, s.table.find h = some d ∧ s.book.order o = some n ∧ n.account = id ∧
      d.order.map Prod.fst = some o := by
  have hids : (s.book.orders.map (·.id)).Nodup := ho.imp fun hlt => Nat.ne_of_lt hlt
  unfold State.deliveriesOf
  simp only [List.mem_flatMap, List.mem_filter, DeliveryTable.mem_ofOrder_of_nodup hh, decide_eq_true_iff]
  constructor
  · rintro ⟨n, ⟨hn, ha⟩, d, hd, hof⟩
    exact ⟨d, n.id, n, hd, find_of_mem_nodup Order.id hids hn, ha, hof⟩
  · rintro ⟨d, o, n, hd, hn, ha, hof⟩
    exact ⟨n, ⟨List.mem_of_find?_eq_some hn, ha⟩, d, hd, by rw [OrderBook.order_id hn]; exact hof⟩

theorem State.deliveriesOf_ascending (hh : (s.table.records.map (·.handle)).Nodup)
    (ho : (s.book.orders.map (·.id)).Pairwise (· < ·)) :
    (s.deliveriesOf id).Pairwise fun h g => ∀ d e o p, s.table.find h = some d → s.table.find g = some e →
      d.order = some o → e.order = some p → o.1 < p.1 ∨ (o.1 = p.1 ∧ h < g) := by
  have horder : ∀ {n h : Nat} {d : Delivery} {o : Nat × Nat}, h ∈ s.table.ofOrder n → s.table.find h = some d →
      d.order = some o → o.1 = n := fun hmem hd hdo => by
    obtain ⟨d', hd', ho'⟩ := (DeliveryTable.mem_ofOrder_of_nodup hh).mp hmem
    cases hd.symm.trans hd'
    rw [hdo] at ho'
    exact Option.some.inj ho'
  unfold State.deliveriesOf
  rw [List.pairwise_flatMap]
  refine ⟨fun n _ => ?_, ?_⟩
  · refine (foldr_insertNat_ascending ((List.filter_sublist.map _).nodup hh)).imp_of_mem fun {h g} hh' hg' hlt d e o p hd he hdo hep => ?_
    exact .inr ⟨(horder hh' hd hdo).trans (horder hg' he hep).symm, hlt⟩
  · refine ((List.pairwise_map.mp ho).sublist List.filter_sublist).imp fun {n m} hlt h hh' g hg' d e o p hd he hdo hep => ?_
    rw [horder hh' hd hdo, horder hg' he hep]
    exact .inl hlt

/-- A cut-off stops the deliveries of the account one after the other (R119, R157). -/
theorem State.cutOffAccount_eq : s.cutOffAccount cutOffDeliveries id =
    ((s.deliveriesOf id).foldl (fun y h => y.stopDelivery (State.stopAccount 7) .cutOff h)
      (s.setStatus id .cutOff none)).raise .accountCutOff := rfl

theorem Taken.account (h : Taken l r layout fs s s₁) (m : Nat) : s₁.book.account m = s.book.account m := by rw [h.book]

theorem whenRunning_of_running (hp : s.power = .running) (f : State → Outcome) : whenRunning s f = f s := if_pos hp

/-- Settles O56: the deliveries of an account, and the rows of Table 8-3 one by one. -/
theorem accountEvaluation : Obligations.AccountEvaluation := by
  unfold Obligations.AccountEvaluation
  refine ⟨fun s id hh ho => ⟨fun h => State.mem_deliveriesOf hh ho, State.deliveriesOf_ascending hh ho⟩,
    fun s id a status timer ha => ?_, fun s id a cut ha hcut => ?_, fun tag ps fs id n a s s₁ hid hn ha => ⟨fun h => ?_, fun h => ?_⟩⟩
  · obtain ⟨hframe, hb, hothers⟩ := State.setStatus_becomes ha status timer
    exact ⟨hb, hframe, hothers⟩
  · have hcutOff : ∀ x : State, x.cutOffAccount cutOffDeliveries id = cut x := fun x => (hcut x).symm
    have htimer : ∀ {status : AccountStatus} {moment : Nat}, a.status = status → a.timer = some moment →
        s.timerIn id status = some moment := fun hs ht => by simp [State.timerIn, ha, hs, ht]
    refine ⟨State.evaluate_noCeiling ha, fun hc hs howed w hw => ?_, fun hc hs howed => ?_, fun hc hs howed => ?_,
      fun hc hs howed => ?_, State.evaluate_stays ha, fun moment hp hs ht => ?_, fun moment hp hs ht => ?_⟩
    · rw [State.evaluate_ceiling ha hc, hs]
      simp only [howed, if_true]
      subst hw
      rw [← hcutOff]
      rfl
    · rw [State.evaluate_ceiling ha hc, hs]
      exact if_pos howed
    · rw [State.evaluate_ceiling ha hc, hs]
      exact if_pos howed
    · rw [State.evaluate_ceiling ha hc, hs, ← hcutOff]
      exact if_pos howed
    · show execWatchTimerExpires id s = _
      rw [← hcutOff]
      rw [execWatchTimerExpires, whenRunning_of_running hp, htimer hs ht]
      rfl
    · show execReinstatingTimerExpires id s = _
      rw [execReinstatingTimerExpires, whenRunning_of_running hp, htimer hs ht]
      rfl
  · refine ⟨fun hbig => ?_, fun hin => ?_⟩
    · have hcheck : s₁.checkUnits id n = .error (Answer.refuse .badValue) := by
        simp [State.checkUnits, h.account, ha, Config.maxUnits, hbig]
      have he := exec_takenWide (.setCeiling .sales tag ps) rfl rfl rfl h (t := s₁) (a := { result := .badValue })
        (by simp [bodyOfCommand, setCeilingBody, hid, hn, hcheck]; rfl)
      exact he
    · have hcheck : s₁.checkUnits id n = .ok a := by
        simp [State.checkUnits, h.account, ha, Config.maxUnits, Nat.not_lt.mpr hin]
      let v := s₁.modBook (·.modAccount id fun a => { a with ceiling := n })
      obtain ⟨hframe, hb, hothers⟩ : s₁.AccountBecomes id { a with ceiling := n } v :=
        State.modAccount_becomes (h.account id ▸ ha) _ fun _ => rfl
      rw [h.book] at hframe hothers
      have he := exec_takenWide (.setCeiling .sales tag ps) rfl rfl rfl h (t := v.evaluate cutOffDeliveries id)
        (a := { result := .ok, fields := [.two a.ceiling, (v.evaluate cutOffDeliveries id).statusField id] })
        (by simp [bodyOfCommand, setCeilingBody, hid, hn, hcheck]; exact ⟨rfl, rfl⟩)
      exact ⟨v, _, hframe, hb, hothers, rfl, he⟩
  · refine ⟨fun hbig => ?_, fun hin => ?_⟩
    · have hcheck : s₁.checkUnits id n = .error (Answer.refuse .badValue) := by
        simp [State.checkUnits, h.account, ha, Config.maxUnits, hbig]
      have he := exec_takenWide (.settle .sales tag ps) rfl rfl rfl h (t := s₁) (a := { result := .badValue })
        (by simp [bodyOfCommand, settleBody, hid, hn, hcheck]; rfl)
      exact he
    · have hcheck : s₁.checkUnits id n = .ok a := by
        simp [State.checkUnits, h.account, ha, Config.maxUnits, Nat.not_lt.mpr hin]
      let v := s₁.modBook (·.modAccount id fun x => { x with owed := x.owed - min n a.owed })
      obtain ⟨hframe, hb, hothers⟩ : s₁.AccountBecomes id { a with owed := a.owed - min n a.owed } v :=
        State.modAccount_becomes (h.account id ▸ ha) _ fun _ => rfl
      rw [h.book] at hframe hothers
      have hsub : a.owed - min n a.owed = a.owed - n := by omega
      have he := exec_takenWide (.settle .sales tag ps) rfl rfl rfl h (t := v.evaluate cutOffDeliveries id)
        (a := { result := .ok, fields := [.two (min n a.owed), .two ((v.evaluate cutOffDeliveries id).book.owed id),
          (v.evaluate cutOffDeliveries id).statusField id] })
        (by simp [bodyOfCommand, settleBody, hid, hn, hcheck]; exact ⟨rfl, rfl⟩)
      exact ⟨v, _, hframe, hsub ▸ hb, hothers, rfl, he⟩

end Sys2Proof.Machine
end

