-- ==== Sys2Proof/Proofs/Resolution.lean ====
section
/-! PROOF. The divisor resolution (R186): order by order, each account by Table 8-3 (R156, R159), with no delivery ended. -/

namespace Sys2Proof.Machine

variable {s t u : State} {id : Nat} {a b : Account} {o : Order}

/-! ## What an evaluation without a cut-off of deliveries changes -/

/-- The account is ACTIVE or in WATCH. -/
def Account.unstopped (a : Account) : Prop := a.status = .active ∨ a.status = .watch

/-- The account `id` has become `b`; of the rest only other notices of the sales link than METER_SATURATED have changed. -/
structure State.Evaluated (s : State) (id : Nat) (b : Account) (t : State) : Prop where
  within : s.Within [.book, .notices .sales] t
  orders : t.book.orders = s.book.orders
  last : t.book.lastOrderId = s.book.lastOrderId
  account : t.book.account id = some b
  others : ∀ m, m ≠ id → t.book.account m = s.book.account m
  open_ : b.unstopped → ∀ x ∈ t.book.accounts, x ∈ s.book.accounts ∨ x.unstopped
  saturated : t.sales.notices.sources[Notice.meterSaturated.number]? = s.sales.notices.sources[Notice.meterSaturated.number]?

theorem State.Evaluated.refl (ha : s.book.account id = some a) : s.Evaluated id a s where
  within := .refl s
  orders := rfl
  last := rfl
  account := ha
  others _ _ := rfl
  open_ _ _ hx := .inl hx
  saturated := rfl

theorem State.Evaluated.raise (h : s.Evaluated id b t) {n : Notice} (hl : n.link = .sales) (hn : n.number ≠ Notice.meterSaturated.number) :
    s.Evaluated id b (t.raise n) where
  within := h.within.step (State.raise_within n) (by rw [hl]; decide)
  orders := by rw [State.raise_book]; exact h.orders
  last := by rw [State.raise_book]; exact h.last
  account := by rw [State.raise_book]; exact h.account
  others m hm := by rw [State.raise_book]; exact h.others m hm
  open_ hb x hx := by rw [State.raise_book] at hx; exact h.open_ hb x hx
  saturated := by
    rw [← h.saturated]
    show ((t.raise n).link .sales).notices.sources[_]? = (t.link .sales).notices.sources[_]?
    rw [State.raise, State.modNotices, hl, State.setLink_link]
    simp only [Controller.modify, List.getElem?_modify, hn, if_false, Option.map_eq_map, Option.map_id']

theorem State.Evaluated.trans {c : Account} (h : s.Evaluated id b t) (h' : t.Evaluated id c u) (hb : b.unstopped) :
    s.Evaluated id c u where
  within := h.within.trans h'.within
  orders := h'.orders.trans h.orders
  last := h'.last.trans h.last
  account := h'.account
  others m hm := (h'.others m hm).trans (h.others m hm)
  open_ hc x hx := (h'.open_ hc x hx).elim (h.open_ hb x) .inr
  saturated := h'.saturated.trans h.saturated

theorem State.setStatus_evaluated (ha : s.book.account id = some a) (status : AccountStatus) (timer : Option Nat) :
    s.Evaluated id { a with status, timer } (s.setStatus id status timer) where
  within := (State.setStatus_within id status timer).mono rfl
  orders := rfl
  last := rfl
  account := (State.setStatus_becomes ha status timer).2.1
  others := (State.setStatus_becomes ha status timer).2.2
  open_ hb x hx := by
    obtain ⟨y, hy, rfl⟩ := mem_modifyWhere hx
    split
    · exact .inr hb
    · exact .inl hy
  saturated := rfl

/-! ## A cut-off that ends no delivery -/

/-- No delivery of the account is WAITING or RUNNING (R119). -/
def State.sellsNothing (s : State) (id : Nat) : Prop :=
  ∀ h ∈ s.deliveriesOf id, ∀ d, s.table.find h = some d → d.state ≠ .waiting ∧ d.state ≠ .running

theorem State.stopDelivery_idle {stop : StopDeliveries} {cause : EndCause} {h : Nat}
    (hidle : ∀ d, s.table.find h = some d → d.state ≠ .waiting ∧ d.state ≠ .running) : s.stopDelivery stop cause h = s := by
  unfold State.stopDelivery
  cases hd : s.table.find h with
  | none => rfl
  | some d =>
    obtain ⟨hw, hr⟩ := hidle d hd
    dsimp only
    split
    · next hstate => exact absurd hstate hw
    · next hstate _ => exact absurd hstate hr
    · rfl

theorem State.cutOffDeliveries_idle (h : s.sellsNothing id) : cutOffDeliveries id s = s := by
  have hfold : ∀ hs : List Nat, (∀ x ∈ hs, ∀ d, s.table.find x = some d → d.state ≠ .waiting ∧ d.state ≠ .running) →
      hs.foldl (fun y x => y.stopDelivery (State.stopAccount 7) .cutOff x) s = s := fun hs => by
    induction hs with
    | nil => exact fun _ => rfl
    | cons x xs ih =>
      intro hidle
      rw [List.foldl_cons, State.stopDelivery_idle (hidle x List.mem_cons_self)]
      exact ih fun y hy => hidle y (List.mem_cons_of_mem x hy)
  exact hfold _ h

theorem State.sellsNothing.of_eq (h : s.sellsNothing id) (hb : t.book.orders = s.book.orders) (ht : t.table = s.table) :
    t.sellsNothing id := by
  simpa [State.sellsNothing, State.deliveriesOf, hb, ht] using h

theorem State.cutOffAccount_idle (ha : s.book.account id = some a) (h : s.sellsNothing id) :
    s.Evaluated id { a with status := .cutOff, timer := none } (s.cutOffAccount cutOffDeliveries id) := by
  have hidle : (s.setStatus id .cutOff none).sellsNothing id := h
  unfold State.cutOffAccount
  rw [State.cutOffDeliveries_idle hidle]
  exact (State.setStatus_evaluated ha .cutOff none).raise rfl (by decide)

/-! ## Table 8-3 in a resolution -/

/-- The account is as every evaluation leaves it (R156). -/
def Account.settled (a : Account) : Prop := a.owed ≤ 16777215 ∧ (a.status = .watch ∨ a.status = .cutOff → a.ceiling ≤ a.owed)

/-- The account may be evaluated without an end of a delivery: it has none to end, or it does not become CUT_OFF. -/
def State.peaceful (s : State) (id : Nat) (a : Account) : Prop :=
  s.sellsNothing id ∨ (s.meter.settings.cutOff ≠ 0 ∧ a.unstopped)

/-- An ACTIVE account that owes its ceiling enters WATCH, and CUT_OFF at once without a delay (R156, R159). -/
theorem State.enterWatch_peaceful (ha : s.book.account id = some a) (hpeace : s.peaceful id a) :
    s.Evaluated id (if s.meter.settings.cutOff = 0 then { a with status := .cutOff, timer := none }
      else { a with status := .watch, timer := some (s.now + s.meter.settings.cutOff * 500000) })
      (s.enterWatch cutOffDeliveries id) := by
  let w := (s.setStatus id .watch (some (s.timerEnd s.meter.settings.cutOff))).raise .accountWatch
  have hw : s.Evaluated id { a with status := .watch, timer := some (s.timerEnd s.meter.settings.cutOff) } w :=
    (State.setStatus_evaluated ha .watch _).raise rfl (by decide)
  have hcutOff : w.meter.settings.cutOff = s.meter.settings.cutOff := by simp [w, State.setStatus]
  show s.Evaluated id _ (if w.meter.settings.cutOff = 0 then w.cutOffAccount cutOffDeliveries id else w)
  rw [hcutOff]
  split
  · next hzero =>
    have hidle : s.sellsNothing id := hpeace.resolve_right fun h => h.1 hzero
    have hcut := State.cutOffAccount_idle hw.account (hidle.of_eq hw.orders (hw.within.table (by decide)))
    exact hw.trans hcut (.inr rfl)
  · exact hw

/-- An evaluation in peace after the owed units have become `owed`. -/
theorem State.evaluate_peaceful {owed : Nat} (ha : s.book.account id = some { a with owed }) (hpeace : s.peaceful id a) :
    ∃ b, s.Evaluated id b (s.evaluate cutOffDeliveries id) ∧ b.owed = owed ∧
      (a.settled → a.owed < owed → b = a.afterResolution s.meter.settings.cutOff s.now owed) ∧
      (s.meter.settings.cutOff ≠ 0 → a.unstopped → b.unstopped) := by
  by_cases hc : a.ceiling = 0
  · refine ⟨{ a with owed, status := .active, timer := none }, ?_, rfl, fun _ hlt => ?_, fun _ _ => .inl rfl⟩
    · rw [State.evaluate_noCeiling ha hc]
      split
      · exact (State.setStatus_evaluated ha .active none).raise rfl (by decide)
      · exact State.setStatus_evaluated ha .active none
    · simp [Account.afterResolution, Nat.ne_of_gt hlt, hc]
  · rw [State.evaluate_ceiling ha hc]
    have hstay : ∀ {x : State}, x = s → ∃ b, s.Evaluated id b x ∧ b.owed = owed ∧
        (a.settled → a.owed < owed → b = { a with owed }) ∧ (s.meter.settings.cutOff ≠ 0 → a.unstopped → b.unstopped) :=
      fun hx => by
        subst hx
        exact ⟨{ a with owed }, .refl ha, rfl, fun _ _ => rfl, fun _ h => h⟩
    cases hs : a.status with
    | active =>
      by_cases hle : a.ceiling ≤ owed
      · refine ⟨_, by simpa only [hle, if_true] using State.enterWatch_peaceful ha hpeace, ?_, fun _ hlt => ?_, fun hne _ => ?_⟩
        · split <;> rfl
        · by_cases hzero : s.meter.settings.cutOff = 0 <;>
            simp [Account.afterResolution, Nat.ne_of_gt hlt, hc, hs, hle, hzero]
        · rw [if_neg hne]
          exact .inr rfl
      · obtain ⟨b, hb, howed, hafter, hopen⟩ := hstay (if_neg hle)
        exact ⟨b, hb, howed, fun hset hlt => by
          rw [hafter hset hlt]; simp [Account.afterResolution, Nat.ne_of_gt hlt, hc, hle], hopen⟩
    | watch =>
      by_cases hlow : owed < a.ceiling
      · refine ⟨_, by simpa only [hlow, if_true] using State.setStatus_evaluated ha .active none, rfl, fun hset hlt => ?_,
          fun _ _ => .inl rfl⟩
        have hceiling := hset.2 (.inl hs)
        omega
      · obtain ⟨b, hb, howed, hafter, hopen⟩ := hstay (if_neg hlow)
        exact ⟨b, hb, howed, fun hset hlt => by
          rw [hafter hset hlt]; simp [Account.afterResolution, Nat.ne_of_gt hlt, hc, hs], hopen⟩
    | cutOff =>
      by_cases hlow : owed < a.ceiling
      · have hreinstated : s.Evaluated id (if s.meter.settings.reinstate = 0 then { a with owed, status := .active, timer := none }
            else { a with owed, status := .reinstating, timer := some (s.timerEnd s.meter.settings.reinstate) })
            (s.enterReinstating id) := by
          unfold State.enterReinstating
          split
          · exact (State.setStatus_evaluated ha .active none).raise rfl (by decide)
          · exact State.setStatus_evaluated ha .reinstating _
        refine ⟨_, by simpa only [hlow, if_true] using hreinstated, by split <;> rfl, fun hset hlt => ?_, fun _ h => ?_⟩
        · have hceiling := hset.2 (.inr hs)
          omega
        · rcases h with h | h <;> rw [hs] at h <;> cases h
      · obtain ⟨b, hb, howed, hafter, hopen⟩ := hstay (if_neg hlow)
        exact ⟨b, hb, howed, fun hset hlt => by
          rw [hafter hset hlt]; simp [Account.afterResolution, Nat.ne_of_gt hlt, hc, hs], hopen⟩
    | reinstating =>
      have hstopped : ¬a.unstopped := fun h => by rcases h with h | h <;> rw [hs] at h <;> cases h
      by_cases hle : a.ceiling ≤ owed
      · have hidle : s.sellsNothing id := hpeace.resolve_right fun h => hstopped h.2
        refine ⟨_, by simpa only [hle, if_true] using State.cutOffAccount_idle ha hidle, rfl, fun hset hlt => ?_,
          fun _ h => absurd h hstopped⟩
        simp [Account.afterResolution, Nat.ne_of_gt hlt, hc, hs, hle]
      · obtain ⟨b, hb, howed, hafter, hopen⟩ := hstay (if_neg hle)
        exact ⟨b, hb, howed, fun hset hlt => by
          rw [hafter hset hlt]; simp [Account.afterResolution, Nat.ne_of_gt hlt, hc, hle], hopen⟩


/-! ## The account after further resolutions -/

theorem Account.afterResolution_owed {cutOff now owed : Nat} : (a.afterResolution cutOff now owed).owed = owed := by
  unfold Account.afterResolution
  split
  · next h => exact h.symm
  · repeat' split
    all_goals rfl

theorem Account.afterResolution_settled {cutOff now owed : Nat} (h : a.settled) (hle : a.owed ≤ owed) (hmax : owed ≤ 16777215) :
    (a.afterResolution cutOff now owed).settled := by
  refine ⟨Account.afterResolution_owed.trans_le hmax, ?_⟩
  rw [Account.afterResolution_owed]
  obtain ⟨-, hceiling⟩ := h
  unfold Account.afterResolution
  split
  · next heq => exact heq ▸ hceiling
  · split
    · rintro (h | h) <;> cases h
    · split
      · next hwatch => exact fun _ => hwatch.2.1
      · split
        · next hcut => exact fun _ => hcut.2
        · exact fun h => (hceiling h).trans hle

/-- Two resolutions leave the account as one with the units of both does. -/
theorem Account.afterResolution_again {cutOff now first second : Nat} (h : a.settled) (h1 : a.owed ≤ first) (h2 : first ≤ second) :
    (a.afterResolution cutOff now first).afterResolution cutOff now second = a.afterResolution cutOff now second := by
  obtain ⟨id, owed, ceiling, status, timer, count⟩ := a
  obtain ⟨-, hceiling⟩ := h
  by_cases heq : first = owed
  · simp [Account.afterResolution, heq]
  · have hne : second ≠ owed := by simp only at h1; omega
    by_cases hc : ceiling = 0
    · by_cases hsame : second = first <;> simp [Account.afterResolution, heq, hne, hc, hsame]
    · by_cases hsame : second = first
      · subst hsame
        rw [Account.afterResolution, if_pos Account.afterResolution_owed.symm]
      · by_cases hle : ceiling ≤ first
        · have hle2 : ceiling ≤ second := hle.trans h2
          cases status <;> by_cases hz : cutOff = 0 <;>
            simp [Account.afterResolution, heq, hne, hc, hsame, hle, hle2, hz]
        · cases status <;> simp [Account.afterResolution, heq, hne, hc, hsame, hle]

/-! ## One order -/

/-- No order has a WAITING or RUNNING delivery (R119). -/
def State.deliversNothing (s : State) : Prop :=
  ∀ i ∈ s.book.orders.map (·.id), ∀ h ∈ s.table.ofOrder i, ∀ d, s.table.find h = some d → d.state ≠ .waiting ∧ d.state ≠ .running

theorem State.deliversNothing.sellsNothing (h : s.deliversNothing) : s.sellsNothing id := fun x hx => by
  obtain ⟨o, ho, hmem⟩ := List.mem_flatMap.mp hx
  exact h o.id (List.mem_map_of_mem (List.mem_of_mem_filter ho)) x hmem

theorem State.deliversNothing.of_within (h : s.deliversNothing) (hw : s.Within [.book, .notices .sales] t) : t.deliversNothing := by
  unfold State.deliversNothing
  rw [hw.orderIds (by decide), hw.table (by decide)]
  exact h

/-- A resolution ends no delivery: there is none to end, or no account becomes CUT_OFF. -/
def State.resolvesCalmly (s : State) : Prop :=
  s.deliversNothing ∨ (s.meter.settings.cutOff ≠ 0 ∧ ∀ a ∈ s.book.accounts, a.unstopped)

theorem State.resolvesCalmly.peaceful (h : s.resolvesCalmly) (ha : s.book.account id = some a) : s.peaceful id a :=
  h.imp (fun hidle => hidle.sellsNothing) fun ⟨hc, hopen⟩ => ⟨hc, hopen a (List.mem_of_find?_eq_some ha)⟩

theorem State.resolvesCalmly.of_within (h : s.resolvesCalmly) (hw : s.Within [.book, .notices .sales] t)
    (hopen : s.meter.settings.cutOff ≠ 0 → (∀ a ∈ s.book.accounts, a.unstopped) → ∀ a ∈ t.book.accounts, a.unstopped) :
    t.resolvesCalmly :=
  h.imp (·.of_within hw) fun ⟨hc, ha⟩ => ⟨by rw [hw.meter (by decide)]; exact hc, hopen hc ha⟩

/-- One order has been resolved in peace: `t` is the state after (R183, R186). -/
structure State.ResolvedOne (s : State) (o : Order) (t : State) : Prop where
  within : s.Within [.book, .notices .sales] t
  last : t.book.lastOrderId = s.book.lastOrderId
  orders : t.book.orders = modifyWhere (·.id = o.id) (Order.carry s.meter.settings.divisor 0) s.book.orders
  absent : s.book.account o.account = none → t.book.account o.account = none
  account : ∀ a, s.book.account o.account = some a → ∃ b, t.book.account o.account = some b ∧
    b.owed = addUnits a.owed (o.quotient s.meter.settings.divisor 0) ∧
    (a.settled → b = a.afterResolution s.meter.settings.cutOff s.now (addUnits a.owed (o.quotient s.meter.settings.divisor 0)))
  others : ∀ m, m ≠ o.account → t.book.account m = s.book.account m
  calm : t.resolvesCalmly
  saturated : ∀ src, s.sales.notices.sources[Notice.meterSaturated.number]? = some src →
    t.sales.notices.sources[Notice.meterSaturated.number]? = some { src with latched := src.latched || s.carryClamps o 0 }

/-- Stage 5 alone. -/
theorem State.accumulate_sales {src : Source} {net : Nat} (h : s.sales.notices.sources[Notice.meterSaturated.number]? = some src) :
    (s.accumulate o net).sales.notices.sources[Notice.meterSaturated.number]? =
      some { src with latched := src.latched || s.carryClamps o net } := by
  rw [State.accumulate_eq]
  cases hc : s.carryClamps o net with
  | false => simpa using h
  | true =>
    have hmod := State.modNotices_modify (s := s.modBook (OrderBook.carry o s.meter.settings.divisor net)) (l := .sales)
      (n := Notice.meterSaturated.number) (src := src) h fun src => { src with latched := true }
    simp only [if_true, Bool.or_true]
    rw [State.raise]
    show ((State.modNotices _ Notice.meterSaturated.link _).link .sales).notices.sources[_]? = _
    rw [show Notice.meterSaturated.link = .sales from rfl, hmod, State.setLink_link]
    exact Controller.withSource_getElem h

theorem State.accumulate_book {net : Nat} : (s.accumulate o net).book = s.book.carry o s.meter.settings.divisor net := by
  rw [State.accumulate_eq]
  split
  · rw [State.raise_book]; rfl
  · rfl

theorem addUnits_le {total q : Nat} : addUnits total q ≤ 16777215 := Nat.min_le_right _ _

theorem State.accumulate_unstopped {net : Nat} (h : ∀ a ∈ s.book.accounts, a.unstopped) :
    ∀ a ∈ (s.accumulate o net).book.accounts, a.unstopped := fun x hx => by
  rw [State.accumulate_book] at hx
  obtain ⟨y, hy, rfl⟩ := mem_modifyWhere hx
  split
  · exact h y hy
  · exact h y hy

theorem State.accumulate_calm {net : Nat} (h : s.resolvesCalmly) : (s.accumulate o net).resolvesCalmly :=
  h.of_within (State.accumulate_within o net) fun _ => State.accumulate_unstopped

theorem State.accumulate_resolvedOne (hcalm : s.resolvesCalmly)
    (hsame : ∀ a, s.book.account o.account = some a → addUnits a.owed (o.quotient s.meter.settings.divisor 0) = a.owed) :
    s.ResolvedOne o (s.accumulate o 0) where
  within := State.accumulate_within o 0
  last := by rw [State.accumulate_book]; rfl
  orders := State.accumulate_orders o 0
  absent hnone := by
    rw [State.accumulate_book]
    unfold OrderBook.carry
    rw [OrderBook.account_modAccount_same _ _ _ (by intro _; rfl), OrderBook.modOrder_account, hnone]
    rfl
  account a ha := ⟨a, by rw [State.accumulate_book, OrderBook.carry_account ha, hsame a ha], (hsame a ha).symm, fun _ => by
    rw [hsame a ha]; simp [Account.afterResolution]⟩
  others m hm := by rw [State.accumulate_book, OrderBook.carry_account_other hm]
  calm := State.accumulate_calm hcalm
  saturated src hsrc := State.accumulate_sales hsrc

theorem State.resolveOrder_calmly (ho : s.book.order o.id = some o) (hcalm : s.resolvesCalmly) :
    s.ResolvedOne o (s.resolveOrder cutOffDeliveries o.id) := by
  let v := s.accumulate o 0
  have hv : s.Within [.book, .notices .sales] v := State.accumulate_within o 0
  have hbook : v.book = s.book.carry o s.meter.settings.divisor 0 := State.accumulate_book
  have hmeter : v.meter = s.meter := hv.meter (by decide)
  have hnow : v.now = s.now := hv.now (by decide)
  have hresolve : s.resolveOrder cutOffDeliveries o.id =
      if v.book.owed o.account = s.book.owed o.account then v else v.evaluate cutOffDeliveries o.account := by
    simp only [State.resolveOrder, ho, v]
  rw [hresolve]
  cases ha : s.book.account o.account with
  | none =>
    have hcarried : s.ResolvedOne o v := State.accumulate_resolvedOne hcalm fun a h => by rw [ha] at h; cases h
    rw [if_pos (by simp [OrderBook.owed, ha, hcarried.absent ha])]
    exact hcarried
  | some a =>
    have haccount : v.book.account o.account = some { a with owed := addUnits a.owed (o.quotient s.meter.settings.divisor 0) } := by
      rw [hbook, OrderBook.carry_account ha]
    rw [OrderBook.owed_of_account ha, OrderBook.owed_of_account haccount]
    by_cases hsame : addUnits a.owed (o.quotient s.meter.settings.divisor 0) = a.owed
    · rw [if_pos hsame]
      exact State.accumulate_resolvedOne hcalm fun a' h => by rw [ha] at h; cases h; exact hsame
    · rw [if_neg hsame]
      have hpeace : v.peaceful o.account a := by
        have hv := (State.accumulate_calm (o := o) (net := 0) hcalm).peaceful haccount
        exact hv
      obtain ⟨b, heval, howed, hafter, hunstopped⟩ := State.evaluate_peaceful haccount hpeace
      exact {
        within := hv.trans heval.within
        last := heval.last.trans (by rw [hbook]; rfl)
        orders := heval.orders.trans (State.accumulate_orders o 0)
        absent := fun h => by rw [ha] at h; cases h
        account := fun a' h => by
          rw [ha] at h
          cases h
          refine ⟨b, heval.account, howed, fun hset => ?_⟩
          rw [hmeter, hnow] at hafter
          refine hafter hset (Nat.lt_of_le_of_ne ?_ (Ne.symm hsame))
          exact Nat.le_min.mpr ⟨Nat.le_add_right _ _, hset.1⟩
        others := fun m hm => by rw [heval.others m hm, hbook, OrderBook.carry_account_other hm]
        calm := hcalm.of_within (hv.trans heval.within) fun hc hopen x hx => by
          have hb : b.unstopped := hunstopped (by rw [hmeter]; exact hc) (hopen a (List.mem_of_find?_eq_some ha))
          rcases heval.open_ hb x hx with hx | hx
          · exact State.accumulate_unstopped hopen x hx
          · exact hx
        saturated := fun src hsrc => heval.saturated.trans (State.accumulate_sales hsrc) }


/-! ## All orders -/

/-- The units that the orders with ids among `ids` give an account under the divisor `d`. -/
def OrderBook.unitsOver (b : OrderBook) (ids : List Nat) (d account : Nat) : Nat :=
  (b.orders.map fun o => if o.account = account ∧ o.id ∈ ids then o.accumulator / d else 0).sum

theorem sum_map_single {α : Type} (idOf : α → Nat) (f : α → Nat) {xs : List α} {x : α} (hn : (xs.map idOf).Nodup) (hx : x ∈ xs) :
    (xs.map fun y => if idOf y = idOf x then f y else 0).sum = f x := by
  induction xs with
  | nil => cases hx
  | cons y ys ih =>
    obtain ⟨hy, hys⟩ := List.nodup_cons.mp hn
    rw [List.map_cons, List.sum_cons]
    rcases List.mem_cons.mp hx with rfl | hx
    · have hrest : (ys.map fun z => if idOf z = idOf x then f z else 0) = ys.map fun _ => 0 :=
        List.map_congr_left fun z hz => if_neg fun he => hy (by rw [← he]; exact List.mem_map_of_mem hz)
      rw [hrest]
      simp
    · rw [if_neg fun he => hy (by rw [he]; exact List.mem_map_of_mem hx), ih hys hx, Nat.zero_add]

/-- One order more gives its account its quotient. -/
theorem OrderBook.unitsOver_cons {b : OrderBook} {ids : List Nat} {d k : Nat} (hn : (b.orders.map (·.id)).Nodup)
    (ho : o ∈ b.orders) (hnot : o.id ∉ ids) : b.unitsOver (o.id :: ids) d k =
      (if o.account = k then o.accumulator / d else 0) + b.unitsOver ids d k := by
  have hsplit : ∀ x ∈ b.orders, (if x.account = k ∧ x.id ∈ o.id :: ids then x.accumulator / d else 0) =
      (if x.id = o.id then (if x.account = k then x.accumulator / d else 0) else 0) +
        if x.account = k ∧ x.id ∈ ids then x.accumulator / d else 0 := fun x _ => by
    by_cases hid : x.id = o.id
    · simp [hid, hnot]
    · simp [hid]
  unfold OrderBook.unitsOver
  rw [List.map_congr_left hsplit, List.sum_map_add,
    sum_map_single Order.id (fun x => if x.account = k then x.accumulator / d else 0) hn ho]

/-- An order resolved already adds nothing. -/
theorem OrderBook.unitsOver_resolved {b c : OrderBook} {ids : List Nat} {d k i net : Nat} (hnot : i ∉ ids)
    (horders : c.orders = modifyWhere (·.id = i) (Order.carry d net) b.orders) : c.unitsOver ids d k = b.unitsOver ids d k := by
  unfold OrderBook.unitsOver modifyWhere at *
  rw [horders, List.map_map]
  refine congrArg List.sum (List.map_congr_left fun x _ => ?_)
  by_cases hx : x.id = i
  · have hcarried : (x.carry d net).id = i := hx
    simp [hx, hcarried, hnot]
  · simp [hx]

/-- An account that none of the orders has gains nothing. -/
theorem OrderBook.unitsOver_none {b : OrderBook} {ids : List Nat} {d k : Nat}
    (h : ∀ o ∈ b.orders, o.id ∈ ids → o.account ≠ k) : b.unitsOver ids d k = 0 := by
  have hzero : (b.orders.map fun o => if o.account = k ∧ o.id ∈ ids then o.accumulator / d else 0) = b.orders.map fun _ => 0 :=
    List.map_congr_left fun o ho => if_neg fun ⟨ha, hi⟩ => h o ho hi ha
  unfold OrderBook.unitsOver
  rw [hzero]
  simp

theorem OrderBook.unitsOver_all {b : OrderBook} {d k : Nat} : b.unitsOver (b.orders.map (·.id)) d k = b.resolvedUnits d k := by
  have hall : (b.orders.map fun o => if o.account = k ∧ o.id ∈ b.orders.map (·.id) then o.accumulator / d else 0) =
      b.orders.map fun o => if o.account = k then o.accumulator / d else 0 :=
    List.map_congr_left fun o ho => by simp [List.mem_map_of_mem (f := Order.id) ho]
  unfold OrderBook.unitsOver OrderBook.resolvedUnits
  rw [hall]
  generalize b.orders = l
  induction l with
  | nil => rfl
  | cons x xs ih =>
    by_cases hx : x.account = k <;> simp [hx, ih]

/-- A total of the orders with ids among `ids` is clamped under the divisor `d`. -/
def State.clampsOver (s : State) (ids : List Nat) (d : Nat) : Prop :=
  ∃ o ∈ s.book.orders, o.id ∈ ids ∧ (16777215 < o.units + o.accumulator / d ∨
    ∃ a ∈ s.book.account o.account, 16777215 < a.owed + s.book.unitsOver ids d o.account)

/-- The orders with ids among `ids` have been resolved in peace: `t` is the state after. -/
structure State.ResolvedOver (s : State) (ids : List Nat) (t : State) : Prop where
  within : s.Within [.book, .notices .sales] t
  last : t.book.lastOrderId = s.book.lastOrderId
  orders : t.book.orders = s.book.orders.map fun o => if o.id ∈ ids then o.carry s.meter.settings.divisor 0 else o
  account : ∀ k a, s.book.account k = some a → a.settled → t.book.account k = some
    (a.afterResolution s.meter.settings.cutOff s.now (min (a.owed + s.book.unitsOver ids s.meter.settings.divisor k) 16777215))
  others : ∀ k, (∀ o ∈ s.book.orders, o.id ∈ ids → o.account ≠ k) → t.book.account k = s.book.account k
  saturated : ∀ src, s.sales.notices.sources[Notice.meterSaturated.number]? = some src → ∃ clamped : Bool,
    t.sales.notices.sources[Notice.meterSaturated.number]? = some { src with latched := src.latched || clamped } ∧
      (clamped = true ↔ s.clampsOver ids s.meter.settings.divisor)

theorem State.ResolvedOver.refl : s.ResolvedOver [] s where
  within := .refl s
  last := rfl
  orders := by simp
  account k a ha hset := by
    have hnone : s.book.unitsOver [] s.meter.settings.divisor k = 0 :=
      OrderBook.unitsOver_none fun _ _ h => absurd h List.not_mem_nil
    rw [hnone, Nat.add_zero, Nat.min_eq_left hset.1, ha, Account.afterResolution, if_pos rfl]
  others _ _ := rfl
  saturated src hsrc := ⟨false, by simpa using hsrc, by simp [State.clampsOver]⟩

theorem State.ResolvedOne.unresolved {x : Order} (h : s.ResolvedOne o t) (hid : x.id ≠ o.id) :
    x ∈ t.book.orders ↔ x ∈ s.book.orders := by
  rw [h.orders, modifyWhere, List.mem_map]
  constructor
  · rintro ⟨y, hy, rfl⟩
    by_cases hyo : y.id = o.id
    · exact absurd (by simp [hyo, Order.carry]) hid
    · simpa [hyo] using hy
  · exact fun hx => ⟨x, hx, by simp [hid]⟩

theorem State.carryClamps_iff : s.carryClamps o 0 = true ↔ 16777215 < o.units + o.accumulator / s.meter.settings.divisor ∨
    ∃ a ∈ s.book.account o.account, 16777215 < a.owed + o.accumulator / s.meter.settings.divisor := by
  cases ha : s.book.account o.account with
  | none =>
    simp [State.carryClamps, unitsClamped, Order.quotient, Config.maxUnits, OrderBook.owed, ha]
    omega
  | some a => simp [State.carryClamps, unitsClamped, Order.quotient, Config.maxUnits, OrderBook.owed, ha]

/-- The account of the resolved order, while its total was not clamped. -/
theorem State.ResolvedOne.owed (h : s.ResolvedOne o t) (ha : s.book.account o.account = some a) :
    ∃ b, t.book.account o.account = some b ∧ b.owed = min (a.owed + o.accumulator / s.meter.settings.divisor) 16777215 := by
  obtain ⟨b, hb, howed, -⟩ := h.account a ha
  exact ⟨b, hb, howed⟩

/-- A clamp of one resolution and of those after it is a clamp of all. -/
theorem State.ResolvedOne.clamps {ids : List Nat} (h : s.ResolvedOne o t) (hn : (s.book.orders.map (·.id)).Nodup)
    (ho : o ∈ s.book.orders) (hnot : o.id ∉ ids) :
    (s.carryClamps o 0 = true ∨ t.clampsOver ids s.meter.settings.divisor) ↔ s.clampsOver (o.id :: ids) s.meter.settings.divisor := by
  have hunits : ∀ k, t.book.unitsOver ids s.meter.settings.divisor k = s.book.unitsOver ids s.meter.settings.divisor k :=
    fun k => OrderBook.unitsOver_resolved hnot h.orders
  have hrest : ∀ x : Order, x.id ∈ ids → (x ∈ t.book.orders ↔ x ∈ s.book.orders) := fun x hx =>
    h.unresolved fun he => hnot (he ▸ hx)
  rw [State.carryClamps_iff]
  unfold State.clampsOver
  simp only [hunits, OrderBook.unitsOver_cons hn ho hnot]
  constructor
  · rintro ((hu | ⟨a, ha, hu⟩) | ⟨x, hx, hid, hu⟩)
    · exact ⟨o, ho, List.mem_cons_self, .inl hu⟩
    · exact ⟨o, ho, List.mem_cons_self, .inr ⟨a, ha, by rw [if_pos rfl]; omega⟩⟩
    · refine ⟨x, (hrest x hid).mp hx, List.mem_cons_of_mem _ hid, hu.imp_right fun ⟨b, hb, hlt⟩ => ?_⟩
      by_cases hk : x.account = o.account
      · rw [hk] at hb hlt ⊢
        cases ha : s.book.account o.account with
        | none =>
          rw [h.absent ha] at hb
          cases hb
        | some a =>
          obtain ⟨b', hb', howed⟩ := h.owed ha
          cases hb'.symm.trans hb
          exact ⟨a, rfl, by rw [if_pos rfl]; omega⟩
      · rw [h.others x.account hk] at hb
        exact ⟨b, hb, by rw [if_neg (Ne.symm hk)]; omega⟩
  · rintro ⟨x, hx, hid, hu⟩
    have hshared : ∀ a ∈ s.book.account o.account,
        16777215 < a.owed + (o.accumulator / s.meter.settings.divisor + s.book.unitsOver ids s.meter.settings.divisor o.account) →
        (∃ y ∈ s.book.orders, y.id ∈ ids ∧ y.account = o.account) ∨
          s.book.unitsOver ids s.meter.settings.divisor o.account = 0 → _ := fun a ha hlt hother =>
      show (16777215 < o.units + o.accumulator / s.meter.settings.divisor ∨
          ∃ a ∈ s.book.account o.account, 16777215 < a.owed + o.accumulator / s.meter.settings.divisor) ∨
        ∃ x ∈ t.book.orders, x.id ∈ ids ∧ (16777215 < x.units + x.accumulator / s.meter.settings.divisor ∨
          ∃ a ∈ t.book.account x.account, 16777215 < a.owed + s.book.unitsOver ids s.meter.settings.divisor x.account) by
        by_cases hfirst : 16777215 < a.owed + o.accumulator / s.meter.settings.divisor
        · exact .inl (.inr ⟨a, ha, hfirst⟩)
        · obtain ⟨y, hy, hyid, hyk⟩ := hother.resolve_right (by omega)
          obtain ⟨b, hb, howed⟩ := h.owed ha
          exact .inr ⟨y, (hrest y hyid).mpr hy, hyid, .inr ⟨b, by rw [hyk]; exact hb, by rw [hyk]; omega⟩⟩
    rcases List.mem_cons.mp hid with hid | hid
    · obtain rfl : x = o := by
        have hfound := find_of_mem_nodup Order.id hn hx
        rw [hid, find_of_mem_nodup Order.id hn ho] at hfound
        exact (Option.some.inj hfound).symm
      rcases hu with hu | ⟨a, ha, hu⟩
      · exact .inl (.inl hu)
      · rw [if_pos rfl] at hu
        refine hshared a ha hu ?_
        by_cases hex : ∃ y ∈ s.book.orders, y.id ∈ ids ∧ y.account = x.account
        · exact .inl hex
        · exact .inr (OrderBook.unitsOver_none fun y hy hyid hyk => hex ⟨y, hy, hyid, hyk⟩)
    · rcases hu with hu | ⟨a, ha, hu⟩
      · exact .inr ⟨x, (hrest x hid).mpr hx, hid, .inl hu⟩
      · by_cases hk : x.account = o.account
        · rw [hk, if_pos rfl] at hu
          exact hshared a (hk ▸ ha) hu (.inl ⟨x, hx, hid, hk⟩)
        · rw [if_neg (Ne.symm hk)] at hu
          exact .inr ⟨x, (hrest x hid).mpr hx, hid, .inr ⟨a, by rw [h.others x.account hk]; exact ha, by omega⟩⟩

theorem State.ResolvedOver.cons {ids : List Nat} (hn : (s.book.orders.map (·.id)).Nodup) (ho : o ∈ s.book.orders)
    (hnot : o.id ∉ ids) (h : s.ResolvedOne o t) (h' : t.ResolvedOver ids u) : s.ResolvedOver (o.id :: ids) u := by
  have hmeter : t.meter = s.meter := h.within.meter (by decide)
  have hnow : t.now = s.now := h.within.now (by decide)
  have hunits : ∀ k, t.book.unitsOver ids s.meter.settings.divisor k = s.book.unitsOver ids s.meter.settings.divisor k :=
    fun k => OrderBook.unitsOver_resolved hnot h.orders
  have hrest : ∀ x : Order, x.id ∈ ids → (x ∈ t.book.orders ↔ x ∈ s.book.orders) := fun x hx =>
    h.unresolved fun he => hnot (he ▸ hx)
  exact {
    within := h.within.trans h'.within
    last := h'.last.trans h.last
    orders := by
      rw [h'.orders, h.orders, hmeter, modifyWhere, List.map_map]
      refine List.map_congr_left fun x _ => ?_
      by_cases hx : x.id = o.id
      · have hcarried : (x.carry s.meter.settings.divisor 0).id = o.id := hx
        simp [hx, hcarried, hnot]
      · simp [hx]
    account := fun k a ha hset => by
      rw [OrderBook.unitsOver_cons hn ho hnot]
      by_cases hk : o.account = k
      · subst hk
        obtain ⟨b, hb, howed, hafter⟩ := h.account a ha
        have hgain : a.owed ≤ addUnits a.owed (o.quotient s.meter.settings.divisor 0) :=
          Nat.le_min.mpr ⟨Nat.le_add_right _ _, hset.1⟩
        have hfirst := hafter hset
        have hbset : b.settled := hfirst ▸ Account.afterResolution_settled hset hgain addUnits_le
        have htotal : min (b.owed + s.book.unitsOver ids s.meter.settings.divisor o.account) 16777215 =
            min (a.owed + (o.accumulator / s.meter.settings.divisor + s.book.unitsOver ids s.meter.settings.divisor o.account))
              16777215 := by
          rw [howed]
          simp only [addUnits, Order.quotient, Config.maxUnits, Nat.add_zero]
          omega
        rw [h'.account o.account b hb hbset, hmeter, hnow, hunits, htotal, if_pos rfl, hfirst]
        refine congrArg some (Account.afterResolution_again hset hgain (Nat.le_min.mpr ⟨?_, addUnits_le⟩))
        simp only [addUnits, Order.quotient, Config.maxUnits, Nat.add_zero]
        omega
      · rw [if_neg hk, Nat.zero_add, ← hunits, ← hmeter, ← hnow]
        exact h'.account k a ((h.others k (Ne.symm hk)).trans ha) hset
    others := fun k hk => by
      rw [h'.others k fun x hx hid => hk x ((hrest x hid).mp hx) (List.mem_cons_of_mem _ hid),
        h.others k (Ne.symm (hk o ho List.mem_cons_self))]
    saturated := fun src hsrc => by
      obtain ⟨clamped, hu, hiff⟩ := h'.saturated _ (h.saturated src hsrc)
      refine ⟨s.carryClamps o 0 || clamped, by rw [hu]; simp [Bool.or_assoc], ?_⟩
      rw [Bool.or_eq_true, hiff, hmeter]
      exact h.clamps hn ho hnot }

/-- The orders of a list of ids are resolved one after the other (R186). -/
theorem State.resolveOrders_over {ids : List Nat} (hids : ids.Nodup) (hn : (s.book.orders.map (·.id)).Nodup)
    (hmem : ∀ i ∈ ids, i ∈ s.book.orders.map (·.id)) (hcalm : s.resolvesCalmly) :
    s.ResolvedOver ids (ids.foldl (fun s i => s.resolveOrder cutOffDeliveries i) s) := by
  induction ids generalizing s with
  | nil => exact .refl
  | cons i ids ih =>
    obtain ⟨hnot, hrest⟩ := List.nodup_cons.mp hids
    obtain ⟨o, ho, rfl⟩ := List.mem_map.mp (hmem i List.mem_cons_self)
    have hone := State.resolveOrder_calmly (find_of_mem_nodup Order.id hn ho) hcalm
    have hsame := hone.within.orderIds (by decide)
    rw [List.foldl_cons]
    exact .cons hn ho hnot hone (ih hrest (hsame ▸ hn) (fun j hj => hsame ▸ hmem j (List.mem_cons_of_mem _ hj)) hone.calm)

/-- A divisor resolution in peace (R186). -/
theorem State.resolve_over (hn : (s.book.orders.map (·.id)).Nodup) (hcalm : s.resolvesCalmly) :
    s.ResolvedOver (s.book.orders.map (·.id)) (s.resolve cutOffDeliveries) :=
  State.resolveOrders_over hn hn (fun _ h => h) hcalm

theorem State.Within.ofSales (h : s.Within [.book, .notices .sales] t) :
    t = { s with book := t.book, sales := { s.sales with notices := t.sales.notices } } := by
  refine h.frame.trans ?_
  rw [h.now (by decide), h.cat (by decide), h.alloc (by decide), h.store (by decide), h.port (by decide),
    h.mover (by decide), h.table (by decide), h.engine (by decide), h.meter (by decide),
    h.productionNotices (by decide), h.deskNotices (by decide)]

/-- What a resolution in peace makes of the orders and their accounts, in the terms of the statement. -/
theorem State.ResolvedOver.resolved {d : Nat} (h : s.ResolvedOver (s.book.orders.map (·.id)) t) (hd : d = s.meter.settings.divisor) :
    s.Resolved d t := by
  subst hd
  have hmem : ∀ o ∈ s.book.orders, o.id ∈ s.book.orders.map (·.id) := fun o ho => List.mem_map_of_mem ho
  have horders : t.book.orders = s.book.orders.map (Order.carry s.meter.settings.divisor 0) := by
    rw [h.orders]
    exact List.map_congr_left fun o ho => if_pos (hmem o ho)
  refine ⟨fun id o ho => ?_, fun id hid => h.others id fun o ho _ => hid o ho, fun o a ho ha hmax hceiling => ?_,
    fun src clamped hsrc hclamped => ?_⟩
  · have hfound : t.book.order id = (s.book.order id).map (Order.carry s.meter.settings.divisor 0) := by
      unfold OrderBook.order
      rw [horders, List.find?_map]
      rfl
    rw [hfound, ho]
    rfl
  · rw [h.within.meter (by decide), ← OrderBook.unitsOver_all]
    exact h.account o.account a ha ⟨hmax, hceiling⟩
  · obtain ⟨c, hc, hiff⟩ := h.saturated src hsrc
    have hsame : clamped = c := by
      rw [Bool.eq_iff_iff, hclamped, hiff]
      unfold State.clampsOver
      simp only [OrderBook.unitsOver_all]
      exact exists_congr fun o => and_congr_right fun ho => by simp [hmem o ho]
    rw [hsame]
    exact hc

/-! ## SET_METER -/

theorem State.resolveOrder_within {stop : StopDeliveries} (hs : stop.Bounded) (i : Nat) :
    s.Within postable (s.resolveOrder stop i) := by
  unfold State.resolveOrder
  split
  · exact .refl s
  · next o _ =>
    have hcarried := (State.accumulate_within (s := s) o 0).mono (R := postable) rfl
    dsimp only
    split
    · exact hcarried
    · exact hcarried.trans (State.evaluate_within hs _)
theorem State.resolve_within {stop : StopDeliveries} (hs : stop.Bounded) : s.Within postable (s.resolve stop) :=
  foldl_within (fun _ i => State.resolveOrder_within hs i) _ s

/-- The settings that SET_METER stores (R177). -/
def State.withSettings (s : State) (divisor cutOff reinstate : Option Nat) : State :=
  let old := s.meter.settings
  s.modMeter fun m =>
    { m with settings := .stored (divisor.getD old.divisor) (cutOff.getD old.cutOff) (reinstate.getD old.reinstate) }

theorem State.setMeter_named {divisor cutOff reinstate : Option Nat}
    (h : divisor ≠ none ∨ cutOff ≠ none ∨ reinstate ≠ none) : s.setMeter divisor cutOff reinstate =
      if divisor.isSome then (s.withSettings divisor cutOff reinstate).resolve cutOffDeliveries
      else s.withSettings divisor cutOff reinstate := by
  refine if_neg fun ⟨hd, hc, hr⟩ => ?_
  rw [Option.isNone_iff_eq_none] at hd hc hr
  exact h.elim (· hd) (·.elim (· hc) (· hr))

theorem State.setMeter_settings {divisor cutOff reinstate : Option Nat}
    (h : divisor ≠ none ∨ cutOff ≠ none ∨ reinstate ≠ none) : (s.setMeter divisor cutOff reinstate).meter.settings =
      MeterSettings.stored (divisor.getD s.meter.settings.divisor) (cutOff.getD s.meter.settings.cutOff)
        (reinstate.getD s.meter.settings.reinstate) := by
  rw [State.setMeter_named h]
  split
  · exact (State.resolve_within State.cutOffDeliveries_bounded).accrues.settings
  · rfl

theorem State.ResolvesInPeace.calm {cutOff : Nat} (h : s.ResolvesInPeace cutOff) (hc : cutOff = s.meter.settings.cutOff) :
    s.resolvesCalmly := by
  subst hc
  refine h.imp (fun hidle i hi x hx d hd => ?_) id
  obtain ⟨o, ho, rfl⟩ := List.mem_map.mp hi
  exact hidle o ho x hx d hd

theorem State.Resolved.congr {d : Nat} (hb : u.book = s.book) (hn : u.now = s.now) (hs : u.sales.notices = s.sales.notices) :
    u.Resolved d t ↔ s.Resolved d t := by
  unfold State.Resolved
  rw [hb, hn, hs]

/-- Settles O57: a tariff as stored, and the settings with the resolution that a divisor named makes. -/
theorem tariffAndMeter : Obligations.TariffAndMeter := by
  unfold Obligations.TariffAndMeter
  intro tag ps fs s s₁
  refine ⟨fun n rt rr c a sv old h hn hrt hrr hc ha hsv => ⟨fun hbig => ?_, fun hin hbig => ?_, fun hin hs hold => ?_⟩,
    fun h => ⟨fun hout => ?_, fun hcut hre => ?_⟩⟩
  · exact exec_takenLocal (.writeTariff .sales tag ps) rfl rfl rfl h
      (by simp [bodyOfCommand, writeTariffBody, hn, hrt, hrr, hc, ha, hsv, hbig]; rfl)
  · exact exec_takenLocal (.writeTariff .sales tag ps) rfl rfl rfl h
      (by simp [bodyOfCommand, writeTariffBody, hn, hrt, hrr, hc, ha, hsv, Nat.not_lt.mpr hin, hbig]; rfl)
  · have htariff : s₁.meter.tariff n = old := by simp [Meter.tariff, h.meter, List.getD_eq_getElem?_getD, hold]
    obtain ⟨hlt, -⟩ := List.getElem?_eq_some_iff.mp hold
    have hnew : (s.meter.tariffs.set n (Tariff.stored rt rr c a sv))[n]? = some (Tariff.stored rt rr c a sv) := by simp [hlt]
    refine ⟨s₁.modMeter fun m => { m with tariffs := m.tariffs.set n (Tariff.stored rt rr c a sv) }, ?_, ?_, ?_, fun m hm => ?_,
      fun x hx => ?_, ?_⟩
    · exact exec_takenLocal (.writeTariff .sales tag ps) rfl rfl rfl h (by
        simp [bodyOfCommand, writeTariffBody, hn, hrt, hrr, hc, ha, hsv, Nat.not_lt.mpr hin, Nat.not_lt.mpr hs, htariff]
        cases hset : old.set <;> simp [Tariff.valueFields, Tariff.values, hset, Answer.ok])
    · rw [← h.meter]; rfl
    · rw [State.modMeter_meter, h.meter]; exact hnew
    · rw [State.modMeter_meter, h.meter]; simp [Ne.symm hm]
    · rw [State.modMeter_meter, h.meter] at hx
      cases hnew.symm.trans hx
      simp [Tariff.verify, Tariff.stored, Tariff.values]
    · simp [State.level, Meter.tariffUnset]
  · have hbad : fs.inRange 1 0 maxDelay = false ∨ fs.inRange 2 0 maxDelay = false := by
      simp only [Fields.inRange_eq_false_iff]
      exact hout.imp (fun ⟨v, hv, h⟩ => ⟨v, hv, .inr h⟩) fun ⟨v, hv, h⟩ => ⟨v, hv, .inr h⟩
    have he := exec_takenWide (.setMeter .sales tag ps) rfl rfl rfl h (t := s₁) (a := { result := .badRange })
      (by simp [bodyOfCommand, setMeterBody, hbad]; rfl)
    exact he
  · have h1 : fs.inRange 1 0 maxDelay = true := Fields.inRange_iff.mpr fun v hv => ⟨Nat.zero_le v, hcut v hv⟩
    have h2 : fs.inRange 2 0 maxDelay = true := Fields.inRange_iff.mpr fun v hv => ⟨Nat.zero_le v, hre v hv⟩
    have he := exec_takenWide (.setMeter .sales tag ps) rfl rfl rfl h (t := s₁.setMeter (fs.nat 0) (fs.nat 1) (fs.nat 2))
      (a := { result := .ok, fields :=
        [.one s.meter.settings.divisor, .one s.meter.settings.cutOff, .one s.meter.settings.reinstate] })
      (by simp [bodyOfCommand, setMeterBody, h1, h2, h.meter]; rfl)
    refine ⟨_, he, fun hd hc hr => ?_, fun hd => ?_, fun hnamed => ?_, fun d hd => ?_⟩
    · simp [State.setMeter, hd, hc, hr]
    · have hmeter := h.meter
      by_cases hnone : fs.nat 1 = none ∧ fs.nat 2 = none
      · simp [State.setMeter, hd, hnone, ← hmeter]
      · have hnamed : fs.nat 0 ≠ none ∨ fs.nat 1 ≠ none ∨ fs.nat 2 ≠ none := .inr (not_and_or.mp hnone)
        rw [State.setMeter_named hnamed, hd, ← hmeter]
        rfl
    · have hsettings := State.setMeter_settings (s := s₁) hnamed
      rw [h.meter] at hsettings
      rw [hsettings]
      simp [MeterSettings.stored, MeterSettings.isGood, MeterSettings.values]
    · let v := s₁.withSettings (fs.nat 0) (fs.nat 1) (fs.nat 2)
      have hset : s₁.setMeter (fs.nat 0) (fs.nat 1) (fs.nat 2) = v.resolve cutOffDeliveries := by
        rw [State.setMeter_named (.inl (by simp [hd])), if_pos (by simp [hd])]
      have hdivisor : v.meter.settings.divisor = max d 1 := by
        show max ((fs.nat 0).getD _) 1 = _
        rw [hd]
        rfl
      have hwithin := State.resolve_within (s := v) State.cutOffDeliveries_bounded
      have hsettings : (v.resolve cutOffDeliveries).meter.settings = v.meter.settings := hwithin.accrues.settings
      have hmetered := State.resolve_metered (s := v) State.cutOffDeliveries_bounded (hdivisor ▸ Nat.le_max_right _ _)
      rw [hset]
      refine ⟨fun o ho => ?_, ?_, ?_, ?_, fun horders hpeace => ?_⟩
      · have hlt := hmetered.2 o ho
        rwa [hsettings, hdivisor] at hlt
      · rw [hwithin.accrues.meter, ← h.meter]; rfl
      · rw [hwithin.accrues.meter, ← h.meter]; rfl
      · rw [hwithin.orderIds (by decide), ← h.book]; rfl
      · have hids : (v.book.orders.map (·.id)).Nodup := by
          show (s₁.book.orders.map (·.id)).Nodup
          rw [h.book]
          exact List.pairwise_map.mpr (horders.imp fun hlt => Nat.ne_of_lt hlt)
        have hcalm : v.resolvesCalmly := by
          refine State.ResolvesInPeace.calm (cutOff := v.meter.settings.cutOff) ?_ rfl
          rw [hsettings] at hpeace
          unfold State.ResolvesInPeace at hpeace ⊢
          show (∀ o ∈ s₁.book.orders, ∀ h ∈ s₁.table.ofOrder o.id, ∀ d, s₁.table.find h = some d → _) ∨
            (_ ∧ ∀ a ∈ s₁.book.accounts, _)
          rw [h.book, h.table]
          exact hpeace
        have hover := State.resolve_over hids hcalm
        refine ⟨?_, ?_⟩
        · exact (State.Resolved.congr h.book h.now (h.notices .sales)).mp (hover.resolved hdivisor.symm)
        · have hlast : (v.resolve cutOffDeliveries).book.lastOrderId = s.book.lastOrderId := hover.last.trans (congrArg _ h.book)
          have hbook : (v.resolve cutOffDeliveries).book = { s.book with
              orders := (v.resolve cutOffDeliveries).book.orders, accounts := (v.resolve cutOffDeliveries).book.accounts } := by
            dsimp only
            rw [← hlast]
          rw [← hbook, hsettings, ← h.meter]
          exact hover.within.ofSales

end Sys2Proof.Machine
end

