-- ==== Sys2Proof/Proofs/Arbiter.lean ====
section
/-! PROOF. The store arbiter, refresh bursts, QUIET and WAKING (chapter 4). -/

namespace Sys2Proof.Machine

variable {s t : State} {st : Store} {now : Nat} {c : Client} {x y : Transfer}

/-! ## The cyclic order of the clients -/

/-- The six clients (R70). -/
def Client.all : List Client :=
  [.deposit, .channel 0, .channel 1, .channel 2, .channel 3, .restoration]

theorem Client.mem_all (c : Client) : c ∈ Client.all := by
  cases c with
  | deposit => decide
  | restoration => decide
  | channel i => revert i; decide

theorem Client.mem_cycle (p c : Client) : c ∈ p.cycle := by
  have hall : ∀ p ∈ Client.all, ∀ c ∈ Client.all, c ∈ p.cycle := by decide
  exact hall p p.mem_all c c.mem_all

/-- Granting a client brings each client behind it nearer to the pointer (R70). -/
theorem Client.cycle_nearer {p c d : Client} (h : p.cycle.idxOf c < p.cycle.idxOf d) :
    c.next.cycle.idxOf d < p.cycle.idxOf d := by
  have hall : ∀ p ∈ Client.all, ∀ c ∈ Client.all, ∀ d ∈ Client.all, p.cycle.idxOf c < p.cycle.idxOf d →
      c.next.cycle.idxOf d < p.cycle.idxOf d := by decide
  exact hall p p.mem_all c c.mem_all d d.mem_all h

/-- What `findSome?` finds is found at the first place where there is something. -/
theorem idxOf_lt_of_findSome {α β : Type} [DecidableEq α] {f : α → Option β} {xs : List α} {b : β} (h : xs.findSome? f = some b) :
    ∃ a ∈ xs, f a = some b ∧ ∀ a', a' ≠ a → f a' ≠ none → xs.idxOf a < xs.idxOf a' := by
  induction xs with
  | nil => cases h
  | cons z zs ih =>
    rw [List.findSome?_cons] at h
    cases hz : f z with
    | some b' =>
      rw [hz] at h
      obtain rfl := Option.some.inj h
      exact ⟨z, List.mem_cons_self, hz, fun a' ha' _ => by simp [Ne.symm ha']⟩
    | none =>
      rw [hz] at h
      obtain ⟨a, ha, hfa, hbefore⟩ := ih h
      have hza : z ≠ a := fun he => by rw [he, hfa] at hz; cases hz
      refine ⟨a, List.mem_cons_of_mem z ha, hfa, fun a' ha' hfa' => ?_⟩
      have hza' : z ≠ a' := fun he => hfa' (he ▸ hz)
      simpa [List.idxOf_cons, hza, hza'] using hbefore a' ha' hfa'

/-! ## The arbiter -/

theorem Store.choose_other (h : st.state ≠ .active ∨ st.inFlight ≠ none ∨ st.withdrawn ≠ none ∨ st.burst ≠ none) :
    st.choose = st := by
  refine if_pos ?_
  simp only [Store.busy, Bool.or_eq_true, ← Option.ne_none_iff_isSome]
  tauto

/-- The choice of a store that is free to choose (R70, R72, R73). -/
theorem Store.choose_free (ha : st.state = .active) (hf : st.inFlight = none) (hw : st.withdrawn = none) (hb : st.burst = none) :
    st.choose = if st.halted then st.serveBurst
      else if 8 ≤ st.debt then st.halt.serveBurst
      else if 4 ≤ st.debt then st.serveBurst
      else (st.firstWaiting.map st.grant).getD (if st.debt = 0 then st else st.serveBurst) := by
  have hfree : ¬(st.state ≠ .active ∨ st.busy ∨ st.burst.isSome) := by simp [Store.busy, ha, hf, hw, hb]
  unfold Store.choose
  rw [if_neg hfree]
  cases st.firstWaiting <;> rfl

theorem Store.firstWaiting_none (h : st.waiting = []) : st.firstWaiting = none := by
  simp [Store.firstWaiting, List.findSome?_eq_none_iff, Store.waitingOf, h]

/-- The first waiting client from the pointer on (R70). -/
theorem Store.firstWaiting_some (h : st.waiting ≠ []) : ∃ x ∈ st.waiting, st.firstWaiting = some x ∧
    ∀ y ∈ st.waiting, y.client ≠ x.client → st.pointer.cycle.idxOf x.client < st.pointer.cycle.idxOf y.client := by
  have hwaits : ∀ y ∈ st.waiting, st.waitingOf y.client ≠ none := fun y hy hnone => by
    have hnot := List.find?_eq_none.mp hnone y hy
    simp at hnot
  obtain ⟨z, hz⟩ := List.exists_mem_of_ne_nil _ h
  cases hfirst : st.firstWaiting with
  | none => exact absurd (List.findSome?_eq_none_iff.mp hfirst z.client (Client.mem_cycle _ _)) (hwaits z hz)
  | some x =>
    obtain ⟨c, -, hc, hbefore⟩ := idxOf_lt_of_findSome hfirst
    have hclient : x.client = c := by simpa using List.find?_some (p := fun y : Transfer => decide (y.client = c)) hc
    subst hclient
    exact ⟨x, List.mem_of_find?_eq_some hc, rfl, fun y hy hne => hbefore y.client hne (hwaits y hy)⟩

theorem Store.idle_iff : st.idle = true ↔ st.state = .active ∧ st.inFlight = none ∧ st.withdrawn = none ∧ st.waiting = [] := by
  simp [Store.idle, Store.busy, and_assoc]

/-- Settles O36: the branches of the choice one by one. -/
theorem arbiterChoice : Obligations.ArbiterChoice := by
  unfold Obligations.ArbiterChoice
  refine ⟨fun st ha hf hw hb => ?_, fun st h => Store.choose_other h, fun st c => ⟨fun y hy hc => ?_, fun hne => ?_⟩,
    fun st => Store.idle_iff, fun s => by rw [State.settle_store]; rfl⟩
  · have hchoose := Store.choose_free ha hf hw hb
    refine ⟨fun hh => ?_, fun hh hd => ?_, fun hh h4 h7 => ?_, fun hh h1 h3 hnone => ?_, fun hh h0 hnone => ?_, fun hh h3 hsome => ?_⟩
    · rw [hchoose, if_pos hh]; rfl
    · rw [hchoose, if_neg (by simp [hh]), if_pos hd]; rfl
    · rw [hchoose, if_neg (by simp [hh]), if_neg (by omega), if_pos h4]; rfl
    · rw [hchoose, if_neg (by simp [hh]), if_neg (by omega), if_neg (by omega), Store.firstWaiting_none hnone]
      exact if_neg (by omega)
    · rw [hchoose, if_neg (by simp [hh]), if_neg (by omega), if_neg (by omega), Store.firstWaiting_none hnone]
      exact if_pos h0
    · obtain ⟨x, hx, hfirst, hbefore⟩ := Store.firstWaiting_some hsome
      refine ⟨x, hx, ?_, fun y hy hne => ⟨hbefore y hy hne, Client.cycle_nearer (hbefore y hy hne)⟩⟩
      rw [hchoose, if_neg (by simp [hh]), if_neg (by omega), if_neg (by omega), hfirst]
      rfl
  · simp [Store.withdraw, hy, hc]
  · refine if_neg fun h => ?_
    obtain ⟨y, hy, hc⟩ := Option.map_eq_some_iff.mp h
    exact hne y hy hc

/-! ## Refresh, bursts, QUIET and WAKING -/

theorem State.modStore_of {f : Store → Store} (h : f s.store = st) : s.modStore f = { s with store := st } := by
  subst h
  rfl

theorem Store.refreshFalls_eq (due : Nat) (st : Store) : st.refreshFalls due = { st with
    debt := min (st.debt + 1) 8, refreshDue := some (due + st.burstLength * 39)
    halted := st.halted || decide (7 ≤ st.debt)
    haltCount := if 7 ≤ st.debt ∧ st.halted = false then min (st.haltCount + 1) 65535 else st.haltCount } := by
  have hfull : min (st.debt + 1) 8 = 8 ↔ 7 ≤ st.debt := by omega
  unfold Store.refreshFalls
  dsimp only
  simp only [hfull]
  by_cases h7 : 7 ≤ st.debt
  · cases hh : st.halted
    · simp [h7, Store.halt, countUp, Store.refreshInterval, Config.refreshStep, Config.maxCount]
    · simp [h7, Store.refreshInterval, Config.refreshStep]
  · simp [h7, Store.refreshInterval, Config.refreshStep]

/-- Settles O37: the refresh timer, and the end of a burst with the test for QUIET. -/
theorem refreshAndBursts : Obligations.RefreshAndBursts := by
  unfold Obligations.RefreshAndBursts
  refine fun s hp => ⟨fun due hdue => ?_, fun n hn => ⟨fun since hidle hsince hthreshold hfixed hlong => ?_, fun hnot => ?_⟩⟩
  · show execRefreshDue s = _
    rw [execRefreshDue, whenRunning_of_running hp, hdue]
    dsimp only
    rw [State.modStore_of (s := s.reach due) (Store.refreshFalls_eq due s.store)]
    rfl
  · show execBurstEnd s = _
    have hburst : s.store.burst.isSome := by simp [hn]
    rw [execBurstEnd, whenRunning_of_running hp, if_pos hburst]
    have hquiet : s.store.burstEnds.quietIfDue s.now = s.store.burstEnds.enterQuiet :=
      Store.quietIfDue_due (Store.quietDue_iff.mpr ⟨hidle, hthreshold, hfixed, since, hsince, hlong⟩) rfl
    rw [State.modStore_of hquiet]
    rfl
  · show execBurstEnd s = _
    have hburst : s.store.burst.isSome := by simp [hn]
    rw [execBurstEnd, whenRunning_of_running hp, if_pos hburst]
    have hkept : s.store.burstEnds.quietIfDue s.now = s.store.burstEnds := by
      refine Store.quietIfDue_other (.inl ?_)
      rw [← Bool.not_eq_true, Store.quietDue_iff]
      rintro ⟨hidle, hthreshold, hfixed, since, hsince, hlong⟩
      rcases hnot with h | h | h | h
      · exact Bool.false_ne_true (h.symm.trans hidle)
      · exact hthreshold h
      · exact h hfixed
      · exact Nat.not_le_of_lt (h since hsince) hlong
    rw [State.modStore_of hkept]
    rfl

/-- Settles O38: QUIET at its moment, WAKING from it, and neither with a FIXED delivery. -/
theorem quietAndWaking : Obligations.QuietAndWaking := by
  unfold Obligations.QuietAndWaking
  refine ⟨fun s since hp hidle hthreshold hfixed hsince => ?_, fun now x st hquiet => ?_, fun s moment hp hstate hends => ?_,
    fun now st hfixed => ?_⟩
  · have hmoment : s.store.quietMoment = some (since + s.store.quietThreshold * 50) := by
      simp [Store.quietMoment, hidle, hthreshold, hfixed, hsince, Config.quietStep]
    have hdue : s.store.quietDue (max s.now (since + s.store.quietThreshold * 50)) = true :=
      Store.quietDue_iff.mpr ⟨hidle, hthreshold, hfixed, since, hsince, Nat.le_max_right _ _⟩
    have hexec : exec .enterQuiet s = .next ((s.reach (since + s.store.quietThreshold * 50)).modStore
        (Store.quietIfDue (max s.now (since + s.store.quietThreshold * 50)))).settle := by
      show execEnterQuiet s = _
      rw [execEnterQuiet, whenRunning_of_running hp, hmoment]
      rfl
    refine ⟨fun hb => ?_, fun hb => ?_⟩
    · rw [hexec]
      have hquiet := Store.quietIfDue_due hdue hb
      rw [State.modStore_of (s := s.reach _) hquiet]
      rfl
    · rw [hexec]
      have hkept := Store.quietIfDue_other (now := max s.now (since + s.store.quietThreshold * 50)) (.inr hb)
      rw [State.modStore_of (s := s.reach _) hkept]
      rfl
  · simp [Store.ask, hquiet, Config.wakeTime]
  · show execWakeTimeEnds s = _
    rw [execWakeTimeEnds, whenRunning_of_running hp, hstate, hends]
    rfl
  · refine Store.quietIfDue_other (.inl ?_)
    rw [← Bool.not_eq_true, Store.quietDue_iff]
    exact fun ⟨_, _, hzero, _⟩ => hfixed hzero

end Sys2Proof.Machine
end

