-- ==== Sys2Proof/Proofs/Frames.lean ====
section
/-! PROOF. Request fields and frames: what is written is read back, and what is read was written so (R188, R204 to R206). -/

namespace Sys2Proof.Machine

variable {fs : Fields} {ws rest : List Nat} {v : List Nat} {f : Layout} {layout : List Layout}

/-! ## One field -/

/-- A field that fits is read back from its words. -/
theorem Layout.read_write (h : f.fits v = true) : f.read (f.write v ++ rest) = some (v, rest) := by
  cases f with
  | one =>
    obtain ⟨hlen, -⟩ := (Bool.and_eq_true _ _).mp h
    obtain ⟨a, rfl⟩ := List.length_eq_one_iff.mp (of_decide_eq_true hlen)
    rfl
  | two =>
    obtain ⟨hlen, -⟩ := (Bool.and_eq_true _ _).mp h
    obtain ⟨a, rfl⟩ := List.length_eq_one_iff.mp (of_decide_eq_true hlen)
    simp [Layout.write, Layout.read]
    omega
  | region =>
    obtain ⟨hlen, -⟩ := (Bool.and_eq_true _ _).mp h
    match v, of_decide_eq_true hlen with
    | [a, b, c, d], _ => rfl
  | list => simp [Layout.write, Layout.read]
  | mask =>
    obtain ⟨hlen, -⟩ := (Bool.and_eq_true _ _).mp h
    match v, of_decide_eq_true hlen with
    | [a, b], _ => rfl

/-- The words of a field that fits are words. -/
theorem Layout.write_small (h : f.fits v = true) : ∀ w ∈ f.write v, w < 65536 := by
  cases f with
  | one => simpa [Layout.write] using ((Bool.and_eq_true _ _).mp h).2
  | two =>
    obtain ⟨hlen, hall⟩ := (Bool.and_eq_true _ _).mp h
    obtain ⟨a, rfl⟩ := List.length_eq_one_iff.mp (of_decide_eq_true hlen)
    simp [Layout.write] at hall ⊢
    omega
  | region => simpa [Layout.write] using ((Bool.and_eq_true _ _).mp h).2
  | list =>
    obtain ⟨hlen, hall⟩ := (Bool.and_eq_true _ _).mp h
    simp only [decide_eq_true_iff, List.all_eq_true] at hlen hall
    exact List.forall_mem_cons.mpr ⟨hlen, hall⟩
  | mask => simpa [Layout.write] using ((Bool.and_eq_true _ _).mp h).2

/-- A field that is read stands in the words that it is written in. -/
theorem Layout.write_read (hs : ∀ w ∈ ws, w < 65536) (h : f.read ws = some (v, rest)) : f.write v ++ rest = ws := by
  unfold Layout.read at h
  split at h
  · cases h; rfl
  · next a b ws =>
    cases h
    have hb := hs b (by simp)
    simp [Layout.write]
    omega
  · cases h; rfl
  · next n ws =>
    split at h
    · cases h
    · next hlen =>
      cases h
      simp [Layout.write, Nat.min_eq_left (Nat.le_of_not_lt hlen)]
  · cases h; rfl
  · cases h

theorem Layout.read_rest_small (hs : ∀ w ∈ ws, w < 65536) (h : f.read ws = some (v, rest)) : ∀ w ∈ rest, w < 65536 := fun w hw =>
  hs w (by rw [← Layout.write_read hs h]; exact List.mem_append_right _ hw)

/-! ## The present fields -/

/-- Each field fits its layout. -/
def presentFit (layout : List Layout) (fs : Fields) : Prop :=
  List.Forall₂ (fun (f : Layout) (v : Option (List Nat)) => ∀ x, v = some x → f.fits x = true) layout fs

theorem presentFit_of_fieldsFit (h : fieldsFit layout fs = true) : layout.length ≤ 16 ∧ presentFit layout fs := by
  simp only [fieldsFit, Bool.and_eq_true, decide_eq_true_iff, List.all_eq_true] at h
  obtain ⟨⟨hshort, hlen⟩, hall⟩ := h
  refine ⟨hshort, List.forall₂_iff_zip.mpr ⟨hlen.symm, fun {f v} hmem x hx => ?_⟩⟩
  subst hx
  exact hall (f, some x) hmem

theorem presentFit.writePresent (h : presentFit layout fs) : (writePresent layout fs).1 < 2 ^ layout.length ∧
    (∀ w ∈ (writePresent layout fs).2, w < 65536) ∧
    readPresent layout (writePresent layout fs).1 (writePresent layout fs).2 = some fs := by
  induction h with
  | nil => simp [Machine.writePresent, readPresent]
  | @cons f v layout fs hv _ ih =>
    obtain ⟨hp, hsmall, hread⟩ := ih
    cases v with
    | none =>
      refine ⟨?_, hsmall, ?_⟩
      · show 2 * _ < 2 ^ (layout.length + 1)
        omega
      · simp [Machine.writePresent, readPresent, hread]
    | some x =>
      have hx := hv x rfl
      refine ⟨?_, fun w hw => ?_, ?_⟩
      · show 2 * _ + 1 < 2 ^ (layout.length + 1)
        omega
      · rcases List.mem_append.mp hw with hw | hw
        · exact Layout.write_small hx w hw
        · exact hsmall w hw
      · have hhalf : (2 * (Machine.writePresent layout fs).1 + 1) / 2 = (Machine.writePresent layout fs).1 := by omega
        simp [Machine.writePresent, readPresent, Layout.read_write hx, hhalf, hread]

theorem readPresent_written {presence : Nat} (hs : ∀ w ∈ ws, w < 65536) (h : readPresent layout presence ws = some fs) :
    writePresent layout fs = (presence, ws) := by
  induction layout generalizing presence ws fs with
  | nil =>
    unfold readPresent at h
    split at h
    · next hnone =>
      obtain ⟨rfl, rfl⟩ := hnone
      cases h
      rfl
    · cases h
  | cons f layout ih =>
    unfold readPresent at h
    split at h
    · next heven =>
      obtain ⟨vs, hvs, rfl⟩ := Option.map_eq_some_iff.mp h
      have hrest := ih hs hvs
      simp only [writePresent, hrest]
      exact Prod.ext (by simp only; omega) rfl
    · next hodd =>
      split at h
      · next v rest hv =>
        obtain ⟨vs, hvs, rfl⟩ := Option.map_eq_some_iff.mp h
        have hrest := ih (Layout.read_rest_small hs hv) hvs
        simp only [writePresent, hrest]
        exact Prod.ext (by simp only; omega) (Layout.write_read hs hv)
      · cases h

/-- Small numbers are kept by a word. -/
theorem toNat_ofNat_words (hs : ∀ w ∈ ws, w < 65536) : (ws.map (BitVec.ofNat 16)).map BitVec.toNat = ws := by
  rw [List.map_map]
  refine (List.map_congr_left fun w hw => ?_).trans (List.map_id ws)
  simpa using Nat.mod_eq_of_lt (hs w hw)

theorem ofNat_toNat_words (ps : List Word) : (ps.map BitVec.toNat).map (BitVec.ofNat 16) = ps := by
  simp [List.map_map, Function.comp_def]

/-- Settles O6: field by field, in both directions. -/
theorem requestFieldsReadBack : Obligations.RequestFieldsReadBack := by
  unfold Obligations.RequestFieldsReadBack
  refine ⟨fun layout fs hfit => ?_, fun layout ps fs hne _ hread => ?_⟩
  · obtain ⟨hshort, hpresent⟩ := presentFit_of_fieldsFit hfit
    obtain ⟨hp, hsmall, hback⟩ := hpresent.writePresent
    have hword : (writePresent layout fs).1 < 65536 := hp.trans_le (Nat.pow_le_pow_right (by decide) hshort)
    show readPresent layout (BitVec.ofNat 16 _).toNat (List.map BitVec.toNat (List.map (BitVec.ofNat 16) _)) = _
    rw [toNat_ofNat_words hsmall, BitVec.toNat_ofNat, Nat.mod_eq_of_lt hword]
    exact hback
  · match ps, hne with
    | p :: ws, _ =>
      have hwritten := readPresent_written (fun w hw => by
        obtain ⟨x, -, rfl⟩ := List.mem_map.mp hw
        exact x.isLt) hread
      unfold writeFields
      rw [hwritten]
      simp [Function.comp_def]

/-! ## REQUEST and TILE frames -/

theorem hiByte_mul_add (a n : Nat) (h : n < 256) : hiByte (256 * a + n) = BitVec.ofNat 8 a := by
  unfold hiByte
  rw [Nat.mul_add_div (by decide), Nat.div_eq_of_lt h, Nat.add_zero]

theorem loByte_mul_add (a n : Nat) : loByte (256 * a + n) = BitVec.ofNat 8 n := by
  apply BitVec.eq_of_toNat_eq
  simp [loByte]

/-- The pixels of a tile are read back from its data words. -/
theorem pixels_wordsOfPixels {bs : List Byte} {n : Nat} (h : bs.length = 2 * n) :
    pixelsOfWords ((wordsOfPixels bs).map (BitVec.ofNat 16)) = bs ∧ (wordsOfPixels bs).length = n := by
  induction n generalizing bs with
  | zero =>
    obtain rfl := List.length_eq_zero_iff.mp h
    exact ⟨rfl, rfl⟩
  | succ n ih =>
    match bs, h with
    | a :: b :: rest, h =>
      obtain ⟨hpixels, hlen⟩ := ih (bs := rest) (by simp at h; omega)
      have hword : (BitVec.ofNat 16 (256 * a.toNat + b.toNat)).toNat = 256 * a.toNat + b.toNat := by
        have := a.isLt
        have := b.isLt
        simp
        omega
      refine ⟨?_, by simp [wordsOfPixels, hlen]⟩
      simp only [wordsOfPixels, List.map_cons, pixelsOfWords, List.flatMap_cons, hword, hiByte_mul_add _ _ b.isLt, loByte_mul_add,
        BitVec.ofNat_toNat, BitVec.setWidth_eq]
      exact congrArg (fun xs => a :: b :: xs) hpixels

/-- The words after the kind word of a TILE frame of 2,048 data words, as the production link sorts them (R188). -/
theorem sortTile_production {ws : List Word} {handle index : Nat} {x : Tile} (hws : ws.length = 2048) (hh : handle < 65536)
    (hi : index < 65536) (hpixels : pixelsOfWords ws = x.bytes) :
    sortTile .production (BitVec.ofNat 16 handle :: BitVec.ofNat 16 index :: (ws ++ [x.check])) = .tile handle index x := by
  have hlength : (BitVec.ofNat 16 handle :: BitVec.ofNat 16 index :: (ws ++ [x.check])).length = 2051 := by simp [hws]
  have hcheck : (BitVec.ofNat 16 handle :: BitVec.ofNat 16 index :: (ws ++ [x.check])).getD 2050 0 = x.check := by
    simp [List.getD_eq_getElem?_getD, hws]
  have hdata : (ws ++ [x.check]).take 2048 = ws := by rw [← hws, List.take_left]
  unfold sortTile
  rw [if_neg (by decide), if_neg (by rw [hlength]; decide), hcheck, List.drop_succ_cons, List.drop_succ_cons, List.drop_zero,
    hdata, hpixels]
  simp [Nat.mod_eq_of_lt hh, Nat.mod_eq_of_lt hi]

/-- Settles O7: each frame is sorted by its kind word and taken apart as it was put together. -/
theorem framesReadBack : Obligations.FramesReadBack := by
  unfold Obligations.FramesReadBack
  refine ⟨fun l r hr => ?_, fun handle index x hh hi hx => ?_⟩
  · have htag := r.tag.isLt
    have hhead : (BitVec.ofNat 16 (256 * r.tag.toNat + r.params.length)).toNat = 256 * r.tag.toNat + r.params.length := by
      simp
      omega
    have hcount : (256 * r.tag.toNat + r.params.length) % 256 = r.params.length := by omega
    have hlen : r.params.length < 256 := by omega
    have hfits : ¬(60 < r.params.length ∨ r.params.length < r.params.length) := by omega
    unfold sortFrame Request.words
    simp only [List.cons_append, List.nil_append]
    rw [if_pos (by decide)]
    unfold sortRequest
    simp only [hhead, hcount]
    rw [if_neg hfits, hiByte_mul_add _ _ hlen, List.take_length, BitVec.ofNat_toNat, BitVec.setWidth_eq]
  · obtain ⟨hpixels, hlen⟩ := pixels_wordsOfPixels (n := 2048) hx
    let ws := (wordsOfPixels x.bytes).map (BitVec.ofNat 16)
    have hws : ws.length = 2048 := by simp [ws, hlen]
    have hframe : tileFrameWords handle index x =
        BitVec.ofNat 16 kindTile :: BitVec.ofNat 16 handle :: BitVec.ofNat 16 index :: (ws ++ [x.check]) := rfl
    rw [hframe]
    unfold sortFrame
    dsimp only
    rw [if_neg (by decide), if_pos (by decide)]
    exact sortTile_production hws hh hi hpixels

end Sys2Proof.Machine
end

