-- ==== Sys2Proof/Proofs/Links.lean ====
section
/-! PROOF. The links: frames that arrive, frames that were sent, and LINK_RESET (chapter 10). -/

namespace Sys2Proof.Machine

variable {s t : State} {l : LinkId} {k : Link} {ws : List Word} {r : Request} {tag : Byte}

/-! ## The receiver -/

theorem Link.receiverFree_iff : k.receiverFree = true ↔ k.held = none := by simp [Link.receiverFree]

theorem Link.resetFree_of (h : k.held = none ∨ ∃ h i x, k.held = some (.tile h i x)) : k.resetFree = true := by
  rcases h with h | ⟨n, i, x, h⟩ <;> simp [Link.resetFree, h]

/-- Parameter words read as those of a request without fields when there are none, or only a presence word of 0 (R205, log 14). -/
theorem readFields_none_isSome {ps : List Word} : (readFields [] ps).isSome = true ↔ ps = [] ∨ ps = [0] := by
  match ps with
  | [] => simp [readFields]
  | [p] =>
    have hzero : p.toNat = 0 ↔ p = 0 := by bv_omega
    by_cases hp : p.toNat = 0
    · simpa [readFields, readPresent, hp] using hzero.mp hp
    · simpa [readFields, readPresent, hp] using fun he => hp (hzero.mpr he)
  | p :: q :: ps => simp [readFields, readPresent]

/-- A refusal takes a free reply place, or waits at the receiver (R188). -/
theorem State.refuseFrame_answered {r : Reply} (h : (s.link l).replies.length < 2) :
    s.refuseFrame l r = (s.setLink l { s.link l with replies := (s.link l).replies ++ [r] }).transmit l :=
  if_pos (Link.placeFree_iff.mpr h)
theorem State.refuseFrame_held {r : Reply} (h : 2 ≤ (s.link l).replies.length) (hheld : (s.link l).held = none) :
    s.refuseFrame l r = s.setLink l { s.link l with held := some (.refusal r) } := by
  unfold State.refuseFrame
  rw [if_neg (by rw [Link.placeFree_iff]; omega), if_pos (Link.receiverFree_iff.mpr hheld)]
  rfl

theorem State.resetFrame_read {ps : List Word} (h : ps = [] ∨ ps = [0]) : s.resetFrame l tag ps = s.linkReset l tag :=
  if_pos (readFields_none_isSome.mpr h)
theorem State.resetFrame_refused {ps : List Word} (h1 : ps ≠ []) (h2 : ps ≠ [0]) :
    s.resetFrame l tag ps = s.refuseFrame l { tag, answer := { result := .badValue } } :=
  if_neg (by rw [readFields_none_isSome]; exact not_or.mpr ⟨h1, h2⟩)

theorem exec_requestFrame (hp : s.power = .running) (hws : sortFrame l ws = .request r) :
    exec (.requestFrameArrives l ws) s =
      if r.code.toNat = 0x7F then
        if (s.link l).resetFree then .next (s.resetFrame l r.tag r.params) else .next s
      else if (s.link l).receiverFree then .next (s.modLink l (Link.intake r))
      else .next s := by
  show execRequestFrameArrives l ws s = _
  rw [execRequestFrameArrives, whenRunning_of_running hp, hws]
  rfl

theorem State.ready_iff (hp : s.power = .running) : s.ready l = true ↔ (s.link l).queue.length < 4 := by
  simp [State.ready, hp]

/-- Settles O8: what each kind of frame is sorted to, and what the receiver makes of it. -/
theorem framesArrive : Obligations.FramesArrive := by
  unfold Obligations.FramesArrive
  refine ⟨fun l ws r s hp hws => ⟨fun hcode hheld => ⟨fun hread => ?_, fun h1 h2 hroom => ?_, fun h1 h2 hfull hnone => ?_⟩,
      fun hcode hnone => ?_⟩,
    fun l ws r s hp hws hnone => ⟨fun hroom => ?_, fun hfull => ?_⟩, fun l h i ws hl => ?_, fun h i ws hlen => ?_,
    fun l kind ws h1 h3 => ?_, fun l head code ws hbad => ?_⟩
  · rw [exec_requestFrame hp hws, if_pos hcode, if_pos (Link.resetFree_of hheld), State.resetFrame_read hread]
  · rw [exec_requestFrame hp hws, if_pos hcode, if_pos (Link.resetFree_of hheld), State.resetFrame_refused h1 h2,
      State.refuseFrame_answered hroom]
  · rw [exec_requestFrame hp hws, if_pos hcode, if_pos (Link.resetFree_of hheld), State.resetFrame_refused h1 h2,
      State.refuseFrame_held hfull hnone]
  · have hlink : ((s.modLink l (Link.intake r)).link l) = (s.link l).intake r := by simp [State.modLink]
    refine ⟨s.modLink l (Link.intake r), ?_, by rw [hlink]; rfl, fun hroom => ?_, fun hfull => ?_, ?_⟩
    · rw [exec_requestFrame hp hws, if_neg hcode, if_pos (Link.receiverFree_iff.mpr hnone)]
    · rw [hlink]
      exact if_pos hroom
    · rw [hlink]
      exact if_neg (Nat.not_lt.mpr hfull)
    · exact State.ready_iff (by simp [State.modLink, hp])
  · show execFrameRefused l ws s = _
    rw [execFrameRefused, whenRunning_of_running hp, hws]
    dsimp only
    rw [if_pos (Link.receiverFree_iff.mpr hnone), State.refuseFrame_answered hroom]
  · show execFrameRefused l ws s = _
    rw [execFrameRefused, whenRunning_of_running hp, hws]
    dsimp only
    rw [if_pos (Link.receiverFree_iff.mpr hnone), State.refuseFrame_held hfull hnone]
  · unfold sortFrame sortTile
    dsimp only
    rw [if_neg (by decide), if_pos (by decide), if_pos hl]
    rfl
  · unfold sortFrame sortTile
    dsimp only
    rw [if_neg (by decide), if_pos (by decide), if_neg (fun h => h rfl), if_pos (by simp; omega)]
    rfl
  · unfold sortFrame
    dsimp only
    exact (if_neg h1).trans (if_neg h3)
  · unfold sortFrame sortRequest
    dsimp only
    rw [if_pos (by decide), if_pos hbad]
    rfl

end Sys2Proof.Machine
end

