-- ==== Sys2Proof/Proofs/Power.lean ====
section
/-! PROOF. Starts and resets of the part (chapter 4). -/

namespace Sys2Proof.Machine

variable {s t : State} {st : Store}

/-! ## RESET and the loss of power -/

theorem exec_resetAssert_running (hp : s.power = .running) :
    exec .resetAssert s = .next { s.modStore Store.hold with power := .inReset false } := by
  show execResetAssert s = _
  rw [execResetAssert, hp]

theorem exec_powerLoss_on (kept : Bool) (hp : s.power ≠ .off) : exec (.powerLoss kept) s = .next (s.losePower kept) := by
  show execPowerLoss kept s = _
  rw [execPowerLoss]
  split
  next h => exact absurd h hp
  next => rfl

/-- In RESET with power on, every command but RESET_RELEASE and POWER_LOSS leaves the part as it is (R68, log 2). -/
theorem exec_inReset {i : Instr} {held : Bool} (hp : s.power = .inReset held) (hr : ∀ a b, i ≠ .resetRelease a b)
    (hl : ∀ a, i ≠ .powerLoss a) : exec i s = .next s := by
  by_cases hc : isPowerCommand i = true
  · cases i with
    | powerUp a b c d =>
      show execPowerUp a b c d s = _
      rw [execPowerUp, hp]
    | resetAssert =>
      show execResetAssert s = _
      rw [execResetAssert, hp]
    | resetRelease a b => exact absurd rfl (hr a b)
    | powerLoss a => exact absurd rfl (hl a)
    | _ => cases hc
  · exact exec_stopped (by simpa using hc) (by rw [hp]; exact Power.noConfusion)

theorem StoreHeader.spoilt_isGood (h : StoreHeader) : h.spoilt.isGood = false := by
  have hne : checkHeader h.slotCount ≠ checkHeader h.slotCount ^^^ 1 := by
    generalize checkHeader h.slotCount = x
    intro he
    have : x ^^^ (x ^^^ 1) = 0 := by rw [← he]; simp
    rw [← BitVec.xor_assoc, BitVec.xor_self] at this
    revert this; decide
  rw [StoreHeader.isGood, StoreHeader.spoilt, decide_eq_false hne, Bool.false_and]

/-- Settles O23: a power that is not RUNNING stops every command but those that change the power. -/
theorem resetAssertAndPowerLoss : Obligations.ResetAssertAndPowerLoss := by
  refine ⟨fun s hp => ⟨_, exec_resetAssert_running hp, rfl, rfl, fun l => by simp [State.ready], fun i hr hl => ?_⟩,
    fun kept s hp => ⟨_, exec_powerLoss_on kept hp, ?_⟩⟩
  · exact exec_inReset rfl hr hl
  · cases kept with
    | true => exact ⟨rfl, rfl, rfl, rfl, rfl, fun _ => ⟨rfl, rfl, rfl, rfl, rfl⟩, Bool.noConfusion⟩
    | false => exact ⟨rfl, rfl, rfl, rfl, rfl, Bool.noConfusion, fun _ => ⟨StoreHeader.spoilt_isGood _, rfl, rfl, rfl⟩⟩

/-! ## The last work of a start -/

theorem Channel.offers_idle : Channel.offers {} = false := rfl

theorem State.transmit_idle {l : LinkId} (hr : (s.link l).replies = []) (hm : s.mover = {}) : s.transmit l = s := by
  have hnone : (turnOrder s.deskTurn).find? (fun c => (s.channel c).offers) = none := by
    rw [List.find?_eq_none]
    intro c _
    have : s.channel c = {} := by
      unfold State.channel
      rw [hm]
      fin_cases c <;> rfl
    rw [this, Channel.offers_idle]
    exact Bool.false_ne_true
  unfold State.transmit
  split
  · rfl
  · split
    next h => exact absurd hr h
    next =>
      split
      · rw [hnone]
      · rfl

/-- With every channel idle the links take no frame at the end of a start. -/
theorem State.startLinks_settle (hm : s.mover = {}) :
    s.startLinks.settle = { s.startLinks with store := Store.settle s.now s.store } := by
  have h1 : (s.startLinks.modStore (Store.settle s.startLinks.now)).mover = {} := hm
  unfold State.settle
  rw [State.transmit_idle (l := .production) rfl h1, State.transmit_idle (l := .desk) rfl h1,
    State.transmit_idle (l := .sales) rfl h1]
  rfl

/-- Controllers in their start state have every source masked and none pending. -/
theorem State.startLinks_attn (s : State) (l : LinkId) : s.startLinks.attn l = false := by
  rw [State.attn, List.any_eq_false]
  intro x hx
  have hsrc : x.1 = {} := by
    have := (List.mem_zipIdx hx).2.2
    cases l <;> simp_all [State.startLinks, State.link, Link.start, Controller.start]
  simp [hsrc]

/-! ## A cold start -/

theorem Store.settle_coldStart (sizeHigh : Bool) (kind : StartKind) (now : Nat) :
    Store.settle now (Store.coldStart sizeHigh kind now) = Store.coldStart sizeHigh kind now := rfl

/-- The store as R82 gives it, field by field. -/
theorem Store.coldStart_eq (sizeHigh : Bool) (kind : StartKind) (now : Nat) : Store.coldStart sizeHigh kind now =
    { mem := [], header := { slotCount := Config.slotCount sizeHigh, check := checkHeader (Config.slotCount sizeHigh) }
      slotCount := Config.slotCount sizeHigh, sizeHigh := sizeHigh
      lastStart := kind, state := .active, selfRefresh := false, debt := 0, refreshDue := some (now + 312)
      burst := none, halted := false, haltCount := 0, fixedCount := 0, quietThreshold := 50, burstLength := 8
      damagedReads := 0, lastDamage := none, waiting := [], inFlight := none, withdrawn := none, pointer := .deposit
      idleSince := some now, wakeEnds := none } := by
  have hinterval : Config.defaultBurst * Config.refreshStep = 312 := rfl
  rw [Store.coldStart, hinterval]
  rfl

/-- What a cold start leaves before the last work on the links (Table 4-1). -/
def State.emptied (kind : StartKind) (sizeHigh : Bool) (s : State) : State :=
  { s.readStrap with
    store := Store.coldStart sizeHigh kind s.now
    alloc := Allocator.coldStart (Config.slotCount sizeHigh)
    cat := {}, port := {}, mover := {}, table := {}, book := {}
    engine := { profiles := s.engine.profiles.map Profile.verify }
    meter := { tariffs := s.meter.tariffs.map Tariff.verify
               settings := if s.meter.settings.isGood then s.meter.settings else MeterSettings.default
               repaired := !s.meter.settings.isGood } }

theorem State.emptied_meter (kind : StartKind) (sizeHigh : Bool) (s : State) :
    (s.emptied kind sizeHigh).startLinks.meter =
      { tariffs := s.meter.tariffs.map Tariff.verify
        settings := if s.meter.settings.isGood then s.meter.settings else MeterSettings.default
        repaired := !s.meter.settings.isGood } := rfl

theorem State.coldBlocks_eq (s : State) : s.coldBlocks = { s with
    cat := {}, port := {}, mover := {}, table := {}, book := {}
    engine := { profiles := s.engine.profiles.map Profile.verify }
    meter := { tariffs := s.meter.tariffs.map Tariff.verify
               settings := if s.meter.settings.isGood then s.meter.settings else MeterSettings.default
               repaired := !s.meter.settings.isGood } } := by
  unfold State.coldBlocks State.startMeter
  exact if_neg fun h => Bool.false_ne_true h.1

theorem State.coldStart_eq (kind : StartKind) (sizeHigh : Bool) (s : State) :
    s.coldStart kind sizeHigh = (s.emptied kind sizeHigh).startLinks := by
  unfold State.coldStart
  dsimp only
  rw [State.coldBlocks_eq, State.startLinks_settle rfl]
  exact congrArg (fun st => { (s.emptied kind sizeHigh).startLinks with store := st })
    (Store.settle_coldStart sizeHigh kind s.now)

theorem exec_powerUp_off (standbyOk sizeHigh upset : Bool) (hp : s.power = .off) :
    exec (.powerUp standbyOk sizeHigh false upset) s =
      .next (({ s with standbyOk } : State).startAtPowerUp sizeHigh upset) := by
  show execPowerUp standbyOk sizeHigh false upset s = _
  rw [execPowerUp, hp]
  rfl

theorem exec_powerUp_held (standbyOk sizeHigh upset : Bool) (hp : s.power = .off) :
    exec (.powerUp standbyOk sizeHigh true upset) s = .next { s with standbyOk, power := .inReset true } := by
  show execPowerUp standbyOk sizeHigh true upset s = _
  rw [execPowerUp, hp]
  rfl

theorem exec_resetRelease_powerUp (sizeHigh upset : Bool) (hp : s.power = .inReset true) :
    exec (.resetRelease sizeHigh upset) s = .next (s.startAtPowerUp sizeHigh upset) := by
  show execResetRelease sizeHigh upset s = _
  rw [execResetRelease, hp]

theorem exec_resetRelease_on (sizeHigh upset : Bool) (hp : s.power = .inReset false) :
    exec (.resetRelease sizeHigh upset) s = .next ((s.readHeader upset).startByHeader .warmReset sizeHigh) := by
  show execResetRelease sizeHigh upset s = _
  rw [execResetRelease, hp]

theorem State.startAtPowerUp_low (sizeHigh upset : Bool) (h : s.standbyOk = false) :
    s.startAtPowerUp sizeHigh upset = s.coldStart .cold sizeHigh := if_neg (by simp [h])

theorem State.startAtPowerUp_high (sizeHigh upset : Bool) (h : s.standbyOk = true) :
    s.startAtPowerUp sizeHigh upset = (s.readHeader upset).startByHeader .warmPower sizeHigh := if_pos h

/-- A header that is bad, or that the DRAM did not keep, gives a cold start (R67). -/
theorem State.startByHeader_bad {upset : Bool} (warm : StartKind) (sizeHigh : Bool)
    (h : upset = true ∨ s.store.header.isGood = false) :
    (s.readHeader upset).startByHeader warm sizeHigh = (s.readHeader upset).coldStart .coldByHeader sizeHigh := by
  have hbad : (s.readHeader upset).store.header.isGood = false := by
    unfold State.readHeader
    split
    · exact StoreHeader.spoilt_isGood _
    next hu => exact h.resolve_left hu
  exact if_neg (by simp [hbad])

/-- Every cold start is `State.coldStart` of a state that keeps the clock, the command queue and the memory that is not
volatile. -/
theorem exec_coldStart {kind : StartKind} {sizeHigh upset : Bool}
    (h : (s.power = .off ∧ kind = .cold ∧ exec (.powerUp false sizeHigh false upset) s = .next t) ∨
      (s.power = .off ∧ kind = .coldByHeader ∧ (upset = true ∨ s.store.header.isGood = false) ∧
        exec (.powerUp true sizeHigh false upset) s = .next t) ∨
      (s.power = .inReset true ∧ s.standbyOk = false ∧ kind = .cold ∧ exec (.resetRelease sizeHigh upset) s = .next t) ∨
      (s.power = .inReset false ∧ kind = .coldByHeader ∧ (upset = true ∨ s.store.header.isGood = false) ∧
        exec (.resetRelease sizeHigh upset) s = .next t)) :
    ∃ r : State, t = r.coldStart kind sizeHigh ∧ r.now = s.now ∧ r.pending = s.pending ∧ r.engine = s.engine ∧
      r.meter = s.meter := by
  have hread : ∀ r : State, (r.readHeader upset).now = r.now ∧ (r.readHeader upset).pending = r.pending ∧
      (r.readHeader upset).engine = r.engine ∧ (r.readHeader upset).meter = r.meter := fun r => by
    unfold State.readHeader
    split <;> exact ⟨rfl, rfl, rfl, rfl⟩
  obtain ⟨hp, rfl, ht⟩ | ⟨hp, rfl, hbad, ht⟩ | ⟨hp, hlow, rfl, ht⟩ | ⟨hp, rfl, hbad, ht⟩ := h
  · rw [exec_powerUp_off _ _ _ hp, State.startAtPowerUp_low _ _ rfl] at ht
    exact ⟨_, (Host.Outcome.next.inj ht).symm, rfl, rfl, rfl, rfl⟩
  · rw [exec_powerUp_off _ _ _ hp, State.startAtPowerUp_high _ _ rfl,
      State.startByHeader_bad (s := { s with standbyOk := true }) _ _ hbad] at ht
    exact ⟨_, (Host.Outcome.next.inj ht).symm, hread { s with standbyOk := true }⟩
  · rw [exec_resetRelease_powerUp _ _ hp, State.startAtPowerUp_low _ _ hlow] at ht
    exact ⟨_, (Host.Outcome.next.inj ht).symm, rfl, rfl, rfl, rfl⟩
  · rw [exec_resetRelease_on _ _ hp, State.startByHeader_bad _ _ hbad] at ht
    exact ⟨_, (Host.Outcome.next.inj ht).symm, hread s⟩

theorem State.coldStart_lastStart (kind : StartKind) (sizeHigh : Bool) (s : State) :
    (s.coldStart kind sizeHigh).store.lastStart = kind := by
  rw [State.coldStart_eq]; rfl

/-- Settles O21. -/
theorem coldStart : Obligations.ColdStart := by
  intro sizeHigh upset s
  refine ⟨fun kind t n hn h => ?_, fun hp => ?_, fun hp => ?_, fun hp hlow => ?_⟩
  · obtain ⟨r, rfl, hnow, hpending, hengine, hmeter⟩ := exec_coldStart h
    rw [State.coldStart_eq, ← hnow, ← hpending, ← hengine, ← hmeter]
    obtain rfl : n = Config.slotCount sizeHigh := hn
    have hsettings := State.emptied_meter kind sizeHigh r
    exact ⟨rfl, rfl, rfl, Store.coldStart_eq _ _ _, rfl, rfl, rfl, rfl, rfl, rfl, rfl, by rw [hsettings], by rw [hsettings],
      by rw [hsettings], by rw [hsettings], by rw [hsettings], rfl, rfl, rfl,
      State.startLinks_attn _⟩
  · exact ⟨_, exec_powerUp_off _ _ _ hp, by rw [State.startAtPowerUp_low _ _ rfl, State.coldStart_lastStart]⟩
  · exact exec_powerUp_held _ _ _ hp
  · exact ⟨_, exec_resetRelease_powerUp _ _ hp, by rw [State.startAtPowerUp_low _ _ hlow, State.coldStart_lastStart]⟩

end Sys2Proof.Machine
end

