-- ==== Sys2Proof/Proofs/Holdings.lean ====
section
/-! PROOF. The catalogue and the allocator: records changed, put in and taken out, and the requests that discard a photograph
or claim a deposit (chapters 1, 2 and 3). -/

namespace Sys2Proof.Machine

variable {s s₁ t : State} {a b : Allocator} {c : Catalogue} {e x : Extent} {n m : Nat}

/-! ## Extents released and returned -/

theorem Allocator.giveBack_returned (h : a.find n = some e) : a.Returned n e (a.giveBack n) := by
  obtain ⟨hgone, hothers⟩ := Allocator.find_giveBack a n
  refine ⟨?_, hgone, hothers⟩
  unfold Allocator.giveBack
  rw [h]

theorem Allocator.modExtent_rewritten {f : Extent → Extent} (h : a.find n = some e) (hf : ∀ x, (f x).number = x.number) :
    a.Rewritten n (f e) (a.modExtent n f) :=
  ⟨rfl, by rw [Allocator.find_modExtent_same _ _ _ hf, h]; rfl, fun _ hm => Allocator.find_modExtent_other _ _ _ _ hf hm⟩

/-- What a release does with an extent of each state (R53). -/
theorem Allocator.release_moving (h : a.find n = some e) (hs : e.state = .moving) :
    a.Rewritten n { e with releasePending := true } (a.release n) := by
  have heq : a.release n = a.modExtent n fun e => { e with releasePending := true } := by
    simp [Allocator.release, h, hs]
  rw [heq]
  exact Allocator.modExtent_rewritten h (by intro _; rfl)
theorem Allocator.release_unused (h : a.find n = some e)
    (hs : e.state = .filling ∨ e.state = .building ∨ e.state = .live ∧ e.readers = 0) : a.Returned n e (a.release n) := by
  have heq : a.release n = a.giveBack n := by
    rcases hs with hs | hs | ⟨hs, hr⟩
    · simp [Allocator.release, h, hs]
    · simp [Allocator.release, h, hs]
    · simp [Allocator.release, h, hs, hr]
  rw [heq]
  exact Allocator.giveBack_returned h
theorem Allocator.release_read (h : a.find n = some e) (hs : e.state = .live) (hr : e.readers ≠ 0) :
    a.Rewritten n { e with state := .releasing } (a.release n) := by
  have heq : a.release n = a.modExtent n fun e => { e with state := .releasing } := by
    simp [Allocator.release, h, hs, hr]
  rw [heq]
  exact Allocator.modExtent_rewritten h (by intro _; rfl)

theorem Allocator.readersOf_eq (h : a.find n = some e) : a.readersOf n = e.readers := by
  simp [Allocator.readersOf, h]

/-! ## Photographs -/

theorem Catalogue.photo_erase (c : Catalogue) (id : Nat) :
    ({ c with photos := c.photos.filter (·.id ≠ id) } : Catalogue).photo id = none ∧
    ∀ other, other ≠ id → ({ c with photos := c.photos.filter (·.id ≠ id) } : Catalogue).photo other = c.photo other := by
  refine ⟨find_filter_gone _ _ _ fun y hy => ?_, fun other ho => find_filter_other _ _ _ fun y hy => ?_⟩
  · simpa using hy
  · simp at hy ⊢; omega

theorem State.removePhoto_eq {id : Nat} {p : Photo} (h : s.cat.photo id = some p) : s.removePhoto id =
    { s with cat := { s.cat with photos := s.cat.photos.filter (·.id ≠ id) }, alloc := s.alloc.release p.extent } := by
  unfold State.removePhoto
  rw [h]
  rfl

/-- Settles O26: the photograph's record is taken out and its extent released as its state says. -/
theorem discardPhoto : Obligations.DiscardPhoto := by
  unfold Obligations.DiscardPhoto
  intro tag ps fs id p s s₁ h hid hp
  have hphoto : s₁.cat.photo id = some p := by rw [h.cat]; exact hp
  have hpassed : p.state = .complete → p.refs = [] → p.pins = 0 → s.alloc.readersOf p.extent = 0 →
      exec (.discardPhoto .production tag ps) s =
        .next (((s₁.removePhoto id).reply .production tag { result := .ok }).transmit .production) := fun hs hr hn hreaders => by
    have hcheck : s₁.checkDiscard id = .ok () := by
      simp [State.checkDiscard, hphoto, hs, hr, hn, h.alloc, hreaders]
    exact exec_takenLocal (.discardPhoto .production tag ps) rfl rfl rfl h
      (by simp [bodyOfCommand, discardPhotoBody, hid, hcheck]; rfl)
  have hrefused : ∀ r, s₁.checkDiscard id = .error (Answer.refuse r) → exec (.discardPhoto .production tag ps) s =
      .next ((s₁.reply .production tag { result := r }).transmit .production) := fun r hcheck =>
    exec_takenLocal (.discardPhoto .production tag ps) rfl rfl rfl h
      (by simp [bodyOfCommand, discardPhotoBody, hid, hcheck]; rfl)
  obtain ⟨hgone, hothers⟩ := Catalogue.photo_erase s.cat id
  refine ⟨fun x hs hr hn hx hstate hreaders => ?_, fun x hs hr hn hx hstate hreaders => ?_, fun hs => ?_, fun hs hused => ?_⟩
  · obtain ⟨heq, hnone, hkept⟩ := Allocator.release_unused hx (.inr (.inr ⟨hstate, hreaders⟩))
    refine ⟨_, hpassed hs hr hn (by rw [Allocator.readersOf_eq hx, hreaders]), ?_⟩
    rw [State.removePhoto_eq hphoto, h.cat, h.alloc]
    refine ⟨?_, hgone, hothers, hnone, hkept⟩
    rw [← heq]
  · refine ⟨_, hpassed hs hr hn (by rw [Allocator.readersOf_eq hx, hreaders]), ?_⟩
    rw [State.removePhoto_eq hphoto, h.cat, h.alloc]
    exact ⟨rfl, hgone, hothers, Allocator.release_moving hx hstate⟩
  · exact hrefused _ (by simp [State.checkDiscard, hphoto, hs])
  · exact hrefused _ (by simp [State.checkDiscard, hphoto, hs, h.alloc]; tauto)

/-! ## Claims of a deposit slot -/

/-- The lowest of the four for which a test holds is the one found. -/
theorem find_fourIndices {q : Fin 4 → Bool} {i : Fin 4} (hi : q i = true) (hbefore : ∀ j, j < i → q j = false) :
    fourIndices.find? q = some i := by
  fin_cases i
  · simp_all [fourIndices]
  · simp_all [fourIndices, hbefore 0 (by decide)]
  · simp_all [fourIndices, hbefore 0 (by decide), hbefore 1 (by decide)]
  · simp_all [fourIndices, hbefore 0 (by decide), hbefore 1 (by decide), hbefore 2 (by decide)]

theorem DepositPort.freeSlot_eq {p : DepositPort} {i : Fin 4} (h : p.slots.get i = none)
    (hbefore : ∀ j, j < i → p.slots.get j ≠ none) : p.freeSlot = some i :=
  find_fourIndices (by rw [h]; rfl) fun j hj => Option.isNone_eq_false_iff.mpr (Option.isSome_iff_ne_none.mpr (hbefore j hj))

theorem State.depositRoom_eq {i : Fin 4} {size first : Nat} (hi : s.port.freeSlot = some i)
    (hplace : s.alloc.place size = .ok first) : s.depositRoom size = .ok (i, first) := by
  simp [State.depositRoom, hi, hplace]

theorem State.claimSlot_slots (i : Fin 4) (target : Target) (extent total : Nat) (s : State) :
    (s.claimSlot i target extent total).2.port.slots = s.port.slots.set i (some
      { handle := s.port.nextHandle, target, extent, total, next := 0, finishing := false
        expires := some (s.now + s.port.timeout * Config.second), checkRefusals := 0, orderRefusals := 0 }) := rfl

/-- The port after a claim, and what the slot then holds (R24, R25, R31). -/
theorem State.claimSlot_port (i : Fin 4) (target : Target) (extent total : Nat) (s : State) :
    (s.claimSlot i target extent total).2.port.slots.get i = some
      { handle := s.port.nextHandle, target, extent, total, next := 0, finishing := false
        expires := some (s.now + s.port.timeout * Config.second), checkRefusals := 0, orderRefusals := 0 } ∧
    ∀ j, j ≠ i → (s.claimSlot i target extent total).2.port.slots.get j = s.port.slots.get j := by
  refine ⟨Four.get_set_same _ _ _, fun j hj => Four.get_set_other _ _ _ _ hj⟩

/-- Settles O28. -/
theorem depositPhoto : Obligations.DepositPhoto := by
  unfold Obligations.DepositPhoto
  intro tag ps fs id w h cls first i s s₁ ht hid hw hh hcls hid1 hw1 hw32 hh1 hh32 hcls15 hnone hroom hslot hbefore hplace
  have hcheck : s₁.checkDepositPhoto id w h cls = .ok (i, first) := by
    have hrange : photoInRange id w h cls = true := by simp [photoInRange, *]
    have hfull : ¬Config.maxPhotos ≤ s.cat.photos.length := by simpa [Config.maxPhotos] using hroom
    have hport : s₁.depositRoom (w * h) = .ok (i, first) :=
      State.depositRoom_eq (by rw [ht.port]; exact DepositPort.freeSlot_eq hslot hbefore) (by rw [ht.alloc]; exact hplace)
    simp [State.checkDepositPhoto, hrange, ht.cat, hnone, hfull, hport]
  let taken := s₁.takeDepositPhoto id w h cls i first
  have hbody : bodyOfCommand (.depositPhoto .production tag ps) fs s₁ = taken := by
    simp [bodyOfCommand, depositPhotoBody, hid, hw, hh, hcls, hcheck, taken]
  have hanswer : taken.1 = { result := .accepted, fields := [.one s.port.nextHandle] } := by
    rw [← ht.port]; rfl
  have hexec := exec_takenDeposit (.depositPhoto .production tag ps) rfl rfl rfl ht (hbody.trans (Prod.eta taken).symm)
  rw [hanswer] at hexec
  let photo : Photo := { id, width := w, height := h, cls, extent := s₁.alloc.freshNumber }
  have hcat : taken.2.cat = { s.cat with photos := insertPhoto photo s.cat.photos } := by rw [← ht.cat]; rfl
  have halloc : taken.2.alloc = (s.alloc.occupy first (w * h) (.photo id) .filling).2 := by rw [← ht.alloc]; rfl
  have hphotos := insertPhoto_inserted photo s.cat.photos
  obtain ⟨hext, hexts⟩ := Allocator.find_occupy s.alloc first (w * h) (.photo id) .filling
  obtain ⟨hclaimed, hslots⟩ := State.claimSlot_port i (.photo id) s.alloc.freshNumber (w * h) s
  have hport : taken.2.port.slots = (s.claimSlot i (.photo id) s.alloc.freshNumber (w * h)).2.port.slots := by
    rw [State.claimSlot_slots, ← ht.alloc, ← ht.port, ← ht.now]; rfl
  refine ⟨taken.2, hexec, ?_, ?_, fun other ho => ?_, ?_, fun n hn => ?_, ?_, fun j hj => ?_⟩
  · simp only [← ht.cat, ← ht.alloc, ← ht.port]; rfl
  · rw [hcat]
    exact (hphotos.find_new (by simp [photo]) hnone).trans (by rw [← ht.alloc])
  · rw [hcat]
    exact hphotos.find_other (by simpa [photo] using Ne.symm ho)
  · rw [halloc]; exact hext
  · rw [halloc]; exact hexts n hn
  · rw [hport]; exact hclaimed
  · rw [hport]; exact hslots j hj

/-! ## References of revisions to photographs -/

theorem Catalogue.addRefs_editions (r : RevName) (ids : List Nat) (c : Catalogue) : (c.addRefs r ids).editions = c.editions :=
  List.foldlRecOn ids _ (motive := fun d : Catalogue => d.editions = c.editions) rfl fun _ h _ _ => h
theorem Catalogue.dropRefs_editions (r : RevName) (ids : List Nat) (c : Catalogue) : (c.dropRefs r ids).editions = c.editions :=
  List.foldlRecOn ids _ (motive := fun d : Catalogue => d.editions = c.editions) rfl fun _ h _ _ => h

/-- A reference joins the list of each photograph named (R12). -/
theorem Catalogue.photo_addRefs (r : RevName) {ids : List Nat} (hids : ids.Nodup) (c : Catalogue) (id : Nat) :
    (c.addRefs r ids).photo id = (c.photo id).map fun p => if id ∈ ids then { p with refs := p.refs ++ [r] } else p := by
  induction ids generalizing c with
  | nil => simp [Catalogue.addRefs]
  | cons x xs ih =>
    obtain ⟨hx, hxs⟩ := List.nodup_cons.mp hids
    have hstep : c.addRefs r (x :: xs) = (c.modPhoto x fun p => { p with refs := p.refs ++ [r] }).addRefs r xs := rfl
    rw [hstep, ih hxs]
    by_cases h : id = x
    · subst h
      rw [Catalogue.photo_modPhoto_same _ _ _ (by intro _; rfl), Option.map_map]
      simp [hx, Function.comp_def]
    · rw [Catalogue.photo_modPhoto_other _ _ _ _ (by intro _; rfl) h]
      simp [h]

/-- The references of a revision leave the list of each photograph named (R14). -/
theorem Catalogue.photo_dropRefs (r : RevName) (ids : List Nat) (c : Catalogue) (id : Nat) :
    (c.dropRefs r ids).photo id =
      (c.photo id).map fun p => if id ∈ ids then { p with refs := p.refs.filter (· ≠ r) } else p := by
  induction ids generalizing c with
  | nil => simp [Catalogue.dropRefs]
  | cons x xs ih =>
    have hstep : c.dropRefs r (x :: xs) = (c.modPhoto x fun p => { p with refs := p.refs.filter (· ≠ r) }).dropRefs r xs := rfl
    rw [hstep, ih]
    by_cases h : id = x
    · subst h
      rw [Catalogue.photo_modPhoto_same _ _ _ (by intro _; rfl), Option.map_map]
      simp [Function.comp_def]
    · rw [Catalogue.photo_modPhoto_other _ _ _ _ (by intro _; rfl) h]
      simp [h]

theorem Catalogue.edition_of_editions {d : Catalogue} (h : d.editions = c.editions) (id : Nat) : d.edition id = c.edition id := by
  rw [Catalogue.edition, h]; rfl
theorem Catalogue.revision_of_editions {d : Catalogue} (h : d.editions = c.editions) (r : RevName) :
    d.revision r = c.revision r := by
  rw [Catalogue.revision, Catalogue.edition_of_editions h]; rfl

theorem Catalogue.revision_eq {e : Edition} {p : Page} {r : RevName} (he : c.edition r.edition = some e)
    (hp : e.page r.page = some p) : c.revision r = p.rev r.revision := by
  simp [Catalogue.revision, he, hp]

/-- A change of one edition leaves the revisions of every other one. -/
theorem Catalogue.revision_modEdition_other {f : Edition → Edition} {id : Nat} (hf : ∀ x, (f x).id = x.id) {r : RevName}
    (h : r.edition ≠ id) : (c.modEdition id f).revision r = c.revision r := by
  rw [Catalogue.revision, Catalogue.edition_modEdition_other _ _ _ _ hf h]; rfl

theorem Catalogue.edition_modEdition_some {e : Edition} {f : Edition → Edition} {id : Nat} (hf : ∀ x, (f x).id = x.id)
    (h : c.edition id = some e) : (c.modEdition id f).edition id = some (f e) := by
  rw [Catalogue.edition_modEdition_same _ _ _ hf, h]; rfl

/-- The photographs that a deposit names pass their checks (Table 1-3). -/
theorem Catalogue.checkPhotos_passed {ids : List Nat} (hlen : ids.length ≤ 12) (hnodup : ids.Nodup) (hzero : 0 ∉ ids)
    (hall : ∀ id ∈ ids, ∃ p, c.photo id = some p ∧ p.state = .complete ∧ p.refs.length < 8) : c.checkPhotos ids = none := by
  have hfound : (ids.filterMap c.photo).length = ids.length := by
    rw [List.filterMap_length_eq_length]
    exact fun id hid => by obtain ⟨p, hp, -⟩ := hall id hid; rw [hp]; rfl
  have hmem : ∀ p ∈ ids.filterMap c.photo, p.state = .complete ∧ p.refs.length < 8 := fun p hp => by
    obtain ⟨id, hid, hpid⟩ := List.mem_filterMap.mp hp
    obtain ⟨q, hq, hstate, hrefs⟩ := hall id hid
    rw [hq] at hpid
    exact Option.some.inj hpid ▸ ⟨hstate, hrefs⟩
  have hbad : ¬(12 < ids.length ∨ 0 ∈ ids ∨ ¬ids.Nodup) := by
    rw [not_or, not_or, not_not]
    exact ⟨by omega, hzero, hnodup⟩
  have hfilling : (ids.filterMap c.photo).any (·.state = .filling) = false := by
    rw [List.any_eq_false]
    intro p hp
    simp [(hmem p hp).1]
  have hfull : (ids.filterMap c.photo).any (8 ≤ ·.refs.length) = false := by
    rw [List.any_eq_false]
    intro p hp
    have := (hmem p hp).2
    simpa using this
  simp only [Catalogue.checkPhotos, if_neg hbad, hfound, ne_eq, not_true_eq_false, if_false, hfilling, hfull, Bool.false_eq_true]

/-! ## A new page -/

/-- The revisions of an edition that a page entry has joined: the new page's, and the others as they were (R5, R26). -/
theorem Catalogue.revision_insertPage {e : Edition} {p : Page} {id : Nat} {f : Nat → Nat} (he : c.edition id = some e)
    (hnone : e.page p.number = none) (r : RevName) :
    (c.modEdition id fun e => { e with pages := insertPage p e.pages, filling := f e.filling }).revision r =
      if r.edition = id ∧ r.page = p.number then p.rev r.revision else c.revision r := by
  have hins := insertPage_inserted p e.pages
  by_cases hid : r.edition = id
  · subst hid
    have hnew := Catalogue.edition_modEdition_some (f := fun e : Edition =>
      { e with pages := insertPage p e.pages, filling := f e.filling }) (by intro _; rfl) he
    by_cases hpage : r.page = p.number
    · rw [if_pos ⟨rfl, hpage⟩]
      exact Catalogue.revision_eq hnew (by rw [hpage]; exact hins.find_new (by simp) hnone)
    · rw [if_neg fun h => hpage h.2, Catalogue.revision, Catalogue.revision, hnew, he]
      have hpages : (insertPage p e.pages).find? (·.number = r.page) = e.page r.page :=
        hins.find_other (by simpa using Ne.symm hpage)
      simp only [Option.bind_some, Edition.page, hpages]
  · rw [if_neg fun h => hid h.1]
    exact Catalogue.revision_modEdition_other (by intro _; rfl) hid

/-- Settles O27. -/
theorem depositPage : Obligations.DepositPage := by
  unfold Obligations.DepositPage
  intro tag ps fs ed pg w h cls first photos e i s s₁ ht hed hpg hw hh hcls hphotos he hopen hnopage hpg1 hpg160 hw1 hw40 hh1
    hh56 hcls15 hlen hnodup hzero hall hslot hbefore hroom hplace
  have hcheck : s₁.checkDepositPage ed pg w h cls photos = .ok (i, first) := by
    have hrange : pageInRange pg w h cls = true := by simp [pageInRange, *]
    have hfull : ¬Config.maxPages ≤ s.cat.pageCount := by simpa [Config.maxPages] using hroom
    have hfree := DepositPort.freeSlot_eq hslot hbefore
    have hport : s₁.depositRoom (w * h) = .ok (i, first) :=
      State.depositRoom_eq (by rw [ht.port]; exact hfree) (by rw [ht.alloc]; exact hplace)
    simp [State.checkDepositPage, ht.cat, he, hopen, EditionState.refusesDeposit, hrange, hnopage,
      Catalogue.checkPhotos_passed hlen hnodup hzero hall, ht.port, hfree, hfull, hport]
  let taken := s₁.takeDepositPage ed pg w h cls photos i first
  have hbody : bodyOfCommand (.depositPage .production tag ps) fs s₁ = taken := by
    simp [bodyOfCommand, depositPageBody, hed, hpg, hw, hh, hcls, hphotos, hcheck, taken]
  have hanswer : taken.1 = { result := .accepted, fields := [.one s.port.nextHandle] } := by
    rw [← ht.port]; rfl
  have hexec := exec_takenDeposit (.depositPage .production tag ps) rfl rfl rfl ht (hbody.trans (Prod.eta taken).symm)
  rw [hanswer] at hexec
  let page : Page := { number := pg, revs := [Revision.fresh 0 w h cls s₁.alloc.freshNumber photos], lastIssued := 0 }
  have hcat : taken.2.cat = (s.cat.addRefs ⟨ed, pg, 0⟩ photos).modEdition ed fun e =>
      { e with pages := insertPage page e.pages, filling := e.filling + 1 } := by rw [← ht.cat]; rfl
  have hedition : (s.cat.addRefs ⟨ed, pg, 0⟩ photos).edition ed = some e := by
    rw [Catalogue.edition_of_editions (Catalogue.addRefs_editions _ _ _), he]
  have hnew : taken.2.cat.edition ed =
      some { e with pages := insertPage page e.pages, filling := e.filling + 1 } := by
    rw [hcat]
    exact Catalogue.edition_modEdition_some (by intro _; rfl) hedition
  have hrevs : ∀ r, taken.2.cat.revision r = if r.edition = ed ∧ r.page = pg then page.rev r.revision else s.cat.revision r := by
    intro r
    rw [hcat]
    exact (Catalogue.revision_insertPage (f := (· + 1)) hedition hnopage r).trans
      (by rw [Catalogue.revision_of_editions (Catalogue.addRefs_editions _ _ _)])
  have halloc : taken.2.alloc = (s.alloc.occupy first (w * h) (.raw ⟨ed, pg, 0⟩) .filling).2 := by rw [← ht.alloc]; rfl
  obtain ⟨hext, hexts⟩ := Allocator.find_occupy s.alloc first (w * h) (.raw ⟨ed, pg, 0⟩) .filling
  obtain ⟨hclaimed, hslots⟩ := State.claimSlot_port i (.page ⟨ed, pg, 0⟩) s.alloc.freshNumber (w * h) s
  have hport : taken.2.port.slots = (s.claimSlot i (.page ⟨ed, pg, 0⟩) s.alloc.freshNumber (w * h)).2.port.slots := by
    rw [State.claimSlot_slots, ← ht.alloc, ← ht.port, ← ht.now]; rfl
  refine ⟨taken.2, hexec, rfl, ?_, fun r hr => ?_, by rw [hnew]; rfl, by rw [hnew, ← hopen]; rfl, fun other ho => ?_,
    fun id p hp => ?_, by rw [halloc]; rfl, s.alloc.freshNumber_free, by rw [halloc]; exact hext,
    fun n hn => by rw [halloc]; exact hexts n hn, by rw [hport]; exact hclaimed,
    fun j hj => by rw [hport]; exact hslots j hj, by rw [← ht.port]; rfl⟩
  · rw [hrevs, if_pos ⟨rfl, rfl⟩, ← ht.alloc]
    rfl
  · rw [hrevs]
    split
    next hp =>
      obtain ⟨hre, hrp⟩ := hp
      have hold : s.cat.revision r = none := by
        rw [Catalogue.revision, hre, he, Option.bind_some, hrp, hnopage]; rfl
      rw [hold]
      have hnum : r.revision ≠ 0 := fun h0 => hr (by cases r; simp_all)
      simp [Page.rev, page, Revision.fresh, Ne.symm hnum]
    next => rfl
  · rw [hcat, Catalogue.edition_modEdition_other _ _ _ _ (by intro _; rfl) ho]
    exact Catalogue.edition_of_editions (Catalogue.addRefs_editions _ _ _) other
  · rw [hcat]
    exact (Catalogue.photo_addRefs _ hnodup s.cat id).trans (by rw [hp]; rfl)

end Sys2Proof.Machine
end

