-- ==== Sys2Proof/Proofs/Deposits.lean ====
section
/-! PROOF. The deposit port: tile frames taken, and deposits that complete or are aborted (chapter 2). -/

namespace Sys2Proof.Machine

variable {s s₁ t : State} {st : Store} {c : Catalogue} {x : Tile}

/-! ## The receiver's tile frame -/

theorem State.tilePassable_iff : s.tilePassable = true ↔ s.port.buffer = none ∧ s.production.replies.length < 2 := by
  simp [State.tilePassable, Link.placeFree_iff]

theorem DepositPort.find_some {p : DepositPort} {h : Nat} {k : Fin 4} {d : Deposit} (hf : p.find h = some (k, d)) :
    p.slots.get k = some d ∧ d.handle = h := by
  unfold DepositPort.find DepositPort.numbered at hf
  rw [List.findSome?_map] at hf
  obtain ⟨i, -, hi⟩ := List.exists_of_findSome?_eq_some hf
  simp only [Function.comp_apply] at hi
  split at hi
  next d' hd =>
    split at hi
    next hh =>
      obtain ⟨rfl, rfl⟩ := Prod.mk.inj (Option.some.inj hi)
      exact ⟨hd, hh⟩
    next => cases hi
  next => cases hi

theorem exec_tileFrame {ws : List Word} {h i : Nat} (hp : s.power = .running) (hs : sortFrame .production ws = .tile h i x)
    (hheld : s.production.held = none) : exec (.tileFrame ws) s =
      if s.tilePassable then .next (s.passTile h i x).settle
      else .next (s.setLink .production { s.production with held := some (.tile h i x) }) := by
  show execTileFrame ws s = _
  rw [execTileFrame, whenRunning_of_running hp]
  simp only [hs, hheld]
  rfl

@[simp] theorem Store.ask_waiting (now : Nat) (y : Transfer) (st : Store) : (st.ask now y).waiting = st.waiting ++ [y] := by
  unfold Store.ask; dsimp only; split <;> rfl
@[simp] theorem Store.ask_mem (now : Nat) (y : Transfer) (st : Store) : (st.ask now y).mem = st.mem := by
  unfold Store.ask; dsimp only; split <;> rfl
@[simp] theorem Store.ask_inFlight (now : Nat) (y : Transfer) (st : Store) : (st.ask now y).inFlight = st.inFlight := by
  unfold Store.ask; dsimp only; split <;> rfl

/-- What the port makes of a frame of a slot that refuses it (R28). -/
theorem State.passTile_refused {h i : Nat} {k : Fin 4} {d : Deposit} {r : Result} (hf : s.port.find h = some (k, d))
    (hr : d.check i x = some r) :
    s.passTile h i x = (s.modPort (·.setSlot k (some (d.refused r)))).reply .production 0 (tileReply r h i) := by
  simp only [State.passTile, State.takeTile, hf, hr]

/-- Settles O30: the checks of a frame in order, each with what it leaves. -/
theorem tileFrame : Obligations.TileFrame := by
  unfold Obligations.TileFrame
  intro ws h i x s hp hs hheld
  have hexec := exec_tileFrame hp hs hheld
  refine ⟨fun hfull => ?_, fun hb hplace => ?_⟩
  · rw [hexec, if_neg]
    rw [State.tilePassable_iff]
    exact fun hpass => hfull.elim (absurd hpass.1) (by omega)
  · rw [if_pos (State.tilePassable_iff.mpr ⟨hb, hplace⟩)] at hexec
    refine ⟨fun hf => ?_, fun k d hf hbad => ?_, fun k d hf hfin hi hbad => ?_, fun k d e hf hfin hi hgood he => ?_⟩
    · rw [hexec]
      simp only [State.passTile, State.takeTile, hf]
      rfl
    · have hcheck : d.check i x = some .tileOrder := if_pos (by simpa using hbad)
      rw [hexec, State.passTile_refused hf hcheck]
      rfl
    · have hcheck : d.check i x = some .checkError := by simp [Deposit.check, hfin, hi, hbad]
      rw [hexec, State.passTile_refused hf hcheck]
      rfl
    · have hcheck : d.check i x = none := by simp [Deposit.check, hfin, hi, hgood]
      have hpass : s.passTile h i x = (((s.modPort fun p =>
          { p.setSlot k (some (d.accept s.idleEnd)) with buffer := some ⟨h, i, x⟩ }).modStore
          (Store.ask s.now ⟨.deposit, e.first + i, .write x.bytes (some x.check)⟩)).reply .production 0 (tileReply .ok h i)) := by
        simp only [State.passTile, State.takeTile, hf, hcheck, he]
        rfl
      refine ⟨_, hexec.trans (by rw [hpass]; rfl), rfl, ?_, fun j hj => Four.get_set_other _ _ _ _ hj, ?_, ?_, ?_⟩
      · refine (Four.get_set_same _ _ _).trans ?_
        unfold Deposit.accept
        rw [hi]
        split <;> rfl
      · exact Store.ask_mem _ _ _
      · exact Store.ask_inFlight _ _ _
      · exact Store.ask_waiting _ _ _

/-! ## Sources after an event -/

theorem State.raise_source_same (n : Notice) (s : State) : ((s.raise n).link n.link).notices.sources[n.number]? =
    ((s.link n.link).notices.sources[n.number]?).map fun src => { src with latched := true } := by
  simp [State.raise, State.modNotices, Controller.modify]
theorem State.raise_source_other {n : Notice} {l : LinkId} {m : Nat} (h : l = n.link → m ≠ n.number) (s : State) :
    ((s.raise n).link l).notices.sources[m]? = (s.link l).notices.sources[m]? := by
  by_cases hl : l = n.link
  · subst hl
    simp [State.raise, State.modNotices, Controller.modify, Ne.symm (h rfl)]
  · rw [State.raise, State.modNotices, State.setLink_link_other _ _ _ _ hl]

/-- An event of the production link changes that link alone. -/
theorem State.raise_production {n : Notice} (h : n.link = .production) (s : State) :
    s.raise n = { s with production := (s.raise n).production } := by
  rw [State.raise, h]; rfl

/-! ## The end of a fill (R41) -/

theorem Catalogue.revision_modEdition_pages {f : Edition → Edition} {id : Nat} (hf : ∀ x, (f x).id = x.id)
    (hp : ∀ x, (f x).pages = x.pages) (r : RevName) : (c.modEdition id f).revision r = c.revision r := by
  by_cases h : r.edition = id
  · rw [Catalogue.revision, Catalogue.revision, h, Catalogue.edition_modEdition_same _ _ _ hf]
    cases c.edition id with
    | none => rfl
    | some e => simp only [Option.map_some, Option.bind_some, Edition.page, hp]
  · exact Catalogue.revision_modEdition_other hf h

/-- The edition's fills are all done while it closes. -/
abbrev Edition.closes (e : Edition) : Prop := e.state = .closing ∧ e.filling = 0

theorem State.closeIfDone_closing {e : Edition} {ed : Nat} (he : s.cat.edition ed = some e) (h : e.closes) : s.closeIfDone ed =
    (s.modCat (·.modEdition ed fun e => { e with state := .closed })).raise .closeDone := by
  unfold State.closeIfDone
  rw [he]
  exact if_pos h
theorem State.closeIfDone_other {e : Edition} {ed : Nat} (he : s.cat.edition ed = some e) (h : ¬e.closes) :
    s.closeIfDone ed = s := by
  unfold State.closeIfDone
  rw [he]
  exact if_neg h
theorem State.closeIfDone_none {ed : Nat} (he : s.cat.edition ed = none) : s.closeIfDone ed = s := by
  unfold State.closeIfDone
  rw [he]

theorem State.closeIfDone_frame (ed : Nat) (s : State) :
    s.closeIfDone ed = { s with cat := (s.closeIfDone ed).cat, production := (s.closeIfDone ed).production } := by
  cases he : s.cat.edition ed with
  | none => rw [State.closeIfDone_none he]
  | some e =>
    by_cases h : e.closes
    · rw [State.closeIfDone_closing he h]; rfl
    · rw [State.closeIfDone_other he h]

theorem State.closeIfDone_revision (ed : Nat) (s : State) (r : RevName) :
    (s.closeIfDone ed).cat.revision r = s.cat.revision r := by
  cases he : s.cat.edition ed with
  | none => rw [State.closeIfDone_none he]
  | some e =>
    by_cases h : e.closes
    · rw [State.closeIfDone_closing he h]
      exact Catalogue.revision_modEdition_pages (by intro _; rfl) (by intro _; rfl) r
    · rw [State.closeIfDone_other he h]

theorem State.closeIfDone_edition {e : Edition} {ed : Nat} (he : s.cat.edition ed = some e) :
    (s.closeIfDone ed).cat.edition ed = some { e with state := if e.closes then .closed else e.state } := by
  by_cases h : e.closes
  · rw [State.closeIfDone_closing he h, if_pos h]
    exact Catalogue.edition_modEdition_some (by intro _; rfl) he
  · rw [State.closeIfDone_other he h, if_neg h, he]

theorem State.closeIfDone_source {e : Edition} {ed : Nat} (he : s.cat.edition ed = some e) (m : Nat) :
    (s.closeIfDone ed).production.notices.sources[m]? = (s.production.notices.sources[m]?).map fun src =>
      if e.closes ∧ m = 2 then { src with latched := true } else src := by
  by_cases h : e.closes
  · rw [State.closeIfDone_closing he h]
    by_cases hm : m = 2
    · subst hm
      have hboth : e.closes ∧ 2 = 2 := ⟨h, rfl⟩
      exact (State.raise_source_same .closeDone _).trans (congrArg (Option.map · _) (funext fun _ => (if_pos hboth).symm))
    · simp only [hm, and_false, if_false, Option.map_id']
      exact State.raise_source_other (n := .closeDone) (l := .production) (fun _ => hm) _
  · rw [State.closeIfDone_other he h]
    simp [h]

theorem State.closeIfDone_source_other (ed : Nat) (s : State) {m : Nat} (hm : m ≠ 2) :
    (s.closeIfDone ed).production.notices.sources[m]? = s.production.notices.sources[m]? := by
  cases he : s.cat.edition ed with
  | none => rw [State.closeIfDone_none he]
  | some e =>
    have hnot : ¬(e.closes ∧ m = 2) := fun h => hm h.2
    rw [State.closeIfDone_source he]
    simp only [if_neg hnot, Option.map_id']

/-! ## Transfers that end -/

theorem whenEnds_of {granted : Option Transfer} {mine : Transfer → Bool} {f : Transfer → State → State} {y : Transfer}
    (hp : s.power = .running) (hg : granted = some y) (hm : mine y = true) (hs : y.slot < s.store.slotCount) :
    whenEnds s granted mine f = .next (f y s).settle := by
  rw [whenEnds, whenRunning_of_running hp, hg]
  simp only [hm, if_true, if_neg (Nat.not_le_of_lt hs)]

theorem whenCompletes_of {mine : Transfer → Bool} {f : Transfer → State → State} {y : Transfer} (hp : s.power = .running)
    (hg : s.store.inFlight = some y) (hm : mine y = true) (hs : y.slot < s.store.slotCount) :
    whenCompletes s mine f = .next (f y (s.modStore (Store.complete y))).settle := whenEnds_of hp hg hm hs

theorem whenWithdrawnEnds_of {mine : Transfer → Bool} {f : Transfer → State → State} {y : Transfer} (hp : s.power = .running)
    (hg : s.store.withdrawn = some y) (hm : mine y = true) (hs : y.slot < s.store.slotCount) :
    whenWithdrawnEnds s mine f = .next (f y (s.modStore Store.endWithdrawn)).settle := whenEnds_of hp hg hm hs

/-- A write of a whole tile with its check word changes its slot to that tile, and no other slot (R69). -/
theorem Memory.readSlot_written {bytes : List Byte} (check : Word) (hlen : bytes.length = 4096) (m : List Host.Cell) (slot : Nat) :
    Memory.readSlot (Memory.writeSlot m slot (writtenTile bytes (some check))) slot = ⟨bytes, check⟩ := by
  have hfit : fitTile bytes = bytes := by
    have : tileBytes = 4096 := rfl
    simp [fitTile, this, hlen, List.take_of_length_le]
  rw [Memory.readSlot_writeSlot]
  simp only [writtenTile, hfit]

/-! ## A deposit that completes (R30) -/

theorem Catalogue.edition_of_revision {r : RevName} {v : Revision} (h : c.revision r = some v) :
    ∃ e, c.edition r.edition = some e := by
  cases he : c.edition r.edition with
  | none => rw [Catalogue.revision, he] at h; cases h
  | some e => exact ⟨e, rfl⟩

theorem DepositPort.addEnded_last (e : EndedDeposit) (p : DepositPort) : (p.addEnded e).ended.getLast? = some e := by
  simp [DepositPort.addEnded]

/-- What the completion of a target changes: the catalogue, and CLOSE_DONE when an edition closes. -/
theorem State.completeTarget_frame (target : Target) (s : State) : s.completeTarget target =
    { s with cat := (s.completeTarget target).cat, production := (s.completeTarget target).production } := by
  cases target with
  | page r =>
    refine (State.closeIfDone_frame _ _).trans ?_
    rfl
  | photo id => rfl

/-- The catalogue and the sources after the last tile of a page's deposit (R30, R41). -/
theorem State.completeTarget_page {r : RevName} {v : Revision} {e : Edition} (hv : s.cat.revision r = some v)
    (he : s.cat.edition r.edition = some e) :
    (s.completeTarget (.page r)).cat.revision r = some { v with state := .complete } ∧
    (∃ ps, (s.completeTarget (.page r)).cat.edition r.edition = some { e with
      pages := ps, filling := e.filling - 1, state := if e.state = .closing ∧ e.filling ≤ 1 then .closed else e.state }) ∧
    ∀ m : Nat, (s.completeTarget (.page r)).production.notices.sources[m]? =
      (s.production.notices.sources[m]?).map fun src =>
        if (e.state = .closing ∧ e.filling ≤ 1) ∧ m = 2 then { src with latched := true } else src := by
  let c₁ := s.cat.modRevision r fun v => { v with state := .complete }
  have hrev : c₁.revision r = some { v with state := .complete } := by
    rw [Catalogue.revision_modRevision_same _ _ _ (by intro _; rfl), hv]; rfl
  obtain ⟨ps, hps⟩ := Catalogue.edition_modRevision s.cat r (fun v => { v with state := .complete }) _ e he
  let u : State := (s.modCat (·.modRevision r fun v => { v with state := .complete })).modCat
    (·.modEdition r.edition fun e => { e with filling := e.filling - 1 })
  have hed : u.cat.edition r.edition = some { e with pages := ps, filling := e.filling - 1 } :=
    Catalogue.edition_modEdition_some (c := c₁) (by intro _; rfl) hps
  have hcloses : (e.state = .closing ∧ e.filling - 1 = 0) ↔ (e.state = .closing ∧ e.filling ≤ 1) := by
    rw [Nat.sub_eq_zero_iff_le]
  refine ⟨?_, ⟨ps, ?_⟩, fun m => ?_⟩
  · refine (State.closeIfDone_revision _ _ _).trans ?_
    exact (Catalogue.revision_modEdition_pages (c := c₁) (by intro _; rfl) (by intro _; rfl) r).trans hrev
  · refine (State.closeIfDone_edition (s := u) hed).trans ?_
    simp only [Edition.closes, hcloses]
  · refine (State.closeIfDone_source (s := u) hed m).trans ?_
    simp only [Edition.closes, hcloses]
    rfl

theorem State.completeTarget_source_other (target : Target) (s : State) {m : Nat} (hm : m ≠ 2) :
    (s.completeTarget target).production.notices.sources[m]? = s.production.notices.sources[m]? := by
  cases target with
  | page r => exact State.closeIfDone_source_other _ _ hm
  | photo id => rfl

/-- The last tile of a FINISHING deposit is written, and its deposit completes (R30). -/
theorem State.tileWritten_last {b : BufferedTile} {k : Fin 4} {d : Deposit} (hb : s.port.buffer = some b)
    (hd : s.port.find b.handle = some (k, d)) (hlast : d.finishing = true ∧ b.index + 1 = d.total) :
    s.tileWritten = (s.modPort fun p => { p with buffer := none }).completeDeposit k d := by
  unfold State.tileWritten
  rw [hb]
  have hfind : (s.modPort fun p => { p with buffer := none }).port.find b.handle = some (k, d) := hd
  simp only [hfind]
  exact if_pos hlast
theorem State.tileWritten_more {b : BufferedTile} {k : Fin 4} {d : Deposit} (hb : s.port.buffer = some b)
    (hd : s.port.find b.handle = some (k, d)) (hmore : d.finishing = false ∨ b.index + 1 ≠ d.total) :
    s.tileWritten = s.modPort fun p => { p with buffer := none } := by
  unfold State.tileWritten
  rw [hb]
  have hfind : (s.modPort fun p => { p with buffer := none }).port.find b.handle = some (k, d) := hd
  simp only [hfind]
  refine if_neg fun hlast => ?_
  rcases hmore with hmore | hmore
  · exact Bool.false_ne_true (hmore.symm.trans hlast.1)
  · exact hmore hlast.2

/-- What a completed deposit leaves as it was. -/
theorem State.completeDeposit_frame (k : Fin 4) (d : Deposit) (s : State) : s.completeDeposit k d = { s with
    cat := (s.completeDeposit k d).cat
    alloc := s.alloc.modExtent d.extent fun e => { e with state := .live }
    port := (s.port.setSlot k none).addEnded (d.toEnded .done)
    production := (s.completeDeposit k d).production } := by
  refine (State.raise_production rfl _).trans ?_
  rw [State.completeTarget_frame]
  rfl

/-- Settles O31. -/
theorem tileWriteComplete : Obligations.TileWriteComplete := by
  unfold Obligations.TileWriteComplete
  refine ⟨fun y s hp hw hc hslot => ?_, fun slot bytes check b k d s hp hw hf hslot hlen hb hd => ?_⟩
  · show execTileWriteComplete s = _
    rw [execTileWriteComplete, if_pos (by rw [hw]; rfl)]
    exact whenWithdrawnEnds_of hp hw (by simp [Transfer.ofPort, hc]) hslot
  · let y : Transfer := ⟨.deposit, slot, .write bytes (some check)⟩
    let u := s.modStore (Store.complete y)
    have hexec : exec .tileWriteComplete s = .next u.tileWritten.passHeldTile.settle := by
      show execTileWriteComplete s = _
      rw [execTileWriteComplete, if_neg (by rw [hw]; exact Bool.false_ne_true)]
      exact whenCompletes_of hp hf rfl hslot
    have hwritten : Memory.readSlot u.store.mem slot = ⟨bytes, check⟩ := Memory.readSlot_written check hlen s.store.mem slot
    have hkept : ∀ other, other ≠ slot → Memory.readSlot u.store.mem other = Memory.readSlot s.store.mem other :=
      fun other ho => Memory.readSlot_writeSlot_other _ _ _ _ ho
    by_cases hlast : d.finishing = true ∧ b.index + 1 = d.total
    · let v := u.modPort fun p => { p with buffer := none }
      have hdone : u.tileWritten = v.completeDeposit k d := State.tileWritten_last (s := u) hb hd hlast
      have hframe := State.completeDeposit_frame k d v
      let w := v.modAlloc (·.modExtent d.extent fun e => { e with state := .live })
      have hcat : (v.completeDeposit k d).cat = (w.completeTarget d.target).cat := State.raise_cat _ _
      have hsource : ∀ m, m ≠ 0 → (v.completeDeposit k d).production.notices.sources[m]? =
          (w.completeTarget d.target).production.notices.sources[m]? := fun m hm =>
        State.raise_source_other (n := .depositDone) (l := .production) (fun _ => hm) _
      refine ⟨_, hexec, ?_⟩
      rw [hdone]
      refine ⟨by rw [hframe]; rfl, by rw [hframe]; rfl, by rw [hframe]; exact hwritten,
        fun other ho => by rw [hframe]; exact hkept other ho, fun hmore => ?_, fun _ _ => ?_⟩
      · rcases hmore with hmore | hmore
        · exact absurd (hmore.symm.trans hlast.1) Bool.false_ne_true
        · exact absurd hlast.2 hmore
      · refine ⟨by rw [hframe]; exact Four.get_set_same _ _ _, fun j hj => by rw [hframe]; exact Four.get_set_other _ _ _ _ hj,
          by rw [hframe]; exact DepositPort.addEnded_last _ _, fun e he => ?_, fun r v' hr hv => ?_, fun id p hid hp => ?_,
          fun r v' e hr hv he => ?_, fun src hsrc => ?_, by rw [hframe]; rfl, by rw [hframe]; rfl, by rw [hframe]; rfl,
          by rw [hframe]; rfl, by rw [hframe]; rfl, by rw [hframe]; rfl, by rw [hframe]; rfl⟩
        · rw [hframe]
          exact (Allocator.modExtent_rewritten he (by intro _; rfl)).2.1
        · rw [hcat, hr]
          obtain ⟨e, he⟩ := Catalogue.edition_of_revision hv
          exact (State.completeTarget_page (s := w) hv he).1
        · rw [hcat, hid]
          exact (Catalogue.photo_modPhoto_same s.cat id _ (by intro _; rfl)).trans (by rw [hp]; rfl)
        · obtain ⟨-, hed, hsrcs⟩ := State.completeTarget_page (s := w) hv he
          refine ⟨by rw [hcat, hr]; exact hed, fun src hsrc => ?_⟩
          rw [hsource 2 (by decide), hr, hsrcs 2]
          have hsrc' : w.production.notices.sources[2]? = some src := hsrc
          simp only [hsrc', Option.map_some, and_true]
        · have hlatched := State.raise_source_same .depositDone
            ((w.completeTarget d.target).modPort fun p => (p.setSlot k none).addEnded (d.toEnded .done))
          have hsrc' : (w.completeTarget d.target).production.notices.sources[0]? = some src :=
            (State.completeTarget_source_other d.target w (by decide)).trans hsrc
          refine (congrArg (Option.map (·.latched)) hlatched).trans ?_
          exact (congrArg (fun o : Option Source => (o.map fun src => { src with latched := true }).map (·.latched)) hsrc').trans rfl
    · have hmore : d.finishing = false ∨ b.index + 1 ≠ d.total := by
        rw [not_and_or, Bool.not_eq_true] at hlast
        exact hlast
      refine ⟨_, hexec, ?_⟩
      rw [State.tileWritten_more (s := u) hb hd hmore]
      exact ⟨rfl, rfl, hwritten, hkept, fun _ => rfl, fun hfin htotal => absurd ⟨hfin, htotal⟩ hlast⟩

/-! ## Revisions removed (R14) -/

/-- The catalogue without a revision. -/
def Catalogue.without (r : RevName) (v : Revision) (c : Catalogue) : Catalogue :=
  (c.dropRefs r v.photos).modEdition r.edition fun e =>
    { e.eraseRevision r with filling := if v.state = .filling then e.filling - 1 else e.filling }

theorem State.removeRevision_eq {r : RevName} {v : Revision} (h : s.cat.revision r = some v) : s.removeRevision r =
    { s with cat := s.cat.without r v, alloc := v.extents.foldl (fun a n => a.release n) s.alloc } := by
  unfold State.removeRevision
  rw [h]
  rfl
theorem State.removeRevision_none {r : RevName} (h : s.cat.revision r = none) : s.removeRevision r = s := by
  unfold State.removeRevision
  rw [h]

theorem Catalogue.edition_without_other {r : RevName} {v : Revision} {id : Nat} (h : id ≠ r.edition) :
    (c.without r v).edition id = c.edition id := by
  unfold Catalogue.without
  rw [Catalogue.edition_modEdition_other _ _ _ _ (by intro _; rfl) h]
  exact Catalogue.edition_of_editions (Catalogue.dropRefs_editions _ _ _) id
theorem Catalogue.edition_without {r : RevName} {v : Revision} {e : Edition} (h : c.edition r.edition = some e) :
    (c.without r v).edition r.edition = some
      { e.eraseRevision r with filling := if v.state = .filling then e.filling - 1 else e.filling } :=
  Catalogue.edition_modEdition_some (by intro _; rfl)
    ((Catalogue.edition_of_editions (Catalogue.dropRefs_editions _ _ _) _).trans h)

theorem Catalogue.photo_without (r : RevName) (v : Revision) (c : Catalogue) (id : Nat) : (c.without r v).photo id =
    (c.photo id).map fun p => if id ∈ v.photos then { p with refs := p.refs.filter (· ≠ r) } else p :=
  Catalogue.photo_dropRefs r v.photos c id

/-- A page of the number of an erased revision holds no revision of its number. -/
theorem Edition.rev_eraseRevision (e : Edition) (r : RevName) : ((e.eraseRevision r).page r.page).bind (·.rev r.revision) = none := by
  cases hp : (e.eraseRevision r).page r.page with
  | none => rfl
  | some p =>
    have hmem := List.mem_of_find?_eq_some hp
    have hnum : p.number = r.page := by simpa using List.find?_some hp
    obtain ⟨q, -, rfl⟩ := mem_modifyWhere (List.mem_filter.mp hmem).1
    split at hnum
    next hq =>
      simp only [Option.bind_some, if_pos hq]
      exact find_filter_gone _ _ _ fun y hy => by simpa using hy
    next hq => exact absurd (by simpa using hnum) hq

theorem Catalogue.revision_without (r : RevName) (v : Revision) (c : Catalogue) : (c.without r v).revision r = none := by
  cases he : c.edition r.edition with
  | none =>
    have hnone : (c.without r v).edition r.edition = none := by
      unfold Catalogue.without
      rw [Catalogue.edition_modEdition_same _ _ _ (by intro _; rfl),
        Catalogue.edition_of_editions (Catalogue.dropRefs_editions _ _ _), he]
      rfl
    rw [Catalogue.revision, hnone]; rfl
  | some e =>
    rw [Catalogue.revision, Catalogue.edition_without he]
    exact Edition.rev_eraseRevision e r

/-! ## A deposit that is aborted (R32) -/

theorem DepositPort.slotAt_eq {p : DepositPort} {k : Fin 4} {d : Deposit} (h : p.slots.get k = some d) :
    p.slotAt k.val = some (k, d) := by
  fin_cases k <;> simp_all [DepositPort.slotAt, fourIndices]

/-- The target of an aborted deposit is gone (R32). -/
theorem State.removeTarget_gone (target : Target) (s : State) :
    (∀ r, target = .page r → (s.removeTarget target).cat.revision r = none) ∧
    ∀ id, target = .photo id → (s.removeTarget target).cat.photo id = none := by
  refine ⟨?_, ?_⟩
  · rintro r rfl
    refine (State.closeIfDone_revision _ _ _).trans ?_
    cases hv : s.cat.revision r with
    | none => rw [State.removeRevision_none hv]; exact hv
    | some v => rw [State.removeRevision_eq hv]; exact Catalogue.revision_without r v s.cat
  · rintro id rfl
    cases hp : s.cat.photo id with
    | none =>
      have heq : s.removeTarget (.photo id) = s := by
        unfold State.removeTarget State.removePhoto
        simp only [hp]
      rw [heq]; exact hp
    | some p =>
      show (s.removePhoto id).cat.photo id = none
      rw [State.removePhoto_eq hp]
      exact (Catalogue.photo_erase s.cat id).1

/-- The edition of an aborted fill, and the sources (R32, R41). -/
theorem State.removeTarget_page {r : RevName} {v : Revision} {e : Edition} (hv : s.cat.revision r = some v)
    (hfill : v.state = .filling) (he : s.cat.edition r.edition = some e) :
    (∃ ps, (s.removeTarget (.page r)).cat.edition r.edition = some { e with
      pages := ps, filling := e.filling - 1, state := if e.state = .closing ∧ e.filling ≤ 1 then .closed else e.state }) ∧
    ∀ m : Nat, (s.removeTarget (.page r)).production.notices.sources[m]? =
      (s.production.notices.sources[m]?).map fun src =>
        if (e.state = .closing ∧ e.filling ≤ 1) ∧ m = 2 then { src with latched := true } else src := by
  have hed : (s.removeRevision r).cat.edition r.edition = some { e.eraseRevision r with filling := e.filling - 1 } := by
    rw [State.removeRevision_eq hv]
    exact (Catalogue.edition_without he).trans (by rw [if_pos hfill])
  have hlink : (s.removeRevision r).production = s.production := by rw [State.removeRevision_eq hv]
  have hcloses : (e.state = .closing ∧ e.filling - 1 = 0) ↔ (e.state = .closing ∧ e.filling ≤ 1) := by
    rw [Nat.sub_eq_zero_iff_le]
  refine ⟨⟨(e.eraseRevision r).pages, (State.closeIfDone_edition hed).trans ?_⟩, fun m =>
    (State.closeIfDone_source hed m).trans ?_⟩
  · simp only [Edition.closes, Edition.eraseRevision, Edition.modPage, hcloses]
  · rw [hlink]
    simp only [Edition.closes, Edition.eraseRevision, Edition.modPage, hcloses]

theorem State.removeTarget_source_other (target : Target) (s : State) {m : Nat} (hm : m ≠ 2) :
    (s.removeTarget target).production.notices.sources[m]? = s.production.notices.sources[m]? := by
  cases target with
  | page r =>
    refine (State.closeIfDone_source_other _ _ hm).trans ?_
    cases hv : s.cat.revision r with
    | none => rw [State.removeRevision_none hv]
    | some v => rw [State.removeRevision_eq hv]
  | photo id =>
    show (s.removePhoto id).production.notices.sources[m]? = _
    cases hp : s.cat.photo id with
    | none => simp only [State.removePhoto, hp]
    | some p => rw [State.removePhoto_eq hp]

theorem State.removeTarget_frame (target : Target) (s : State) : s.removeTarget target = { s with
    cat := (s.removeTarget target).cat
    alloc := (s.removeTarget target).alloc
    production := (s.removeTarget target).production } := by
  cases target with
  | page r =>
    refine (State.closeIfDone_frame _ _).trans ?_
    cases hv : s.cat.revision r with
    | none => rw [State.removeTarget, State.removeRevision_none hv, State.closeIfDone_frame]
    | some v => rw [State.removeTarget, State.removeRevision_eq hv, State.closeIfDone_frame]
  | photo id =>
    show s.removePhoto id = { s with
      cat := (s.removePhoto id).cat, alloc := (s.removePhoto id).alloc, production := (s.removePhoto id).production }
    cases hp : s.cat.photo id with
    | none => simp only [State.removePhoto, hp]
    | some p => rw [State.removePhoto_eq hp]

theorem Store.withdraw_mem (cl : Client) (st : Store) : (st.withdraw cl).mem = st.mem := by
  unfold Store.withdraw; dsimp only; split <;> rfl
theorem Store.withdraw_waiting (cl : Client) (st : Store) :
    (st.withdraw cl).waiting = st.waiting.filter (fun y => y.client ≠ cl) := by
  unfold Store.withdraw; dsimp only; split <;> rfl
theorem Store.withdraw_granted {cl : Client} {y : Transfer} (h : st.inFlight = some y) (hc : y.client = cl) :
    (st.withdraw cl).inFlight = none ∧ (st.withdraw cl).withdrawn = some y := by
  simp [Store.withdraw, h, hc]
theorem Store.withdraw_other {cl : Client} (h : ∀ y, st.inFlight = some y → y.client ≠ cl) :
    (st.withdraw cl).inFlight = st.inFlight ∧ (st.withdraw cl).withdrawn = st.withdrawn := by
  have hne : st.inFlight.map (·.client) ≠ some cl := by
    intro he
    obtain ⟨y, hy, hc⟩ := Option.map_eq_some_iff.mp he
    exact h y hy hc
  simp [Store.withdraw, hne]
theorem Store.withdraw_outstanding (cl : Client) (st : Store) : (st.withdraw cl).outstanding cl = false := by
  have hinFlight : (st.withdraw cl).inFlight.map (·.client) ≠ some cl := by
    by_cases h : ∃ y, st.inFlight = some y ∧ y.client = cl
    · obtain ⟨y, hy, hc⟩ := h
      rw [(Store.withdraw_granted hy hc).1]
      simp
    · rw [(Store.withdraw_other fun y hy hc => h ⟨y, hy, hc⟩).1]
      intro he
      obtain ⟨y, hy, hc⟩ := Option.map_eq_some_iff.mp he
      exact h ⟨y, hy, hc⟩
  simp [Store.outstanding, Store.withdraw_waiting, hinFlight]

theorem State.dropBuffered_mine {h : Nat} {b : BufferedTile} (hb : s.port.buffer = some b) (hh : b.handle = h) :
    s.dropBuffered h = { s with port := { s.port with buffer := none }, store := s.store.withdraw .deposit } := by
  simp only [State.dropBuffered, hb, if_pos hh]
  rfl
theorem State.dropBuffered_other {h : Nat} (hb : ∀ b, s.port.buffer = some b → b.handle ≠ h) : s.dropBuffered h = s := by
  unfold State.dropBuffered
  split
  next b hbuf => exact if_neg (hb b hbuf)
  next => rfl

/-- What an aborted deposit leaves, but for its notice (R32). -/
def State.AbortLeaves (s : State) (k : Fin 4) (d : Deposit) (o : DepositOutcome) (t : State) : Prop :=
  t.port.slots.get k = none ∧ (∀ j, j ≠ k → t.port.slots.get j = s.port.slots.get j) ∧
  t.port.ended.getLast? = some (d.toEnded o) ∧
  (∀ r, d.target = .page r → t.cat.revision r = none) ∧ (∀ id, d.target = .photo id → t.cat.photo id = none) ∧
  (∀ r v e, d.target = .page r → s.cat.revision r = some v → v.state = .filling → s.cat.edition r.edition = some e →
    (∃ ps, t.cat.edition r.edition = some { e with
      pages := ps, filling := e.filling - 1, state := if e.state = .closing ∧ e.filling ≤ 1 then .closed else e.state }) ∧
    ∀ src, s.production.notices.sources[2]? = some src → t.production.notices.sources[2]? =
      some (if e.state = .closing ∧ e.filling ≤ 1 then { src with latched := true } else src)) ∧
  (∀ b, s.port.buffer = some b → b.handle = d.handle →
    t.port.buffer = none ∧ t.store = s.store.withdraw .deposit) ∧
  ((∀ b, s.port.buffer = some b → b.handle ≠ d.handle) → t.port.buffer = s.port.buffer ∧ t.store = s.store) ∧
  t.store.mem = s.store.mem ∧ t.book = s.book ∧ t.meter = s.meter ∧ t.engine = s.engine ∧ t.table = s.table ∧
  ∀ src, s.production.notices.sources[1]? = some src → t.production.notices.sources[1]? ≠ none

theorem State.abortDeposit_leaves (k : Fin 4) (d : Deposit) (o : DepositOutcome) (s : State) :
    s.AbortLeaves k d o (s.abortDeposit k d (some o)) := by
  let u := s.removeTarget d.target
  have hu : u = { s with cat := u.cat, alloc := u.alloc, production := u.production } := State.removeTarget_frame d.target s
  have hport : u.port = s.port := by rw [hu]
  have hstore : u.store = s.store := by rw [hu]
  have hgone := State.removeTarget_gone d.target s
  have hpage : ∀ r v e, d.target = .page r → s.cat.revision r = some v → v.state = .filling →
      s.cat.edition r.edition = some e → (∃ ps, u.cat.edition r.edition = some { e with
        pages := ps, filling := e.filling - 1, state := if e.state = .closing ∧ e.filling ≤ 1 then .closed else e.state }) ∧
      ∀ src, s.production.notices.sources[2]? = some src → u.production.notices.sources[2]? =
        some (if e.state = .closing ∧ e.filling ≤ 1 then { src with latched := true } else src) := fun r v e hr hv hf he => by
    obtain ⟨hed, hsrcs⟩ := State.removeTarget_page hv hf he
    have hur : u = s.removeTarget (.page r) := by rw [← hr]
    refine ⟨by rw [hur]; exact hed, fun src hsrc => ?_⟩
    rw [hur, hsrcs 2, hsrc]
    simp only [Option.map_some, and_true]
  have hsource : ∀ src, s.production.notices.sources[1]? = some src → u.production.notices.sources[1]? ≠ none :=
    fun src hsrc => by
      rw [State.removeTarget_source_other d.target s (by decide), hsrc]
      exact Option.some_ne_none src
  by_cases hmine : ∃ b, s.port.buffer = some b ∧ b.handle = d.handle
  · obtain ⟨b, hb, hh⟩ := hmine
    have hw : u.dropBuffered d.handle =
        { u with port := { u.port with buffer := none }, store := u.store.withdraw .deposit } :=
      State.dropBuffered_mine (by rw [hport]; exact hb) hh
    have heq : s.abortDeposit k d (some o) = { s with
        cat := u.cat, alloc := u.alloc, production := u.production, store := s.store.withdraw .deposit
        port := (({ s.port with buffer := none } : DepositPort).setSlot k none).addEnded (d.toEnded o) } := by
      unfold State.abortDeposit
      simp only [show s.removeTarget d.target = u from rfl, hw, hport, hstore]
      rw [hu]
      rfl
    rw [heq]
    exact ⟨Four.get_set_same _ _ _, fun j hj => Four.get_set_other _ _ _ _ hj, DepositPort.addEnded_last _ _, hgone.1, hgone.2,
      hpage, fun _ _ _ => ⟨rfl, rfl⟩, fun hother => absurd hh (hother b hb), Store.withdraw_mem _ _, rfl, rfl, rfl, rfl, hsource⟩
  · have hother : ∀ b, s.port.buffer = some b → b.handle ≠ d.handle := fun b hb hh => hmine ⟨b, hb, hh⟩
    have hw : u.dropBuffered d.handle = u := State.dropBuffered_other (by rw [hport]; exact hother)
    have heq : s.abortDeposit k d (some o) = { s with
        cat := u.cat, alloc := u.alloc, production := u.production
        port := (s.port.setSlot k none).addEnded (d.toEnded o) } := by
      unfold State.abortDeposit
      simp only [show s.removeTarget d.target = u from rfl, hw]
      rw [hu]
      rfl
    rw [heq]
    exact ⟨Four.get_set_same _ _ _, fun j hj => Four.get_set_other _ _ _ _ hj, DepositPort.addEnded_last _ _, hgone.1, hgone.2,
      hpage, fun b hb hh => absurd hh (hother b hb), fun _ => ⟨rfl, rfl⟩, rfl, rfl, rfl, rfl, rfl, hsource⟩

theorem State.AbortLeaves.of_taken {r : Request} {layout : List Layout} {fs : Fields} {k : Fin 4} {d : Deposit}
    {o : DepositOutcome} (h : Taken .production r layout fs s s₁) (hl : s₁.AbortLeaves k d o t) : s.AbortLeaves k d o t := by
  have hn : s₁.production.notices = s.production.notices := h.notices .production
  unfold State.AbortLeaves at hl ⊢
  rwa [h.port, h.cat, h.store, h.book, h.meter, h.engine, h.table, hn] at hl

/-- DEPOSIT_ABORTED changes nothing of what an abort leaves but its own source. -/
theorem State.AbortLeaves.raised {k : Fin 4} {d : Deposit} {o : DepositOutcome} (h : s.AbortLeaves k d o t) :
    s.AbortLeaves k d o (t.raise .depositAborted) := by
  obtain ⟨hslot, hslots, hended, hrev, hphoto, hpage, hmine, hother, hmem, hbook, hmeter, hengine, htable, hsource⟩ := h
  refine ⟨hslot, hslots, hended, hrev, hphoto, fun r v e hr hv hf he => ⟨(hpage r v e hr hv hf he).1, fun src hsrc => ?_⟩,
    hmine, hother, hmem, hbook, hmeter, hengine, htable, fun src hsrc => ?_⟩
  · exact (State.raise_source_other (n := .depositAborted) (l := .production) (fun _ => by decide) t).trans
      ((hpage r v e hr hv hf he).2 src hsrc)
  · have hsame := State.raise_source_same .depositAborted t
    refine ne_of_eq_of_ne hsame ?_
    rw [Ne, Option.map_eq_none_iff]
    exact hsource src hsrc

theorem State.AbortLeaves.latched {k : Fin 4} {d : Deposit} {o : DepositOutcome} (h : s.AbortLeaves k d o t) {src : Source}
    (hsrc : s.production.notices.sources[1]? = some src) :
    ((t.raise .depositAborted).production.notices.sources[1]?).map (·.latched) = some true := by
  obtain ⟨-, -, -, -, -, -, -, -, -, -, -, -, -, hsource⟩ := h
  obtain ⟨src', hsrc'⟩ := Option.ne_none_iff_exists'.mp (hsource src hsrc)
  have hsame := State.raise_source_same .depositAborted t
  refine (congrArg (Option.map (·.latched)) hsame).trans ?_
  exact (congrArg (fun o : Option Source => (o.map fun src => { src with latched := true }).map (·.latched)) hsrc').trans rfl

/-- Settles O32: the request aborts in the state without it, the timer in the state at its moment. -/
theorem depositAborted : Obligations.DepositAborted := by
  unfold Obligations.DepositAborted
  intro k d s o t ht
  have hleaves : s.AbortLeaves k d o t ∧ (o = .timedOut → ∀ src, s.production.notices.sources[1]? = some src →
      (t.production.notices.sources[1]?).map (·.latched) = some true) := by
    rcases ht with ⟨tag, ps, fs, s₁, h, -, -, rfl, rfl⟩ | ⟨moment, -, -, -, rfl, rfl⟩
    · exact ⟨.of_taken h (State.abortDeposit_leaves k d .abandoned s₁), fun ho => by cases ho⟩
    · have hl : s.AbortLeaves k d .timedOut ((s.reach moment).abortDeposit k d (some .timedOut)) :=
        State.abortDeposit_leaves k d .timedOut (s.reach moment)
      exact ⟨hl.raised, fun _ _ hsrc => hl.latched hsrc⟩
  obtain ⟨⟨hslot, hslots, hended, hrev, hphoto, hpage, hmine, hother, hmem, hbook, hmeter, hengine, htable, -⟩, hlatched⟩ := hleaves
  refine ⟨fun tag ps fs s₁ h hh hf => ?_, fun moment hp hk he => ?_, hslot, hslots, hended, hrev, hphoto, hpage,
    fun b hb hh => ?_, hother, hmem, hbook, hmeter, hengine, htable, hlatched⟩
  · exact exec_takenDeposit (.abandonDeposit .production tag ps) rfl rfl rfl h
      (by simp [bodyOfCommand, abandonDepositBody, hh, h.port, hf, required]; rfl)
  · show execDepositTimeout k.val s = _
    rw [execDepositTimeout, whenRunning_of_running hp]
    simp only [DepositPort.slotAt_eq hk, he]
  · obtain ⟨hbuffer, hstore⟩ := hmine b hb hh
    rw [hstore]
    exact ⟨hbuffer, Store.withdraw_outstanding _ _, Store.withdraw_waiting _ _, fun y hy hc => Store.withdraw_granted hy hc,
      fun hy => Store.withdraw_other hy⟩

end Sys2Proof.Machine
end

