-- ==== Sys2Proof/Proofs/Replates.lean ====
section
/-! PROOF. REPLATE_PAGE: the oldest revision of a full list dropped, its extents released, and the new one put in (chapter 2,
R37 to R39). -/

namespace Sys2Proof.Machine

variable {s s₁ t : State} {a b : Allocator} {c : Catalogue} {e : Edition} {p : Page} {v : Revision} {ed : Nat}

/-! ## Extents released one after another -/

theorem Allocator.release_runs_live {x : Extent} {n : Nat} (h : a.find n = some x) (hs : x.state = .live) (hr : x.readers = 0) :
    (a.release n).runs = giveSlots x.first x.size a.runs := by
  rw [(Allocator.release_unused h (.inr (.inr ⟨hs, hr⟩))).1]
theorem Allocator.release_runs_moving {x : Extent} {n : Nat} (h : a.find n = some x) (hs : x.state = .moving) :
    (a.release n).runs = a.runs := by
  rw [(Allocator.release_moving h hs).1]

/-- The free runs when an extent that is LIVE has returned its slots. -/
def Allocator.runsAfter (a : Allocator) (runs : List FreeRun) (n : Nat) : List FreeRun :=
  match a.find n with
  | some x => if x.state = .live then giveSlots x.first x.size runs else runs
  | none => runs

theorem Allocator.runsWithout_eq (a : Allocator) (ns : List Nat) : a.runsWithout ns = ns.foldl a.runsAfter a.runs := rfl

theorem Allocator.runsAfter_congr {n : Nat} (h : a.find n = b.find n) (runs : List FreeRun) :
    a.runsAfter runs n = b.runsAfter runs n := by
  rw [Allocator.runsAfter, Allocator.runsAfter, h]

theorem Allocator.runsAfter_release {x : Extent} {n : Nat} (h : a.find n = some x)
    (hx : x.state = .live ∧ x.readers = 0 ∨ x.state = .moving) : a.runsAfter a.runs n = (a.release n).runs := by
  unfold Allocator.runsAfter
  rw [h]
  rcases hx with ⟨hs, hr⟩ | hs
  · rw [Allocator.release_runs_live h hs hr]
    exact if_pos hs
  · rw [Allocator.release_runs_moving h hs]
    exact if_neg (by rw [hs]; exact ExtentState.noConfusion)

/-- The runs when the first of the extents has been released. -/
theorem Allocator.runsWithout_cons {x : Extent} {n : Nat} {ns : List Nat} (h : a.find n = some x) (hn : n ∉ ns)
    (hx : x.state = .live ∧ x.readers = 0 ∨ x.state = .moving) :
    a.runsWithout (n :: ns) = (a.release n).runsWithout ns := by
  rw [Allocator.runsWithout_eq, Allocator.runsWithout_eq, List.foldl_cons, Allocator.runsAfter_release h hx]
  exact List.foldl_ext _ _ _ fun runs m hm =>
    Allocator.runsAfter_congr (Allocator.find_release_other a n m fun he => hn (he ▸ hm)).symm runs

/-- Extents that are LIVE and not read, or MOVING, are all released: the first return their slots, the others carry the
release-pending mark (R53). -/
theorem Allocator.releaseEach_spec {ns : List Nat} (hnodup : ns.Nodup)
    (h : ∀ n ∈ ns, ∃ x, a.find n = some x ∧ (x.state = .live ∧ x.readers = 0 ∨ x.state = .moving)) :
    ns.foldl (fun a n => a.release n) a = { a with
      runs := a.runsWithout ns, extents := (ns.foldl (fun a n => a.release n) a).extents } ∧
    (∀ m, m ∉ ns → (ns.foldl (fun a n => a.release n) a).find m = a.find m) ∧
    ∀ m ∈ ns, ∀ x, a.find m = some x →
      (x.state = .live → (ns.foldl (fun a n => a.release n) a).find m = none) ∧
      (x.state = .moving → (ns.foldl (fun a n => a.release n) a).find m = some { x with releasePending := true }) := by
  induction ns generalizing a with
  | nil => exact ⟨rfl, fun _ _ => rfl, fun _ hm => absurd hm List.not_mem_nil⟩
  | cons n ns ih =>
    obtain ⟨hn, hns⟩ := List.nodup_cons.mp hnodup
    obtain ⟨x, hx, hstate⟩ := h n List.mem_cons_self
    have hother : ∀ m, m ≠ n → (a.release n).find m = a.find m := fun m hm => Allocator.find_release_other a n m hm
    have hrest := ih hns fun m hm => by
      rw [hother m fun he => hn (he ▸ hm)]
      exact h m (List.mem_cons_of_mem n hm)
    obtain ⟨heq, hkept, hreleased⟩ := hrest
    have hframe : a.release n = { a with runs := (a.release n).runs, extents := (a.release n).extents } := by
      rcases hstate with hs | hs
      · rw [(Allocator.release_unused hx (.inr (.inr hs))).1]
      · rw [(Allocator.release_moving hx hs).1]
    rw [List.foldl_cons]
    refine ⟨?_, fun m hm => ?_, fun m hm y hy => ?_⟩
    · rw [Allocator.runsWithout_cons hx hn hstate]
      refine heq.trans ?_
      rw [hframe]
    · rw [List.mem_cons, not_or] at hm
      exact (hkept m hm.2).trans (hother m hm.1)
    · rcases List.mem_cons.mp hm with rfl | hm
      · rw [hkept m hn]
        obtain rfl := Option.some.inj (hx.symm.trans hy)
        refine ⟨fun hs => ?_, fun hs => (Allocator.release_moving hx hs).2.1⟩
        rcases hstate with hlive | hmoving
        · exact (Allocator.release_unused hx (.inr (.inr hlive))).2.1
        · rw [hs] at hmoving; cases hmoving
      · exact hreleased m hm y (by rw [hother m fun he => hn (he ▸ hm)]; exact hy)

/-! ## A revision erased from its page's list -/

/-- What a search finds first stays when only other records leave. -/
theorem find_filter_first {α : Type} {f q : α → Bool} {l : List α} {x : α} (h : l.find? q = some x) (hf : f x = true) :
    (l.filter f).find? q = some x := by
  obtain ⟨hq, l₁, l₂, rfl, hl₁⟩ := List.find?_eq_some_iff_append.mp h
  have hnone : (l₁.filter f).find? q = none := by
    rw [List.find?_eq_none]
    intro y hy
    simpa using hl₁ y (List.mem_filter.mp hy).1
  rw [List.filter_append, List.find?_append, hnone, List.filter_cons_of_pos hf]
  simp [hq]

theorem Edition.page_eraseRevision_same {r : RevName} (hp : e.page r.page = some p)
    (hrest : p.revs.filter (·.number ≠ r.revision) ≠ []) :
    (e.eraseRevision r).page r.page = some { p with revs := p.revs.filter (·.number ≠ r.revision) } := by
  have hmod : (e.modPage r.page fun p => { p with revs := p.revs.filter (·.number ≠ r.revision) }).page r.page =
      some { p with revs := p.revs.filter (·.number ≠ r.revision) } := by
    rw [Edition.page_modPage_same _ _ _ (by intro _; rfl), hp]; rfl
  exact find_filter_first hmod (by simpa using .inr (by simpa using hrest))

theorem Edition.page_eraseRevision_other {r : RevName} {q : Nat} (h : q ≠ r.page) : (e.eraseRevision r).page q = e.page q := by
  refine (find_filter_other _ _ _ fun y hy => ?_).trans (Edition.page_modPage_other e r.page q _ (by intro _; rfl) h)
  have hy' : y.number = q := by simpa using hy
  simp [hy', h]

/-! ## The revision dropped by a replate (R38) -/

/-- The state after the drop. -/
def State.dropOldest (ed : Nat) (p : Page) (s : State) : State :=
  match p.dropCandidate.map (·.number) with
  | some n => s.removeRevision ⟨ed, p.number, n⟩
  | none => s

/-- The revisions that a replate keeps. -/
def Page.kept (p : Page) : List Revision := if 4 ≤ p.revs.length then p.revs.tail else p.revs

theorem Page.dropCandidate_of_full (h : 4 ≤ p.revs.length) : p.dropCandidate = p.revs.head? := if_pos h
theorem Page.dropCandidate_of_room (h : ¬4 ≤ p.revs.length) : p.dropCandidate = none := if_neg h

theorem Page.kept_of_candidate (hnodup : (p.revs.map (·.number)).Nodup) (h : p.dropCandidate = some v) :
    p.revs.filter (·.number ≠ v.number) = p.kept ∧ p.kept ≠ [] ∧ p.rev v.number = some v := by
  by_cases hfull : 4 ≤ p.revs.length
  · rw [Page.dropCandidate_of_full hfull] at h
    rw [Page.kept, if_pos hfull, Page.rev]
    cases hrevs : p.revs with
    | nil => rw [hrevs] at h; cases h
    | cons w ws =>
      rw [hrevs] at h hnodup hfull
      obtain rfl := Option.some.inj h
      have hothers : ∀ x ∈ ws, x.number ≠ w.number := fun x hx he =>
        (List.nodup_cons.mp hnodup).1 (List.mem_map.mpr ⟨x, hx, he⟩)
      refine ⟨?_, ?_, by simp⟩
      · rw [List.filter_cons_of_neg (by simp)]
        exact List.filter_eq_self.mpr fun x hx => by simpa using hothers x hx
      · rintro hnil
        rw [List.tail_cons] at hnil
        rw [hnil] at hfull
        simp at hfull
  · rw [Page.dropCandidate_of_room hfull] at h; cases h

theorem State.dropOldest_some (hv : p.dropCandidate = some v) (hrev : s.cat.revision ⟨ed, p.number, v.number⟩ = some v) :
    s.dropOldest ed p = { s with
      cat := s.cat.without ⟨ed, p.number, v.number⟩ v, alloc := v.extents.foldl (fun a n => a.release n) s.alloc } := by
  unfold State.dropOldest
  rw [hv]
  exact State.removeRevision_eq hrev
theorem State.dropOldest_none (hv : p.dropCandidate = none) : s.dropOldest ed p = s := by
  unfold State.dropOldest
  rw [hv]
  rfl

/-- The catalogue after the drop: the page with the revisions kept, and the references to the dropped one gone. -/
theorem State.dropOldest_cat (he : s.cat.edition ed = some e) (hp : e.page p.number = some p)
    (hcomplete : ∀ v ∈ p.revs, v.state = .complete) (hnodup : (p.revs.map (·.number)).Nodup) :
    (∃ e', (s.dropOldest ed p).cat.edition ed = some e' ∧ e'.page p.number = some { p with revs := p.kept } ∧
      (∀ q, q ≠ p.number → e'.page q = e.page q) ∧ e'.filling = e.filling ∧ e'.state = e.state) ∧
    (∀ other, other ≠ ed → (s.dropOldest ed p).cat.edition other = s.cat.edition other) ∧
    ∀ id, (s.dropOldest ed p).cat.photo id = (s.cat.photo id).map fun x => { x with refs :=
      match p.dropCandidate with
      | some v => if id ∈ v.photos then x.refs.filter (· ≠ ⟨ed, p.number, v.number⟩) else x.refs
      | none => x.refs } := by
  cases hv : p.dropCandidate with
  | none =>
    rw [State.dropOldest_none hv]
    have hkept : p.kept = p.revs := by
      unfold Page.kept
      split
      next hfull =>
        rw [Page.dropCandidate_of_full hfull, List.head?_eq_none_iff] at hv
        rw [hv] at hfull
        simp at hfull
      next => rfl
    exact ⟨⟨e, he, by rw [hkept]; exact hp, fun _ _ => rfl, rfl, rfl⟩, fun _ _ => rfl, fun id => by simp⟩
  | some v =>
    obtain ⟨hfilter, hne, hrev⟩ := Page.kept_of_candidate hnodup hv
    have hmem : v ∈ p.revs := by
      unfold Page.dropCandidate at hv
      split at hv
      · exact List.mem_of_mem_head? hv
      · cases hv
    have hfound : s.cat.revision ⟨ed, p.number, v.number⟩ = some v :=
      (Catalogue.revision_eq (r := ⟨ed, p.number, v.number⟩) he hp).trans hrev
    rw [State.dropOldest_some hv hfound]
    have hed := Catalogue.edition_without (r := ⟨ed, p.number, v.number⟩) (v := v) he
    have hfill : ¬v.state = .filling := by rw [hcomplete v hmem]; exact FillState.noConfusion
    rw [if_neg hfill] at hed
    refine ⟨⟨_, hed, ?_, fun q hq => ?_, rfl, rfl⟩, fun other ho => Catalogue.edition_without_other ho, fun id => ?_⟩
    · exact (Edition.page_eraseRevision_same (r := ⟨ed, p.number, v.number⟩) hp (by rw [hfilter]; exact hne)).trans
        (by rw [hfilter])
    · exact Edition.page_eraseRevision_other (r := ⟨ed, p.number, v.number⟩) hq
    · refine (Catalogue.photo_without _ v s.cat id).trans (congrArg (Option.map · _) (funext fun x => ?_))
      by_cases hid : id ∈ v.photos <;> simp [hid]

theorem State.dropOldest_frame (ed : Nat) (p : Page) (s : State) : s.dropOldest ed p =
    { s with cat := (s.dropOldest ed p).cat, alloc := (s.dropOldest ed p).alloc } := by
  cases hv : p.dropCandidate with
  | none => rw [State.dropOldest_none hv]
  | some v =>
    cases hrev : s.cat.revision ⟨ed, p.number, v.number⟩ with
    | none =>
      have heq : s.dropOldest ed p = s := by
        unfold State.dropOldest
        rw [hv]
        exact State.removeRevision_none hrev
      rw [heq]
    | some w =>
      have heq : s.dropOldest ed p = s.removeRevision ⟨ed, p.number, v.number⟩ := by
        unfold State.dropOldest
        rw [hv]
        rfl
      rw [heq, State.removeRevision_eq hrev]

/-- The allocator after the drop: the extents of the dropped revision released. -/
theorem State.dropOldest_alloc (he : s.cat.edition ed = some e) (hp : e.page p.number = some p)
    (hnodup : (p.revs.map (·.number)).Nodup) : (s.dropOldest ed p).alloc =
      (p.dropCandidate.elim [] Revision.extents).foldl (fun a n => a.release n) s.alloc := by
  cases hv : p.dropCandidate with
  | none => rw [State.dropOldest_none hv]; rfl
  | some v =>
    obtain ⟨-, -, hrev⟩ := Page.kept_of_candidate hnodup hv
    rw [State.dropOldest_some hv ((Catalogue.revision_eq (r := ⟨ed, p.number, v.number⟩) he hp).trans hrev)]
    rfl

/-! ## The new revision -/

/-- The pages and photographs after the new revision has joined its page's list (R39). -/
theorem Catalogue.append_spec {photos : List Nat} {name : RevName} {r : Revision} (he : c.edition name.edition = some e)
    (hp : e.page name.page = some p) (hphotos : photos.Nodup) (d : Catalogue)
    (hd : d = ((c.modEdition name.edition (·.modPage name.page (Page.append r))).addRefs name photos).modEdition name.edition
      fun e => { e with filling := e.filling + 1 }) :
    (∃ e', d.edition name.edition = some e' ∧ e'.page name.page = some (p.append r) ∧
      (∀ q, q ≠ name.page → e'.page q = e.page q) ∧ e'.filling = e.filling + 1 ∧ e'.state = e.state) ∧
    (∀ other, other ≠ name.edition → d.edition other = c.edition other) ∧
    ∀ id, d.photo id = (c.photo id).map fun x => { x with refs := x.refs ++ if id ∈ photos then [name] else [] } := by
  subst hd
  have hfirst : ((c.modEdition name.edition (·.modPage name.page (Page.append r))).addRefs name photos).edition name.edition =
      some (e.modPage name.page (Page.append r)) := by
    rw [Catalogue.edition_of_editions (Catalogue.addRefs_editions _ _ _)]
    exact Catalogue.edition_modEdition_some (by intro _; rfl) he
  refine ⟨⟨_, Catalogue.edition_modEdition_some (by intro _; rfl) hfirst, ?_, fun q hq => ?_, rfl, rfl⟩, fun other ho => ?_,
    fun id => ?_⟩
  · refine (Edition.page_modPage_same e name.page _ (by intro _; rfl)).trans ?_
    rw [hp]; rfl
  · exact Edition.page_modPage_other e name.page q _ (by intro _; rfl) hq
  · rw [Catalogue.edition_modEdition_other _ _ _ _ (by intro _; rfl) ho,
      Catalogue.edition_of_editions (Catalogue.addRefs_editions _ _ _)]
    exact Catalogue.edition_modEdition_other _ _ _ _ (by intro _; rfl) ho
  · refine (Catalogue.photo_addRefs name hphotos _ id).trans (congrArg (Option.map · _) (funext fun x => ?_))
    by_cases hid : id ∈ photos <;> simp [hid]

/-- The record that a new extent takes is the lowest free one (log 11). -/
theorem Allocator.freshNumber_lowest (a : Allocator) {m : Nat} (h : m < a.freshNumber) : a.find m ≠ none := by
  have hspec := (lowestFree_spec (a.extents.map (·.number)) (a.extents.length + 1) 0 (by
    have := List.length_filter_le (fun x => decide (0 ≤ x)) (a.extents.map (·.number))
    simp at this ⊢)).2.2.2
  obtain ⟨x, hx, hn⟩ := List.mem_map.mp (hspec m (Nat.zero_le m) h)
  rw [Allocator.find, Ne, List.find?_eq_none]
  exact fun hnone => hnone x hx (by simpa using hn)

/-- Extents released, and then a new one put in at a place found before. -/
theorem Allocator.occupy_after_releases {d : Allocator} {ns : List Nat} {first size : Nat} {owner : Owner} (hnodup : ns.Nodup)
    (hns : ∀ m ∈ ns, ∃ x, a.find m = some x ∧ (x.state = .live ∧ x.readers = 0 ∨ x.state = .moving))
    (hb : b = ns.foldl (fun a n => a.release n) a) (hd : d = (b.occupy first size owner .filling).2) :
    d = { a with runs := takeSlots first size (a.runsWithout ns), extents := d.extents } ∧
    (∀ m, m ≠ b.freshNumber → m ∉ ns → d.find m = a.find m) ∧
    ∀ m ∈ ns, ∀ x, a.find m = some x → (x.state = .live → m ≠ b.freshNumber → d.find m = none) ∧
      (x.state = .moving → d.find m = some { x with releasePending := true }) := by
  obtain ⟨heq, hkept, hreleased⟩ := Allocator.releaseEach_spec hnodup hns
  rw [← hb] at heq hkept hreleased
  obtain ⟨-, hexts⟩ := Allocator.find_occupy b first size owner .filling
  rw [← hd] at hexts
  refine ⟨?_, fun m hm hmem => (hexts m hm).trans (hkept m hmem), fun m hmem x hx => ⟨fun hs hm => ?_, fun hs => ?_⟩⟩
  · rw [hd, Allocator.occupy, heq]
  · rw [hexts m hm]
    exact (hreleased m hmem x hx).1 hs
  · have hstays := (hreleased m hmem x hx).2 hs
    have hm : m ≠ b.freshNumber := fun he => by rw [he, b.freshNumber_free] at hstays; cases hstays
    rw [hexts m hm]
    exact hstays

theorem Edition.page_number {q : Nat} (h : e.page q = some p) : p.number = q := by simpa using List.find?_some h

/-- The checks of Table 2-4 pass. -/
theorem State.checkReplate_passed {pg w h cls first : Nat} {photos : List Nat} {i : Fin 4}
    (he : s.cat.edition ed = some e) (hstate : e.state ≠ .retiring) (hp : e.page pg = some p)
    (hrange : pageInRange pg w h cls = true) (hcomplete : ∀ v ∈ p.revs, v.state = .complete) (hissued : p.lastIssued < 255)
    (hphotos : s.cat.checkPhotos photos = none)
    (hdrop : ∀ v, p.dropCandidate = some v → (∀ n ∈ v.extents, s.alloc.readersOf n = 0) ∧
      (∀ j ∈ s.engine.queue, j.revision ≠ ⟨ed, pg, v.number⟩) ∧ v.pins = 0)
    (hroom : s.depositRoom (w * h) = .ok (i, first)) :
    s.checkReplate ed pg w h cls photos = .ok (p, i, first) := by
  have hfilling : p.isFilling = false := by
    rw [Page.isFilling, List.any_eq_false]
    intro v hv
    simp [hcomplete v hv]
  have hallowed : s.dropAllowed ed p = true := by
    unfold State.dropAllowed
    split
    next v hv =>
      obtain ⟨hreaders, hjobs, hpins⟩ := hdrop v hv
      rw [Edition.page_number hp]
      simp only [State.dropPasses, hpins, Bool.and_eq_true, List.all_eq_true, decide_eq_true_eq, Bool.not_eq_true',
        List.any_eq_false]
      exact ⟨⟨hreaders, hjobs⟩, trivial⟩
    next => rfl
  simp [State.checkReplate, he, hstate, hrange, hp, hfilling, Nat.not_le_of_lt hissued, hphotos, hallowed, hroom]

/-- The port after a replate: the new deposit in its slot (R39). -/
theorem State.takeReplate_port (w h cls : Nat) (photos : List Nat) (i : Fin 4) (first : Nat) (s : State) :
    (s.takeReplate ed w h cls photos p i first).2.port = { (s.dropOldest ed p).port with
      slots := ((s.dropOldest ed p).claimSlot i (.page ⟨ed, p.number, p.lastIssued + 1⟩)
        (s.dropOldest ed p).alloc.freshNumber (w * h)).2.port.slots
      lastHandle := (s.dropOldest ed p).port.nextHandle } := rfl

/-- Settles O29. -/
theorem replatePage : Obligations.ReplatePage := by
  unfold Obligations.ReplatePage
  intro tag ps fs ed pg w h cls first photos e p i s s₁ ht hed hpg hw hh hcls hphotos he hstate hp hpg1 hpg160 hw1 hw40 hh1
    hh56 hcls15 hcomplete hnodup hissued hlast hlen hphnodup hzero hall hdrop hslot hbefore hplace
  have hnum := Edition.page_number hp
  subst hnum
  have hcandidate : (if 4 ≤ p.revs.length then p.revs.head? else none) = p.dropCandidate := rfl
  have hdropped : ∀ v, p.dropCandidate = some v → (∀ n ∈ v.extents, s.alloc.readersOf n = 0) ∧
      (∀ j ∈ s.engine.queue, j.revision ≠ ⟨ed, p.number, v.number⟩) ∧ v.pins = 0 := fun v hv => by
    by_cases hfull : 4 ≤ p.revs.length
    · exact hdrop v hfull (by rw [← Page.dropCandidate_of_full hfull]; exact hv)
    · rw [Page.dropCandidate_of_room hfull] at hv; cases hv
  have hcheck : s₁.checkReplate ed p.number w h cls photos = .ok (p, i, first) :=
    State.checkReplate_passed (by rw [ht.cat]; exact he) hstate hp (by simp [pageInRange, *]) hcomplete hlast
      (by rw [ht.cat]; exact Catalogue.checkPhotos_passed hlen hphnodup hzero hall) (by rw [ht.alloc, ht.engine]; exact hdropped)
      (State.depositRoom_eq (by rw [ht.port]; exact DepositPort.freeSlot_eq hslot hbefore) (by rw [ht.alloc]; exact hplace))
  let taken := s₁.takeReplate ed w h cls photos p i first
  let u := s₁.dropOldest ed p
  have hbody : bodyOfCommand (.replatePage .production tag ps) fs s₁ = taken := by
    simp [bodyOfCommand, replatePageBody, hed, hpg, hw, hh, hcls, hphotos, hcheck, taken]
  have hu : u = { s₁ with cat := u.cat, alloc := u.alloc } := State.dropOldest_frame ed p s₁
  have hport : u.port = s.port := by rw [hu]; exact ht.port
  have hnow : u.now = s.now := by rw [hu]; exact ht.now
  have hanswer : taken.1 = { result := .accepted, fields := [.one s.port.nextHandle, .one (p.lastIssued + 1),
      if 4 ≤ p.revs.length then .ofOption (p.revs.head?.map (·.number)) else .absent] } := by
    have hfield : Field.ofOption (p.dropCandidate.map (·.number)) =
        if 4 ≤ p.revs.length then .ofOption (p.revs.head?.map (·.number)) else .absent := by
      unfold Page.dropCandidate
      split <;> rfl
    rw [← hport, ← hfield]; rfl
  have hexec := exec_takenDeposit (.replatePage .production tag ps) rfl rfl rfl ht (hbody.trans (Prod.eta taken).symm)
  rw [hanswer] at hexec
  let n := u.alloc.freshNumber
  let name : RevName := ⟨ed, p.number, p.lastIssued + 1⟩
  obtain ⟨⟨e₁, he₁, hp₁, hpages₁, hfilling₁, hstate₁⟩, hothers₁, hphotos₁⟩ :=
    State.dropOldest_cat (s := s₁) (by rw [ht.cat]; exact he) hp hcomplete hnodup
  obtain ⟨⟨e₂, he₂, hp₂, hpages₂, hfilling₂, hstate₂⟩, hothers₂, hphotos₂⟩ :=
    Catalogue.append_spec (name := name) (r := Revision.fresh (p.lastIssued + 1) w h cls n photos) he₁ hp₁ hphnodup
      taken.2.cat rfl
  have hroom := State.dropOldest_alloc (s := s₁) (ed := ed) (by rw [ht.cat]; exact he) hp hnodup
  rw [ht.alloc] at hroom
  have halloc : taken.2.alloc = (u.alloc.occupy first (w * h) (.raw name) .filling).2 := rfl
  obtain ⟨hext, hexts⟩ := Allocator.find_occupy u.alloc first (w * h) (.raw name) .filling
  obtain ⟨hclaimed, hslots⟩ := State.claimSlot_port i (.page name) n (w * h) u
  rw [hport] at hslots
  rw [hport, hnow] at hclaimed
  have hports := State.takeReplate_port (ed := ed) (p := p) w h cls photos i first s₁
  rw [show (s₁.dropOldest ed p).port = s.port from hport] at hports
  refine ⟨taken.2, n, hexec, ?_, ?_, fun q hq => ?_, fun m hm => ?_, ?_, ?_, fun other ho => ?_, fun dropped hd => ?_, ?_, ?_,
    fun j hj => ?_, ?_⟩
  · have htaken : taken.2 = { u with cat := taken.2.cat, alloc := taken.2.alloc, port := taken.2.port } := rfl
    refine htaken.trans ?_
    rw [hu]
  · rw [he₂]
    exact hp₂
  · rw [he₂]
    exact (hpages₂ q hq).trans (hpages₁ q hq)
  · rw [halloc, hexts m (Nat.ne_of_lt hm)]
    exact u.alloc.freshNumber_lowest hm
  · rw [he₂, ← hfilling₁, ← hfilling₂]; rfl
  · rw [he₂, ← hstate₁, ← hstate₂]; rfl
  · rw [hothers₂ other ho, hothers₁ other ho, ht.cat]
  · rw [hcandidate] at hd
    subst hd
    refine ⟨fun id x hx => ?_, fun id hnone => ?_, fun hextents => ?_⟩
    · rw [hphotos₂ id, hphotos₁ id, ht.cat, hx]; rfl
    · rw [hphotos₂ id, hphotos₁ id, ht.cat, hnone]; rfl
    · let ns := p.dropCandidate.elim [] Revision.extents
      have hns : ns.Nodup ∧ ∀ m ∈ ns, ∃ x, s.alloc.find m = some x ∧
          (x.state = .live ∧ x.readers = 0 ∨ x.state = .moving) := by
        cases hv : p.dropCandidate with
        | none => simp [ns, hv]
        | some v =>
          obtain ⟨hnd, hfound⟩ := hextents v hv
          refine ⟨by simpa [ns, hv] using hnd, fun m hm => ?_⟩
          have hm' : m ∈ v.extents := by simpa [ns, hv] using hm
          obtain ⟨x, hx, hs⟩ := hfound m hm'
          have hreaders : x.readers = 0 := by
            rw [← Allocator.readersOf_eq hx]
            exact (hdropped v hv).1 m hm'
          exact ⟨x, hx, hs.imp (fun hlive => ⟨hlive, hreaders⟩) id⟩
      obtain ⟨heq, hkept, hreleased⟩ := Allocator.occupy_after_releases hns.1 hns.2 hroom halloc
      refine ⟨heq, hkept, fun v m x hv hm hx => hreleased m ?_ x hx⟩
      simpa [ns, hv] using hm
  · rw [halloc]; exact hext
  · rw [hports]; exact hclaimed
  · rw [hports]; exact hslots j hj
  · rw [hports]

end Sys2Proof.Machine
end

