-- ==== Sys2Proof/Proofs/FreeRuns.lean ====
section
/-! PROOF. Free runs: slots returned and taken, and where an extent is placed (chapter 3, R50 to R55). -/

namespace Sys2Proof.Machine

variable {s t : State} {a k n slot : Nat} {r : FreeRun} {rs runs : List FreeRun}

/-! ## Free runs in order -/

theorem runsSound_cons : runsSound n (r :: rs) ↔
    (∀ x ∈ rs, r.first + r.size < x.first) ∧ (r.size ≠ 0 ∧ r.first + r.size ≤ n) ∧ runsSound n rs := by
  simp only [runsSound, List.pairwise_cons, List.forall_mem_cons]
  tauto

theorem slotFree_nil : ¬slotFree [] slot := by simp [slotFree]
theorem slotFree_cons : slotFree (r :: rs) slot ↔ (r.first ≤ slot ∧ slot < r.first + r.size) ∨ slotFree rs slot := by
  simp [slotFree]

/-- A run that holds none of some slots lies below them or above them. -/
theorem run_apart (hr : r.size ≠ 0) (hk : 0 < k) (h : ∀ slot, a ≤ slot → slot < a + k → ¬slotFree (r :: rs) slot) :
    r.first + r.size ≤ a ∨ a + k ≤ r.first := by
  by_contra hno
  push Not at hno
  have hmax := h (max a r.first) (by omega) (by omega)
  exact hmax (slotFree_cons.mpr (.inl (by omega)))

/-! ## Slots returned (R54) -/

theorem giveSlots_first {x : FreeRun} (h : x ∈ giveSlots a k runs) : x.first = a ∨ ∃ y ∈ runs, x.first = y.first := by
  induction runs with
  | nil => exact .inl (by simp_all [giveSlots])
  | cons r rs ih =>
    unfold giveSlots at h
    split at h
    · rcases List.mem_cons.mp h with rfl | h
      · exact .inr ⟨x, List.mem_cons_self, rfl⟩
      · exact (ih h).imp id fun ⟨y, hy, he⟩ => ⟨y, List.mem_cons_of_mem r hy, he⟩
    · split at h
      · split at h
        · exact .inr ⟨r, List.mem_cons_self, by simp_all⟩
        · split at h
          · rcases List.mem_cons.mp h with rfl | h
            · exact .inr ⟨r, List.mem_cons_self, rfl⟩
            · exact .inr ⟨x, List.mem_cons_of_mem _ (List.mem_cons_of_mem _ h), rfl⟩
          · rcases List.mem_cons.mp h with rfl | h
            · exact .inr ⟨r, List.mem_cons_self, rfl⟩
            · exact .inr ⟨x, List.mem_cons_of_mem _ h, rfl⟩
      · split at h
        · rcases List.mem_cons.mp h with rfl | h
          · exact .inl rfl
          · exact .inr ⟨x, List.mem_cons_of_mem _ h, rfl⟩
        · rcases List.mem_cons.mp h with rfl | h
          · exact .inl rfl
          · exact .inr ⟨x, h, rfl⟩

/-- Returned slots: the runs stay in form, exactly those slots more are free, and the total grows by their number. -/
theorem giveSlots_spec (hruns : runsSound n runs) (hk : 0 < k) (hn : a + k ≤ n)
    (hfree : ∀ slot, a ≤ slot → slot < a + k → ¬slotFree runs slot) :
    runsSound n (giveSlots a k runs) ∧
    (∀ slot, slotFree (giveSlots a k runs) slot ↔ slotFree runs slot ∨ (a ≤ slot ∧ slot < a + k)) ∧
    ((giveSlots a k runs).map FreeRun.size).sum = (runs.map FreeRun.size).sum + k := by
  induction runs with
  | nil =>
    refine ⟨⟨List.pairwise_singleton _ _, ?_⟩, fun slot => ?_, by simp [giveSlots]⟩
    · simp [giveSlots]; omega
    · simp [giveSlots, slotFree]
  | cons r rs ih =>
    obtain ⟨habove, hr, hrs⟩ := runsSound_cons.mp hruns
    have hapart := run_apart hr.1 hk hfree
    have hfree' : ∀ slot, a ≤ slot → slot < a + k → ¬slotFree rs slot := fun slot h1 h2 h =>
      hfree slot h1 h2 (slotFree_cons.mpr (.inr h))
    unfold giveSlots
    split
    next hbelow =>
      obtain ⟨hsound, hslots, hsum⟩ := ih hrs hfree'
      refine ⟨runsSound_cons.mpr ⟨fun x hx => ?_, hr, hsound⟩, fun slot => ?_, ?_⟩
      · rcases giveSlots_first hx with he | ⟨y, hy, he⟩
        · omega
        · rw [he]; exact habove y hy
      · rw [slotFree_cons, slotFree_cons, hslots, or_assoc]
      · simp only [List.map_cons, List.sum_cons, hsum]; omega
    next hbelow =>
      split
      next htouch =>
        split
        next =>
          refine ⟨runsSound_cons.mpr ⟨by simp, by dsimp only; omega, by simp [runsSound]⟩, fun slot => ?_, ?_⟩
          · simp only [slotFree_cons, slotFree_nil, or_false]; omega
          · simp
        next u us =>
          obtain ⟨haboveu, hu, hus⟩ := runsSound_cons.mp hrs
          have hau := run_apart hu.1 hk hfree'
          have hru := habove u List.mem_cons_self
          split
          next hjoin =>
            refine ⟨runsSound_cons.mpr ⟨fun x hx => ?_, by dsimp only; omega, hus⟩, fun slot => ?_, ?_⟩
            · have := haboveu x hx
              dsimp only; omega
            · simp only [slotFree_cons]
              by_cases h : slotFree us slot
              · simp [h]
              · simp only [h, or_false]; omega
            · simp only [List.map_cons, List.sum_cons]; omega
          next hjoin =>
            refine ⟨runsSound_cons.mpr ⟨fun x hx => ?_, by dsimp only; omega, hrs⟩, fun slot => ?_, ?_⟩
            · rcases List.mem_cons.mp hx with rfl | hx
              · dsimp only; omega
              · have := haboveu x hx
                dsimp only; omega
            · simp only [slotFree_cons]
              by_cases h : slotFree us slot
              · simp [h]
              · simp only [h, or_false]; omega
            · simp only [List.map_cons, List.sum_cons]; omega
      next htouch =>
        have hlow : a + k ≤ r.first := by omega
        split
        next hjoin =>
          refine ⟨runsSound_cons.mpr ⟨fun x hx => ?_, by dsimp only; omega, hrs⟩, fun slot => ?_, ?_⟩
          · have := habove x hx
            dsimp only; omega
          · rw [slotFree_cons, slotFree_cons]
            by_cases h : slotFree rs slot
            · simp [h]
            · simp only [h, or_false]; omega
          · simp only [List.map_cons, List.sum_cons]; omega
        next hjoin =>
          refine ⟨runsSound_cons.mpr ⟨fun x hx => ?_, by dsimp only; omega, hruns⟩, fun slot => ?_, ?_⟩
          · rcases List.mem_cons.mp hx with rfl | hx
            · dsimp only; omega
            · have := habove x hx
              dsimp only; omega
          · rw [slotFree_cons]
            exact Or.comm
          · simp only [List.map_cons, List.sum_cons]; omega

/-! ## Slots taken (R51) -/

theorem takeSlots_first {x : FreeRun} (h : x ∈ takeSlots a k runs) : ∃ y ∈ runs, y.first ≤ x.first := by
  induction runs with
  | nil => cases h
  | cons r rs ih =>
    unfold takeSlots at h
    split at h
    next hin =>
      rcases List.mem_append.mp h with h | h
      · rcases List.mem_append.mp h with h | h
        · split at h
          · rw [List.mem_singleton.mp h]
            exact ⟨r, List.mem_cons_self, Nat.le_refl _⟩
          · cases h
        · split at h
          · rw [List.mem_singleton.mp h]
            exact ⟨r, List.mem_cons_self, by dsimp only; omega⟩
          · cases h
      · exact ⟨x, List.mem_cons_of_mem r h, Nat.le_refl _⟩
    next =>
      rcases List.mem_cons.mp h with rfl | h
      · exact ⟨x, List.mem_cons_self, Nat.le_refl _⟩
      · obtain ⟨y, hy, hle⟩ := ih h
        exact ⟨y, List.mem_cons_of_mem r hy, hle⟩

/-- A run put before others when it is not empty. -/
theorem optional_run {c : Prop} [Decidable c] {x : FreeRun} (hc : c ↔ x.size ≠ 0) (hn : x.first + x.size ≤ n)
    (habove : c → ∀ y ∈ rs, x.first + x.size < y.first) (hrs : runsSound n rs) :
    runsSound n ((if c then [x] else []) ++ rs) ∧
    (∀ slot, slotFree ((if c then [x] else []) ++ rs) slot ↔ (x.first ≤ slot ∧ slot < x.first + x.size) ∨ slotFree rs slot) ∧
    (((if c then [x] else []) ++ rs).map FreeRun.size).sum = x.size + (rs.map FreeRun.size).sum := by
  by_cases h : c
  · simp only [if_pos h, List.singleton_append]
    exact ⟨runsSound_cons.mpr ⟨habove h, ⟨hc.mp h, hn⟩, hrs⟩, fun slot => slotFree_cons, by simp⟩
  · have hempty : x.size = 0 := by_contra fun hne => h (hc.mpr hne)
    simp only [if_neg h, List.nil_append]
    refine ⟨hrs, fun slot => ?_, by omega⟩
    rw [or_iff_right (by omega)]

/-- Taken slots: the runs stay in form, exactly those slots are not free any more, and the total falls by their number. -/
theorem takeSlots_spec (hruns : runsSound n runs) (hk : 0 < k)
    (hin : ∃ r ∈ runs, r.first ≤ a ∧ a + k ≤ r.first + r.size) :
    runsSound n (takeSlots a k runs) ∧
    (∀ slot, slotFree (takeSlots a k runs) slot ↔ slotFree runs slot ∧ ¬(a ≤ slot ∧ slot < a + k)) ∧
    ((takeSlots a k runs).map FreeRun.size).sum + k = (runs.map FreeRun.size).sum := by
  induction runs with
  | nil => obtain ⟨r, hr, -⟩ := hin; cases hr
  | cons r rs ih =>
    obtain ⟨habove, hr, hrs⟩ := runsSound_cons.mp hruns
    have hhigher : ∀ slot, slotFree rs slot → r.first + r.size < slot + 1 := fun slot ⟨x, hx, hlow, _⟩ => by
      have := habove x hx
      omega
    unfold takeSlots
    split
    next hhere =>
      obtain ⟨hsound, hslots, hsum⟩ := optional_run (c := a + k < r.first + r.size)
        (x := ⟨a + k, r.first + r.size - (a + k)⟩) (n := n) (by dsimp only; omega) (by dsimp only; omega)
        (fun _ y hy => by have := habove y hy; dsimp only; omega) hrs
      obtain ⟨hsound', hslots', hsum'⟩ := optional_run (c := r.first < a) (x := ⟨r.first, a - r.first⟩) (n := n)
        (by dsimp only; omega) (by dsimp only; omega) (fun _ y hy => by
          dsimp only
          rcases List.mem_append.mp hy with hy | hy
          · split at hy
            · rw [List.mem_singleton.mp hy]; dsimp only; omega
            · cases hy
          · have := habove y hy
            omega) hsound
      rw [List.append_assoc]
      refine ⟨hsound', fun slot => ?_, ?_⟩
      · rw [hslots', hslots, slotFree_cons]
        have := hhigher slot
        by_cases h : slotFree rs slot
        · have := this h
          simp only [h, or_true, true_and, true_iff]; omega
        · simp only [h, or_false]; omega
      · simp only [hsum', hsum, List.map_cons, List.sum_cons]; omega
    next hnot =>
      obtain ⟨x, hx, hlow, hhigh⟩ := hin
      have hxs : x ∈ rs := (List.mem_cons.mp hx).resolve_left fun he => hnot (he ▸ ⟨hlow, hhigh⟩)
      obtain ⟨hsound, hslots, hsum⟩ := ih hrs ⟨x, hxs, hlow, hhigh⟩
      have hxa := habove x hxs
      refine ⟨runsSound_cons.mpr ⟨fun y hy => ?_, hr, hsound⟩, fun slot => ?_, ?_⟩
      · obtain ⟨z, hz, hle⟩ := takeSlots_first hy
        exact (habove z hz).trans_le hle
      · rw [slotFree_cons, slotFree_cons, hslots]
        by_cases h : slotFree rs slot
        · simp only [h, true_and, or_true]; omega
        · simp only [h, false_and, or_false]; omega
      · simp only [List.map_cons, List.sum_cons]; omega

/-! ## Where an extent is placed (R51, R52) -/

/-- The test of a piece for an extent that is not empty. -/
theorem fits_iff {p : FreeRun} (hk : 0 < k) : (k ≤ p.size && p.size != 0) = true ↔ k ≤ p.size := by
  simp only [Bool.and_eq_true, decide_eq_true_eq, bne_iff_ne]
  omega

theorem offeredPieces_none (runs : List FreeRun) : runs.flatMap (offeredPieces none) = runs :=
  List.flatMap_singleton' runs

/-- Without a move in flight the lowest run that is large enough is found. -/
theorem find_run {p : FreeRun} (hk : 0 < k) (hruns : runsSound n runs)
    (h : runs.find? (fun p => k ≤ p.size && p.size != 0) = some p) :
    p ∈ runs ∧ k ≤ p.size ∧ ∀ r ∈ runs, r.first < p.first → r.size < k := by
  obtain ⟨hp, before, after, rfl, hbefore⟩ := List.find?_eq_some_iff_append.mp h
  refine ⟨by simp, (fits_iff hk).mp hp, fun r hr hlt => ?_⟩
  rcases List.mem_append.mp hr with hr | hr
  · have hnot : r.size < k ∨ r.size = 0 := by simpa using hbefore r hr
    omega
  · rcases List.mem_cons.mp hr with rfl | hr
    · omega
    · have hpair := (List.pairwise_append.mp hruns.1).2.1
      have := (List.pairwise_cons.mp hpair).1 r hr
      omega

/-- A piece offered of a run: it lies inside the run, and beside a target that the run holds. -/
theorem mem_offeredPieces {target size : Nat} {p : FreeRun} (h : p ∈ offeredPieces (some (target, size)) r) (hp : p.size ≠ 0) :
    (r.first ≤ p.first ∧ p.first + p.size ≤ r.first + r.size) ∧
    (r.first ≤ target ∧ target + size ≤ r.first + r.size → p.first + p.size ≤ target ∨ target + size ≤ p.first) := by
  unfold offeredPieces at h
  dsimp only at h
  split at h
  next hin =>
    rcases List.mem_cons.mp h with rfl | h
    · dsimp only at hp ⊢; omega
    · obtain rfl := List.mem_singleton.mp h
      dsimp only at hp ⊢; omega
  next hout =>
    obtain rfl := List.mem_singleton.mp h
    exact ⟨by omega, fun hin => absurd hin hout⟩

/-- Slots of a run that touch no slot of the target lie in a piece that the run offers. -/
theorem exists_offeredPiece {target size b : Nat} (hlow : r.first ≤ b) (hhigh : b + k ≤ r.first + r.size)
    (hbeside : ¬(b < target + size ∧ target < b + k)) :
    ∃ p ∈ offeredPieces (some (target, size)) r, k ≤ p.size ∧ p.first ≤ b := by
  unfold offeredPieces
  dsimp only
  split
  next hin =>
    by_cases hbelow : b + k ≤ target
    · exact ⟨⟨r.first, target - r.first⟩, by simp, by dsimp only; omega, hlow⟩
    · exact ⟨⟨target + size, r.first + r.size - (target + size)⟩, by simp, by dsimp only; omega, by dsimp only; omega⟩
  next => exact ⟨r, by simp, by omega, hlow⟩

theorem offeredPieces_sorted (target size : Nat) (r : FreeRun) :
    (offeredPieces (some (target, size)) r).Pairwise (fun p q => p.first ≤ q.first) := by
  unfold offeredPieces
  dsimp only
  split
  next hin => simpa using by omega
  next => exact List.pairwise_singleton _ _

/-- With a move in flight the piece found is that of a run, and no slots below it leave the target alone. -/
theorem find_piece {target size : Nat} {p : FreeRun} (hk : 0 < k) (hruns : runsSound n runs)
    (h : (runs.flatMap (offeredPieces (some (target, size)))).find? (fun p => k ≤ p.size && p.size != 0) = some p) :
    (∃ r ∈ runs, p ∈ offeredPieces (some (target, size)) r ∧ k ≤ p.size) ∧
    ∀ b, b < p.first → ∀ r ∈ runs, r.first ≤ b → b + k ≤ r.first + r.size → b < target + size ∧ target < b + k := by
  induction runs with
  | nil => cases h
  | cons r rs ih =>
    obtain ⟨habove, -, hrs⟩ := runsSound_cons.mp hruns
    rw [List.flatMap_cons, List.find?_append] at h
    cases hfirst : (offeredPieces (some (target, size)) r).find? (fun p => k ≤ p.size && p.size != 0) with
    | some q =>
      rw [hfirst] at h
      obtain rfl : q = p := Option.some.inj h
      obtain ⟨hfit, before, after, hpieces, hbefore⟩ := List.find?_eq_some_iff_append.mp hfirst
      have hsize := (fits_iff hk).mp hfit
      have hmem : q ∈ offeredPieces (some (target, size)) r := List.mem_of_find?_eq_some hfirst
      have hin := (mem_offeredPieces hmem (by omega)).1
      refine ⟨⟨r, List.mem_cons_self, hmem, hsize⟩, fun b hb x hx hlow hhigh => ?_⟩
      rcases List.mem_cons.mp hx with rfl | hx
      · by_contra hbeside
        obtain ⟨p, hp, hpk, hpb⟩ := exists_offeredPiece hlow hhigh hbeside
        rw [hpieces] at hp
        rcases List.mem_append.mp hp with hp | hp
        · have hnot : p.size < k ∨ p.size = 0 := by simpa using hbefore p hp
          omega
        · rcases List.mem_cons.mp hp with rfl | hp
          · omega
          · have hsorted := offeredPieces_sorted target size x
            rw [hpieces] at hsorted
            have := (List.pairwise_cons.mp (List.pairwise_append.mp hsorted).2.1).1 p hp
            omega
      · have := habove x hx
        omega
    | none =>
      rw [hfirst, Option.none_or] at h
      obtain ⟨⟨x, hx, hmem, hsize⟩, hlowest⟩ := ih hrs h
      refine ⟨⟨x, List.mem_cons_of_mem r hx, hmem, hsize⟩, fun b hb y hy hlow hhigh => ?_⟩
      rcases List.mem_cons.mp hy with rfl | hy
      · by_contra hbeside
        obtain ⟨q, hq, hqk, -⟩ := exists_offeredPiece hlow hhigh hbeside
        exact List.find?_eq_none.mp hfirst q hq ((fits_iff hk).mpr hqk)
      · exact hlowest b hb y hy hlow hhigh

/-- Two runs in order are the same, or one lies below the other. -/
theorem runs_ordered {x y : FreeRun} (h : runsSound n runs) (hx : x ∈ runs) (hy : y ∈ runs) :
    x = y ∨ x.first + x.size < y.first ∨ y.first + y.size < x.first := by
  induction runs with
  | nil => cases hx
  | cons r rs ih =>
    obtain ⟨habove, -, hrs⟩ := runsSound_cons.mp h
    rcases List.mem_cons.mp hx with hxr | hx <;> rcases List.mem_cons.mp hy with hyr | hy
    · exact .inl (hxr.trans hyr.symm)
    · exact .inr (.inl (hxr ▸ habove y hy))
    · exact .inr (.inr (hyr ▸ habove x hx))
    · exact ih hrs hx hy

/-- A placed extent fits a piece that the runs offer. -/
theorem Allocator.place_ok {x : Allocator} {first : Nat} (h : x.place k = .ok first) : ∃ p : FreeRun, p.first = first ∧
    (x.runs.flatMap (offeredPieces x.moveTarget)).find? (fun p => k ≤ p.size && p.size != 0) = some p := by
  unfold Allocator.place at h
  split at h
  · cases h
  · split at h
    next p hp => exact ⟨p, Except.ok.inj h, hp⟩
    next => cases h

theorem Allocator.moveTarget_some {x : Allocator} {m : Move} {e : Extent} (hm : x.compaction.move = some m)
    (he : x.find m.extent = some e) : x.moveTarget = some (m.target, e.size) := by
  simp [Allocator.moveTarget, hm, he]
theorem Allocator.moveTarget_none {x : Allocator} (hm : x.compaction.move = none) : x.moveTarget = none := by
  simp [Allocator.moveTarget, hm]

/-- The last reader's end returns a RELEASING extent (R55). -/
theorem State.readerEnd_releasing {e : Extent} (he : s.alloc.find n = some e) (hs : e.state = .releasing) (hr : e.readers = 1) :
    s.readerEnd n = { s with alloc := (s.readerEnd n).alloc } ∧ s.alloc.Returned n e (s.readerEnd n).alloc := by
  have heq : s.readerEnd n = { s with alloc := (s.alloc.modExtent n fun e => { e with readers := e.readers - 1 }).giveBack n } := by
    unfold State.readerEnd
    simp only [he, hr, hs]
    rfl
  have hmod := Allocator.modExtent_rewritten (f := fun e => { e with readers := e.readers - 1 }) he (by intro _; rfl)
  have hback := Allocator.giveBack_returned hmod.2.1
  rw [heq]
  refine ⟨rfl, ?_, hback.2.1, fun m hm => (hback.2.2 m hm).trans (hmod.2.2 m hm)⟩
  rw [hback.1]
  rfl

/-- Settles O39. -/
theorem freeRuns : Obligations.FreeRuns := by
  unfold Obligations.FreeRuns
  refine ⟨fun a n e he => ⟨Allocator.release_unused he, Allocator.release_read he, Allocator.release_moving he, fun hs => ?_⟩,
    fun s n e he hs hr => State.readerEnd_releasing he hs hr,
    fun n runs a k hruns hk hn => ⟨giveSlots_spec hruns hk hn, takeSlots_spec hruns hk,
      fun x m e first hx hm he hin hplace => ?_, fun x hx hm hroom => ⟨fun first hplace => ?_, fun hsmall => ?_⟩⟩⟩
  · simp [Allocator.release, he, hs]
  · obtain ⟨p, rfl, hfind⟩ := Allocator.place_ok hplace
    rw [Allocator.moveTarget_some hm he, hx] at hfind
    obtain ⟨⟨r, hr, hmem, hsize⟩, hlowest⟩ := find_piece hk hruns hfind
    obtain ⟨hinside, hbeside⟩ := mem_offeredPieces hmem (by omega)
    obtain ⟨x₀, hx₀, hlow₀, hhigh₀⟩ := hin
    refine ⟨⟨r, hr, by omega⟩, ?_, fun b hb ⟨y, hy, hlow, hhigh⟩ => hlowest b hb y hy hlow hhigh⟩
    rcases runs_ordered hruns hr hx₀ with rfl | hbelow | habove
    · have := hbeside ⟨hlow₀, hhigh₀⟩
      omega
    · omega
    · omega
  · obtain ⟨p, rfl, hfind⟩ := Allocator.place_ok hplace
    rw [Allocator.moveTarget_none hm, offeredPieces_none, hx] at hfind
    obtain ⟨hmem, hsize, hlowest⟩ := find_run hk hruns hfind
    exact ⟨⟨p, hmem, rfl, hsize⟩, hlowest⟩
  · have hnone : (x.runs.flatMap (offeredPieces x.moveTarget)).find? (fun p => k ≤ p.size && p.size != 0) = none := by
      rw [Allocator.moveTarget_none hm, offeredPieces_none, hx, List.find?_eq_none]
      intro r hr
      rw [fits_iff hk]
      exact Nat.not_le_of_lt (hsmall r hr)
    have hfull : ¬Config.maxExtents ≤ x.extents.length := Nat.not_le_of_lt hroom
    rw [Allocator.place, if_neg hfull, hnone, Allocator.freeTotal, hx]

end Sys2Proof.Machine
end

