-- ==== Sys2Proof/Proofs/Walks.lean ====
section
/-! PROOF. Walks and regions (chapters 5 and 6, R88, R89, R103). -/

namespace Sys2Proof.Machine

variable {w : Walk} {W H : Nat}

theorem lt_ceilDiv {a step n : Nat} (hs : 1 ≤ step) : n < ceilDiv a step ↔ step * n < a := by
  rw [ceilDiv, ← Nat.succ_le_iff, Nat.le_div_iff_mul_le (by omega), Nat.succ_mul, Nat.mul_comm n step]
  omega

/-- Counting in a direction: from the lowest, or from the highest. -/
def turned (n : Nat) (back : Bool) (i : Nat) : Nat := if back then n - 1 - i else i

theorem turned_lt {n i : Nat} {back : Bool} (h : i < n) : turned n back i < n := by
  unfold turned; split <;> omega
theorem turned_turned {n i : Nat} {back : Bool} (h : i < n) : turned n back (turned n back i) = i := by
  unfold turned; split <;> omega

/-- The column and the row, among the selected ones, of a line and place. -/
def Walk.columnAt (w : Walk) (line place : Nat) : Nat := turned w.columnCount w.xBack (if w.columns then line else place)
def Walk.rowAt (w : Walk) (line place : Nat) : Nat := turned w.rowCount w.yBack (if w.columns then place else line)

theorem Walk.columnAt_lt {line place : Nat} (hl : line < w.lines) (hp : place < w.places) :
    w.columnAt line place < w.columnCount := by
  refine turned_lt ?_
  unfold Walk.lines at hl
  unfold Walk.places at hp
  split at hl <;> split at hp <;> simp_all
theorem Walk.rowAt_lt {line place : Nat} (hl : line < w.lines) (hp : place < w.places) : w.rowAt line place < w.rowCount := by
  refine turned_lt ?_
  unfold Walk.lines at hl
  unfold Walk.places at hp
  split at hl <;> split at hp <;> simp_all

theorem Walk.tileAt_eq {line : Nat} (place : Nat) (hl : line < w.lines) : w.tileAt W line place =
    some ((w.region.y0 + w.step * w.rowAt line place) * W + (w.region.x0 + w.step * w.columnAt line place)) := if_pos hl

/-- The line and place of a column and a row. -/
theorem Walk.exists_position {i j : Nat} (hi : i < w.columnCount) (hj : j < w.rowCount) :
    ∃ line place, line < w.lines ∧ place < w.places ∧ w.columnAt line place = i ∧ w.rowAt line place = j := by
  have hx := turned_lt (back := w.xBack) hi
  have hy := turned_lt (back := w.yBack) hj
  have hxx := turned_turned (back := w.xBack) hi
  have hyy := turned_turned (back := w.yBack) hj
  by_cases hc : w.columns = true
  · exact ⟨turned w.columnCount w.xBack i, turned w.rowCount w.yBack j, by rwa [Walk.lines, if_pos hc],
      by rwa [Walk.places, if_pos hc], by rwa [Walk.columnAt, if_pos hc], by rwa [Walk.rowAt, if_pos hc]⟩
  · exact ⟨turned w.rowCount w.yBack j, turned w.columnCount w.xBack i, by rwa [Walk.lines, if_neg hc],
      by rwa [Walk.places, if_neg hc], by rwa [Walk.columnAt, if_neg hc], by rwa [Walk.rowAt, if_neg hc]⟩

theorem turned_inj {n i k : Nat} {back : Bool} (hi : i < n) (hk : k < n) (h : turned n back i = turned n back k) : i = k := by
  rw [← turned_turned (back := back) hi, h, turned_turned hk]

/-- A line and place are known by their column and row. -/
theorem Walk.position_inj {line place line' place' : Nat} (hl : line < w.lines) (hp : place < w.places) (hl' : line' < w.lines)
    (hp' : place' < w.places) (hc : w.columnAt line' place' = w.columnAt line place)
    (hr : w.rowAt line' place' = w.rowAt line place) : line' = line ∧ place' = place := by
  unfold Walk.lines at hl hl'
  unfold Walk.places at hp hp'
  unfold Walk.columnAt at hc
  unfold Walk.rowAt at hr
  split at hc
  next h =>
    simp only [h, if_true] at *
    exact ⟨turned_inj hl' hl hc, turned_inj hp' hp hr⟩
  next h =>
    simp only [h] at *
    exact ⟨turned_inj hl' hl hr, turned_inj hp' hp hc⟩

/-- A tile index is known by its row and column. -/
theorem index_inj {y x y' x' : Nat} (hx : x < W) (hx' : x' < W) (h : y' * W + x' = y * W + x) : y' = y ∧ x' = x := by
  have hmod := congrArg (· % W) h
  simp only [Nat.mul_add_mod', Nat.mod_eq_of_lt hx, Nat.mod_eq_of_lt hx'] at hmod
  subst hmod
  exact ⟨Nat.eq_of_mul_eq_mul_right (by omega) (Nat.add_right_cancel h), rfl⟩

theorem Walk.column_lt (hs : 1 ≤ w.step) (hW : w.region.x0 + w.region.w ≤ W) {i : Nat} (hi : i < w.columnCount) :
    w.region.x0 + w.step * i < W := by
  have := (lt_ceilDiv hs).mp hi
  omega

/-- The positions of a walk, line by line. -/
theorem Walk.repeat_advance (hp : 0 < w.places) (k : Nat) :
    Nat.repeat (fun p : Nat × Nat => w.advance p.1 p.2) k (0, 0) = (k / w.places, k % w.places) := by
  induction k with
  | zero => simp [Nat.repeat]
  | succ k ih =>
    have hdm := Nat.div_add_mod k w.places
    have hlt := Nat.mod_lt k hp
    rw [Nat.repeat, ih, Walk.advance]
    split
    next h =>
      obtain ⟨hq, hr⟩ := (Nat.div_mod_unique (a := k + 1) (c := k % w.places + 1) (d := k / w.places) hp).mpr ⟨by omega, h⟩
      rw [hq, hr]
    next h =>
      have hfull : w.places * (k / w.places + 1) = w.places * (k / w.places) + w.places := Nat.mul_succ _ _
      obtain ⟨hq, hr⟩ := (Nat.div_mod_unique (a := k + 1) (c := 0) (d := k / w.places + 1) hp).mpr ⟨by omega, hp⟩
      rw [hq, hr]

/-- Settles O42: a position and its column and row determine each other, and a tile's index its column and row. -/
theorem walkCoversRegion : Obligations.WalkCoversRegion := by
  unfold Obligations.WalkCoversRegion
  refine ⟨fun w W hs hW => ⟨?_, rfl, fun n => lt_ceilDiv hs, fun n => lt_ceilDiv hs, fun line place hl hp => ?_,
    fun i j hi hj => ?_, fun line place hl => if_neg (Nat.not_lt_of_le hl), Walk.repeat_advance⟩, fun W H r => ⟨rfl, ?_,
    fun q clipped h => ?_⟩⟩
  · unfold Walk.lines Walk.places
    split
    · rfl
    · exact Nat.mul_comm _ _
  · exact ⟨_, _, Walk.columnAt_lt hl hp, Walk.rowAt_lt hl hp, Walk.tileAt_eq place hl, rfl, rfl⟩
  · obtain ⟨line, place, hl, hp, hc, hr⟩ := Walk.exists_position hi hj
    have htile := Walk.tileAt_eq (W := W) place hl
    refine ⟨line, place, hl, hp, by rw [htile, hc, hr], fun line' place' hl' hp' h => ?_⟩
    rw [Walk.tileAt_eq place' hl', htile] at h
    obtain ⟨hy, hx⟩ := index_inj (Walk.column_lt hs hW (Walk.columnAt_lt hl hp)) (Walk.column_lt hs hW (Walk.columnAt_lt hl' hp'))
      (Option.some.inj h)
    exact Walk.position_inj hl hp hl' hp' (Nat.eq_of_mul_eq_mul_left hs (Nat.add_left_cancel hx))
      (Nat.eq_of_mul_eq_mul_left hs (Nat.add_left_cancel hy))
  · unfold clipRegion
    dsimp only
    split
    next hbad => simpa using hbad
    next hgood => simpa using hgood
  · unfold clipRegion at h
    dsimp only at h
    split at h
    · cases h
    next hgood =>
      obtain ⟨rfl, rfl⟩ := Prod.mk.inj (Option.some.inj h)
      simp only [Bool.or_eq_true, decide_eq_true_eq]
      exact ⟨trivial, by omega, by omega, by omega, by omega, trivial⟩

end Sys2Proof.Machine
end

