-- ==== Sys2Proof/Proofs/Profiles.lean ====
section
/-! PROOF. The tone profiles (chapter 7, R145, R147). -/

namespace Sys2Proof.Machine

theorem Profile.verify_good {p : Profile} (h : checkValues p.tone.values = p.check) : p.verify = p := if_pos h
theorem Profile.verify_bad {p : Profile} (h : checkValues p.tone.values ≠ p.check) : p.verify = Profile.identity := if_neg h

theorem Profile.verify_verify (p : Profile) : p.verify.verify = p.verify := by
  by_cases h : checkValues p.tone.values = p.check
  · rw [Profile.verify_good h, Profile.verify_good h]
  · rw [Profile.verify_bad h]
    exact Profile.verify_good rfl

/-- Settles O49. -/
theorem toneProfiles : Obligations.ToneProfiles := by
  unfold Obligations.ToneProfiles
  refine ⟨fun tag ps fs n b w sp s s₁ h hn hb hw hsp => ⟨fun hn31 hb255 hw255 hs255 hwide => ?_, fun hbad => ?_,
    fun hn31 hb255 hw255 hs255 hnarrow => ?_⟩, fun p => ⟨Profile.verify_good, fun hbad => ?_⟩, Profile.verify_verify⟩
  · have hgood : ¬(31 < n ∨ 255 < b ∨ 255 < w ∨ 255 < sp) := by omega
    have hbody : writeProfileBody fs s₁ = ({ result := .ok, fields := [.one b, .one w, .one (min sp 63)] },
        s₁.modEngine fun g => { g with profiles := g.profiles.set n (Profile.stored ⟨b, w, min sp 63⟩) }) := by
      simp only [writeProfileBody, hn, hb, hw, hsp, required, if_neg hgood, if_neg (Nat.not_lt_of_le hwide)]
      rfl
    refine (exec_takenLocal (.writeProfile .desk tag ps) rfl rfl rfl h hbody).trans ?_
    rw [← h.engine]
    rfl
  · exact exec_takenLocal (.writeProfile .desk tag ps) rfl rfl rfl h
      (by simp [bodyOfCommand, writeProfileBody, hn, hb, hw, hsp, required, hbad]; rfl)
  · have hgood : ¬(31 < n ∨ 255 < b ∨ 255 < w ∨ 255 < sp) := by omega
    exact exec_takenLocal (.writeProfile .desk tag ps) rfl rfl rfl h
      (by simp only [bodyOfCommand, writeProfileBody, hn, hb, hw, hsp, required, if_neg hgood, if_pos hnarrow]; rfl)
  · rw [Profile.verify_bad hbad]
    exact ⟨rfl, rfl, rfl⟩

end Sys2Proof.Machine
end

