-- ==== Sys2Proof/Proofs/Compaction.lean ====
section
/-! PROOF. Handouts of the tile mover and the compaction (chapters 3 and 5, R58 to R62, R86, R97). -/

namespace Sys2Proof.Machine

variable {s s₁ t : State} {c : Fin 4} {e : Extent} {f : FreeRun}

/-! ## Handouts (R86) -/

theorem State.idleChannel_none (h : ∀ c, (s.channel c).state ≠ .idle) : s.idleChannel = none := by
  rw [State.idleChannel, List.find?_eq_none]
  intro c _
  simpa using h c
theorem State.idleChannel_some (hc : (s.channel c).state = .idle) (hbefore : ∀ b, b < c → (s.channel b).state ≠ .idle) :
    s.idleChannel = some c :=
  find_fourIndices (by simpa using hc) fun b hb => by simpa using hbefore b hb

theorem State.startable_none (h : s.mover.queue = []) : s.startable = none := by simp [State.startable, h]

theorem State.handout_busy (h : s.idleChannel = none) : s.handout = s := by
  unfold State.handout
  rw [State.handoutLoop, h]

/-- With nothing waiting that can start, a handout changes nothing. -/
theorem State.handoutLoop_rest (hd : s.startable = none) (hr : s.mover.copyRequest = false) (fuel : Nat) :
    s.handoutLoop fuel = s := by
  cases fuel with
  | zero => rfl
  | succ fuel =>
    rw [State.handoutLoop]
    cases s.idleChannel with
    | none => rfl
    | some c => simp [hd, hr]
theorem State.handout_rest (hd : s.startable = none) (hr : s.mover.copyRequest = false) : s.handout = s :=
  State.handoutLoop_rest hd hr _

/-- An IDLE channel is handed the copy request when no delivery can start. -/
theorem State.handout_copy (hc : s.idleChannel = some c) (hd : s.startable = none) (hr : s.mover.copyRequest = true) :
    s.handout = (s.startCopy c).handoutLoop (s.mover.queue.length + 1) := by
  unfold State.handout
  rw [State.handoutLoop, hc]
  simp [hd, hr]

/-! ## Channels -/

theorem Four.set_set {α : Type} (f : Four α) (i : Fin 4) (x y : α) : (f.set i x).set i y = f.set i y := by
  match i with
  | 0 | 1 | 2 | 3 => rfl

theorem State.modChannel_modChannel (s : State) (c : Fin 4) (f g : Channel → Channel) :
    (s.modChannel c f).modChannel c g = s.modChannel c fun ch => g (f ch) := by
  unfold State.modChannel State.modMover
  simp [Four.get_set_same, Four.set_set]

/-! ## The copy request (R59, R60, R97) -/

/-- The channel of a copy reads its next tile from the old place. -/
theorem State.issueCopyRead_eq {m : Move} (hm : s.alloc.compaction.move = some m) : s.issueCopyRead c =
    (s.modChannel c fun ch => { ch with buffer := [{ state := .reading, index := ch.nextCopy }] }).modStore
      (Store.ask s.now ⟨.channel c, m.oldFirst + (s.channel c).nextCopy, .read⟩) := by
  unfold State.issueCopyRead
  rw [hm]
  rfl

theorem State.startCopy_nothing (h : searchMove s.alloc.extents s.alloc.runs = none) : s.startCopy c =
    ({ s with mover := { s.mover with copyRequest := false }
              alloc := s.alloc.modCompaction (Compaction.finish .nothingMovable) } : State).raise .compactDone := by
  have hsearch : searchMove (s.modMover fun m => { m with copyRequest := false }).alloc.extents
      (s.modMover fun m => { m with copyRequest := false }).alloc.runs = none := h
  unfold State.startCopy
  simp only [hsearch]
  rfl

/-- The move starts on the channel: its extent is MOVING, and the first tile is read (R60, R97). -/
theorem State.startCopy_move (h : searchMove s.alloc.extents s.alloc.runs = some (e, f)) : s.startCopy c =
    ((({ s with alloc := s.alloc.startMove e f, mover := { s.mover with copyRequest := false } } : State).modChannel c fun _ =>
      { state := .running, work := some .copy, terminal := e.size, buffer := [{ state := .reading, index := 0 }] }).modStore
      (Store.ask s.now ⟨.channel c, e.first, .read⟩)) := by
  have hsearch : searchMove (s.modMover fun m => { m with copyRequest := false }).alloc.extents
      (s.modMover fun m => { m with copyRequest := false }).alloc.runs = some (e, f) := h
  unfold State.startCopy
  simp only [hsearch]
  rw [State.issueCopyRead_eq (m := { extent := e.number, oldFirst := e.first, target := f.first, copied := 0 }) rfl,
    State.modChannel_modChannel, State.modChannel_channel]
  rfl

/-- COMPACT places its copy request (R58). -/
theorem State.startCompaction_eq (n : Nat) (s : State) : s.startCompaction n = State.handout { s with
    alloc := { s.alloc with compaction := { s.alloc.compaction with state := .waiting, asked := n, made := 0, stop := false } }
    mover := { s.mover with copyRequest := true } } := rfl

/-! ## The search (R59) -/

/-- What a search finds, and why it found nothing below. -/
theorem searchMove_spec {es : List Extent} {runs : List FreeRun} (h : searchMove es runs = some (e, f)) :
    e ∈ es ∧ e.first = f.first + f.size ∧ e.state = .live ∧ e.readers = 0 ∧ e.size ≤ f.size ∧
    ∃ below above, runs = below ++ f :: above ∧ ∀ g ∈ below, ∃ x ∈ es, x.first = g.first + g.size ∧
      (x.state ≠ .live ∨ x.readers ≠ 0 ∨ g.size < x.size) := by
  induction runs with
  | nil => cases h
  | cons r rs ih =>
    unfold searchMove at h
    split at h
    · cases h
    next x hx =>
      have hmem := List.mem_of_find?_eq_some hx
      have hfirst : x.first = r.first + r.size := by simpa using List.find?_some hx
      split at h
      next hfits =>
        obtain ⟨rfl, rfl⟩ := Prod.mk.inj (Option.some.inj h)
        exact ⟨hmem, hfirst, hfits.1, hfits.2.1, hfits.2.2, [], rs, rfl, by simp⟩
      next hno =>
        obtain ⟨he, hef, hs, hr, hsize, below, above, rfl, hbelow⟩ := ih h
        refine ⟨he, hef, hs, hr, hsize, r :: below, above, rfl, fun g hg => ?_⟩
        rcases List.mem_cons.mp hg with rfl | hg
        · refine ⟨x, hmem, hfirst, ?_⟩
          by_contra hall
          push Not at hall
          exact hno hall
        · exact hbelow g hg

/-- Settles O40. -/
theorem compact : Obligations.Compact := by
  unfold Obligations.Compact
  refine ⟨fun tag ps fs n s s₁ h hn => ⟨fun hbad => ?_, fun h1 h64 hbusy => ?_, fun h1 h64 hidle hqueue =>
    ⟨fun hnone => ?_, fun c hc hbefore => ⟨fun hsearch => ?_, fun e f hsearch he => ?_⟩⟩⟩, fun es runs e f h => searchMove_spec h⟩
  · exact exec_takenWide (.compact .production tag ps) rfl rfl rfl h
      (by simp [bodyOfCommand, compactBody, hn, required, hbad]; rfl)
  · have hgood : ¬(n = 0 ∨ 64 < n) := by omega
    exact exec_takenWide (.compact .production tag ps) rfl rfl rfl h
      (by simp [bodyOfCommand, compactBody, hn, required, hgood, h.alloc, hbusy]; rfl)
  all_goals
    have hgood : ¬(n = 0 ∨ 64 < n) := by omega
    have hexec := exec_takenWide (t := s₁.startCompaction n) (a := { result := .ok }) (.compact .production tag ps) rfl rfl rfl h
      (by simp [bodyOfCommand, compactBody, hn, required, hgood, h.alloc, hidle]; rfl)
    rw [State.startCompaction_eq, h.alloc, h.mover] at hexec
    let u : State := { s₁ with
      alloc := { s.alloc with compaction := { s.alloc.compaction with state := .waiting, asked := n, made := 0, stop := false } }
      mover := { s.mover with copyRequest := true } }
  · have hrest : u.handout = u := State.handout_busy (State.idleChannel_none hnone)
    rw [show State.handout _ = u from hrest] at hexec
    exact hexec
  all_goals
    have hc' : u.idleChannel = some c := State.idleChannel_some hc hbefore
    have hstart := State.handout_copy hc' (State.startable_none (s := u) hqueue) rfl
  · rw [State.startCopy_nothing (s := u) hsearch] at hstart
    have hrest : u.handout = ({ u with
        mover := { u.mover with copyRequest := false }
        alloc := u.alloc.modCompaction (Compaction.finish .nothingMovable) } : State).raise .compactDone :=
      hstart.trans (State.handoutLoop_rest (State.startable_none (by exact hqueue)) rfl _)
    rw [show State.handout _ = _ from hrest] at hexec
    exact hexec
  · have hmove := State.startCopy_move (s := u) (c := c) hsearch
    have hrest : u.handout = u.startCopy c := by
      refine hstart.trans (State.handoutLoop_rest (State.startable_none ?_) ?_ _)
      · rw [hmove]; exact hqueue
      · rw [hmove]; rfl
    rw [show State.handout _ = _ from hrest] at hexec
    have hext := Allocator.modExtent_rewritten (f := fun e => { e with state := .moving }) he (by intro _; rfl)
    refine ⟨u.startCopy c, hexec, ?_⟩
    rw [hmove]
    refine ⟨rfl, rfl, hext.2.1, hext.2.2, Four.get_set_same _ _ _, fun b hb => Four.get_set_other _ _ _ _ hb, rfl, ?_, ?_⟩
    · refine (Store.ask_waiting _ _ _).trans ?_
      rw [← h.store]; rfl
    · refine (Store.ask_mem _ _ _).trans ?_
      rw [← h.store]; rfl

end Sys2Proof.Machine
end

