-- ==== Sys2Proof/Proofs/Copies.lean ====
section
/-! PROOF. Reads that complete, and the record of a damaged one (chapters 1, 4 and 5, R9, R69, R75). -/

namespace Sys2Proof.Machine

variable {s t : State} {slot : Nat} {reader : ReaderKind} {e : Extent}

/-! ## Damage lists (R9) -/

theorem DamageList.add_known {d : DamageList} {entry : DamageEntry} (h : entry ∈ d.entries) : d.add entry = d :=
  if_pos (by simpa using h)
theorem DamageList.add_room {d : DamageList} {entry : DamageEntry} (h : entry ∉ d.entries) (hroom : d.entries.length < 8) :
    d.add entry = { d with entries := d.entries ++ [entry] } := by
  simp [DamageList.add, h, hroom]
theorem DamageList.add_full {d : DamageList} {entry : DamageEntry} (h : entry ∉ d.entries) (hfull : 8 ≤ d.entries.length) :
    d.add entry = { d with overflow := true } := by
  simp [DamageList.add, h, Nat.not_lt_of_le hfull]

/-! ## The record of a damaged read (R75) -/

theorem State.recordDamage_unowned (h : ∀ e, s.alloc.holding slot = some e → e.owned = false) : s.recordDamage slot reader =
    s.modStore fun st =>
      { st with damagedReads := countUp st.damagedReads, lastDamage := some { slot, reader, owner := none } } := by
  have hnone : ((s.alloc.holding slot).bind fun e => if e.owned then some (e.owner, slot - e.first) else none) = none := by
    cases he : s.alloc.holding slot with
    | none => rfl
    | some e => simp [h e he]
  unfold State.recordDamage
  simp only [hnone]

theorem State.recordDamage_owned (h : s.alloc.holding slot = some e) (ho : e.owned = true) : s.recordDamage slot reader =
    let u := (s.modStore fun st => { st with
      damagedReads := countUp st.damagedReads, lastDamage := some { slot, reader, owner := some (e.owner, slot - e.first) } }).modCat
        fun c => c.addDamage e.owner (slot - e.first)
    if (s.cat.addDamage e.owner (slot - e.first)).damageOf e.owner = s.cat.damageOf e.owner then u else u.raise .tileDamaged := by
  have hsome : ((s.alloc.holding slot).bind fun e => if e.owned then some (e.owner, slot - e.first) else none) =
      some (e.owner, slot - e.first) := by
    simp [h, ho]
  unfold State.recordDamage
  simp only [hsome]
  rfl

/-- What the record of a damaged read changes, and that it is the record of R75. -/
theorem State.recordDamage_spec (slot : Nat) (reader : ReaderKind) (s : State) :
    s.recordDamage slot reader = { s with store := (s.recordDamage slot reader).store
                                          cat := (s.recordDamage slot reader).cat
                                          production := (s.recordDamage slot reader).production } ∧
    (s.recordDamage slot reader).store = { s.store with
      damagedReads := (s.recordDamage slot reader).store.damagedReads
      lastDamage := (s.recordDamage slot reader).store.lastDamage } ∧
    s.DamageRecorded slot reader (s.recordDamage slot reader) := by
  by_cases h : ∃ e, s.alloc.holding slot = some e ∧ e.owned = true
  · obtain ⟨e, he, ho⟩ := h
    have heq := State.recordDamage_owned (reader := reader) he ho
    have hunique : ∀ x, s.alloc.holding slot = some x → x = e := fun x hx => Option.some.inj (hx.symm.trans he)
    rw [heq]
    dsimp only
    split
    next hsame =>
      refine ⟨rfl, rfl, rfl, fun x hx _ => ?_, fun hno => ?_⟩
      · obtain rfl := hunique x hx
        exact ⟨rfl, rfl, by rw [if_pos (by exact hsame)]; rfl⟩
      · exact absurd ho (by rw [hno e he]; exact Bool.false_ne_true)
    next hchanged =>
      refine ⟨rfl, rfl, rfl, fun x hx _ => ?_, fun hno => ?_⟩
      · obtain rfl := hunique x hx
        exact ⟨rfl, rfl, by rw [if_neg (by exact hchanged)]; rfl⟩
      · exact absurd ho (by rw [hno e he]; exact Bool.false_ne_true)
  · have hno : ∀ e, s.alloc.holding slot = some e → e.owned = false := fun e he => by
      rw [← Bool.not_eq_true]
      exact fun ho => h ⟨e, he, ho⟩
    rw [State.recordDamage_unowned hno]
    exact ⟨rfl, rfl, rfl, fun e he ho => absurd ⟨e, he, ho⟩ h, fun _ => ⟨rfl, rfl, rfl⟩⟩

/-- The record of a damaged read depends on the count, the allocator, the catalogue and the production link alone. -/
theorem State.DamageRecorded.of_blocks {m : State} (hd : m.store.damagedReads = s.store.damagedReads) (ha : m.alloc = s.alloc)
    (hc : m.cat = s.cat) (hp : m.production = s.production) (h : m.DamageRecorded slot reader t) :
    s.DamageRecorded slot reader t := by
  have hraise : (m.raise .tileDamaged).production = (s.raise .tileDamaged).production := by
    show { m.production with notices := m.production.notices.modify 5 fun src => { src with latched := true } } =
      { s.production with notices := s.production.notices.modify 5 fun src => { src with latched := true } }
    rw [hp]
  unfold State.DamageRecorded at h ⊢
  simp only [apply_ite State.production, hraise, hd, ha, hc, hp] at h ⊢
  exact h

/-! ## A read that ends (R69, R74) -/

/-- A read of a slot is over, with the memory `mem` in which the slot holds the tile `x`: the state after differs in the
memory alone, or in the record of a damaged read too. -/
def State.ReadEnds (s : State) (slot : Nat) (mem : List Host.Cell) (x : Tile) (reader : ReaderKind) (u : State) : Prop :=
  u = { s with store := u.store, cat := u.cat, production := u.production } ∧
  u.store = { s.store with mem, damagedReads := u.store.damagedReads, lastDamage := u.store.lastDamage } ∧
  (checkBytes x.bytes = x.check → u = { s with store := { s.store with mem } }) ∧
  (checkBytes x.bytes ≠ x.check → s.DamageRecorded slot reader u)

theorem State.readTile_spec {upset : List Upset} {x : Tile} (hx : x = Memory.readSlot (Memory.upset s.store.mem slot upset) slot) :
    (s.readTile slot upset reader).1 = x ∧
    (s.readTile slot upset reader).2.1 = decide (checkBytes x.bytes ≠ x.check) ∧
    s.ReadEnds slot (Memory.upset s.store.mem slot upset) x reader (s.readTile slot upset reader).2.2 := by
  let m := s.modStore fun st => { st with mem := Memory.upset st.mem slot upset }
  have hread : s.readTile slot upset reader = (x, x.damaged, if x.damaged then m.recordDamage slot reader else m) := by
    subst hx
    unfold State.readTile
    rfl
  rw [hread]
  refine ⟨rfl, rfl, ?_⟩
  unfold State.ReadEnds
  by_cases hd : checkBytes x.bytes = x.check
  · have hgood : ¬x.damaged = true := by simp [Tile.damaged, hd]
    simp only [if_neg hgood]
    exact ⟨rfl, rfl, fun _ => rfl, fun hne => absurd hd hne⟩
  · have hbad : x.damaged = true := by simp [Tile.damaged, hd]
    obtain ⟨hframe, hstore, hrecorded⟩ := State.recordDamage_spec slot reader m
    simp only [if_pos hbad]
    exact ⟨hframe, hstore, fun he => absurd he hd, fun _ => State.DamageRecorded.of_blocks (m := m) rfl rfl rfl rfl hrecorded⟩

/-- The record of a damaged read stays when neither the count, nor the last record, nor the catalogue, nor the production link
changes. -/
theorem State.DamageRecorded.of_after {u : State} (hd : t.store.damagedReads = u.store.damagedReads)
    (hl : t.store.lastDamage = u.store.lastDamage) (hc : t.cat = u.cat) (hp : t.production = u.production)
    (h : s.DamageRecorded slot reader u) : s.DamageRecorded slot reader t := by
  unfold State.DamageRecorded at h ⊢
  rwa [hd, hl, hc, hp]

@[simp] theorem Store.ask_damagedReads (now : Nat) (y : Transfer) (st : Store) : (st.ask now y).damagedReads = st.damagedReads := by
  unfold Store.ask; dsimp only; split <;> rfl
@[simp] theorem Store.ask_lastDamage (now : Nat) (y : Transfer) (st : Store) : (st.ask now y).lastDamage = st.lastDamage := by
  unfold Store.ask; dsimp only; split <;> rfl

/-! ## The reads and writes of a copy (R97) -/

theorem State.isCopy_of {c : Fin 4} {y : Transfer} (hw : (s.channel c).work = some .copy) (hy : y.client = .channel c) :
    s.isCopy y = true := by
  simp [State.isCopy, State.workOf, hy, hw]
theorem State.workOf_channel {c : Fin 4} {w : Work} (hw : (s.channel c).work = some w) :
    s.workOf (.channel c) = some (c, w) := by
  simp [State.workOf, hw]

theorem State.copyArrives_eq {c : Fin 4} {m : Move} (x : Tile) (damaged : Bool) (hm : s.alloc.compaction.move = some m) :
    s.copyArrives c x damaged = (s.modChannel c fun ch =>
        { ch with buffer := [{ state := .writing, index := ch.nextCopy, tile := some x, damaged }] }).modStore
      (Store.ask s.now ⟨.channel c, m.target + (s.channel c).nextCopy, .write x.bytes (some x.check)⟩) := by
  unfold State.copyArrives
  rw [hm]
  rfl

theorem State.engineRead_idle (hj : s.engine.queue = []) : s.engineRead = s := by
  simp [State.engineRead, Engine.activeJob, hj]

theorem Allocator.settleMoved_compaction (a : Allocator) (n : Nat) : (a.settleMoved n).compaction = a.compaction := by
  unfold Allocator.settleMoved
  split
  · rfl
  · split
    · dsimp only
      split
      · unfold Allocator.giveBack
        split <;> rfl
      · rfl
    · rfl

/-- The part when a move has ended and its channel is given back (R61 steps 1 to 5). -/
def State.moved (c : Fin 4) (m : Move) (size : Nat) (s : State) : State :=
  ({ s with alloc := ((s.alloc.relocate m size).settleMoved m.extent).modCompaction fun c =>
    { c with move := none, made := c.made + 1 } } : State).modChannel c fun _ => {}

/-- The end of a compaction: its record, and COMPACT_DONE unless it was stopped (R62). -/
theorem State.endCompaction_eq (o : CompactionOutcome) (s : State) : s.endCompaction o = { s with
    alloc := s.alloc.modCompaction (Compaction.finish o)
    production := (if o = .stopped then s else s.raise .compactDone).production } := by
  unfold State.endCompaction
  split
  next h => simp only [h]; rfl
  next h => rfl

/-- The end of a move, when no other work waits for the channel or the engine (R61). -/
theorem State.moveEnd_rest {c : Fin 4} {m : Move} (he : s.alloc.find m.extent = some e) (hq : s.mover.queue = [])
    (hr : s.mover.copyRequest = false) (hj : s.engine.queue = []) (hend : s.alloc.compaction.stop = true ∨
      s.alloc.compaction.made + 1 = s.alloc.compaction.asked) :
    s.moveEnd c m = (s.moved c m e.size).endCompaction (if s.alloc.compaction.stop then .stopped else .done) := by
  let u : State := (s.modAlloc (Allocator.relocate m e.size)).modAlloc (Allocator.settleMoved m.extent)
  have hu : u.handout.engineRead = u := by
    rw [State.handout_rest (State.startable_none (s := u) hq) hr, State.engineRead_idle (s := u) hj]
  have hw : (s.moved c m e.size).handout = s.moved c m e.size :=
    State.handout_rest (State.startable_none (by exact hq)) (by exact hr)
  have hk : (s.moved c m e.size).alloc.compaction =
      { s.alloc.compaction with move := none, made := s.alloc.compaction.made + 1 } := by
    have hkept : ((s.alloc.relocate m e.size).settleMoved m.extent).compaction = s.alloc.compaction :=
      Allocator.settleMoved_compaction _ _
    exact congrArg (fun k : Compaction => { k with move := none, made := k.made + 1 }) hkept
  have hsteps : s.moveEnd c m = if (s.moved c m e.size).alloc.compaction.stop then (s.moved c m e.size).endCompaction .stopped
      else if (s.moved c m e.size).alloc.compaction.made = (s.moved c m e.size).alloc.compaction.asked
        then (s.moved c m e.size).endCompaction .done
      else (s.moved c m e.size).requestCopy.handout := by
    unfold State.moveEnd
    simp only [he, Option.map_some, Option.getD_some]
    rw [show ((s.modAlloc (Allocator.relocate m e.size)).modAlloc (Allocator.settleMoved m.extent)).handout.engineRead = u from hu]
    rw [show ((u.modAlloc (·.modCompaction fun c => { c with move := none, made := c.made + 1 })).modChannel c fun _ => {}) =
      s.moved c m e.size from rfl, hw]
  rw [hsteps, hk]
  by_cases hstop : s.alloc.compaction.stop = true
  · rw [if_pos hstop, if_pos hstop]
  · rw [if_neg hstop, if_neg hstop, if_pos (hend.resolve_left hstop)]

/-- The allocator after a move: the extent lies at its target, LIVE, or is released when its mark is set (R61). -/
theorem Allocator.settleMoved_relocate {a : Allocator} {m : Move} {gone : Bool} (he : a.find m.extent = some e)
    (hg : gone = (e.releasePending && decide (e.readers = 0))) :
    ((a.relocate m e.size).settleMoved m.extent).runs = (if gone
      then giveSlots m.target e.size (giveSlots m.oldFirst e.size (takeSlots m.target e.size a.runs))
      else giveSlots m.oldFirst e.size (takeSlots m.target e.size a.runs)) ∧
    ((a.relocate m e.size).settleMoved m.extent).find m.extent = (if gone then none else some { e with
      first := m.target, releasePending := false, state := if e.releasePending then .releasing else .live }) ∧
    ∀ x, x ≠ m.extent → ((a.relocate m e.size).settleMoved m.extent).find x = a.find x := by
  let b := a.relocate m e.size
  have hb : b.find m.extent = some { e with first := m.target } := by
    refine (Allocator.find_modExtent_same a m.extent (fun e => { e with first := m.target }) (by intro _; rfl)).trans ?_
    rw [he]; rfl
  have hbother : ∀ x, x ≠ m.extent → b.find x = a.find x := fun x hx =>
    Allocator.find_modExtent_other a m.extent x _ (by intro _; rfl) hx
  by_cases hpending : e.releasePending = true
  · let d := b.modExtent m.extent fun e => { e with releasePending := false, state := .releasing }
    obtain ⟨-, hd, hdother⟩ := Allocator.modExtent_rewritten (f := fun e => { e with releasePending := false, state := .releasing })
      hb (by intro _; rfl)
    by_cases hreaders : e.readers = 0
    · have hgone : gone = true := by simp [hg, hpending, hreaders]
      have heq : b.settleMoved m.extent = d.giveBack m.extent := by
        simp [Allocator.settleMoved, hb, hpending, hreaders, d]
      obtain ⟨hruns, hnone, hkept⟩ := Allocator.giveBack_returned (a := d) hd
      rw [show ((a.relocate m e.size).settleMoved m.extent) = d.giveBack m.extent from heq]
      simp only [hgone, if_true]
      exact ⟨by rw [hruns]; rfl, hnone, fun x hx => (hkept x hx).trans ((hdother x hx).trans (hbother x hx))⟩
    · have hstays : ¬gone = true := by simp [hg, hreaders]
      have heq : b.settleMoved m.extent = d := by
        simp [Allocator.settleMoved, hb, hpending, hreaders, d]
      rw [show ((a.relocate m e.size).settleMoved m.extent) = d from heq]
      simp only [if_neg hstays, if_pos hpending]
      exact ⟨rfl, hd, fun x hx => (hdother x hx).trans (hbother x hx)⟩
  · have hstays : ¬gone = true := by simp [hg, hpending]
    have heq : b.settleMoved m.extent = b.modExtent m.extent fun e => { e with state := .live } := by
      simp [Allocator.settleMoved, hb, hpending]
    obtain ⟨-, hd, hdother⟩ := Allocator.modExtent_rewritten (f := fun e => { e with state := .live }) hb (by intro _; rfl)
    rw [show ((a.relocate m e.size).settleMoved m.extent) = _ from heq]
    simp only [if_neg hstays, if_neg hpending]
    refine ⟨rfl, hd.trans ?_, fun x hx => (hdother x hx).trans (hbother x hx)⟩
    rw [show e.releasePending = false from by simpa using hpending]

/-- The counts of the copy move on with a tile written (R97 step 3). -/
def State.tileCopied (c : Fin 4) (s : State) : State :=
  (s.modAlloc (·.modCompaction fun k => { k with move := k.move.map fun m => { m with copied := m.copied + 1 } })).modChannel c
    fun ch => { ch with buffer := [], nextCopy := ch.nextCopy + 1, terminal := ch.terminal - 1 }

theorem State.tileCopied_channel (c : Fin 4) (s : State) : (s.tileCopied c).channel c = { s.channel c with
    buffer := [], nextCopy := (s.channel c).nextCopy + 1, terminal := (s.channel c).terminal - 1 } :=
  Four.get_set_same _ _ _

theorem State.copyWritten_more {c : Fin 4} (h : 2 ≤ (s.channel c).terminal) :
    s.copyWritten c = (s.tileCopied c).issueCopyRead c := by
  unfold State.copyWritten
  refine if_pos ?_
  rw [State.modChannel_channel]
  show (s.channel c).terminal - 1 ≠ 0
  omega
theorem State.copyWritten_last {c : Fin 4} {m : Move} (h : (s.channel c).terminal = 1) (hm : s.alloc.compaction.move = some m) :
    s.copyWritten c = (s.tileCopied c).moveEnd c { m with copied := m.copied + 1 } := by
  unfold State.copyWritten
  refine (if_neg ?_).trans ?_
  · rw [State.modChannel_channel, not_not]
    show (s.channel c).terminal - 1 = 0
    omega
  · have hmoved : (s.tileCopied c).alloc.compaction.move = some { m with copied := m.copied + 1 } := by
      show s.alloc.compaction.move.map _ = _
      rw [hm]; rfl
    show (match (s.tileCopied c).alloc.compaction.move with
      | some m => (s.tileCopied c).moveEnd c m
      | none => s.tileCopied c) = _
    rw [hmoved]

theorem exec_copyReadComplete {c : Fin 4} {upset : List Upset} {x : Tile} {bad : Bool} {v : State} (hp : s.power = .running)
    (hw : (s.channel c).work = some .copy) (hf : s.store.inFlight = some ⟨.channel c, slot, .read⟩) (hs : slot < s.store.slotCount)
    (hr : (s.modStore (Store.complete ⟨.channel c, slot, .read⟩)).readTile slot upset .copy = (x, bad, v))
    (hv : (v.channel c).work = some .copy) : exec (.copyReadComplete upset) s = .next (v.copyArrives c x bad).settle := by
  show execCopyReadComplete upset s = _
  rw [execCopyReadComplete, whenCompletes_of hp hf (by simpa using State.isCopy_of hw rfl) hs]
  simp only [hr, State.workOf_channel hv]

theorem exec_copyWriteComplete {c : Fin 4} {bytes : List Byte} {check : Word} (hp : s.power = .running)
    (hw : (s.channel c).work = some .copy) (hf : s.store.inFlight = some ⟨.channel c, slot, .write bytes (some check)⟩)
    (hs : slot < s.store.slotCount) : exec .copyWriteComplete s =
      .next ((s.modStore (Store.complete ⟨.channel c, slot, .write bytes (some check)⟩)).copyWritten c).settle := by
  show execCopyWriteComplete s = _
  rw [execCopyWriteComplete, whenCompletes_of hp hf (by simpa using State.isCopy_of hw rfl) hs]
  have hv : ((s.modStore (Store.complete ⟨.channel c, slot, .write bytes (some check)⟩)).channel c).work = some .copy := hw
  simp only [State.workOf_channel hv]

/-- Settles O41. -/
theorem copyCompletes : Obligations.CopyCompletes := by
  unfold Obligations.CopyCompletes
  intro c slot m s hp hw hm hslot
  refine ⟨fun upset x hf hx => ?_, fun bytes check hf hlen => ?_⟩
  · let u := s.modStore (Store.complete ⟨.channel c, slot, .read⟩)
    obtain ⟨htile, hbad, hframe, hstore, hgood, hdamaged⟩ := State.readTile_spec (s := u) (reader := .copy) hx
    obtain ⟨v, hv⟩ : ∃ v, v = (u.readTile slot upset .copy).2.2 := ⟨_, rfl⟩
    rw [← hv] at hframe hstore hgood hdamaged
    have hmover : v.mover = s.mover := by rw [hframe]; rfl
    have halloc : v.alloc = s.alloc := by rw [hframe]; rfl
    have hch : v.channel c = s.channel c := by rw [State.channel, hmover]; rfl
    have hexec := exec_copyReadComplete (x := x) (bad := decide (checkBytes x.bytes ≠ x.check)) hp hw hf hslot (Prod.ext htile (Prod.ext hbad hv.symm)) (by rw [hch]; exact hw)
    have hmove : v.alloc.compaction.move = some m := by rw [halloc]; exact hm
    rw [State.copyArrives_eq _ _ hmove] at hexec
    have hnow : v.now = s.now := by rw [hframe]; rfl
    refine ⟨_, hexec, ?_, ?_, ?_, ?_, ?_, fun b hb => ?_, fun hg => ?_, fun hd => ?_, halloc, ?_, ?_, ?_, ?_, ?_⟩
    · refine (Store.ask_mem _ _ _).trans ?_
      show v.store.mem = _
      rw [hstore]; rfl
    · refine (Store.ask_inFlight _ _ _).trans ?_
      show v.store.inFlight = _
      rw [hstore]; rfl
    · refine (Store.ask_waiting _ _ _).trans ?_
      show v.store.waiting ++ _ = _
      rw [hstore, hch]; rfl
    · refine (Store.ask_damagedReads _ _ _).trans ?_
      show v.store.damagedReads = _
      split
      next hg => rw [hgood hg]; rfl
      next hd => exact (hdamaged hd).1
    · exact (Four.get_set_same _ _ _).trans (by rw [hmover]; rfl)
    · refine (Four.get_set_other _ _ _ _ hb).trans ?_
      rw [hmover]; rfl
    · rw [hgood hg]; rfl
    · refine State.DamageRecorded.of_after (u := v) ?_ ?_ rfl rfl (State.DamageRecorded.of_blocks (m := u) rfl rfl rfl rfl (hdamaged hd))
      · exact Store.ask_damagedReads _ _ _
      · exact Store.ask_lastDamage _ _ _
    · show v.book = _
      rw [hframe]; rfl
    · show v.meter = _
      rw [hframe]; rfl
    · show v.engine = _
      rw [hframe]; rfl
    · show v.port = _
      rw [hframe]; rfl
    · show v.table = _
      rw [hframe]; rfl
  · let u := s.modStore (Store.complete ⟨.channel c, slot, .write bytes (some check)⟩)
    have hexec := exec_copyWriteComplete hp hw hf hslot
    have hwritten : Memory.readSlot u.store.mem slot = ⟨bytes, check⟩ := Memory.readSlot_written check hlen s.store.mem slot
    have hkept : ∀ other, other ≠ slot → Memory.readSlot u.store.mem other = Memory.readSlot s.store.mem other :=
      fun other ho => Memory.readSlot_writeSlot_other _ _ _ _ ho
    have hmoved : (u.tileCopied c).alloc = { s.alloc with compaction :=
        { s.alloc.compaction with move := some { m with copied := m.copied + 1 } } } := by
      have hcopied : (u.tileCopied c).alloc = s.alloc.modCompaction fun k =>
          { k with move := k.move.map fun m => { m with copied := m.copied + 1 } } := rfl
      rw [hcopied, Allocator.modCompaction, hm]; rfl
    refine ⟨fun hmore => ?_, fun e gone hlast he hgone hq hr hj hend => ?_⟩
    · rw [State.copyWritten_more (s := u) hmore, State.issueCopyRead_eq (s := u.tileCopied c)
        (m := { m with copied := m.copied + 1 }) (by rw [hmoved])] at hexec
      refine ⟨_, hexec, ?_, ?_, fun other ho => ?_, ?_, ?_, fun b hb => ?_⟩
      · rw [← hmoved]; rfl
      · refine (congrArg (Memory.readSlot · slot) (Store.ask_mem _ _ _)).trans hwritten
      · refine (congrArg (Memory.readSlot · other) (Store.ask_mem _ _ _)).trans (hkept other ho)
      · refine (Store.ask_waiting _ _ _).trans ?_
        rw [State.tileCopied_channel]; rfl
      · refine (Four.get_set_same _ _ _).trans ?_
        rw [show (u.tileCopied c).mover.channels.get c = (u.tileCopied c).channel c from rfl, State.tileCopied_channel]; rfl
      · refine (Four.get_set_other _ _ _ _ hb).trans (Four.get_set_other _ _ _ _ hb)
    · let w := u.tileCopied c
      have hrest := State.moveEnd_rest (s := w) (c := c) (m := { m with copied := m.copied + 1 }) (e := e)
        (by rw [show w.alloc = _ from hmoved]; exact he) hq hr hj (by rw [show w.alloc = _ from hmoved]; exact hend)
      rw [State.copyWritten_last (s := u) hlast hm, hrest] at hexec
      obtain ⟨hruns, hfind, hfinds⟩ := Allocator.settleMoved_relocate (a := w.alloc)
        (m := { m with copied := m.copied + 1 }) (by rw [show w.alloc = _ from hmoved]; exact he) hgone
      have hw_runs : w.alloc.runs = s.alloc.runs := by rw [show w.alloc = _ from hmoved]
      have hw_find : ∀ x, w.alloc.find x = s.alloc.find x := fun x => by rw [show w.alloc = _ from hmoved]; rfl
      have hw_stop : w.alloc.compaction.stop = s.alloc.compaction.stop := by rw [show w.alloc = _ from hmoved]
      have hkeep : ((w.alloc.relocate { m with copied := m.copied + 1 } e.size).settleMoved m.extent).compaction =
          { s.alloc.compaction with move := some { m with copied := m.copied + 1 } } :=
        (Allocator.settleMoved_compaction _ _).trans (congrArg Allocator.compaction hmoved)
      rw [hw_runs] at hruns
      refine ⟨_, hexec, ?_⟩
      rw [State.endCompaction_eq, hw_stop]
      refine ⟨rfl, hwritten, hkept, fun runs hr => ?_, hfind, fun x hx => (hfinds x hx).trans (hw_find x), ?_,
        Four.get_set_same _ _ _, fun b hb => (Four.get_set_other _ _ _ _ hb).trans (Four.get_set_other _ _ _ _ hb), ?_⟩
      · rw [hr]; exact hruns
      · have hfinish := congrArg (fun k : Compaction => ({ k with move := none, made := k.made + 1 } : Compaction).finish
          (if s.alloc.compaction.stop then .stopped else .done)) hkeep
        exact hfinish
      · cases s.alloc.compaction.stop <;> rfl

end Sys2Proof.Machine
end

