-- ==== Sys2Proof/Proofs/Reads.lean ====
section
/-! PROOF. The reads of deliveries (chapters 1 and 5, R9, R69, R75, R91, R92). -/

namespace Sys2Proof.Machine

variable {s t : State} {c : Fin 4} {d : Delivery}

/-! ## The next read of a delivery (R91) -/

theorem State.deliveryOn_of {h : Nat} (hw : (s.channel c).work = some (.delivery h)) : s.deliveryOn c = s.table.find h := by
  simp [State.deliveryOn, hw]

/-- With the walk passed or every place taken no read is asked for. -/
theorem State.issueRead_rest (hd : s.deliveryOn c = some d)
    (h : d.walk.tileAt d.imageWidth (s.channel c).line (s.channel c).place = none ∨ 4 ≤ (s.channel c).buffer.length) :
    s.issueRead c = s := by
  unfold State.issueRead
  simp only [hd]
  split
  next e i he hi =>
    refine if_neg fun hgo => ?_
    rcases h with hnone | hfull
    · exact absurd (hnone.symm.trans hi) (by simp)
    · exact absurd hgo.2.2 (Nat.not_lt_of_le hfull)
  next => rfl

/-- A read asked for, or not, changes the store's requests and its channel alone. -/
theorem State.issueRead_frame (c : Fin 4) (s : State) :
    s.issueRead c = { s with store := (s.issueRead c).store, mover := (s.issueRead c).mover } ∧
    (s.issueRead c).store.mem = s.store.mem ∧ (s.issueRead c).store.inFlight = s.store.inFlight ∧
    (s.issueRead c).store.damagedReads = s.store.damagedReads ∧ (s.issueRead c).store.lastDamage = s.store.lastDamage ∧
    ∀ b, b ≠ c → (s.issueRead c).channel b = s.channel b := by
  unfold State.issueRead
  dsimp only
  split
  · exact ⟨rfl, rfl, rfl, rfl, rfl, fun _ _ => rfl⟩
  · split
    · split
      · exact ⟨rfl, Store.ask_mem _ _ _, Store.ask_inFlight _ _ _, Store.ask_damagedReads _ _ _, Store.ask_lastDamage _ _ _,
          fun b hb => Four.get_set_other _ _ _ _ hb⟩
      · exact ⟨rfl, rfl, rfl, rfl, rfl, fun _ _ => rfl⟩
    · exact ⟨rfl, rfl, rfl, rfl, rfl, fun _ _ => rfl⟩

/-- The next tile of the walk takes a place, and the store is asked for its slot. -/
theorem State.issueRead_next {e : Extent} {i : Nat} (hd : s.deliveryOn c = some d) (he : s.alloc.find d.extent = some e)
    (hi : d.walk.tileAt d.imageWidth (s.channel c).line (s.channel c).place = some i) (hrun : (s.channel c).state = .running)
    (hout : s.store.outstanding (.channel c) = false) (hroom : (s.channel c).buffer.length < 4) : s.issueRead c =
    (s.modChannel c fun ch => { ch with
        buffer := ch.buffer ++ [{ state := .reading, index := i }]
        line := (d.walk.advance ch.line ch.place).1, place := (d.walk.advance ch.line ch.place).2 }).modStore
      (Store.ask s.now ⟨.channel c, e.first + i, .read⟩) := by
  unfold State.issueRead
  simp only [hd, he, hi, hrun, hout, hroom, and_self, if_true]
  rfl

/-! ## The lists of damaged tiles (R9) -/

theorem Catalogue.addDamage_page {k : Catalogue} {r : RevName} {v : Revision} (i : Nat) (hv : k.revision r = some v)
    {o : Owner} {rendition : Rendition} (ho : o = Owner.raw r ∧ rendition = .raw ∨ o = Owner.restored r ∧ rendition = .restored) :
    k.damageOf o = v.damage ∧ (k.addDamage o i).revision r = some { v with damage := v.damage.add ⟨i, rendition⟩ } ∧
    (k.addDamage o i).photos = k.photos ∧ ∀ q, q ≠ r → (k.addDamage o i).revision q = k.revision q := by
  have hadd : k.addDamage o i = k.modRevision r fun v => { v with damage := v.damage.add ⟨i, rendition⟩ } := by
    rcases ho with ⟨rfl, rfl⟩ | ⟨rfl, rfl⟩ <;> rfl
  have hof : k.damageOf o = v.damage := by
    rcases ho with ⟨rfl, -⟩ | ⟨rfl, -⟩ <;> simp [Catalogue.damageOf, hv]
  rw [hadd]
  refine ⟨hof, ?_, rfl, fun q hq => Catalogue.revision_modRevision_other _ _ _ _ (by intro _; rfl) hq⟩
  rw [Catalogue.revision_modRevision_same _ _ _ (by intro _; rfl), hv]
  rfl

theorem Catalogue.addDamage_photo {k : Catalogue} {id : Nat} {p : Photo} (i : Nat) (hp : k.photo id = some p) :
    k.damageOf (.photo id) = p.damage ∧
    (k.addDamage (.photo id) i).photo id = some { p with damage := p.damage.add ⟨i, .raw⟩ } ∧
    (k.addDamage (.photo id) i).editions = k.editions ∧
    ∀ q, q ≠ id → (k.addDamage (.photo id) i).photo q = k.photo q := by
  refine ⟨by simp [Catalogue.damageOf, hp], ?_, rfl,
    fun q hq => Catalogue.photo_modPhoto_other _ _ _ _ (by intro _; rfl) hq⟩
  refine (Catalogue.photo_modPhoto_same _ _ _ (by intro _; rfl)).trans ?_
  rw [hp]
  rfl

/-! ## A delivery's read (R91, R92) -/

theorem Place.fill_reading {p : Place} (x : Tile) (bad : Bool) (h : p.state = .reading) :
    p.fill x bad = { p with state := .held, tile := some x, damaged := bad } := if_pos h
theorem Place.fill_other {p : Place} (x : Tile) (bad : Bool) (h : p.state ≠ .reading) : p.fill x bad = p := if_neg h

theorem exec_deliveryReadComplete {slot : Nat} {upset : List Upset} {x : Tile} {bad : Bool} {v : State} {h : Nat}
    (hp : s.power = .running) (hnone : s.store.withdrawn = none) (hw : (s.channel c).work = some (.delivery h))
    (hf : s.store.inFlight = some ⟨.channel c, slot, .read⟩) (hs : slot < s.store.slotCount)
    (hr : (s.modStore (Store.complete ⟨.channel c, slot, .read⟩)).readTile slot upset .delivery = (x, bad, v))
    (hv : (v.channel c).work = some (.delivery h)) :
    exec (.deliveryReadComplete upset) s = .next (v.readArrives c x bad).settle := by
  show execDeliveryReadComplete upset s = _
  rw [execDeliveryReadComplete, hnone, Option.isSome_none, if_neg Bool.false_ne_true,
    whenCompletes_of hp hf (by simp [State.isDeliveryRead, State.workOf_channel hw]) hs]
  simp only [hr, State.workOf_channel hv]

/-- The tile read takes its place on the channel. -/
def Channel.filled (x : Tile) (bad : Bool) (ch : Channel) : Channel := { ch with buffer := ch.buffer.map (Place.fill x bad) }

theorem State.readArrives_eq (x : Tile) (bad : Bool) (hd : s.deliveryOn c = some d) : s.readArrives c x bad =
    if d.pacing.isSome then (s.modChannel c (Channel.filled x bad)).issueRead c
    else ((s.modChannel c (Channel.filled x bad)).issueRead c).modChannel c Channel.offerHead := by
  unfold State.readArrives
  rw [hd]
  rfl

/-- Settles O44. -/
theorem deliveryReadComplete : Obligations.DeliveryReadComplete := by
  unfold Obligations.DeliveryReadComplete
  refine ⟨fun d x => ⟨DamageList.add_known, DamageList.add_room, DamageList.add_full⟩,
    fun k r v i hv o rendition ho => Catalogue.addDamage_page i hv ho, fun k id i p hp => Catalogue.addDamage_photo i hp,
    fun c slot upset x s hp hf hs hx => ?_, fun c slot j upset d pre p x s hp hnone hf hs hw hd hrun hwait hbuf hread hpre hx => ?_⟩
  · let u := s.modStore Store.endWithdrawn
    obtain ⟨-, -, hframe, hstore, hgood, hdamaged⟩ := State.readTile_spec (s := u) (reader := .delivery) hx
    have hexec : exec (.deliveryReadComplete upset) s = .next (u.readTile slot upset .delivery).2.2.settle := by
      show execDeliveryReadComplete upset s = _
      rw [execDeliveryReadComplete, hf, Option.isSome_some, if_pos rfl, whenWithdrawnEnds_of hp hf rfl hs]
    obtain ⟨v, hv⟩ : ∃ v, v = (u.readTile slot upset .delivery).2.2 := ⟨_, rfl⟩
    rw [← hv] at hframe hstore hgood hdamaged hexec
    refine ⟨v, hexec, ?_, hgood, fun hd => State.DamageRecorded.of_blocks (m := u) rfl rfl rfl rfl (hdamaged hd)⟩
    rw [hframe, hstore]
    rfl
  · let u := s.modStore (Store.complete ⟨.channel c, slot, .read⟩)
    let bad := decide (checkBytes x.bytes ≠ x.check)
    obtain ⟨htile, hbad, hframe, hstore, hgood, hdamaged⟩ := State.readTile_spec (s := u) (reader := .delivery) hx
    obtain ⟨v, hv⟩ : ∃ v, v = (u.readTile slot upset .delivery).2.2 := ⟨_, rfl⟩
    rw [← hv] at hframe hstore hgood hdamaged
    have hch : v.channel c = s.channel c := by rw [hframe]; rfl
    have hwork : (v.channel c).work = some (.delivery d.handle) := by rw [hch]; exact hw
    have hexec := exec_deliveryReadComplete (x := x) (bad := bad) hp hnone hw hf hs (Prod.ext htile (Prod.ext hbad hv.symm)) hwork
    let w := v.modChannel c (Channel.filled x bad)
    have hon : v.deliveryOn c = some d := (State.deliveryOn_of hwork).trans (by rw [hframe]; exact hd)
    have hwch : w.channel c = { s.channel c with buffer := pre ++
        [{ state := .held, index := p.index, tile := some x, damaged := bad }] } := by
      refine (State.modChannel_channel _ _ _).trans ?_
      have hmap : pre.map (Place.fill x bad) = pre :=
        (List.map_congr_left fun q hq => Place.fill_other x bad (hpre q hq)).trans (List.map_id _)
      rw [Channel.filled, hch, hbuf, List.map_append, hmap, List.map_singleton, Place.fill_reading x bad hread]
    have hwon : w.deliveryOn c = some d := by
      refine (State.deliveryOn_of (h := d.handle) ?_).trans (by rw [show w.table = v.table from rfl, hframe]; exact hd)
      rw [hwch]; exact hw
    obtain ⟨hiframe, himem, hiflight, hireads, hilast, hiother⟩ := State.issueRead_frame c w
    rw [State.readArrives_eq x bad hon] at hexec
    obtain ⟨t, ht⟩ : ∃ t, t = if d.pacing.isSome then w.issueRead c else (w.issueRead c).modChannel c Channel.offerHead := ⟨_, rfl⟩
    have htframe : t = { v with store := (w.issueRead c).store, mover := t.mover } := by
      subst ht
      split
      · exact hiframe
      · exact congrArg (fun a : State => a.modChannel c Channel.offerHead) hiframe
    have htc : t.channel c = if d.pacing.isSome then (w.issueRead c).channel c else ((w.issueRead c).channel c).offerHead := by
      subst ht
      split
      · rfl
      · exact Four.get_set_same _ _ _
    have hto : ∀ b, b ≠ c → t.channel b = s.channel b := by
      intro b hb
      have hkept : (w.issueRead c).channel b = s.channel b :=
        (hiother b hb).trans ((Four.get_set_other _ _ _ _ hb).trans (by rw [hframe]; rfl))
      subst ht
      split
      · exact hkept
      · exact (Four.get_set_other _ _ _ _ hb).trans hkept
    rw [← ht] at hexec
    have htstore : t.store = (w.issueRead c).store := by rw [htframe]
    have hlast : t.store.lastDamage = v.store.lastDamage := by rw [htstore]; exact hilast
    have hreads : t.store.damagedReads = v.store.damagedReads := by rw [htstore]; exact hireads
    have hcat : t.cat = v.cat := by rw [htframe]
    have hproduction : t.production = v.production := by rw [htframe]
    refine ⟨t, (w.issueRead c).channel c, hexec, htc, hto, ?_, ?_, ?_, fun hg => ?_, fun hd => ?_, ?_, ?_, ?_, ?_, ?_, ?_,
      fun hend => ?_, fun e hj hroom he => ?_⟩
    · rw [htstore, himem]
      show v.store.mem = _
      rw [hstore]; rfl
    · rw [htstore, hiflight]
      show v.store.inFlight = _
      rw [hstore]; rfl
    · rw [hreads]
      split
      next hg => rw [hgood hg]; rfl
      next hd => exact (hdamaged hd).1
    · refine htframe.trans ?_
      rw [hgood hg, htstore]; rfl
    · exact State.DamageRecorded.of_after (u := v) hreads hlast hcat hproduction
        (State.DamageRecorded.of_blocks (m := u) rfl rfl rfl rfl (hdamaged hd))
    · rw [htframe, hframe]; rfl
    · rw [htframe, hframe]; rfl
    · rw [htframe, hframe]; rfl
    · rw [htframe, hframe]; rfl
    · rw [htframe, hframe]; rfl
    · rw [htframe, hframe]; rfl
    · have hrest : w.issueRead c = w := State.issueRead_rest hwon (by
        rw [hwch]
        refine hend.imp id fun hfull => ?_
        simp only [List.length_append, List.length_singleton]
        omega)
      rw [htstore, hrest]
      exact ⟨by show v.store.waiting = _; rw [hstore]; rfl, hwch⟩
    · have hnext := State.issueRead_next (s := w) hwon (i := j) (e := e) (by rw [show w.alloc = v.alloc from rfl, hframe]; exact he)
        (by rw [hwch]; exact hj) (by rw [hwch]; exact hrun) ?_ ?_
      · rw [htstore, hnext]
        refine ⟨(Store.ask_waiting _ _ _).trans ?_, (Four.get_set_same _ _ _).trans ?_⟩
        · show v.store.waiting ++ _ = _
          rw [hstore]; rfl
        · rw [show w.mover.channels.get c = w.channel c from rfl, hwch]
          simp [bad]
      · show v.store.outstanding _ = _
        rw [hstore]
        simpa [Store.outstanding, u, Store.complete] using hwait
      · rw [hwch]
        simp only [List.length_append, List.length_singleton]
        omega

end Sys2Proof.Machine
end

