-- ==== Sys2Proof/Proofs/Ends.lean ====
section
/-! PROOF. The end of a delivery: the handout that follows it, and its posting (chapters 5 and 6, R86, R94, R96, R115). -/

namespace Sys2Proof.Machine

variable {s t u : State} {c : Fin 4} {d : Delivery}

/-! ## What a handout leaves alone (R86) -/

/-- `t` is `s` with work out of the queue handed to channels: the records of other deliveries stay, and a channel has the work
it had, or new work out of the queue. -/
structure State.HandsOut (s t : State) : Prop where
  frame : t = { s with alloc := t.alloc, store := t.store, mover := t.mover, table := t.table, production := t.production }
  mem : t.store.mem = s.store.mem
  readers : ∀ n, (t.alloc.find n).map (·.readers) = (s.alloc.find n).map (·.readers)
  record : ∀ h, h ∉ s.mover.queue → t.table.find h = s.table.find h
  kept : ∀ h x, s.table.find h = some x →
    ∃ y, t.table.find h = some y ∧ (y = x ∨ ∃ c, y = { x with state := .running, channel := some c })
  queue : ∀ h ∈ t.mover.queue, h ∈ s.mover.queue
  channel : ∀ c, (t.channel c).state = (s.channel c).state ∧ (t.channel c).work = (s.channel c).work ∨
    (t.channel c).state = .running ∧ ∃ w, (t.channel c).work = some w ∧ ∀ h, w = .delivery h → h ∈ s.mover.queue

namespace State.HandsOut

theorem refl (s : State) : s.HandsOut s where
  frame := rfl
  mem := rfl
  readers _ := rfl
  record _ _ := rfl
  kept _ x h := ⟨x, h, .inl rfl⟩
  queue _ h := h
  channel _ := .inl ⟨rfl, rfl⟩

theorem trans (h : s.HandsOut t) (h' : t.HandsOut u) : s.HandsOut u where
  frame := h'.frame.trans (by rw [h.frame])
  mem := h'.mem.trans h.mem
  readers n := (h'.readers n).trans (h.readers n)
  record n hn := (h'.record n fun hmem => hn (h.queue n hmem)).trans (h.record n hn)
  kept n x hx := by
    obtain ⟨y, hy, hyx⟩ := h.kept n x hx
    obtain ⟨z, hz, hzy⟩ := h'.kept n y hy
    refine ⟨z, hz, ?_⟩
    rcases hzy with rfl | ⟨c, rfl⟩
    · exact hyx
    · rcases hyx with rfl | ⟨b, rfl⟩
      · exact .inr ⟨c, rfl⟩
      · exact .inr ⟨c, rfl⟩
  queue n hn := h.queue n (h'.queue n hn)
  channel c := by
    rcases h'.channel c with ⟨hs, hw⟩ | ⟨hs, w, hw, hq⟩
    · rw [hs, hw]
      exact h.channel c
    · exact .inr ⟨hs, w, hw, fun n hn => h.queue n (hq n hn)⟩

end State.HandsOut

theorem State.modChannel_one (s : State) (c : Fin 4) (f : Channel → Channel) (b : Fin 4) :
    (s.modChannel c f).channel b = if b = c then f (s.channel c) else s.channel b := by
  split
  next h => rw [h]; exact State.modChannel_channel s c f
  next h => exact State.modChannel_channel_other s c b f h

theorem State.modStore_channel (s : State) (f : Store → Store) (b : Fin 4) : (s.modStore f).channel b = s.channel b := rfl

theorem State.issueRead_handsOut (c : Fin 4) (s : State) : s.HandsOut (s.issueRead c) := by
  unfold State.issueRead
  dsimp only
  split
  · exact .refl s
  · split
    · split
      · refine ⟨rfl, Store.ask_mem _ _ _, fun _ => rfl, fun _ _ => rfl, fun _ x h => ⟨x, h, .inl rfl⟩, fun _ h => h, fun b => .inl ?_⟩
        rw [State.modStore_channel, State.modChannel_one]
        split
        next h => rw [h]; exact ⟨rfl, rfl⟩
        next => exact ⟨rfl, rfl⟩
      · exact .refl s
    · exact .refl s

theorem State.startable_some (h : s.startable = some d) : d.handle ∈ s.mover.queue ∧ s.table.find d.handle = some d := by
  obtain ⟨n, hn, hd⟩ := List.exists_of_findSome?_eq_some h
  split at hd
  next x hx =>
    split at hd
    · cases hd
    · obtain rfl := Option.some.inj hd
      have hid : x.handle = n := by simpa using List.find?_some hx
      exact hid ▸ ⟨hn, hid ▸ hx⟩
  next => cases hd

/-- A delivery of the queue handed to a channel. -/
theorem State.startDelivery_handsOut (hd : d.handle ∈ s.mover.queue) : s.HandsOut (s.startDelivery c d) := by
  let ch : Channel :=
    { state := .running, work := some (.delivery d.handle), terminal := d.walk.count, started := s.now, period := 1 }
  let v := ((s.modMover fun m => { m with queue := m.queue.filter (· ≠ d.handle) }).modChannel c fun _ => ch).modTable
    (·.modify d.handle fun d => { d with state := .running, channel := some c })
  have hv : s.HandsOut v := by
    refine ⟨rfl, rfl, fun _ => rfl, fun n hn => ?_, fun n x hx => ?_, fun n hn => List.mem_of_mem_filter hn, fun b => ?_⟩
    · exact DeliveryTable.find_modify_other _ _ _ _ (by intro _; rfl) fun he => hn (he ▸ hd)
    · by_cases hn : n = d.handle
      · subst hn
        refine ⟨_, (DeliveryTable.find_modify_same _ _ _ (by intro _; rfl)).trans ?_, .inr ⟨c, rfl⟩⟩
        show (s.table.find d.handle).map _ = _
        rw [hx]; rfl
      · exact ⟨x, (DeliveryTable.find_modify_other _ _ _ _ (by intro _; rfl) hn).trans hx, .inl rfl⟩
    · have hone : v.channel b = if b = c then ch else s.channel b :=
        State.modChannel_one (s.modMover fun m => { m with queue := m.queue.filter (· ≠ d.handle) }) c (fun _ => ch) b
      rw [hone]
      split
      · exact .inr ⟨rfl, _, rfl, fun h he => by cases he; exact hd⟩
      · exact .inl ⟨rfl, rfl⟩
  have hstart : s.startDelivery c d =
      (if d.pacing.isSome then v.modStore fun st => { st with fixedCount := st.fixedCount + 1 } else v).issueRead c := rfl
  rw [hstart]
  refine State.HandsOut.trans ?_ (State.issueRead_handsOut c _)
  split
  · exact hv.trans ⟨rfl, rfl, fun _ => rfl, fun _ _ => rfl, fun _ x h => ⟨x, h, .inl rfl⟩, fun _ h => h, fun _ => .inl ⟨rfl, rfl⟩⟩
  · exact hv

theorem State.startCopy_handsOut : s.HandsOut (s.startCopy c) := by
  cases hm : searchMove s.alloc.extents s.alloc.runs with
  | none =>
    rw [State.startCopy_nothing hm]
    exact ⟨rfl, rfl, fun _ => rfl, fun _ _ => rfl, fun _ x h => ⟨x, h, .inl rfl⟩, fun _ h => h, fun _ => .inl ⟨rfl, rfl⟩⟩
  | some found =>
    obtain ⟨e, f⟩ := found
    rw [State.startCopy_move hm]
    refine ⟨rfl, Store.ask_mem _ _ _, fun n => ?_, fun _ _ => rfl, fun _ x h => ⟨x, h, .inl rfl⟩, fun _ h => h, fun b => ?_⟩
    · show ((s.alloc.modExtent e.number fun e => { e with state := .moving }).find n).map (·.readers) = _
      by_cases hn : n = e.number
      · subst hn
        rw [Allocator.find_modExtent_same _ _ _ (by intro _; rfl), Option.map_map]
        rfl
      · rw [Allocator.find_modExtent_other _ _ _ _ (by intro _; rfl) hn]
    · rw [State.modStore_channel, State.modChannel_one]
      split
      · exact .inr ⟨rfl, _, rfl, fun h he => by cases he⟩
      · exact .inl ⟨rfl, rfl⟩

theorem State.handoutLoop_handsOut (fuel : Nat) (s : State) : s.HandsOut (s.handoutLoop fuel) := by
  induction fuel generalizing s with
  | zero => exact .refl s
  | succ fuel ih =>
    rw [State.handoutLoop]
    split
    · exact .refl s
    next c =>
      split
      next d hd => exact (State.startDelivery_handsOut (State.startable_some hd).1).trans (ih _)
      next =>
        split
        · exact State.startCopy_handsOut.trans (ih _)
        · exact .refl s
theorem State.handout_handsOut (s : State) : s.HandsOut s.handout := State.handoutLoop_handsOut _ s

/-! ## The order of a delivery that ends (R115, R166) -/

theorem State.raise_sales {n : Notice} (h : n.link = .sales) (s : State) : s.raise n = { s with sales := (s.raise n).sales } := by
  rw [State.raise, h]; rfl
theorem State.raise_desk {n : Notice} (h : n.link = .desk) (s : State) : s.raise n = { s with desk := (s.raise n).desk } := by
  rw [State.raise, h]; rfl
theorem State.raise_desk_of {n : Notice} (h : n.link = .desk) (hd : t.desk = s.desk) : (t.raise n).desk = (s.raise n).desk := by
  have hraise : ∀ x : State, (x.raise n).desk =
      { x.desk with notices := x.desk.notices.modify n.number fun src => { src with latched := true } } := fun x => by
    rw [State.raise, h]; rfl
  rw [hraise, hraise, hd]

/-- An order counts a delivery less, and a CLOSING one left with none is CLOSED. -/
theorem State.inFlightDown_spec {id : Nat} {o : Order} (ho : s.book.order id = some o) :
    s.inFlightDown id = { s with book := (s.inFlightDown id).book, sales := (s.inFlightDown id).sales } ∧
    (s.inFlightDown id).sales = (if o.state = .closing ∧ o.inFlight ≤ 1 then s.raise .orderClosed else s).sales ∧
    (s.inFlightDown id).book.accounts = s.book.accounts ∧
    (s.inFlightDown id).book.order id = some { o with
      inFlight := o.inFlight - 1, state := if o.state = .closing ∧ o.inFlight ≤ 1 then .closed else o.state } ∧
    ∀ m, m ≠ id → (s.inFlightDown id).book.order m = s.book.order m := by
  let v := s.modBook (·.modOrder id fun o => { o with inFlight := o.inFlight - 1 })
  have hv : v.book.order id = some { o with inFlight := o.inFlight - 1 } := by
    refine (OrderBook.order_modOrder_same _ _ _ (by intro _; rfl)).trans ?_
    rw [ho]; rfl
  have hothers : ∀ m, m ≠ id → v.book.order m = s.book.order m := fun m hm =>
    OrderBook.order_modOrder_other _ _ _ _ (by intro _; rfl) hm
  have hdown : s.inFlightDown id = if o.state = .closing ∧ o.inFlight ≤ 1 then
      (v.modBook (·.modOrder id fun o => { o with state := .closed })).raise .orderClosed else v := by
    have hzero : o.inFlight - 1 = 0 ↔ o.inFlight ≤ 1 := by omega
    unfold State.inFlightDown
    simp only [show (s.modBook (·.modOrder id fun o => { o with inFlight := o.inFlight - 1 })).book.order id = _ from hv, hzero]
    rfl
  rw [hdown]
  split
  next hclosed =>
    have hbook : ((v.modBook (·.modOrder id fun o => { o with state := .closed })).raise .orderClosed).book =
      v.book.modOrder id fun o => { o with state := .closed } := State.raise_book _ _
    refine ⟨rfl, rfl, ?_, ?_, fun m hm => ?_⟩
    · rw [hbook]; rfl
    · rw [hbook, OrderBook.order_modOrder_same _ _ _ (by intro _; rfl), hv]; rfl
    · rw [hbook, OrderBook.order_modOrder_other _ _ _ _ (by intro _; rfl) hm, hothers m hm]
  next hopen => exact ⟨rfl, rfl, rfl, hv, hothers⟩

/-- What the end of a delivery does to its order: posting, item and count of deliveries in flight (R115 steps 2 to 4). -/
def State.chargeEnd (stop : StopDeliveries) (d : Delivery) (s : State) : State :=
  match d.order, d.figures with
  | some (o, i), some f =>
    (((s.post stop (f.charge o i d.handle d.sent)).modBook (·.modItem o i (Item.afterDelivery d.state f.repeated)))).inFlightDown o
  | _, _ => s

theorem State.deliveryEnd_eq (stop : StopDeliveries) (notice : Bool) (d : Delivery) (s : State) : s.deliveryEnd stop notice d =
    if notice then ((s.readerEnd d.extent).chargeEnd stop d).raise (if d.state = .done then .deliveryDone else .deliveryStopped)
    else (s.readerEnd d.extent).chargeEnd stop d := by
  unfold State.deliveryEnd State.chargeEnd
  rfl

/-- The end of a sale depends on the order book, the meter and the sales link alone. -/
theorem State.SaleEnded.transfer {s' t' : State} {d' : Delivery} {final : DeliveryState} {n : Nat} (h : s.SaleEnded d final n t)
    (ho : d'.order = d.order) (hf : d'.figures = d.figures) (hh : d'.handle = d.handle) (hb : s'.book = s.book)
    (hm : s'.meter = s.meter) (hs : s'.sales = s.sales) (hb' : t'.book = t.book) (hm' : t'.meter = t.meter)
    (hs' : t'.sales = t.sales) : s'.SaleEnded d' final n t' := by
  unfold State.SaleEnded at h ⊢
  rwa [ho, hf, hh, hb, hm, hs, hb', hm', hs']
theorem State.ChargesQuietly.transfer {s' : State} {d' : Delivery} {n : Nat} (h : s.ChargesQuietly d n)
    (ho : d'.order = d.order) (hf : d'.figures = d.figures) (hh : d'.handle = d.handle) (hb : s'.book = s.book)
    (hm : s'.meter = s.meter) : s'.ChargesQuietly d' n := by
  unfold State.ChargesQuietly at h ⊢
  rwa [ho, hf, hh, hb, hm]

theorem State.chargeEnd_spec {stop : StopDeliveries} (hq : s.ChargesQuietly d d.sent) :
    s.chargeEnd stop d = { s with book := (s.chargeEnd stop d).book, meter := (s.chargeEnd stop d).meter
                                  sales := (s.chargeEnd stop d).sales } ∧
    s.SaleEnded d d.state d.sent (s.chargeEnd stop d) := by
  rcases hq with hnone | ⟨o, i, f, ord, it, a, b, ho, hf, hord, hit, ha, hab⟩
  · have hsame : s.chargeEnd stop d = s := by simp [State.chargeEnd, hnone]
    rw [hsame]
    exact ⟨rfl, fun _ => ⟨rfl, rfl⟩, fun o i f ord it a ho => absurd (hnone.symm.trans ho) (by simp)⟩
  · let k := f.charge o i d.handle d.sent
    let q := ord.quotient s.meter.settings.divisor k.reckon.net
    let u := s.post stop k
    let v := u.modBook (·.modItem o i (Item.afterDelivery d.state f.repeated))
    have hsame : s.chargeEnd stop d = v.inFlightDown o := by simp [State.chargeEnd, ho, hf, v, u, k]
    have hpost : ∀ b, a.AfterPosting (min (a.owed + q) 16777215) b → u.book.account ord.account = some b := by
      intro b hb
      obtain ⟨w, hw, -, -, -, haccount, -⟩ := State.post_spec (stop := stop) (c := k) hord ha rfl rfl (show q = _ from rfl) hb
      show (s.post stop k).book.account _ = _
      rw [hw]
      split
      · rw [State.raise_book]; exact haccount
      · exact haccount
    obtain ⟨w, hw, hwframe, hworder, hwothers, -, -⟩ :=
      State.post_spec (stop := stop) (c := k) hord ha rfl rfl (show q = _ from rfl) hab
    have hu : u.book = w.book ∧ u.meter = w.meter ∧
        u.sales = (if 16777215 < ord.units + q ∨ 16777215 < a.owed + q then w.raise .meterSaturated else w).sales ∧
        u = { w with sales := u.sales } := by
      rw [show u = _ from hw]
      split
      · exact ⟨State.raise_book _ _, State.raise_meter _ _, rfl, rfl⟩
      · exact ⟨rfl, rfl, rfl, rfl⟩
    obtain ⟨hubook, humeter, husales, huframe⟩ := hu
    have hsource : u.sales.notices.sources[3]? = s.sales.notices.sources[3]? := by
      have hkept : w.sales = s.sales := by rw [hwframe]
      rw [husales, ← hkept]
      split
      · exact State.raise_source_other (n := .meterSaturated) (l := .sales) (m := 3) (by decide) w
      · rfl
    obtain ⟨x, hx⟩ : ∃ x, x = ({ ord with
      accumulator := (ord.accumulator + k.reckon.net) % s.meter.settings.divisor, units := min (ord.units + q) 16777215
      saturated := ord.saturated || decide (16777215 < ord.units + q) } : Order).modItem i
        (Item.afterDelivery d.state f.repeated) := ⟨_, rfl⟩
    have hvorder : v.book.order o = some x := by
      refine (OrderBook.order_modOrder_same _ _ _ (by intro _; rfl)).trans ?_
      rw [hubook, show w.book.order o = _ from hworder, hx]; rfl
    obtain ⟨hframe, hsales, haccounts, horder, horders⟩ := State.inFlightDown_spec hvorder
    have hmeter : (v.inFlightDown o).meter = w.meter := by rw [hframe]; exact humeter
    have hitem : v.book.item o i = some { it with state := if d.state = .done ∨ f.repeated = true then .delivered else .ready } := by
      refine (OrderBook.item_modItem_same _ _ _ _ (by intro _; rfl)).trans ?_
      have huitem : u.book.item o i = some it := by
        rw [hubook, OrderBook.item, show w.book.order o = _ from hworder]
        exact hit
      rw [huitem]; rfl
    rw [hsame]
    refine ⟨?_, fun hnone => absurd (ho.symm.trans hnone) (by simp), fun o' i' f' ord' it' a' ho' hf' hord' hit' ha' k' q' hk' hq' => ?_⟩
    · have hblocks : ∀ (b : OrderBook) (k : Link), ({ u with book := b, meter := w.meter, sales := k } : State) =
          { s with book := b, meter := w.meter, sales := k } := by
        intro b k
        rw [huframe, hwframe]
      rw [hmeter]
      refine hframe.trans ?_
      exact (by rw [← humeter]; rfl : _ = _).trans (hblocks (v.inFlightDown o).book (v.inFlightDown o).sales)
    · obtain ⟨rfl, rfl⟩ := Prod.mk.inj (Option.some.inj (ho.symm.trans ho'))
      obtain rfl := Option.some.inj (hf.symm.trans hf')
      obtain rfl := Option.some.inj (hord.symm.trans hord')
      obtain rfl := Option.some.inj (hit.symm.trans hit')
      obtain rfl := Option.some.inj (ha.symm.trans ha')
      obtain rfl : k' = k := hk'
      obtain rfl : q' = q := hq'
      refine ⟨?_, ⟨x.items, horder.trans (by rw [hx]; rfl)⟩, fun m hm => ?_, fun b hb => ?_, ?_, fun hclosing hlast src hsrc => ?_⟩
      · refine Eq.trans ?_ hitem
        rw [OrderBook.item, OrderBook.item, horder, hvorder]
        rfl
      · rw [horders m hm]
        refine (OrderBook.order_modOrder_other _ _ _ _ (by intro _; rfl) hm).trans ?_
        rw [hubook]
        exact hwothers m hm
      · rw [← hpost b hb, OrderBook.account, haccounts]
        rfl
      · rw [hmeter, hwframe]
        simp [Charge.entry]
      · rw [hsales, if_pos (by rw [hx]; exact ⟨hclosing, hlast⟩)]
        have hraised := State.raise_source_same .orderClosed v
        rw [show (v.raise .orderClosed).sales.notices.sources[3]? = _ from hraised]
        show (Option.map _ (u.sales.notices.sources[3]?)).map _ = _
        rw [hsource, hsrc]
        rfl

/-! ## A reader less (R55) -/

theorem State.retireCheck_other {ed : Nat} (h : ∀ x, s.cat.edition ed = some x → x.state ≠ .retiring) : s.retireCheck ed = s := by
  unfold State.retireCheck
  split
  · rfl
  next x hx =>
    refine if_neg ?_
    simp [State.retireReady, h x hx]

/-- A reader's end that lowers a count and does nothing else. -/
theorem State.readerEnd_counts {n : Nat} {e : Extent} (he : s.alloc.find n = some e) (h : s.OnlyCounts e) :
    s.readerEnd n = s.modAlloc (·.modExtent n fun e => { e with readers := e.readers - 1 }) := by
  unfold State.readerEnd
  rw [he]
  dsimp only
  split
  · rfl
  next hlast =>
    obtain ⟨hone, hcase⟩ : e.readers = 1 ∧ _ := h.resolve_left (by omega)
    rcases hcase with ⟨hmoving, hpending⟩ | ⟨howned, hedition⟩
    · rw [hmoving]
      exact if_pos hpending
    · have hcheck : ∀ ed, e.owner.edition = some ed →
          (s.modAlloc (·.modExtent n fun e => { e with readers := e.readers - 1 })).retireCheck ed =
            s.modAlloc (·.modExtent n fun e => { e with readers := e.readers - 1 }) := fun ed hed =>
        State.retireCheck_other fun x hx => hedition ed x hed hx
      have hstate : e.state = .live ∨ e.state = .moving ∧ e.releasePending = false := by simpa [Extent.owned] using howned
      rcases hstate with hs | ⟨hs, hp⟩
      · simp only [hs]
        split
        next ed hed => exact hcheck ed hed
        next => rfl
      · simp only [hs, hp, Bool.false_eq_true, if_false]
        split
        next ed hed => exact hcheck ed hed
        next => rfl

/-! ## The end of a delivery (R94, R96) -/

/-- `t` is `s` with the record `y` of a delivery ended in the state `y.state`: its reader gone, its sale charged, its notice
pending. -/
structure State.RecordEnds (s : State) (y : Delivery) (t : State) : Prop where
  frame : t = { s with cat := t.cat, alloc := t.alloc, book := t.book, meter := t.meter, production := t.production
                       desk := (s.raise (if y.state = .done then .deliveryDone else .deliveryStopped)).desk, sales := t.sales }
  sale : s.SaleEnded y y.state y.sent t
  counts : ∀ e, s.alloc.find y.extent = some e → s.OnlyCounts e → t.cat = s.cat ∧
    t.alloc = s.alloc.modExtent y.extent fun e => { e with readers := e.readers - 1 }

theorem State.deliveryEnd_ends {stop : StopDeliveries} {y : Delivery} (hq : s.ChargesQuietly y y.sent) :
    s.RecordEnds y (s.deliveryEnd stop true y) := by
  have hw := State.readerEnd_within (s := s) y.extent
  let u := s.readerEnd y.extent
  have hu : u = { s with cat := u.cat, alloc := u.alloc, production := u.production } := by
    refine hw.frame.trans ?_
    rw [hw.now (by decide), hw.store (by decide), hw.port (by decide), hw.mover (by decide), hw.table (by decide),
      hw.engine (by decide), hw.book (by decide), hw.meter (by decide), hw.deskNotices (by decide), hw.salesNotices (by decide)]
    exact congrArg (fun k : Link => { s with cat := u.cat, alloc := u.alloc, production := k }) (hw.link .production).symm
  have hubook : u.book = s.book := by rw [hu]
  have humeter : u.meter = s.meter := by rw [hu]
  have husales : u.sales = s.sales := by rw [hu]
  obtain ⟨hframe, hsale⟩ := State.chargeEnd_spec (s := u) (stop := stop) (hq.transfer rfl rfl rfl hubook humeter)
  let n : Notice := if y.state = .done then .deliveryDone else .deliveryStopped
  have hn : n.link = .desk := by
    simp only [n]
    split <;> rfl
  obtain ⟨x, hx⟩ : ∃ x, x = u.chargeEnd stop y := ⟨_, rfl⟩
  have heq : s.deliveryEnd stop true y = { x with desk := (x.raise n).desk } := by
    rw [State.deliveryEnd_eq, if_pos rfl, show (s.readerEnd y.extent).chargeEnd stop y = x from hx.symm]
    exact State.raise_desk hn x
  rw [← hx] at hframe hsale
  have hdesk : x.desk = s.desk := by
    rw [hframe, hu]
  rw [heq, State.raise_desk_of hn hdesk]
  refine ⟨?_, hsale.transfer rfl rfl rfl hubook.symm humeter.symm husales.symm rfl rfl rfl, fun e he hc => ?_⟩
  · rw [hframe, hu]
  · have hcount := State.readerEnd_counts he hc
    have hcat : x.cat = u.cat := by rw [hframe]
    have halloc : x.alloc = u.alloc := by rw [hframe]
    exact ⟨hcat.trans (by rw [show u = _ from hcount]; rfl), halloc.trans (by rw [show u = _ from hcount]; rfl)⟩

/-- `t` is `s` after the end of the delivery of the handle `h`, whose record is `y` then: its sale is charged, its notice
pending, and its channel, which is free in the mover `m`, is handed on. -/
structure State.DeliveryEnds (s : State) (h : Nat) (y : Delivery) (m : Mover) (t : State) : Prop where
  frame : t = { s with
    cat := t.cat, alloc := t.alloc, store := t.store, mover := t.mover, table := t.table, book := t.book, meter := t.meter
    production := t.production, desk := (s.raise (if y.state = .done then .deliveryDone else .deliveryStopped)).desk
    sales := t.sales }
  mem : t.store.mem = s.store.mem
  record : t.table.find h = some y
  sale : s.SaleEnded y y.state y.sent t
  counts : ∀ e, s.alloc.find y.extent = some e → s.OnlyCounts e →
    t.cat = s.cat ∧ (t.alloc.find y.extent).map (·.readers) = some (e.readers - 1)
  queue : h ∉ t.mover.queue
  channel : ∀ c, (t.channel c).state = (m.channels.get c).state ∧ (t.channel c).work = (m.channels.get c).work ∨
    (t.channel c).state = .running ∧ ∃ w, (t.channel c).work = some w ∧ w ≠ .delivery h

theorem State.DeliveryEnds.of_steps {v w x : State} {h : Nat} {y : Delivery}
    (hv : v = { s with store := v.store, mover := v.mover, table := v.table }) (hvm : v.store.mem = s.store.mem)
    (hy : v.table.find h = some y) (hq : h ∉ v.mover.queue) (hw : v.RecordEnds y w) (hx : x = { w with store := x.store })
    (hxm : x.store.mem = w.store.mem) (ht : x.HandsOut t) : s.DeliveryEnds h y v.mover t := by
  have hdesk : (v.raise (if y.state = .done then .deliveryDone else .deliveryStopped)).desk =
      (s.raise (if y.state = .done then .deliveryDone else .deliveryStopped)).desk :=
    State.raise_desk_of (by split <;> rfl) (by rw [hv])
  have hmover : x.mover = v.mover := by rw [hx, hw.frame]
  have htable : x.table = v.table := by rw [hx, hw.frame]
  have hframe : t = { s with
      cat := w.cat, alloc := t.alloc, store := t.store, mover := t.mover, table := t.table, book := w.book, meter := w.meter
      production := t.production, desk := (s.raise (if y.state = .done then .deliveryDone else .deliveryStopped)).desk
      sales := w.sales } := by
    refine ht.frame.trans ?_
    rw [hx, hw.frame, hdesk, hv]
  have hbook : t.book = w.book := by rw [hframe]
  have hmeter : t.meter = w.meter := by rw [hframe]
  have hsales : t.sales = w.sales := by rw [hframe]
  have hcat : t.cat = w.cat := by rw [hframe]
  refine ⟨?_, ?_, ?_, ?_, fun e he hc => ?_, fun hmem => hq (hmover ▸ ht.queue h hmem), fun c => ?_⟩
  · rw [hcat, hbook, hmeter, hsales]
    exact hframe
  · rw [ht.mem, hxm, hw.frame]; exact hvm
  · rw [ht.record h (by rw [hmover]; exact hq), htable]
    exact hy
  · exact hw.sale.transfer rfl rfl rfl (by rw [hv]) (by rw [hv]) (by rw [hv]) hbook hmeter hsales
  · have halloc : v.alloc = s.alloc := by rw [hv]
    obtain ⟨hwcat, hwalloc⟩ := hw.counts e (by rw [halloc]; exact he) (by rw [hv]; exact hc)
    refine ⟨by rw [hcat, hwcat, hv], ?_⟩
    rw [ht.readers, show x.alloc = w.alloc by rw [hx], hwalloc, halloc, Allocator.find_modExtent_same _ _ _ (by intro _; rfl), he]
    rfl
  · have hchannel : x.channel c = v.mover.channels.get c := congrArg (·.channels.get c) hmover
    rcases ht.channel c with hkept | ⟨hrun, k, hk, hnew⟩
    · rw [hchannel] at hkept
      exact .inl hkept
    · exact .inr ⟨hrun, k, hk, fun he => hq (hmover ▸ hnew h he)⟩

/-- The work of a delivery's channel ends. -/
theorem State.endChannelWork_ends {stop : StopDeliveries} {y z : Delivery} {final : DeliveryState} {cause : EndCause}
    (hy : s.table.find d.handle = some y) (hz : z = { y with state := final, channel := none, cause := some cause })
    (hn : d.handle ∉ s.mover.queue) (hq : s.ChargesQuietly z z.sent) :
    s.DeliveryEnds d.handle z { s.mover with channels := s.mover.channels.set c {} }
      (s.endChannelWork stop true c d final cause) := by
  let v := ((s.modStore (Store.withdraw (.channel c))).modChannel c fun _ => {}).finishRecord d.handle final cause
  have hv : v.table.find d.handle = some z := by
    refine (DeliveryTable.find_modify_same _ _ _ (by intro _; rfl)).trans ?_
    show (s.table.find d.handle).map _ = _
    rw [hy, hz]; rfl
  have hw : v.endRecord stop true d.handle = v.deliveryEnd stop true z := by
    unfold State.endRecord
    rw [hv]
  let w := v.deliveryEnd stop true z
  have hends : v.RecordEnds z w := State.deliveryEnd_ends (hq.transfer rfl rfl rfl rfl rfl)
  have heq : s.endChannelWork stop true c d final cause =
      (if d.pacing.isSome then w.modStore (Store.fixedDown w.now) else w).handout := by
    unfold State.endChannelWork
    simp only [show (((s.modStore (Store.withdraw (.channel c))).modChannel c fun _ => {}).finishRecord d.handle final
      cause).endRecord stop true d.handle = w from hw]
  rw [heq]
  refine State.DeliveryEnds.of_steps (v := v) (w := w) rfl (Store.withdraw_mem _ _) hv hn hends ?_ ?_ (State.handout_handsOut _)
  · split <;> rfl
  · split
    · exact (Store.fixedDown_calm _ _).left
    · rfl

/-- A WAITING delivery ends. -/
theorem State.endWaiting_ends {stop : StopDeliveries} {y z : Delivery} {cause : EndCause}
    (hy : s.table.find d.handle = some y) (hz : z = { y with state := .stopped, channel := none, cause := some cause })
    (hq : s.ChargesQuietly z z.sent) :
    s.DeliveryEnds d.handle z { s.mover with queue := s.mover.queue.filter (· ≠ d.handle) } (s.endWaiting stop true d cause) := by
  let v := (s.modMover fun m => { m with queue := m.queue.filter (· ≠ d.handle) }).finishRecord d.handle .stopped cause
  have hv : v.table.find d.handle = some z := by
    refine (DeliveryTable.find_modify_same _ _ _ (by intro _; rfl)).trans ?_
    show (s.table.find d.handle).map _ = _
    rw [hy, hz]; rfl
  have hends : v.RecordEnds z (v.deliveryEnd stop true z) := State.deliveryEnd_ends (hq.transfer rfl rfl rfl rfl rfl)
  have heq : s.endWaiting stop true d cause = (v.deliveryEnd stop true z).handout := by
    have hw : v.endRecord stop true d.handle = v.deliveryEnd stop true z := by
      unfold State.endRecord
      rw [hv]
    exact congrArg State.handout hw
  rw [heq]
  exact State.DeliveryEnds.of_steps (v := v) rfl rfl hv (by simp [v, State.finishRecord]) hends rfl rfl (State.handout_handsOut _)

end Sys2Proof.Machine
end

