-- ==== Sys2Proof/Proofs/Stops.lean ====
section
/-! PROOF. Deliveries broken off: a late link and STOP_DELIVERY (chapters 5 and 6, R94, R112, R113, R117). -/

namespace Sys2Proof.Machine

variable {s t : State} {c : Fin 4} {d : Delivery} {stop : StopDeliveries} {final : DeliveryState} {cause : EndCause}

/-! ## A delivery that is broken off (R94, R113) -/

/-- A channel that issues no further read. -/
def Channel.quiet (ch : Channel) : Channel :=
  { ch with buffer := ch.buffer.filter (·.state = .sending), periodFrame := none }

theorem State.quietChannel_channel (c : Fin 4) (s : State) : (s.quietChannel c).channel c = (s.channel c).quiet :=
  Four.get_set_same _ _ _
theorem State.quietChannel_other {b : Fin 4} (h : b ≠ c) (s : State) : (s.quietChannel c).channel b = s.channel b :=
  Four.get_set_other _ _ _ _ h
theorem Channel.quiet_frameSending (ch : Channel) : ch.quiet.frameSending = ch.frameSending := by
  simp [Channel.quiet, Channel.frameSending, List.any_filter]

/-- `t` is `s` with a delivery broken off whose frame is SENDING: its channel only waits for the frame's end. -/
structure State.Stopping (s : State) (c : Fin 4) (d : Delivery) (cause : EndCause) (t : State) : Prop where
  frame : t = { s with store := s.store.withdraw (.channel c), mover := t.mover, table := t.table }
  record : ∀ y, s.table.find d.handle = some y → t.table.find d.handle = some { y with state := .stopping, cause := some cause }
  records : ∀ h, h ≠ d.handle → t.table.find h = s.table.find h
  channel : t.channel c = { (s.channel c).quiet with state := .stopping }
  channels : ∀ b, b ≠ c → t.channel b = s.channel b

theorem State.breakOff_sending (h : (s.channel c).frameSending = true) :
    s.Stopping c d cause (s.breakOff stop c d final cause) := by
  have heq : s.breakOff stop c d final cause = ((s.quietChannel c).modChannel c fun ch => { ch with state := .stopping }).modTable
      (·.modify d.handle fun d => { d with state := .stopping, cause := some cause }) := by
    unfold State.breakOff
    refine if_pos ?_
    rw [State.quietChannel_channel, Channel.quiet_frameSending, h]
  rw [heq]
  refine ⟨rfl, fun y hy => ?_, fun n hn => DeliveryTable.find_modify_other _ _ _ _ (by intro _; rfl) hn,
    (Four.get_set_same _ _ _).trans ?_, fun b hb => (Four.get_set_other _ _ _ _ hb).trans (State.quietChannel_other hb s)⟩
  · refine (DeliveryTable.find_modify_same _ _ _ (by intro _; rfl)).trans ?_
    show (s.table.find d.handle).map _ = _
    rw [hy]; rfl
  · exact congrArg (fun ch : Channel => { ch with state := .stopping }) (State.quietChannel_channel c s)

theorem State.breakOff_ends {y z : Delivery} (h : (s.channel c).frameSending = false) (hy : s.table.find d.handle = some y)
    (hz : z = { y with state := final, channel := none, cause := some cause }) (hn : d.handle ∉ s.mover.queue)
    (hq : s.ChargesQuietly z z.sent) : (s.quietChannel c).DeliveryEnds d.handle z
      { s.mover with channels := (s.quietChannel c).mover.channels.set c {} } (s.breakOff stop c d final cause) := by
  have heq : s.breakOff stop c d final cause = (s.quietChannel c).endChannelWork stop true c d final cause := by
    unfold State.breakOff
    refine if_neg ?_
    rw [State.quietChannel_channel, Channel.quiet_frameSending, h]
    exact Bool.false_ne_true
  rw [heq]
  exact State.endChannelWork_ends (s := s.quietChannel c) hy hz hn (hq.transfer rfl rfl rfl rfl rfl)

theorem State.DeliveryEnds.desk {h : Nat} {y : Delivery} {m : Mover} (he : s.DeliveryEnds h y m t) :
    t.desk = (s.raise (if y.state = .done then .deliveryDone else .deliveryStopped)).desk := by
  rw [he.frame]

/-- DELIVERY_STOPPED is pending at the end of a delivery that is not DONE. -/
theorem State.DeliveryEnds.latched {h : Nat} {y : Delivery} {m : Mover} (he : s.DeliveryEnds h y m t) (hy : y.state ≠ .done)
    {src : Source} (hsrc : s.desk.notices.sources[1]? = some src) :
    (t.desk.notices.sources[1]?).map (·.latched) = some true := by
  have hraised : (s.raise .deliveryStopped).desk.notices.sources[1]? =
    (s.desk.notices.sources[1]?).map fun src => { src with latched := true } := State.raise_source_same .deliveryStopped s
  rw [he.desk, if_neg hy, hraised, hsrc]
  rfl

/-! ## Periods (R112, R113) -/

theorem State.modChannel_congr {f g : Channel → Channel} (h : f (s.channel c) = g (s.channel c)) :
    s.modChannel c f = s.modChannel c g :=
  congrArg (fun ch : Channel => s.modMover fun m => { m with channels := m.channels.set c ch }) h

theorem Channel.choosePeriodFrame_due {ch : Channel} {fill : Option Nat} (hdue : ch.frameDue d = some fill) :
    ch.choosePeriodFrame d = if ch.frameSending then { ch with periodFrame := some { fill, offered := false } }
      else ({ ch with periodFrame := some { fill, offered := false } } : Channel).offerPeriodFrame := by
  unfold Channel.choosePeriodFrame
  rw [hdue]
  rfl
theorem Channel.choosePeriodFrame_none {ch : Channel} (hdue : ch.frameDue d = none) : ch.choosePeriodFrame d = ch := by
  unfold Channel.choosePeriodFrame
  rw [hdue]

/-- The frame of a period is chosen, when no frame is SENDING. -/
theorem Channel.choosePeriodFrame_idle {ch : Channel} (hn : ch.periodFrame = none) (hs : ch.sendingFill = none)
    (hb : ∀ y ∈ ch.buffer, y.state ≠ .sending) :
    (∀ q rest, ch.buffer = q :: rest → q.state = .held → ch.choosePeriodFrame d =
      { ch with periodFrame := some { fill := none, offered := true }, buffer := { q with state := .offered } :: rest }) ∧
    (∀ q rest, ch.buffer = q :: rest → q.state ≠ .held → ch.choosePeriodFrame d =
      { ch with periodFrame := some { fill := some q.index, offered := true } }) ∧
    (ch.buffer = [] → ch.choosePeriodFrame d =
      { ch with periodFrame := (d.walk.tileAt d.imageWidth ch.line ch.place).map fun i => { fill := some i, offered := true } }) := by
  have hidle : ch.frameSending = false := by
    simpa [Channel.frameSending, hs] using hb
  refine ⟨fun q rest hbuf hheld => ?_, fun q rest hbuf hnot => ?_, fun hbuf => ?_⟩
  · have hdue : ch.frameDue d = some none := by simp [Channel.frameDue, hbuf, hheld]
    rw [Channel.choosePeriodFrame_due hdue, hidle]
    simp [Channel.offerPeriodFrame, Channel.offerHead, hbuf, hheld]
  · have hq : q.state ≠ .sending := hb q (by rw [hbuf]; exact List.mem_cons_self)
    have hdue : ch.frameDue d = some (some q.index) := by simp [Channel.frameDue, hbuf, hq, hnot]
    rw [Channel.choosePeriodFrame_due hdue, hidle]
    rfl
  · have hdue : ch.frameDue d = (d.walk.tileAt d.imageWidth ch.line ch.place).map some := by simp [Channel.frameDue, hbuf]
    cases hi : d.walk.tileAt d.imageWidth ch.line ch.place with
    | none =>
      rw [Channel.choosePeriodFrame_none (by rw [hdue, hi]; rfl), Option.map_none, ← hn]
    | some i =>
      rw [Channel.choosePeriodFrame_due (by rw [hdue, hi]; rfl), hidle]
      rfl

/-- The frame of a period is chosen behind a frame that is SENDING. -/
theorem Channel.choosePeriodFrame_behind {ch : Channel} {sent rest : List Place} {frame : Option PeriodFrame} (hn : ch.periodFrame = none)
    (hs : ch.frameSending = true) (hb : ch.buffer = sent ++ rest) (hsent : ∀ y ∈ sent, y.state = .sending)
    (hrest : ∀ q ∈ rest, q.state ≠ .sending)
    (hheld : ∀ q more, rest = q :: more → q.state = .held → frame = some { fill := none, offered := false })
    (hfill : ∀ q more, rest = q :: more → q.state ≠ .held → frame = some { fill := some q.index, offered := false })
    (hnil : rest = [] → frame = (d.walk.tileAt d.imageWidth ch.line ch.place).map fun i => { fill := some i, offered := false }) :
    ch.choosePeriodFrame d = { ch with periodFrame := frame } := by
  have hdrop : ch.buffer.dropWhile (·.state = .sending) = rest.dropWhile (·.state = .sending) := by
    rw [hb]
    exact List.dropWhile_append_of_pos fun y hy => by simpa using hsent y hy
  cases rest with
  | nil =>
    have hdue : ch.frameDue d = (d.walk.tileAt d.imageWidth ch.line ch.place).map some := by
      unfold Channel.frameDue
      rw [hdrop]
      rfl
    rw [hnil rfl]
    cases hi : d.walk.tileAt d.imageWidth ch.line ch.place with
    | none =>
      rw [Channel.choosePeriodFrame_none (by rw [hdue, hi]; rfl), Option.map_none, ← hn]
    | some i =>
      rw [Channel.choosePeriodFrame_due (by rw [hdue, hi]; rfl), hs]
      rfl
  | cons q more =>
    have hq : q.state ≠ .sending := hrest q List.mem_cons_self
    have hdue : ch.frameDue d = some (if q.state = .held then none else some q.index) := by
      unfold Channel.frameDue
      rw [hdrop, List.dropWhile_cons_of_neg (by simpa using hq)]
    rw [Channel.choosePeriodFrame_due hdue, hs]
    by_cases hh : q.state = .held
    · rw [hheld q more rfl hh, if_pos hh]
      rfl
    · rw [hfill q more rfl hh, if_neg hh]
      rfl

/-- The state in which a period has begun. -/
def State.begun (c : Fin 4) (moment : Nat) (s : State) : State :=
  ({ s with now := moment } : State).modChannel c fun ch => { ch with period := ch.period + 1 }

theorem exec_fixedPeriodBegins {p : Pacing} {moment : Nat} (hp : s.power = .running)
    (hw : (s.channel c).work = some (.delivery d.handle)) (hd : s.table.find d.handle = some d) (hpace : d.pacing = some p)
    (hrun : (s.channel c).state = .running) (hm : moment = max s.now ((s.channel c).started + (s.channel c).period * (p.period * 500))) :
    exec (.fixedPeriodBegins c.val) s = .next (if (s.channel c).periodFrame.isSome
        then (s.begun c moment).breakOff cutOffDeliveries c d .failed .linkLate
      else if (s.channel c).period < p.depth then s.begun c moment
      else (s.begun c moment).modChannel c (Channel.choosePeriodFrame d)).settle := by
  have hc : fourIndices.find? (fun i => decide (i.val = c.val)) = some c :=
    find_fourIndices (by simp) fun j hj => by simpa using (Fin.val_ne_of_ne (Fin.ne_of_lt hj))
  show execFixedPeriodBegins c.val s = _
  rw [execFixedPeriodBegins, whenRunning_of_running hp]
  simp only [hc, State.deliveryOn_of hw, hd, hpace]
  rw [State.periodBegins, hm]
  simp only [hrun, ne_eq, not_true_eq_false, if_false]
  rfl

/-- Settles O45. -/
theorem fixedPeriodBegins : Obligations.FixedPeriodBegins := by
  unfold Obligations.FixedPeriodBegins
  intro c d p s hp hw hd hpace hrun moment hm
  have hexec := exec_fixedPeriodBegins hp hw hd hpace hrun hm
  let v : State := { s with now := moment }
  have hchosen : ∀ g : Channel → Channel, (s.channel c).periodFrame = none → p.depth ≤ (s.channel c).period →
      ({ s.channel c with period := (s.channel c).period + 1 } : Channel).choosePeriodFrame d = g (s.channel c) →
      exec (.fixedPeriodBegins c.val) s = .next (v.modChannel c g).settle := by
    intro g hnone hdepth hg
    rw [hexec, hnone, Option.isSome_none, if_neg Bool.false_ne_true, if_neg (Nat.not_lt.mpr hdepth), State.begun,
      State.modChannel_modChannel]
    exact congrArg (fun t : State => Host.Outcome.next t.settle) (State.modChannel_congr hg)
  let ch : Channel := { s.channel c with period := (s.channel c).period + 1 }
  refine ⟨fun hnone hlow => ?_, fun q rest hnone hdepth hfill hidle hbuf => ⟨fun hheld => ?_, fun hnot => ?_⟩,
    fun hnone hdepth hfill hbuf => ?_, fun sent rest hnone hdepth hsend hbuf hsent hrest frame hheld hnot hnil => ?_, fun hsome => ?_⟩
  · rw [hexec, hnone, Option.isSome_none, if_neg Bool.false_ne_true, if_pos hlow]
    rfl
  · exact hchosen _ hnone hdepth ((Channel.choosePeriodFrame_idle (ch := ch) hnone hfill hidle).1 q rest hbuf hheld)
  · exact hchosen _ hnone hdepth ((Channel.choosePeriodFrame_idle (ch := ch) hnone hfill hidle).2.1 q rest hbuf hnot)
  · exact hchosen _ hnone hdepth ((Channel.choosePeriodFrame_idle (ch := ch) hnone hfill
      (by rw [show ch.buffer = [] from hbuf]; simp)).2.2 hbuf)
  · exact hchosen _ hnone hdepth (Channel.choosePeriodFrame_behind (ch := ch) hnone hsend hbuf hsent hrest hheld hnot hnil)
  · obtain ⟨t, ht⟩ : ∃ t, t = (s.begun c moment).breakOff cutOffDeliveries c d .failed .linkLate := ⟨_, rfl⟩
    have hwithin := State.breakOff_within (s := s.begun c moment) State.cutOffDeliveries_bounded c d .failed .linkLate
    rw [Option.isSome_iff_ne_none.mpr hsome, if_pos rfl, ← ht] at hexec
    rw [← ht] at hwithin
    refine ⟨t, hexec, hwithin.now (by decide), hwithin.memory (by decide), fun hsend => ?_, fun hidle hq hn => ?_⟩
    · have hbegun : ((s.begun c moment).channel c).frameSending = true := by
        rw [State.begun, State.modChannel_channel]; exact hsend
      have hstop := State.breakOff_sending (s := s.begun c moment) (d := d) (final := .failed) (cause := .linkLate)
        (stop := cutOffDeliveries) hbegun
      rw [← ht] at hstop
      have hchannel : t.channel c = { ch.quiet with state := .stopping } := by
        rw [hstop.channel, State.begun, State.modChannel_channel]
        rfl
      have hstore : t.store = s.store.withdraw (.channel c) := by rw [hstop.frame]; rfl
      refine ⟨?_, hstop.record d hd, hstop.records, ?_, ?_, ?_, hstore, ?_⟩
      · rw [hstore]
        exact hstop.frame
      · rw [hchannel]
      · rw [hchannel]; rfl
      · rw [hchannel]; rfl
      · rw [hstore]; exact Store.withdraw_outstanding _ _
    · have hbegun : ((s.begun c moment).channel c).frameSending = false := by
        rw [State.begun, State.modChannel_channel]; exact hidle
      have hends := State.breakOff_ends (s := s.begun c moment) (stop := cutOffDeliveries) (final := .failed) (cause := .linkLate)
        hbegun hd rfl hn (hq.transfer rfl rfl rfl rfl rfl)
      rw [← ht] at hends
      refine ⟨hends.record, ?_, hends.sale.transfer rfl rfl rfl rfl rfl rfl rfl rfl rfl, fun src hsrc =>
        hends.latched (by simp) hsrc⟩
      rcases hends.channel c with ⟨-, hwork⟩ | ⟨-, w, hwork, hne⟩
      · rw [hwork, Four.get_set_same]
        simp
      · rw [hwork]
        simpa using hne

/-! ## STOP_DELIVERY (R117) -/

theorem DeliveryTable.find_handle {tb : DeliveryTable} {h : Nat} (hd : tb.find h = some d) : d.handle = h := by
  simpa using List.find?_some hd

theorem exec_stopDelivery {tag : Byte} {ps : List Word} {fs : Fields} {h : Nat} {s₁ : State}
    (ht : Taken .desk (requestOf tag 0x32 ps) [.one] fs s s₁) (hh : fs.nat 0 = some h) (hd : s.table.find h = some d)
    (he : s₁.stopDelivery cutOffDeliveries .requested h = t) : exec (.stopDelivery .desk tag ps) s =
      .next ((t.reply .desk tag { result := .ok, fields := [.one (((t.table.find h).map (·.state)).getD d.state).code] }).settle) :=
  exec_takenWide (.stopDelivery .desk tag ps) rfl rfl rfl ht (by
    have hfound : s₁.table.find h = some d := by rw [ht.table]; exact hd
    simp only [bodyOfCommand, stopDeliveryBody, hh, required, hfound, he, Answer.ok])

theorem Taken.sales_of_desk {r : Request} {layout : List Layout} {fs : Fields} {s₁ : State} (h : Taken .desk r layout fs s s₁) :
    s₁.sales = s.sales := by
  obtain ⟨-, -, k, -, -, rfl⟩ := h
  rfl

/-- A delivery without a channel, or with a RUNNING one whose frames are not SENDING, is stopped at once. -/
theorem State.stopDelivery_ends {z : Delivery} (hd : s.table.find d.handle = some d)
    (hz : z = { d with state := .stopped, channel := none, cause := some cause }) (hq : s.ChargesQuietly d d.sent)
    (hcase : (d.state = .waiting ∧ d.channel = none) ∨ (∃ c, d.state = .running ∧ d.channel = some c ∧
      (s.channel c).frameSending = false ∧ d.handle ∉ s.mover.queue)) :
    ∃ (u : State) (m : Mover), u = { s with store := u.store, mover := u.mover } ∧ u.store.mem = s.store.mem ∧
      u.DeliveryEnds d.handle z m (s.stopDelivery stop cause d.handle) ∧
      ∀ c, d.channel = some c → m.channels.get c = {} := by
  have hquiet : s.ChargesQuietly z z.sent := by
    subst hz
    exact hq.transfer rfl rfl rfl rfl rfl
  rcases hcase with ⟨hwait, hnone⟩ | ⟨c, hrun, hchan, hsend, hn⟩
  · refine ⟨s, { s.mover with queue := s.mover.queue.filter (· ≠ d.handle) }, rfl, rfl, ?_, fun c hc => absurd (hnone.symm.trans hc) (by simp)⟩
    have heq : s.stopDelivery stop cause d.handle = s.endWaiting stop true d cause := by
      simp only [State.stopDelivery, hd, hwait]
    rw [heq]
    exact State.endWaiting_ends hd hz hquiet
  · refine ⟨s.quietChannel c, { s.mover with channels := (s.quietChannel c).mover.channels.set c {} }, rfl, Store.withdraw_mem _ _, ?_, fun b hb => ?_⟩
    · have heq : s.stopDelivery stop cause d.handle = s.breakOff stop c d .stopped cause := by
        simp only [State.stopDelivery, hd, hrun, hchan]
      rw [heq]
      exact State.breakOff_ends hsend hd hz hn hquiet
    · obtain rfl := Option.some.inj (hchan.symm.trans hb)
      exact Four.get_set_same _ _ _

/-- Settles O46. -/
theorem stopDelivery : Obligations.StopDelivery := by
  unfold Obligations.StopDelivery
  intro tag ps fs h s s₁ ht hh
  refine ⟨fun hnone => ?_, fun d hd => ⟨fun hstate => ?_, fun c hrun hchan hsend => ?_, fun hcase hq => ?_⟩⟩
  · have hnone₁ : s₁.table.find h = none := by rw [ht.table]; exact hnone
    exact exec_takenWide (.stopDelivery .desk tag ps) rfl rfl rfl ht
      (by simp only [bodyOfCommand, stopDeliveryBody, hh, required, hnone₁]; rfl)
  all_goals
    obtain rfl := DeliveryTable.find_handle hd
    have hd₁ : s₁.table.find d.handle = some d := by rw [ht.table]; exact hd
  · have hidle : s₁.stopDelivery cutOffDeliveries .requested d.handle = s₁ := State.stopDelivery_idle fun y hy => by
      obtain rfl := Option.some.inj (hd₁.symm.trans hy)
      rcases hstate with h | h | h | h <;> simp [h]
    rw [exec_stopDelivery ht hh hd hidle, hd₁]
    rfl
  · obtain ⟨t, heq⟩ : ∃ t, t = s₁.breakOff cutOffDeliveries c d .stopped .requested := ⟨_, rfl⟩
    have hmover : s₁.mover = s.mover := ht.mover
    have hchannel : ∀ b, s₁.channel b = s.channel b := fun b => by rw [State.channel, hmover]; rfl
    have hstop := State.breakOff_sending (s := s₁) (d := d) (final := .stopped) (cause := .requested) (stop := cutOffDeliveries)
      (by rw [hchannel]; exact hsend)
    rw [← heq] at hstop
    have hexec := exec_stopDelivery ht hh hd (t := t) (by simp only [State.stopDelivery, hd₁, hrun, hchan]; exact heq.symm)
    have hrecord := hstop.record d hd₁
    rw [hrecord] at hexec
    have hstore : t.store = s.store.withdraw (.channel c) := by rw [hstop.frame, ← ht.store]
    have hch : t.channel c = { (s.channel c).quiet with state := .stopping } := by rw [hstop.channel, hchannel]
    refine ⟨t, hexec, ?_, hstore, ?_, hrecord, fun other ho => ?_, ?_, ?_, ?_, fun b hb => ?_⟩
    · rw [hstore, ← ht.store]
      exact hstop.frame
    · rw [hstore]; exact Store.withdraw_outstanding _ _
    · rw [hstop.records other ho, ht.table]
    · rw [hch]
    · rw [hch]; rfl
    · rw [hch]; rfl
    · rw [hstop.channels b hb, hchannel]
  · obtain ⟨t, heq⟩ : ∃ t, t = s₁.stopDelivery cutOffDeliveries .requested d.handle := ⟨_, rfl⟩
    have hmover : s₁.mover = s.mover := ht.mover
    obtain ⟨u, m, hu, humem, hends, hm⟩ := State.stopDelivery_ends (stop := cutOffDeliveries) (cause := .requested) hd₁ rfl
      (hq.transfer rfl rfl rfl ht.book ht.meter) (by rw [hmover]; simpa [State.channel, hmover] using hcase)
    rw [← heq] at hends
    have hexec := exec_stopDelivery ht hh hd heq.symm
    rw [hends.record] at hexec
    have hbook : u.book = s.book := by rw [hu, ← ht.book]
    have hmeter : u.meter = s.meter := by rw [hu, ← ht.meter]
    have hsales : u.sales = s.sales := by rw [hu, ← ht.sales_of_desk]
    refine ⟨t, hexec, hends.record, fun c hc => ?_, hends.queue, ?_,
      hends.sale.transfer rfl rfl rfl hbook.symm hmeter.symm hsales.symm rfl rfl rfl, ?_, ?_, fun src hsrc =>
        hends.latched (by simp) (by rw [hu]; exact hsrc)⟩
    · rcases hends.channel c with ⟨hstate, hwork⟩ | ⟨hrun, w, hwork, hne⟩
      · rw [hwork, hstate, hm c hc]
        simp
      · rw [hwork]
        exact ⟨by simpa using hne, .inr ⟨hrun, by simp⟩⟩
    · rw [hends.mem, humem, ht.store]
    · rw [hends.frame, hu, ← ht.port]
    · rw [hends.frame, hu, ← ht.engine]

end Sys2Proof.Machine
end

