-- ==== Sys2Proof/Proofs/FramesSent.lean ====
section
/-! PROOF. Frames that have been sent (chapters 5, 6 and 10, R92, R94, R96, R112, R188, R192, R193, R194). -/

namespace Sys2Proof.Machine

variable {s t : State} {c : Fin 4} {d counted : Delivery} {left : Nat} {stop : StopDeliveries} {final : DeliveryState}
  {cause : EndCause}

/-! ## The end of a delivery's frame (R92, R94) -/

theorem exec_frameSent_channel (hp : s.power = .running) (hs : s.desk.sending = some (.channel c)) :
    exec (.frameSent .desk) s =
      .next (({ s with desk := { s.desk with sending := none } } : State).frameEnd cutOffDeliveries c).settle := by
  show execFrameSent .desk s = _
  rw [execFrameSent, whenRunning_of_running hp]
  simp only [show (s.link .desk).sending = _ from hs]
  rfl

/-- The channel after its frame, and the delivery counted: what follows is the end of the work or the next read. -/
theorem State.frameEnd_counted (hw : (s.channel c).work = some (.delivery d.handle)) (hd : s.table.find d.handle = some d)
    (hs : (s.channel c).Sends d counted left) :
    ∃ u : State, s.frameEnd stop c = u.afterFrame stop c d ∧ u = { s with mover := u.mover, table := u.table } ∧
      u.mover.queue = s.mover.queue ∧ u.table.find d.handle = some counted ∧
      (∀ h, h ≠ d.handle → u.table.find h = s.table.find h) ∧ (∀ b, b ≠ c → u.channel b = s.channel b) ∧
      (((s.channel c).sendingFill = none ∧ ∃ p rest, (s.channel c).buffer = p :: rest ∧
          u.channel c = { s.channel c with buffer := rest, terminal := left }) ∨
        (∃ n, (s.channel c).sendingFill = some n) ∧ left = (s.channel c).terminal ∧
          u.channel c = { s.channel c with sendingFill := none }) := by
  have hon := State.deliveryOn_of hw
  rw [hd] at hon
  rcases hs with ⟨hnone, rfl, p, rest, hbuf, hp, rfl⟩ | ⟨⟨n, hfill⟩, rfl, rfl⟩
  · let u := (s.modChannel c fun ch => { ch with buffer := rest, terminal := ch.terminal - 1 }).modTable
      (·.modify d.handle (Delivery.countFrame false p.damaged))
    refine ⟨u, ?_, rfl, rfl, ?_, fun h hh => DeliveryTable.find_modify_other _ _ _ _ ?_ hh,
      fun b hb => Four.get_set_other _ _ _ _ hb, .inl ⟨hnone, p, rest, hbuf, Four.get_set_same _ _ _⟩⟩
    · unfold State.frameEnd
      simp only [hon, hnone, Option.isSome_none, Bool.false_eq_true, if_false, hbuf, hp, if_true]
      rfl
    · refine (DeliveryTable.find_modify_same _ _ _ ?_).trans ?_
      · intro y
        cases hdam : p.damaged <;> rfl
      · show (s.table.find d.handle).map _ = _
        rw [hd]
        cases hdam : p.damaged <;> rfl
    · intro y
      cases hdam : p.damaged <;> rfl
  · let u := (s.modChannel c fun ch => { ch with sendingFill := none }).modTable
      (·.modify d.handle (Delivery.countFrame true false))
    refine ⟨u, ?_, rfl, rfl, ?_, fun h hh => DeliveryTable.find_modify_other _ _ _ _ (by intro _; rfl) hh,
      fun b hb => Four.get_set_other _ _ _ _ hb, .inr ⟨⟨n, hfill⟩, rfl, Four.get_set_same _ _ _⟩⟩
    · unfold State.frameEnd
      simp only [hon, hfill, Option.isSome_some, if_true]
      rfl
    · refine (DeliveryTable.find_modify_same _ _ _ (by intro _; rfl)).trans ?_
      show (s.table.find d.handle).map _ = _
      rw [hd]
      rfl

/-- After the last frame the work of the channel ends. -/
theorem State.afterFrame_ends (hs : (s.channel c).Ends d (s.channel c).terminal final cause) :
    s.afterFrame stop c d = s.endChannelWork stop true c d final cause := by
  unfold State.afterFrame
  dsimp only
  rcases hs with ⟨hrun, hleft, rfl, rfl⟩ | ⟨hstop, hlate, rfl, rfl⟩ | ⟨hstop, hother, hleft, rfl, rfl⟩ |
    ⟨hstop, hcause, hother, hleft, rfl⟩
  · simp [hrun, hleft]
  · simp [hstop, hlate]
  · simp [hstop, hother, hleft]
  · have hmore : (s.channel c).terminal ≠ 0 := by omega
    simp [hstop, hcause, hother, hmore]

/-- An event of the desk link leaves its source pending. -/
theorem State.pendingMark_raised {n : Notice} (hn : n.link = .desk) (hlen : n.number < s.desk.notices.sources.length)
    (ht : t.desk = (s.raise n).desk) : t.pendingMark .desk n.number (t.desk.notices.sources.getD n.number {}) = true := by
  have hraised : (s.raise n).desk.notices.sources[n.number]? =
      (s.desk.notices.sources[n.number]?).map fun src => { src with latched := true } := by
    have h := State.raise_source_same n s
    rw [hn] at h
    exact h
  show (t.desk.notices.sources.getD n.number {}).latched = true
  rw [List.getD_eq_getElem?_getD, ht, hraised, List.getElem?_eq_getElem hlen]
  rfl

/-- Settles O11. -/
theorem lastFrameSent : Obligations.LastFrameSent := by
  unfold Obligations.LastFrameSent
  intro c s d counted left e final cause hp hsend hw hd hs hends hn he hc hlen hq
  have hexec := exec_frameSent_channel hp hsend
  let v : State := { s with desk := { s.desk with sending := none } }
  obtain ⟨u, hu, huframe, huqueue, hrecord, -, -, hchannel⟩ := State.frameEnd_counted (s := v) (stop := cutOffDeliveries) hw hd hs
  have hsame : counted.order = d.order ∧ counted.figures = d.figures ∧ counted.handle = d.handle ∧ counted.extent = d.extent := by
    rcases hs with ⟨-, -, p, rest, -, -, rfl⟩ | ⟨-, -, rfl⟩
    · split <;> exact ⟨rfl, rfl, rfl, rfl⟩
    · exact ⟨rfl, rfl, rfl, rfl⟩
  obtain ⟨horder, hfigures, hhandle, hextent⟩ := hsame
  have hlast : (u.channel c).Ends d (u.channel c).terminal final cause := by
    rcases hchannel with ⟨-, p, rest, -, hch⟩ | ⟨-, rfl, hch⟩
    · rw [hch]; exact hends
    · rw [hch]; exact hends
  let z : Delivery := { counted with state := final, channel := none, cause := some cause }
  have hcharges : u.ChargesQuietly z z.sent := hq.transfer horder hfigures hhandle (by rw [huframe]) (by rw [huframe])
  have hended := State.endChannelWork_ends (s := u) (c := c) (stop := cutOffDeliveries) hrecord (z := z) rfl
    (by rw [huqueue]; exact hn) hcharges
  obtain ⟨t, ht⟩ : ∃ t, t = u.endChannelWork cutOffDeliveries true c d final cause := ⟨_, rfl⟩
  rw [← ht] at hended
  rw [hu, State.afterFrame_ends hlast, ← ht] at hexec
  have halloc : u.alloc = s.alloc := by rw [huframe]
  have hcat : u.cat = s.cat := by rw [huframe]
  obtain ⟨htcat, hreaders⟩ := hended.counts e (by rw [halloc, show z.extent = d.extent from hextent]; exact he)
    (by unfold State.OnlyCounts at hc ⊢; rwa [hcat])
  refine ⟨t, hexec, hended.record, ?_, ?_, ?_, ?_, ?_, htcat.trans hcat, ?_⟩
  · rw [← hextent]; exact hreaders
  · have hlen' : u.desk.notices.sources.length = 4 := by rw [huframe]; exact hlen
    have hdesk : t.desk = (u.raise (if final = .done then .deliveryDone else .deliveryStopped)).desk := hended.desk
    split
    next hdone =>
      rw [if_pos hdone] at hdesk
      exact State.pendingMark_raised (n := .deliveryDone) rfl (by rw [hlen']; decide) hdesk
    next hnot =>
      rw [if_neg hnot] at hdesk
      exact State.pendingMark_raised (n := .deliveryStopped) rfl (by rw [hlen']; decide) hdesk
  · rcases hended.channel c with ⟨-, hwork⟩ | ⟨-, w, hwork, hne⟩
    · rw [hwork, Four.get_set_same]; simp
    · rw [hwork]; simpa using hne
  · rw [hended.mem, huframe]
  · rw [hended.frame, huframe]
  · exact hended.sale.transfer horder.symm hfigures.symm hhandle.symm (by rw [huframe]) (by rw [huframe]) (by rw [huframe]) rfl rfl rfl

/-! ## Transmitters (R194) -/

theorem State.transmit_busy {l : LinkId} (h : (s.link l).sending ≠ none) : s.transmit l = s :=
  if_pos (Option.isSome_iff_ne_none.mpr h)
theorem State.transmit_reply {l : LinkId} (h : (s.link l).sending = none) (hr : (s.link l).replies ≠ []) :
    s.transmit l = s.setLink l { s.link l with sending := some .reply } := by
  rw [State.transmit, h, Option.isSome_none, if_neg Bool.false_ne_true, if_pos hr, State.modLink]
theorem State.transmit_still {l : LinkId} (h : (s.link l).sending = none) (hr : (s.link l).replies = []) (hl : l ≠ .desk) :
    s.transmit l = s := by
  rw [State.transmit, h, Option.isSome_none, if_neg Bool.false_ne_true, if_neg (by simp [hr]), if_neg hl]
theorem State.transmit_desk_none (hr : s.desk.replies = []) (hc : ∀ c, (s.channel c).offers = false) :
    s.transmit .desk = s := by
  have hnone : (turnOrder s.deskTurn).find? (fun c => (s.channel c).offers) = none :=
    List.find?_eq_none.mpr fun c _ => by simp [hc c]
  unfold State.transmit
  simp only [hnone, show (s.link .desk).replies = [] from hr, ne_eq, not_true_eq_false, if_false, ite_self]
theorem State.transmit_desk_some (h : s.desk.sending = none) (hr : s.desk.replies = [])
    (hc : (turnOrder s.deskTurn).find? (fun c => (s.channel c).offers) = some c) : s.transmit .desk =
    { s with mover := (s.modChannel c Channel.taken).mover, deskTurn := c
             desk := { s.desk with sending := some (.channel c) } } := by
  unfold State.transmit
  simp only [show (s.link .desk).sending = none from h, show (s.link .desk).replies = [] from hr, Option.isSome_none,
    Bool.false_eq_true, ne_eq, not_true_eq_false, if_false, if_true, hc]
  rfl

/-- The first channel that offers, in the order of the turns. -/
theorem find_turnOrder {turn c : Fin 4} {q : Fin 4 → Bool} (hc : q c = true)
    (hbefore : ∀ e : Fin 4, (e - turn - 1).val < (c - turn - 1).val → q e = false) : (turnOrder turn).find? q = some c := by
  have horder : ∀ turn : Fin 4, turnOrder turn = fourIndices.map fun k => turn + 1 + k := by decide
  rw [horder, List.find?_map]
  have hindex : fourIndices.find? (q ∘ fun k => turn + 1 + k) = some (c - turn - 1) := by
    refine find_fourIndices ?_ fun j hj => ?_
    · have hback : turn + 1 + (c - turn - 1) = c := by abel
      simp only [Function.comp, hback, hc]
    · refine hbefore _ ?_
      have hback : turn + 1 + j - turn - 1 = j := by abel
      rw [hback]
      exact hj
  rw [hindex]
  have hback : turn + 1 + (c - turn - 1) = c := by abel
  simp only [Option.map_some, hback]

theorem Channel.offers_iff {ch : Channel} : ch.offers = true ↔ (∃ p, ch.buffer.head? = some p ∧ p.state = .offered) ∨
    ∃ f n, ch.periodFrame = some f ∧ f.offered = true ∧ f.fill = some n := by
  unfold Channel.offers
  rw [Bool.or_eq_true]
  refine or_congr ?_ ?_
  · cases ch.buffer <;> simp
  · cases ch.periodFrame <;> simp [Option.isSome_iff_exists]

theorem Channel.taken_tile {ch : Channel} {p : Place} {rest : List Place} (hb : ch.buffer = p :: rest) (hp : p.state = .offered) :
    ch.taken = { ch with buffer := { p with state := .sending } :: rest, periodFrame := none } := by
  simp [Channel.taken, hb, hp]
theorem Channel.taken_fill {ch : Channel} {f : PeriodFrame} {n : Nat} (hb : ∀ p, ch.buffer.head? = some p → p.state ≠ .offered)
    (hf : ch.periodFrame = some f) (hn : f.fill = some n) : ch.taken = { ch with sendingFill := some n, periodFrame := none } := by
  unfold Channel.taken
  cases hbuf : ch.buffer with
  | nil => simp [hf, hn]
  | cons p rest => simp [hb p (by simp [hbuf]), hf, hn, ← hbuf]

/-- A transmitter changes its own link alone. -/
theorem State.transmit_link_other {l m : LinkId} (h : m ≠ l) (s : State) : (s.transmit l).link m = s.link m := by
  unfold State.transmit
  split
  · rfl
  · split
    · exact State.setLink_link_other _ _ _ _ h
    · split
      next hl =>
        subst hl
        split
        · cases m with
          | desk => exact absurd rfl h
          | production => rfl
          | sales => rfl
        · rfl
      · rfl

theorem State.transmit_sends_reply {l : LinkId} (h : (s.link l).sending = none) :
    ((s.transmit l).link l).sending = some .reply ↔ (s.link l).replies ≠ [] := by
  by_cases hr : (s.link l).replies = []
  · refine iff_of_false ?_ (not_not.mpr hr)
    by_cases hl : l = .desk
    · subst hl
      cases hc : (turnOrder s.deskTurn).find? (fun c => (s.channel c).offers) with
      | some c =>
        rw [State.transmit_desk_some h hr hc]
        simp [State.link]
      | none =>
        have hsame : s.transmit .desk = s := by
          unfold State.transmit
          simp only [hc, hr, ne_eq, not_true_eq_false, if_false, ite_self]
        rw [hsame, h]
        simp
    · rw [State.transmit_still h hr hl, h]
      simp
  · rw [State.transmit_reply h hr, State.setLink_link]
    exact iff_of_true rfl hr

/-- At the end of a step the link sends a reply when it sent nothing and holds one. -/
theorem State.settle_sends_reply {l : LinkId} (h : (s.link l).sending = none) :
    ((s.settle).link l).sending = some .reply ↔ (s.link l).replies ≠ [] := by
  let u := s.modStore (Store.settle s.now)
  have hu : ∀ m, u.link m = s.link m := fun m => by cases m <;> rfl
  show ((((u.transmit .production).transmit .desk).transmit .sales).link l).sending = _ ↔ _
  cases l with
  | production =>
    rw [State.transmit_link_other (by decide), State.transmit_link_other (by decide), ← hu]
    exact State.transmit_sends_reply (s := u) h
  | desk =>
    have hk : (u.transmit .production).link .desk = s.link .desk := State.transmit_link_other (by decide) _
    rw [State.transmit_link_other (by decide), ← hk]
    exact State.transmit_sends_reply (by rw [hk]; exact h)
  | sales =>
    have hk : ((u.transmit .production).transmit .desk).link .sales = s.link .sales := by
      rw [State.transmit_link_other (by decide), State.transmit_link_other (by decide)]; rfl
    rw [← hk]
    exact State.transmit_sends_reply (by rw [hk]; exact h)

/-! ## The end of a reply (R188, R192, R193) -/

/-- The link when its reply has been sent. -/
def State.replyGone (l : LinkId) (s : State) : State :=
  s.setLink l { s.link l with replies := (s.link l).replies.tail, sending := none }

theorem exec_frameSent_reply {l : LinkId} (hp : s.power = .running) (hs : (s.link l).sending = some .reply) :
    exec (.frameSent l) s = .next (if l = .production then ((s.replyGone l).passHeldRefusal l).passHeldTile
      else (s.replyGone l).passHeldRefusal l).settle := by
  show execFrameSent l s = _
  rw [execFrameSent, whenRunning_of_running hp]
  simp only [hs]
  rfl

theorem State.passHeldRefusal_none {l : LinkId} (h : ∀ r, (s.link l).held ≠ some (.refusal r)) : s.passHeldRefusal l = s := by
  unfold State.passHeldRefusal
  split
  next r hr => exact absurd hr (h r)
  next => rfl
theorem State.passHeldRefusal_place {l : LinkId} {r : Reply} (h : (s.link l).held = some (.refusal r))
    (hr : (s.link l).replies.length < 2) : s.passHeldRefusal l =
      s.setLink l { s.link l with held := none, replies := (s.link l).replies ++ [r] } := by
  unfold State.passHeldRefusal
  rw [h]
  exact if_pos (Link.placeFree_iff.mpr hr)
theorem State.passHeldTile_still (h : ∀ n i x, s.production.held = some (.tile n i x) →
    s.port.buffer ≠ none ∨ 2 ≤ s.production.replies.length) : s.passHeldTile = s := by
  unfold State.passHeldTile
  split
  next n i x hx =>
    refine if_neg fun hpass => ?_
    obtain ⟨hbuf, hrep⟩ := State.tilePassable_iff.mp hpass
    rcases h n i x hx with hb | hr
    · exact hb hbuf
    · omega
  next => rfl
theorem State.passHeldTile_pass {n i : Nat} {x : Tile} (h : s.production.held = some (.tile n i x)) (hb : s.port.buffer = none)
    (hr : s.production.replies.length < 2) :
    s.passHeldTile = ({ s with production := { s.production with held := none } } : State).passTile n i x := by
  unfold State.passHeldTile
  rw [h]
  exact if_pos (State.tilePassable_iff.mpr ⟨hb, hr⟩)

/-- The TILE frame held at the receiver is passed as one that arrives then. -/
theorem exec_heldTile {n i : Nat} {x : Tile} {ws : List Word} (hp : s.power = .running)
    (h : s.production.held = some (.tile n i x)) (hw : sortFrame .production ws = .tile n i x) (hb : s.port.buffer = none)
    (hr : s.production.replies.length < 2) :
    exec (.tileFrame ws) { s with production := { s.production with held := none } } = .next s.passHeldTile.settle := by
  let v : State := { s with production := { s.production with held := none } }
  have hpass : v.tilePassable = true := State.tilePassable_iff.mpr ⟨hb, hr⟩
  rw [show s.passHeldTile = v.passTile n i x from State.passHeldTile_pass h hb hr]
  exact (exec_tileFrame (s := v) hp hw rfl).trans (if_pos hpass)

/-! ## A delivery that goes on (R91, R92, R112) -/

/-- With a request of the channel outstanding no read is asked for. -/
theorem State.issueRead_outstanding (h : s.store.outstanding (.channel c) = true) : s.issueRead c = s := by
  unfold State.issueRead
  dsimp only
  split
  · rfl
  · split
    · exact if_neg (by simp [h])
    · rfl

theorem Channel.offerHead_indices (ch : Channel) : ch.offerHead.buffer.map (·.index) = ch.buffer.map (·.index) := by
  unfold Channel.offerHead
  cases hb : ch.buffer with
  | nil => simp [hb]
  | cons p rest =>
    dsimp only
    split
    · rfl
    · simp [hb]
theorem Channel.offerHead_place (ch : Channel) : (ch.offerHead.line, ch.offerHead.place) = (ch.line, ch.place) ∧
    ch.offerHead.terminal = ch.terminal ∧ ch.offerHead.sendingFill = ch.sendingFill ∧
    ch.offerHead.periodFrame = ch.periodFrame := by
  unfold Channel.offerHead
  split
  · split <;> exact ⟨rfl, rfl, rfl, rfl⟩
  · exact ⟨rfl, rfl, rfl, rfl⟩

/-- An offer changes the state of the head place and the period's frame alone. -/
theorem Channel.offerNext_spec (fixed : Bool) (ch : Channel) :
    (ch.offerNext fixed).buffer.map (·.index) = ch.buffer.map (·.index) ∧
    ((ch.offerNext fixed).line, (ch.offerNext fixed).place) = (ch.line, ch.place) ∧
    (ch.offerNext fixed).terminal = ch.terminal ∧ (ch.offerNext fixed).sendingFill = ch.sendingFill ∧
    (∀ f, fixed = true → ch.periodFrame = some f → (ch.offerNext fixed).periodFrame = some { f with offered := true }) := by
  unfold Channel.offerNext
  split
  next hfixed =>
    unfold Channel.offerPeriodFrame
    split
    next hnone => exact ⟨rfl, rfl, rfl, rfl, fun f _ hf => absurd (hnone.symm.trans hf) (by simp)⟩
    next f hf =>
      have hsame : ∀ g, ch.periodFrame = some g → g = f := fun g hg => Option.some.inj (hg.symm.trans hf)
      dsimp only
      split
      · exact ⟨rfl, rfl, rfl, rfl, fun g _ hg => by rw [hsame g hg]⟩
      · obtain ⟨hplace, hterminal, hfill, hframe⟩ :=
          Channel.offerHead_place { ch with periodFrame := some { f with offered := true } }
        exact ⟨Channel.offerHead_indices _, hplace, hterminal, hfill, fun g _ hg => by rw [hframe, hsame g hg]⟩
  next hvariable =>
    obtain ⟨hplace, hterminal, hfill, hframe⟩ := Channel.offerHead_place ch
    exact ⟨Channel.offerHead_indices _, hplace, hterminal, hfill, fun f hfixed => absurd hfixed hvariable⟩

theorem State.afterFrame_goesOn (hrun : (s.channel c).state = .running) (hmore : (s.channel c).terminal ≠ 0) :
    s.afterFrame stop c d = (s.issueRead c).modChannel c (Channel.offerNext d.pacing.isSome) := by
  unfold State.afterFrame
  simp [hrun, hmore]

/-- A delivery's channel goes on with the next read and the next offer. -/
theorem State.readsOn {u : State} {e : Extent} {rest : List Place} (hon : u.deliveryOn c = some counted)
    (hwalk : counted.walk = d.walk ∧ counted.imageWidth = d.imageWidth ∧ counted.extent = d.extent) (he : u.alloc.find d.extent = some e)
    (hrun : (u.channel c).state = .running) (hbuf : (u.channel c).buffer = rest) (hstore : u.store = s.store) (hnow : u.now = s.now)
    (hplace : (u.channel c).line = (s.channel c).line ∧ (u.channel c).place = (s.channel c).place)
    (hframe : (u.channel c).periodFrame = (s.channel c).periodFrame) :
    s.ReadsOn c d e rest ((u.issueRead c).modChannel c (Channel.offerNext d.pacing.isSome)) ∧
    (((u.issueRead c).modChannel c (Channel.offerNext d.pacing.isSome)).channel c).terminal = (u.channel c).terminal ∧
    (((u.issueRead c).modChannel c (Channel.offerNext d.pacing.isSome)).channel c).sendingFill = (u.channel c).sendingFill := by
  obtain ⟨hw, hi, hx⟩ := hwalk
  obtain ⟨hline, hpl⟩ := hplace
  rw [State.ReadsOn, State.modChannel_channel]
  obtain ⟨hindex, hpos, hterm, hfill, hperiod⟩ := Channel.offerNext_spec d.pacing.isSome ((u.issueRead c).channel c)
  have hnext : ∀ i, d.walk.tileAt d.imageWidth (s.channel c).line (s.channel c).place = some i →
      s.store.outstanding (.channel c) = false → rest.length < 4 → u.issueRead c = (u.modChannel c fun ch => { ch with
        buffer := ch.buffer ++ [{ state := .reading, index := i }]
        line := (d.walk.advance ch.line ch.place).1, place := (d.walk.advance ch.line ch.place).2 }).modStore
      (Store.ask u.now ⟨.channel c, e.first + i, .read⟩) := by
    intro i ht ho hl
    have h := State.issueRead_next hon (i := i) (by rw [hx]; exact he) (by rw [hw, hi, hline, hpl]; exact ht) hrun
      (by rw [hstore]; exact ho) (by rw [hbuf]; exact hl)
    rwa [hw] at h
  have hrest : d.walk.tileAt d.imageWidth (s.channel c).line (s.channel c).place = none ∨
      s.store.outstanding (.channel c) = true ∨ 4 ≤ rest.length → u.issueRead c = u := by
    rintro (ht | ho | hl)
    · exact State.issueRead_rest hon (.inl (by rw [hw, hi, hline, hpl]; exact ht))
    · exact State.issueRead_outstanding (by rw [hstore]; exact ho)
    · exact State.issueRead_rest hon (.inr (by rw [hbuf]; exact hl))
  have hkept : ((u.issueRead c).channel c).periodFrame = (u.channel c).periodFrame ∧
      ((u.issueRead c).channel c).terminal = (u.channel c).terminal ∧
      ((u.issueRead c).channel c).sendingFill = (u.channel c).sendingFill ∧
      ∃ behind, ((u.issueRead c).channel c).buffer = rest ++ behind := by
    by_cases hno : d.walk.tileAt d.imageWidth (s.channel c).line (s.channel c).place = none ∨
      s.store.outstanding (.channel c) = true ∨ 4 ≤ rest.length
    · rw [hrest hno]
      exact ⟨rfl, rfl, rfl, [], by rw [hbuf, List.append_nil]⟩
    · obtain ⟨ht, ho, hl⟩ := not_or.mp hno |>.imp_right not_or.mp
      obtain ⟨i, hi'⟩ := Option.ne_none_iff_exists'.mp ht
      rw [hnext i hi' (by simpa using ho) (by omega), State.modStore_channel, State.modChannel_channel]
      exact ⟨rfl, rfl, rfl, _, by rw [hbuf]⟩
  obtain ⟨hkframe, hkterm, hkfill, behind, hkbuf⟩ := hkept
  refine ⟨⟨fun i ht ho hl => ?_, fun hno => ?_, fun q more hpace hq hheld => ?_, fun f hpace hf => ?_⟩,
    hterm.trans hkterm, hfill.trans hkfill⟩
  · rw [hindex, hpos, hnext i ht ho hl]
    refine ⟨?_, ?_, ?_⟩
    · rw [State.modStore_channel, State.modChannel_channel, hbuf, List.map_append]
      rfl
    · rw [State.modStore_channel, State.modChannel_channel, hline, hpl]
    · show u.store.ask u.now _ = _
      rw [hstore, hnow]
  · rw [hindex, hrest hno, hbuf]
    exact ⟨rfl, hstore⟩
  · rw [hpace, Option.isSome_none, Channel.offerNext, if_neg Bool.false_ne_true, Channel.offerHead, hkbuf, hq]
    simp [hheld]
  · exact hperiod f (Option.isSome_iff_ne_none.mpr hpace) (by rw [hkframe, hframe]; exact hf)

/-- A frame of a RUNNING delivery has been sent and tiles of the walk are left. -/
theorem exec_frameSent_goesOn {e : Extent} {rest : List Place} (hp : s.power = .running) (hsend : s.desk.sending = some (.channel c))
    (hw : (s.channel c).work = some (.delivery d.handle)) (hd : s.table.find d.handle = some d)
    (hs : (s.channel c).Sends d counted left) (hmore : left ≠ 0) (hrun : (s.channel c).state = .running)
    (he : s.alloc.find d.extent = some e)
    (hrest : (s.channel c).sendingFill = none ∧ (∃ p, (s.channel c).buffer = p :: rest) ∨
      (∃ n, (s.channel c).sendingFill = some n) ∧ (s.channel c).buffer = rest) :
    ∃ t : State, exec (.frameSent .desk) s = .next t.settle ∧ (t.channel c).terminal = left ∧
      ((∃ n, (s.channel c).sendingFill = some n) → (t.channel c).sendingFill = none) ∧ s.ReadsOn c d e rest t ∧
      t.table.find d.handle = some counted ∧ (∀ h, h ≠ d.handle → t.table.find h = s.table.find h) ∧
      (∀ b, b ≠ c → t.channel b = s.channel b) ∧ t.store.mem = s.store.mem ∧
      t = { s with store := t.store, mover := t.mover, table := t.table, desk := { s.desk with sending := none } } := by
  let v : State := { s with desk := { s.desk with sending := none } }
  obtain ⟨u, hu, huframe, -, hrecord, hrecords, hothers, hchannel⟩ := State.frameEnd_counted (s := v) (stop := cutOffDeliveries) hw hd hs
  have hexec := exec_frameSent_channel hp hsend
  have hsame : counted.walk = d.walk ∧ counted.imageWidth = d.imageWidth ∧ counted.extent = d.extent := by
    rcases hs with ⟨-, -, p, rest, -, -, rfl⟩ | ⟨-, -, rfl⟩
    · split <;> exact ⟨rfl, rfl, rfl⟩
    · exact ⟨rfl, rfl, rfl⟩
  have hch : u.channel c = { s.channel c with buffer := rest, terminal := left, sendingFill := none } := by
    rcases hchannel with ⟨hnone, p, more, hbuf, hch⟩ | ⟨⟨n, hfill⟩, rfl, hch⟩
    · obtain ⟨-, q, hq⟩ := hrest.resolve_right fun h => by
        obtain ⟨⟨m, hm⟩, -⟩ := h
        exact absurd (hm.symm.trans hnone) (by simp)
      obtain ⟨-, rfl⟩ := List.cons.inj (hbuf.symm.trans hq)
      rw [hch, ← hnone]
      rfl
    · obtain ⟨-, hq⟩ := hrest.resolve_left fun h => absurd (h.1.symm.trans hfill) (by simp)
      rw [hch, ← hq]
      rfl
  have hon : u.deliveryOn c = some counted := (State.deliveryOn_of (h := d.handle) (by rw [hch]; exact hw)).trans hrecord
  have hgoes : u.afterFrame cutOffDeliveries c d = (u.issueRead c).modChannel c (Channel.offerNext d.pacing.isSome) :=
    State.afterFrame_goesOn (by rw [hch]; exact hrun) (by rw [hch]; exact hmore)
  obtain ⟨hreads, hterm, hfill⟩ := State.readsOn (s := s) (d := d) hon hsame (by rw [huframe]; exact he) (by rw [hch]; exact hrun)
    (rest := rest) (by rw [hch]) (by rw [huframe]) (by rw [huframe]) (by rw [hch]; exact ⟨rfl, rfl⟩) (by rw [hch])
  obtain ⟨hframe, hmem, -, -, -, hkept⟩ := State.issueRead_frame c u
  rw [hu, hgoes] at hexec
  refine ⟨_, hexec, ?_, fun _ => ?_, hreads, ?_, fun h hh => ?_, fun b hb => ?_, ?_, ?_⟩
  · rw [hterm, hch]
  · rw [hfill, hch]
  · show (u.issueRead c).table.find d.handle = _
    rw [hframe]; exact hrecord
  · show (u.issueRead c).table.find h = _
    rw [hframe]; exact hrecords h hh
  · exact (State.modChannel_channel_other _ _ _ _ hb).trans ((hkept b hb).trans (hothers b hb))
  · show (u.issueRead c).store.mem = _
    rw [hmem, huframe]
  · have hblocks : ∀ (x : State) (m : Mover), x = { u with store := x.store, mover := x.mover } →
        ({ x with mover := m } : State) = { s with
          store := x.store, mover := m, table := x.table, desk := { s.desk with sending := none } } := by
      intro x m hx
      rw [hx, huframe]
    exact hblocks (u.issueRead c) _ hframe

/-- Settles O10. -/
theorem frameSent : Obligations.FrameSent := by
  unfold Obligations.FrameSent
  refine ⟨fun l s s₁ hp hs hs₁ => ⟨fun hr ht => ?_, fun r hr hlen => ?_, fun h i x ws hl ht hw hb hlen => ?_⟩,
    fun h i x ws s hp ht hw => ⟨fun hb hr => exec_heldTile hp ht hw hb hr, fun hbusy => ?_⟩,
    fun s => ⟨rfl, fun l => ⟨State.transmit_busy, State.transmit_reply, State.transmit_still, fun hs => ?_⟩,
      fun _ hr hc => State.transmit_desk_none hr hc, fun c hs hr hc hbefore => ?_, fun c => Channel.offers_iff⟩,
    fun c s d e hp hsend hw hd hrun he => ⟨fun p rest hfill hbuf hps hterm => ?_, fun n hfill hterm => ?_⟩⟩
  · have hkept : (s₁.link l).held = (s.link l).held ∧ (s₁.link l).replies = (s.link l).replies.tail ∧
        (s₁.link l).sending = none := by
      rw [hs₁, State.setLink_link]
      exact ⟨rfl, rfl, rfl⟩
    obtain ⟨hheld, hreplies, hidle⟩ := hkept
    have hrefusal : s₁.passHeldRefusal l = s₁ := State.passHeldRefusal_none (by rw [hheld]; exact hr)
    have hexec := exec_frameSent_reply hp hs
    rw [show s.replyGone l = s₁ from hs₁.symm, hrefusal] at hexec
    refine ⟨?_, ?_⟩
    · rw [hexec]
      split
      next hl =>
        subst hl
        rw [State.passHeldTile_still fun n i x hx => ?_]
        rw [show s₁.port = s.port by rw [hs₁]; rfl, show s₁.production.replies = s.production.replies.tail from hreplies]
        exact ht n i x rfl (hheld.symm.trans hx)
      next => rfl
    · rw [State.settle_sends_reply hidle, hreplies]
  · have hplace : (s.replyGone l).passHeldRefusal l = s.setLink l { s.link l with
        replies := (s.link l).replies.tail ++ [r], sending := none, held := none } := by
      rw [State.passHeldRefusal_place (s := s.replyGone l) (r := r) (by rw [State.replyGone, State.setLink_link]; exact hr)
        (by rw [State.replyGone, State.setLink_link]; exact hlen), State.replyGone, State.setLink_link]
      cases l <;> rfl
    rw [exec_frameSent_reply hp hs, hplace]
    split
    next hl =>
      subst hl
      rw [State.passHeldTile_still fun n i x hx => absurd (show none = some _ from hx) (by simp)]
    next => rfl
  · subst hl hs₁
    let v : State := s.setLink .production { s.production with replies := s.production.replies.tail, sending := none }
    have hrefusal : v.passHeldRefusal .production = v := State.passHeldRefusal_none fun r hr => by
      rw [show (v.link .production).held = _ from ht] at hr
      cases hr
    rw [exec_frameSent_reply hp hs, if_pos rfl, show s.replyGone .production = v from rfl, hrefusal]
    exact (exec_heldTile (s := v) hp ht hw hb hlen).symm
  · refine State.passHeldTile_still fun n j y hy => ?_
    exact hbusy
  · simp [State.outgoing, hs]
  · have hturn := find_turnOrder (turn := s.deskTurn) (q := fun c => (s.channel c).offers) hc hbefore
    rw [State.transmit_desk_some hs hr hturn]
    refine ⟨_, rfl, fun b hb => State.modChannel_channel_other s c b _ hb, rfl, fun p rest hbuf hps => ?_, fun f n hhead hf hn => ?_⟩
    · exact (State.modChannel_channel s c _).trans (Channel.taken_tile hbuf hps)
    · exact (State.modChannel_channel s c _).trans (Channel.taken_fill hhead hf hn)
  · obtain ⟨t, hexec, hleft, -, hreads, hrecord, hrecords, hothers, hmem, hframe⟩ := exec_frameSent_goesOn hp hsend hw hd
      (.inl ⟨hfill, rfl, p, rest, hbuf, hps, rfl⟩) (by omega) hrun he (.inl ⟨hfill, p, hbuf⟩)
    exact ⟨t, hexec, hleft, hreads, hrecord, hrecords, hothers, hmem, hframe⟩
  · obtain ⟨t, hexec, hleft, hnone, hreads, hrecord, hrecords, hothers, hmem, hframe⟩ := exec_frameSent_goesOn hp hsend hw hd
      (.inr ⟨⟨n, hfill⟩, rfl, rfl⟩) (by omega) hrun he (.inr ⟨⟨n, hfill⟩, rfl⟩)
    exact ⟨t, hexec, hleft, hnone ⟨n, hfill⟩, hreads, hrecord, hrecords, hothers, hmem, hframe⟩

end Sys2Proof.Machine
end

