-- ==== Sys2Proof/Proofs/ReadsAccepted.lean ====
section
/-! PROOF. Reads that are accepted (chapter 6, R86, R87, R90, R100 to R109). -/

namespace Sys2Proof.Machine

variable {s s₁ t : State} {c : Fin 4} {d : Delivery} {r : Read} {fs : Fields}

/-! ## The checks of a read (R100, R102 to R105) -/

theorem DeliveryTable.nextHandle_free {tb : DeliveryTable} (h : tb.records.length < 8) :
    tb.find (nextFree 255 tb.handleInUse 9 tb.lastHandle) = none := by
  have hfree := (nextFree_spec 255 tb.handleInUse (tb.records.map (·.handle)) (fun v hv => ?_) 9 tb.lastHandle (by simp; omega)
    (by decide)).1
  · refine List.find?_eq_none.mpr fun x hx => ?_
    have hnone := List.any_eq_false.mp hfree x hx
    simpa using hnone
  · obtain ⟨x, hx, hv⟩ := List.any_eq_true.mp hv
    exact List.mem_map.mpr ⟨x, hx, by simpa using hv⟩

theorem State.deliveryRoom_free (h : s.table.records.length < 8) (r : Read) : s.deliveryRoom r = .ok r :=
  if_neg (Nat.not_le.mpr h)

/-- A desk view that passes its checks. -/
theorem State.readWith_view {i : Nat} {wanted : Wanted} {viewInRange : Bool} {rt : ReadTarget} {region : Region}
    (hlen : s.table.records.length < 8) (hmode : ∀ m, fs.nat (i + 6) = some m → m ≤ 1) (hfixed : r.fixed = decide (fs.nat (i + 6) = some 1))
    (ho : fs.nat (i + 7) = none) (hn : fs.nat (i + 8) = none) (hview : viewInRange = true) (hwalk : fs.walkInRange (i + 1) = true)
    (hchoose : rt.choose wanted = some (r.rendition, r.extent)) (hclip : clipRegion rt.width rt.height (fs.region (i + 1)) = some (region, r.clipped))
    (htarget : r.target = rt.target) (hwidth : r.imageWidth = rt.width) (hr : r.walk = fs.walk (i + 1) region)
    (horder : r.order = none) (hrepeated : r.repeated = false) :
    readWith fs i wanted viewInRange (.ok rt) s = s.acceptRead r := by
  have hrange : fs.inRange (i + 6) 0 1 = true := Fields.inRange_iff.mpr fun m hm => ⟨Nat.zero_le _, hmode m hm⟩
  have hread : s.checkView rt wanted (fs.region (i + 1)) (fs.walk (i + 1)) (decide (fs.nat (i + 6) = some 1)) = .ok r := by
    unfold State.checkView
    simp only [hchoose, hclip]
    rw [State.deliveryRoom_free hlen, ← hfixed, ← htarget, ← hwidth, ← hr, ← horder, ← hrepeated]
  unfold readWith
  simp only [ho, hn, pairGiven, hrange, hview, hwalk, hread]
  rfl

/-- A fulfilment read that passes its checks. -/
theorem State.readWith_item {i : Nat} {wanted : Wanted} {viewInRange : Bool} {rt : ReadTarget} {order n : Nat} {o : Order} {it : Item}
    (hlen : s.table.records.length < 8) (hmode : ∀ m, fs.nat (i + 6) = some m → m ≤ 1) (hfixed : r.fixed = decide (fs.nat (i + 6) = some 1))
    (ho : fs.nat (i + 7) = some order) (hn : fs.nat (i + 8) = some n) (h1 : 1 ≤ order) (h2 : 1 ≤ n) (h3 : n ≤ 16)
    (hord : s.book.order order = some o) (hopen : o.state = .opened) (hit : o.item n = some it) (htarget : it.target = rt.target)
    (hstate : it.state = .ready ∨ it.state = .delivered) (hcut : ∀ a, s.book.account o.account = some a → a.status ≠ .cutOff)
    (hset : (s.meter.tariff (s.cat.classOf rt.target)).set = true)
    (hchoose : rt.choose (.ofFinish it.finish) = some (r.rendition, r.extent)) (ht : r.target = rt.target) (hwidth : r.imageWidth = rt.width)
    (hwalk : r.walk = it.walk) (hclip : r.clipped = false) (horder : r.order = some (order, n))
    (hrepeated : r.repeated = decide (it.state = .delivered)) : readWith fs i wanted viewInRange (.ok rt) s = s.acceptRead r := by
  have hrange : fs.inRange (i + 6) 0 1 = true := Fields.inRange_iff.mpr fun m hm => ⟨Nat.zero_le _, hmode m hm⟩
  have hfree : s.book.isCutOff o.account = false := by
    unfold OrderBook.isCutOff
    cases ha : s.book.account o.account with
    | none => rfl
    | some a => simpa using hcut a ha
  have hitem : s.checkFulfilment rt.target order n = .ok it := by
    unfold State.checkFulfilment
    simp only [hord, hopen, hit, htarget, hfree, hset]
    rcases hstate with h | h <;> simp [h]
  have hread : s.checkItemRead rt order n (decide (fs.nat (i + 6) = some 1)) = .ok r := by
    unfold State.checkItemRead
    simp only [hitem, hchoose]
    rw [State.deliveryRoom_free hlen, ← hfixed, ← ht, ← hwidth, ← hwalk, ← hclip, ← horder, ← hrepeated]
  unfold readWith
  simp only [ho, hn, pairGiven, h1, h2, h3, and_self, if_true, hrange, hread]
  rfl

/-! ## Acceptance (R109) -/

/-- A read is accepted: its delivery `d` has a record, a reader, its item and a place at the end of the queue. -/
def State.accepted (r : Read) (d : Delivery) (s : State) : State :=
  { s with
    table := { s.table with records := s.table.records ++ [d], lastHandle := d.handle }
    alloc := s.alloc.takeReader r.extent
    book := (s.itemInDelivery r.order).book
    mover := { s.mover with queue := s.mover.queue ++ [d.handle] } }

theorem State.acceptRead_eq (r : Read) (s : State) (hd : d = s.newDelivery r (nextFree 255 s.table.handleInUse 9 s.table.lastHandle)) :
    s.acceptRead r = (r.answer d.handle, (s.accepted r d).handout) := by
  subst hd
  unfold State.acceptRead State.accepted State.itemInDelivery
  cases r.order <;> rfl

theorem State.accepted_find (h : s.table.find d.handle = none) : (s.accepted r d).table.find d.handle = some d ∧
    ∀ n x, s.table.find n = some x → (s.accepted r d).table.find n = some x := by
  refine ⟨?_, fun n x hx => ?_⟩
  · show (s.table.records ++ [d]).find? _ = _
    rw [List.find?_append, show s.table.records.find? _ = none from h]
    simp
  · show (s.table.records ++ [d]).find? _ = _
    rw [List.find?_append, show s.table.records.find? _ = some x from hx]
    rfl

theorem State.itemInDelivery_item {order n : Nat} {it : Item} {o : Order} (hi : s.book.item order n = some it)
    (ho : s.book.order order = some o) :
    (s.itemInDelivery (some (order, n))).book.item order n = some { it with state := .inDelivery } ∧
    ((s.itemInDelivery (some (order, n))).book.order order).map (·.inFlight) = some (o.inFlight + 1) ∧
    (s.itemInDelivery (some (order, n))).book.accounts = s.book.accounts := by
  let b := s.book.modItem order n fun i => { i with state := .inDelivery }
  have horder : b.order order = some (o.modItem n fun i => { i with state := .inDelivery }) := by
    refine (OrderBook.order_modOrder_same _ _ _ (by intro _; rfl)).trans ?_
    rw [ho]; rfl
  have hcounted : (b.modOrder order fun o => { o with inFlight := o.inFlight + 1 }).order order =
      some { o.modItem n (fun i => { i with state := .inDelivery }) with inFlight := o.inFlight + 1 } := by
    rw [OrderBook.order_modOrder_same _ _ _ (by intro _; rfl), horder]
    rfl
  have hitem : b.item order n = some { it with state := .inDelivery } := by
    refine (OrderBook.item_modItem_same _ _ _ _ (by intro _; rfl)).trans ?_
    rw [hi]; rfl
  refine ⟨?_, ?_, rfl⟩
  · rw [← hitem]
    show (b.modOrder order _).item order n = _
    rw [OrderBook.item, OrderBook.item, hcounted, horder]
    rfl
  · show ((b.modOrder order _).order order).map _ = _
    rw [hcounted]
    rfl

/-! ## The handout that follows (R86, R87, R90) -/

theorem State.startable_moves (h : s.QueueMoves) : s.startable = none := by
  refine List.findSome?_eq_none_iff.mpr fun n hn => ?_
  obtain ⟨d, x, hd, hx, hm⟩ := h n hn
  simp [hd, Allocator.isMoving, hx, hm]

theorem State.issueRead_rest_mover (c : Fin 4) (s : State) :
    (s.issueRead c).mover = { s.mover with channels := (s.issueRead c).mover.channels } := by
  unfold State.issueRead
  dsimp only
  split
  · rfl
  · split
    · split <;> rfl
    · rfl

theorem State.startDelivery_mover (c : Fin 4) (d : Delivery) (s : State) :
    (s.startDelivery c d).mover.queue = s.mover.queue.filter (· ≠ d.handle) ∧
    (s.startDelivery c d).mover.copyRequest = s.mover.copyRequest := by
  unfold State.startDelivery
  dsimp only
  rw [State.issueRead_rest_mover]
  split <;> exact ⟨rfl, rfl⟩

theorem State.handoutLoop_alloc (hr : s.mover.copyRequest = false) (fuel : Nat) : (s.handoutLoop fuel).alloc = s.alloc := by
  induction fuel generalizing s with
  | zero => rfl
  | succ fuel ih =>
    rw [State.handoutLoop]
    split
    · rfl
    next b hb =>
      split
      next d hd =>
        rw [ih ((State.startDelivery_mover b d s).2.trans hr)]
        exact (State.startDelivery_within b d).alloc (by decide)
      next =>
        rw [hr]
        rfl

/-- A channel that has just been handed a delivery and reads the tile `j`, the first of its walk. -/
def Channel.starting (d : Delivery) (now j : Nat) : Channel :=
  { state := .running, work := some (.delivery d.handle), terminal := d.walk.count, started := now, period := 1
    buffer := [{ state := .reading, index := j }]
    line := (d.walk.advance 0 0).1, place := (d.walk.advance 0 0).2 }

/-- A delivery that a channel is handed reads the first tile of its walk. -/
theorem State.startDelivery_reads {e : Extent} {j : Nat} (hd : s.table.find d.handle = some d) (he : s.alloc.find d.extent = some e)
    (hj : d.walk.tileAt d.imageWidth 0 0 = some j) (hout : s.store.outstanding (.channel c) = false) :
    s.startDelivery c d = { s with
      table := s.table.modify d.handle fun d => { d with state := .running, channel := some c }
      mover := { s.mover with
        queue := s.mover.queue.filter (· ≠ d.handle), channels := s.mover.channels.set c (Channel.starting d s.now j) }
      store := ({ s.store with fixedCount := if d.pacing.isSome then s.store.fixedCount + 1 else s.store.fixedCount } : Store).ask
        s.now ⟨.channel c, e.first + j, .read⟩ } := by
  let ch : Channel :=
    { state := .running, work := some (.delivery d.handle), terminal := d.walk.count, started := s.now, period := 1 }
  let v := ((s.modMover fun m => { m with queue := m.queue.filter (· ≠ d.handle) }).modChannel c fun _ => ch).modTable
    (·.modify d.handle fun d => { d with state := .running, channel := some c })
  let w : State := { v with store := { s.store with
    fixedCount := if d.pacing.isSome then s.store.fixedCount + 1 else s.store.fixedCount } }
  have hw : s.startDelivery c d = w.issueRead c := by
    have hstore : (if d.pacing.isSome then v.modStore fun st => { st with fixedCount := st.fixedCount + 1 } else v) = w := by
      show _ = ({ v with store := { s.store with
        fixedCount := if d.pacing.isSome then s.store.fixedCount + 1 else s.store.fixedCount } } : State)
      cases d.pacing.isSome <;> rfl
    exact congrArg (State.issueRead c) hstore
  have hch : w.channel c = ch := Four.get_set_same _ _ _
  have hon : w.deliveryOn c = some { d with state := .running, channel := some c } := by
    rw [State.deliveryOn_of (h := d.handle) (by rw [hch])]
    refine (DeliveryTable.find_modify_same _ _ _ (by intro _; rfl)).trans ?_
    show (s.table.find d.handle).map _ = _
    rw [hd]; rfl
  have hnext := State.issueRead_next (s := w) (c := c) (i := j) hon he (by rw [hch]; exact hj) (by rw [hch]) hout
    (by rw [hch]; exact Nat.zero_lt_succ 3)
  have hset : (w.modChannel c fun ch => { ch with
      buffer := ch.buffer ++ [{ state := .reading, index := j }]
      line := (d.walk.advance ch.line ch.place).1, place := (d.walk.advance ch.line ch.place).2 }).mover =
      { s.mover with queue := s.mover.queue.filter (· ≠ d.handle), channels := s.mover.channels.set c (Channel.starting d s.now j) } := by
    show ({ s.mover with
      queue := s.mover.queue.filter (· ≠ d.handle), channels := (s.mover.channels.set c ch).set c _ } : Mover) = _
    rw [Four.set_set, show w.mover.channels.get c = ch from hch]
    rfl
  rw [hw, hnext]
  exact congrArg (fun m : Mover => ({ w with mover := m, store := w.store.ask s.now ⟨.channel c, e.first + j, .read⟩ } : State)) hset

/-! ## The rendition and the target of a read (R101, R104) -/

theorem State.pageTarget_found {ed pg : Nat} {rev : Option Nat} {name : RevName} {v : Revision}
    (h : s.cat.resolve ed pg rev = .ok (name, v)) :
    s.pageTarget ed pg rev = .ok ⟨.page name, v.width, v.height, v.raw, v.restored.map (·.extent)⟩ := by
  rw [State.pageTarget, h]
theorem State.photoTarget_found {id : Nat} {p : Photo} (h : s.cat.photo id = some p) (hs : p.state = .complete) :
    s.photoTarget id = .ok ⟨.photo id, p.width, p.height, p.extent, none⟩ := by
  simp [State.photoTarget, Catalogue.resolvePhoto, h, hs]

/-- The rendition of a desk view of a page. -/
theorem ReadTarget.choose_view {rt : ReadTarget} {v : Revision} {n : Option Nat} {rendition : Rendition} {extent : Nat}
    (hraw : rt.raw = v.raw) (hrestored : rt.restored = v.restored.map (·.extent)) (h : (n = some 0 ∨ (n ≠ some 1 ∧ v.restored = none)) ∧ rendition = .raw ∧ extent = v.raw ∨
      ∃ x, n ≠ some 0 ∧ v.restored = some x ∧ rendition = .restored ∧ extent = x.extent) :
    rt.choose (.ofField n) = some (rendition, extent) := by
  rcases h with ⟨hn, rfl, rfl⟩ | ⟨x, hn, hx, rfl, rfl⟩
  · rcases hn with rfl | ⟨hn, hnone⟩
    · simp [Wanted.ofField, ReadTarget.choose, hraw]
    · unfold Wanted.ofField
      split
      · simp [ReadTarget.choose, hraw]
      · exact absurd rfl hn
      · simp [ReadTarget.choose, hraw, hrestored, hnone]
  · unfold Wanted.ofField
    split
    · exact absurd rfl hn
    · simp [ReadTarget.choose, hrestored, hx]
    · simp [ReadTarget.choose, hrestored, hx]

/-! ## An accepted read waits or starts (R86, R87, R90) -/

theorem State.accepted_alloc (h : s.mover.copyRequest = false ∨ ∀ c, (s.channel c).state ≠ .idle) :
    (s.accepted r d).handout.alloc = s.alloc.takeReader r.extent := by
  rcases h with hcopy | hbusy
  · exact State.handoutLoop_alloc (s := s.accepted r d) hcopy _
  · rw [State.handout_busy (State.idleChannel_none (s := s.accepted r d) hbusy)]
    rfl

theorem Allocator.takeReader_find {a : Allocator} {n : Nat} {e : Extent} (he : a.find n = some e) :
    (a.takeReader n).find n = some { e with readers := e.readers + 1 } ∧ ∀ m, m ≠ n → (a.takeReader n).find m = a.find m := by
  obtain ⟨-, hsame, hother⟩ := Allocator.modExtent_rewritten (f := fun e => { e with readers := e.readers + 1 }) he (by intro _; rfl)
  exact ⟨hsame, hother⟩

/-- A reader more leaves an extent in its state. -/
theorem Allocator.takeReader_state {a : Allocator} {n m : Nat} {e : Extent} (he : a.find m = some e) :
    ∃ x, (a.takeReader n).find m = some x ∧ x.state = e.state := by
  by_cases h : m = n
  · subst h
    exact ⟨_, (Allocator.takeReader_find he).1, rfl⟩
  · exact ⟨e, (Allocator.find_modExtent_other _ _ _ _ (by intro _; rfl) h).trans he, rfl⟩

/-- The deliveries that waited before still wait for a move. -/
theorem State.accepted_moves (hfree : s.table.find d.handle = none) (hq : s.QueueMoves) {n : Nat} (hn : n ∈ s.mover.queue) :
    ∃ y x, (s.accepted r d).table.find n = some y ∧ (s.accepted r d).alloc.find y.extent = some x ∧ x.state = .moving := by
  obtain ⟨y, x, hy, hx, hm⟩ := hq n hn
  obtain ⟨z, hz, hzs⟩ := Allocator.takeReader_state (n := r.extent) hx
  exact ⟨y, z, (State.accepted_find hfree).2 n y hy, hz, hzs.trans hm⟩

theorem State.accepted_waits (hfree : s.table.find d.handle = none) (hext : d.extent = r.extent)
    (h : (∀ c, (s.channel c).state ≠ .idle) ∨ (∃ e, s.alloc.find r.extent = some e ∧ e.state = .moving) ∧ s.QueueMoves ∧
      s.mover.copyRequest = false) : (s.accepted r d).handout = s.accepted r d := by
  rcases h with hbusy | ⟨⟨e, he, hm⟩, hq, hcopy⟩
  · exact State.handout_busy (State.idleChannel_none (s := s.accepted r d) hbusy)
  · refine State.handout_rest (State.startable_moves fun n hn => ?_) hcopy
    rcases List.mem_append.mp hn with hn | hn
    · exact State.accepted_moves hfree hq hn
    · obtain rfl := List.mem_singleton.mp hn
      exact ⟨d, { e with readers := e.readers + 1 }, (State.accepted_find hfree).1, by rw [hext]; exact (Allocator.takeReader_find he).1, hm⟩

/-- The last delivery of the queue is the one that can start. -/
theorem State.startable_last {q : List Nat} {n : Nat} {e : Extent} (hq : s.mover.queue = q ++ [n])
    (hmoves : ∀ m ∈ q, ∃ y x, s.table.find m = some y ∧ s.alloc.find y.extent = some x ∧ x.state = .moving)
    (hd : s.table.find n = some d) (he : s.alloc.find d.extent = some e) (hm : e.state ≠ .moving) : s.startable = some d := by
  unfold State.startable
  rw [hq, List.findSome?_append, List.findSome?_eq_none_iff.mpr fun m hmem => ?_]
  · simp [hd, Allocator.isMoving, he, hm]
  · obtain ⟨y, x, hy, hx, hmov⟩ := hmoves m hmem
    simp [hy, Allocator.isMoving, hx, hmov]

/-- The accepted delivery is handed the lowest IDLE channel. -/
theorem State.accepted_starts {e : Extent} {j : Nat} (hfree : s.table.find d.handle = none) (hext : d.extent = r.extent)
    (hc : (s.channel c).state = .idle) (hbefore : ∀ b, b < c → (s.channel b).state ≠ .idle) (he : s.alloc.find r.extent = some e)
    (hm : e.state ≠ .moving) (hq : s.QueueMoves) (hcopy : s.mover.copyRequest = false)
    (hj : d.walk.tileAt d.imageWidth 0 0 = some j) (hout : s.store.outstanding (.channel c) = false) :
    (s.accepted r d).handout = { s with
      table := { s.table with records := s.table.records ++ [{ d with state := .running, channel := some c }], lastHandle := d.handle }
      alloc := s.alloc.takeReader r.extent, book := (s.itemInDelivery r.order).book
      mover := { s.mover with channels := s.mover.channels.set c (Channel.starting d s.now j) }
      store := ({ s.store with fixedCount := if d.pacing.isSome then s.store.fixedCount + 1 else s.store.fixedCount } : Store).ask
        s.now ⟨.channel c, e.first + j, .read⟩ } := by
  let w := s.accepted r d
  obtain ⟨hfound, hkept⟩ := State.accepted_find (r := r) hfree
  have hextent : w.alloc.find d.extent = some { e with readers := e.readers + 1 } := by
    rw [hext]; exact (Allocator.takeReader_find he).1
  have hstartable : w.startable = some d :=
    State.startable_last (s := w) rfl (fun n hn => State.accepted_moves hfree hq hn) hfound hextent hm
  have hstart := State.startDelivery_reads (s := w) (c := c) hfound hextent hj hout
  have hloop : w.handout = (w.startDelivery c d).handoutLoop (w.mover.queue.length + 1) := by
    unfold State.handout
    rw [State.handoutLoop, State.idleChannel_some (s := w) hc hbefore]
    simp only [hstartable]
  have hfresh : d.handle ∉ s.mover.queue := fun hmem => by
    obtain ⟨y, x, hy, -⟩ := hq _ hmem
    exact absurd (hfree.symm.trans hy) (by simp)
  have hqueue : w.mover.queue.filter (· ≠ d.handle) = s.mover.queue := by
    show (s.mover.queue ++ [d.handle]).filter _ = _
    rw [List.filter_append, List.filter_eq_self.mpr fun n hn => by simpa using fun he : n = d.handle => hfresh (he ▸ hn)]
    simp
  have hrecords : w.table.modify d.handle (fun d => { d with state := .running, channel := some c }) =
      { s.table with records := s.table.records ++ [{ d with state := .running, channel := some c }], lastHandle := d.handle } := by
    have hold : modifyWhere (·.handle = d.handle) (fun d => { d with state := .running, channel := some c }) s.table.records =
        s.table.records := by
      refine (List.map_congr_left fun x hx => ?_).trans (List.map_id _)
      exact if_neg (List.find?_eq_none.mp hfree x hx)
    have hnew : modifyWhere (·.handle = d.handle) (fun d => { d with state := .running, channel := some c })
        (s.table.records ++ [d]) = s.table.records ++ [{ d with state := .running, channel := some c }] := by
      rw [modifyWhere, List.map_append, ← modifyWhere, hold]
      simp
    exact congrArg (fun records => ({ s.table with records, lastHandle := d.handle } : DeliveryTable)) hnew
  rw [hqueue, hrecords] at hstart
  have hrest : (w.startDelivery c d).handoutLoop (w.mover.queue.length + 1) = w.startDelivery c d := by
    refine State.handoutLoop_rest (State.startable_moves fun n hn => ?_) ((State.startDelivery_mover c d w).2.trans hcopy) _
    rw [hstart] at hn ⊢
    obtain ⟨y, x, hy, hx, hmov⟩ := hq n hn
    obtain ⟨z, hz, hzs⟩ := Allocator.takeReader_state (n := r.extent) hx
    refine ⟨y, z, ?_, hz, hzs.trans hmov⟩
    show (s.table.records ++ [_]).find? _ = _
    rw [List.find?_append, show s.table.records.find? _ = some y from hy]
    rfl
  rw [hloop, hrest, hstart]
  rfl

/-- Settles O43. -/
theorem readAccepted : Obligations.ReadAccepted := by
  unfold Obligations.ReadAccepted
  refine ⟨fun tag ps fs id w s s₁ ht hid hw hne => ?_, fun tag ps fs h base i r s s₁ d hh hlen hfixed hmode hd hchecks => ?_⟩
  · exact exec_takenWide (.readPhoto .desk tag ps) rfl rfl rfl ht
      (by simp [bodyOfCommand, readPhotoBody, hid, required, Fields.inRange, hw, hne]; rfl)
  · have hfree : s.table.find h = none := hh ▸ DeliveryTable.nextHandle_free hlen
    have hhandle : d.handle = h := by rw [hd]
    have haccept : (∃ q layout, Taken .desk q layout fs s s₁) ∧
        exec i s = .next (((s₁.acceptRead r).2.reply .desk tag (s₁.acceptRead r).1).settle) := by
      rcases hchecks with ⟨ed, pg, name, v, region, rfl, rfl, ht, h0, h1, hname, hv, ho, hn, hren, hwalk, hclip, htarget, hwidth,
          hr, horder, hrep, hrendition⟩ |
        ⟨id, p, region, rfl, rfl, ht, h0, hid, hphoto, hstate, ho, hn, hren, hwalk, hclip, htarget, hwidth, hr, horder, hrep,
          hrendition, hextent⟩ |
        ⟨ed, pg, name, v, order, n, o, it, rfl, rfl, ht, h0, h1, hname, hv, ho, hn, ho1, hn1, hn16, hord, hopen, hit, hittarget,
          hitstate, hcut, hset, htarget, hwidth, hr, hclip, horder, hrep, hrendition, hextent⟩ |
        ⟨id, p, order, n, o, it, rfl, rfl, ht, h0, hid, hphoto, hstate, hren, ho, hn, ho1, hn1, hn16, hord, hopen, hit, hittarget,
          hitstate, hcut, hset, htarget, hwidth, hr, hclip, horder, hrep, hfinish, hrendition, hextent⟩
      all_goals
        have hlen₁ : s₁.table.records.length < 8 := by rw [ht.table]; exact hlen
        refine ⟨⟨_, _, ht⟩, ?_⟩
      · have htarget₁ := State.pageTarget_found (s := s₁) (by rw [ht.cat]; exact hv)
        refine exec_takenWide (.readPage .desk tag ps) rfl rfl rfl ht ?_
        show readPageBody fs s₁ = _
        simp only [readPageBody, h0, h1, required, hname, if_true, htarget₁]
        exact State.readWith_view hlen₁ hmode hfixed ho hn hren hwalk (ReadTarget.choose_view rfl rfl hrendition) hclip htarget
          hwidth hr horder hrep
      · have htarget₁ := State.photoTarget_found (s := s₁) (by rw [ht.cat]; exact hphoto) hstate
        refine exec_takenWide (.readPhoto .desk tag ps) rfl rfl rfl ht ?_
        show readPhotoBody fs s₁ = _
        simp only [readPhotoBody, h0, required, hid, hren, and_self, if_true, htarget₁]
        exact State.readWith_view hlen₁ hmode hfixed ho hn rfl hwalk (by rw [hrendition, hextent]; rfl) hclip htarget hwidth hr
          horder hrep
      · have htarget₁ := State.pageTarget_found (s := s₁) (by rw [ht.cat]; exact hv)
        refine exec_takenWide (.readPage .desk tag ps) rfl rfl rfl ht ?_
        show readPageBody fs s₁ = _
        simp only [readPageBody, h0, h1, required, hname, if_true, htarget₁]
        refine State.readWith_item hlen₁ hmode hfixed ho hn ho1 hn1 hn16 (by rw [ht.book]; exact hord) hopen hit hittarget hitstate
          (by rw [ht.book]; exact hcut) (by rw [ht.meter, ht.cat]; exact hset) ?_ htarget hwidth hr hclip horder hrep
        rcases hextent with ⟨hraw, hx⟩ | ⟨x, hres, hvr, hx⟩
        · rw [hrendition, hraw, hx]; rfl
        · rw [hrendition, hres, hx]
          simp [ReadTarget.choose, Wanted.ofFinish, hvr]
      · have htarget₁ := State.photoTarget_found (s := s₁) (by rw [ht.cat]; exact hphoto) hstate
        refine exec_takenWide (.readPhoto .desk tag ps) rfl rfl rfl ht ?_
        show readPhotoBody fs s₁ = _
        simp only [readPhotoBody, h0, required, hid, hren, and_self, if_true, htarget₁]
        exact State.readWith_item hlen₁ hmode hfixed ho hn ho1 hn1 hn16 (by rw [ht.book]; exact hord) hopen hit hittarget hitstate
          (by rw [ht.book]; exact hcut) (by rw [ht.meter, ht.cat]; exact hset) (by rw [hrendition, hextent, hfinish]; rfl) htarget
          hwidth hr hclip horder hrep
    obtain ⟨⟨q, layout, ht⟩, hexec⟩ := haccept
    obtain ⟨-, -, k, -, -, rfl⟩ := ht
    let v : State := s.setLink .desk k.take
    have hmade : d = v.newDelivery r (nextFree 255 v.table.handleInUse 9 v.table.lastHandle) := by
      rw [hd, hh]
      rfl
    rw [State.acceptRead_eq r v hmade, hhandle] at hexec
    have hext : d.extent = r.extent := by rw [hd]
    have hfree' : v.table.find d.handle = none := by rw [hhandle]; exact hfree
    obtain ⟨hfound, hkept⟩ := State.accepted_find (r := r) hfree'
    have hout := State.handout_handsOut (v.accepted r d)
    let t := (v.accepted r d).handout
    have hbook : t.book = (v.itemInDelivery r.order).book := by
      show (v.accepted r d).handout.book = _
      rw [hout.frame]; rfl
    refine ⟨hfree, t, hexec, ?_, fun other _ hx => ?_, ?_, ?_, ?_, ?_, ?_, fun hnone => ?_, fun o n it x ho hi hx => ?_, fun hcase => ?_,
      fun hcase => ?_, fun c e j hc hbefore he hm hq hcopy hj hidle => ?_⟩
    · obtain ⟨y, hy, hyd⟩ := hout.kept _ _ hfound
      refine ⟨y, hhandle ▸ hy, ?_⟩
      rcases hyd with rfl | ⟨c, rfl⟩
      · exact ⟨rfl, .inl (by rw [hd])⟩
      · exact ⟨rfl, .inr rfl⟩
    · obtain ⟨x, hx⟩ := hx
      obtain ⟨y, hy, -⟩ := hout.kept other x (hkept other x hx)
      exact ⟨y, hy⟩
    · show (v.accepted r d).handout.cat = _
      rw [hout.frame]; rfl
    · show (v.accepted r d).handout.meter = _
      rw [hout.frame]; rfl
    · show (v.accepted r d).handout.engine = _
      rw [hout.frame]; rfl
    · show (v.accepted r d).handout.port = _
      rw [hout.frame]; rfl
    · exact hout.mem
    · rw [hbook, hnone]; rfl
    · rw [hbook, ho]
      exact State.itemInDelivery_item (s := v) hi hx
    · have halloc : t.alloc = s.alloc.takeReader r.extent := State.accepted_alloc (s := v) hcase
      rw [halloc]
      exact ⟨rfl, fun e he => (Allocator.takeReader_find he).1, fun m hm =>
        Allocator.find_modExtent_other _ _ _ _ (by intro _; rfl) hm⟩
    · have hwaits : t = v.accepted r d := State.accepted_waits hfree' hext hcase
      rw [hwaits, ← hhandle]
      rfl
    · have hstarts : t = _ := State.accepted_starts (s := v) (c := c) hfree' hext hc hbefore he hm hq hcopy (by rw [hd]; exact hj) hidle
      have hpace : d.pacing.isSome = r.fixed := by
        rw [hd]
        cases r.fixed <;> rfl
      have hwalk : d.walk = r.walk := by rw [hd]
      rw [hpace] at hstarts
      rw [hstarts, ← hwalk, ← hhandle]
      exact ⟨rfl, Four.get_set_same _ _ _, fun b hb => Four.get_set_other _ _ _ _ hb⟩

end Sys2Proof.Machine
end

