-- ==== Sys2Proof/Proofs/Jobs.lean ====
section
/-! PROOF. The jobs of the restoration engine: requests, starts and cancels (chapter 7, R122 to R127, R130, R131). -/

namespace Sys2Proof.Machine

variable {s t : State} {name : RevName} {v : Revision} {source : ToneSource} {who : Option (Nat × Nat)} {j : Job}

/-! ## A request for a job (R123, R124) -/

theorem State.requestJob_restored (h : v.restored.map (·.source) = some source) :
    s.requestJob who name v source = (.alreadyRestored, s) := if_pos h

theorem State.requestJob_overflow (h : v.restored.map (·.source) ≠ some source) (ho : v.damage.overflow = true) :
    s.requestJob who name v source = (.refused .notRestorable, s) := (if_neg h).trans (if_pos ho)

/-- Nothing but a job in the queue, or a full queue, is in the way of the request. -/
theorem State.requestJob_queue (h : v.restored.map (·.source) ≠ some source) (ho : v.damage.overflow = false) :
    s.requestJob who name v source =
      match s.engine.queue.find? fun j => j.revision = name && j.source = source with
      | some j =>
        if who.isSome && 4 ≤ j.requesters.length then (.refused .jobFull, s)
        else (.joined j.id, s.modEngine (·.modJob j.id (Job.join who)))
      | none =>
        if 16 ≤ s.engine.queue.length then (.refused .queueFull, s)
        else (.appended (nextFree 255 s.engine.idInUse 25 s.engine.lastId), s.modEngine fun g => { g with
          queue := g.queue ++ [Job.fresh (nextFree 255 s.engine.idInUse 25 s.engine.lastId) name source who]
          lastId := nextFree 255 s.engine.idInUse 25 s.engine.lastId }) :=
  (if_neg h).trans (if_neg (by simp [ho]))

theorem State.requestJob_full (h : v.restored.map (·.source) ≠ some source) (ho : v.damage.overflow = false)
    (hj : s.engine.queue.find? (fun j => j.revision = name && j.source = source) = some j) (hw : who.isSome = true)
    (hf : 4 ≤ j.requesters.length) : s.requestJob who name v source = (.refused .jobFull, s) := by
  rw [State.requestJob_queue h ho, hj]
  exact if_pos (by simp [hw, hf])

theorem State.requestJob_joined (h : v.restored.map (·.source) ≠ some source) (ho : v.damage.overflow = false)
    (hj : s.engine.queue.find? (fun j => j.revision = name && j.source = source) = some j)
    (hf : who = none ∨ j.requesters.length < 4) :
    s.requestJob who name v source = (.joined j.id, s.modEngine (·.modJob j.id (Job.join who))) := by
  rw [State.requestJob_queue h ho, hj]
  refine if_neg ?_
  rcases hf with rfl | hf
  · simp
  · simp [hf]

/-- No job of the queue makes this rendition. -/
theorem Engine.find_none_of (h : ∀ j ∈ s.engine.queue, j.revision = name → j.source ≠ source) :
    s.engine.queue.find? (fun j => j.revision = name && j.source = source) = none := by
  simpa using h

theorem State.requestJob_queueFull (h : v.restored.map (·.source) ≠ some source) (ho : v.damage.overflow = false)
    (hn : ∀ j ∈ s.engine.queue, j.revision = name → j.source ≠ source) (hf : 16 ≤ s.engine.queue.length) :
    s.requestJob who name v source = (.refused .queueFull, s) := by
  rw [State.requestJob_queue h ho, Engine.find_none_of hn]
  exact if_pos hf

/-- The state with a QUEUED job appended (R123). -/
def State.appendJob (id : Nat) (name : RevName) (source : ToneSource) (who : Option (Nat × Nat)) (s : State) : State :=
  { s with engine := { s.engine with queue := s.engine.queue ++ [Job.fresh id name source who], lastId := id } }

theorem State.requestJob_appended {id : Nat} (h : v.restored.map (·.source) ≠ some source) (ho : v.damage.overflow = false)
    (hn : ∀ j ∈ s.engine.queue, j.revision = name → j.source ≠ source) (hf : s.engine.queue.length < 16)
    (hid : id = nextFree 255 s.engine.idInUse 25 s.engine.lastId) :
    s.requestJob who name v source = (.appended id, s.appendJob id name source who) := by
  subst hid
  rw [State.requestJob_queue h ho, Engine.find_none_of hn]
  exact if_neg (by omega)

/-! ## The start of the oldest job (R122, R130) -/

theorem State.startNext_empty (h : s.engine.queue = []) : s.startNext = s := by
  unfold State.startNext
  rw [h]
  simp only [State.startJobs, h]

theorem State.startNext_busy {rest : List Job} (h : s.engine.queue = j :: rest) (hs : j.state ≠ .queued) : s.startNext = s := by
  unfold State.startNext
  rw [h]
  simp only [List.length_cons, State.startJobs, h, if_neg hs]

/-- With the queue holding one QUEUED job, its start is all that happens when it is then no longer QUEUED. -/
theorem State.startNext_one (h : s.engine.queue = [j]) (hs : j.state = .queued)
    (hafter : (s.startJob j).engine.queue = [] ∨ ∃ k, (s.startJob j).engine.queue = [k] ∧ k.state ≠ .queued) :
    s.startNext = s.startJob j := by
  unfold State.startNext
  rw [h]
  rcases hafter with hnone | ⟨k, hone, hk⟩
  · simp only [List.length_cons, List.length_nil, State.startJobs, h, if_pos hs, hnone]
  · simp only [List.length_cons, List.length_nil, State.startJobs, h, if_pos hs, hone, if_neg hk]

theorem State.engineRead_asks {rest : List Job} {e : Extent} (hq : s.engine.queue = j :: rest) (ha : j.active = true)
    (hv : s.cat.revision j.revision = some v) (he : s.alloc.find v.raw = some e) (hm : e.state ≠ .moving)
    (ho : s.store.outstanding .restoration = false) : s.engineRead = s.askRestoration (e.first + j.nextTile) .read := by
  unfold State.engineRead
  simp only [Engine.activeJob, hq, ha, if_true, hv, he, ho, hm, false_or, Bool.false_eq_true, if_false]

/-- A job that finds its place starts with its values captured. -/
theorem State.startJob_placed {first : Nat} (hv : s.cat.revision j.revision = some v) (ho : v.damage.overflow = false)
    (hp : s.alloc.place v.tiles = .ok first) :
    s.startJob j = (({ s with alloc := (s.alloc.occupy first v.tiles (.restored j.revision) .building).2.takeReader v.raw } : State).modEngine
      (·.modJob j.id fun _ => (j.capture s.engine.settings (s.engine.capturedTone j.source)).started s.alloc.freshNumber)).engineRead := by
  unfold State.startJob
  simp only [hv, ho, Bool.false_eq_true, if_false, hp]
  rfl

/-- A new job starts on an empty queue: its scratch extent is BUILDING, a reader stands on the raw extent, and the first raw
tile is asked for. -/
theorem State.startNext_fresh {s₀ : State} {id first : Nat} {e : Extent}
    (hq : s.engine = { s₀.engine with queue := [Job.fresh id name source who], lastId := id }) (ha : s.alloc = s₀.alloc)
    (hst : s.store = s₀.store) (hv : s.cat.revision name = some v) (ho : v.damage.overflow = false)
    (hp : s₀.alloc.place (v.width * v.height) = .ok first) (he : s₀.alloc.find v.raw = some e) (hm : e.state ≠ .moving)
    (hw : s₀.store.outstanding .restoration = false) :
    s.startNext = { s with engine := s.startNext.engine, alloc := s.startNext.alloc, store := s.startNext.store } ∧
      s₀.JobStarted id name source who.isNone who.toList v first e s.startNext := by
  have hqueue : s.engine.queue = [Job.fresh id name source who] := by rw [hq]
  have hfresh : v.raw ≠ s₀.alloc.freshNumber := fun heq => by
    have := s₀.alloc.freshNumber_free
    rw [← heq, he] at this
    simp at this
  let a := (s₀.alloc.occupy first (v.width * v.height) (.restored name) .building).2
  let k := ((Job.fresh id name source who).capture s₀.engine.settings (s₀.engine.capturedTone source)).started s₀.alloc.freshNumber
  let w : State := { s with alloc := a.takeReader v.raw, engine := { s₀.engine with queue := [k], lastId := id } }
  obtain ⟨hnew, hold⟩ := s₀.alloc.find_occupy first (v.width * v.height) (.restored name) .building
  obtain ⟨hraw, hrest⟩ := Allocator.takeReader_find (a := a) ((hold v.raw hfresh).trans he)
  have hmod : Engine.modJob id (fun _ => k) s.engine = { s₀.engine with queue := [k], lastId := id } := by
    rw [hq, Engine.modJob, modifyWhere]
    simp [Job.fresh]
  have hstart : s.startJob (Job.fresh id name source who) = w.engineRead := by
    rw [State.startJob_placed (first := first) hv ho (by rw [ha]; exact hp), ha]
    refine congrArg State.engineRead ?_
    have hcapture : (Job.fresh id name source who).capture s.engine.settings (s.engine.capturedTone source) =
      (Job.fresh id name source who).capture s₀.engine.settings (s₀.engine.capturedTone source) := by rw [hq]; rfl
    refine congrArg (fun g => ({ s with alloc := a.takeReader v.raw, engine := g } : State)) ?_
    refine Eq.trans ?_ hmod
    exact congrArg (fun k : Job => Engine.modJob id (fun _ => k.started s₀.alloc.freshNumber) s.engine) hcapture
  have hread : w.engineRead = w.askRestoration (e.first + 0) .read :=
    State.engineRead_asks (s := w) (j := k) (rest := []) (e := { e with readers := e.readers + 1 }) rfl rfl hv hraw hm (by show s.store.outstanding _ = _; rw [hst]; exact hw)
  rw [hread] at hstart
  have hnext : s.startNext = w.askRestoration (e.first + 0) .read := by
    rw [← hstart]
    refine State.startNext_one hqueue rfl (.inr ⟨k, by rw [hstart]; rfl, by simp [k, Job.started]⟩)
  rw [hnext]
  refine ⟨rfl, ?_, rfl, (hrest _ hfresh.symm).trans hnew, hraw, ?_, ?_⟩
  · cases source <;> rfl
  · show (Store.ask _ _ s.store).waiting = _
    rw [Store.ask_waiting, hst]; rfl
  · show (Store.ask _ _ s.store).mem = _
    rw [Store.ask_mem, hst]

theorem Store.outstanding_free {st : Store} {c : Client} (hwait : ∀ y ∈ st.waiting, y.client ≠ c)
    (hfly : ∀ y, st.inFlight = some y → y.client ≠ c) : st.outstanding c = false := by
  unfold Store.outstanding
  cases h : st.inFlight with
  | none => simpa using hwait
  | some y => simpa [hfly y h] using hwait

/-- A request appended to an empty queue starts at once. -/
theorem State.appendJob_starts {s₁ : State} {id first : Nat} {e : Extent} (hempty : s.engine.queue = [])
    (hengine : s₁.engine = s.engine) (ha : s₁.alloc = s.alloc) (hst : s₁.store = s.store) (hv : s₁.cat.revision name = some v)
    (ho : v.damage.overflow = false) (hp : s.alloc.place (v.width * v.height) = .ok first) (he : s.alloc.find v.raw = some e)
    (hm : e.state ≠ .moving) (hwait : ∀ y ∈ s.store.waiting, y.client ≠ .restoration)
    (hfly : ∀ y, s.store.inFlight = some y → y.client ≠ .restoration) :
    ∃ t : State, (s₁.appendJob id name source who).startNext = t ∧
      t = { s₁ with engine := t.engine, alloc := t.alloc, store := t.store } ∧
      s.JobStarted id name source who.isNone who.toList v first e t := by
  have hout := Store.outstanding_free hwait hfly
  have hq : (s₁.appendJob id name source who).engine = { s.engine with
      queue := [Job.fresh id name source who], lastId := id } := by
    simp only [State.appendJob, hengine, hempty, List.nil_append]
  obtain ⟨hframe, hstart⟩ := State.startNext_fresh (s := s₁.appendJob id name source who) hq ha hst hv ho hp he hm hout
  exact ⟨_, rfl, hframe, hstart⟩

/-! ## RESTORE_PAGE (R123, R125) -/

theorem ToneSource.ofField_of {code : Nat} (h : code = 0 ∧ source = .auto ∨ ∃ n, code = n + 1 ∧ n ≤ 31 ∧ source = .profile n) :
    ToneSource.ofField code = some source := by
  rcases h with ⟨rfl, rfl⟩ | ⟨n, rfl, hn, rfl⟩
  · rfl
  · simp [ToneSource.ofField, Nat.lt_succ_of_le hn]

theorem pageNameInRange_of {ed pg : Nat} {rev : Option Nat} (he : 1 ≤ ed) (hp : 1 ≤ pg) (hp' : pg ≤ 160)
    (hr : ∀ n, rev = some n → n ≤ 255) : pageNameInRange ed pg rev = true := by
  cases rev with
  | none => simp [pageNameInRange, he, hp, hp']
  | some n => simp [pageNameInRange, he, hp, hp', hr n rfl]

/-- Settles O47. -/
theorem restorePage : Obligations.RestorePage := by
  unfold Obligations.RestorePage
  intro tag ps fs ed pg code name v source s s₁ ht hed hpg hcode hsource hed1 hpg1 hpg2 hrev hresolve
  have hbody : restorePageBody fs s₁ = s₁.deskRestore name v source := by
    have hresolve₁ : s₁.cat.resolve ed pg (fs.nat 2) = .ok (name, v) := by rw [ht.cat]; exact hresolve
    simp only [restorePageBody, hed, hpg, hcode, required, ToneSource.ofField_of hsource,
      pageNameInRange_of hed1 hpg1 hpg2 hrev, if_true, hresolve₁]
  have hexec {a : Answer} {t : State} (h : s₁.deskRestore name v source = (a, t)) :
      exec (.restorePage .desk tag ps) s = .next (t.reply .desk tag a).settle :=
    exec_takenWide (.restorePage .desk tag ps) rfl rfl rfl ht (hbody.trans h)
  have hengine : s₁.engine = s.engine := ht.engine
  refine ⟨fun h => hexec ?_, fun h ho => hexec ?_, fun h ho => ⟨fun j hj hfind => ?_, fun hn => ⟨fun hfull => hexec ?_,
    fun id head rest hid => ⟨fun hq hlen hs => hexec ?_, fun first e hempty hv hp he hm hwait hfly => ?_⟩⟩⟩⟩
  · simp only [State.deskRestore, State.requestJob_restored h]; rfl
  · simp only [State.deskRestore, State.requestJob_overflow h ho]; rfl
  · refine ⟨_, hexec (t := s₁.modEngine (·.modJob j.id (Job.join none))) ?_, ?_, ?_, fun id hid => ?_⟩
    · simp only [State.deskRestore, State.requestJob_joined (s := s₁) (who := none) h ho (by rw [hengine]; exact hj) (.inl rfl)]; rfl
    · rw [← hengine]; rfl
    · refine (Engine.find_modJob_same _ _ _ (by intro _; rfl)).trans ?_
      rw [hengine, hfind]; rfl
    · refine (Engine.find_modJob_other _ _ _ _ (by intro _; rfl) hid).trans ?_
      rw [hengine]
  · simp only [State.deskRestore, State.requestJob_queueFull (s := s₁) (who := none) h ho (by rw [hengine]; exact hn) (by rw [hengine]; exact hfull)]; rfl
  · simp only [State.deskRestore, State.requestJob_appended (s := s₁) (id := id) (who := none) h ho (by rw [hengine]; exact hn) (by rw [hengine]; exact hlen)
      (by rw [hengine]; exact hid)]
    rw [State.startNext_busy (j := head) (rest := rest ++ [Job.fresh id name source none])
      (by simp only [State.appendJob, hengine, hq, List.cons_append]) hs,
      ← hengine]
    rfl
  · obtain ⟨t, hstart, hframe, hjob⟩ := State.appendJob_starts (s₁ := s₁) (id := id) (source := source) (who := none) hempty hengine
      ht.alloc ht.store (by rw [ht.cat]; exact hv) ho hp he hm hwait hfly
    refine ⟨t, hexec ?_, hframe, hjob⟩
    simp only [State.deskRestore, State.requestJob_appended (s := s₁) (id := id) (who := none) h ho (by rw [hengine]; exact hn)
      (by rw [hengine, hempty]; decide) (by rw [hengine]; exact hid), hstart]
    rfl

/-! ## CANCEL_RESTORE (R127, R131, R143) -/

theorem Job.active_of (h : j.state = .surveying ∨ j.state = .correcting) : j.active = true := by
  simpa [Job.active] using h

theorem Job.not_queued_of (h : j.state = .surveying ∨ j.state = .correcting) : j.state ≠ .queued := by
  rcases h with h | h <;> rw [h] <;> decide

theorem Store.restorationInFlight_iff {st : Store} :
    st.restorationInFlight = true ↔ ∃ y, st.inFlight = some y ∧ y.client = .restoration := by
  simp [Store.restorationInFlight]

theorem Store.restorationInFlight_eq_false {st : Store} (h : ∀ y, st.inFlight = some y → y.client ≠ .restoration) :
    st.restorationInFlight = false := by
  rw [Bool.eq_false_iff]
  exact fun ht => (Store.restorationInFlight_iff.mp ht).elim fun y hy => h y hy.1 hy.2

/-- A QUEUED job of the desk alone is cancelled by request: it leaves the queue for the ended list. -/
theorem State.cancelJob_queued (hd : j.desk = true) (hr : j.requesters = []) (hs : j.state = .queued) (hx : j.scratch = none) :
    s.cancelJob .requested j = { s with engine := { s.engine with
      queue := s.engine.queue.filter (fun x => x.id ≠ j.id)
      ended := (if 8 ≤ s.engine.ended.length then s.engine.ended.tail else s.engine.ended) ++
        [{ j with state := .cancelled, endCause := some .requested, allocRefusal := none }] } } := by
  have hinactive : j.active = false := by simp [Job.active, hs]
  rw [State.cancelJob, if_pos hs, State.endJob]
  simp only [hx, hr, hd, State.jobReaderEnd, hinactive]
  rfl

theorem State.cancelJob_inFlight {cause : CancelCause} (hs : j.state ≠ .queued) (hf : s.store.restorationInFlight = true) :
    s.cancelJob cause j = s.modEngine (·.modJob j.id (Job.mark cause)) := (if_neg hs).trans (if_pos hf)

theorem State.cancelJob_atOnce {cause : CancelCause} (hs : j.state ≠ .queued) (hf : s.store.restorationInFlight = false) :
    s.cancelJob cause j = ((({ s with store := s.store.withdraw .restoration } : State).endJob .cancelled
      ((j.mark cause).cancel.getD cause).toEnd none (j.mark cause)).startNext) := (if_neg hs).trans (if_neg (by simp [hf]))

/-- Settles O48. -/
theorem cancelRestore : Obligations.CancelRestore := by
  unfold Obligations.CancelRestore
  intro tag ps fs id s s₁ ht hid
  have hengine : s₁.engine = s.engine := ht.engine
  have hstore : s₁.store = s.store := ht.store
  refine ⟨fun hnone => exec_takenWide (.cancelRestore .desk tag ps) rfl rfl rfl ht ?_, fun j hj => ?_⟩
  · simp only [bodyOfCommand, cancelRestoreBody, hid, required, hengine, hnone]; rfl
  have hjid : j.id = id := by simpa using List.find?_some hj
  subst hjid
  have hexec {t : State} {st : JobState} {cancel : Option CancelCause} (hc : s₁.cancelled j = (st, cancel))
      (h : s₁.cancelByDesk j = t) : exec (.cancelRestore .desk tag ps) s =
        .next (t.reply .desk tag { result := .ok, fields :=
          [.one st.code, .ofOption (cancel.map CancelCause.code), .mark j.desk] }).settle := by
    refine exec_takenWide (.cancelRestore .desk tag ps) rfl rfl rfl ht ?_
    simp only [bodyOfCommand, cancelRestoreBody, hid, required, hengine, hj, hc, h]
    rfl
  refine ⟨fun hd => ?_, fun hd hr => ?_, fun hd hr hs hx _ => ?_, fun y hd hr hs hy hc => ?_, fun c hd hr hs hf hc => ?_⟩
  · refine (hexec (if_pos (.inl hd)) (if_pos hd)).trans ?_
    rw [hd]; rfl
  · refine ⟨_, (hexec (if_pos (.inr hr)) ((if_neg (by simp [hd])).trans (if_neg hr))).trans (by rw [hd]; rfl), ?_, ?_, fun other ho => ?_⟩
    · rw [← hengine]; rfl
    · refine (Engine.find_modJob_same _ _ _ (by intro _; rfl)).trans ?_
      rw [hengine, hj]; rfl
    · refine (Engine.find_modJob_other _ _ _ _ (by intro _; rfl) ho).trans ?_
      rw [hengine]
  all_goals
    have hby : s₁.cancelByDesk j = s₁.cancelJob .requested j := (if_neg (by simp [hd])).trans (if_pos hr)
    have hgo : ¬ (j.desk = false ∨ j.requesters ≠ []) := by simp [hd, hr]
  · refine (hexec ((if_neg hgo).trans (if_pos hs)) (hby.trans (State.cancelJob_queued hd hr hs hx))).trans ?_
    rw [hd, hengine]; rfl
  · have hfly : s₁.store.restorationInFlight = true := Store.restorationInFlight_iff.mpr ⟨y, by rw [hstore]; exact hy, hc⟩
    refine ⟨s₁.modEngine (·.modJob j.id (Job.mark .requested)), (hexec (st := j.state) (cancel := (j.mark .requested).cancel) ((if_neg hgo).trans ((if_neg (Job.not_queued_of hs)).trans
      (by rw [hfly]; rfl))) (hby.trans (State.cancelJob_inFlight (Job.not_queued_of hs) hfly))).trans ?_, ?_, ?_, fun other ho => ?_⟩
    · rw [hd]
      by_cases hret : j.cancel = some .retired <;> simp only [Job.mark, hret, if_true, if_false] <;> rfl
    · rw [← hengine]; rfl
    · refine (Engine.find_modJob_same _ _ _ (by intro _; rfl)).trans ?_
      rw [hengine, hj]; rfl
    · refine (Engine.find_modJob_other _ _ _ _ (by intro _; rfl) ho).trans ?_
      rw [hengine]
  · have hfly : s₁.store.restorationInFlight = false := Store.restorationInFlight_eq_false (by rw [hstore]; exact hf)
    have hmark : j.mark .requested = { j with cancel := some c } := by
      rw [hc]
      by_cases hret : j.cancel = some .retired <;> simp only [Job.mark, hret, if_true, if_false]
    have hcancel := hby.trans (State.cancelJob_atOnce (cause := .requested) (Job.not_queued_of hs) hfly)
    rw [hmark, hstore] at hcancel
    refine (hexec (st := .cancelled) (cancel := some c) ((if_neg hgo).trans ((if_neg (Job.not_queued_of hs)).trans
      (by rw [hfly, hmark]; rfl))) hcancel).trans ?_
    rw [hd]; rfl

end Sys2Proof.Machine
end

