-- ==== Sys2Proof/Proofs/JobEnds.lean ====
section
/-! PROOF. The end of a job that publishes nothing (chapter 7, R128, R142, R143). -/

namespace Sys2Proof.Machine

variable {s t : State} {j : Job} {final : JobState} {cause : JobEnd} {refusal : Option AllocRefusal}

/-! ## Items that fall back (R142 step 4) -/

/-- The order book with items of a requester list fallen back to RAW. -/
def OrderBook.downgradeAll (rs : List (Nat × Nat)) (b : OrderBook) : OrderBook :=
  rs.foldl (fun b r => b.modItem r.1 r.2 Item.downgrade) b

/-- A notice raised twice is raised once. -/
theorem State.raise_raise (n : Notice) (s : State) : (s.raise n).raise n = s.raise n := by
  have hmodify : ∀ k : Controller, (k.modify n.number fun src => { src with latched := true }).modify n.number
      (fun src => { src with latched := true }) = k.modify n.number fun src => { src with latched := true } := fun k => by
    refine congrArg (fun v => ({ k with sources := v } : Controller)) (List.ext_getElem? fun i => ?_)
    simp only [Controller.modify, List.getElem?_modify]
    by_cases h : n.number = i <;> simp [h, Function.comp_def]
  have htwice : ∀ (l : LinkId) (k m : Link), (s.setLink l k).setLink l m = s.setLink l m := fun l k m => by cases l <;> rfl
  have hlink : (s.raise n).link n.link = { s.link n.link with
      notices := (s.link n.link).notices.modify n.number fun src => { src with latched := true } } := State.setLink_link _ _ _
  have hagain : (s.raise n).raise n = (s.raise n).setLink n.link { (s.raise n).link n.link with
      notices := ((s.raise n).link n.link).notices.modify n.number fun src => { src with latched := true } } := rfl
  rw [hagain, hlink]
  refine (htwice _ _ _).trans (congrArg (fun k => s.setLink n.link { s.link n.link with notices := k }) (hmodify _))

theorem State.downgradeItems_spec (rs : List (Nat × Nat)) (s : State) : s.downgradeItems rs =
    { s with book := s.book.downgradeAll rs, sales := if rs = [] then s.sales else (s.raise .itemReady).sales } := by
  induction rs generalizing s with
  | nil => rfl
  | cons r rs ih =>
    have hsales : ((s.modBook (·.modItem r.1 r.2 Item.downgrade)).raise .itemReady).sales = (s.raise .itemReady).sales := rfl
    have hagain : (if rs = [] then ((s.modBook (·.modItem r.1 r.2 Item.downgrade)).raise .itemReady).sales else
        (((s.modBook (·.modItem r.1 r.2 Item.downgrade)).raise .itemReady).raise .itemReady).sales) = (s.raise .itemReady).sales := by
      split
      · exact hsales
      · rw [State.raise_raise, hsales]
    refine (ih ((s.modBook (·.modItem r.1 r.2 Item.downgrade)).raise .itemReady)).trans ?_
    rw [hagain, if_neg (by simp)]
    rfl

theorem OrderBook.downgradeAll_item_other {rs : List (Nat × Nat)} {o n : Nat} (h : (o, n) ∉ rs) (b : OrderBook) :
    (b.downgradeAll rs).item o n = b.item o n := by
  induction rs generalizing b with
  | nil => rfl
  | cons r rs ih =>
    simp only [List.mem_cons, not_or] at h
    refine (ih h.2 _).trans (OrderBook.item_modItem_other _ _ _ _ _ _ (by intro _; rfl) ?_)
    by_contra hboth
    simp only [ne_eq, not_or, not_not] at hboth
    exact h.1 (Prod.ext hboth.1 hboth.2)

theorem OrderBook.downgradeAll_item {rs : List (Nat × Nat)} {o n : Nat} {i : Item} (h : (o, n) ∈ rs) {b : OrderBook}
    (hi : b.item o n = some i) : (b.downgradeAll rs).item o n = some i.downgrade := by
  induction rs generalizing b i with
  | nil => simp at h
  | cons r rs ih =>
    by_cases hr : r = (o, n)
    · subst hr
      have hone : (b.modItem o n Item.downgrade).item o n = some i.downgrade := by
        rw [OrderBook.item_modItem_same _ _ _ _ (by intro _; rfl), hi]; rfl
      by_cases hmem : (o, n) ∈ rs
      · have hdown := ih (i := i.downgrade) hmem hone
        exact hdown
      · exact (OrderBook.downgradeAll_item_other hmem _).trans hone
    · have hother : (b.modItem r.1 r.2 Item.downgrade).item o n = some i := by
        rw [OrderBook.item_modItem_other _ _ _ _ _ _ (by intro _; rfl), hi]
        by_contra hboth
        simp only [ne_eq, not_or, not_not] at hboth
        exact hr (Prod.ext hboth.1.symm hboth.2.symm)
      exact ih ((List.mem_cons.mp h).resolve_left (Ne.symm hr)) hother

theorem OrderBook.downgradeAll_accounts (rs : List (Nat × Nat)) (b : OrderBook) : (b.downgradeAll rs).accounts = b.accounts := by
  induction rs generalizing b with
  | nil => rfl
  | cons r rs ih => exact ih _

/-! ## The end of a job (R142) -/

/-- The end of a job that publishes nothing; `a` is the allocator without its scratch extent and its reader. -/
def State.jobEnded (s : State) (final : JobState) (cause : JobEnd) (refusal : Option AllocRefusal) (j : Job) (a : Allocator) : State :=
  { s with
    alloc := a
    engine := { s.engine with
      queue := s.engine.queue.filter fun y => y.id ≠ j.id
      ended := if j.desk then (if 8 ≤ s.engine.ended.length then s.engine.ended.tail else s.engine.ended) ++
        [{ j with state := final, endCause := some cause, allocRefusal := refusal, scratch := none }] else s.engine.ended }
    book := s.book.downgradeAll j.requesters
    sales := if j.requesters = [] then s.sales else (s.raise .itemReady).sales
    desk := if j.desk then if cause = .requested then s.desk else (s.raise .restoreFailed).desk else s.desk }

/-- Steps 3 to 5 of a job's end, when its scratch extent and its reader are gone (R142). -/
theorem State.jobEnded_of {w : State} {a : Allocator}
    (hw : w = { s with alloc := a, engine := { s.engine with queue := s.engine.queue.filter fun y => y.id ≠ j.id } }) :
    (if j.desk then
      (if cause = .requested then w.downgradeItems j.requesters else (w.downgradeItems j.requesters).raise .restoreFailed).modEngine
        (Engine.addEnded { j with state := final, endCause := some cause, allocRefusal := refusal, scratch := none })
    else w.downgradeItems j.requesters) = s.jobEnded final cause refusal j a := by
  subst hw
  rw [State.downgradeItems_spec]
  unfold State.jobEnded
  by_cases hd : j.desk = true
  · by_cases hc : cause = .requested <;> simp only [hd, hc, if_true, if_false] <;> rfl
  · simp only [hd, if_false, Bool.false_eq_true]
    rfl

/-- A job that never started holds no extent and no reader. -/
theorem State.endJob_inactive (ha : j.active = false) (hx : j.scratch = none) :
    s.endJob final cause refusal j = s.jobEnded final cause refusal j s.alloc := by
  unfold State.endJob
  simp only [hx, State.jobReaderEnd, ha, Bool.false_eq_true, if_false]
  exact State.jobEnded_of rfl

/-- The allocator after the end of an active job: its BUILDING scratch extent `n` is returned, and its reader on the raw
extent `raw` is gone. -/
def Allocator.withoutJob (n raw : Nat) (a : Allocator) : Allocator :=
  (a.release n).modExtent raw fun e => { e with readers := e.readers - 1 }

theorem Allocator.withoutJob_spec {a : Allocator} {n raw : Nat} {x e : Extent} (hx : a.find n = some x) (hs : x.state = .building)
    (he : a.find raw = some e) (hne : n ≠ raw) :
    (a.withoutJob n raw).runs = giveSlots x.first x.size a.runs ∧ (a.withoutJob n raw).find n = none ∧
      (a.withoutJob n raw).find raw = some { e with readers := e.readers - 1 } ∧
      ∀ m, m ≠ n → m ≠ raw → (a.withoutJob n raw).find m = a.find m := by
  obtain ⟨hframe, hgone, hkept⟩ := Allocator.release_unused hx (.inr (.inl hs))
  have hraw : (a.release n).find raw = some e := (hkept raw hne.symm).trans he
  obtain ⟨hmod, hsame, hother⟩ := Allocator.modExtent_rewritten (f := fun e => { e with readers := e.readers - 1 }) hraw (by intro _; rfl)
  have hruns : (a.withoutJob n raw).runs = (a.release n).runs := congrArg (·.runs) hmod
  refine ⟨?_, (hother n hne).trans hgone, hsame, fun m hm hm' => (hother m hm').trans (hkept m hm)⟩
  rw [hruns, hframe]

theorem State.endJob_active {v : Revision} {n : Nat} {x e : Extent} (ha : j.active = true) (hv : s.cat.revision j.revision = some v)
    (hn : j.scratch = some n) (hx : s.alloc.find n = some x) (hs : x.state = .building) (he : s.alloc.find v.raw = some e)
    (hne : n ≠ v.raw) (hcount : s.OnlyCounts e) :
    s.endJob final cause refusal j = s.jobEnded final cause refusal j (s.alloc.withoutJob n v.raw) := by
  obtain ⟨-, -, hkept⟩ := Allocator.release_unused hx (.inr (.inl hs))
  have hreader := State.readerEnd_counts (s := { s with
      alloc := s.alloc.release n, engine := { s.engine with queue := s.engine.queue.filter fun y => y.id ≠ j.id } })
    ((hkept v.raw hne.symm).trans he) hcount
  unfold State.endJob
  simp only [hn]
  refine State.jobEnded_of ?_
  unfold State.jobReaderEnd
  simp only [ha, if_true]
  refine Eq.trans ?_ hreader
  show (match s.cat.revision j.revision with | some v => _ | none => _) = _
  rw [hv]
  rfl

end Sys2Proof.Machine
end

