-- ==== Sys2Proof/Proofs/RawReads.lean ====
section
/-! PROOF. Reads of the restoration port, the survey and its detectors (chapter 7, R131 to R138, R142). -/

namespace Sys2Proof.Machine

variable {s t u : State} {j k : Job} {rest : List Job} {v : Revision} {slot : Nat} {mem : List Host.Cell} {x : Tile} {r : RevName}

/-! ## A read of the restoration port ends (R9, R69, R75) -/

theorem DamageList.add_overflow (d : DamageList) (y : DamageEntry) :
    (d.add y).overflow = (d.overflow || decide (8 ≤ d.entries.length ∧ y ∉ d.entries)) := by
  unfold DamageList.add
  by_cases hy : y ∈ d.entries
  · simp [hy]
  · by_cases hl : d.entries.length < 8
    · simp [hy, hl]
    · simp [hy, hl, Nat.le_of_not_lt hl]

/-- A damaged tile offered to a list leaves the other fields of every revision. -/
theorem Catalogue.addDamage_revision {c : Catalogue} (o : Owner) (i : Nat) (hv : c.revision r = some v) :
    ∃ d, (c.addDamage o i).revision r = some { v with damage := d } ∧
      (∀ rendition, (o = .raw r ∧ rendition = .raw ∨ o = .restored r ∧ rendition = .restored) → d = v.damage.add ⟨i, rendition⟩) ∧
      (o ≠ .raw r → o ≠ .restored r → d = v.damage) := by
  by_cases ho : o = .raw r ∨ o = .restored r
  · obtain ⟨rendition, hr⟩ : ∃ q : Rendition, o = .raw r ∧ q = .raw ∨ o = .restored r ∧ q = .restored :=
      ho.elim (fun h => ⟨.raw, .inl ⟨h, rfl⟩⟩) fun h => ⟨.restored, .inr ⟨h, rfl⟩⟩
    refine ⟨_, (Catalogue.addDamage_page i hv hr).2.1, fun q hq => ?_, fun h h' => absurd ho (by simp [h, h'])⟩
    have hsame : q = rendition := by
      rcases hr with ⟨ho, rfl⟩ | ⟨ho, rfl⟩
      · exact (hq.resolve_right (by simp [ho])).2
      · exact (hq.resolve_left (by simp [ho])).2
    rw [hsame]
  · rw [not_or] at ho
    refine ⟨v.damage, ?_, fun q hq => absurd hq (by simp [ho]), fun _ _ => rfl⟩
    cases o with
    | raw q => exact (Catalogue.revision_modRevision_other _ _ _ _ (by intro _; rfl) fun h => ho.1 (by rw [h])).trans hv
    | restored q => exact (Catalogue.revision_modRevision_other _ _ _ _ (by intro _; rfl) fun h => ho.2 (by rw [h])).trans hv
    | photo n => exact hv

/-- What a damaged read makes of a revision: its damage list alone can change, and it overflows exactly when it is full. -/
theorem State.DamageRecorded.revision (h : s.DamageRecorded slot .restoration u) (hv : s.cat.revision r = some v) :
    ∃ d, u.cat.revision r = some { v with damage := d } ∧ (s.Overflows slot r v.damage → d.overflow = true) ∧
      (¬ s.Overflows slot r v.damage → d.overflow = v.damage.overflow) := by
  obtain ⟨-, howned, hnone⟩ := h
  by_cases hown : ∃ e, s.alloc.holding slot = some e ∧ e.owned = true
  · obtain ⟨e, he, ho⟩ := hown
    obtain ⟨-, hcat, -⟩ := howned e he ho
    obtain ⟨d, hd, hmine, hother⟩ := Catalogue.addDamage_revision e.owner (slot - e.first) hv
    refine ⟨d, by rw [hcat]; exact hd, fun ⟨hfull, f, rendition, hf, _, hr, hnot⟩ => ?_, fun hno => ?_⟩
    · obtain rfl := Option.some.inj (he.symm.trans hf)
      rw [hmine rendition hr, DamageList.add_overflow]
      simp [hfull, hnot]
    · by_cases hr : ∃ q : Rendition, e.owner = .raw r ∧ q = .raw ∨ e.owner = .restored r ∧ q = .restored
      · obtain ⟨q, hq⟩ := hr
        rw [hmine q hq, DamageList.add_overflow]
        have hroom : ¬ (8 ≤ v.damage.entries.length ∧ ⟨slot - e.first, q⟩ ∉ v.damage.entries) := fun ⟨hfull, hnot⟩ =>
          hno ⟨hfull, e, q, he, ho, hq, hnot⟩
        simp [hroom]
      · rw [hother (fun h => hr ⟨.raw, .inl ⟨h, rfl⟩⟩) fun h => hr ⟨.restored, .inr ⟨h, rfl⟩⟩]
  · have hfree : ∀ e, s.alloc.holding slot = some e → e.owned = false := fun e he =>
      Bool.eq_false_iff.mpr fun ht => hown ⟨e, he, ht⟩
    obtain ⟨-, hcat, -⟩ := hnone hfree
    exact ⟨v.damage, by rw [hcat]; exact hv, fun ⟨_, e, _, he, ht, _⟩ => absurd ⟨e, he, ht⟩ hown, fun _ => rfl⟩

theorem State.rawReadEnds (upset : List Upset) (hx : x = Memory.readSlot (Memory.upset s.store.mem slot upset) slot) :
    let w := (s.modStore (Store.complete ⟨.restoration, slot, .read⟩)).readTile slot upset .restoration
    w.1 = x ∧ w.2.1 = decide (checkBytes x.bytes ≠ x.check) ∧ s.RawReadEnds slot (Memory.upset s.store.mem slot upset) x w.2.2 := by
  obtain ⟨htile, hbad, hframe, hstore, hgood, hdamaged⟩ := State.readTile_spec (reader := .restoration)
    (s := s.modStore (Store.complete ⟨.restoration, slot, .read⟩)) (slot := slot) (upset := upset) hx
  have hrecorded (hd : checkBytes x.bytes ≠ x.check) := State.DamageRecorded.of_blocks (s := s)
    (m := s.modStore (Store.complete ⟨.restoration, slot, .read⟩)) rfl rfl rfl rfl (hdamaged hd)
  refine ⟨htile, hbad, hframe, hstore, hgood, fun hd => ⟨hrecorded hd, fun r v hv ho => ?_⟩⟩
  obtain ⟨d, hu, -⟩ := (hrecorded hd).revision hv
  obtain ⟨hfull, e, rendition, he, howned, hr, hnot⟩ := ho
  obtain ⟨-, hcat, -⟩ := (hrecorded hd).2.1 e he howned
  rw [hcat, (Catalogue.addDamage_page _ hv hr).2.1]
  simp [DamageList.add, hnot, Nat.not_lt.mpr hfull]

/-- The revision of the active job after a read of the restoration port. -/
theorem State.RawReadEnds.revision (h : s.RawReadEnds slot mem x u) (hv : s.cat.revision r = some v) :
    ∃ d, u.cat.revision r = some { v with damage := d } ∧ (checkBytes x.bytes = x.check → d = v.damage) ∧
      (checkBytes x.bytes = x.check ∨ ¬ s.Overflows slot r v.damage → d.overflow = v.damage.overflow) ∧
      (checkBytes x.bytes ≠ x.check → s.Overflows slot r v.damage → d.overflow = true) := by
  obtain ⟨-, -, hgood, hdamaged⟩ := h
  by_cases hd : checkBytes x.bytes = x.check
  · exact ⟨v.damage, by rw [hgood hd]; exact hv, fun _ => rfl, fun _ => rfl, fun hbad => absurd hd hbad⟩
  · obtain ⟨d, hu, hover, hroom⟩ := (hdamaged hd).1.revision hv
    exact ⟨d, hu, fun hok => absurd hok hd, fun hc => hroom (hc.resolve_left hd), fun _ => hover⟩

/-- Changing the oldest job of the queue. -/
theorem Engine.modJob_head {g : Engine} {f : Job → Job} (hq : g.queue = j :: rest) (hne : ∀ y ∈ rest, y.id ≠ j.id) :
    g.modJob j.id f = { g with queue := f j :: rest } := by
  have hrest : rest.map (fun y => if y.id = j.id then f y else y) = rest :=
    (List.map_congr_left fun y hy => if_neg (hne y hy)).trans (List.map_id rest)
  unfold Engine.modJob modifyWhere
  rw [hq]
  simp only [List.map_cons, decide_eq_true_eq, if_true, hrest]

theorem State.jobIn_of {st : JobState} (hq : s.engine.queue = j :: rest) (hs : j.state = st)
    (hact : st = .surveying ∨ st = .correcting) (hv : s.cat.revision j.revision = some v) : s.jobIn st = some (j, v) := by
  have ha : j.active = true := Job.active_of (by rw [hs]; exact hact)
  simp only [State.jobIn, Engine.activeJob, hq, ha, if_true, hs, hv, Option.map_some]

/-- A job that meets the overflow of its revision's damage list fails (R137). -/
theorem State.afterRawRead_fails {goOn : State → State} (hv : s.cat.revision j.revision = some v) (ho : v.damage.overflow = true) :
    s.afterRawRead j goOn = (s.endJob .failed .damageOverflow none j).startNext := by
  unfold State.afterRawRead State.jobOverflow
  simp only [hv, Option.map_some, Option.getD_some, ho, if_true]

theorem State.afterRawRead_goes {goOn : State → State} (hv : s.cat.revision j.revision = some v) (ho : v.damage.overflow = false) :
    s.afterRawRead j goOn = goOn s := by
  unfold State.afterRawRead State.jobOverflow
  simp only [hv, Option.map_some, Option.getD_some, ho, Bool.false_eq_true, if_false]

theorem State.atBoundary_cancelled {goOn : State → State} {c : CancelCause} (h : j.cancel = some c) :
    s.atBoundary j goOn = (s.endJob .cancelled c.toEnd none j).startNext := by
  unfold State.atBoundary; rw [h]
theorem State.atBoundary_goes {goOn : State → State} (h : j.cancel = none) : s.atBoundary j goOn = goOn s := by
  unfold State.atBoundary; rw [h]

theorem State.rawDamaged_of (hv : s.cat.revision j.revision = some v) (i : Nat) (bad : Bool) :
    s.rawDamaged j i bad = (bad || v.damage.entries.contains ⟨i, .raw⟩) := by
  simp only [State.rawDamaged, hv, Option.map_some, Option.getD_some]

/-- A survey read completes: the read ends, and the engine uses the tile. -/
theorem exec_surveyRead {upset : List Upset} (hp : s.power = .running) (hg : s.store.inFlight = some ⟨.restoration, slot, .read⟩)
    (hs : slot < s.store.slotCount) (hq : s.engine.queue = j :: rest) (hj : j.state = .surveying)
    (hv : s.cat.revision j.revision = some v) (hx : x = Memory.readSlot (Memory.upset s.store.mem slot upset) slot) :
    ∃ (u : State) (d : DamageList), s.RawReadEnds slot (Memory.upset s.store.mem slot upset) x u ∧
      u.cat.revision j.revision = some { v with damage := d } ∧ (checkBytes x.bytes = x.check → d = v.damage) ∧
      (checkBytes x.bytes = x.check ∨ ¬ s.Overflows slot j.revision v.damage → d.overflow = v.damage.overflow) ∧
      (checkBytes x.bytes ≠ x.check → s.Overflows slot j.revision v.damage → d.overflow = true) ∧
      exec (.surveyReadComplete upset) s =
        .next (u.surveyArrives x (decide (checkBytes x.bytes ≠ x.check)) j { v with damage := d }).settle := by
  obtain ⟨htile, hbad, hends⟩ := State.rawReadEnds (s := s) upset hx
  obtain ⟨d, hrev, hgood, hroom, hover⟩ := hends.revision hv
  refine ⟨_, d, hends, hrev, hgood, hroom, hover, ?_⟩
  have hmine : s.isEngine true .surveying ⟨.restoration, slot, .read⟩ = true := by
    simp [State.isEngine, State.jobIn_of hq hj (.inl rfl) hv]
  show execSurveyReadComplete upset s = _
  rw [execSurveyReadComplete, whenCompletes_of hp hg hmine hs]
  have hqueue : ((s.modStore (Store.complete ⟨.restoration, slot, .read⟩)).readTile slot upset .restoration).2.2.engine.queue =
    j :: rest := by rw [hends.1]; exact hq
  dsimp only
  rw [State.jobIn_of hqueue hj (.inl rfl) hrev, htile, hbad]

end Sys2Proof.Machine
end

