-- ==== Sys2Proof/Proofs/Surveys.lean ====
section
/-! PROOF. The survey of a page: the page figures and the two detectors (chapter 7, R132 to R136). -/

namespace Sys2Proof.Machine

variable {j k : Job} {i edges p width : Nat} {d : Defect} {o : OpenDefect} {faint last : Bool}

/-! ## Defects (R136) -/

theorem Job.lengthen_kept (o : OpenDefect) (j : Job) : j.lengthen o = { j with defects := (j.lengthen o).defects } := by
  cases o <;> rfl

theorem Job.lengthen_same (h : j.defects[p]? = some d) :
    (j.lengthen (.kept p)).defects[p]? = some { d with length := d.length + 1 } := by
  simp [Job.lengthen, h]

theorem Job.lengthen_other (h : o ≠ .kept p) : (j.lengthen o).defects[p]? = j.defects[p]? := by
  cases o with
  | kept q =>
    have hq : q ≠ p := fun he => h (by rw [he])
    simp [Job.lengthen, hq]
  | closed => rfl
  | notKept => rfl

theorem Job.lengthen_length (o : OpenDefect) (j : Job) : (j.lengthen o).defects.length = j.defects.length := by
  cases o with
  | kept q => exact List.length_modify _ _ _
  | closed => rfl
  | notKept => rfl

theorem Job.keepDefect_room (h : j.defects.length < 8) :
    j.keepDefect d = (.kept j.defects.length, { j with defects := j.defects ++ [d] }) := if_pos h
theorem Job.keepDefect_full (h : 8 ≤ j.defects.length) : j.keepDefect d = (.notKept, { j with defectsOverflow := true }) :=
  if_neg (Nat.not_lt.mpr h)

/-! ## The fade detector (R134) -/

theorem Job.fade_bright (i : Nat) (last : Bool) (j : Job) : j.fade i false last = j.fadeClose := by cases last <;> rfl
theorem Job.fade_rowEnd (i : Nat) (j : Job) : j.fade i true true = (j.fadeFaint i).fadeClose := rfl
theorem Job.fade_faint (i : Nat) (j : Job) : j.fade i true false = j.fadeFaint i := rfl

theorem Job.fadeFaint_open (h : j.openBand ≠ .closed) :
    j.fadeFaint i = ({ j with fadeCounter := j.fadeCounter + 1 } : Job).lengthen j.openBand := if_neg h
theorem Job.fadeFaint_counts (h : j.openBand = .closed) (hn : j.fadeCounter + 1 ≠ j.settings.fadeRun) :
    j.fadeFaint i = { j with fadeCounter := j.fadeCounter + 1 } := (if_pos h).trans (if_neg hn)
theorem Job.fadeFaint_opens (h : j.openBand = .closed) (hn : j.fadeCounter + 1 = j.settings.fadeRun) (hl : j.defects.length < 8) :
    j.fadeFaint i = { j with
      fadeCounter := j.fadeCounter + 1, openBand := .kept j.defects.length
      defects := j.defects ++ [⟨.fadedBand, i + 1 - j.settings.fadeRun, j.settings.fadeRun⟩] } := by
  refine (if_pos h).trans ((if_pos hn).trans ?_)
  rw [Job.keepDefect_room (j := { j with fadeCounter := j.fadeCounter + 1 }) hl, hn]
theorem Job.fadeFaint_full (h : j.openBand = .closed) (hn : j.fadeCounter + 1 = j.settings.fadeRun) (hl : 8 ≤ j.defects.length) :
    j.fadeFaint i = { j with fadeCounter := j.fadeCounter + 1, openBand := .notKept, defectsOverflow := true } := by
  refine (if_pos h).trans ((if_pos hn).trans ?_)
  rw [Job.keepDefect_full (j := { j with fadeCounter := j.fadeCounter + 1 }) hl]

/-- The four ways in which the fade detector takes a faint tile. -/
theorem Job.fadeFaint_cases (i : Nat) (j : Job) :
    (j.openBand ≠ .closed ∧ j.fadeFaint i = ({ j with fadeCounter := j.fadeCounter + 1 } : Job).lengthen j.openBand) ∨
    (j.openBand = .closed ∧ j.fadeFaint i = { j with fadeCounter := j.fadeCounter + 1 }) ∨
    (j.openBand = .closed ∧ j.defects.length < 8 ∧ j.fadeFaint i = { j with
      fadeCounter := j.fadeCounter + 1, openBand := .kept j.defects.length
      defects := j.defects ++ [⟨.fadedBand, i + 1 - j.settings.fadeRun, j.settings.fadeRun⟩] }) ∨
    (j.openBand = .closed ∧ 8 ≤ j.defects.length ∧
      j.fadeFaint i = { j with fadeCounter := j.fadeCounter + 1, openBand := .notKept, defectsOverflow := true }) := by
  by_cases h : j.openBand = .closed
  · by_cases hn : j.fadeCounter + 1 = j.settings.fadeRun
    · by_cases hl : j.defects.length < 8
      · exact .inr (.inr (.inl ⟨h, hl, Job.fadeFaint_opens h hn hl⟩))
      · exact .inr (.inr (.inr ⟨h, Nat.le_of_not_lt hl, Job.fadeFaint_full h hn (Nat.le_of_not_lt hl)⟩))
    · exact .inr (.inl ⟨h, Job.fadeFaint_counts h hn⟩)
  · exact .inl ⟨h, Job.fadeFaint_open h⟩

/-- The fade detector changes its own state and the defects. -/
theorem Job.fadeFaint_kept (i : Nat) (j : Job) : j.fadeFaint i = { j with
    fadeCounter := j.fadeCounter + 1, openBand := (j.fadeFaint i).openBand, defects := (j.fadeFaint i).defects
    defectsOverflow := (j.fadeFaint i).defectsOverflow } := by
  rcases j.fadeFaint_cases i with ⟨-, h⟩ | ⟨-, h⟩ | ⟨-, -, h⟩ | ⟨-, -, h⟩
  · rw [h]
    cases j.openBand <;> rfl
  all_goals rw [h]

theorem Job.fadeFaint_counter (i : Nat) (j : Job) : (j.fadeFaint i).fadeCounter = j.fadeCounter + 1 :=
  congrArg Job.fadeCounter (j.fadeFaint_kept i)

theorem Job.fade_kept (i : Nat) (faint last : Bool) (j : Job) : j.fade i faint last = { j with
    fadeCounter := (j.fade i faint last).fadeCounter, openBand := (j.fade i faint last).openBand
    defects := (j.fade i faint last).defects, defectsOverflow := (j.fade i faint last).defectsOverflow } := by
  cases faint with
  | false => rw [Job.fade_bright]; rfl
  | true =>
    cases last with
    | false =>
      rw [Job.fade_faint, Job.fadeFaint_counter]
      exact j.fadeFaint_kept i
    | true => rw [Job.fade_rowEnd]; exact congrArg Job.fadeClose (j.fadeFaint_kept i)

theorem Job.fade_defects (i : Nat) (last : Bool) (j : Job) : (j.fade i true last).defects = (j.fadeFaint i).defects ∧
    (j.fade i true last).defectsOverflow = (j.fadeFaint i).defectsOverflow := by cases last <;> exact ⟨rfl, rfl⟩

/-- The fade detector leaves every defect but its own open one. -/
theorem Job.fade_defect (h : j.defects[p]? = some d) (ho : j.openBand ≠ .kept p) (i : Nat) (faint last : Bool) :
    (j.fade i faint last).defects[p]? = some d := by
  cases faint with
  | false => rw [Job.fade_bright]; exact h
  | true =>
    rw [(Job.fade_defects i last j).1]
    rcases j.fadeFaint_cases i with ⟨-, he⟩ | ⟨-, he⟩ | ⟨-, -, he⟩ | ⟨-, -, he⟩
    · rw [he, Job.lengthen_other ho]; exact h
    · rw [he]; exact h
    · rw [he]; exact List.getElem?_append_left (List.getElem?_eq_some_iff.mp h).1 |>.trans h
    · rw [he]; exact h

/-- The detectors do not look at the page figures. -/
theorem Job.fade_figures (i : Nat) (faint last : Bool) (j : Job) (n b w : Nat) :
    ({ j with inStatistics := n, bAuto := b, wAuto := w } : Job).fade i faint last =
      { j.fade i faint last with inStatistics := n, bAuto := b, wAuto := w } := by
  have hfaint : ({ j with inStatistics := n, bAuto := b, wAuto := w } : Job).fadeFaint i =
      { j.fadeFaint i with inStatistics := n, bAuto := b, wAuto := w } := by
    by_cases h : j.openBand = .closed
    · by_cases hn : j.fadeCounter + 1 = j.settings.fadeRun
      · by_cases hl : j.defects.length < 8
        · rw [Job.fadeFaint_opens (j := { j with inStatistics := n, bAuto := b, wAuto := w }) h hn hl, Job.fadeFaint_opens h hn hl]
        · have hl := Nat.le_of_not_lt hl
          rw [Job.fadeFaint_full (j := { j with inStatistics := n, bAuto := b, wAuto := w }) h hn hl, Job.fadeFaint_full h hn hl]
      · rw [Job.fadeFaint_counts (j := { j with inStatistics := n, bAuto := b, wAuto := w }) h hn, Job.fadeFaint_counts h hn]
    · rw [Job.fadeFaint_open (j := { j with inStatistics := n, bAuto := b, wAuto := w }) h, Job.fadeFaint_open h]
      cases j.openBand <;> rfl
  cases faint with
  | false => rw [Job.fade_bright, Job.fade_bright]; rfl
  | true =>
    cases last with
    | false => exact hfaint
    | true => exact congrArg Job.fadeClose hfaint

/-! ## The void detector (R135) -/

theorem Job.voidRun_edge (h : 0 < edges) : j.voidRun i edges = { j with voidCounter := j.settings.voidLimit, openVoid := .closed } :=
  if_pos h
theorem Job.voidRun_open (h : edges = 0) (hv : j.voidCounter = 0) : j.voidRun i edges = j.lengthen j.openVoid :=
  (if_neg (by omega)).trans (if_pos hv)
theorem Job.voidRun_counts (h : edges = 0) (hv : 2 ≤ j.voidCounter) :
    j.voidRun i edges = { j with voidCounter := j.voidCounter - 1 } :=
  (if_neg (by omega)).trans ((if_neg (by omega)).trans (if_neg (by show j.voidCounter - 1 ≠ 0; omega)))
theorem Job.voidRun_opens (h : edges = 0) (hv : j.voidCounter = 1) (hl : j.defects.length < 8) :
    j.voidRun i edges = { j with
      voidCounter := 0, openVoid := .kept j.defects.length
      defects := j.defects ++ [⟨.voidRun, i + 1 - j.settings.voidLimit, j.settings.voidLimit⟩] } := by
  refine (if_neg (by omega)).trans ((if_neg (by omega)).trans ((if_pos (by show j.voidCounter - 1 = 0; omega)).trans ?_))
  rw [Job.keepDefect_room (j := { j with voidCounter := j.voidCounter - 1 }) hl, hv]
theorem Job.voidRun_full (h : edges = 0) (hv : j.voidCounter = 1) (hl : 8 ≤ j.defects.length) :
    j.voidRun i edges = { j with voidCounter := 0, openVoid := .notKept, defectsOverflow := true } := by
  refine (if_neg (by omega)).trans ((if_neg (by omega)).trans ((if_pos (by show j.voidCounter - 1 = 0; omega)).trans ?_))
  rw [Job.keepDefect_full (j := { j with voidCounter := j.voidCounter - 1 }) hl, hv]

/-- The five ways in which the void detector takes a tile. -/
theorem Job.voidRun_cases (i edges : Nat) (j : Job) :
    (j.voidRun i edges = { j with voidCounter := j.settings.voidLimit, openVoid := .closed }) ∨
    (j.voidRun i edges = j.lengthen j.openVoid) ∨ (j.voidRun i edges = { j with voidCounter := j.voidCounter - 1 }) ∨
    (j.defects.length < 8 ∧ j.voidRun i edges = { j with
      voidCounter := 0, openVoid := .kept j.defects.length
      defects := j.defects ++ [⟨.voidRun, i + 1 - j.settings.voidLimit, j.settings.voidLimit⟩] }) ∨
    (8 ≤ j.defects.length ∧ j.voidRun i edges = { j with voidCounter := 0, openVoid := .notKept, defectsOverflow := true }) := by
  by_cases h : 0 < edges
  · exact .inl (Job.voidRun_edge h)
  · have h : edges = 0 := by omega
    by_cases h0 : j.voidCounter = 0
    · exact .inr (.inl (Job.voidRun_open h h0))
    · by_cases h1 : j.voidCounter = 1
      · by_cases hl : j.defects.length < 8
        · exact .inr (.inr (.inr (.inl ⟨hl, Job.voidRun_opens h h1 hl⟩)))
        · exact .inr (.inr (.inr (.inr ⟨Nat.le_of_not_lt hl, Job.voidRun_full h h1 (Nat.le_of_not_lt hl)⟩)))
      · exact .inr (.inr (.inl (Job.voidRun_counts h (by omega))))

/-- The void detector changes its own state and the defects. -/
theorem Job.voidRun_kept (i edges : Nat) (j : Job) : j.voidRun i edges = { j with
    voidCounter := (j.voidRun i edges).voidCounter, openVoid := (j.voidRun i edges).openVoid
    defects := (j.voidRun i edges).defects, defectsOverflow := (j.voidRun i edges).defectsOverflow } := by
  rcases j.voidRun_cases i edges with h | h | h | ⟨-, h⟩ | ⟨-, h⟩
  · rw [h]
  · rw [h]
    cases j.openVoid <;> rfl
  all_goals rw [h]

theorem Job.voidRun_defect (h : j.defects[p]? = some d) (ho : j.openVoid ≠ .kept p) (i edges : Nat) :
    (j.voidRun i edges).defects[p]? = some d := by
  rcases j.voidRun_cases i edges with he | he | he | ⟨-, he⟩ | ⟨-, he⟩
  · rw [he]; exact h
  · rw [he, Job.lengthen_other ho]; exact h
  · rw [he]; exact h
  · rw [he]; exact List.getElem?_append_left (List.getElem?_eq_some_iff.mp h).1 |>.trans h
  · rw [he]; exact h

/-- A full list stays full, and a defect past it stays marked. -/
theorem Job.voidRun_overflowed (hl : 8 ≤ j.defects.length) (i edges : Nat) :
    (j.voidRun i edges).defects.length = j.defects.length ∧
      (j.defectsOverflow = true → (j.voidRun i edges).defectsOverflow = true) := by
  rcases j.voidRun_cases i edges with he | he | he | ⟨hroom, -⟩ | ⟨-, he⟩
  · rw [he]; exact ⟨rfl, fun h => h⟩
  · rw [he]
    exact ⟨Job.lengthen_length _ _, fun h => by rw [Job.lengthen_kept]; exact h⟩
  · rw [he]; exact ⟨rfl, fun h => h⟩
  · omega
  · rw [he]; exact ⟨rfl, fun _ => rfl⟩

theorem Job.lengthen_figures (o : OpenDefect) (j : Job) (n b w : Nat) :
    ({ j with inStatistics := n, bAuto := b, wAuto := w } : Job).lengthen o =
      { j.lengthen o with inStatistics := n, bAuto := b, wAuto := w } := by cases o <;> rfl

theorem Job.voidRun_figures (i edges : Nat) (j : Job) (n b w : Nat) :
    ({ j with inStatistics := n, bAuto := b, wAuto := w } : Job).voidRun i edges =
      { j.voidRun i edges with inStatistics := n, bAuto := b, wAuto := w } := by
  by_cases h : 0 < edges
  · rw [Job.voidRun_edge (j := { j with inStatistics := n, bAuto := b, wAuto := w }) h, Job.voidRun_edge h]
  · have h : edges = 0 := by omega
    by_cases h0 : j.voidCounter = 0
    · rw [Job.voidRun_open (j := { j with inStatistics := n, bAuto := b, wAuto := w }) h h0, Job.voidRun_open h h0]
      exact Job.lengthen_figures _ _ _ _ _
    · by_cases h1 : j.voidCounter = 1
      · by_cases hl : j.defects.length < 8
        · rw [Job.voidRun_opens (j := { j with inStatistics := n, bAuto := b, wAuto := w }) h h1 hl, Job.voidRun_opens h h1 hl]
        · have hl := Nat.le_of_not_lt hl
          rw [Job.voidRun_full (j := { j with inStatistics := n, bAuto := b, wAuto := w }) h h1 hl, Job.voidRun_full h h1 hl]
      · rw [Job.voidRun_counts (j := { j with inStatistics := n, bAuto := b, wAuto := w }) h (by show 2 ≤ j.voidCounter; omega),
          Job.voidRun_counts h (by omega)]

/-! ## A tile of the survey (R132, R133) -/

/-- The tile is faint: it is damaged, or its range is below the contrast floor. -/
def Job.faintTile (f : Option TileFigures) (j : Job) : Bool := f.all fun q => decide (q.high - q.low < j.settings.contrast)

/-- The job after both detectors have taken a tile. -/
def Job.detected (width i : Nat) (f : Option TileFigures) (j : Job) : Job :=
  (j.fade i (j.faintTile f) (decide ((i + 1) % width = 0))).voidRun i ((f.map (·.edges)).getD 0)

/-- The page figures with a tile that is not damaged. -/
def Job.figured (f : Option TileFigures) (j : Job) : Job :=
  match f with
  | some q => { j with
      inStatistics := j.inStatistics + 1, bAuto := if j.inStatistics = 0 then q.low else min j.bAuto q.low
      wAuto := if j.inStatistics = 0 then q.mean else max j.wAuto q.mean }
  | none => j

theorem Job.statistics_figured (q : TileFigures) (j : Job) : j.statistics q = j.figured (some q) := by
  unfold Job.statistics Job.figured
  by_cases h : j.inStatistics = 0
  · simp only [h, if_true]
  · simp only [h, if_false]

theorem Job.detected_kept (width i : Nat) (f : Option TileFigures) (j : Job) : j.detected width i f = { j with
    fadeCounter := (j.detected width i f).fadeCounter, voidCounter := (j.detected width i f).voidCounter
    openBand := (j.detected width i f).openBand, openVoid := (j.detected width i f).openVoid
    defects := (j.detected width i f).defects, defectsOverflow := (j.detected width i f).defectsOverflow } := by
  obtain ⟨g, hg⟩ : ∃ g, g = j.fade i (j.faintTile f) (decide ((i + 1) % width = 0)) := ⟨_, rfl⟩
  have hfade := j.fade_kept i (j.faintTile f) (decide ((i + 1) % width = 0))
  rw [← hg] at hfade
  obtain ⟨e, he⟩ : ∃ e, e = (f.map (·.edges)).getD 0 := ⟨_, rfl⟩
  have hvoid := g.voidRun_kept i e
  unfold Job.detected
  rw [← hg, ← he]
  have hband : (g.voidRun i e).openBand = g.openBand := (congrArg Job.openBand hvoid).trans rfl
  have hcounter : (g.voidRun i e).fadeCounter = g.fadeCounter := (congrArg Job.fadeCounter hvoid).trans rfl
  rw [hband, hcounter]
  exact hvoid.trans (congrArg (fun y : Job => { y with
    voidCounter := (g.voidRun i e).voidCounter, openVoid := (g.voidRun i e).openVoid
    defects := (g.voidRun i e).defects, defectsOverflow := (g.voidRun i e).defectsOverflow }) hfade)

theorem Job.surveyTile_eq (width i : Nat) (f : Option TileFigures) (j : Job) : j.surveyTile width i f = { j with
    fadeCounter := (j.detected width i f).fadeCounter, voidCounter := (j.detected width i f).voidCounter
    openBand := (j.detected width i f).openBand, openVoid := (j.detected width i f).openVoid
    defects := (j.detected width i f).defects, defectsOverflow := (j.detected width i f).defectsOverflow
    inStatistics := (j.figured f).inStatistics, bAuto := (j.figured f).bAuto, wAuto := (j.figured f).wAuto
    surveyed := j.surveyed + 1, faint := if j.faintTile f then j.faint + 1 else j.faint } := by
  have hkept := j.detected_kept width i f
  cases f with
  | none => exact congrArg (fun y : Job => { y with surveyed := y.surveyed + 1, faint := y.faint + 1 }) hkept
  | some q =>
    have htile : j.surveyTile width i (some q) = { ((j.statistics q).fade i (j.faintTile (some q)) (decide ((i + 1) % width = 0))).voidRun
        i q.edges with
      surveyed := (((j.statistics q).fade i (j.faintTile (some q)) (decide ((i + 1) % width = 0))).voidRun i q.edges).surveyed + 1
      faint := if j.faintTile (some q) then
          (((j.statistics q).fade i (j.faintTile (some q)) (decide ((i + 1) % width = 0))).voidRun i q.edges).faint + 1
        else (((j.statistics q).fade i (j.faintTile (some q)) (decide ((i + 1) % width = 0))).voidRun i q.edges).faint } := rfl
    rw [htile, Job.statistics_figured, Job.figured, Job.fade_figures, Job.voidRun_figures]
    exact congrArg (fun y : Job => { y with
      inStatistics := j.inStatistics + 1, bAuto := if j.inStatistics = 0 then q.low else min j.bAuto q.low
      wAuto := if j.inStatistics = 0 then q.mean else max j.wAuto q.mean
      surveyed := y.surveyed + 1, faint := if j.faintTile (some q) then y.faint + 1 else y.faint }) hkept

end Sys2Proof.Machine
end

