-- ==== Sys2Proof/Proofs/SurveyReads.lean ====
section
/-! PROOF. The detectors of the survey, tile by tile (chapter 7, R134 to R136). -/

namespace Sys2Proof.Machine

variable {j k : Job} {i p width : Nat} {d : Defect} {f : Option TileFigures} {faint last : Bool} {s : State}

/-! ## What each detector leaves to the other -/

theorem Job.fade_void (i : Nat) (faint last : Bool) (j : Job) : (j.fade i faint last).voidCounter = j.voidCounter ∧
    (j.fade i faint last).openVoid = j.openVoid ∧ (j.fade i faint last).settings = j.settings := by
  have h := j.fade_kept i faint last
  exact ⟨(congrArg Job.voidCounter h).trans rfl, (congrArg Job.openVoid h).trans rfl, (congrArg Job.settings h).trans rfl⟩

theorem Job.detected_fade (width i : Nat) (f : Option TileFigures) (j : Job) :
    (j.detected width i f).fadeCounter = (j.fade i (j.faintTile f) (decide ((i + 1) % width = 0))).fadeCounter ∧
    (j.detected width i f).openBand = (j.fade i (j.faintTile f) (decide ((i + 1) % width = 0))).openBand := by
  have h := (j.fade i (j.faintTile f) (decide ((i + 1) % width = 0))).voidRun_kept i ((f.map (·.edges)).getD 0)
  exact ⟨(congrArg Job.fadeCounter h).trans rfl, (congrArg Job.openBand h).trans rfl⟩

theorem Job.edges_none (h : f = none ∨ ∃ q, f = some q ∧ q.edges = 0) : (f.map (·.edges)).getD 0 = 0 := by
  rcases h with rfl | ⟨q, rfl, hq⟩
  · rfl
  · exact hq

theorem Job.faintTile_of (h : f = none ∨ ∃ q, f = some q ∧ q.high - q.low < j.settings.contrast) : j.faintTile f = true := by
  rcases h with rfl | ⟨q, rfl, hq⟩
  · rfl
  · simp [Job.faintTile, hq]

theorem Job.faintTile_bright {q : TileFigures} (hf : f = some q) (h : j.settings.contrast ≤ q.high - q.low) : j.faintTile f = false := by
  subst hf
  simp [Job.faintTile, h]

/-! ## The void detector at a tile (R135) -/

theorem Job.surveyTile_edge {q : TileFigures} (hk : k = j.surveyTile width i f) (hf : f = some q) (he : 0 < q.edges) :
    k.voidCounter = j.settings.voidLimit ∧ k.openVoid = .closed := by
  obtain ⟨-, -, hsettings⟩ := j.fade_void i (j.faintTile f) (decide ((i + 1) % width = 0))
  subst hk hf
  rw [Job.surveyTile_eq]
  dsimp only
  rw [Job.detected, Option.map_some, Option.getD_some, Job.voidRun_edge he, hsettings]
  exact ⟨rfl, rfl⟩

theorem Job.surveyTile_voidCounts (hk : k = j.surveyTile width i f) (he : f = none ∨ ∃ q, f = some q ∧ q.edges = 0)
    (hv : 2 ≤ j.voidCounter) : k.voidCounter = j.voidCounter - 1 ∧ k.openVoid = j.openVoid := by
  obtain ⟨hcounter, hopen, -⟩ := j.fade_void i (j.faintTile f) (decide ((i + 1) % width = 0))
  subst hk
  rw [Job.surveyTile_eq]
  dsimp only
  rw [Job.detected, Job.voidRun_counts (Job.edges_none he) (by rw [hcounter]; exact hv), hcounter, hopen]
  exact ⟨rfl, rfl⟩

theorem Job.surveyTile_voidOpens {ds : List Defect} (hk : k = j.surveyTile width i f) (he : f = none ∨ ∃ q, f = some q ∧ q.edges = 0)
    (hv : j.voidCounter = 1) (hds : ds = (j.fade i (j.faintTile f) (decide ((i + 1) % width = 0))).defects) :
    k.voidCounter = 0 ∧
      (ds.length < 8 → k.openVoid = .kept ds.length ∧
        k.defects = ds ++ [⟨.voidRun, i + 1 - j.settings.voidLimit, j.settings.voidLimit⟩]) ∧
      (8 ≤ ds.length → k.openVoid = .notKept ∧ k.defects = ds ∧ k.defectsOverflow = true) := by
  obtain ⟨hcounter, -, hsettings⟩ := j.fade_void i (j.faintTile f) (decide ((i + 1) % width = 0))
  subst hk hds
  rw [Job.surveyTile_eq]
  dsimp only
  by_cases hl : (j.fade i (j.faintTile f) (decide ((i + 1) % width = 0))).defects.length < 8
  · rw [Job.detected, Job.voidRun_opens (Job.edges_none he) (hcounter.trans hv) hl, hsettings]
    exact ⟨rfl, fun _ => ⟨rfl, rfl⟩, fun hfull => absurd hl (Nat.not_lt.mpr hfull)⟩
  · rw [Job.detected, Job.voidRun_full (Job.edges_none he) (hcounter.trans hv) (Nat.le_of_not_lt hl)]
    exact ⟨rfl, fun hroom => absurd hroom hl, fun _ => ⟨rfl, rfl, rfl⟩⟩

theorem Job.surveyTile_voidOpen (hk : k = j.surveyTile width i f) (he : f = none ∨ ∃ q, f = some q ∧ q.edges = 0)
    (hv : j.voidCounter = 0) : k.voidCounter = 0 ∧ k.openVoid = j.openVoid ∧
      ∀ p d, j.openVoid = .kept p → j.defects[p]? = some d → j.openBand ≠ .kept p →
        k.defects[p]? = some { d with length := d.length + 1 } := by
  obtain ⟨hcounter, hopen, -⟩ := j.fade_void i (j.faintTile f) (decide ((i + 1) % width = 0))
  subst hk
  rw [Job.surveyTile_eq]
  dsimp only
  rw [Job.detected, Job.voidRun_open (Job.edges_none he) (hcounter.trans hv), hopen]
  refine ⟨?_, ?_, fun p d hp hd hb => ?_⟩
  · rw [Job.lengthen_kept]; exact hcounter.trans hv
  · rw [Job.lengthen_kept]; exact hopen
  · rw [hp]
    exact Job.lengthen_same (Job.fade_defect hd hb _ _ _)

/-! ## The fade detector at a tile (R134) -/

theorem Job.surveyTile_fades (hk : k = j.surveyTile width i f)
    (hc : j.fade i (j.faintTile f) (decide ((i + 1) % width = 0)) = (j.fade i (j.faintTile f) (decide ((i + 1) % width = 0))).fadeClose) :
    k.fadeCounter = 0 ∧ k.openBand = .closed := by
  obtain ⟨hcounter, hopen⟩ := j.detected_fade width i f
  subst hk
  rw [Job.surveyTile_eq]
  dsimp only
  rw [hcounter, hopen, hc]
  exact ⟨rfl, rfl⟩

theorem Job.surveyTile_rowEnd (hk : k = j.surveyTile width i f) (hr : (i + 1) % width = 0) :
    k.fadeCounter = 0 ∧ k.openBand = .closed := by
  refine Job.surveyTile_fades hk ?_
  rw [decide_eq_true hr]
  cases j.faintTile f <;> rfl

theorem Job.surveyTile_bright {q : TileFigures} (hk : k = j.surveyTile width i f) (hf : f = some q)
    (h : j.settings.contrast ≤ q.high - q.low) : k.fadeCounter = 0 ∧ k.openBand = .closed := by
  refine Job.surveyTile_fades hk ?_
  rw [Job.faintTile_bright hf h, Job.fade_bright]
  rfl

theorem Job.surveyTile_faint (hk : k = j.surveyTile width i f) (hr : (i + 1) % width ≠ 0)
    (h : f = none ∨ ∃ q, f = some q ∧ q.high - q.low < j.settings.contrast) :
    k.fadeCounter = j.fadeCounter + 1 ∧
      (j.openBand ≠ .closed → k.openBand = j.openBand) ∧
      (j.openBand = .closed → j.fadeCounter + 1 = j.settings.fadeRun →
        (j.defects.length < 8 → k.openBand = .kept j.defects.length) ∧ (8 ≤ j.defects.length → k.openBand = .notKept)) ∧
      (j.openBand = .closed → j.fadeCounter + 1 ≠ j.settings.fadeRun → k.openBand = .closed) := by
  obtain ⟨hcounter, hopen⟩ := j.detected_fade width i f
  subst hk
  rw [Job.surveyTile_eq]
  dsimp only
  rw [hcounter, hopen, Job.faintTile_of h, decide_eq_false hr, Job.fade_faint]
  refine ⟨j.fadeFaint_counter i, fun hb => ?_, fun hb hn => ⟨fun hl => ?_, fun hl => ?_⟩, fun hb hn => ?_⟩
  · rw [Job.fadeFaint_open hb, Job.lengthen_kept]
  · rw [Job.fadeFaint_opens hb hn hl]
  · rw [Job.fadeFaint_full hb hn hl]
  · rw [Job.fadeFaint_counts hb hn]
    exact hb

theorem Job.surveyTile_defects (hk : k = j.surveyTile width i f)
    (h : f = none ∨ ∃ q, f = some q ∧ q.high - q.low < j.settings.contrast) :
    (∀ p d, j.openBand = .kept p → j.defects[p]? = some d → j.openVoid ≠ .kept p →
      k.defects[p]? = some { d with length := d.length + 1 }) ∧
    (j.openBand = .closed → j.fadeCounter + 1 = j.settings.fadeRun →
      (j.defects.length < 8 → j.openVoid ≠ .kept j.defects.length → k.defects[j.defects.length]? =
        some ⟨.fadedBand, i + 1 - j.settings.fadeRun, j.settings.fadeRun⟩) ∧
      (8 ≤ j.defects.length → k.defectsOverflow = true ∧ k.defects.length = j.defects.length)) := by
  obtain ⟨-, hvoid, -⟩ := j.fade_void i (j.faintTile f) (decide ((i + 1) % width = 0))
  obtain ⟨hlist, hover⟩ := j.fade_defects i (decide ((i + 1) % width = 0))
  rw [Job.faintTile_of h] at hvoid
  subst hk
  rw [Job.surveyTile_eq]
  dsimp only
  rw [Job.detected, Job.faintTile_of h]
  refine ⟨fun p d hp hd hv => ?_, fun hb hn => ⟨fun hl hv => ?_, fun hl => ?_⟩⟩
  · refine Job.voidRun_defect ?_ (by rw [hvoid]; exact hv) _ _
    rw [hlist, Job.fadeFaint_open (by rw [hp]; simp), hp]
    exact Job.lengthen_same hd
  · refine Job.voidRun_defect ?_ (by rw [hvoid]; exact hv) _ _
    rw [hlist, Job.fadeFaint_opens hb hn hl]
    simp
  · have hfull := Job.fadeFaint_full (i := i) hb hn hl
    obtain ⟨hlength, hmark⟩ := Job.voidRun_overflowed (j := j.fade i true (decide ((i + 1) % width = 0)))
      (by rw [hlist, hfull]; exact hl) i ((f.map (·.edges)).getD 0)
    refine ⟨hmark (by rw [hover, hfull]), hlength.trans ?_⟩
    rw [hlist, hfull]

/-! ## A survey read completes (R131, R132, R137, R138) -/

/-- The tile joins the survey, and the boundary decides how the job goes on. -/
theorem State.surveyArrives_takes {rest : List Job} {v : Revision} {x : Tile} {bad : Bool} (hv : s.cat.revision j.revision = some v)
    (ho : v.damage.overflow = false) (hq : s.engine.queue = j :: rest) (hne : ∀ y ∈ rest, y.id ≠ j.id)
    (hk : k = j.surveyTile v.width j.surveyed (if (bad || v.damage.entries.contains ⟨j.surveyed, .raw⟩) = true then none
      else some (measureTile j.settings.edge x))) :
    s.surveyArrives x bad j v = ({ s with engine := { s.engine with queue := k :: rest } } : State).atBoundary k fun w =>
      (if k.surveyed = v.tiles then w.modEngine (·.modJob j.id Job.fixTones) else w).engineRead := by
  unfold State.surveyArrives
  rw [State.afterRawRead_goes hv ho]
  dsimp only
  rw [State.rawDamaged_of hv, ← hk]
  have hmod : (s.modEngine (·.modJob j.id fun _ => k)) = { s with engine := { s.engine with queue := k :: rest } } :=
    congrArg (fun g => ({ s with engine := g } : State)) (Engine.modJob_head hq hne)
  exact congrArg (fun w : State => w.atBoundary k fun w =>
    (if k.surveyed = v.tiles then w.modEngine (·.modJob j.id Job.fixTones) else w).engineRead) hmod

/-- The damage list as the read of a tile leaves it decides whether the tile is damaged. -/
theorem damaged_iff {v : Revision} {x : Tile} {i : Nat} {l : DamageList} (hgood : checkBytes x.bytes = x.check → l = v.damage) :
    ((decide (checkBytes x.bytes ≠ x.check) || l.entries.contains ⟨i, .raw⟩) = true) ↔
      (checkBytes x.bytes ≠ x.check ∨ ⟨i, .raw⟩ ∈ v.damage.entries) := by
  by_cases hd : checkBytes x.bytes = x.check
  · simp [hd, hgood hd]
  · simp [hd]

/-- The survey takes one tile more and keeps the job's identity. -/
theorem Job.surveyTile_surveyed (hk : k = j.surveyTile width i f) : k.surveyed = j.surveyed + 1 ∧ k.id = j.id ∧
    k.revision = j.revision ∧ k.settings = j.settings ∧ k.scratch = j.scratch ∧ k.cancel = j.cancel ∧ k.state = j.state := by
  rw [hk, Job.surveyTile_eq]
  exact ⟨rfl, rfl, rfl, rfl, rfl, rfl, rfl⟩

/-- The page figures after a tile (R133). -/
theorem Job.surveyTile_figures {bad : Bool} {q : TileFigures} (hk : k = j.surveyTile width i (if bad then none else some q)) :
    k.inStatistics = (if bad then j.inStatistics else j.inStatistics + 1) ∧
      (bad = true → k.bAuto = j.bAuto ∧ k.wAuto = j.wAuto ∧ k.faint = j.faint + 1) ∧
      (bad = false → k.bAuto = (if j.inStatistics = 0 then q.low else min j.bAuto q.low) ∧
        k.wAuto = (if j.inStatistics = 0 then q.mean else max j.wAuto q.mean) ∧
        k.faint = if q.high - q.low < j.settings.contrast then j.faint + 1 else j.faint) := by
  rw [hk, Job.surveyTile_eq]
  cases bad with
  | true => exact ⟨rfl, fun _ => ⟨rfl, rfl, rfl⟩, fun h => absurd h (by simp)⟩
  | false => refine ⟨rfl, fun h => absurd h (by simp), fun _ => ⟨rfl, rfl, ?_⟩⟩; simp [Job.faintTile]

/-- The tone values are fixed at the end of the survey (R138). -/
theorem Job.fixTones_eq (j : Job) : j.fixTones = { j with
    state := .correcting, openVoid := .closed, corrected := 0, changed := 0, blanked := 0
    tone := some (if j.sourceTone.w - j.sourceTone.b < 16 then ⟨0, 255, j.sourceTone.s⟩ else j.sourceTone)
    lowRange := decide (j.sourceTone.w - j.sourceTone.b < 16) } := by
  unfold Job.fixTones Tone.narrow
  by_cases h : j.sourceTone.w - j.sourceTone.b < 16 <;> simp only [h, decide_true, decide_false, if_true, if_false, Bool.false_eq_true]

/-- The job after its tile: at the last one it is CORRECTING. -/
def Job.surveyedOn (tiles : Nat) (k : Job) : Job := if k.surveyed = tiles then k.fixTones else k

theorem Job.surveyedOn_kept (tiles : Nat) (k : Job) : (k.surveyedOn tiles).id = k.id ∧ (k.surveyedOn tiles).revision = k.revision := by
  unfold Job.surveyedOn
  split <;> exact ⟨rfl, rfl⟩

/-- With no cancel mark the survey goes on: the next raw tile is asked for. -/
theorem State.surveyArrives_goes {rest : List Job} {v : Revision} {x : Tile} {bad : Bool} {e : Extent}
    (hv : s.cat.revision j.revision = some v) (ho : v.damage.overflow = false) (hq : s.engine.queue = j :: rest)
    (hne : ∀ y ∈ rest, y.id ≠ j.id) (hj : j.state = .surveying) (hcancel : j.cancel = none) (he : s.alloc.find v.raw = some e)
    (hm : e.state ≠ .moving) (hw : s.store.outstanding .restoration = false)
    (hk : k = j.surveyTile v.width j.surveyed (if (bad || v.damage.entries.contains ⟨j.surveyed, .raw⟩) = true then none
      else some (measureTile j.settings.edge x))) :
    s.surveyArrives x bad j v = { s with
      engine := { s.engine with queue := k.surveyedOn v.tiles :: rest }
      store := s.store.ask s.now ⟨.restoration, e.first + (k.surveyedOn v.tiles).nextTile, .read⟩ } := by
  obtain ⟨-, hid, hrevision, -, -, hkept, hstate⟩ := Job.surveyTile_surveyed hk
  let w : State := { s with engine := { s.engine with queue := k.surveyedOn v.tiles :: rest } }
  have hw' : (if k.surveyed = v.tiles then ({ s with engine := { s.engine with queue := k :: rest } } : State).modEngine
      (·.modJob j.id Job.fixTones) else ({ s with engine := { s.engine with queue := k :: rest } } : State)) = w := by
    by_cases hend : k.surveyed = v.tiles
    · have hmod := Engine.modJob_head (g := { s.engine with queue := k :: rest }) (f := Job.fixTones) rfl (by rw [hid]; exact hne)
      rw [hid] at hmod
      simp only [w, Job.surveyedOn, if_pos hend]
      exact congrArg (fun g => ({ s with engine := g } : State)) hmod
    · simp only [w, Job.surveyedOn, if_neg hend]
  have hactive : (k.surveyedOn v.tiles).active = true := by
    unfold Job.surveyedOn
    split
    · rfl
    · exact Job.active_of (.inl (hstate.trans hj))
  rw [State.surveyArrives_takes hv ho hq hne hk, State.atBoundary_goes (hkept.trans hcancel), hw']
  exact State.engineRead_asks (s := w) (v := v) rfl hactive (by rw [(Job.surveyedOn_kept _ _).2, hrevision]; exact hv) he hm hw

/-- Settles O51. -/
theorem surveyReadComplete : Obligations.SurveyReadComplete := by
  unfold Obligations.SurveyReadComplete
  refine ⟨fun slot upset x j rest v s hp hg hs hq hj hne hv hx => ?_, fun final cause refusal j v n x e s t ht hv hact hn hxs hxb he hraw hc => ?_,
    fun slot upset x f bad j rest v e s hp hg hs hq hj hcancel hne hv hover he hm hw hx hroom hf hbad => ?_,
    fun width i f j k hk => ⟨fun q hf he => Job.surveyTile_edge hk hf he, fun he => ⟨fun hv => Job.surveyTile_voidCounts hk he hv,
      fun hv => ?_, fun hv => Job.surveyTile_voidOpen hk he hv⟩, fun hr => Job.surveyTile_rowEnd hk hr,
      fun q hf h => Job.surveyTile_bright hk hf h, fun hr h => Job.surveyTile_faint hk hr h, fun h => Job.surveyTile_defects hk h⟩⟩
  · obtain ⟨u, d, hends, hrev, hgood, hroom, hfull, hexec⟩ := exec_surveyRead hp hg hs hq hj hv hx
    have hengine : u.engine = s.engine := by rw [hends.1]
    have hqueue : u.engine.queue = j :: rest := hengine ▸ hq
    refine ⟨u, hends, fun ho => ?_, fun c k hov hok hcancel hk => ?_⟩
    · have hd : d.overflow = true := by
        by_cases hno : checkBytes x.bytes = x.check ∨ ¬ s.Overflows slot j.revision v.damage
        · rw [hroom hno]
          exact ho.resolve_right fun h => hno.elim h.1 fun hn => hn h.2
        · rw [not_or, not_not] at hno
          exact hfull hno.1 hno.2
      rw [hexec, State.surveyArrives, State.afterRawRead_fails hrev hd]
    · have hsame : k = j.surveyTile v.width j.surveyed
          (if (decide (checkBytes x.bytes ≠ x.check) || d.entries.contains ⟨j.surveyed, .raw⟩) = true then none
            else some (measureTile j.settings.edge x)) := by
        rw [hk, if_congr (damaged_iff hgood) rfl rfl]
      obtain ⟨-, -, -, -, -, hkept, -⟩ := Job.surveyTile_surveyed hk
      rw [hexec, State.surveyArrives_takes hrev ((hroom hok).trans hov) hqueue hne hsame,
        State.atBoundary_cancelled (hkept.trans hcancel), hengine]
  · rw [State.endJob_active (Job.active_of hact) hv hn hxs hxb he hraw hc] at ht
    obtain ⟨hruns, hgone, hread, hkept⟩ := Allocator.withoutJob_spec hxs hxb he hraw
    subst ht
    refine ⟨hruns, hgone, hread, hkept, rfl, fun r hr i hi => OrderBook.downgradeAll_item hr hi,
      fun o i ho => OrderBook.downgradeAll_item_other ho _, OrderBook.downgradeAll_accounts _ _, fun hr src hsrc => ?_,
      fun hd hcause src hsrc => ?_, fun h => ?_, rfl, rfl, rfl, rfl, rfl, rfl⟩
    · have hsales : (s.jobEnded final cause refusal j (s.alloc.withoutJob n v.raw)).sales = (s.raise .itemReady).sales := if_neg hr
      have hraise := State.raise_source_same .itemReady s
      rw [hsales]
      exact (congrArg (Option.map (·.latched)) (hraise.trans (congrArg _ hsrc))).trans rfl
    · have hdesk : (s.jobEnded final cause refusal j (s.alloc.withoutJob n v.raw)).desk = (s.raise .restoreFailed).desk :=
        (if_pos hd).trans (if_neg hcause)
      have hraise := State.raise_source_same .restoreFailed s
      rw [hdesk]
      exact (congrArg (Option.map (·.latched)) (hraise.trans (congrArg _ hsrc))).trans rfl
    · rcases h with h | h
      · exact if_neg (by simp [h])
      · have hif : ∀ b : Bool, (if b = true then if cause = .requested then s.desk else (s.raise .restoreFailed).desk else s.desk) = s.desk :=
          fun b => by cases b <;> simp [h]
        exact hif j.desk
  · obtain ⟨u, d, hends, hrev, hgood, hlist, -, hexec⟩ := exec_surveyRead hp hg hs hq hj hv hx
    obtain ⟨hframe, hstore, -, hdamaged⟩ := hends
    have hengine : u.engine = s.engine := by rw [hframe]
    have hout : u.store.outstanding .restoration = false := by
      rw [hstore]
      simpa [Store.outstanding] using hw
    have hbad' : (decide (checkBytes x.bytes ≠ x.check) || d.entries.contains ⟨j.surveyed, .raw⟩) = bad := by
      rw [Bool.eq_iff_iff, damaged_iff hgood, hbad]
      simp
    obtain ⟨k, hk⟩ : ∃ k, k = j.surveyTile v.width j.surveyed (if bad then none else some f) := ⟨_, rfl⟩
    obtain ⟨hsurveyed, hid, hrevision, hsettings, hscratch, -, hstate⟩ := Job.surveyTile_surveyed hk
    obtain ⟨hcount, hbadfig, hgoodfig⟩ := Job.surveyTile_figures hk
    have hgoes := State.surveyArrives_goes (x := x) (bad := decide (checkBytes x.bytes ≠ x.check)) (k := k) (e := e) hrev
      ((hlist hroom).trans hover) (hengine ▸ hq) hne hj hcancel (by rw [hframe]; exact he) hm hout (by rw [hbad', ← hf]; exact hk)
    obtain ⟨t, ht⟩ : ∃ t, t = u.surveyArrives x (decide (checkBytes x.bytes ≠ x.check)) j { v with damage := d } := ⟨_, rfl⟩
    rw [← ht] at hexec hgoes
    have htstore : t.store = u.store.ask u.now ⟨.restoration, e.first + (k.surveyedOn (v.width * v.height)).nextTile, .read⟩ := by
      rw [hgoes]; rfl
    have htengine : t.engine = { s.engine with queue := k.surveyedOn (v.width * v.height) :: rest } := by
      rw [hgoes, ← hengine]; rfl
    have hwaiting : t.store.waiting = s.store.waiting ++
        [⟨.restoration, e.first + (k.surveyedOn (v.width * v.height)).nextTile, .read⟩] := by
      rw [htstore, Store.ask_waiting, hstore]
    refine ⟨t, k, hexec, hk, hsurveyed, hid, hrevision, hsettings, hscratch, hcount, hbadfig, hgoodfig, ?_, ?_, ?_, ?_, ?_, ?_, ?_,
      fun hd => ?_, fun hmore => ?_, fun hend => ⟨_, rfl, ?_, ?_⟩⟩
    · rw [htstore, Store.ask_mem, hstore]
    · rw [hgoes, hframe]
    · rw [hgoes, hframe]
    · rw [hgoes, hframe]
    · rw [hgoes, hframe]
    · rw [hgoes, hframe]
    · rw [hgoes, hframe]
    · refine State.DamageRecorded.of_after (u := u) ?_ ?_ ?_ ?_ (hdamaged hd).1
      · rw [htstore, Store.ask_damagedReads]
      · rw [htstore, Store.ask_lastDamage]
      · rw [hgoes]
      · rw [hgoes]
    · have hon : k.surveyedOn (v.width * v.height) = k := if_neg hmore
      rw [htengine, hwaiting, hon, Job.nextTile, if_pos (hstate.trans hj), hsurveyed]
      exact ⟨rfl, rfl⟩
    · have hon : k.surveyedOn (v.width * v.height) = k.fixTones := if_pos hend
      rw [htengine, hon, Job.fixTones_eq]
      unfold Job.sourceTone
      rfl
    · have hon : k.surveyedOn (v.width * v.height) = k.fixTones := if_pos hend
      rw [hwaiting, hon]
      rfl
  · exact ⟨(Job.surveyTile_voidOpens hk he hv rfl).1, _, rfl, (Job.surveyTile_voidOpens hk he hv rfl).2⟩

end Sys2Proof.Machine
end

