-- ==== Sys2Proof/Proofs/Publishes.lean ====
section
/-! PROOF. The correction pass: its reads, its writes and the publish of a rendition (chapter 7, R139 to R143). -/

namespace Sys2Proof.Machine

variable {s t u : State} {j : Job} {rest : List Job} {v : Revision} {slot n : Nat} {x : Tile}

/-! ## A correction read completes (R140) -/

theorem exec_correctionRead {upset : List Upset} (hp : s.power = .running) (hg : s.store.inFlight = some ⟨.restoration, slot, .read⟩)
    (hs : slot < s.store.slotCount) (hq : s.engine.queue = j :: rest) (hj : j.state = .correcting)
    (hv : s.cat.revision j.revision = some v) (hx : x = Memory.readSlot (Memory.upset s.store.mem slot upset) slot) :
    ∃ (u : State) (d : DamageList), s.RawReadEnds slot (Memory.upset s.store.mem slot upset) x u ∧
      u.cat.revision j.revision = some { v with damage := d } ∧ (checkBytes x.bytes = x.check → d = v.damage) ∧
      (checkBytes x.bytes = x.check ∨ ¬ s.Overflows slot j.revision v.damage → d.overflow = v.damage.overflow) ∧
      (checkBytes x.bytes ≠ x.check → s.Overflows slot j.revision v.damage → d.overflow = true) ∧
      exec (.correctionReadComplete upset) s = .next (u.correctionArrives x (decide (checkBytes x.bytes ≠ x.check)) j).settle := by
  obtain ⟨htile, hbad, hends⟩ := State.rawReadEnds (s := s) upset hx
  obtain ⟨d, hrev, hgood, hroom, hover⟩ := hends.revision hv
  refine ⟨_, d, hends, hrev, hgood, hroom, hover, ?_⟩
  have hmine : s.isEngine true .correcting ⟨.restoration, slot, .read⟩ = true := by
    simp [State.isEngine, State.jobIn_of hq hj (.inr rfl) hv]
  show execCorrectionReadComplete upset s = _
  rw [execCorrectionReadComplete, whenCompletes_of hp hg hmine hs]
  have hqueue : ((s.modStore (Store.complete ⟨.restoration, slot, .read⟩)).readTile slot upset .restoration).2.2.engine.queue =
    j :: rest := by rw [hends.1]; exact hq
  dsimp only
  rw [State.jobIn_of hqueue hj (.inr rfl) hrev, htile, hbad]

/-- A read, or the list before it, that sets DAMAGE_OVERFLOW. -/
theorem overflow_of_read {d : DamageList} {full : Prop} {good : Prop} (hroom : good ∨ ¬ full → d.overflow = v.damage.overflow)
    (hfull : ¬ good → full → d.overflow = true) (h : v.damage.overflow = true ∨ ¬ good ∧ full) : d.overflow = true := by
  by_cases hno : good ∨ ¬ full
  · exact (hroom hno).trans (h.resolve_right fun hb => hno.elim hb.1 fun hn => hn hb.2)
  · rw [not_or, not_not] at hno
    exact hfull hno.1 hno.2

/-- What the correction makes of a tile. -/
def Job.correctedTile (bad : Bool) (tone : Tone) (bytes : List Byte) : List Byte :=
  if bad then List.replicate 4096 255 else bytes.map fun b => BitVec.ofNat 8 (tone.map b.toNat)

theorem Job.correct_eq {bad : Bool} {tone : Tone} {bytes : List Byte} (ht : j.tone = some tone) : j.correct bad bytes =
    (Job.correctedTile bad tone bytes, { j with
      blanked := if bad then j.blanked + 1 else j.blanked
      changed := if bad = false ∧ Job.correctedTile bad tone bytes ≠ bytes then j.changed + 1 else j.changed }) := by
  have htone : j.tone.getD ⟨0, 255, 8⟩ = tone := by rw [ht]; rfl
  unfold Job.correct
  rw [htone]
  cases bad with
  | true => rfl
  | false =>
    by_cases h : bytes.map (fun b => BitVec.ofNat 8 (tone.map b.toNat)) = bytes
    · simp [Job.correctedTile, Tone.mapTile, h]
    · simp [Job.correctedTile, Tone.mapTile, h]

/-- With no cancel mark the corrected tile is to be written to the scratch extent. -/
theorem State.correctionArrives_goes {y : Extent} {bad damaged : Bool} {tone : Tone} (hv : s.cat.revision j.revision = some v)
    (ho : v.damage.overflow = false) (hcancel : j.cancel = none) (hn : j.scratch = some n) (hy : s.alloc.find n = some y)
    (ht : j.tone = some tone) (hq : s.engine.queue = j :: rest) (hne : ∀ y ∈ rest, y.id ≠ j.id)
    (hbad : (damaged || v.damage.entries.contains ⟨j.corrected, .raw⟩) = bad) :
    s.correctionArrives x damaged j = { s with
      engine := { s.engine with queue := (j.correct bad x.bytes).2 :: rest }
      store := s.store.ask s.now ⟨.restoration, y.first + j.corrected, .write (Job.correctedTile bad tone x.bytes) none⟩ } := by
  unfold State.correctionArrives
  rw [State.afterRawRead_goes hv ho, State.atBoundary_goes hcancel, hn, Option.bind_some, hy]
  dsimp only
  rw [State.rawDamaged_of hv, hbad, Job.correct_eq ht]
  have hmod := Engine.modJob_head (f := fun _ => (j.correct bad x.bytes).2) hq hne
  rw [Job.correct_eq ht] at hmod
  exact congrArg (fun g => ({ s with
    engine := g
    store := s.store.ask s.now ⟨.restoration, y.first + j.corrected, .write (Job.correctedTile bad tone x.bytes) none⟩ } : State)) hmod

/-! ## A correction write completes (R140, R143) -/

/-- The state after a write of the correction, with the tile counted. -/
def State.correctionStored (s : State) (slot : Nat) (bytes : List Byte) (j : Job) (rest : List Job) : State :=
  { s with
    store := s.store.complete ⟨.restoration, slot, .write bytes none⟩
    engine := { s.engine with queue := { j with corrected := j.corrected + 1 } :: rest } }

/-- How a job without a cancel mark goes on after a write: it publishes after the last tile, or reads the next one. -/
def State.correctionGoes (j : Job) (v : Revision) (w : State) : State :=
  if j.corrected = v.width * v.height then
    match j.scratch with
    | some n => w.publish cutOffDeliveries j n
    | none => w
  else w.engineRead

theorem exec_correctionWrite {bytes : List Byte} (hp : s.power = .running)
    (hg : s.store.inFlight = some ⟨.restoration, slot, .write bytes none⟩) (hs : slot < s.store.slotCount)
    (hq : s.engine.queue = j :: rest) (hj : j.state = .correcting) (hne : ∀ y ∈ rest, y.id ≠ j.id)
    (hv : s.cat.revision j.revision = some v) : exec .correctionWriteComplete s =
      .next ((s.correctionStored slot bytes j rest).atBoundary { j with corrected := j.corrected + 1 }
        (State.correctionGoes { j with corrected := j.corrected + 1 } v)).settle := by
  have hmine : s.isEngine false .correcting ⟨.restoration, slot, .write bytes none⟩ = true := by
    simp [State.isEngine, State.jobIn_of hq hj (.inr rfl) hv]
  show execCorrectionWriteComplete s = _
  rw [execCorrectionWriteComplete, whenCompletes_of hp hg hmine hs]
  rw [State.jobIn_of (s := s.modStore (Store.complete ⟨.restoration, slot, .write bytes none⟩)) hq hj (.inr rfl) hv]
  have hmod := Engine.modJob_head (f := fun _ => { j with corrected := j.corrected + 1 }) hq hne
  have hwritten : ((s.modStore (Store.complete ⟨.restoration, slot, .write bytes none⟩)).modEngine
      (·.modJob j.id fun _ => { j with corrected := j.corrected + 1 })) = s.correctionStored slot bytes j rest :=
    congrArg (fun g => ({ s with store := s.store.complete ⟨.restoration, slot, .write bytes none⟩, engine := g } : State)) hmod
  exact congrArg (fun w : State => Host.Outcome.next (State.settle (w.atBoundary { j with corrected := j.corrected + 1 }
    (State.correctionGoes { j with corrected := j.corrected + 1 } v)))) hwritten

theorem Memory.readSlot_corrected {bytes : List Byte} (hlen : bytes.length = 4096) (m : List Host.Cell) (slot : Nat) :
    Memory.readSlot (Memory.writeSlot m slot (writtenTile bytes none)) slot = ⟨bytes, checkBytes bytes⟩ := by
  have hfit : fitTile bytes = bytes := by
    have : tileBytes = 4096 := rfl
    simp [fitTile, this, hlen, List.take_of_length_le]
  rw [Memory.readSlot_writeSlot]
  simp only [writtenTile, hfit]

/-! ## A publish (R141) -/

/-- A reader's end while no edition is RETIRING changes the record of its extent and the free runs at most. -/
theorem State.readerEnd_quiet (h : ∀ e ∈ s.cat.editions, e.state ≠ .retiring) :
    s.readerEnd n = { s with alloc := (s.readerEnd n).alloc } ∧ ∀ m, m ≠ n → (s.readerEnd n).alloc.find m = s.alloc.find m := by
  have hkept : ∀ m, m ≠ n → (s.alloc.modExtent n fun e => { e with readers := e.readers - 1 }).find m = s.alloc.find m :=
    fun m hm => Allocator.find_modExtent_other _ _ _ _ (by intro _; rfl) hm
  have hcheck : ∀ ed, (s.modAlloc (·.modExtent n fun e => { e with readers := e.readers - 1 })).retireCheck ed =
      s.modAlloc (·.modExtent n fun e => { e with readers := e.readers - 1 }) := fun ed =>
    State.retireCheck_other fun x hx => h x (List.mem_of_find?_eq_some hx)
  unfold State.readerEnd
  split
  · exact ⟨rfl, fun _ _ => rfl⟩
  dsimp only
  split
  · exact ⟨rfl, hkept⟩
  split
  · exact ⟨rfl, fun m hm => ((Allocator.find_giveBack _ _).2 m hm).trans (hkept m hm)⟩
  · split
    · rw [hcheck]; exact ⟨rfl, hkept⟩
    · exact ⟨rfl, hkept⟩
  · split
    · exact ⟨rfl, hkept⟩
    · split
      · rw [hcheck]; exact ⟨rfl, hkept⟩
      · exact ⟨rfl, hkept⟩
  · exact ⟨rfl, hkept⟩

/-- The allocator with the scratch extent `n` LIVE and the rendition before it, `old`, released (R141 steps 1 to 3). -/
def Allocator.published (n : Nat) (old : Option Nat) (a : Allocator) : Allocator :=
  match old with
  | some m => (a.modExtent n fun e => { e with state := .live }).release m
  | none => a.modExtent n fun e => { e with state := .live }

/-- The catalogue with the rendition of a job in its revision (R141 step 2). -/
def Catalogue.withRendition (j : Job) (n : Nat) (c : Catalogue) : Catalogue :=
  c.modRevision j.revision fun v => { v with restored := some (j.rendition n), damage := v.damage.dropRestored }

theorem Catalogue.withRendition_states {c : Catalogue} (h : ∀ e ∈ c.editions, e.state ≠ .retiring) :
    ∀ e ∈ (c.withRendition j n).editions, e.state ≠ .retiring := by
  intro e he
  obtain ⟨y, hy, rfl⟩ := mem_modifyWhere he
  split
  · exact h y hy
  · exact h y hy

/-- The state after steps 1 to 4 of a publish, and before its items: the reader of the job is gone too. -/
def State.renditionMade (s : State) (j : Job) (v : Revision) (n : Nat) : State :=
  ({ s with
    alloc := s.alloc.published n (v.restored.map (·.extent)), cat := s.cat.withRendition j n
    engine := { s.engine with queue := s.engine.queue.filter fun y => y.id ≠ j.id } } : State).readerEnd v.raw

theorem State.publish_eq {stop : StopDeliveries} (hv : s.cat.revision j.revision = some v) (ha : j.active = true) :
    s.publish stop j n = (if j.desk then
      ((j.requesters.foldl (State.itemPublished stop j) (s.renditionMade j v n)).raise .restoreDone).modEngine
        (Engine.addEnded { j with state := .done, endCause := some .published, scratch := none })
      else j.requesters.foldl (State.itemPublished stop j) (s.renditionMade j v n)).startNext := by
  have hrev : (s.cat.withRendition j n).revision j.revision =
      some { v with restored := some (j.rendition n), damage := v.damage.dropRestored } := by
    unfold Catalogue.withRendition
    rw [Catalogue.revision_modRevision_same _ _ _ (by intro _; rfl), hv]; rfl
  obtain ⟨w, hw⟩ : ∃ w : State, w = { s with
    alloc := s.alloc.published n (v.restored.map (·.extent)), cat := s.cat.withRendition j n
    engine := { s.engine with queue := s.engine.queue.filter fun y => y.id ≠ j.id } } := ⟨_, rfl⟩
  have hreader : w.jobReaderEnd j = s.renditionMade j v n := by
    have hwrev : w.cat.revision j.revision = some { v with restored := some (j.rendition n), damage := v.damage.dropRestored } := by
      rw [hw]; exact hrev
    unfold State.jobReaderEnd State.renditionMade
    simp only [ha, if_true, hwrev]
    rw [← hw]
  have hbind : ((s.cat.revision j.revision).bind (·.restored)).map (·.extent) = v.restored.map (·.extent) := by rw [hv]; rfl
  unfold State.publish
  dsimp only
  rw [hbind, ← hreader, hw]
  cases v.restored <;> rfl

/-- What a publish makes of the catalogue and of the extents. -/
theorem State.renditionMade_published {y : Extent} {tone : Tone} (hv : s.cat.revision j.revision = some v)
    (hret : ∀ e ∈ s.cat.editions, e.state ≠ .retiring) (hy : s.alloc.find n = some y) (hraw : v.raw ≠ n) (ht : j.tone = some tone) :
    s.Published j v n y tone (s.renditionMade j v n) ∧ s.renditionMade j v n = { s with
      alloc := (s.renditionMade j v n).alloc, cat := s.cat.withRendition j n
      engine := { s.engine with queue := s.engine.queue.filter fun y => y.id ≠ j.id } } := by
  obtain ⟨w, hw⟩ : ∃ w : State, w = { s with
    alloc := s.alloc.published n (v.restored.map (·.extent)), cat := s.cat.withRendition j n
    engine := { s.engine with queue := s.engine.queue.filter fun y => y.id ≠ j.id } } := ⟨_, rfl⟩
  have hwret : ∀ e ∈ w.cat.editions, e.state ≠ .retiring := by rw [hw]; exact Catalogue.withRendition_states hret
  obtain ⟨hframe, hothers⟩ := State.readerEnd_quiet (n := v.raw) hwret
  have hmade : s.renditionMade j v n = w.readerEnd v.raw := by rw [hw]; rfl
  rw [← hmade] at hframe hothers
  have hcat : (s.renditionMade j v n).cat = s.cat.withRendition j n := by rw [hframe, hw]
  have halloc : w.alloc = s.alloc.published n (v.restored.map (·.extent)) := by rw [hw]
  obtain ⟨-, hlive, hkept⟩ := Allocator.modExtent_rewritten (f := fun e => { e with state := .live }) hy (by intro _; rfl)
  refine ⟨⟨?_, fun r hr => ?_, ?_, fun hold => ⟨?_, fun e he hcount hold' => ?_⟩⟩, ?_⟩
  · rw [hcat, Catalogue.withRendition, Catalogue.revision_modRevision_same _ _ _ (by intro _; rfl), hv]
    simp only [Option.map_some, Job.rendition, ht, Option.getD_some, DamageList.dropRestored]
  · rw [hcat]
    exact Catalogue.revision_modRevision_other _ _ _ _ (by intro _; rfl) hr
  · rw [hcat]; rfl
  · rw [hothers n hraw.symm, halloc]
    cases hr : v.restored with
    | none => exact hlive
    | some old => exact (Allocator.find_release_other _ _ _ (hold old hr).symm).trans hlive
  · have hwcounts : w.OnlyCounts e := hcount.imp_right fun ⟨hone, hcase⟩ =>
      ⟨hone, hcase.imp_right fun ⟨ho, _⟩ => ⟨ho, fun ed x _ hx => hwret x (List.mem_of_find?_eq_some hx)⟩⟩
    have hfree : ∀ m, m ≠ n → (∀ old, v.restored = some old → m ≠ old.extent) → w.alloc.find m = s.alloc.find m := fun m hm hm' => by
      rw [halloc]
      cases hr : v.restored with
      | none => exact hkept m hm
      | some old => exact (Allocator.find_release_other _ _ _ (hm' old hr)).trans (hkept m hm)
    have hwraw : w.alloc.find v.raw = some e := (hfree v.raw hraw fun old ho => (hold' old ho).symm).trans he
    have hlower : (s.renditionMade j v n).alloc = w.alloc.modExtent v.raw fun e => { e with readers := e.readers - 1 } := by
      rw [hmade, State.readerEnd_counts hwraw hwcounts]; rfl
    obtain ⟨-, hless, hrest⟩ := Allocator.modExtent_rewritten (f := fun e => { e with readers := e.readers - 1 }) hwraw (by intro _; rfl)
    have hruns : (s.renditionMade j v n).alloc.runs = w.alloc.runs := by rw [hlower]; rfl
    refine ⟨by rw [hlower]; exact hless, fun hr => ?_, fun old z ho hz => ?_, fun m hm hm' hm'' => ?_⟩
    · rw [hruns, halloc, hr]; rfl
    · have hzlive : (s.alloc.modExtent n fun e => { e with state := .live }).find old.extent = some z := (hkept _ (hold old ho)).trans hz
      have hreleased : w.alloc = (s.alloc.modExtent n fun e => { e with state := .live }).release old.extent := by rw [halloc, ho]; rfl
      have hofind : (s.renditionMade j v n).alloc.find old.extent = w.alloc.find old.extent := hothers _ (hold' old ho)
      rw [hofind, hruns, hreleased]
      refine ⟨fun hs hr => ?_, fun hs hr => ?_, fun hs => ?_⟩
      · obtain ⟨hgone, hnone, -⟩ := Allocator.release_unused hzlive (.inr (.inr ⟨hs, hr⟩))
        exact ⟨hnone, by rw [hgone]; rfl⟩
      · obtain ⟨hsame, hfound, -⟩ := Allocator.release_read hzlive hs hr
        exact ⟨hfound, by rw [hsame]; rfl⟩
      · obtain ⟨hsame, hfound, -⟩ := Allocator.release_moving hzlive hs
        exact ⟨hfound, by rw [hsame]; rfl⟩
    · rw [hothers m hm']
      exact hfree m hm hm''
  · exact hframe.trans (by rw [hw])

end Sys2Proof.Machine
end

