-- ==== Sys2Proof/Proofs/Corrections.lean ====
section
/-! PROOF. Corrections that complete: the next tile, the publish for the desk and for an item, and the ends (chapter 7, R140
to R143, R183). -/

namespace Sys2Proof.Machine

variable {s t u : State} {j : Job} {rest : List Job} {v : Revision} {slot n : Nat} {x : Tile} {stop : StopDeliveries}

/-! ## An item of a job that published (R141 step 5) -/

/-- The charge of a restoration names the class of the revision and the age of its edition, which a publish leaves. -/
theorem State.restoreCharge_made {w : State} {o i job changed : Nat} {ord : Order} (hc : w.cat = s.cat.withRendition j n)
    (hm : w.meter = s.meter) (hv : s.cat.revision j.revision = some v) (hord : w.book.order o = some ord) :
    w.restoreCharge (.page j.revision) o i job changed =
      { restore := true, order := o, item := i, work := job, count := changed, rate := (s.meter.tariff v.cls).rr
        creep := 0, ageThreshold := (s.meter.tariff v.cls).a, surcharge := (s.meter.tariff v.cls).s
        discount := ord.discount, age := s.ageOf (.page j.revision), repeated := false
        unset := !(s.meter.tariff v.cls).set } := by
  obtain ⟨e, he⟩ := Catalogue.edition_of_revision hv
  obtain ⟨ps, hps⟩ := Catalogue.edition_modRevision s.cat j.revision
    (fun v => { v with restored := some (j.rendition n), damage := v.damage.dropRestored }) j.revision.edition e he
  have hcls : w.cat.classOf (.page j.revision) = v.cls := by
    rw [hc, Catalogue.withRendition, Catalogue.classOf, Catalogue.revision_modRevision_same _ _ _ (by intro _; rfl), hv]; rfl
  have hage : w.ageOf (.page j.revision) = s.ageOf (.page j.revision) := by
    have hedition : w.cat.edition j.revision.edition = some { e with pages := ps } := by rw [hc]; exact hps
    simp only [State.ageOf, hedition, he, hm]
  have hdiscount : w.book.discountOf o = ord.discount := by simp only [OrderBook.discountOf, hord]
  unfold State.restoreCharge
  rw [hcls, hage, hdiscount, hm]

/-- The item of a published job is READY and RESTORED, its posting is logged, and ITEM_READY is pending. -/
theorem State.itemPublished_spec {w : State} {o i : Nat} {ord : Order} {it : Item} {a b : Account} {k : Charge} {q : Nat}
    (hc : w.cat = s.cat.withRendition j n) (hm : w.meter = s.meter) (hv : s.cat.revision j.revision = some v)
    (hord : w.book.order o = some ord) (hit : ord.item i = some it) (htarget : it.target = .page j.revision)
    (ha : w.book.account ord.account = some a)
    (hk : k = { restore := true, order := o, item := i, work := j.id, count := j.changed, rate := (s.meter.tariff v.cls).rr
                creep := 0, ageThreshold := (s.meter.tariff v.cls).a, surcharge := (s.meter.tariff v.cls).s
                discount := ord.discount, age := s.ageOf (.page j.revision), repeated := false
                unset := !(s.meter.tariff v.cls).set })
    (hq : q = ord.quotient w.meter.settings.divisor k.reckon.net) (hab : a.AfterPosting (min (a.owed + q) 16777215) b) :
    ∃ t : State, w.itemPublished stop j (o, i) = t ∧ t = { w with book := t.book, meter := t.meter, sales := t.sales } ∧
      t.book.item o i = some { it with state := .ready, finish := .restored } ∧
      (∀ other, other ≠ o → t.book.order other = w.book.order other) ∧ t.book.account ord.account = some b ∧
      t.meter.log.getLast? = some (k.entry k.reckon q (decide (16777215 < ord.units + q)) (decide (16777215 < a.owed + q))) ∧
      ∀ src, w.sales.notices.sources[4]? = some src → (t.sales.notices.sources[4]?).map (·.latched) = some true := by
  let f : Item → Item := fun i => { i with state := .ready, finish := .restored }
  let r := w.modBook (·.modItem o i f)
  have hrord : r.book.order o = some (ord.modItem i f) := by
    refine (OrderBook.order_modOrder_same _ _ _ (by intro _; rfl)).trans ?_
    rw [hord]; rfl
  have hcharge : r.restoreCharge (.page j.revision) o i j.id j.changed = k :=
    (State.restoreCharge_made (w := r) hc hm hv hrord).trans hk.symm
  have htargetOf : w.book.targetOf o i = some (.page j.revision) := by
    have hitem : w.book.item o i = some it := by rw [OrderBook.item, hord]; exact hit
    rw [OrderBook.targetOf, hitem, Option.map_some, htarget]
  have hmade : w.itemPublished stop j (o, i) = (r.post stop k).raise .itemReady := by
    unfold State.itemPublished
    simp only [htargetOf]
    rw [← hcharge]
  have horder : k.order = o := by rw [hk]
  obtain ⟨y, hy, hframe, hyord, hyothers, hyaccount, -⟩ := State.post_spec (s := r) (stop := stop) (c := k) (o := ord.modItem i f)
    (by rw [horder]; exact hrord) ha rfl rfl (show q = _ from hq) hab
  rw [horder] at hyord hyothers
  obtain ⟨z, hz⟩ : ∃ z, z = r.post stop k := ⟨_, rfl⟩
  rw [← hz] at hy hmade
  have hblocks : z.book = y.book ∧ z.meter = y.meter ∧ z = { y with sales := z.sales } ∧
      z.sales.notices.sources[4]? = w.sales.notices.sources[4]? := by
    have hsales : y.sales = w.sales := by rw [hframe]; rfl
    rw [hy]
    split
    · exact ⟨State.raise_book _ _, State.raise_meter _ _, rfl,
        (State.raise_source_other (n := .meterSaturated) (l := .sales) (m := 4) (by decide) y).trans (by rw [← hsales]; rfl)⟩
    · exact ⟨rfl, rfl, rfl, by rw [hsales]⟩
  obtain ⟨hzbook, hzmeter, hzframe, hzsource⟩ := hblocks
  refine ⟨_, hmade, ?_, ?_, fun other ho => ?_, ?_, ?_, fun src hsrc => ?_⟩
  · have hsame : ∀ g h l, ({ z with book := g, meter := h, sales := l } : State) = { w with book := g, meter := h, sales := l } := by
      intro g h l
      rw [hzframe, hframe]
      rfl
    exact hsame z.book z.meter _
  · have hitem : z.book.item o i = (ord.modItem i f).item i := by rw [hzbook, OrderBook.item, hyord]; rfl
    refine (congrArg (fun b : OrderBook => b.item o i) (State.raise_book _ _)).trans (hitem.trans ?_)
    rw [Order.item_modItem_same _ _ _ (by intro _; rfl), hit]; rfl
  · rw [State.raise_book, hzbook, hyothers other ho]
    exact OrderBook.order_modOrder_other _ _ _ _ (by intro _; rfl) ho
  · rw [State.raise_book, hzbook]
    exact hyaccount
  · rw [State.raise_meter, hzmeter, hframe]
    exact List.getLast?_concat
  · have hraise := State.raise_source_same .itemReady z
    exact (congrArg (Option.map (·.latched)) (hraise.trans (congrArg _ (hzsource.trans hsrc)))).trans rfl

/-! ## Corrections (R139 to R143) -/

/-- The job of the last write, alone in the queue, has published before its items and the desk hear of it. -/
theorem State.lastWrite_made {bytes : List Byte} {y : Extent} {tone : Tone} (hv : s.cat.revision j.revision = some v)
    (hret : ∀ e ∈ s.cat.editions, e.state ≠ .retiring) (hy : s.alloc.find n = some y) (hraw : v.raw ≠ n) (ht : j.tone = some tone) :
    ∃ u : State, u = (s.correctionStored slot bytes j []).renditionMade { j with corrected := j.corrected + 1 } v n ∧
      s.Published j v n y tone u ∧ u = { s with
        store := s.store.complete ⟨.restoration, slot, .write bytes none⟩, alloc := u.alloc
        cat := s.cat.withRendition j n, engine := { s.engine with queue := [] } } := by
  obtain ⟨hpub, hframe⟩ := State.renditionMade_published (s := s.correctionStored slot bytes j [])
    (j := { j with corrected := j.corrected + 1 }) (n := n) (y := y) (tone := tone) hv hret hy hraw ht
  have hgone : [({ j with corrected := j.corrected + 1 } : Job)].filter (fun y => y.id ≠ j.id) = [] := by simp
  refine ⟨_, rfl, hpub, hframe.trans ?_⟩
  exact congrArg (fun q => ({ s with
    store := s.store.complete ⟨.restoration, slot, .write bytes none⟩
    alloc := ((s.correctionStored slot bytes j []).renditionMade { j with corrected := j.corrected + 1 } v n).alloc
    cat := s.cat.withRendition j n, engine := { s.engine with queue := q } } : State)) hgone

theorem State.correctionGoes_publishes (h : j.corrected = v.width * v.height) (hn : j.scratch = some n) (w : State) :
    w.correctionGoes j v = w.publish cutOffDeliveries j n := by
  unfold State.correctionGoes
  rw [if_pos h, hn]

/-- The last write publishes, and no other job stands behind it. -/
theorem exec_lastWrite {bytes : List Byte} {u : State} (hp : s.power = .running)
    (hg : s.store.inFlight = some ⟨.restoration, slot, .write bytes none⟩) (hs : slot < s.store.slotCount)
    (hq : s.engine.queue = [j]) (hj : j.state = .correcting) (hcancel : j.cancel = none) (hn : j.scratch = some n)
    (hv : s.cat.revision j.revision = some v) (hend : j.corrected + 1 = v.width * v.height)
    (hu : u = (s.correctionStored slot bytes j []).renditionMade { j with corrected := j.corrected + 1 } v n)
    (hitems : (j.requesters.foldl (State.itemPublished cutOffDeliveries { j with corrected := j.corrected + 1 }) u) = t)
    (hempty : t.engine.queue = []) : exec .correctionWriteComplete s = .next (if j.desk then
      (t.raise .restoreDone).modEngine (Engine.addEnded
        { j with corrected := j.corrected + 1, state := .done, endCause := some .published, scratch := none }) else t).settle := by
  rw [exec_correctionWrite hp hg hs hq hj (by simp) hv, State.atBoundary_goes (j := { j with corrected := j.corrected + 1 }) hcancel,
    State.correctionGoes_publishes (j := { j with corrected := j.corrected + 1 }) hend hn, State.publish_eq (s := s.correctionStored slot bytes j []) (j := { j with corrected := j.corrected + 1 }) hv
    (Job.active_of (.inr hj)), ← hu, hitems, State.startNext_empty]
  split
  · exact hempty
  · exact hempty

/-- Settles O52. -/
theorem correction : Obligations.Correction := by
  unfold Obligations.Correction
  refine ⟨fun slot j rest v s cause hp hs hq hj hne hv => ⟨fun upset x hg hx => ?_, fun bytes u hg hcancel hu => ?_⟩,
    fun slot j rest v x n s hp hs hq hj hcancel hne hv hover hn hx hw => ⟨fun upset y bad tone hg ht hy hroom hbad => ?_,
      fun bytes hg hlen => ⟨fun e hmore he hm => ?_, fun tone hend hrest hdesk hreq htone hret hraw => ?_,
        fun tone o i ord it a b k q hend hrest hdesk hreq htone hret hraw hord hit htarget ha hk hq' hab => ?_⟩⟩⟩
  · obtain ⟨u, d, hends, hrev, -, hroom, hfull, hexec⟩ := exec_correctionRead hp hg hs hq hj hv hx
    refine ⟨u, hends, fun ho => ?_, fun hov hok hcancel => ?_⟩
    · rw [hexec, State.correctionArrives, State.afterRawRead_fails hrev (overflow_of_read hroom hfull ho)]
    · rw [hexec, State.correctionArrives, State.afterRawRead_goes hrev ((hroom hok).trans hov), State.atBoundary_cancelled hcancel]
  · rw [exec_correctionWrite hp hg hs hq hj hne hv, State.atBoundary_cancelled (j := { j with corrected := j.corrected + 1 }) hcancel, hu]
    rfl
  · obtain ⟨u, d, ⟨hframe, hstore, -, hdamaged⟩, hrev, hgood, hlist, -, hexec⟩ := exec_correctionRead hp hg hs hq hj hv hy
    have hengine : u.engine = s.engine := by rw [hframe]
    have hbad' : (decide (checkBytes y.bytes ≠ y.check) || d.entries.contains ⟨j.corrected, .raw⟩) = bad := by
      rw [Bool.eq_iff_iff, damaged_iff hgood, hbad]
      simp
    have hgoes := State.correctionArrives_goes (x := y) hrev ((hlist hroom).trans hover) hcancel hn (by rw [hframe]; exact hx) ht
      (hengine ▸ hq) hne hbad'
    obtain ⟨t, heq⟩ : ∃ t, t = u.correctionArrives y (decide (checkBytes y.bytes ≠ y.check)) j := ⟨_, rfl⟩
    rw [← heq] at hexec hgoes
    have htstore : t.store = u.store.ask u.now ⟨.restoration, x.first + j.corrected, .write (Job.correctedTile bad tone y.bytes) none⟩ := by
      rw [hgoes]
    refine ⟨t, Job.correctedTile bad tone y.bytes, hexec, rfl, ?_, ?_, ?_, fun hd => ?_, ?_, ?_, ?_, ?_, ?_, ?_⟩
    · rw [htstore, Store.ask_mem, hstore]
    · rw [htstore, Store.ask_waiting, hstore]
    · rw [hgoes, Job.correct_eq ht, ← hengine]
    · refine State.DamageRecorded.of_after (u := u) ?_ ?_ ?_ ?_ (hdamaged hd).1
      · rw [htstore, Store.ask_damagedReads]
      · rw [htstore, Store.ask_lastDamage]
      · rw [hgoes]
      · rw [hgoes]
    · rw [hgoes, hframe]
    · rw [hgoes, hframe]
    · rw [hgoes, hframe]
    · rw [hgoes, hframe]
    · rw [hgoes, hframe]
    · rw [hgoes, hframe]
  · let w := s.correctionStored slot bytes j rest
    have hread : w.engineRead = w.askRestoration (e.first + (j.corrected + 1)) .read := by
      have hnext : ({ j with corrected := j.corrected + 1 } : Job).nextTile = j.corrected + 1 := if_neg (by rw [hj]; decide)
      rw [State.engineRead_asks (s := w) (j := { j with corrected := j.corrected + 1 }) (rest := rest) (v := v) (e := e) rfl
        (Job.active_of (.inr hj)) hv he hm (by simpa [Store.outstanding, w, State.correctionStored, Store.complete] using hw), hnext]
    refine ⟨w.askRestoration (e.first + (j.corrected + 1)) .read, ?_, rfl, ?_, fun other ho => ?_, ?_⟩
    · rw [exec_correctionWrite hp hg hs hq hj hne hv, State.atBoundary_goes (j := { j with corrected := j.corrected + 1 }) hcancel,
        State.correctionGoes, if_neg hmore, ← hread]
    · show Memory.readSlot (Store.ask _ _ _).mem slot = _
      rw [Store.ask_mem]
      exact Memory.readSlot_corrected hlen _ _
    · show Memory.readSlot (Store.ask _ _ _).mem other = _
      rw [Store.ask_mem]
      exact Memory.readSlot_writeSlot_other _ _ _ _ ho
    · exact Store.ask_waiting _ _ _
  · subst hrest
    obtain ⟨u, hu, hpub, hframe⟩ := State.lastWrite_made (slot := slot) (bytes := bytes) hv hret hx hraw htone
    have hengine : u.engine = { s.engine with queue := [] } := by rw [hframe]
    have hstore : u.store = s.store.complete ⟨.restoration, slot, .write bytes none⟩ := by rw [hframe]
    have hexec := exec_lastWrite (t := u) hp hg hs hq hj hcancel hn hv hend hu (by rw [hreq]; rfl) (by rw [hengine])
    rw [if_pos hdesk] at hexec
    refine ⟨_, hexec, ?_, fun other ho => ?_, hpub, ?_, ?_, ?_, ?_, ?_, ?_, ?_, ?_, ?_, fun src hsrc => ?_⟩
    · show Memory.readSlot u.store.mem slot = _
      rw [hstore]
      exact Memory.readSlot_corrected hlen _ _
    · show Memory.readSlot u.store.mem other = _
      rw [hstore]
      exact Memory.readSlot_writeSlot_other _ _ _ _ ho
    · show Engine.addEnded _ u.engine = _
      rw [hengine]; rfl
    · show u.book = _; rw [hframe]
    · show u.meter = _; rw [hframe]
    · show u.port = _; rw [hframe]
    · show u.table = _; rw [hframe]
    · show u.mover = _; rw [hframe]
    · show u.store.waiting = _; rw [hstore]; rfl
    · show u.production = _; rw [hframe]
    · show u.sales = _; rw [hframe]
    · have hraise := State.raise_source_same .restoreDone u
      have hkept : u.desk = s.desk := by rw [hframe]
      have hsource : (u.link .desk).notices.sources[2]? = some src := by rw [show u.link .desk = u.desk from rfl, hkept]; exact hsrc
      exact (congrArg (Option.map (·.latched)) (hraise.trans (congrArg _ hsource))).trans rfl
  · subst hrest
    obtain ⟨u, hu, hpub, hframe⟩ := State.lastWrite_made (slot := slot) (bytes := bytes) hv hret hx hraw htone
    have hbook : u.book = s.book := by rw [hframe]
    have hmeter : u.meter = s.meter := by rw [hframe]
    obtain ⟨t, ht, htframe, hitem, hothers, haccount, hlog, hnotice⟩ := State.itemPublished_spec (s := s) (w := u) (n := n)
      (j := { j with corrected := j.corrected + 1 }) (stop := cutOffDeliveries) (by rw [hframe]; rfl) hmeter hv (by rw [hbook]; exact hord)
      hit htarget (by rw [hbook]; exact ha) hk (by rw [hmeter]; exact hq') hab
    have htengine : t.engine = { s.engine with queue := [] } := by rw [htframe, hframe]
    have hexec := exec_lastWrite (t := t) hp hg hs hq hj hcancel hn hv hend hu (by rw [hreq]; exact ht) (by rw [htengine])
    rw [if_neg (by simp [hdesk])] at hexec
    refine ⟨t, hexec, ?_, hitem, fun other ho => by rw [hothers other ho, hbook], haccount, hlog, htengine, ?_, fun src hsrc =>
      hnotice src ?_⟩
    · have hcat : t.cat = u.cat := by rw [htframe]
      have halloc : t.alloc = u.alloc := by rw [htframe]
      unfold State.Published at hpub ⊢
      rw [hcat, halloc]
      exact hpub
    · rw [htframe, hframe]
    · have hsales : u.sales = s.sales := by rw [hframe]
      rw [hsales]; exact hsrc

end Sys2Proof.Machine
end

