-- ==== Sys2Proof/Proofs/Leaving.lean ====
section
/-! PROOF. Items that leave their jobs, CLOSE_ORDER and RELEASE_ORDER (chapters 7 and 8, R126, R165, R167). -/

namespace Sys2Proof.Machine

variable {s t u : State} {j : Job} {order n id : Nat} {final : JobState} {cause : JobEnd} {refusal : Option AllocRefusal}

/-! ## An item leaves the job it waits on (R126) -/

/-- The end of a job looks only at the other jobs of the queue. -/
theorem State.endJob_queue {q : List Job} (h : q.filter (fun y => y.id ≠ j.id) = s.engine.queue.filter fun y => y.id ≠ j.id) :
    ({ s with engine := { s.engine with queue := q } } : State).endJob final cause refusal j = s.endJob final cause refusal j := by
  have hstep : ∀ a : Allocator, (({ s with alloc := a, engine := { s.engine with queue := q } } : State).modEngine
      fun g => { g with queue := g.queue.filter (·.id ≠ j.id) }) =
      ({ s with alloc := a } : State).modEngine fun g => { g with queue := g.queue.filter (·.id ≠ j.id) } := fun a =>
    congrArg (fun q => ({ s with alloc := a, engine := { s.engine with queue := q } } : State)) h
  unfold State.endJob
  cases hn : j.scratch with
  | none =>
    dsimp only
    rw [show (({ s with engine := { s.engine with queue := q } } : State).modEngine
      fun g => { g with queue := g.queue.filter (·.id ≠ j.id) }) = _ from hstep s.alloc]
  | some n =>
    dsimp only
    rw [show ((({ s with engine := { s.engine with queue := q } } : State).modAlloc (·.release n)).modEngine
      fun g => { g with queue := g.queue.filter (·.id ≠ j.id) }) = _ from hstep (s.alloc.release n)]
    rfl

theorem Engine.find_of_mem {g : Engine} (hnodup : (g.queue.map (·.id)).Nodup) (hj : j ∈ g.queue) : g.find j.id = some j := by
  obtain ⟨k, hk⟩ : ∃ k, g.find j.id = some k := by
    rw [← Option.isSome_iff_exists, Engine.find, List.find?_isSome]
    exact ⟨j, hj, by simp⟩
  have hid : k.id = j.id := by simpa using List.find?_some hk
  rw [hk, List.inj_on_of_nodup_map hnodup (List.mem_of_find?_eq_some hk) hj hid]

theorem Engine.modJob_map (id : Nat) (f : Job → Job) (g : Engine) :
    g.modJob id f = { g with queue := g.queue.map fun k => if k.id = id then f k else k } := by
  simp [Engine.modJob, modifyWhere]

theorem State.leaveJob_absent (h : ∀ j ∈ s.engine.queue, (order, n) ∉ j.requesters) : s.leaveJob order n = s := by
  have hnone : s.engine.queue.find? (fun j => j.requesters.contains (order, n)) = none :=
    List.find?_eq_none.mpr fun j hj => by simpa using h j hj
  unfold State.leaveJob
  rw [hnone]

/-- The state with an item taken off the requester list of a job. -/
def State.offJob (s : State) (order n id : Nat) : State :=
  s.modEngine (·.modJob id fun j => { j with requesters := j.requesters.filter (· ≠ (order, n)) })

theorem State.leaveJob_found (h : s.engine.queue.find? (fun j => j.requesters.contains (order, n)) = some j) :
    s.leaveJob order n = (s.offJob order n j.id).cancelIfAlone j.id := by
  unfold State.leaveJob
  rw [h]
  rfl

theorem State.offJob_find (hj : s.engine.find j.id = some j) : (s.offJob order n j.id).engine.find j.id =
    some { j with requesters := j.requesters.filter (· ≠ (order, n)) } := by
  refine (Engine.find_modJob_same _ _ _ (by intro _; rfl)).trans ?_
  rw [hj]; rfl

theorem State.offJob_eq (order n id : Nat) (s : State) : s.offJob order n id = { s with engine := { s.engine with
    queue := s.engine.queue.map fun k => if k.id = id then { k with requesters := k.requesters.filter fun q => q ≠ (order, n) } else k } } :=
  congrArg (fun g => ({ s with engine := g } : State)) (Engine.modJob_map _ _ _)

/-- The other jobs of the queue, after a job has been changed. -/
theorem filter_changed (f : Job → Job) (hf : ∀ k, (f k).id = k.id) (q : List Job) :
    (q.map fun k => if k.id = id then f k else k).filter (fun y => y.id ≠ id) = q.filter fun y => y.id ≠ id := by
  induction q with
  | nil => rfl
  | cons k q ih =>
    by_cases h : k.id = id
    · simpa [h, hf] using ih
    · simpa [h] using ih

/-- What an item's leaving makes of its job is what the cancel rules say. -/
theorem State.leavesJob_eq (h : s.LeavesJob order n u) : s.leaveJob order n = u := by
  obtain ⟨hnodup, j, hfound, hcase⟩ := h
  have hj := Engine.find_of_mem hnodup (List.mem_of_find?_eq_some hfound)
  have halone := State.offJob_find (order := order) (n := n) hj
  rw [State.leaveJob_found hfound]
  unfold State.cancelIfAlone
  rw [halone]
  dsimp only
  rcases hcase with ⟨hkept, rfl⟩ | ⟨hdesk, hreq, hcase⟩
  · rw [if_neg, State.offJob_eq]
    rcases hkept with hd | ⟨q, hq, hne⟩
    · simp [hd]
    · have hmem : q ∈ j.requesters.filter (· ≠ (order, n)) := List.mem_filter.mpr ⟨hq, by simpa using hne⟩
      rw [Bool.and_eq_true, decide_eq_true_eq]
      exact fun hnil => List.ne_nil_of_mem hmem hnil.2
  · have hempty : j.requesters.filter (· ≠ (order, n)) = [] := by rw [hreq]; simp
    rw [hempty, if_pos (by simp [hdesk])]
    have hother := filter_changed (id := j.id) (fun k => { k with requesters := k.requesters.filter fun q => q ≠ (order, n) })
      (by intro _; rfl) s.engine.queue
    rcases hcase with ⟨hs, hx, rfl⟩ | ⟨hs, ⟨⟨y, hy, hc⟩, rfl⟩ | ⟨hfly, c, hc, rfl⟩⟩
    · refine (if_pos hs).trans ?_
      rw [State.offJob_eq, State.endJob_queue (j := { j with requesters := [] }) hother,
        State.endJob_inactive (j := { j with requesters := [] }) (by simp [Job.active, hs]) hx]
      unfold State.jobEnded
      simp only [hdesk, Bool.false_eq_true, if_false]
      rfl
    · rw [State.cancelJob_inFlight (s := s.offJob order n j.id) (j := { j with requesters := [] }) (Job.not_queued_of hs)
        (Store.restorationInFlight_iff.mpr ⟨y, hy, hc⟩), State.offJob_eq]
      refine (congrArg (fun g => ({ s with engine := g } : State)) (Engine.modJob_map _ _ _)).trans ?_
      refine congrArg (fun q => ({ s with engine := { s.engine with queue := q } } : State)) ?_
      rw [List.map_map]
      refine List.map_congr_left fun k hk => ?_
      by_cases hid : k.id = j.id
      · obtain rfl := List.inj_on_of_nodup_map hnodup hk (List.mem_of_find?_eq_some hfound) hid
        simp only [Function.comp_apply, if_true, Job.mark, hempty]
      · simp only [Function.comp_apply, if_neg hid]
    · have hmark : ({ j with requesters := [] } : Job).mark .noRequester = { j with requesters := [], cancel := some c } := by
        rw [hc]
        by_cases hret : j.cancel = some .retired <;> simp only [Job.mark, hret, if_true, if_false]
      have hcancel := State.cancelJob_atOnce (s := s.offJob order n j.id) (cause := .noRequester) (j := { j with requesters := [] })
        (Job.not_queued_of hs) (Store.restorationInFlight_eq_false hfly)
      rw [hcancel, hmark, State.offJob_eq]
      exact congrArg State.startNext (State.endJob_queue (s := { s with store := s.store.withdraw .restoration })
        (j := { j with requesters := [], cancel := some c }) hother)

end Sys2Proof.Machine
end

