-- ==== Sys2Proof/Proofs/OrdersClosed.lean ====
section
/-! PROOF. CLOSE_ORDER and RELEASE_ORDER (chapter 8, R165, R167). -/

namespace Sys2Proof.Machine

variable {s t u : State} {j : Job} {order n id : Nat} {o : Order} {ns : List Nat} {q : List Job}

/-! ## Items of an order that fall back -/

/-- The items of the order `id` with the numbers `ns`. -/
def itemsOf (id : Nat) (ns : List Nat) : List (Nat × Nat) := ns.map (Prod.mk id)

theorem OrderBook.downgradeAll_frame (rs : List (Nat × Nat)) (b : OrderBook) :
    b.downgradeAll rs = { b with orders := (b.downgradeAll rs).orders } := by
  induction rs generalizing b with
  | nil => rfl
  | cons r rs ih => exact ih _

theorem OrderBook.downgradeAll_order_other {m : Nat} (hm : m ≠ id) (ns : List Nat) (b : OrderBook) :
    (b.downgradeAll (itemsOf id ns)).order m = b.order m := by
  induction ns generalizing b with
  | nil => rfl
  | cons n ns ih => exact (ih _).trans (OrderBook.order_modOrder_other _ _ _ _ (by intro _; rfl) hm)

/-- An order with the items of some numbers fallen back. -/
def Order.downgradeNumbers (ns : List Nat) (o : Order) : Order :=
  { o with items := o.items.map fun i => if i.number ∈ ns then i.downgrade else i }

theorem Order.downgradeNumbers_cons (n : Nat) (ns : List Nat) (o : Order) :
    (o.modItem n Item.downgrade).downgradeNumbers ns = o.downgradeNumbers (n :: ns) := by
  unfold Order.downgradeNumbers Order.modItem modifyWhere
  refine congrArg (fun is => ({ o with items := is } : Order)) ?_
  rw [List.map_map]
  refine List.map_congr_left fun i _ => ?_
  by_cases h : i.number = n
  · by_cases hmem : n ∈ ns <;> simp [h, hmem, Item.downgrade]
  · simp [h]

theorem OrderBook.downgradeAll_order {b : OrderBook} (ho : b.order id = some o) (ns : List Nat) :
    (b.downgradeAll (itemsOf id ns)).order id = some (o.downgradeNumbers ns) := by
  induction ns generalizing b o with
  | nil => simpa [OrderBook.downgradeAll, itemsOf, Order.downgradeNumbers] using ho
  | cons n ns ih =>
    rw [← Order.downgradeNumbers_cons]
    refine ih ?_
    refine (OrderBook.order_modOrder_same _ _ _ (by intro _; rfl)).trans ?_
    rw [ho]; rfl

/-- The waiting items of an order are those whose numbers its waiting items have. -/
theorem Order.downgradeWaiting (hn : (o.items.map (·.number)).Nodup) :
    o.downgradeNumbers ((o.items.filter (·.state = .waitingRestore)).map (·.number)) =
      { o with items := o.items.map fun i =>
        if i.state = .waitingRestore then { i with state := .ready, finish := .raw, downgraded := true } else i } := by
  refine congrArg (fun is => ({ o with items := is } : Order)) (List.map_congr_left fun i hi => ?_)
  have hiff : i.number ∈ (o.items.filter (·.state = .waitingRestore)).map (·.number) ↔ i.state = .waitingRestore := by
    constructor
    · intro h
      obtain ⟨k, hk, hnum⟩ := List.mem_map.mp h
      obtain ⟨hmem, hs⟩ := List.mem_filter.mp hk
      obtain rfl := List.inj_on_of_nodup_map hn hmem hi hnum
      simpa using hs
    · exact fun h => List.mem_map.mpr ⟨i, List.mem_filter.mpr ⟨hi, by simpa using h⟩, rfl⟩
  rw [if_congr hiff rfl rfl]
  rfl

/-! ## The waiting items of an order leave their jobs (R165 step 1) -/

/-- No job has an item of these. -/
theorem State.giveUp_absent (ns : List Nat) (h : ∀ j ∈ s.engine.queue, ∀ n ∈ ns, (id, n) ∉ j.requesters) :
    ns.foldl (State.giveUpWaiting id) s = { s with book := s.book.downgradeAll (itemsOf id ns) } := by
  induction ns generalizing s with
  | nil => rfl
  | cons n ns ih =>
    have hone : s.giveUpWaiting id n = s.modBook (·.modItem id n Item.downgrade) := by
      rw [State.giveUpWaiting, State.leaveJob_absent fun j hj => h j hj n (by simp)]
    rw [List.foldl_cons, hone]
    exact ih fun j hj m hm => h j hj m (List.mem_cons_of_mem _ hm)

/-- One of the items has a job, which it leaves, and the others have none. -/
theorem State.giveUp_one {g g' : Engine} (hleave : ∀ w : State, w.engine = g → w.leaveJob id n = { w with engine := g' })
    (hone : ∀ j ∈ g.queue, ∀ m, m ≠ n → (id, m) ∉ j.requesters) (hnone : ∀ j ∈ g'.queue, ∀ m, (id, m) ∉ j.requesters)
    (hn : n ∈ ns) (hs : s.engine = g) : ns.foldl (State.giveUpWaiting id) s =
      { s with engine := g', book := s.book.downgradeAll (itemsOf id ns) } := by
  induction ns generalizing s with
  | nil => simp at hn
  | cons m ns ih =>
    rw [List.foldl_cons]
    by_cases hm : m = n
    · subst hm
      have hgone : s.giveUpWaiting id m = ({ s with engine := g' } : State).modBook (·.modItem id m Item.downgrade) := by
        rw [State.giveUpWaiting, hleave s hs]
      rw [hgone]
      exact State.giveUp_absent (s := ({ s with engine := g' } : State).modBook (·.modItem id m Item.downgrade)) ns
        fun j hj k _ => hnone j hj k
    · have hgone : s.giveUpWaiting id m = s.modBook (·.modItem id m Item.downgrade) := by
        rw [State.giveUpWaiting, State.leaveJob_absent fun j hj => hone j (hs ▸ hj) m hm]
      rw [hgone]
      exact ih ((List.mem_cons.mp hn).resolve_left (Ne.symm hm)) hs

/-- Items with a job in a queue whose jobs all keep the desk or another order's item. -/
structure Shared (id : Nat) (q : List Job) : Prop where
  ids : (q.map (·.id)).Nodup
  once : (q.flatMap (·.requesters)).Nodup
  kept : ∀ j ∈ q, (∃ r ∈ j.requesters, r.1 = id) → j.desk = true ∨ ∃ r ∈ j.requesters, r.1 ≠ id

/-- A queue with the items of the order `id` with the numbers `ns` off every requester list. -/
def offQueue (id : Nat) (ns : List Nat) (q : List Job) : List Job :=
  q.map fun j => { j with requesters := j.requesters.filter fun r => ¬ (r.1 = id ∧ r.2 ∈ ns) }

theorem Shared.off (h : Shared id q) (ns : List Nat) : Shared id (offQueue id ns q) := by
  refine ⟨?_, ?_, fun k hk hr => ?_⟩
  · rw [offQueue, List.map_map]; exact h.ids
  · rw [offQueue, List.flatMap_map]
    obtain ⟨hnodup, hdisjoint⟩ := List.nodup_flatMap.mp h.once
    refine List.nodup_flatMap.mpr ⟨fun j hj => (hnodup j hj).filter _, hdisjoint.imp fun hab => ?_⟩
    exact fun r hr hr' => hab (List.mem_filter.mp hr).1 (List.mem_filter.mp hr').1
  · obtain ⟨j, hj, rfl⟩ := List.mem_map.mp hk
    obtain ⟨r, hr, hid⟩ := hr
    refine (h.kept j hj ⟨r, (List.mem_filter.mp hr).1, hid⟩).imp_right fun ⟨p, hp, hne⟩ => ⟨p, List.mem_filter.mpr ⟨hp, ?_⟩, hne⟩
    simp [hne]

theorem offQueue_cons (id n : Nat) (ns : List Nat) (q : List Job) : offQueue id ns (offQueue id [n] q) = offQueue id (n :: ns) q := by
  unfold offQueue
  rw [List.map_map]
  refine List.map_congr_left fun j _ => ?_
  refine congrArg (fun rs => ({ j with requesters := rs } : Job)) ?_
  rw [List.filter_filter]
  refine List.filter_congr fun r _ => ?_
  by_cases h : r.1 = id <;> by_cases h' : r.2 = n <;> by_cases h'' : r.2 ∈ ns <;> simp [h, h', h'']

theorem State.leaveJob_shared (h : Shared id s.engine.queue) (n : Nat) :
    s.leaveJob id n = { s with engine := { s.engine with queue := offQueue id [n] s.engine.queue } } := by
  have hother : ∀ k ∈ s.engine.queue, (id, n) ∉ k.requesters →
      ({ k with requesters := k.requesters.filter fun r => ¬ (r.1 = id ∧ r.2 ∈ [n]) } : Job) = k := fun k _ hk => by
    have hall : k.requesters.filter (fun r => ¬ (r.1 = id ∧ r.2 ∈ [n])) = k.requesters :=
      List.filter_eq_self.mpr fun r hr => by
        have hne : ¬ (r.1 = id ∧ r.2 = n) := fun he => hk ((Prod.ext he.1 he.2 : r = (id, n)) ▸ hr)
        exact decide_eq_true (by simpa using hne)
    rw [hall]
  by_cases hfound : ∃ j ∈ s.engine.queue, (id, n) ∈ j.requesters
  · obtain ⟨j, hj⟩ : ∃ j, s.engine.queue.find? (fun j => j.requesters.contains (id, n)) = some j := by
      rw [← Option.isSome_iff_exists, List.find?_isSome]
      obtain ⟨j, hj, hr⟩ := hfound
      exact ⟨j, hj, by simpa using hr⟩
    have hmem := List.mem_of_find?_eq_some hj
    have hreq : (id, n) ∈ j.requesters := by simpa using List.find?_some hj
    refine State.leavesJob_eq ⟨h.ids, j, hj, .inl ⟨?_, ?_⟩⟩
    · exact (h.kept j hmem ⟨_, hreq, rfl⟩).imp_right fun ⟨r, hr, hne⟩ => ⟨r, hr, fun he => hne (by rw [he])⟩
    · refine congrArg (fun q => ({ s with engine := { s.engine with queue := q } } : State)) (List.map_congr_left fun k hk => ?_)
      by_cases hid : k.id = j.id
      · rw [if_pos hid]
        refine congrArg (fun rs => ({ k with requesters := rs } : Job)) (List.filter_congr fun r _ => ?_)
        simp [Prod.ext_iff]
      · rw [if_neg hid]
        refine hother k hk fun hk' => ?_
        have hsymm : Std.Symm (Function.onFun List.Disjoint fun x : Job => x.requesters) := ⟨fun _ _ h => h.symm⟩
        have hdisjoint := (List.nodup_flatMap.mp h.once).2.forall hk hmem fun he => hid (by rw [he])
        exact hdisjoint hk' hreq
  · have hnone : ∀ j ∈ s.engine.queue, (id, n) ∉ j.requesters := fun j hj hr => hfound ⟨j, hj, hr⟩
    rw [State.leaveJob_absent hnone]
    have hsame : offQueue id [n] s.engine.queue = s.engine.queue :=
      (List.map_congr_left fun k hk => hother k hk (hnone k hk)).trans (List.map_id _)
    rw [hsame]

/-- Every job of the items goes on. -/
theorem State.giveUp_shared (h : Shared id s.engine.queue) (ns : List Nat) : ns.foldl (State.giveUpWaiting id) s =
    { s with engine := { s.engine with queue := offQueue id ns s.engine.queue }, book := s.book.downgradeAll (itemsOf id ns) } := by
  induction ns generalizing s with
  | nil =>
    have hsame : offQueue id [] s.engine.queue = s.engine.queue := by simp [offQueue]
    rw [hsame]; rfl
  | cons n ns ih =>
    have hone : s.giveUpWaiting id n = ({ s with engine := { s.engine with queue := offQueue id [n] s.engine.queue } } : State).modBook
        (·.modItem id n Item.downgrade) := by rw [State.giveUpWaiting, State.leaveJob_shared h]
    rw [List.foldl_cons, hone]
    refine (ih (s := ({ s with engine := { s.engine with queue := offQueue id [n] s.engine.queue } } : State).modBook
      (·.modItem id n Item.downgrade)) (h.off [n])).trans ?_
    exact congrArg (fun q => ({ s with engine := { s.engine with queue := q }, book := s.book.downgradeAll (itemsOf id (n :: ns)) } : State))
      (offQueue_cons id n ns s.engine.queue)

/-! ## RELEASE_ORDER (R167) -/

/-- The pins of a revision fall by the number of items that name it. -/
theorem Catalogue.unpinned_revision {c : Catalogue} {r : RevName} {v : Revision} (items : List Item) (hv : c.revision r = some v) :
    (items.foldl (fun c i => c.modPins i.target (· - 1)) c).revision r =
      some { v with pins := v.pins - (items.filter fun i => i.target = .page r).length } := by
  induction items generalizing c v with
  | nil => exact hv
  | cons i items ih =>
    rw [List.foldl_cons]
    by_cases h : i.target = .page r
    · have hone : (c.modPins i.target (· - 1)).revision r = some { v with pins := v.pins - 1 } := by
        rw [h, Catalogue.modPins, Catalogue.revision_modRevision_same _ _ _ (by intro _; rfl), hv]; rfl
      rw [ih hone, List.filter_cons_of_pos (by simpa using h), List.length_cons, Nat.sub_sub, Nat.add_comm 1]
    · have hone : (c.modPins i.target (· - 1)).revision r = some v := by
        cases ht : i.target with
        | page p => exact (Catalogue.revision_modRevision_other _ _ _ _ (by intro _; rfl) fun he => h (by rw [ht, he])).trans hv
        | photo p => exact hv
      rw [ih hone, List.filter_cons_of_neg (by simpa using h)]

/-- The pins of a photograph fall by the number of items that name it. -/
theorem Catalogue.unpinned_photo {c : Catalogue} {m : Nat} {p : Photo} (items : List Item) (hp : c.photo m = some p) :
    (items.foldl (fun c i => c.modPins i.target (· - 1)) c).photo m =
      some { p with pins := p.pins - (items.filter fun i => i.target = .photo m).length } := by
  induction items generalizing c p with
  | nil => exact hp
  | cons i items ih =>
    rw [List.foldl_cons]
    by_cases h : i.target = .photo m
    · have hone : (c.modPins i.target (· - 1)).photo m = some { p with pins := p.pins - 1 } := by
        rw [h, Catalogue.modPins, Catalogue.photo_modPhoto_same _ _ _ (by intro _; rfl), hp]; rfl
      rw [ih hone, List.filter_cons_of_pos (by simpa using h), List.length_cons, Nat.sub_sub, Nat.add_comm 1]
    · have hone : (c.modPins i.target (· - 1)).photo m = some p := by
        cases ht : i.target with
        | page r => exact hp
        | photo q => exact (Catalogue.photo_modPhoto_other _ _ _ _ (by intro _; rfl) fun he => h (by rw [ht, he])).trans hp
      rw [ih hone, List.filter_cons_of_neg (by simpa using h)]

/-- Settles O54. -/
theorem closeAndReleaseOrder : Obligations.CloseAndReleaseOrder := by
  unfold Obligations.CloseAndReleaseOrder
  intro tag ps fs id o s s₁ hid ho
  obtain rfl := OrderBook.order_id ho
  refine ⟨fun ht => ?_, fun ht => ?_⟩
  · have ho₁ : s₁.book.order o.id = some o := by rw [ht.book]; exact ho
    have hengine : s₁.engine = s.engine := ht.engine
    refine ⟨fun hst => exec_takenWide (.closeOrder .sales tag ps) rfl rfl rfl ht ?_, fun queue hst hnum hcase => ?_⟩
    · simp only [bodyOfCommand, closeOrderBody, hid, required, State.checkCloseOrder, ho₁, hst, ne_eq, not_false_eq_true, if_true]
      rfl
    · let ns := (o.items.filter (·.state = .waitingRestore)).map (·.number)
      have hns : ∀ m, m ∈ ns ↔ ∃ i ∈ o.items, i.number = m ∧ i.state = .waitingRestore := fun m => by
        simp [ns, and_comm, and_assoc]
      have hgive : ns.foldl (State.giveUpWaiting o.id) s₁ =
          { s₁ with engine := { s.engine with queue }, book := s.book.downgradeAll (itemsOf o.id ns) } := by
        rw [← hengine, ← ht.book]
        rcases hcase with ⟨hids, honce, hwaits, hkept, rfl⟩ | ⟨j, n, hids, hj, hq, hx, hd, hreq, hi, hothers, rfl⟩
        · have hshared : Shared o.id s₁.engine.queue := by rw [hengine]; exact ⟨hids, honce, hkept⟩
          rw [State.giveUp_shared hshared]
          refine congrArg (fun q => ({ s₁ with engine := { s₁.engine with queue := q }, book := s₁.book.downgradeAll (itemsOf o.id ns) } : State)) ?_
          rw [hengine]
          refine List.map_congr_left fun j hj => congrArg (fun rs => ({ j with requesters := rs } : Job)) (List.filter_congr fun r hr => ?_)
          by_cases h : r.1 = o.id
          · have hmem : r.2 ∈ ns := (hns _).mpr (hwaits j hj r hr h)
            simp [h, hmem]
          · simp [h]
        · have hfound : s.engine.queue.find? (fun j => j.requesters.contains (o.id, n)) = some j := by
            obtain ⟨k, hk⟩ : ∃ k, s.engine.queue.find? (fun j => j.requesters.contains (o.id, n)) = some k := by
              rw [← Option.isSome_iff_exists, List.find?_isSome]
              exact ⟨j, hj, by simp [hreq]⟩
            have hkmem := List.mem_of_find?_eq_some hk
            have hkreq : (o.id, n) ∈ k.requesters := by simpa using List.find?_some hk
            have hkj : k.id = j.id := by
              by_contra hne
              exact hothers k hkmem hne _ hkreq rfl
            rw [hk, List.inj_on_of_nodup_map hids hkmem hj hkj]
          rw [hengine]
          refine State.giveUp_one (n := n) (g := s.engine) (fun w hw => ?_) (fun k hk m hm hmem => ?_) (fun k hk m hmem => ?_)
            ((hns n).mpr hi) hengine
          · rw [← hw]
            exact State.leavesJob_eq ⟨by rw [hw]; exact hids, j, by rw [hw]; exact hfound, .inr ⟨hd, hreq, .inl ⟨hq, hx, rfl⟩⟩⟩
          · by_cases hkj : k.id = j.id
            · rw [List.inj_on_of_nodup_map hids hk hj hkj, hreq] at hmem
              exact hm (by simpa using hmem)
            · exact hothers k hk hkj _ hmem rfl
          · obtain ⟨hkmem, hkj⟩ := List.mem_filter.mp hk
            exact hothers k hkmem (by simpa using hkj) _ hmem rfl
      have hdown := OrderBook.downgradeAll_order ho ns
      rw [Order.downgradeWaiting hnum] at hdown
      let t : State := { s₁ with
        engine := { s.engine with queue }
        book := (s.book.downgradeAll (itemsOf o.id ns)).modOrder o.id fun x => { x with state := o.closedState } }
      have hclose : s₁.closeOrder o = t := congrArg (fun w : State => w.modBook (·.modOrder o.id fun x => { x with state := o.closedState })) hgive
      have hexec : exec (.closeOrder .sales tag ps) s =
          .next (t.reply .sales tag { result := .ok, fields := [.one (if o.inFlight = 0 then 2 else 1)] }).settle := by
        have hcode : o.closedState.code = if o.inFlight = 0 then 2 else 1 := by
          unfold Order.closedState
          split <;> rfl
        refine exec_takenWide (.closeOrder .sales tag ps) rfl rfl rfl ht ?_
        simp only [bodyOfCommand, closeOrderBody, hid, required, State.checkCloseOrder, ho₁, hst, ne_eq, not_true_eq_false, if_false,
          checked, hclose, hcode]
        rfl
      refine ⟨t, hexec, ?_, ?_, fun other hne => ?_⟩
      · have hbook : t.book = { s.book with orders := t.book.orders } := by
          show OrderBook.modOrder _ _ _ = _
          rw [OrderBook.downgradeAll_frame]; rfl
        exact congrArg (fun b => ({ s₁ with engine := { s.engine with queue }, book := b } : State)) hbook
      · refine (OrderBook.order_modOrder_same _ _ _ (by intro _; rfl)).trans ?_
        rw [hdown]; rfl
      · exact (OrderBook.order_modOrder_other _ _ _ _ (by intro _; rfl) hne).trans (OrderBook.downgradeAll_order_other hne _ _)
  · have ho₁ : s₁.book.order o.id = some o := by rw [ht.book]; exact ho
    refine ⟨fun hst => exec_takenLocal (.releaseOrder .sales tag ps) rfl rfl rfl ht ?_, fun hst => ⟨s₁.releaseOrder o, ?_, rfl, ?_, ?_,
      fun other hne => ?_, fun a ha => ?_, fun other hne => ?_, fun r v hv => ?_, fun m p hp => ?_⟩⟩
    · simp only [bodyOfCommand, releaseOrderBody, hid, required, State.checkReleaseOrder, ho₁, hst, ne_eq, not_false_eq_true, if_true]
      rfl
    · refine exec_takenLocal (.releaseOrder .sales tag ps) rfl rfl rfl ht ?_
      simp only [bodyOfCommand, releaseOrderBody, hid, required, State.checkReleaseOrder, ho₁, hst, ne_eq, not_true_eq_false, if_false]
      rfl
    · exact find_filter_gone _ _ _ fun y hy => by simpa using hy
    · show s₁.book.lastOrderId = _
      rw [ht.book]
    · refine (find_filter_other _ _ _ fun y hy => ?_).trans (congrArg (fun b : OrderBook => b.order other) ht.book)
      simp at hy ⊢; omega
    · refine (OrderBook.account_modAccount_same s₁.book _ _ (by intro _; rfl)).trans ?_
      rw [ht.book, ha]; rfl
    · refine (OrderBook.account_modAccount_other s₁.book _ _ _ (by intro _; rfl) hne).trans ?_
      rw [ht.book]
    · exact Catalogue.unpinned_revision o.items (by rw [ht.cat]; exact hv)
    · exact Catalogue.unpinned_photo o.items (by rw [ht.cat]; exact hp)

end Sys2Proof.Machine
end

