-- ==== Sys2Proof/Proofs/ItemsPlaced.lean ====
section
/-! PROOF. ADD_ITEM and REMOVE_ITEM (chapter 8, R124, R163, R164). -/

namespace Sys2Proof.Machine

variable {s s₁ t u w : State} {order n : Nat} {o : Order} {it : Item} {N : NewItem} {name : RevName} {v : Revision} {fs : Fields}

/-! ## An item joins its order (R13, R163) -/

theorem OrderBook.item_of_order {b : OrderBook} (ho : b.order order = some o) (m : Nat) : b.item order m = o.item m := by
  rw [OrderBook.item, ho]; rfl

theorem OrderBook.itemAdded {b : OrderBook} (ho : b.order order = some o) (hn : o.item it.number = none) :
    b.ItemAdded order o it (b.modOrder order fun o => { o with items := insertItem it o.items }) := by
  have hins := insertItem_inserted it o.items
  have horder : (b.modOrder order fun o => { o with items := insertItem it o.items }).order order =
      some { o with items := insertItem it o.items } := by
    rw [OrderBook.order_modOrder_same _ _ _ (by intro _; rfl), ho]; rfl
  refine ⟨rfl, ?_, fun m hm => ?_, fun other ho => OrderBook.order_modOrder_other _ _ _ _ (by intro _; rfl) ho, _, horder⟩
  · rw [OrderBook.item_of_order horder]
    exact hins.find_new (by simp) hn
  · rw [OrderBook.item_of_order horder, OrderBook.item_of_order ho]
    exact hins.find_other (by simpa using Ne.symm hm)

/-- The item that joined falls back. -/
theorem OrderBook.ItemAdded.downgraded {b c : OrderBook} (h : b.ItemAdded order o it c) :
    b.ItemAdded order o it.downgrade (c.modItem order it.number Item.downgrade) := by
  obtain ⟨hframe, hitem, hitems, horders, its, horder⟩ := h
  refine ⟨?_, ?_, fun m hm => ?_, fun other ho => ?_, ?_⟩
  · exact congrArg (fun d : OrderBook => { d with orders := (c.modItem order it.number Item.downgrade).orders }) hframe
  · refine (OrderBook.item_modItem_same _ _ _ _ (by intro _; rfl)).trans ?_
    rw [hitem]; rfl
  · exact (OrderBook.item_modItem_other _ _ _ _ _ _ (by intro _; rfl) (.inr hm)).trans (hitems m hm)
  · exact (OrderBook.order_modOrder_other _ _ _ _ (by intro _; rfl) ho).trans (horders other ho)
  · refine ⟨modifyWhere (·.number = it.number) Item.downgrade its, (OrderBook.order_modOrder_same _ _ _ (by intro _; rfl)).trans ?_⟩
    rw [horder]; rfl

theorem State.placeItem_eq (N : NewItem) (st : ItemState) (s : State) : s.placeItem N st = { s with
    book := s.book.modOrder N.order fun o => { o with items := insertItem { N.item with state := st } o.items }
    cat := s.cat.modPins N.item.target (· + 1) } := rfl

theorem State.itemAnswer_of (h : s.book.item N.order N.item.number = some it) : s.itemAnswer N =
    { result := .ok, clipped := N.clipped
      fields := [.one N.item.number, N.item.target.revisionField, N.item.walk.region.field, .one it.state.code] } := by
  unfold State.itemAnswer
  rw [h]; rfl

/-! ## The request of an item (R124) -/

theorem State.itemRequest_raw (h : N.item.finish = .raw) : s.itemRequest N = (.alreadyRestored, s) := by
  unfold State.itemRequest
  rw [h]

theorem State.itemRequest_page (h : N.item.finish = .restored) (ht : N.item.target = .page name) (hv : s.cat.revision name = some v) :
    s.itemRequest N = s.requestJob (some (N.order, N.item.number)) name v .auto := by
  unfold State.itemRequest
  rw [h, ht]
  dsimp only
  rw [hv]

theorem State.addItem_refused {r : Result} (h : s.itemRequest N = (.refused r, w)) : s.addItem N = (Answer.refuse r, s) := by
  unfold State.addItem
  rw [h]; rfl
theorem State.addItem_ready (h : s.itemRequest N = (.alreadyRestored, w)) :
    s.addItem N = ((w.placeItem N .ready).itemAnswer N, w.placeItem N .ready) := by
  unfold State.addItem
  rw [h]
theorem State.addItem_joined {id : Nat} (h : s.itemRequest N = (.joined id, w)) :
    s.addItem N = ((w.placeItem N .waitingRestore).itemAnswer N, w.placeItem N .waitingRestore) := by
  unfold State.addItem
  rw [h]
theorem State.addItem_appended {id : Nat} (h : s.itemRequest N = (.appended id, w)) (ht : (w.placeItem N .waitingRestore).startNext = t) :
    s.addItem N = (t.itemAnswer N, t) := by
  unfold State.addItem
  rw [h, ← ht]

/-! ## The checks of ADD_ITEM (R163) -/

theorem finishOf_raw {f : Option Nat} (h : f = none ∨ f = some 0) : finishOf f = .raw := by
  rcases h with rfl | rfl <;> rfl

theorem Fields.inRange_finish {f : Option Nat} (hf : fs.nat 5 = f) (h : f = none ∨ f = some 0 ∨ f = some 1) : fs.inRange 5 0 1 = true := by
  refine Fields.inRange_iff.mpr fun x hx => ?_
  rw [hf] at hx
  rcases h with rfl | rfl | rfl
  · simp at hx
  · obtain rfl := Option.some.inj hx; omega
  · obtain rfl := Option.some.inj hx; omega

/-- The fields of an item name a target and pass check 1. -/
theorem addItemBody_named {named : Named} (h0 : fs.nat 0 = some order) (h1 : 1 ≤ order) (hnamed : fs.named = some named)
    (hf : fs.inRange 5 0 1 = true) (hw : fs.walkInRange 6 = true) (hc : named.cannotHave (finishOf (fs.nat 5)) = false) :
    addItemBody fs s = match s.checkAddItem order named (finishOf (fs.nat 5)) (fs.region 6) (fs.walk 6) with
      | .error r => refuseWith r s
      | .ok n => s.addItem n := by
  have hpass : ¬ (order = 0 ∨ fs.inRange 5 0 1 = false ∨ fs.walkInRange 6 = false ∨ named.cannotHave (finishOf (fs.nat 5)) = true) := by
    simp [hf, hw, hc]; omega
  simp only [addItemBody, h0, required, hnamed, if_neg hpass] <;> rfl

theorem State.checkAddItem_of {named : Named} {finish : Rendition} {rt : ReadTarget} {region : Option Region} {r : Region} {clipped : Bool}
    {walk : Region → Walk} (ho : s.book.order order = some o) (hs : o.state = .opened) (hr : s.resolveNamed named = .ok rt)
    (hc : clipRegion rt.width rt.height region = some (r, clipped)) : s.checkAddItem order named finish region walk =
      if 16 ≤ o.items.length then .error .itemsFull
      else .ok ⟨order, { number := o.freeNumber, target := rt.target, finish, walk := walk r, state := .ready }, clipped⟩ := by
  simp only [State.checkAddItem, ho, hs, ne_eq, not_true_eq_false, if_false, hr, hc]

/-! ## An item of a page (R124, R163) -/

/-- The item that ADD_ITEM makes of a page. -/
def NewItem.ofPage (order n : Nat) (name : RevName) (finish : Rendition) (walk : Walk) (clipped : Bool) : NewItem :=
  ⟨order, { number := n, target := .page name, finish, walk, state := .ready }, clipped⟩

/-- ADD_ITEM of a page that is found, with its region inside. -/
theorem exec_addItem_page {tag : Byte} {ps : List Word} {ed pg : Nat} {r : Region} {clipped : Bool} {finish : Rendition}
    (ht : Taken .sales (requestOf tag 0x56 ps) addItemLayout fs s s₁) (h0 : fs.nat 0 = some order) (ho : s.book.order order = some o)
    (hs : o.state = .opened) (h1 : 1 ≤ order) (hed : fs.nat 1 = some ed) (hpg : fs.nat 2 = some pg) (hphoto : fs.nat 4 = none)
    (hrange : pageNameInRange ed pg (fs.nat 3) = true) (hw : fs.walkInRange 6 = true)
    (hresolve : s.cat.resolve ed pg (fs.nat 3) = .ok (name, v)) (hclip : clipRegion v.width v.height (fs.region 6) = some (r, clipped))
    (hfinish : finish = .raw ∧ (fs.nat 5 = none ∨ fs.nat 5 = some 0) ∨ finish = .restored ∧ fs.nat 5 = some 1) :
    (16 ≤ o.items.length → exec (.addItem .sales tag ps) s = .next (s₁.reply .sales tag { result := .itemsFull }).settle) ∧
    (o.items.length < 16 → ∀ {a : Answer} {t : State},
      s₁.addItem (NewItem.ofPage order o.freeNumber name finish (fs.walk 6 r) clipped) = (a, t) →
        exec (.addItem .sales tag ps) s = .next (t.reply .sales tag a).settle) := by
  have hnamed : fs.named = some (.page ed pg (fs.nat 3)) := by simp [Fields.named, hed, hpg, hphoto, hrange]
  have hf : finishOf (fs.nat 5) = finish ∧ fs.inRange 5 0 1 = true := by
    rcases hfinish with ⟨rfl, h⟩ | ⟨rfl, h⟩
    · exact ⟨finishOf_raw h, Fields.inRange_finish rfl (h.imp_right .inl)⟩
    · exact ⟨by rw [h]; rfl, Fields.inRange_finish rfl (.inr (.inr h))⟩
  have hbody := addItemBody_named (s := s₁) h0 h1 hnamed hf.2 hw rfl
  have htarget : s₁.resolveNamed (.page ed pg (fs.nat 3)) = .ok ⟨.page name, v.width, v.height, v.raw, v.restored.map (·.extent)⟩ :=
    State.pageTarget_found (by rw [ht.cat]; exact hresolve)
  rw [hf.1, State.checkAddItem_of (by rw [ht.book]; exact ho) hs htarget hclip] at hbody
  refine ⟨fun hfull => ?_, fun hroom a t h => ?_⟩
  · rw [if_pos hfull] at hbody
    exact exec_takenWide (.addItem .sales tag ps) rfl rfl rfl ht hbody
  · rw [if_neg (Nat.not_le.mpr hroom)] at hbody
    exact exec_takenWide (.addItem .sales tag ps) rfl rfl rfl ht (hbody.trans h)

/-- A placed item of a page: it has joined its order, and its revision has one pin more. -/
theorem State.placeItem_page {walk : Walk} {clipped : Bool} {finish : Rendition} {st : ItemState} (ho : w.book.order order = some o)
    (hn : o.item n = none) (hv : w.cat.revision name = some v) :
    ∃ t : State, w.placeItem (NewItem.ofPage order n name finish walk clipped) st = t ∧
      t = { w with cat := { w.cat with editions := t.cat.editions }, book := t.book } ∧
      w.book.ItemAdded order o { number := n, target := .page name, finish, walk, state := st, downgraded := false } t.book ∧
      t.cat.revision name = some { v with pins := v.pins + 1 } ∧ ∀ q, q ≠ name → t.cat.revision q = w.cat.revision q := by
  refine ⟨_, rfl, rfl, OrderBook.itemAdded (it := { number := n, target := .page name, finish, walk, state := st, downgraded := false })
    ho hn, ?_, fun q hq => Catalogue.revision_modRevision_other _ _ _ _ (by intro _; rfl) hq⟩
  exact (Catalogue.revision_modRevision_same w.cat _ _ (by intro _; rfl)).trans (by rw [hv]; rfl)

/-- A job that finds no place fails at its start. -/
theorem State.startJob_refused {j : Job} {r : AllocRefusal} (hv : s.cat.revision j.revision = some v) (ho : v.damage.overflow = false)
    (hp : s.alloc.place v.tiles = .error r) : s.startJob j =
      s.endJob .failed .noSpace (some r) (j.capture s.engine.settings (s.engine.capturedTone j.source)) := by
  unfold State.startJob
  simp only [hv, ho, Bool.false_eq_true, if_false, hp]

/-- A new job of an item alone in the queue that finds no place: the queue is empty, and the item falls back. -/
theorem State.startNext_refused {id : Nat} {r : AllocRefusal} (hq : s.engine.queue = [Job.fresh id name .auto (some (order, n))])
    (hv : s.cat.revision name = some v) (ho : v.damage.overflow = false) (hp : s.alloc.place (v.width * v.height) = .error r) :
    s.startNext = ({ s with
      engine := { s.engine with queue := [] }, book := s.book.modItem order n Item.downgrade } : State).raise .itemReady := by
  let j := (Job.fresh id name .auto (some (order, n))).capture s.engine.settings (s.engine.capturedTone .auto)
  have hstart : s.startJob (Job.fresh id name .auto (some (order, n))) =
      ({ s with engine := { s.engine with queue := [] }, book := s.book.modItem order n Item.downgrade } : State).raise .itemReady := by
    refine (State.startJob_refused hv ho hp).trans ((State.endJob_inactive (j := j) rfl rfl).trans ?_)
    rw [State.raise_sales rfl]
    have hgone : s.engine.queue.filter (fun y => y.id ≠ j.id) = [] := by rw [hq]; simp [j, Job.fresh, Job.capture]
    exact congrArg (fun q => ({ s with
      engine := { s.engine with queue := q }, book := s.book.modItem order n Item.downgrade, sales := (s.raise .itemReady).sales } : State)) hgone
  rw [State.startNext_one hq rfl (.inl (by rw [hstart]; rfl)), hstart]

end Sys2Proof.Machine
end

