-- ==== Sys2Proof/Proofs/ItemsSettled.lean ====
section
/-! PROOF. ADD_ITEM and REMOVE_ITEM, settled (chapter 8, R124, R163, R164). -/

namespace Sys2Proof.Machine

variable {s s₁ t u w : State} {order n : Nat} {o : Order} {it : Item} {name : RevName} {v : Revision} {fs : Fields} {walk : Walk}
  {clipped : Bool}

/-! ## An item that waits for a restoration (R124) -/

/-- The item request of a page whose rendition is to be made. -/
theorem State.itemRequest_restored (hv : s.cat.revision name = some v) :
    s.itemRequest (NewItem.ofPage order n name .restored walk clipped) = s.requestJob (some (order, n)) name v .auto :=
  State.itemRequest_page rfl rfl hv

/-- The refusals of the item request (R124). -/
theorem State.itemRequest_refused {a : Result} (hv : s.cat.revision name = some v) (hr : v.restored.map (·.source) ≠ some .auto)
    (ha : v.damage.overflow = true ∧ a = .notRestorable ∨
      (v.damage.overflow = false ∧ a = .jobFull ∧
        ∃ j, s.engine.queue.find? (fun j => j.revision = name && j.source = .auto) = some j ∧ 4 ≤ j.requesters.length) ∨
      (v.damage.overflow = false ∧ a = .queueFull ∧ (∀ j ∈ s.engine.queue, j.revision = name → j.source ≠ .auto) ∧
        16 ≤ s.engine.queue.length)) :
    s.itemRequest (NewItem.ofPage order n name .restored walk clipped) = (.refused a, s) := by
  rw [State.itemRequest_restored hv]
  rcases ha with ⟨ho, rfl⟩ | ⟨ho, rfl, j, hj, hf⟩ | ⟨ho, rfl, hn, hf⟩
  · exact State.requestJob_overflow hr ho
  · exact State.requestJob_full hr ho hj rfl hf
  · exact State.requestJob_queueFull hr ho hn hf

/-- The item joins the job of its revision, or a job behind an active one: `g` is the engine with it. -/
theorem State.addItem_waits (hv : s.cat.revision name = some v) (hr : v.restored.map (·.source) ≠ some .auto)
    (ho : v.damage.overflow = false)
    (hcase : (∃ j, s.engine.queue.find? (fun j => j.revision = name && j.source = .auto) = some j ∧ j.requesters.length < 4) ∨
      ((∀ j ∈ s.engine.queue, j.revision = name → j.source ≠ .auto) ∧ s.engine.queue.length < 16 ∧
        ∃ head rest, s.engine.queue = head :: rest ∧ head.state ≠ .queued)) :
    ∃ w : State, w = { s with engine := { s.engine with queue := w.engine.queue, lastId := w.engine.lastId } } ∧
      s.addItem (NewItem.ofPage order n name .restored walk clipped) =
        ((w.placeItem (NewItem.ofPage order n name .restored walk clipped) .waitingRestore).itemAnswer
          (NewItem.ofPage order n name .restored walk clipped),
          w.placeItem (NewItem.ofPage order n name .restored walk clipped) .waitingRestore) ∧
      ∃ j ∈ w.engine.queue, j.revision = name ∧ j.source = .auto ∧ (order, n) ∈ j.requesters := by
  have hrequest := State.itemRequest_restored (order := order) (n := n) (walk := walk) (clipped := clipped) hv
  rcases hcase with ⟨j, hj, hroom⟩ | ⟨hn, hlen, head, rest, hq, hhead⟩
  · rw [State.requestJob_joined hr ho hj (.inr hroom)] at hrequest
    refine ⟨_, rfl, State.addItem_joined hrequest, j.join (some (order, n)), ?_, ?_⟩
    · show _ ∈ (Engine.modJob _ _ _).queue
      rw [Engine.modJob_map]
      exact List.mem_map.mpr ⟨j, List.mem_of_find?_eq_some hj, if_pos rfl⟩
    · have hsame := List.find?_some hj
      simp only [Bool.and_eq_true, decide_eq_true_eq] at hsame
      exact ⟨hsame.1, hsame.2, by simp [Job.join]⟩
  · rw [State.requestJob_appended hr ho hn hlen rfl] at hrequest
    refine ⟨s.appendJob (nextFree 255 s.engine.idInUse 25 s.engine.lastId) name .auto (some (order, n)), rfl,
      State.addItem_appended hrequest (State.startNext_busy (j := head)
        (rest := rest ++ [Job.fresh (nextFree 255 s.engine.idInUse 25 s.engine.lastId) name .auto (some (order, n))]) ?_ hhead),
      Job.fresh (nextFree 255 s.engine.idInUse 25 s.engine.lastId) name .auto (some (order, n)), ?_, rfl, rfl, ?_⟩
    · show s.engine.queue ++ _ = _
      rw [hq]; rfl
    · show _ ∈ s.engine.queue ++ _
      simp
    · simp [Job.fresh]

/-- The reply to ADD_ITEM with the item as it stands. -/
def addedAnswer (clipped : Bool) (n revision : Nat) (r : Region) (state : Nat) : Answer :=
  { result := .ok, clipped, fields := [.one n, .one revision, .many [r.x0, r.y0, r.w, r.h], .one state] }

/-- An item placed with its request made: `w` is the state with the request, and `t` with the item. -/
theorem State.addItem_placed {finish : Rendition} {st : ItemState} {k : Link} {r : Region} (ho : s.book.order order = some o)
    (hn : o.item n = none) (hv : s.cat.revision name = some v) (hwalk : walk.region = r)
    (hw : w = { s.setLink .sales k with engine := { s.engine with queue := w.engine.queue, lastId := w.engine.lastId } })
    (ha : (s.setLink .sales k).addItem (NewItem.ofPage order n name finish walk clipped) =
      ((w.placeItem (NewItem.ofPage order n name finish walk clipped) st).itemAnswer (NewItem.ofPage order n name finish walk clipped),
        w.placeItem (NewItem.ofPage order n name finish walk clipped) st)) :
    ∃ t : State, (s.setLink .sales k).addItem (NewItem.ofPage order n name finish walk clipped) =
        (addedAnswer clipped n name.revision r st.code, t) ∧
      t = { s.setLink .sales k with
        cat := { s.cat with editions := t.cat.editions }, book := t.book
        engine := { s.engine with queue := t.engine.queue, lastId := t.engine.lastId } } ∧
      s.book.ItemAdded order o { number := n, target := .page name, finish, walk, state := st, downgraded := false } t.book ∧
      t.cat.revision name = some { v with pins := v.pins + 1 } ∧
      (∀ q, q ≠ name → t.cat.revision q = s.cat.revision q) ∧ t.engine = w.engine := by
  have hbook : w.book = s.book := by rw [hw]; rfl
  have hcat : w.cat = s.cat := by rw [hw]; rfl
  obtain ⟨t, ht, hframe, hadded, hpin, hothers⟩ := State.placeItem_page (w := w) (st := st) (walk := walk) (clipped := clipped)
    (finish := finish) (by rw [hbook]; exact ho) hn (by rw [hcat]; exact hv)
  rw [hbook] at hadded
  have hengine : t.engine = w.engine := by rw [hframe]
  rw [ht, State.itemAnswer_of hadded.2.1] at ha
  subst hwalk
  refine ⟨t, ha, ?_, hadded, hpin, fun q hq => by rw [hothers q hq, hcat], hengine⟩
  have hsame : ∀ es b, ({ w with cat := { w.cat with editions := es }, book := b } : State) = { s.setLink .sales k with
      cat := { s.cat with editions := es }, book := b
      engine := { s.engine with queue := w.engine.queue, lastId := w.engine.lastId } } := by
    intro es b
    rw [hw]; rfl
  rw [hengine]
  exact hframe.trans (hsame _ _)

/-- An item whose new job stands alone in the queue: `w` is the state with the item placed, before the job starts. -/
theorem State.addItem_appends {id : Nat} {k : Link} (ho : s.book.order order = some o) (hn : o.item n = none)
    (hv : s.cat.revision name = some v) (hr : v.restored.map (·.source) ≠ some .auto) (hover : v.damage.overflow = false)
    (hempty : s.engine.queue = []) (hid : id = nextFree 255 s.engine.idInUse 25 s.engine.lastId) :
    ∃ w : State, w = { s.setLink .sales k with
        cat := { s.cat with editions := w.cat.editions }, book := w.book
        engine := { s.engine with queue := [Job.fresh id name .auto (some (order, n))], lastId := id } } ∧
      s.book.ItemAdded order o { number := n, target := .page name, finish := .restored, walk, state := .waitingRestore
                                 downgraded := false } w.book ∧
      w.cat.revision name = some { v with pins := v.pins + 1 } ∧ (∀ q, q ≠ name → w.cat.revision q = s.cat.revision q) ∧
      ∀ t, w.startNext = t → (s.setLink .sales k).addItem (NewItem.ofPage order n name .restored walk clipped) =
        (t.itemAnswer (NewItem.ofPage order n name .restored walk clipped), t) := by
  have hrequest := State.itemRequest_restored (s := s.setLink .sales k) (order := order) (n := n) (walk := walk) (clipped := clipped) hv
  rw [State.requestJob_appended (s := s.setLink .sales k) (id := id) hr hover
    (by show ∀ j ∈ s.engine.queue, _; rw [hempty]; simp) (by show s.engine.queue.length < 16; rw [hempty]; decide) hid] at hrequest
  obtain ⟨w, hw, hframe, hadded, hpin, hothers⟩ := State.placeItem_page (order := order) (n := n) (finish := .restored)
    (w := (s.setLink .sales k).appendJob id name .auto (some (order, n))) (st := .waitingRestore) (walk := walk) (clipped := clipped)
    ho hn hv
  refine ⟨w, hframe.trans ?_, hadded, hpin, hothers, fun t ht => State.addItem_appended hrequest (by rw [hw]; exact ht)⟩
  exact congrArg (fun q => ({ s.setLink .sales k with
    cat := { s.cat with editions := w.cat.editions }, book := w.book
    engine := { s.engine with queue := q ++ [Job.fresh id name .auto (some (order, n))], lastId := id } } : State)) hempty

/-! ## An item leaves its order (R164) -/

theorem OrderBook.item_erased {b : OrderBook} (order n : Nat) :
    (b.modOrder order fun o => { o with items := o.items.filter (·.number ≠ n) }).item order n = none ∧
      ∀ m, m ≠ n → (b.modOrder order fun o => { o with items := o.items.filter (·.number ≠ n) }).item order m = b.item order m := by
  have horder := OrderBook.order_modOrder_same b order (fun o => { o with items := o.items.filter (·.number ≠ n) }) (by intro _; rfl)
  unfold OrderBook.item
  rw [horder]
  cases b.order order with
  | none => exact ⟨rfl, fun _ _ => rfl⟩
  | some o =>
    refine ⟨find_filter_gone _ _ _ fun y hy => by simpa using hy, fun m hm => find_filter_other _ _ _ fun y hy => ?_⟩
    simp at hy ⊢; omega

theorem Catalogue.unpin_revision {c : Catalogue} {r : RevName} (target : Target) (hv : c.revision r = some v) :
    (c.modPins target (· - 1)).revision r = some (if target = .page r then { v with pins := v.pins - 1 } else v) := by
  cases target with
  | page q =>
    by_cases h : q = r
    · subst h
      rw [if_pos rfl, Catalogue.modPins, Catalogue.revision_modRevision_same _ _ _ (by intro _; rfl), hv]; rfl
    · rw [if_neg (by simpa using h)]
      exact (Catalogue.revision_modRevision_other _ _ _ _ (by intro _; rfl) (Ne.symm h)).trans hv
  | photo q => rw [if_neg (by simp)]; exact hv

theorem Catalogue.unpin_photo {c : Catalogue} {m : Nat} {p : Photo} (target : Target) (hp : c.photo m = some p) :
    (c.modPins target (· - 1)).photo m = some (if target = .photo m then { p with pins := p.pins - 1 } else p) := by
  cases target with
  | page q => rw [if_neg (by simp)]; exact hp
  | photo q =>
    by_cases h : q = m
    · subst h
      rw [if_pos rfl, Catalogue.modPins, Catalogue.photo_modPhoto_same _ _ _ (by intro _; rfl), hp]; rfl
    · rw [if_neg (by simpa using h)]
      exact (Catalogue.photo_modPhoto_other _ _ _ _ (by intro _; rfl) (Ne.symm h)).trans hp

/-- The state with an item, which waits for no job any more, taken out of its order. -/
def State.erasedItem (u : State) (order : Nat) (i : Item) : State :=
  { u with
    book := u.book.modOrder order fun o => { o with items := o.items.filter (·.number ≠ i.number) }
    cat := u.cat.modPins i.target (· - 1) }

/-! ## An item of a photograph (R163) -/

/-- ADD_ITEM of a photograph: RESTORED is refused, and a complete one is found with its region inside. -/
theorem exec_addItem_photo {tag : Byte} {ps : List Word} {id : Nat} {p : Photo} {r : Region} {clipped : Bool}
    (ht : Taken .sales (requestOf tag 0x56 ps) addItemLayout fs s s₁) (h0 : fs.nat 0 = some order) (ho : s.book.order order = some o)
    (hs : o.state = .opened) (h1 : 1 ≤ order) (hed : fs.nat 1 = none) (hpg : fs.nat 2 = none) (hrev : fs.nat 3 = none)
    (hphoto : fs.nat 4 = some id) (hid : 1 ≤ id) (hw : fs.walkInRange 6 = true) :
    (fs.nat 5 = some 1 → exec (.addItem .sales tag ps) s = .next (s₁.reply .sales tag { result := .badValue }).settle) ∧
    (fs.nat 5 = none ∨ fs.nat 5 = some 0 → s.cat.photo id = some p → p.state = .complete →
      clipRegion p.width p.height (fs.region 6) = some (r, clipped) →
      (16 ≤ o.items.length → exec (.addItem .sales tag ps) s = .next (s₁.reply .sales tag { result := .itemsFull }).settle) ∧
      (o.items.length < 16 → ∀ {a : Answer} {t : State},
        s₁.addItem ⟨order, { number := o.freeNumber, target := .photo id, finish := .raw, walk := fs.walk 6 r, state := .ready }, clipped⟩ =
          (a, t) → exec (.addItem .sales tag ps) s = .next (t.reply .sales tag a).settle)) := by
  have hnamed : fs.named = some (.photo id) := by simp [Fields.named, hed, hpg, hrev, hphoto, hid]
  refine ⟨fun h5 => exec_takenWide (.addItem .sales tag ps) rfl rfl rfl ht ?_, fun h5 hp hstate hclip => ?_⟩
  · have hbad : order = 0 ∨ fs.inRange 5 0 1 = false ∨ fs.walkInRange 6 = false ∨ (Named.photo id).cannotHave (finishOf (fs.nat 5)) = true :=
      .inr (.inr (.inr (by rw [h5]; rfl)))
    simp only [bodyOfCommand, addItemBody, h0, required, hnamed, if_pos hbad]
    rfl
  · have hfin := finishOf_raw h5
    have hbody := addItemBody_named (s := s₁) h0 h1 hnamed (Fields.inRange_finish rfl (h5.imp_right .inl)) hw (by rw [hfin]; rfl)
    have htarget : s₁.resolveNamed (.photo id) = .ok ⟨.photo id, p.width, p.height, p.extent, none⟩ :=
      State.photoTarget_found (by rw [ht.cat]; exact hp) hstate
    rw [hfin, State.checkAddItem_of (by rw [ht.book]; exact ho) hs htarget hclip] at hbody
    refine ⟨fun hfull => ?_, fun hroom a t h => ?_⟩
    · rw [if_pos hfull] at hbody
      exact exec_takenWide (.addItem .sales tag ps) rfl rfl rfl ht hbody
    · rw [if_neg (Nat.not_le.mpr hroom)] at hbody
      exact exec_takenWide (.addItem .sales tag ps) rfl rfl rfl ht (hbody.trans h)

/-- Settles O55. -/
theorem items : Obligations.Items := by
  unfold Obligations.Items
  intro tag ps fs order o s s₁ h0 ho hs
  refine ⟨fun ed pg n name v r clipped finish ht h1 hed hpg hphoto hrange hw hresolve hv hclip hfinish => ?_,
    fun id n p r clipped ht h1 hed hpg hrev hphoto hid hw => ?_, fun n i ht hn hi => ?_⟩
  · obtain ⟨hfull, hexec⟩ := exec_addItem_page ht h0 ho hs h1 hed hpg hphoto hrange hw hresolve hclip hfinish
    have hv₁ : s₁.cat.revision name = some v := by rw [ht.cat]; exact hv
    have hengine : s₁.engine = s.engine := ht.engine
    refine ⟨hfull, fun hroom hn => ?_⟩
    obtain ⟨hfree, hlow, hhigh, hlowest⟩ := Order.freeNumber_spec o hroom
    have hexec := fun {a : Answer} {t : State} => hexec hroom (a := a) (t := t)
    have ho₁ : s₁.book.order order = some o := by rw [ht.book]; exact ho
    subst hn
    refine ⟨hfree, hlow, hhigh, hlowest, fun a hres ha => ?_, fun st hst => ?_, fun id hfin hr hover hempty hidn => ⟨fun first e hp he hm hwait hfly => ?_,
      fun refusal hp => ?_⟩⟩
    · obtain ⟨rfl, hr⟩ := hres
      exact hexec (State.addItem_refused (State.itemRequest_refused hv₁ hr (by rw [hengine]; exact ha)))
    · obtain ⟨-, -, k, -, -, rfl⟩ := ht
      rcases hst with ⟨hmade, rfl⟩ | ⟨rfl, hr, hover, rfl, hcase⟩
      · have hrequest : (s.setLink .sales k.take).itemRequest (NewItem.ofPage order o.freeNumber name finish (fs.walk 6 r) clipped) =
            (.alreadyRestored, s.setLink .sales k.take) := by
          rcases hfinish with ⟨rfl, -⟩ | ⟨rfl, -⟩
          · exact State.itemRequest_raw rfl
          · exact (State.itemRequest_restored hv₁).trans (State.requestJob_restored (hmade.resolve_left (by simp)))
        obtain ⟨t, ha, hframe, hadded, hpin, hothers, hg⟩ := State.addItem_placed (r := r) ho hfree hv rfl rfl (State.addItem_ready hrequest)
        exact ⟨t, hexec ha, hframe, hadded, hpin, hothers, fun _ => hg.trans hengine, fun h => absurd h (by simp)⟩
      · obtain ⟨w, hw, ha, j, hj, hjr, hjs, hjm⟩ := State.addItem_waits (order := order) (n := o.freeNumber) (walk := fs.walk 6 r)
          (clipped := clipped) hv₁ hr hover (by rw [hengine]; exact hcase)
        obtain ⟨t, ha, hframe, hadded, hpin, hothers, hg⟩ := State.addItem_placed (r := r) ho hfree hv rfl hw ha
        exact ⟨t, hexec ha, hframe, hadded, hpin, hothers, fun h => absurd h (by simp),
          fun _ => ⟨j, by rw [hg]; exact hj, hjr, hjs, hjm⟩⟩
    · subst hfin
      obtain ⟨-, -, k, -, -, rfl⟩ := ht
      obtain ⟨w, hframe, hadded, hpin, hothers, ha⟩ := State.addItem_appends (k := k.take) (walk := fs.walk 6 r) (clipped := clipped)
        ho hfree hv hr hover hempty hidn
      obtain ⟨hstart, hjob⟩ := State.startNext_fresh (s := w) (s₀ := s) (v := { v with pins := v.pins + 1 }) (by rw [hframe])
        (by rw [hframe]; rfl) (by rw [hframe]; rfl) hpin hover hp he hm (Store.outstanding_free hwait hfly)
      obtain ⟨t, ht⟩ : ∃ t, t = w.startNext := ⟨_, rfl⟩
      rw [← ht] at hstart hjob
      have hbook : t.book = w.book := by rw [hstart]
      have hcat : t.cat = w.cat := by rw [hstart]
      have ha := ha t ht.symm
      rw [State.itemAnswer_of (by rw [hbook]; exact hadded.2.1)] at ha
      refine ⟨t, hexec ha, ?_, by rw [hbook]; exact hadded, by rw [hcat]; exact hpin, fun q hq => by rw [hcat]; exact hothers q hq, hjob⟩
      rw [hbook, hcat]
      refine hstart.trans ?_
      rw [hframe]
    · subst hfin
      obtain ⟨-, -, k, -, -, rfl⟩ := ht
      obtain ⟨w, hframe, hadded, hpin, hothers, ha⟩ := State.addItem_appends (k := k.take) (walk := fs.walk 6 r) (clipped := clipped)
        ho hfree hv hr hover hempty hidn
      have hdown := hadded.downgraded
      have hfail := State.startNext_refused (s := w) (id := id) (by rw [hframe]) hpin hover (by rw [hframe]; exact hp)
      obtain ⟨t, ht⟩ : ∃ t : State, t = { w with
        engine := { w.engine with queue := [] }, book := w.book.modItem order o.freeNumber Item.downgrade } := ⟨_, rfl⟩
      rw [← ht] at hfail
      have hbook : t.book = w.book.modItem order o.freeNumber Item.downgrade := by rw [ht]
      have hcat : t.cat = w.cat := by rw [ht]
      have ha := ha _ hfail
      rw [State.itemAnswer_of (by rw [State.raise_book, hbook]; exact hdown.2.1)] at ha
      refine ⟨t, hexec ha, ?_, by rw [hbook]; exact hdown, by rw [hcat]; exact hpin, fun q hq => by rw [hcat]; exact hothers q hq⟩
      rw [hbook, hcat]
      refine ht.trans ?_
      rw [hframe]
      exact congrArg (fun q => ({ s.setLink .sales k.take with
        cat := { s.cat with editions := w.cat.editions }, book := w.book.modItem order o.freeNumber Item.downgrade
        engine := { s.engine with queue := q, lastId := id } } : State)) hempty.symm
  · obtain ⟨hrestored, hraw⟩ := exec_addItem_photo ht h0 ho hs h1 hed hpg hrev hphoto hid hw
    refine ⟨hrestored, fun hfin hp hstate hclip => ?_⟩
    obtain ⟨hfull, hexec⟩ := hraw hfin hp hstate hclip
    refine ⟨hfull, fun hroom hn => ?_⟩
    have hexec := fun {a : Answer} {t : State} => hexec hroom (a := a) (t := t)
    obtain ⟨hfree, -⟩ := Order.freeNumber_spec o hroom
    obtain ⟨-, -, k, -, -, rfl⟩ := ht
    subst hn
    let N : NewItem := ⟨order, { number := o.freeNumber, target := .photo id, finish := .raw, walk := fs.walk 6 r, state := .ready }, clipped⟩
    let t := (s.setLink .sales k.take).placeItem N .ready
    have hadded : s.book.ItemAdded order o N.item t.book := OrderBook.itemAdded (b := s.book) (it := N.item) ho hfree
    have ha : (s.setLink .sales k.take).addItem N = (t.itemAnswer N, t) := State.addItem_ready (State.itemRequest_raw rfl)
    rw [State.itemAnswer_of (s := t) (N := N) hadded.2.1] at ha
    refine ⟨t, hexec ha, rfl, hadded, ?_, fun q hq => Catalogue.photo_modPhoto_other _ _ _ _ (by intro _; rfl) hq⟩
    exact (Catalogue.photo_modPhoto_same s.cat _ _ (by intro _; rfl)).trans (by rw [hp]; rfl)
  · have hnumber : i.number = n := by simpa using List.find?_some hi
    have ho₁ : s₁.book.order order = some o := by rw [ht.book]; exact ho
    have hbody : removeItemBody fs s₁ = if i.state = .inDelivery then (Answer.refuse .itemBusy, s₁) else (Answer.ok [], s₁.removeItem order i) := by
      simp only [removeItemBody, h0, hn, required, State.checkRemoveItem, ho₁, hs, ne_eq, not_true_eq_false, if_false, hi]
      split <;> rfl
    refine ⟨fun hbusy => exec_takenWide (.removeItem .sales tag ps) rfl rfl rfl ht (hbody.trans (if_pos hbusy)), fun u hu => ?_⟩
    have hremove : s₁.removeItem order i = u.erasedItem order i := by
      unfold State.removeItem
      rcases hu with ⟨hst, rfl⟩ | ⟨hst, hleave⟩
      · have hnot : i.state ≠ .waitingRestore := by rcases hst with h | h <;> simp [h]
        simp only [if_neg hnot]
        rfl
      · rw [← hnumber] at hleave
        simp only [if_pos hst, State.leavesJob_eq hleave]
        rfl
    have hfree : i.state ≠ .inDelivery := by rcases hu with ⟨h | h, -⟩ | ⟨h, -⟩ <;> simp [h]
    obtain ⟨hgone, hkept⟩ := OrderBook.item_erased (b := u.book) order i.number
    rw [hnumber] at hgone hkept
    refine ⟨u.erasedItem order i, exec_takenWide (.removeItem .sales tag ps) rfl rfl rfl ht
      (hbody.trans ((if_neg hfree).trans (by rw [hremove]; rfl))), rfl, ?_, fun m hm => ?_,
      fun other hne => OrderBook.order_modOrder_other _ _ _ _ (by intro _; rfl) hne, ?_, fun r v hv => Catalogue.unpin_revision _ hv,
      fun x p hp => Catalogue.unpin_photo _ hp⟩
    · show OrderBook.item (u.book.modOrder order fun o => { o with items := o.items.filter (·.number ≠ i.number) }) order n = none
      rw [hnumber]; exact hgone
    · show OrderBook.item (u.book.modOrder order fun o => { o with items := o.items.filter (·.number ≠ i.number) }) order m = _
      rw [hnumber]; exact hkept m hm
    · cases hx : u.book.order order with
      | none => exact ⟨[], (OrderBook.order_modOrder_same _ _ _ (by intro _; rfl)).trans (by rw [hx]; rfl)⟩
      | some x => exact ⟨x.items.filter (·.number ≠ i.number), (OrderBook.order_modOrder_same _ _ _ (by intro _; rfl)).trans (by rw [hx]; rfl)⟩

end Sys2Proof.Machine
end

