-- ==== Sys2Proof/Proofs/LinkResets.lean ====
section
/-! PROOF. LINK_RESET: the deposit port emptied, the deliveries ended, the desk flags cleared, and the links afterwards (R195, R196). -/

namespace Sys2Proof.Machine

variable {s t u : State}

/-! ## The deposit port (R46) -/

theorem insertNat_perm (n : Nat) (xs : List Nat) : (insertNat n xs).Perm (n :: xs) := by
  induction xs with
  | nil => exact .refl _
  | cons x xs ih =>
    rw [insertNat]
    split
    · exact .refl _
    · exact (ih.cons x).trans (.swap n x xs)

theorem foldr_insertNat_perm (xs : List Nat) : (xs.foldr insertNat []).Perm xs := by
  induction xs with
  | nil => exact .refl _
  | cons x xs ih => exact (insertNat_perm x _).trans (ih.cons x)

theorem DepositPort.mem_occupants {p : DepositPort} {d : Deposit} : d ∈ p.occupants ↔ ∃ k, p.slots.get k = some d := by
  have hall : ∀ k : Fin 4, k ∈ fourIndices := by decide
  simp [DepositPort.occupants, DepositPort.numbered, hall]

/-- A handle in a slot is found. -/
theorem DepositPort.find_handle {p : DepositPort} {h : Nat} (hh : h ∈ p.occupants.map (·.handle)) :
    ∃ k d, p.find h = some (k, d) := by
  have hall : ∀ k : Fin 4, k ∈ fourIndices := by decide
  obtain ⟨d, hd, hdh⟩ := List.mem_map.mp hh
  obtain ⟨k, hk⟩ := DepositPort.mem_occupants.mp hd
  have hsome : (p.find h).isSome = true := by
    unfold DepositPort.find DepositPort.numbered
    rw [List.findSome?_isSome_iff]
    exact ⟨_, List.mem_map.mpr ⟨k, hall k, rfl⟩, by simp [hk, hdh]⟩
  obtain ⟨⟨k', d'⟩, hf⟩ := Option.isSome_iff_exists.mp hsome
  exact ⟨k', d', hf⟩

theorem DepositPort.occupants_eq (p : DepositPort) : p.occupants =
    p.slots.at0.toList ++ (p.slots.at1.toList ++ (p.slots.at2.toList ++ p.slots.at3.toList)) := by
  obtain ⟨⟨a, b, c, e⟩, buffer, ended, timeout, last⟩ := p
  cases a <;> cases b <;> cases c <;> cases e <;> rfl

/-- A slot that becomes FREE loses its deposit and no other. -/
theorem DepositPort.occupants_free {p : DepositPort} {k : Fin 4} {d : Deposit} (hk : p.slots.get k = some d) :
    p.occupants.Perm (d :: (p.setSlot k none).occupants) := by
  obtain ⟨⟨a, b, c, e⟩, buffer, ended, timeout, last⟩ := p
  rw [DepositPort.occupants_eq, DepositPort.occupants_eq]
  fin_cases k
  · obtain rfl : a = some d := hk
    exact .refl _
  · obtain rfl : b = some d := hk
    exact List.perm_middle
  · obtain rfl : c = some d := hk
    refine (List.Perm.append_left a.toList (List.perm_middle (l₁ := b.toList))).trans List.perm_middle
  · obtain rfl : e = some d := hk
    refine (List.Perm.append_left a.toList (List.Perm.append_left b.toList
      (List.perm_middle (l₁ := c.toList) (l₂ := [])))).trans ?_
    exact (List.Perm.append_left a.toList List.perm_middle).trans List.perm_middle

/-- An abort without an entry changes nothing of the port but its slot and its buffer. -/
theorem State.abortDeposit_port (k : Fin 4) (d : Deposit) (o : Option DepositOutcome) (s : State) :
    (s.abortDeposit k d o).port.slots = s.port.slots.set k none ∧
    (s.abortDeposit k d o).port.ended = match o with
      | some o => (s.port.addEnded (d.toEnded o)).ended
      | none => s.port.ended := by
  have hport : (s.removeTarget d.target).port = s.port := by rw [State.removeTarget_frame]
  have hslots : ((s.removeTarget d.target).dropBuffered d.handle).port.slots = s.port.slots ∧
      ((s.removeTarget d.target).dropBuffered d.handle).port.ended = s.port.ended := by
    rw [← hport]
    unfold State.dropBuffered
    split
    · split <;> exact ⟨rfl, rfl⟩
    · exact ⟨rfl, rfl⟩
  obtain ⟨hslots, hended⟩ := hslots
  unfold State.abortDeposit
  cases o with
  | none => exact ⟨congrArg (fun f : Four (Option Deposit) => f.set k none) hslots, hended⟩
  | some o =>
    exact ⟨congrArg (fun f : Four (Option Deposit) => f.set k none) hslots,
      congrArg (fun l : List EndedDeposit => (if 8 ≤ l.length then l.tail else l) ++ [d.toEnded o]) hended⟩

/-- The deposits of a list of handles are aborted: with all the handles in the list, no slot holds a deposit. -/
theorem abortHandles_all {hs : List Nat} {o : Option DepositOutcome} (h : (s.port.occupants.map (·.handle)).Perm hs) :
    (hs.foldl (State.abortHandle o) s).port.slots = ⟨none, none, none, none⟩ := by
  induction hs generalizing s with
  | nil =>
    have hnone : s.port.occupants = [] := List.map_eq_nil_iff.mp h.eq_nil
    rw [DepositPort.occupants_eq] at hnone
    simp only [List.append_eq_nil_iff, Option.toList_eq_nil_iff] at hnone
    obtain ⟨h0, h1, h2, h3⟩ := hnone
    calc s.port.slots = ⟨s.port.slots.at0, s.port.slots.at1, s.port.slots.at2, s.port.slots.at3⟩ := rfl
      _ = _ := by rw [h0, h1, h2, h3]
  | cons n hs ih =>
    obtain ⟨k, d, hf⟩ := DepositPort.find_handle (h.symm.subset List.mem_cons_self)
    obtain ⟨hk, hd⟩ := DepositPort.find_some hf
    have hstep : State.abortHandle o s n = s.abortDeposit k d o := by simp only [State.abortHandle, hf]
    rw [List.foldl_cons, hstep]
    refine ih ?_
    have hocc : (s.abortDeposit k d o).port.occupants = (s.port.setSlot k none).occupants := by
      rw [DepositPort.occupants_eq, (State.abortDeposit_port k d o s).1, DepositPort.occupants_eq]
      rfl
    rw [hocc]
    refine List.Perm.cons_inv (a := n) (.trans ?_ h)
    have hmap := ((DepositPort.occupants_free hk).map (·.handle)).symm
    rwa [List.map_cons, hd] at hmap

theorem State.resetDeposits_port (s : State) : s.resetDeposits.port.slots = ⟨none, none, none, none⟩ ∧
    s.resetDeposits.port.buffer = none ∧ s.resetDeposits.port.ended = [] :=
  ⟨abortHandles_all (foldr_insertNat_perm _).symm, rfl, rfl⟩

/-! ## The job queue (R142, R144) -/

variable {j y : Job}

/-- A job that ends leaves the queue, and joins the ended list when its desk flag is set. -/
theorem State.endJob_engine (final : JobState) (cause : JobEnd) (refusal : Option AllocRefusal) (j : Job) (s : State) :
    (s.endJob final cause refusal j).engine.queue = s.engine.queue.filter (·.id ≠ j.id) ∧
    (j.desk = false → (s.endJob final cause refusal j).engine.ended = s.engine.ended) := by
  have hended : ∀ u : State, u.engine = s.engine →
      (((u.modEngine fun g => { g with queue := g.queue.filter (·.id ≠ j.id) }).jobReaderEnd j).downgradeItems j.requesters).engine =
        { s.engine with queue := s.engine.queue.filter (·.id ≠ j.id) } := fun u hu => by
    rw [(State.downgradeItems_within _).engine (by decide), (State.jobReaderEnd_within j).engine (by decide), ← hu]
    rfl
  have hfreed : (match j.scratch with
      | some n => s.modAlloc (·.release n)
      | none => s).engine = s.engine := by
    split <;> rfl
  have hleft := hended _ hfreed
  have hkeep : ∀ (v : State) (e : Job), (v.modEngine (Engine.addEnded e)).engine.queue = v.engine.queue := fun _ _ => rfl
  unfold State.endJob
  dsimp only
  split
  next hd =>
    refine ⟨?_, fun hdesk => by simp [hd] at hdesk⟩
    split
    · exact congrArg Engine.queue hleft
    · refine (hkeep _ _).trans ?_
      rw [(State.raise_within .restoreFailed).engine (by decide)]
      exact congrArg Engine.queue hleft
  next => exact ⟨congrArg Engine.queue hleft, fun _ => (congrArg Engine.ended hleft).trans rfl⟩

theorem Engine.mem_modJob {g : Engine} {id : Nat} {f : Job → Job} (hy : y ∈ (g.modJob id f).queue) :
    y ∈ g.queue ∨ ∃ j ∈ g.queue, j.id = id ∧ y = f j := by
  rw [Engine.modJob_map] at hy
  obtain ⟨j, hj, rfl⟩ := List.mem_map.mp hy
  split
  next hid => exact .inr ⟨j, hj, hid, rfl⟩
  next => exact .inl hj

/-- The start of a job leaves other jobs as they were; the job is gone, or surveying. -/
theorem State.startJob_engine (j : Job) (s : State) :
    (∀ y ∈ (s.startJob j).engine.queue, y ∈ s.engine.queue ∨ ∃ settings tone n, y = (j.capture settings tone).started n) ∧
    (j.desk = false → (s.startJob j).engine.ended = s.engine.ended) := by
  have hfail : ∀ cause refusal (j' : Job), j'.desk = j.desk →
      (∀ y ∈ (s.endJob .failed cause refusal j').engine.queue, y ∈ s.engine.queue ∨
        ∃ settings tone n, y = (j.capture settings tone).started n) ∧
      (j.desk = false → (s.endJob .failed cause refusal j').engine.ended = s.engine.ended) := fun cause refusal j' hdesk => by
    obtain ⟨hq, he⟩ := State.endJob_engine .failed cause refusal j' s
    refine ⟨fun y hy => .inl ?_, fun h => he (hdesk.trans h)⟩
    rw [hq] at hy
    exact List.mem_of_mem_filter hy
  unfold State.startJob
  dsimp only
  split
  · exact ⟨fun y hy => .inl hy, fun _ => rfl⟩
  · split
    · exact hfail _ _ _ rfl
    · split
      · exact hfail _ _ _ rfl
      · rw [State.engineRead_within.engine (by decide)]
        refine ⟨fun y hy => ?_, fun _ => rfl⟩
        obtain hold | ⟨-, -, -, hnew⟩ := Engine.mem_modJob hy
        · exact .inl hold
        · exact .inr ⟨_, _, _, hnew⟩

/-- What the jobs of a queue have in common when their starts keep it, and the ended list when no job has a desk flag. -/
theorem State.startJobs_engine {P : Job → Prop} (hP : ∀ j settings tone n, P j → P ((j.capture settings tone).started n))
    (fuel : Nat) (h : ∀ y ∈ s.engine.queue, P y) :
    (∀ y ∈ (s.startJobs fuel).engine.queue, P y) ∧
    ((∀ y, P y → y.desk = false) → (s.startJobs fuel).engine.ended = s.engine.ended) := by
  induction fuel generalizing s with
  | zero => exact ⟨h, fun _ => rfl⟩
  | succ fuel ih =>
    unfold State.startJobs
    split
    next j rest hq =>
      split
      next =>
        have hj : P j := h j (by rw [hq]; exact List.mem_cons_self)
        obtain ⟨hold, hended⟩ := State.startJob_engine j s
        obtain ⟨hall, hkept⟩ := ih (s := s.startJob j) fun y hy => by
          obtain hy | ⟨_, _, _, rfl⟩ := hold y hy
          · exact h y hy
          · exact hP _ _ _ _ hj
        exact ⟨hall, fun hdesk => (hkept hdesk).trans (hended (hdesk j hj))⟩
      next => exact ⟨h, fun _ => rfl⟩
    next => exact ⟨h, fun _ => rfl⟩

/-- No job has a desk flag, and no ended record is left. -/
def Engine.Deskless (g : Engine) : Prop := g.ended = [] ∧ ∀ j ∈ g.queue, j.desk = false

theorem State.startNext_deskless (h : s.engine.Deskless) : s.startNext.engine.Deskless := by
  obtain ⟨hended, hqueue⟩ := h
  obtain ⟨hall, hkept⟩ := State.startJobs_engine (P := fun y => y.desk = false) (fun _ _ _ _ h => h) (s.engine.queue.length + 1) hqueue
  exact ⟨(hkept fun _ h => h).trans hended, hall⟩

theorem State.endJob_deskless (final : JobState) (cause : JobEnd) (refusal : Option AllocRefusal) (hj : j.desk = false)
    (h : s.engine.Deskless) : (s.endJob final cause refusal j).engine.Deskless := by
  obtain ⟨hended, hqueue⟩ := h
  obtain ⟨hq, he⟩ := State.endJob_engine final cause refusal j s
  refine ⟨(he hj).trans hended, fun y hy => hqueue y ?_⟩
  rw [hq] at hy
  exact List.mem_of_mem_filter hy

theorem State.cancelIfAlone_deskless (id : Nat) (h : s.engine.Deskless) : (s.cancelIfAlone id).engine.Deskless := by
  unfold State.cancelIfAlone
  split
  next j hj =>
    have hdesk : j.desk = false := h.2 j (List.mem_of_find?_eq_some hj)
    split
    · unfold State.cancelJob
      split
      · exact State.endJob_deskless _ _ _ hdesk h
      · split
        · refine ⟨h.1, fun y hy => ?_⟩
          obtain hold | ⟨k, hk, -, rfl⟩ := Engine.mem_modJob hy
          · exact h.2 y hold
          · exact h.2 k hk
        · exact State.startNext_deskless (State.endJob_deskless _ _ _ hdesk h)
    · exact h
  next => exact h

theorem State.resetDeskFlags_deskless (s : State) : s.resetDeskFlags.engine.Deskless := by
  have hfold : ∀ (ids : List Nat) (u : State), u.engine.Deskless → (ids.foldl (fun s id => s.cancelIfAlone id) u).engine.Deskless :=
    fun ids => by
      induction ids with
      | nil => exact fun _ hu => hu
      | cons id ids ih => exact fun u hu => ih _ (State.cancelIfAlone_deskless id hu)
  refine hfold _ _ ⟨rfl, fun y hy => ?_⟩
  obtain ⟨_, -, rfl⟩ := List.mem_map.mp hy
  rfl

/-! ## The links (R195) -/

/-- A state whose links differ by their notices alone keeps what they queue and send. -/
theorem State.resetWork_links (l : LinkId) (s : State) :
    (∀ m, (s.resetWork l).link m = { s.link m with notices := ((s.resetWork l).link m).notices }) ∧
    (s.resetWork l).inForce = s.inForce := by
  cases l with
  | production =>
    have hw : s.Within (.mover :: abortable) s.resetDeposits := State.resetDeposits_within.mono rfl
    have hall : s.Within (.mover :: abortable) (s.resetWork .production) := by
      unfold State.resetWork
      dsimp only
      split
      · exact hw
      · exact (hw.step (State.modMover_within _) rfl).step (State.endCompaction_within .stopped) rfl
      · exact hw.step (State.modAlloc_within _ rfl) rfl
    exact ⟨hall.link, hall.inForce (by decide)⟩
  | desk =>
    have hw := (State.endAllDeliveries_within cutOffDeliveries_bounded (s := s)).mono (R := publishable) rfl
    have hw' := hw.step State.resetDeskFlags_within rfl
    exact ⟨hw'.link, hw'.inForce (by decide)⟩
  | sales => exact ⟨fun _ => rfl, rfl⟩

theorem State.modLink_inForce (l : LinkId) (f : Link → Link) (s : State) : (s.modLink l f).inForce = s.inForce := by
  cases l <;> rfl

/-- A transmitter's choice changes no link but in what it sends. -/
theorem State.transmit_link (l m : LinkId) (s : State) : ∃ sending, (s.transmit l).link m = { s.link m with sending } := by
  by_cases h : m = l
  · subst h
    unfold State.transmit
    split
    · exact ⟨_, rfl⟩
    · split
      · exact ⟨_, State.modLink_link _ _ _⟩
      · split
        next hm =>
          subst hm
          split <;> exact ⟨_, rfl⟩
        next => exact ⟨_, rfl⟩
  · exact ⟨_, State.transmit_link_other h s⟩

theorem State.settle_link (m : LinkId) (s : State) : ∃ sending, s.settle.link m = { s.link m with sending } := by
  obtain ⟨a, ha⟩ := State.transmit_link .production m (s.modStore (Store.settle s.now))
  obtain ⟨b, hb⟩ := State.transmit_link .desk m ((s.modStore (Store.settle s.now)).transmit .production)
  obtain ⟨c, hc⟩ := State.transmit_link .sales m (((s.modStore (Store.settle s.now)).transmit .production).transmit .desk)
  refine ⟨c, hc.trans ?_⟩
  rw [hb, ha]
  cases m <;> rfl

/-- The tile held at the production link changes no other link, no queue and no block but the port and the store. -/
theorem State.passHeldTile_frame (s : State) : ∃ (port : DepositPort) (store : Store) (held : Option Held) (rs : List Reply),
    s.passHeldTile = { s with port, store, production := { s.production with held, replies := s.production.replies ++ rs } } := by
  unfold State.passHeldTile
  split
  next n i x hx =>
    split
    next =>
      obtain ⟨port, store, hp⟩ : ∃ (port : DepositPort) (store : Store),
          ((s.modLink .production fun k => { k with held := none }).takeTile n i x).2 =
            { s with port, store, production := { s.production with held := none } } := by
        unfold State.takeTile
        repeat' split
        all_goals exact ⟨_, _, rfl⟩
      refine ⟨port, store, none, [⟨0, ((s.modLink .production fun k => { k with held := none }).takeTile n i x).1⟩], ?_⟩
      show State.reply _ .production 0 _ = _
      rw [hp]
      rfl
    next => exact ⟨s.port, s.store, s.production.held, [], by rw [List.append_nil]⟩
  next => exact ⟨s.port, s.store, s.production.held, [], by rw [List.append_nil]⟩

/-- The controller in its start state and the OK reply, after the reset work (R195). -/
def State.resetReply (l : LinkId) (tag : Byte) (s : State) : State :=
  let s := s.modNotices l fun _ => Controller.start (sourceCount l)
  let s := if l = .desk then { s with deskTurn := 3 } else s
  s.reply l tag (Answer.ok [])

theorem State.resetReply_link (l : LinkId) (tag : Byte) (s : State) : (s.resetReply l tag).link l =
    { s.link l with
      notices := Controller.start (sourceCount l)
      replies := (s.link l).replies ++ [{ tag, answer := { result := .ok } }] } := by
  cases l <;> rfl
theorem State.resetReply_link_other {l m : LinkId} (hm : m ≠ l) (tag : Byte) (s : State) :
    (s.resetReply l tag).link m = s.link m := by
  cases l <;> cases m <;> first | exact absurd rfl hm | rfl
theorem State.resetReply_blocks (l : LinkId) (tag : Byte) (s : State) :
    (s.resetReply l tag).port = s.port ∧ (s.resetReply l tag).alloc = s.alloc ∧
    (s.resetReply l tag).table = s.table ∧ (s.resetReply l tag).engine = s.engine := by
  cases l <;> exact ⟨rfl, rfl, rfl, rfl⟩

/-- The state after steps 1 to 4 of LINK_RESET, before a held tile frame and the choices at the end of the step (R195). -/
def State.afterReset (l : LinkId) (tag : Byte) (s : State) : State := ((s.modLink l Link.clear).resetWork l).resetReply l tag

theorem exec_linkReset {l : LinkId} {tag : Byte} (hp : s.power = .running) (hf : (s.link l).resetFree = true) :
    exec (.linkReset l tag) s = .next (s.afterReset l tag).passHeldTile.settle := by
  show execLinkReset l tag s = _
  rw [execLinkReset, whenRunning_of_running hp]
  exact if_pos hf

/-- The link that was reset holds its one reply, and its controller is in the start state. -/
theorem State.afterReset_link (l : LinkId) (tag : Byte) (s : State) : (s.afterReset l tag).link l =
    { queue := [], held := (s.link l).held, replies := [{ tag, answer := { result := .ok } }], sending := none
      notices := Controller.start (sourceCount l) } := by
  have hwork := (State.resetWork_links l (s.modLink l Link.clear)).1 l
  rw [State.modLink_link] at hwork
  rw [State.afterReset, State.resetReply_link, hwork]
  rfl

theorem State.afterReset_link_other {l m : LinkId} (hm : m ≠ l) (tag : Byte) (s : State) :
    ((s.afterReset l tag).link m).queue = (s.link m).queue ∧ ((s.afterReset l tag).link m).replies = (s.link m).replies := by
  have hwork := (State.resetWork_links l (s.modLink l Link.clear)).1 m
  rw [State.modLink_link_other s l m Link.clear hm] at hwork
  rw [State.afterReset, State.resetReply_link_other hm, hwork]
  exact ⟨rfl, rfl⟩

/-- The blocks stand as the reset work left them. -/
theorem State.afterReset_blocks (l : LinkId) (tag : Byte) (s : State) :
    (s.afterReset l tag).port = ((s.modLink l Link.clear).resetWork l).port ∧
    (s.afterReset l tag).alloc = ((s.modLink l Link.clear).resetWork l).alloc ∧
    (s.afterReset l tag).table = ((s.modLink l Link.clear).resetWork l).table ∧
    (s.afterReset l tag).engine = ((s.modLink l Link.clear).resetWork l).engine :=
  State.resetReply_blocks l tag _

/-- The reset work of the production link empties the port and leaves no compaction WAITING (R46, R62). -/
theorem State.resetWork_production (s : State) : (s.resetWork .production).port.slots = ⟨none, none, none, none⟩ ∧
    (s.resetWork .production).port.buffer = none ∧ (s.resetWork .production).port.ended = [] ∧
    (s.resetWork .production).alloc.compaction.state ≠ .waiting ∧
    ((s.resetWork .production).alloc.compaction.state = .copying → (s.resetWork .production).alloc.compaction.stop = true) := by
  obtain ⟨hslots, hbuffer, hended⟩ := s.resetDeposits_port
  unfold State.resetWork
  dsimp only
  split
  next hidle => exact ⟨hslots, hbuffer, hended, by rw [hidle]; decide, by rw [hidle]; exact fun h => absurd h (by decide)⟩
  next =>
    exact ⟨hslots, hbuffer, hended, by simp [State.endCompaction, State.modAlloc, Allocator.modCompaction, Compaction.finish],
      by simp [State.endCompaction, State.modAlloc, Allocator.modCompaction, Compaction.finish]⟩
  next hcopying => exact ⟨hslots, hbuffer, hended, fun h => absurd (hcopying.symm.trans h) (by decide), fun _ => rfl⟩

/-- The reset work of the desk link leaves no delivery record and no desk flag (R98, R144). -/
theorem State.resetWork_desk (s : State) : (s.resetWork .desk).table.records = [] ∧ (s.resetWork .desk).engine.Deskless := by
  refine ⟨?_, State.resetDeskFlags_deskless _⟩
  have htable := (State.resetDeskFlags_within (s := s.endAllDeliveries cutOffDeliveries)).table (by decide)
  exact congrArg DeliveryTable.records htable

/-- Settles O9: the reset work of each link, and then its reply. -/
theorem linkResetStartsAfresh : Obligations.LinkResetStartsAfresh := by
  unfold Obligations.LinkResetStartsAfresh
  refine ⟨fun tag h i x s hp hheld => ⟨_, exec_linkReset hp (by simp [State.link, Link.resetFree, hheld]), ?_⟩,
    fun l tag s hp hheld => ?_⟩
  · obtain ⟨u, hu⟩ : ∃ u, u = s.afterReset .production tag := ⟨_, rfl⟩
    rw [← hu]
    have hlink : u.production = _ := hu ▸ State.afterReset_link .production tag s
    obtain ⟨hport, -, -, -⟩ := State.afterReset_blocks .production tag s
    obtain ⟨hslots, hbuffer, -, -, -⟩ := (s.modLink .production Link.clear).resetWork_production
    rw [← hport, ← hu] at hslots hbuffer
    have hfind : u.port.find h = none := by
      simp [DepositPort.find, DepositPort.numbered, fourIndices, Four.get, hslots]
    have hpass : u.passHeldTile = { u with production := { u.production with
        held := none, replies := [{ tag, answer := { result := .ok } }] ++
          [{ tag := 0, answer := { result := .noDeposit, fields := [.one h, .one i] } }] } } := by
      rw [State.passHeldTile_pass (s := u) (n := h) (i := i) (x := x) (by rw [hlink]; exact hheld) hbuffer
        (by rw [hlink]; simp)]
      have htake : ({ u with production := { u.production with held := none } } : State).takeTile h i x =
          (tileReply .noDeposit h i, { u with production := { u.production with held := none } }) := by
        simp only [State.takeTile, hfind]
      unfold State.passTile
      rw [htake]
      simp only [State.reply, State.modLink, State.link, State.setLink, hlink]
      rfl
    have hsending : (u.passHeldTile.link .production).sending = none := by
      rw [hpass]; simp only [State.link, hlink]
    have hsends := (State.settle_sends_reply hsending).mpr (by rw [hpass]; simp [State.link])
    obtain ⟨sending, hsettle⟩ := State.settle_link .production u.passHeldTile
    have hend : u.passHeldTile.settle.production = { u.passHeldTile.production with sending } := hsettle
    refine ⟨?_, ?_, hsends, ?_⟩
    · rw [hend, hpass]
    · rw [hend, hpass]; simp only [hlink]
    · rw [hend, hpass]; rfl
  · refine ⟨_, exec_linkReset hp (by simp [Link.resetFree, hheld]), ?_⟩
    obtain ⟨u, hu⟩ : ∃ u, u = s.afterReset l tag := ⟨_, rfl⟩
    have hlink := State.afterReset_link l tag s
    have hlinks := fun m (hm : m ≠ l) => State.afterReset_link_other hm tag s
    obtain ⟨hport, halloc, htable, hengine⟩ := State.afterReset_blocks l tag s
    have hforce := (State.resetWork_links l (s.modLink l Link.clear)).2.trans (State.modLink_inForce l Link.clear s)
    rw [← hu] at hlink hlinks hport halloc htable hengine ⊢
    have hsame : u.passHeldTile.link l = u.link l := by
      by_cases hl : l = .production
      · subst hl
        rw [State.passHeldTile_still fun n i x hx => ?_]
        have hnone : u.production.held = none := (congrArg Link.held hlink).trans hheld
        rw [hnone] at hx
        cases hx
      · obtain ⟨_, _, _, _, hframe⟩ := u.passHeldTile_frame
        rw [hframe]
        cases l <;> first | exact absurd rfl hl | rfl
    obtain ⟨sending, hsettle⟩ := State.settle_link l u.passHeldTile
    rw [hsame, hlink] at hsettle
    have hsends : (u.passHeldTile.settle.link l).sending = some .reply :=
      (State.settle_sends_reply (by rw [hsame, hlink])).mpr (by rw [hsame, hlink]; simp)
    refine ⟨by rw [hsettle], by rw [hsettle], hsends, by rw [hsettle], fun m hm => ?_, ?_, ?_, ?_⟩
    · obtain ⟨sending, hm'⟩ := State.settle_link m u.passHeldTile
      obtain ⟨_, _, held, rs, hframe⟩ := u.passHeldTile_frame
      rw [hm', hframe]
      obtain ⟨hqueue, hreplies⟩ := hlinks m hm
      rw [← hqueue, ← hreplies]
      cases m with
      | production => exact ⟨rfl, List.prefix_append _ _⟩
      | desk => exact ⟨rfl, List.prefix_rfl⟩
      | sales => exact ⟨rfl, List.prefix_rfl⟩
    · rintro rfl
      have hstill : u.passHeldTile = u := State.passHeldTile_still fun n i x hx => by
        have hnone : u.production.held = none := (congrArg Link.held hlink).trans hheld
        rw [hnone] at hx
        cases hx
      obtain ⟨hslots, hbuffer, hended, hwaiting, hcopying⟩ := (s.modLink .production Link.clear).resetWork_production
      rw [hstill, State.settle_port, State.settle_alloc, hport, halloc]
      exact ⟨hslots, hbuffer, hended, congrArg (fun f => f.2.1) hforce, congrArg (fun f => f.1) hforce, hwaiting, hcopying⟩
    · rintro rfl
      obtain ⟨hrecords, hended, hqueue⟩ := (s.modLink .desk Link.clear).resetWork_desk
      obtain ⟨_, _, _, _, hframe⟩ := u.passHeldTile_frame
      have ht : u.passHeldTile.table = u.table := by rw [hframe]
      have he : u.passHeldTile.engine = u.engine := by rw [hframe]
      rw [State.settle_table, State.settle_engine, ht, he, htable, hengine]
      exact ⟨hrecords, congrArg (fun f => f.2.2.1.1) hforce, congrArg (fun f => f.2.2.1.2) hforce, hended, hqueue,
        congrArg (fun f => f.2.2.2.1) hforce, congrArg (fun f => f.2.2.2.2) hforce⟩
    · rintro rfl
      have hu' : u = { s with sales := u.link .sales } := by rw [hu]; rfl
      rw [hu', hlink, hheld]
      rfl

end Sys2Proof.Machine
end

