-- ==== Sys2Proof/Proofs/Removals.lean ====
section
/-! PROOF. Revisions removed one after the other, and an edition that is dissolved (R14, R16, R44). -/

namespace Sys2Proof.Machine

variable {s t u : State} {c : Catalogue} {r q : RevName} {v w : Revision} {e : Edition} {n m id : Nat}

/-! ## One revision -/

/-- A removal leaves every other revision where it is found. -/
theorem Catalogue.revision_without_kept (h : c.revision q = some w) (hne : q ≠ r) : (c.without r v).revision q = some w := by
  by_cases hed : q.edition = r.edition
  · obtain ⟨e, he⟩ := Catalogue.edition_of_revision h
    have hrev : ((e.page q.page).bind (·.rev q.revision)) = some w := by
      rw [Catalogue.revision, he] at h; exact h
    have hnew : (c.without r v).revision q = ((e.eraseRevision r).page q.page).bind (·.rev q.revision) := by
      rw [Catalogue.revision, hed, Catalogue.edition_without (hed ▸ he)]; rfl
    rw [hnew]
    by_cases hpage : q.page = r.page
    · obtain ⟨p, hp, hw⟩ := Option.bind_eq_some_iff.mp hrev
      have hrevision : w.number ≠ r.revision := fun hnum => hne <| by
        have hw' : w.number = q.revision := by simpa using List.find?_some hw
        cases q; cases r; simp_all
      have hrest : (p.revs.filter (·.number ≠ r.revision)).find? (·.number = q.revision) = some w :=
        find_filter_first hw (by simpa using hrevision)
      have hsome : p.revs.filter (·.number ≠ r.revision) ≠ [] := List.ne_nil_of_mem (List.mem_of_find?_eq_some hrest)
      rw [hpage] at hp ⊢
      rw [Edition.page_eraseRevision_same hp hsome]
      exact hrest
    · rw [Edition.page_eraseRevision_other hpage]
      exact hrev
  · rw [Catalogue.revision, Catalogue.edition_without_other hed]
    exact h

theorem Catalogue.without_named (r : RevName) (v : Revision) (c : Catalogue) :
    (c.without r v).editions.map (fun e => (e.id, e.state)) = c.editions.map fun e => (e.id, e.state) := by
  unfold Catalogue.without Catalogue.modEdition modifyWhere
  rw [Catalogue.dropRefs_editions, List.map_map]
  refine List.map_congr_left fun e _ => ?_
  simp only [Function.comp_apply]
  split <;> rfl

theorem Catalogue.without_photos (r : RevName) (v : Revision) (c : Catalogue) :
    (c.without r v).photos.map (fun p => (p.id, p.state)) = c.photos.map fun p => (p.id, p.state) := by
  show (c.dropRefs r v.photos).photos.map _ = _
  refine List.foldlRecOn v.photos _ (motive := fun d : Catalogue =>
    d.photos.map (fun p => (p.id, p.state)) = c.photos.map fun p => (p.id, p.state)) rfl fun d hd _ _ => ?_
  rw [← hd]
  unfold Catalogue.modPhoto modifyWhere
  rw [List.map_map]
  refine List.map_congr_left fun e _ => ?_
  simp only [Function.comp_apply]
  split <;> rfl

/-! ## Released extents -/

variable {a b : Allocator}

@[simp] theorem Allocator.giveBack_compaction (a : Allocator) (n : Nat) : (a.giveBack n).compaction = a.compaction := by
  unfold Allocator.giveBack; split <;> rfl

@[simp] theorem Allocator.release_compaction (a : Allocator) (n : Nat) : (a.release n).compaction = a.compaction := by
  unfold Allocator.release
  split
  · rfl
  · split
    · rfl
    · exact a.giveBack_compaction n
    · exact a.giveBack_compaction n
    · split
      · exact a.giveBack_compaction n
      · rfl
    · rfl

theorem foldl_compaction {α : Type} {f : Allocator → α → Allocator} (hf : ∀ a x, (f a x).compaction = a.compaction)
    (l : List α) (a : Allocator) : (l.foldl f a).compaction = a.compaction :=
  List.foldlRecOn (motive := fun b => b.compaction = a.compaction) l f rfl fun _ hb x _ => (hf _ x).trans hb

/-- The extent is LIVE without a reader, or its record is free. -/
def Allocator.Idle (a : Allocator) (n : Nat) : Prop := ∀ x, a.find n = some x → x.state = .live ∧ x.readers = 0

theorem Allocator.release_none (h : a.find n = none) : a.release n = a := by
  unfold Allocator.release
  rw [h]

theorem Allocator.Idle.released (h : a.Idle n) : (a.release n).find n = none := by
  cases hn : a.find n with
  | none => rw [Allocator.release_none hn]; exact hn
  | some x => exact (Allocator.release_unused hn (.inr (.inr (h x hn)))).2.1

theorem Allocator.Idle.release (h : a.Idle n) (m : Nat) : (a.release m).Idle n := by
  by_cases hm : n = m
  · subst hm
    intro x hx
    rw [h.released] at hx
    cases hx
  · intro x hx
    rw [Allocator.find_release_other a m n hm] at hx
    exact h x hx

theorem Allocator.Idle.releaseEach (h : a.Idle n) (ns : List Nat) :
    (ns.foldl (fun a n => a.release n) a).Idle n ∧ (n ∈ ns → (ns.foldl (fun a n => a.release n) a).find n = none) := by
  induction ns generalizing a with
  | nil => exact ⟨h, fun hn => absurd hn List.not_mem_nil⟩
  | cons m ns ih =>
    obtain ⟨hidle, hgone⟩ := ih (h.release m)
    refine ⟨hidle, fun hn => ?_⟩
    by_cases hrest : n ∈ ns
    · exact hgone hrest
    · obtain rfl := (List.mem_cons.mp hn).resolve_right hrest
      have hfree : (a.release n).find n = none := h.released
      refine List.foldlRecOn (motive := fun b : Allocator => b.find n = none) ns _ hfree fun b hb k _ => ?_
      by_cases hk : n = k
      · rw [← hk, Allocator.release_none hb]; exact hb
      · rw [Allocator.find_release_other b k n hk]; exact hb

theorem Allocator.releaseEach_none (h : a.find n = none) (ns : List Nat) :
    (ns.foldl (fun a n => a.release n) a).find n = none := by
  refine List.foldlRecOn (motive := fun b : Allocator => b.find n = none) ns _ h fun b hb k _ => ?_
  by_cases hk : n = k
  · rw [← hk, Allocator.release_none hb]; exact hb
  · rw [Allocator.find_release_other b k n hk]; exact hb

/-! ## A run of removals -/

/-- Revisions are removed in order (R16, R22). -/
def State.removeAll (rs : List RevName) (s : State) : State := rs.foldl (fun s r => s.removeRevision r) s

theorem State.removeAll_cons (r : RevName) (rs : List RevName) (s : State) :
    s.removeAll (r :: rs) = (s.removeRevision r).removeAll rs := rfl

/-- What one removal does, whether the revision is found or not, is done by every removal of a run. -/
theorem State.removeAll_induct {P : State → Prop} {rs : List RevName} (hs : P s)
    (hstep : ∀ (u : State) r v, r ∈ rs → P u → u.cat.revision r = some v →
      P { u with cat := u.cat.without r v, alloc := v.extents.foldl (fun a n => a.release n) u.alloc }) : P (s.removeAll rs) := by
  refine List.foldlRecOn (motive := P) rs _ hs fun u hu r hr => ?_
  cases hv : u.cat.revision r with
  | none => rw [State.removeRevision_none hv]; exact hu
  | some v => rw [State.removeRevision_eq hv]; exact hstep u r v hr hu hv

theorem State.removeAll_frame (rs : List RevName) (s : State) : s.removeAll rs =
    { s with cat := (s.removeAll rs).cat, alloc := (s.removeAll rs).alloc } := by
  refine State.removeAll_induct (P := fun u : State => u = { s with cat := u.cat, alloc := u.alloc }) rfl fun u r v _ hu _ => ?_
  rw [hu]

theorem State.removeAll_compaction (rs : List RevName) (s : State) : (s.removeAll rs).alloc.compaction = s.alloc.compaction := by
  refine State.removeAll_induct (P := fun u : State => u.alloc.compaction = s.alloc.compaction) rfl fun u r v _ hu _ => ?_
  exact (foldl_compaction (fun a n => a.release_compaction n) _ _).trans hu

theorem State.removeAll_named (rs : List RevName) (s : State) :
    (s.removeAll rs).cat.editions.map (fun e => (e.id, e.state)) = s.cat.editions.map fun e => (e.id, e.state) := by
  refine State.removeAll_induct (P := fun u : State => u.cat.editions.map (fun e => (e.id, e.state)) =
    s.cat.editions.map fun e => (e.id, e.state)) rfl fun u r v _ hu _ => ?_
  exact (Catalogue.without_named r v u.cat).trans hu

theorem State.removeAll_photoIds (rs : List RevName) (s : State) :
    (s.removeAll rs).cat.photos.map (fun p => (p.id, p.state)) = s.cat.photos.map fun p => (p.id, p.state) := by
  refine State.removeAll_induct (P := fun u : State => u.cat.photos.map (fun p => (p.id, p.state)) =
    s.cat.photos.map fun p => (p.id, p.state)) rfl fun u r v _ hu _ => ?_
  exact (Catalogue.without_photos r v u.cat).trans hu

/-- An edition keeps its record but for its pages and its FILLING count. -/
theorem State.removeAll_edition (rs : List RevName) (h : s.cat.edition id = some e) :
    ∃ pages filling, (s.removeAll rs).cat.edition id = some { e with pages, filling } := by
  refine State.removeAll_induct (P := fun u : State => ∃ pages filling, u.cat.edition id = some { e with pages, filling })
    ⟨e.pages, e.filling, h⟩ fun u r v _ hu _ => ?_
  obtain ⟨pages, filling, hu⟩ := hu
  by_cases hid : id = r.edition
  · subst hid
    exact ⟨(({ e with pages, filling } : Edition).eraseRevision r).pages,
      if v.state = .filling then filling - 1 else filling, Catalogue.edition_without hu⟩
  · exact ⟨pages, filling, (Catalogue.edition_without_other hid).trans hu⟩

theorem State.removeAll_edition_other {rs : List RevName} (h : ∀ r ∈ rs, r.edition ≠ id) :
    (s.removeAll rs).cat.edition id = s.cat.edition id := by
  refine State.removeAll_induct (P := fun u : State => u.cat.edition id = s.cat.edition id) rfl fun u r v hr hu _ => ?_
  exact (Catalogue.edition_without_other (Ne.symm (h r hr))).trans hu

theorem State.removeAll_revision {rs : List RevName} (h : s.cat.revision q = some w) (hq : q ∉ rs) :
    (s.removeAll rs).cat.revision q = some w := by
  refine State.removeAll_induct (P := fun u : State => u.cat.revision q = some w) h fun u r v hr hu _ => ?_
  exact Catalogue.revision_without_kept hu fun he => hq (he ▸ hr)

/-- A photograph loses references of the removed revisions alone. -/
theorem State.removeAll_photo (rs : List RevName) {p : Photo} (h : s.cat.photo id = some p) :
    ∃ refs, (s.removeAll rs).cat.photo id = some { p with refs } ∧ refs.Sublist p.refs ∧ ∀ q ∈ p.refs, q ∉ rs → q ∈ refs := by
  refine State.removeAll_induct (P := fun u : State => ∃ refs, u.cat.photo id = some { p with refs } ∧ refs.Sublist p.refs ∧
    ∀ q ∈ p.refs, q ∉ rs → q ∈ refs) ⟨p.refs, h, .refl _, fun q hq _ => hq⟩ fun u r v hr hu _ => ?_
  obtain ⟨refs, hu, hsub, hkept⟩ := hu
  have hphoto := Catalogue.photo_without r v u.cat id
  rw [hu, Option.map_some] at hphoto
  split at hphoto
  · refine ⟨_, hphoto, List.filter_sublist.trans hsub, fun q hq hrs => ?_⟩
    exact List.mem_filter.mpr ⟨hkept q hq hrs, by simpa using fun he : q = r => hrs (he ▸ hr)⟩
  · exact ⟨refs, hphoto, hsub, hkept⟩

/-- The idle extents of the removed revisions are returned, and stay so. -/
theorem State.removeAll_extent {rs : List RevName} (hr : r ∈ rs) (hv : s.cat.revision r = some v) (hn : n ∈ v.extents)
    (hidle : s.alloc.Idle n) : (s.removeAll rs).alloc.find n = none := by
  induction rs generalizing s with
  | nil => exact absurd hr List.not_mem_nil
  | cons q rs ih =>
    rw [State.removeAll_cons]
    by_cases hq : r = q
    · subst hq
      rw [State.removeRevision_eq hv]
      refine State.removeAll_induct (P := fun u : State => u.alloc.find n = none)
        ((hidle.releaseEach v.extents).2 hn) fun u r v _ hu _ => ?_
      exact Allocator.releaseEach_none hu _
    · have hrest := (List.mem_cons.mp hr).resolve_left hq
      cases hv' : s.cat.revision q with
      | none => rw [State.removeRevision_none hv']; exact ih hrest hv hidle
      | some v' =>
        rw [State.removeRevision_eq hv']
        exact ih hrest (Catalogue.revision_without_kept hv hq) (hidle.releaseEach v'.extents).1

/-! ## Distinct names -/

theorem Catalogue.distinct.edition (h : c.distinct) (he : e ∈ c.editions) : c.edition e.id = some e :=
  find_of_mem_nodup Edition.id h.1 he

/-- Under distinct names every revision of the catalogue is found by its name. -/
theorem Catalogue.distinct.revision (h : c.distinct) {p : Page} (he : e ∈ c.editions) (hp : p ∈ e.pages) (hv : v ∈ p.revs) :
    c.revision ⟨e.id, p.number, v.number⟩ = some v := by
  obtain ⟨hpages, hrevs⟩ := h.2.2 e he
  exact (Catalogue.revision_eq (r := ⟨e.id, p.number, v.number⟩) (h.edition he) (find_of_mem_nodup Page.number hpages hp)).trans
    (find_of_mem_nodup Revision.number (hrevs p hp) hv)

theorem Catalogue.mem_of_edition (h : c.edition id = some e) : e ∈ c.editions ∧ e.id = id :=
  ⟨List.mem_of_find?_eq_some h, by simpa using List.find?_some h⟩

/-! ## A dissolved edition (R16, R44) -/

theorem State.dissolve_eq (e : Edition) (s : State) : s.dissolve e = { s with
    cat := { (s.removeAll e.revNames).cat with editions := (s.removeAll e.revNames).cat.editions.filter (·.id ≠ e.id) }
    alloc := (s.removeAll e.revNames).alloc } := by
  obtain ⟨u, hu⟩ : ∃ u, u = s.removeAll e.revNames := ⟨_, rfl⟩
  have hframe : u = { s with cat := u.cat, alloc := u.alloc } := hu ▸ State.removeAll_frame e.revNames s
  have hdissolve : s.dissolve e = u.modCat fun c => { c with editions := c.editions.filter (·.id ≠ e.id) } := by rw [hu]; rfl
  rw [hdissolve, ← hu, State.modCat]
  exact congrArg (fun t : State =>
    ({ t with cat := { u.cat with editions := u.cat.editions.filter (·.id ≠ e.id) } } : State)) hframe

theorem Edition.revNames_edition {e : Edition} (h : r ∈ e.revNames) : r.edition = e.id := by
  obtain ⟨p, -, hr⟩ := List.mem_flatMap.mp h
  obtain ⟨v, -, rfl⟩ := List.mem_map.mp hr
  rfl

/-- The record is free, and every other edition stays. -/
theorem State.dissolve_edition (e : Edition) (s : State) : (s.dissolve e).cat.edition e.id = none ∧
    ∀ other, other ≠ e.id → (s.dissolve e).cat.edition other = s.cat.edition other := by
  rw [State.dissolve_eq]
  refine ⟨find_filter_gone _ _ _ fun y hy => ?_, fun other ho => ?_⟩
  · simpa using hy
  · refine Eq.trans ?_ (State.removeAll_edition_other (rs := e.revNames) fun r hr => ?_)
    · exact find_filter_other _ _ _ fun y hy => by simp_all
    · rw [Edition.revNames_edition hr]; exact Ne.symm ho

/-- Its idle extents are returned. -/
theorem State.dissolve_extent (hd : s.cat.distinct) (he : s.cat.edition id = some e) (hn : n ∈ e.extents) (hidle : s.alloc.Idle n) :
    (s.dissolve e).alloc.find n = none := by
  obtain ⟨hmem, -⟩ := Catalogue.mem_of_edition he
  obtain ⟨p, hp, hn⟩ := List.mem_flatMap.mp hn
  obtain ⟨v, hv, hn⟩ := List.mem_flatMap.mp hn
  rw [State.dissolve_eq]
  exact State.removeAll_extent (List.mem_flatMap.mpr ⟨p, hp, List.mem_map.mpr ⟨v, hv, rfl⟩⟩) (hd.revision hmem hp hv) hn hidle

end Sys2Proof.Machine
end

