-- ==== Sys2Proof/Proofs/WarmCatalogue.lean ====
section
/-! PROOF. The catalogue at a warm start: what was FILLING is removed, CLOSING editions are CLOSED and retirements completed (R22). -/

namespace Sys2Proof.Machine

variable {s t u : State} {c : Catalogue} {q : RevName} {v : Revision} {e : Edition} {p : Photo} {id : Nat}

/-! ## Photographs removed -/

/-- Photographs are removed in order (R22). -/
def State.removePhotos (ids : List Nat) (s : State) : State := ids.foldl (fun s id => s.removePhoto id) s

/-- Every removal of a photograph takes its record and releases its extent. -/
theorem State.removePhotos_induct {P : State → Prop} {ids : List Nat} (hs : P s)
    (hstep : ∀ (u : State) id p, id ∈ ids → P u → u.cat.photo id = some p → P { u with
      cat := { u.cat with photos := u.cat.photos.filter (·.id ≠ id) }, alloc := u.alloc.release p.extent }) :
    P (s.removePhotos ids) := by
  refine List.foldlRecOn (motive := P) ids _ hs fun u hu id hid => ?_
  cases hp : u.cat.photo id with
  | none => simp only [State.removePhoto, hp]; exact hu
  | some p => rw [State.removePhoto_eq hp]; exact hstep u id p hid hu hp

theorem State.removePhotos_frame (ids : List Nat) (s : State) : s.removePhotos ids = { s with
    cat := { s.cat with photos := (s.removePhotos ids).cat.photos }, alloc := (s.removePhotos ids).alloc } := by
  refine State.removePhotos_induct (P := fun u : State => u = { s with
    cat := { s.cat with photos := u.cat.photos }, alloc := u.alloc }) rfl fun u id p _ hu _ => ?_
  rw [hu]

theorem State.removePhotos_compaction (ids : List Nat) (s : State) :
    (s.removePhotos ids).alloc.compaction = s.alloc.compaction := by
  refine State.removePhotos_induct (P := fun u : State => u.alloc.compaction = s.alloc.compaction) rfl fun u id p _ hu _ => ?_
  exact (u.alloc.release_compaction _).trans hu

theorem State.removePhotos_photo {ids : List Nat} (h : id ∉ ids) : (s.removePhotos ids).cat.photo id = s.cat.photo id := by
  refine State.removePhotos_induct (P := fun u : State => u.cat.photo id = s.cat.photo id) rfl fun u i p hi hu _ => ?_
  exact ((Catalogue.photo_erase u.cat i).2 id fun he => h (he ▸ hi)).trans hu

/-! ## Editions dissolved -/

/-- Editions are dissolved in order (R22). -/
def State.dissolveAll (es : List Edition) (s : State) : State := es.foldl (fun s e => s.dissolve e) s

theorem State.dissolveAll_frame (es : List Edition) (s : State) : s.dissolveAll es =
    { s with cat := (s.dissolveAll es).cat, alloc := (s.dissolveAll es).alloc } := by
  refine List.foldlRecOn (motive := fun u : State => u = { s with cat := u.cat, alloc := u.alloc }) es _ rfl fun u hu e _ => ?_
  rw [State.dissolve_eq]
  rw [hu]

theorem State.dissolveAll_compaction (es : List Edition) (s : State) :
    (s.dissolveAll es).alloc.compaction = s.alloc.compaction := by
  refine List.foldlRecOn (motive := fun u : State => u.alloc.compaction = s.alloc.compaction) es _ rfl fun u hu e _ => ?_
  rw [State.dissolve_eq]
  exact (State.removeAll_compaction e.revNames u).trans hu

theorem State.dissolveAll_edition {es : List Edition} (h : ∀ e ∈ es, e.id ≠ id) :
    (s.dissolveAll es).cat.edition id = s.cat.edition id :=
  List.foldlRecOn (motive := fun u : State => u.cat.edition id = s.cat.edition id) es _ rfl fun u hu e he =>
    ((State.dissolve_edition e u).2 id (Ne.symm (h e he))).trans hu

/-- A photograph loses references of the dissolved editions alone. -/
theorem State.dissolveAll_photo (es : List Edition) (h : s.cat.photo id = some p) :
    ∃ refs, (s.dissolveAll es).cat.photo id = some { p with refs } ∧ refs.Sublist p.refs ∧
      ∀ q ∈ p.refs, (∀ e ∈ es, q.edition ≠ e.id) → q ∈ refs := by
  refine List.foldlRecOn (motive := fun u : State => ∃ refs, u.cat.photo id = some { p with refs } ∧ refs.Sublist p.refs ∧
    ∀ q ∈ p.refs, (∀ e ∈ es, q.edition ≠ e.id) → q ∈ refs) es _ ⟨p.refs, h, .refl _, fun q hq _ => hq⟩ fun u hu e he => ?_
  obtain ⟨refs, hu, hsub, hkept⟩ := hu
  obtain ⟨refs', hu', hsub', hkept'⟩ := State.removeAll_photo e.revNames hu
  rw [State.dissolve_eq]
  refine ⟨refs', hu', hsub'.trans hsub, fun q hq hes => hkept' q (hkept q hq hes) fun hmem => ?_⟩
  exact hes e he (Edition.revNames_edition hmem)

/-- No other edition comes into use, and the dissolved ones are gone. -/
theorem State.dissolveAll_named (es : List Edition) (s : State) : ∀ x ∈ (s.dissolveAll es).cat.editions,
    (x.id, x.state) ∈ s.cat.editions.map (fun e => (e.id, e.state)) ∧ ∀ e ∈ es, x.id ≠ e.id := by
  have hone : ∀ (e : Edition) (u : State), ∀ x ∈ (u.dissolve e).cat.editions,
      (x.id, x.state) ∈ u.cat.editions.map (fun e => (e.id, e.state)) ∧ x.id ≠ e.id := fun e u x hx => by
    rw [State.dissolve_eq] at hx
    obtain ⟨hx, hid⟩ := List.mem_filter.mp hx
    rw [← State.removeAll_named e.revNames u]
    exact ⟨List.mem_map.mpr ⟨x, hx, rfl⟩, by simpa using hid⟩
  induction es generalizing s with
  | nil => exact fun x hx => ⟨List.mem_map.mpr ⟨x, hx, rfl⟩, fun _ he => absurd he List.not_mem_nil⟩
  | cons e es ih =>
    intro x hx
    obtain ⟨hnamed, hrest⟩ := ih (s.dissolve e) x hx
    obtain ⟨y, hy, hyx⟩ := List.mem_map.mp hnamed
    obtain ⟨hold, hne⟩ := hone e s y hy
    obtain ⟨hid, hstate⟩ := Prod.mk.inj hyx
    refine ⟨hyx ▸ hold, fun e' he' => ?_⟩
    rcases List.mem_cons.mp he' with rfl | he'
    · exact hid ▸ hne
    · exact hrest e' he'

/-! ## The warm start (R22) -/

/-- An edition at a warm start: nothing FILLING, and CLOSED when it was CLOSING. -/
def Edition.warmed (e : Edition) : Edition :=
  { e with filling := 0, state := if e.state = .closing then .closed else e.state }

/-- The state when all that was FILLING is gone and every edition stands as at a warm start. -/
def State.filledOut (s : State) : State :=
  ((s.removeAll s.cat.fillingRevs).removePhotos (s.removeAll s.cat.fillingRevs).cat.fillingPhotos).modCat fun c =>
    { c with editions := c.editions.map Edition.warmed }

theorem State.warmCatalogue_eq (s : State) :
    s.warmCatalogue = s.filledOut.dissolveAll (s.filledOut.cat.editions.filter (·.state = .retiring)) := rfl

theorem State.filledOut_eq (s : State) : s.filledOut = { s with
    cat := { editions := (s.removeAll s.cat.fillingRevs).cat.editions.map Edition.warmed
             photos := s.filledOut.cat.photos }
    alloc := s.filledOut.alloc } := by
  obtain ⟨ids, hids⟩ : ∃ ids, ids = (s.removeAll s.cat.fillingRevs).cat.fillingPhotos := ⟨_, rfl⟩
  have hfirst := State.removeAll_frame s.cat.fillingRevs s
  obtain ⟨u, hu⟩ : ∃ u, u = s.removeAll s.cat.fillingRevs := ⟨_, rfl⟩
  have hframe := State.removePhotos_frame ids u
  have heq : s.filledOut = (u.removePhotos ids).modCat fun c => { c with editions := c.editions.map Edition.warmed } := by
    rw [hu, hids]; rfl
  rw [heq, ← hu, State.modCat, hframe]
  rw [← hu] at hfirst
  have hall := congrArg (fun t : State => ({ t with
    cat := { editions := u.cat.editions.map Edition.warmed, photos := (u.removePhotos ids).cat.photos }
    alloc := (u.removePhotos ids).alloc } : State)) hfirst
  exact hall

theorem State.warmCatalogue_frame (s : State) : s.warmCatalogue =
    { s with cat := s.warmCatalogue.cat, alloc := s.warmCatalogue.alloc } := by
  obtain ⟨u, hu⟩ : ∃ u, u = s.filledOut := ⟨_, rfl⟩
  have hfirst := s.filledOut_eq
  have hframe := State.dissolveAll_frame (u.cat.editions.filter (·.state = .retiring)) u
  rw [State.warmCatalogue_eq, ← hu, hframe]
  rw [← hu] at hfirst
  have hall := congrArg (fun t : State => ({ t with
    cat := (u.dissolveAll (u.cat.editions.filter (·.state = .retiring))).cat
    alloc := (u.dissolveAll (u.cat.editions.filter (·.state = .retiring))).alloc } : State)) hfirst
  exact hall

theorem State.warmCatalogue_compaction (s : State) : s.warmCatalogue.alloc.compaction = s.alloc.compaction := by
  rw [State.warmCatalogue_eq, State.dissolveAll_compaction]
  exact (State.removePhotos_compaction _ _).trans (State.removeAll_compaction _ _)

/-- No edition is left CLOSING or RETIRING. -/
theorem State.warmCatalogue_settled (s : State) : ∀ e ∈ s.warmCatalogue.cat.editions, e.state ≠ .closing ∧ e.state ≠ .retiring := by
  intro x hx
  rw [State.warmCatalogue_eq] at hx
  obtain ⟨hnamed, hgone⟩ := State.dissolveAll_named _ _ x hx
  obtain ⟨y, hy, hyx⟩ := List.mem_map.mp hnamed
  obtain ⟨hid, hstate⟩ := Prod.mk.inj hyx
  refine ⟨fun hclosing => ?_, fun hretiring => ?_⟩
  · have hwarm := hy
    rw [s.filledOut_eq] at hwarm
    obtain ⟨z, -, rfl⟩ := List.mem_map.mp hwarm
    rw [hclosing] at hstate
    simp only [Edition.warmed] at hstate
    split at hstate
    · cases hstate
    next hz => exact hz hstate
  · exact hgone y (List.mem_filter.mpr ⟨hy, by simp [hstate, hretiring]⟩) hid.symm

/-- An edition that was not RETIRING keeps its record, and none of that id is dissolved. -/
theorem State.filledOut_edition (hd : s.cat.distinct) (he : s.cat.edition id = some e) (hr : e.state ≠ .retiring) :
    (∃ pages, s.filledOut.cat.edition id = some { e with
      pages, filling := 0, state := if e.state = .closing then .closed else e.state }) ∧
    ∀ x ∈ s.filledOut.cat.editions.filter (·.state = .retiring), x.id ≠ id := by
  obtain ⟨pages, filling, hfirst⟩ := State.removeAll_edition s.cat.fillingRevs he
  have hwarmed : ∀ x, (s.removeAll s.cat.fillingRevs).cat.edition id = some x →
      s.filledOut.cat.edition id = some x.warmed := fun x hx => by
    rw [s.filledOut_eq]
    have hfind : ∀ l : List Edition, (l.map Edition.warmed).find? (·.id = id) = (l.find? (·.id = id)).map Edition.warmed := fun l => by
      rw [List.find?_map]; rfl
    exact (hfind _).trans (congrArg (Option.map Edition.warmed) hx)
  have hnow := hwarmed _ hfirst
  refine ⟨⟨pages, hnow⟩, fun x hx hid => ?_⟩
  obtain ⟨hmem, hstate⟩ := List.mem_filter.mp hx
  have hids : (s.filledOut.cat.editions.map (·.id)).Nodup := by
    have hnamed := congrArg (List.map Prod.fst) (State.removeAll_named s.cat.fillingRevs s)
    rw [s.filledOut_eq, List.map_map]
    rw [List.map_map, List.map_map] at hnamed
    exact (hnamed.trans rfl : (s.removeAll s.cat.fillingRevs).cat.editions.map (·.id) = s.cat.editions.map (·.id)) ▸ hd.1
  have hfound : s.filledOut.cat.edition id = some x := hid ▸ find_of_mem_nodup Edition.id hids hmem
  obtain rfl := Option.some.inj (hnow.symm.trans hfound)
  simp only [decide_eq_true_eq] at hstate
  simp only [Edition.warmed] at hstate
  split at hstate
  · cases hstate
  · exact hr hstate

theorem State.warmCatalogue_edition (hd : s.cat.distinct) (he : s.cat.edition id = some e) (hr : e.state ≠ .retiring) :
    ∃ pages, s.warmCatalogue.cat.edition id = some { e with
      pages, filling := 0, state := if e.state = .closing then .closed else e.state } := by
  obtain ⟨⟨pages, hnow⟩, hothers⟩ := State.filledOut_edition hd he hr
  exact ⟨pages, (State.dissolveAll_edition hothers).trans hnow⟩

/-- A COMPLETE revision is none of those that are removed. -/
theorem Catalogue.distinct.not_filling (hd : c.distinct) (hv : c.revision q = some v) (hs : v.state = .complete) :
    q ∉ c.fillingRevs := by
  intro hq
  obtain ⟨e, he, hq⟩ := List.mem_flatMap.mp hq
  obtain ⟨p, hp, hq⟩ := List.mem_flatMap.mp hq
  obtain ⟨w, hw, rfl⟩ := List.mem_map.mp hq
  obtain ⟨hw, hfilling⟩ := List.mem_filter.mp hw
  obtain rfl := Option.some.inj (hv.symm.trans (hd.revision he hp hw))
  rw [hs] at hfilling
  simp at hfilling

theorem State.warmCatalogue_revision (hd : s.cat.distinct) (hv : s.cat.revision q = some v) (hs : v.state = .complete)
    (he : s.cat.edition q.edition = some e) (hr : e.state ≠ .retiring) : s.warmCatalogue.cat.revision q = some v := by
  obtain ⟨-, hothers⟩ := State.filledOut_edition hd he hr
  have hfirst := State.removeAll_revision hv (hd.not_filling hv hs)
  have hwarmed : s.filledOut.cat.revision q = (s.removeAll s.cat.fillingRevs).cat.revision q := by
    have hfind : ∀ l : List Edition, (l.map Edition.warmed).find? (·.id = q.edition) =
        (l.find? (·.id = q.edition)).map Edition.warmed := fun l => by rw [List.find?_map]; rfl
    have hed : s.filledOut.cat.edition q.edition = ((s.removeAll s.cat.fillingRevs).cat.edition q.edition).map Edition.warmed := by
      rw [s.filledOut_eq]; exact hfind _
    rw [Catalogue.revision, Catalogue.revision, hed]
    cases (s.removeAll s.cat.fillingRevs).cat.edition q.edition <;> rfl
  have hlast := State.dissolveAll_edition (s := s.filledOut) hothers
  rw [Catalogue.revision, State.warmCatalogue_eq, hlast]
  exact hwarmed.trans hfirst

theorem State.warmCatalogue_photo (hd : s.cat.distinct) (hp : s.cat.photo id = some p) (hs : p.state = .complete) :
    ∃ refs, s.warmCatalogue.cat.photo id = some { p with refs } ∧ refs.Sublist p.refs ∧ ∀ q ∈ p.refs, ∀ v e,
      s.cat.revision q = some v → v.state = .complete → s.cat.edition q.edition = some e → e.state ≠ .retiring → q ∈ refs := by
  obtain ⟨refs₁, hfirst, hsub₁, hkept₁⟩ := State.removeAll_photo s.cat.fillingRevs hp
  have hids : id ∉ (s.removeAll s.cat.fillingRevs).cat.fillingPhotos := fun hid => by
    obtain ⟨y, hy, rfl⟩ := List.mem_map.mp hid
    obtain ⟨hy, hfilling⟩ := List.mem_filter.mp hy
    have hnodup : ((s.removeAll s.cat.fillingRevs).cat.photos.map (·.id)).Nodup := by
      have hnamed := congrArg (List.map Prod.fst) (State.removeAll_photoIds s.cat.fillingRevs s)
      rw [List.map_map, List.map_map] at hnamed
      exact (hnamed.trans rfl : (s.removeAll s.cat.fillingRevs).cat.photos.map (·.id) = s.cat.photos.map (·.id)) ▸ hd.2.1
    have hfound : (s.removeAll s.cat.fillingRevs).cat.photo y.id = some y := find_of_mem_nodup Photo.id hnodup hy
    obtain rfl := Option.some.inj (hfirst.symm.trans hfound)
    simp [hs] at hfilling
  have hsecond : s.filledOut.cat.photo id = some { p with refs := refs₁ } := (State.removePhotos_photo hids).trans hfirst
  obtain ⟨refs₂, hlast, hsub₂, hkept₂⟩ :=
    State.dissolveAll_photo (s.filledOut.cat.editions.filter (·.state = .retiring)) hsecond
  refine ⟨refs₂, hlast, hsub₂.trans hsub₁, fun q hq v e hv hvs he hr => ?_⟩
  obtain ⟨-, hothers⟩ := State.filledOut_edition hd he hr
  exact hkept₂ q (hkept₁ q hq (hd.not_filling hv hvs)) fun x hx => Ne.symm (hothers x hx)

end Sys2Proof.Machine
end

