-- ==== Sys2Proof/Proofs/WarmBlocks.lean ====
section
/-! PROOF. A warm start: the jobs that are built again, the orders and accounts, and the state it leaves (R22, R65, R149, R170, R187). -/

namespace Sys2Proof.Machine

variable {s t u : State} {j : Job}

/-! ## What the engine's start work keeps (R149) -/

/-- The figures of an order and the names of its items. -/
abbrev Order.figures (o : Order) : Nat × Nat × Nat × Nat × Nat × Bool × Bool × List (Nat × Target × Walk) :=
  (o.id, o.account, o.discount, o.units, o.accumulator, o.saturated, o.clamped, o.items.map fun i => (i.number, i.target, i.walk))

/-- The jobs of a start leave the catalogue, the compaction, the accounts and the figures of the orders; of an ACTIVE store only
the requests change. -/
structure State.Rebuilt (s t : State) : Prop where
  cat : t.cat = s.cat
  compaction : t.alloc.compaction = s.alloc.compaction
  accounts : t.book.accounts = s.book.accounts
  lastOrderId : t.book.lastOrderId = s.book.lastOrderId
  figures : t.book.orders.map Order.figures = s.book.orders.map Order.figures
  store : s.store.state = .active → t.store = { s.store with waiting := t.store.waiting, idleSince := t.store.idleSince }

namespace State.Rebuilt

theorem refl (s : State) : s.Rebuilt s := ⟨rfl, rfl, rfl, rfl, rfl, fun _ => rfl⟩

theorem trans (h : s.Rebuilt t) (h' : t.Rebuilt u) : s.Rebuilt u where
  cat := h'.cat.trans h.cat
  compaction := h'.compaction.trans h.compaction
  accounts := h'.accounts.trans h.accounts
  lastOrderId := h'.lastOrderId.trans h.lastOrderId
  figures := h'.figures.trans h.figures
  store hs := by
    have hfirst := h.store hs
    have hactive : t.store.state = .active := by rw [hfirst]; exact hs
    have hsecond := h'.store hactive
    rw [hfirst] at hsecond
    exact hsecond

theorem of_within {R : List Part} (h : s.Within R t) (hcat : .catalogue ∉ R) (halloc : .allocator ∉ R) (hstore : .store ∉ R)
    (hbook : .book ∉ R) : s.Rebuilt t where
  cat := h.cat hcat
  compaction := by rw [h.alloc halloc]
  accounts := by rw [h.book hbook]
  lastOrderId := by rw [h.book hbook]
  figures := by rw [h.book hbook]
  store _ := by rw [h.store hstore]

theorem modItem (order n : Nat) {f : Item → Item} (hf : ∀ i, ((f i).number, (f i).target, (f i).walk) = (i.number, i.target, i.walk)) :
    s.Rebuilt (s.modBook (·.modItem order n f)) where
  cat := rfl
  compaction := rfl
  accounts := rfl
  lastOrderId := rfl
  store _ := rfl
  figures := by
    show (modifyWhere _ _ s.book.orders).map Order.figures = _
    unfold modifyWhere
    rw [List.map_map]
    refine List.map_congr_left fun o _ => ?_
    simp only [Function.comp_apply]
    split
    · have hitems : (o.modItem n f).items.map (fun i => (i.number, i.target, i.walk)) =
          o.items.map fun i => (i.number, i.target, i.walk) := by
        show (modifyWhere _ _ o.items).map _ = _
        unfold modifyWhere
        rw [List.map_map]
        refine List.map_congr_left fun i _ => ?_
        simp only [Function.comp_apply]
        split
        · exact hf i
        · rfl
      show (o.id, o.account, o.discount, o.units, o.accumulator, o.saturated, o.clamped, _) = _
      rw [hitems]
    · rfl

end State.Rebuilt

theorem State.downgradeItems_rebuilt (rs : List (Nat × Nat)) (s : State) : s.Rebuilt (s.downgradeItems rs) := by
  refine List.foldlRecOn (motive := fun u : State => s.Rebuilt u) rs _ (.refl s) fun u hu r _ => ?_
  exact (hu.trans (.modItem r.1 r.2 (by intro _; rfl))).trans
    (.of_within (State.raise_within .itemReady) (by decide) (by decide) (by decide) (by decide))

/-- The end of a job that is not active takes no reader away. -/
theorem State.endJob_rebuilt (final : JobState) (cause : JobEnd) (refusal : Option AllocRefusal) (ha : j.active = false) :
    s.Rebuilt (s.endJob final cause refusal j) := by
  have hended : ∀ u : State, s.Rebuilt u → s.Rebuilt (((u.modEngine fun g =>
      { g with queue := g.queue.filter (·.id ≠ j.id) }).jobReaderEnd j).downgradeItems j.requesters) := fun u hu => by
    have hreader : (u.modEngine fun g => { g with queue := g.queue.filter (·.id ≠ j.id) }).jobReaderEnd j =
        u.modEngine fun g => { g with queue := g.queue.filter (·.id ≠ j.id) } := if_neg (by simp [ha])
    rw [hreader]
    exact (hu.trans (.of_within (State.modEngine_within _ rfl rfl) (by decide) (by decide) (by decide) (by decide))).trans
      (State.downgradeItems_rebuilt _ _)
  have hfreed : s.Rebuilt (match j.scratch with
      | some n => s.modAlloc (·.release n)
      | none => s) := by
    split
    next n _ => exact ⟨rfl, s.alloc.release_compaction n, rfl, rfl, rfl, fun _ => rfl⟩
    next => exact .refl s
  have hlast : ∀ (v : State) (e : Job), v.Rebuilt (v.modEngine (Engine.addEnded e)) := fun v e =>
    .of_within (State.modEngine_within _ rfl rfl) (by decide) (by decide) (by decide) (by decide)
  unfold State.endJob
  dsimp only
  split
  · split
    · exact (hended _ hfreed).trans (hlast _ _)
    · exact ((hended _ hfreed).trans (.of_within (State.raise_within .restoreFailed) (by decide) (by decide) (by decide)
        (by decide))).trans (hlast _ _)
  · exact hended _ hfreed

/-- A store that is not QUIET puts the request to those that wait. -/
theorem Store.ask_awake {st : Store} (h : st.state ≠ .quiet) (now : Nat) (y : Transfer) :
    st.ask now y = { st with waiting := st.waiting ++ [y], idleSince := none } := if_neg h

theorem State.engineRead_rebuilt (s : State) : s.Rebuilt s.engineRead := by
  have hask : ∀ (slot : Nat) (kind : TransferKind), s.Rebuilt (s.askRestoration slot kind) := fun slot kind =>
    ⟨rfl, rfl, rfl, rfl, rfl, fun hs => by
      have hasked : (s.askRestoration slot kind).store =
          { s.store with waiting := s.store.waiting ++ [{ client := .restoration, slot, kind }], idleSince := none } :=
        Store.ask_awake (by rw [hs]; decide) _ _
      rw [hasked]⟩
  unfold State.engineRead
  repeat' split
  all_goals first
    | exact .refl s
    | exact hask _ _

theorem State.startJob_rebuilt (hj : j.state = .queued) : s.Rebuilt (s.startJob j) := by
  have hidle : ∀ j' : Job, j'.state = j.state → j'.active = false := fun j' h => by simp [Job.active, h, hj]
  unfold State.startJob
  dsimp only
  split
  · exact .refl s
  · split
    · exact State.endJob_rebuilt _ _ _ (hidle j rfl)
    · split
      · exact State.endJob_rebuilt _ _ _ (hidle (j.capture _ _) rfl)
      · refine State.Rebuilt.trans ?_ (State.engineRead_rebuilt _)
        exact ⟨rfl, rfl, rfl, rfl, rfl, fun _ => rfl⟩

theorem State.startJobs_rebuilt (fuel : Nat) (s : State) : s.Rebuilt (s.startJobs fuel) := by
  induction fuel generalizing s with
  | zero => exact .refl s
  | succ fuel ih =>
    unfold State.startJobs
    split
    · split
      next hj => exact (State.startJob_rebuilt hj).trans (ih _)
      next => exact .refl s
    · exact .refl s

/-- A request for an item joins a job, or puts a QUEUED one in the queue; nothing else changes. -/
theorem State.requestJob_item (r : Nat × Nat) (name : RevName) (v : Revision) (s : State) :
    (s.requestJob (some r) name v .auto).2 = { s with engine := (s.requestJob (some r) name v .auto).2.engine } ∧
    (s.engine.Deskless → (s.requestJob (some r) name v .auto).2.engine.Deskless) := by
  unfold State.requestJob
  repeat' split
  · exact ⟨rfl, fun h => h⟩
  · exact ⟨rfl, fun h => h⟩
  · exact ⟨rfl, fun h => h⟩
  · refine ⟨rfl, fun h => ⟨h.1, fun y hy => ?_⟩⟩
    obtain hold | ⟨k, hk, -, rfl⟩ := Engine.mem_modJob hy
    · exact h.2 y hold
    · exact h.2 k hk
  · exact ⟨rfl, fun h => h⟩
  · refine ⟨rfl, fun h => ⟨h.1, fun y hy => ?_⟩⟩
    rcases List.mem_append.mp hy with hy | hy
    · exact h.2 y hy
    · obtain rfl := List.mem_singleton.mp hy; rfl

theorem State.reRequest_rebuilt (r : Nat × Nat) (s : State) : s.Rebuilt (s.reRequest r) ∧ s.Within restorable (s.reRequest r) ∧
    (s.engine.Deskless → (s.reRequest r).engine.Deskless) := by
  unfold State.reRequest
  split
  next name _ =>
    split
    next => exact ⟨.refl s, .refl s, fun h => h⟩
    next v _ =>
      obtain ⟨hframe, hdesk⟩ := State.requestJob_item r name v s
      have hwithin : s.Within restorable (s.requestJob (some r) name v .auto).2 :=
        (State.requestJob_within (some r) name v .auto).mono rfl
      obtain ⟨w, hw⟩ : ∃ w, w = (s.requestJob (some r) name v .auto).2 := ⟨_, rfl⟩
      dsimp only
      rw [← hw] at hframe hdesk hwithin ⊢
      have hjob : s.Rebuilt w := by rw [hframe]; exact ⟨rfl, rfl, rfl, rfl, rfl, fun _ => rfl⟩
      split
      · exact ⟨hjob.trans (.modItem r.1 r.2 (by intro _; rfl)), hwithin.step (State.modItem_within _ _ _) rfl, hdesk⟩
      · exact ⟨hjob.trans (.modItem r.1 r.2 (by intro _; rfl)), hwithin.step (State.modItem_within _ _ _) rfl, hdesk⟩
      · exact ⟨hjob, hwithin, hdesk⟩
      · exact ⟨hjob.trans (State.startJobs_rebuilt _ _), hwithin.trans State.startNext_within, fun h => State.startNext_deskless (hdesk h)⟩
  next => exact ⟨.refl s, .refl s, fun h => h⟩

/-- The engine's work at a warm start, after the scratch extents and the volatile part of the engine are gone. -/
theorem State.startEngine_warm (s : State) :
    s.Rebuilt (s.startEngine true) ∧ s.Within (.settings :: restorable) (s.startEngine true) ∧
    (s.startEngine true).engine.Deskless ∧ (s.startEngine true).engine.profiles = s.engine.profiles.map Profile.verify := by
  let u : State := (s.modAlloc (Allocator.giveBackAll .building)).modEngine fun g => { profiles := g.profiles.map Profile.verify }
  have hu : s.Rebuilt u := ⟨rfl, foldl_compaction (f := fun a (e : Extent) => a.giveBack e.number)
    (fun a e => a.giveBack_compaction e.number) _ s.alloc, rfl, rfl, rfl, fun _ => rfl⟩
  have huw : s.Within (.settings :: restorable) u :=
    ((State.modAlloc_within _ (s.alloc.giveBackAll_lowWater .building)).mono rfl).step (State.modEngine_settings_within _) rfl
  have hfold : ∀ (rs : List (Nat × Nat)), u.Rebuilt (rs.foldl State.reRequest u) ∧ u.Within restorable (rs.foldl State.reRequest u) ∧
      (u.engine.Deskless → (rs.foldl State.reRequest u).engine.Deskless) := fun rs => by
    refine List.foldlRecOn (motive := fun t : State => u.Rebuilt t ∧ u.Within restorable t ∧ (u.engine.Deskless → t.engine.Deskless))
      rs _ ⟨.refl u, .refl u, fun h => h⟩ fun t ht r _ => ?_
    obtain ⟨hb, hw, hd⟩ := ht
    obtain ⟨hb', hw', hd'⟩ := State.reRequest_rebuilt r t
    exact ⟨hb.trans hb', hw.trans hw', fun h => hd' (hd h)⟩
  obtain ⟨hb, hw, hd⟩ := hfold u.book.waitingItems
  have hdesk : u.engine.Deskless := ⟨rfl, fun _ h => absurd h List.not_mem_nil⟩
  exact ⟨hu.trans hb, huw.trans (hw.mono rfl), hd hdesk, congrArg (fun f => f.2.2.2.1) (hw.inForce (by decide))⟩

/-! ## What a repaired meter makes of the orders (R186, R187) -/

/-- The state of an order and its items as they stand. -/
abbrev Order.standing (o : Order) : OrderState × Nat × List Item := (o.state, o.inFlight, o.items)

/-- The accounts, the units of the orders and the sales notices alone change. -/
def State.OnBooks (s t : State) : Prop :=
  t = { s with book := { s.book with orders := t.book.orders, accounts := t.book.accounts }, sales := t.sales } ∧
  t.book.orders.map Order.standing = s.book.orders.map Order.standing

namespace State.OnBooks

theorem refl (s : State) : s.OnBooks s := ⟨rfl, rfl⟩

theorem trans (h : s.OnBooks t) (h' : t.OnBooks u) : s.OnBooks u := by
  obtain ⟨hframe, horders⟩ := h
  obtain ⟨hframe', horders'⟩ := h'
  refine ⟨?_, horders'.trans horders⟩
  have hall := congrArg (fun v : State => ({ v with
    book := { v.book with orders := u.book.orders, accounts := u.book.accounts }, sales := u.sales } : State)) hframe
  exact hframe'.trans hall

theorem raised (h : s.OnBooks t) {n : Notice} (hn : n.link = .sales) : s.OnBooks (t.raise n) := by
  refine h.trans ⟨?_, by rw [State.raise_sales hn]⟩
  rw [State.raise_sales hn]

theorem setStatus (h : s.OnBooks t) (id : Nat) (status : AccountStatus) (timer : Option Nat) :
    s.OnBooks (t.setStatus id status timer) := h.trans ⟨rfl, rfl⟩

theorem table (h : s.OnBooks t) : t.table = s.table := by rw [h.1]

end State.OnBooks

theorem State.cutOffAccount_onBooks {id : Nat} (ht : s.table.records = []) (h : s.OnBooks t) :
    s.OnBooks (t.cutOffAccount cutOffDeliveries id) := by
  have hset := h.setStatus id .cutOff none
  unfold State.cutOffAccount cutOffDeliveries
  rw [State.stopAccount_empty _ _ (by rw [hset.table]; exact ht)]
  exact hset.raised rfl

/-- With no delivery an evaluation changes the account and its notices alone. -/
theorem State.evaluate_onBooks {id : Nat} (ht : s.table.records = []) (h : s.OnBooks t) :
    s.OnBooks (t.evaluate cutOffDeliveries id) := by
  have hactive := h.setStatus id .active none
  unfold State.evaluate
  split
  · exact h
  · split
    · dsimp only
      split
      · exact hactive.raised rfl
      · exact hactive
    · split <;> split
      · unfold State.enterWatch
        have hwatch := (h.setStatus id .watch (some (t.timerEnd t.meter.settings.cutOff))).raised (n := .accountWatch) rfl
        dsimp only
        split
        · exact State.cutOffAccount_onBooks ht hwatch
        · exact hwatch
      · exact h
      · exact hactive
      · exact h
      · unfold State.enterReinstating
        split
        · exact hactive.raised rfl
        · exact h.setStatus id .reinstating _
      · exact h
      · exact State.cutOffAccount_onBooks ht h
      · exact h

theorem State.resolveOrder_onBooks {id : Nat} (ht : s.table.records = []) (h : s.OnBooks t) :
    s.OnBooks (t.resolveOrder cutOffDeliveries id) := by
  have hcarried : ∀ o : Order, s.OnBooks (t.accumulate o 0) := fun o => by
    have hcarry : s.OnBooks (t.modBook (OrderBook.carry o t.meter.settings.divisor 0)) := by
      refine h.trans ⟨rfl, ?_⟩
      show (modifyWhere _ _ t.book.orders).map Order.standing = _
      unfold modifyWhere
      rw [List.map_map]
      refine List.map_congr_left fun o _ => ?_
      simp only [Function.comp_apply]
      split <;> rfl
    rw [State.accumulate_eq]
    split
    · exact hcarry.raised rfl
    · exact hcarry
  unfold State.resolveOrder
  split
  · exact h
  · next o _ =>
    dsimp only
    split
    · exact hcarried o
    · exact State.evaluate_onBooks ht (hcarried o)

/-- The meter when its start work has verified it (R187). -/
def Meter.verified (m : Meter) : Meter :=
  { tariffs := m.tariffs.map Tariff.verify, settings := if m.settings.isGood then m.settings else MeterSettings.default
    repaired := !m.settings.isGood }

theorem State.resolve_onBooks (ht : s.table.records = []) (h : s.OnBooks t) : s.OnBooks (t.resolve cutOffDeliveries) :=
  List.foldlRecOn (motive := fun u : State => s.OnBooks u) (t.book.orders.map Order.id)
    (fun s id => s.resolveOrder cutOffDeliveries id) h fun _ hu _ _ => State.resolveOrder_onBooks ht hu

/-- The meter's start work changes the meter, and, when its record was bad, what the orders and accounts owe. -/
theorem State.startMeter_good (h : s.meter.settings.isGood = true) :
    s.startMeter cutOffDeliveries true = { s with meter := s.meter.verified } :=
  if_neg fun hbad => absurd (h.symm.trans hbad.2) (by decide)
theorem State.startMeter_bad (h : s.meter.settings.isGood = false) : s.startMeter cutOffDeliveries true =
    ({ s with meter := s.meter.verified } : State).reloadTimers.resolve cutOffDeliveries :=
  if_pos ⟨rfl, h⟩
theorem State.startMeter_onBooks (ht : s.table.records = []) :
    ({ s with meter := s.meter.verified } : State).OnBooks (s.startMeter cutOffDeliveries true) := by
  cases h : s.meter.settings.isGood with
  | true => rw [State.startMeter_good h]; exact .refl _
  | false => rw [State.startMeter_bad h]; exact State.resolve_onBooks ht ⟨rfl, rfl⟩

end Sys2Proof.Machine
end

