-- ==== Sys2Proof/Proofs/WarmStarts.lean ====
section
/-! PROOF. The state that a warm start leaves (chapter 4). -/

namespace Sys2Proof.Machine

variable {s t u : State} {st : Store}

/-! ## The store and the orders -/

/-- A store without debt and without a halt makes a grant at most. -/
theorem Store.settle_fresh (hd : st.debt = 0) (hh : st.halted = false) (now : Nat) :
    ∃ waiting inFlight pointer idleSince, Store.settle now st = { st with waiting, inFlight, pointer, idleSince } := by
  have hchoose : ∃ waiting inFlight pointer, st.choose = { st with waiting, inFlight, pointer } := by
    unfold Store.choose
    split
    · exact ⟨st.waiting, st.inFlight, st.pointer, rfl⟩
    · rw [if_neg (by simp [hh]), if_neg (by omega), if_neg (by omega)]
      split
      · exact ⟨_, _, _, rfl⟩
      · exact ⟨st.waiting, st.inFlight, st.pointer, rfl⟩
  obtain ⟨waiting, inFlight, pointer, hchoose⟩ := hchoose
  exact ⟨waiting, inFlight, pointer, _, congrArg (Store.markIdle now) hchoose⟩

theorem Account.reload_eq (now : Nat) (m : MeterSettings) (a : Account) : a.reload now m = { a with timer :=
    match a.status with
    | .watch => some (now + m.cutOff * 500000)
    | .reinstating => some (now + m.reinstate * 500000)
    | _ => none } := by
  have hstep : Config.accountStep = 500000 := rfl
  unfold Account.reload
  rw [hstep]
  cases a.status <;> rfl

theorem Order.warm_figures (o : Order) : o.warm.figures = o.figures := by
  simp only [Order.figures, Order.warm, List.map_map]
  rfl

theorem Order.warm_standing (o : Order) : o.warm.state ≠ .closing ∧ o.warm.inFlight = 0 ∧ ∀ x ∈ o.warm.items, x.state ≠ .inDelivery := by
  refine ⟨?_, rfl, fun x hx => ?_⟩
  · simp only [Order.warm]
    split
    · decide
    next h => exact h
  · obtain ⟨y, -, rfl⟩ := List.mem_map.mp hx
    simp only [Item.warm]
    split
    · decide
    next h => exact h

/-! ## The blocks -/

/-- The state with the allocator started and the volatile blocks empty, where the catalogue's work begins. -/
def State.warmed (kind : StartKind) (sizeHigh : Bool) (s : State) : State :=
  { s.readStrap with
    store := Store.warmStart sizeHigh kind s.now s.store, alloc := s.alloc.warmStart
    port := {}, mover := {}, table := {}, engine := { profiles := s.engine.profiles } }

theorem State.warmStart_eq (kind : StartKind) (sizeHigh : Bool) (s : State) : s.warmStart kind sizeHigh =
    ((((s.warmed kind sizeHigh).warmCatalogue.startEngine true).warmOrders).startMeter cutOffDeliveries true).startLinks.settle := rfl

/-- What the blocks of a warm start leave. -/
structure State.WarmLeaves (s : State) (kind : StartKind) (sizeHigh : Bool) (t : State) : Prop where
  store : ∃ waiting inFlight pointer idleSince,
    t.store = { Store.warmStart sizeHigh kind s.now s.store with waiting, inFlight, pointer, idleSince }
  blocks : t.port = {} ∧ t.mover = {} ∧ t.table = {}
  ended : t.engine.ended = []
  profiles : t.engine.profiles = s.engine.profiles.map Profile.verify
  compaction : t.alloc.compaction = {}
  cat : t.cat = (s.warmed kind sizeHigh).warmCatalogue.cat
  orders : ∀ o ∈ t.book.orders, o.state ≠ .closing ∧ o.inFlight = 0 ∧ ∀ x ∈ o.items, x.state ≠ .inDelivery
  metered : s.meter.settings.isGood = true → t.book.lastOrderId = s.book.lastOrderId ∧
    t.book.orders.map Order.figures = s.book.orders.map Order.figures ∧
    t.book.accounts = s.book.accounts.map (Account.reload s.now s.meter.settings)
  links : t.power = .running ∧ t.production = Link.start 7 ∧ t.desk = Link.start 4 ∧ t.sales = Link.start 7 ∧ ∀ l, t.attn l = false

theorem State.warmStart_leaves (kind : StartKind) (sizeHigh : Bool) (s : State) :
    s.WarmLeaves kind sizeHigh (s.warmStart kind sizeHigh) := by
  obtain ⟨b, hb⟩ : ∃ b, b = (s.warmed kind sizeHigh).warmCatalogue := ⟨_, rfl⟩
  have hbframe : b = { s.warmed kind sizeHigh with cat := b.cat, alloc := b.alloc } :=
    hb ▸ State.warmCatalogue_frame (s.warmed kind sizeHigh)
  have hbcomp : b.alloc.compaction = {} := hb ▸ State.warmCatalogue_compaction (s.warmed kind sizeHigh)
  obtain ⟨hbuilt, hwithin, hdesk, hprofiles⟩ := b.startEngine_warm
  obtain ⟨c, hc⟩ : ∃ c, c = b.startEngine true := ⟨_, rfl⟩
  rw [← hc] at hbuilt hwithin hdesk hprofiles
  have hport : c.port = {} := (hwithin.port (by decide)).trans (by rw [hbframe]; rfl)
  have hmover : c.mover = {} := (hwithin.mover (by decide)).trans (by rw [hbframe]; rfl)
  have htable : c.table = {} := (hwithin.table (by decide)).trans (by rw [hbframe]; rfl)
  have hnow : c.now = s.now := (hwithin.now (by decide)).trans (by rw [hbframe]; rfl)
  have hmeter : c.meter = s.meter := (hwithin.meter (by decide)).trans (by rw [hbframe]; rfl)
  have hbstore : b.store = Store.warmStart sizeHigh kind s.now s.store := by rw [hbframe]; rfl
  have hstore := hbuilt.store (by rw [hbstore]; rfl)
  rw [hbstore] at hstore
  have hbbook : b.book = s.book := by rw [hbframe]; rfl
  obtain ⟨d, hd⟩ : ∃ d, d = c.warmOrders := ⟨_, rfl⟩
  have hdframe : d = { c with book := { c.book with
      orders := c.book.orders.map Order.warm, accounts := c.book.accounts.map (Account.reload c.now c.meter.settings) } } := hd
  obtain ⟨hbooks, hstanding⟩ := State.startMeter_onBooks (s := d) (by rw [hdframe]; exact congrArg DeliveryTable.records htable)
  obtain ⟨e, he⟩ : ∃ e, e = d.startMeter cutOffDeliveries true := ⟨_, rfl⟩
  rw [← he] at hbooks hstanding
  have ht : s.warmStart kind sizeHigh = { e.startLinks with store := Store.settle e.now e.store } := by
    rw [State.warmStart_eq, ← hb, ← hc, ← hd, ← he]
    exact State.startLinks_settle (by rw [hbooks, hdframe]; exact hmover)
  have hestore : e.store = c.store := by rw [hbooks, hdframe]
  have heengine : e.engine = c.engine := by rw [hbooks, hdframe]
  rw [ht]
  refine ⟨?_, ⟨?_, ?_, ?_⟩, ?_, ?_, ?_, ?_, ?_, fun hgood => ?_, rfl, rfl, rfl, rfl, fun l => ?_⟩
  · obtain ⟨waiting, inFlight, pointer, idleSince, hsettle⟩ := Store.settle_fresh (st := e.store) (by rw [hestore, hstore]; rfl) (by rw [hestore, hstore]; rfl) e.now
    refine ⟨waiting, inFlight, pointer, idleSince, hsettle.trans ?_⟩
    rw [hestore, hstore]
  · show e.port = _
    rw [hbooks, hdframe]; exact hport
  · show e.mover = _
    rw [hbooks, hdframe]; exact hmover
  · show e.table = _
    rw [hbooks, hdframe]; exact htable
  · exact (congrArg Engine.ended heengine).trans hdesk.1
  · refine (congrArg Engine.profiles heengine).trans (hprofiles.trans ?_)
    rw [hbframe]; rfl
  · show e.alloc.compaction = _
    rw [hbooks, hdframe]
    exact hbuilt.compaction.trans hbcomp
  · show e.cat = _
    rw [hbooks, hdframe, ← hb]
    exact hbuilt.cat
  · intro o ho
    have hmem : o.standing ∈ d.book.orders.map Order.standing := by
      rw [show d.book.orders.map Order.standing = e.book.orders.map Order.standing from hstanding.symm]
      exact List.mem_map.mpr ⟨o, ho, rfl⟩
    rw [hdframe] at hmem
    obtain ⟨o', ho', hsame⟩ := List.mem_map.mp hmem
    obtain ⟨o'', -, rfl⟩ := List.mem_map.mp ho'
    obtain ⟨hstate, hrest⟩ := Prod.mk.inj hsame
    obtain ⟨hflight, hitems⟩ := Prod.mk.inj hrest
    rw [← hstate, ← hflight, ← hitems]
    exact o''.warm_standing
  · have hgood' : d.meter.settings.isGood = true := by
      rw [hdframe]
      show c.meter.settings.isGood = true
      rw [hmeter]; exact hgood
    have hebook : e.book = d.book := by rw [he, State.startMeter_good hgood']
    refine ⟨?_, ?_, ?_⟩
    · show e.book.lastOrderId = _
      rw [hebook, hdframe, ← hbbook]
      exact hbuilt.lastOrderId
    · show e.book.orders.map Order.figures = _
      rw [hebook, hdframe, ← hbbook, ← hbuilt.figures, List.map_map]
      exact List.map_congr_left fun o _ => o.warm_figures
    · show e.book.accounts = _
      rw [hebook, hdframe, ← hbbook, ← hbuilt.accounts, ← hmeter, ← hnow]
  · exact State.startLinks_attn { e with store := Store.settle e.now e.store } l

/-! ## The commands that start the part warm (R67) -/

theorem State.startByHeader_good (warm : StartKind) (sizeHigh : Bool) (h : s.store.header.isGood = true) :
    (s.readHeader false).startByHeader warm sizeHigh = s.warmStart warm sizeHigh := if_pos h

/-- A power-up with STANDBY_OK high, or RESET released, with a good header starts the part warm. -/
theorem exec_warmStart {i : Instr} {kind : StartKind} {sizeHigh : Bool} (hh : s.store.header.isGood = true)
    (h : (s.power = .off ∧ i = .powerUp true sizeHigh false false ∧ kind = .warmPower) ∨
      (s.power = .inReset true ∧ s.standbyOk = true ∧ i = .resetRelease sizeHigh false ∧ kind = .warmPower) ∨
      (s.power = .inReset false ∧ i = .resetRelease sizeHigh false ∧ kind = .warmReset)) :
    ∃ standbyOk, exec i s = .next (({ s with standbyOk } : State).warmStart kind sizeHigh) := by
  rcases h with ⟨hp, rfl, rfl⟩ | ⟨hp, hok, rfl, rfl⟩ | ⟨hp, rfl, rfl⟩
  · refine ⟨true, ?_⟩
    rw [exec_powerUp_off _ _ _ hp, State.startAtPowerUp_high _ _ rfl, State.startByHeader_good (s := { s with standbyOk := true }) _ _ hh]
  · refine ⟨s.standbyOk, ?_⟩
    rw [exec_resetRelease_powerUp _ _ hp, State.startAtPowerUp_high _ _ hok, State.startByHeader_good _ _ hh]
  · refine ⟨s.standbyOk, ?_⟩
    rw [exec_resetRelease_on _ _ hp, State.startByHeader_good _ _ hh]

/-- Settles O22: the blocks one after the other, in the order of Table 4-1. -/
theorem warmStart : Obligations.WarmStart := by
  intro sizeHigh s hheader i kind hstart
  obtain ⟨standbyOk, hexec⟩ := exec_warmStart hheader hstart
  obtain ⟨⟨_, _, _, _, hstore⟩, ⟨hport, hmover, htable⟩, hended, hprofiles, hcomp, hcat, horders, hmetered, hpower, hproduction,
    hdesk, hsales, hattn⟩ := State.warmStart_leaves kind sizeHigh ({ s with standbyOk } : State)
  have hlow := State.warmStart_lowWater kind sizeHigh ({ s with standbyOk } : State)
  obtain ⟨t, ht⟩ : ∃ t, t = ({ s with standbyOk } : State).warmStart kind sizeHigh := ⟨_, rfl⟩
  rw [← ht] at hexec hstore hport hmover htable hended hprofiles hcomp hcat horders hmetered hpower hproduction hdesk hsales hattn hlow
  refine ⟨t, hexec, hpower, by rw [hstore]; rfl, by rw [hstore]; rfl, by rw [hstore]; rfl, by rw [hstore]; rfl, by rw [hstore]; rfl,
    by rw [hstore]; rfl, by rw [hstore]; rfl, by rw [hstore]; rfl, by rw [hstore]; rfl, by rw [hstore]; rfl, by rw [hstore]; rfl,
    by rw [hstore]; rfl, by rw [hstore]; rfl, by rw [hstore]; rfl, by rw [hstore]; rfl, hport, hmover, htable, hended, hlow,
    by rw [hcomp], by rw [hcomp], by rw [hcomp], fun hd => ?_, fun hgood => ?_, ?_, horders, fun hgood => ?_, hprofiles, hproduction,
    hdesk, hsales, hattn⟩
  · rw [hcat]
    exact ⟨fun id e he hr => State.warmCatalogue_edition (s := State.warmed kind sizeHigh _) hd he hr,
      fun r v e hv hs he hr => State.warmCatalogue_revision (s := State.warmed kind sizeHigh _) hd hv hs he hr,
      fun id p hp hs => State.warmCatalogue_photo (s := State.warmed kind sizeHigh _) hd hp hs⟩
  · obtain ⟨hlast, hfigures, -⟩ := hmetered hgood
    exact ⟨hlast, hfigures⟩
  · rw [hcat]
    exact State.warmCatalogue_settled _
  · obtain ⟨-, -, haccounts⟩ := hmetered hgood
    rw [haccounts]
    exact List.map_congr_left fun a _ => a.reload_eq s.now s.meter.settings

end Sys2Proof.Machine
end

