-- ==== Sys2Proof/Proofs/Retirements.lean ====
section
/-! PROOF. RETIRE_EDITION: the last reader of a RETIRING edition, the open deposits into it and the jobs that name it (R42 to R44). -/

namespace Sys2Proof.Machine

variable {s t u : State} {e : Edition} {x : Extent} {j y : Job} {d : Deposit} {id n m : Nat}

/-! ## The last reader (R44, R55) -/

/-- A retirement without readers and jobs is complete. -/
theorem State.retireReady_iff : s.retireReady e = true ↔
    e.state = .retiring ∧ (∀ m ∈ e.extents, s.alloc.readersOf m = 0) ∧ ∀ j ∈ s.engine.queue, j.revision.edition ≠ e.id := by
  simp [State.retireReady, Engine.namesEdition, and_assoc]

theorem State.retireCheck_ready (he : s.cat.edition id = some e) (h : s.retireReady e = true) :
    s.retireCheck id = if e.retireReplied then (s.dissolve e).raise .retireDone else s.dissolve e := by
  unfold State.retireCheck
  rw [he]
  exact if_pos h
theorem State.retireCheck_waits (he : s.cat.edition id = some e) (h : s.retireReady e ≠ true) : s.retireCheck id = s := by
  unfold State.retireCheck
  rw [he]
  exact if_neg h

theorem State.dissolve_frame (e : Edition) (s : State) :
    s.dissolve e = { s with cat := (s.dissolve e).cat, alloc := (s.dissolve e).alloc } := by
  rw [State.dissolve_eq]

/-- The last reader's end on an extent that its owner still has checks the retirement of its edition. -/
theorem State.readerEnd_last {ed : Nat} (hx : s.alloc.find n = some x) (hone : x.readers = 1)
    (hstate : x.state = .live ∨ x.state = .moving ∧ x.releasePending = false) (howner : x.owner.edition = some ed) :
    s.readerEnd n = (s.modAlloc (·.modExtent n fun e => { e with readers := e.readers - 1 })).retireCheck ed := by
  unfold State.readerEnd
  rw [hx]
  dsimp only
  rw [if_neg (by omega)]
  rcases hstate with hs | ⟨hs, hp⟩
  · simp only [hs, howner]
  · simp only [hs, hp, howner, Bool.false_eq_true, if_false]

theorem State.readerEnd_retires {ed : Nat} (hx : s.alloc.find n = some x) (hone : x.readers = 1)
    (hstate : x.state = .live ∨ x.state = .moving ∧ x.releasePending = false) (howner : x.owner.edition = some ed)
    (hd : s.cat.distinct) (he : s.cat.edition ed = some e) (hretiring : e.state = .retiring) (hreplied : e.retireReplied = true)
    (hreaders : ∀ m ∈ e.extents, m ≠ n → s.alloc.readersOf m = 0) (hjobs : ∀ j ∈ s.engine.queue, j.revision.edition ≠ ed) :
    ∃ t : State, s.readerEnd n = t.raise .retireDone ∧ t = { s with cat := t.cat, alloc := t.alloc } ∧
      t.cat.edition ed = none ∧ (∀ other, other ≠ ed → t.cat.edition other = s.cat.edition other) ∧
      ∀ m ∈ e.extents, ∀ y, s.alloc.find m = some y → y.state = .live → t.alloc.find m = none := by
  obtain ⟨u, hu⟩ : ∃ u, u = s.modAlloc (·.modExtent n fun e => { e with readers := e.readers - 1 }) := ⟨_, rfl⟩
  have huframe : u = { s with alloc := u.alloc } := by rw [hu]; rfl
  obtain ⟨-, hn, hothers⟩ : s.alloc.Rewritten n { x with readers := x.readers - 1 } u.alloc := by
    rw [hu]; exact Allocator.modExtent_rewritten hx (by intro _; rfl)
  have hcat : u.cat = s.cat := by rw [huframe]
  have hengine : u.engine = s.engine := by rw [huframe]
  have hzero : ∀ m ∈ e.extents, u.alloc.readersOf m = 0 := fun m hm => by
    by_cases hmn : m = n
    · rw [hmn, Allocator.readersOf_eq hn, hone]
    · have hsame : u.alloc.readersOf m = s.alloc.readersOf m := by unfold Allocator.readersOf; rw [hothers m hmn]
      rw [hsame]; exact hreaders m hm hmn
  obtain ⟨-, hid⟩ := Catalogue.mem_of_edition he
  have hready : u.retireReady e = true := State.retireReady_iff.mpr ⟨hretiring, hzero, by rw [hengine, hid]; exact hjobs⟩
  have hue : u.cat.edition ed = some e := by rw [hcat]; exact he
  obtain ⟨hgone, hkept⟩ := State.dissolve_edition e u
  rw [hid] at hgone hkept
  refine ⟨u.dissolve e, ?_, ?_, hgone, fun other ho => (hkept other ho).trans (by rw [hcat]), fun m hm y hy hlive => ?_⟩
  · rw [State.readerEnd_last hx hone hstate howner, ← hu, State.retireCheck_ready hue hready, if_pos hreplied]
  · have hframe := State.dissolve_frame e u
    have hall := congrArg (fun v : State => ({ v with cat := (u.dissolve e).cat, alloc := (u.dissolve e).alloc } : State)) huframe
    exact hframe.trans hall
  · refine State.dissolve_extent (by rw [hcat]; exact hd) hue hm fun z hz => ?_
    have hreader := hzero m hm
    rw [Allocator.readersOf_eq hz] at hreader
    refine ⟨?_, hreader⟩
    by_cases hmn : m = n
    · subst hmn
      obtain rfl := Option.some.inj (hn.symm.trans hz)
      obtain rfl := Option.some.inj (hx.symm.trans hy)
      exact hlive
    · rw [hothers m hmn, hy] at hz
      exact Option.some.inj hz ▸ hlive

/-! ## The edition stays RETIRING, or is gone -/

/-- The edition of an id is RETIRING when there is one. -/
def State.RetiringOrGone (id : Nat) (s : State) : Prop := ∀ e, s.cat.edition id = some e → e.state = .retiring

theorem State.RetiringOrGone.of_cat (h : s.RetiringOrGone id) (hc : t.cat = s.cat) : t.RetiringOrGone id := by
  intro e he
  rw [hc] at he
  exact h e he

theorem State.dissolve_retiring (h : s.RetiringOrGone id) (e : Edition) : (s.dissolve e).RetiringOrGone id := by
  obtain ⟨hgone, hkept⟩ := State.dissolve_edition e s
  intro x hx
  by_cases hid : id = e.id
  · rw [hid, hgone] at hx; cases hx
  · rw [hkept id hid] at hx; exact h x hx

theorem State.retireCheck_retiring (h : s.RetiringOrGone id) (ed : Nat) : (s.retireCheck ed).RetiringOrGone id := by
  unfold State.retireCheck
  split
  · exact h
  next e _ =>
    split
    · dsimp only
      split
      · exact (State.dissolve_retiring h e).of_cat (State.raise_cat _ _)
      · exact State.dissolve_retiring h e
    · exact h

theorem State.readerEnd_retiring (h : s.RetiringOrGone id) (n : Nat) : (s.readerEnd n).RetiringOrGone id := by
  have hcounted : (s.modAlloc (·.modExtent n fun e => { e with readers := e.readers - 1 })).RetiringOrGone id := h
  unfold State.readerEnd
  repeat' split
  all_goals first
    | exact h
    | exact State.retireCheck_retiring hcounted _

theorem State.endJob_retiring (final : JobState) (cause : JobEnd) (refusal : Option AllocRefusal) (h : s.RetiringOrGone id) :
    (s.endJob final cause refusal j).RetiringOrGone id := by
  have hended : ∀ w : State, w.cat = s.cat → (((w.modEngine fun g =>
      { g with queue := g.queue.filter (·.id ≠ j.id) }).jobReaderEnd j).downgradeItems j.requesters).RetiringOrGone id := fun w hw => by
    have hleft : (w.modEngine fun g => { g with queue := g.queue.filter (·.id ≠ j.id) }).RetiringOrGone id := h.of_cat hw
    refine State.RetiringOrGone.of_cat ?_ ((State.downgradeItems_within _).cat (by decide))
    unfold State.jobReaderEnd
    repeat' split
    · exact State.readerEnd_retiring hleft _
    · exact hleft
    · exact hleft
  have hfreed : (match j.scratch with
      | some n => s.modAlloc (·.release n)
      | none => s).cat = s.cat := by
    split <;> rfl
  unfold State.endJob
  dsimp only
  split
  · split
    · exact (hended _ hfreed).of_cat rfl
    · exact ((hended _ hfreed).of_cat (State.raise_cat _ _)).of_cat rfl
  · exact hended _ hfreed

theorem State.cancelJob_retiring (cause : CancelCause) (h : s.RetiringOrGone id) : (s.cancelJob cause j).RetiringOrGone id := by
  unfold State.cancelJob
  split
  · exact State.endJob_retiring _ _ _ h
  · split
    · exact h
    · have hwithdrawn : (s.modStore (Store.withdraw .restoration)).RetiringOrGone id := h
      exact (State.endJob_retiring _ _ _ hwithdrawn).of_cat (State.startJobs_rebuilt _ _).cat

theorem State.closeIfDone_retiring (h : s.RetiringOrGone id) (ed : Nat) : (s.closeIfDone ed).RetiringOrGone id := by
  intro x hx
  cases he : s.cat.edition ed with
  | none => rw [State.closeIfDone_none he] at hx; exact h x hx
  | some e =>
    by_cases hc : e.closes
    · by_cases hid : id = ed
      · subst hid
        exact absurd (h e he) (by rw [hc.1]; decide)
      · rw [State.closeIfDone_closing he hc, State.raise_cat] at hx
        have hother := Catalogue.edition_modEdition_other s.cat ed id (fun e => { e with state := .closed }) (by intro _; rfl) hid
        exact h x (hother.symm.trans hx)
    · rw [State.closeIfDone_other he hc] at hx; exact h x hx

theorem State.removeTarget_retiring (h : s.RetiringOrGone id) (target : Target) : (s.removeTarget target).RetiringOrGone id := by
  cases target with
  | page r =>
    refine State.closeIfDone_retiring ?_ _
    intro x hx
    cases hv : s.cat.revision r with
    | none => rw [State.removeRevision_none hv] at hx; exact h x hx
    | some v =>
      rw [State.removeRevision_eq hv] at hx
      have hx' : (s.cat.without r v).edition id = some x := hx
      by_cases hid : id = r.edition
      · subst hid
        obtain ⟨e, he⟩ := Catalogue.edition_of_revision hv
        rw [Catalogue.edition_without he] at hx'
        obtain rfl := Option.some.inj hx'
        exact h e he
      · rw [Catalogue.edition_without_other hid] at hx'
        exact h x hx'
  | photo p =>
    intro x hx
    have hsame : (s.removePhoto p).cat.edition id = s.cat.edition id := by
      cases hp : s.cat.photo p with
      | none => simp only [State.removePhoto, hp]
      | some q => rw [State.removePhoto_eq hp]; rfl
    exact h x (hsame.symm.trans hx)

theorem State.retireDeposit_retiring (h : s.RetiringOrGone id) (n : Nat) : (s.retireDeposit n).RetiringOrGone id := by
  refine State.RetiringOrGone.of_cat ?_ (State.raise_cat _ _)
  unfold State.abortHandle
  split
  next i d _ =>
    have hcat : (s.abortDeposit i d (some .retired)).cat = (s.removeTarget d.target).cat := by
      show ((s.removeTarget d.target).dropBuffered d.handle).cat = _
      exact (State.dropBuffered_within d.handle).cat (by decide)
    exact (State.removeTarget_retiring h d.target).of_cat hcat
  next => exact h

theorem State.retireJob_retiring (h : s.RetiringOrGone id) (n : Nat) : (s.retireJob n).RetiringOrGone id := by
  unfold State.retireJob
  split
  · exact State.cancelJob_retiring _ h
  · exact h

/-! ## The open deposits (R42 step 2) -/

/-- The deposits of a list of handles are retired in order. -/
def State.retireDeposits (hs : List Nat) (s : State) : State := hs.foldl State.retireDeposit s

theorem State.retireDeposits_cons (n : Nat) (hs : List Nat) (s : State) :
    s.retireDeposits (n :: hs) = (s.retireDeposit n).retireDeposits hs := rfl

theorem State.retireDeposits_within (hs : List Nat) (s : State) : s.Within abortable (s.retireDeposits hs) :=
  foldl_within (fun _ n => State.retireDeposit_within n) hs s

/-- One retired deposit: its slot is FREE and its entry the newest, or no slot has the handle. -/
theorem State.retireDeposit_port (n : Nat) (s : State) :
    (∃ k d, s.port.slots.get k = some d ∧ d.handle = n ∧ (s.retireDeposit n).port.slots = s.port.slots.set k none ∧
      (s.retireDeposit n).port.ended = (s.port.addEnded (d.toEnded .retired)).ended) ∨
    s.port.find n = none ∧ (s.retireDeposit n).port = s.port := by
  have hraise : (s.retireDeposit n).port = (s.abortHandle (some .retired) n).port := (State.raise_within .depositAborted).port (by decide)
  rw [hraise]
  unfold State.abortHandle
  split
  next k d hf =>
    obtain ⟨hk, hd⟩ := DepositPort.find_some hf
    exact .inl ⟨k, d, hk, hd, State.abortDeposit_port k d (some .retired) s⟩
  next hf => exact .inr ⟨hf, rfl⟩

/-- Under distinct handles a handle has one slot. -/
theorem DepositPort.slot_of_handle {p : DepositPort} (hnodup : (p.occupants.map (·.handle)).Nodup) {i k : Fin 4} {d d' : Deposit}
    (hi : p.slots.get i = some d) (hk : p.slots.get k = some d') (h : d.handle = d'.handle) : i = k := by
  by_contra hik
  have hperm := (DepositPort.occupants_free hk).map (·.handle)
  have hmem : d ∈ (p.setSlot k none).occupants := DepositPort.mem_occupants.mpr
    ⟨i, (Four.get_set_other _ _ _ _ hik).trans hi⟩
  exact (List.nodup_cons.mp (hperm.nodup_iff.mp hnodup)).1 (List.mem_map.mpr ⟨d, hmem, h⟩)

theorem DepositPort.occupants_of_slots {p q : DepositPort} (h : p.slots = q.slots) : p.occupants = q.occupants := by
  rw [DepositPort.occupants_eq, DepositPort.occupants_eq, h]

/-- The slots of the retired deposits are FREE, and every other slot stays. -/
theorem State.retireDeposits_slots {hs : List Nat} (hnodup : (s.port.occupants.map (·.handle)).Nodup) {i : Fin 4}
    (hi : s.port.slots.get i = some d) :
    (s.retireDeposits hs).port.slots.get i = if d.handle ∈ hs then none else some d := by
  have hfree : ∀ (hs : List Nat) (u : State), u.port.slots.get i = none → (u.retireDeposits hs).port.slots.get i = none := fun hs u hu => by
    refine List.foldlRecOn (motive := fun v : State => v.port.slots.get i = none) hs _ hu fun v hv n _ => ?_
    obtain ⟨k, d', hk, -, hslots, -⟩ | ⟨-, hport⟩ := State.retireDeposit_port n v
    · rw [hslots]
      by_cases hik : i = k
      · rw [hik]; exact Four.get_set_same _ _ _
      · rw [Four.get_set_other _ _ _ _ hik]; exact hv
    · rw [hport]; exact hv
  induction hs generalizing s with
  | nil => exact hi.trans (if_neg List.not_mem_nil).symm
  | cons n hs ih =>
    rw [State.retireDeposits_cons]
    obtain ⟨k, d', hk, hd', hslots, -⟩ | ⟨hnone, hport⟩ := State.retireDeposit_port n s
    · by_cases hik : i = k
      · subst hik
        obtain rfl := Option.some.inj (hi.symm.trans hk)
        rw [if_pos (by rw [hd']; exact List.mem_cons_self)]
        exact hfree hs _ (by rw [hslots]; exact Four.get_set_same _ _ _)
      · have hne : d.handle ≠ n := fun h => hik (DepositPort.slot_of_handle hnodup hi hk (h.trans hd'.symm))
        have hocc : (s.retireDeposit n).port.occupants = (s.port.setSlot k none).occupants := DepositPort.occupants_of_slots hslots
        have hperm := (DepositPort.occupants_free hk).map (·.handle)
        have hnext := ih (s := s.retireDeposit n) (by rw [hocc]; exact (List.nodup_cons.mp (hperm.nodup_iff.mp hnodup)).2)
          (by rw [hslots]; exact (Four.get_set_other _ _ _ _ hik).trans hi)
        rw [hnext]
        simp only [List.mem_cons, hne, false_or]
    · have hne : d.handle ≠ n := fun h => by
        obtain ⟨_, _, hsome⟩ := DepositPort.find_handle (p := s.port) (h := n)
          (List.mem_map.mpr ⟨d, DepositPort.mem_occupants.mpr ⟨i, hi⟩, h⟩)
        rw [hnone] at hsome; cases hsome
      have hnext := ih (s := s.retireDeposit n) (by rw [hport]; exact hnodup) (by rw [hport]; exact hi)
      rw [hnext]
      simp only [List.mem_cons, hne, false_or]

/-- The entries of up to 8 retired deposits are all in the ended list. -/
theorem State.retireDeposits_ended {hs : List Nat} {xs es : List EndedDeposit}
    (hnodup : (s.port.occupants.map (·.handle)).Nodup) (hended : s.port.ended = xs ++ es) (hlen : es.length + hs.length ≤ 8) :
    (∀ z ∈ es, z ∈ (s.retireDeposits hs).port.ended) ∧
    ∀ i d, s.port.slots.get i = some d → d.handle ∈ hs → d.toEnded .retired ∈ (s.retireDeposits hs).port.ended := by
  induction hs generalizing s xs es with
  | nil =>
    refine ⟨fun z hz => ?_, fun _ _ _ h => absurd h List.not_mem_nil⟩
    show z ∈ s.port.ended
    rw [hended]
    exact List.mem_append_right xs hz
  | cons n hs ih =>
    rw [State.retireDeposits_cons]
    rw [List.length_cons] at hlen
    obtain ⟨k, d', hk, hd', hslots, hadded⟩ | ⟨hnone, hport⟩ := State.retireDeposit_port n s
    · obtain ⟨xs', hxs'⟩ : ∃ xs', (s.retireDeposit n).port.ended = xs' ++ (es ++ [d'.toEnded .retired]) := by
        rw [hadded, DepositPort.addEnded, hended]
        dsimp only
        split
        next hfull =>
          cases xs with
          | nil => rw [List.nil_append] at hfull; omega
          | cons w ws => exact ⟨ws, by simp⟩
        next => exact ⟨xs, by rw [List.append_assoc]⟩
      have hocc : (s.retireDeposit n).port.occupants = (s.port.setSlot k none).occupants := DepositPort.occupants_of_slots hslots
      have hperm := (DepositPort.occupants_free hk).map (·.handle)
      obtain ⟨hold, hnew⟩ := ih (s := s.retireDeposit n) (by rw [hocc]; exact (List.nodup_cons.mp (hperm.nodup_iff.mp hnodup)).2)
        hxs' (by simp; omega)
      refine ⟨fun z hz => hold z (List.mem_append_left _ hz), fun i d hi hmem => ?_⟩
      by_cases hik : i = k
      · subst hik
        obtain rfl := Option.some.inj (hi.symm.trans hk)
        exact hold _ (List.mem_append_right _ (List.mem_singleton.mpr rfl))
      · have hne : d.handle ≠ n := fun h => hik (DepositPort.slot_of_handle hnodup hi hk (h.trans hd'.symm))
        exact hnew i d (by rw [hslots]; exact (Four.get_set_other _ _ _ _ hik).trans hi) ((List.mem_cons.mp hmem).resolve_left hne)
    · obtain ⟨hold, hnew⟩ := ih (s := s.retireDeposit n) (by rw [hport]; exact hnodup) (by rw [hport]; exact hended) (by omega)
      refine ⟨hold, fun i d hi hmem => ?_⟩
      have hne : d.handle ≠ n := fun h => by
        obtain ⟨_, _, hsome⟩ := DepositPort.find_handle (p := s.port) (h := n)
          (List.mem_map.mpr ⟨d, DepositPort.mem_occupants.mpr ⟨i, hi⟩, h⟩)
        rw [hnone] at hsome; cases hsome
      exact hnew i d (by rw [hport]; exact hi) ((List.mem_cons.mp hmem).resolve_left hne)

/-- DEPOSIT_ABORTED is pending after a retired deposit. -/
theorem State.retireDeposits_latched {hs : List Nat} (hne : hs ≠ []) {src : Source}
    (hsrc : s.production.notices.sources[1]? = some src) :
    ((s.retireDeposits hs).production.notices.sources[1]?).map (·.latched) = some true := by
  obtain ⟨n, rest, rfl⟩ := List.exists_cons_of_ne_nil hne
  rw [State.retireDeposits_cons]
  obtain ⟨b, habort⟩ := (State.abortHandle_within (some .retired) n (s := s)).latches (by decide) .production 1 src hsrc
  have hraised : (s.retireDeposit n).production.notices.sources[1]? = some { src with latched := true } := by
    have hsame := State.raise_source_same .depositAborted (s.abortHandle (some .retired) n)
    refine hsame.trans ?_
    exact congrArg (Option.map fun src : Source => { src with latched := true }) habort
  obtain ⟨b', hlast⟩ := (State.retireDeposits_within rest (s.retireDeposit n)).latches (by decide) .production 1 _ hraised
  exact (congrArg (Option.map (·.latched)) hlast).trans rfl

theorem insertByPage_perm (z : Nat × Nat) (xs : List (Nat × Nat)) : (insertByPage z xs).Perm (z :: xs) := by
  induction xs with
  | nil => exact .refl _
  | cons w ws ih =>
    rw [insertByPage]
    split
    · exact .refl _
    · exact (ih.cons w).trans (.swap z w ws)

theorem foldr_insertByPage_perm (xs : List (Nat × Nat)) : (xs.foldr insertByPage []).Perm xs := by
  induction xs with
  | nil => exact .refl _
  | cons z xs ih => exact (insertByPage_perm z _).trans (ih.cons z)

theorem DepositPort.mem_ofEdition {p : DepositPort} {ed n : Nat} :
    n ∈ p.ofEdition ed ↔ ∃ d ∈ p.occupants, d.handle = n ∧ ∃ r, d.target = .page r ∧ r.edition = ed := by
  have hpage : ∀ (d : Deposit) pg h, Deposit.pageOf ed d = some (pg, h) ↔
      ∃ r, d.target = .page r ∧ r.edition = ed ∧ r.page = pg ∧ d.handle = h := fun d pg h => by
    unfold Deposit.pageOf
    cases d.target with
    | page r => by_cases hr : r.edition = ed <;> simp [hr]
    | photo id => simp
  unfold DepositPort.ofEdition
  rw [List.mem_map]
  constructor
  · rintro ⟨⟨pg, h⟩, hmem, rfl⟩
    obtain ⟨d, hd, hof⟩ := List.mem_filterMap.mp ((foldr_insertByPage_perm _).mem_iff.mp hmem)
    obtain ⟨r, ht, hr, -, hh⟩ := (hpage d pg h).mp hof
    exact ⟨d, hd, hh, r, ht, hr⟩
  · rintro ⟨d, hd, rfl, r, ht, hr⟩
    exact ⟨(r.page, d.handle), (foldr_insertByPage_perm _).mem_iff.mpr
      (List.mem_filterMap.mpr ⟨d, hd, (hpage d _ _).mpr ⟨r, ht, hr, rfl, rfl⟩⟩), rfl⟩

theorem DepositPort.ofEdition_length (p : DepositPort) (ed : Nat) : (p.ofEdition ed).length ≤ 4 := by
  have hocc : p.occupants.length ≤ 4 := by
    refine (List.length_filterMap_le _ _).trans ?_
    simp [DepositPort.numbered, fourIndices]
  unfold DepositPort.ofEdition
  rw [List.length_map, (foldr_insertByPage_perm _).length_eq]
  exact (List.length_filterMap_le _ _).trans hocc

end Sys2Proof.Machine
end

