-- ==== Sys2Proof/Proofs/EditionsRetired.lean ====
section
/-! PROOF. The jobs of a retired edition, and RETIRE_EDITION settled (R42 to R44). -/

namespace Sys2Proof.Machine

variable {s t u : State} {e : Edition} {j y : Job} {d : Deposit} {id n m : Nat}

/-! ## The jobs (R42 step 3) -/

/-- The jobs of a list of ids are retired in order. -/
def State.retireJobs (ids : List Nat) (s : State) : State := ids.foldl State.retireJob s

theorem State.retireJobs_cons (n : Nat) (ids : List Nat) (s : State) : s.retireJobs (n :: ids) = (s.retireJob n).retireJobs ids := rfl

theorem State.retireJobs_within (ids : List Nat) (s : State) : s.Within restorable (s.retireJobs ids) :=
  foldl_within (fun _ n => State.retireJob_within n) ids s

/-- Retired jobs that are QUEUED leave the queue, and no other job does. -/
theorem State.retireJobs_queued {ids : List Nat} (h : ∀ n ∈ ids, ∀ y ∈ s.engine.queue, y.id = n → y.state = .queued) :
    (s.retireJobs ids).engine.queue = s.engine.queue.filter fun y => y.id ∉ ids := by
  induction ids generalizing s with
  | nil => exact (List.filter_eq_self.mpr fun y _ => by simp).symm
  | cons n ids ih =>
    have hstep : (s.retireJob n).engine.queue = s.engine.queue.filter (·.id ≠ n) := by
      unfold State.retireJob
      cases hj : s.engine.find n with
      | none =>
        refine (List.filter_eq_self.mpr fun y hy => ?_).symm
        simpa using List.find?_eq_none.mp hj y hy
      | some j =>
        have hid : j.id = n := by simpa using List.find?_some hj
        have hqueued := h n List.mem_cons_self j (List.mem_of_find?_eq_some hj) hid
        rw [← hid]
        show (s.cancelJob .retired j).engine.queue = _
        rw [State.cancelJob, if_pos hqueued]
        exact (State.endJob_engine _ _ _ j s).1
    rw [State.retireJobs_cons, ih fun m hm y hy => ?_, hstep, List.filter_filter]
    · exact List.filter_congr fun y _ => by simp [Bool.and_comm]
    · rw [hstep] at hy
      exact h m (List.mem_cons_of_mem n hm) y (List.mem_filter.mp hy).1

/-- A job of a queue whose active jobs are retired in order: it is none of the jobs that have gone, and when it names the edition
it is active and is to be cancelled yet, or carries the mark RETIRED. -/
def Job.Retires (id : Nat) (gone ids : List Nat) (y : Job) : Prop :=
  y.id ∉ gone ∧ (y.revision.edition = id → y.active = true ∧ (y.id ∈ ids ∨ y.cancel = some .retired))

theorem Job.Retires.started {gone ids : List Nat} (h : j.Retires id gone ids) (settings : SurveySettings) (tone : Option Tone) (n : Nat) :
    ((j.capture settings tone).started n).Retires id gone ids := by
  obtain ⟨hgone, hnamed⟩ := h
  refine ⟨hgone, fun he => ⟨rfl, ?_⟩⟩
  obtain ⟨-, hcancel⟩ := hnamed he
  exact hcancel

theorem State.retireJob_retires {gone ids : List Nat} (h : ∀ y ∈ s.engine.queue, y.Retires id gone (n :: ids)) :
    ∀ y ∈ (s.retireJob n).engine.queue, y.Retires id gone ids := by
  have hother : ∀ y : Job, y.Retires id gone (n :: ids) → y.id ≠ n → y.Retires id gone ids := fun y ⟨hgone, hnamed⟩ hne => by
    refine ⟨hgone, fun he => ?_⟩
    obtain ⟨hactive, hcase⟩ := hnamed he
    exact ⟨hactive, hcase.imp_left fun hm => (List.mem_cons.mp hm).resolve_left hne⟩
  have hended : ∀ (w : State) (final : JobState) (cause : JobEnd) (j : Job), w.engine = s.engine → j.id = n →
      ∀ y ∈ (w.endJob final cause none j).engine.queue, y.Retires id gone ids := fun w final cause j hw hid y hy => by
    rw [(State.endJob_engine final cause none j w).1, hw, hid] at hy
    obtain ⟨hy, hne⟩ := List.mem_filter.mp hy
    exact hother y (h y hy) (by simpa using hne)
  unfold State.retireJob
  cases hj : s.engine.find n with
  | none => exact fun y hy => hother y (h y hy) (by simpa using List.find?_eq_none.mp hj y hy)
  | some j =>
    have hid : j.id = n := by simpa using List.find?_some hj
    dsimp only
    unfold State.cancelJob
    split
    · exact hended s _ _ j rfl hid
    · split
      · intro y hy
        have hy' : y ∈ (s.engine.modJob j.id (Job.mark .retired)).queue := hy
        rw [Engine.modJob_map, hid] at hy'
        obtain ⟨k, hk, rfl⟩ := List.mem_map.mp hy'
        obtain ⟨hgone, hnamed⟩ := h k hk
        split
        next =>
          refine ⟨hgone, fun he => ⟨(hnamed he).1, .inr ?_⟩⟩
          simp [Job.mark]
        next hne => exact hother k ⟨hgone, hnamed⟩ hne
      · exact (State.startJobs_engine (P := Job.Retires id gone ids) (fun _ settings tone n h => h.started settings tone n) _
          (hended (s.modStore (Store.withdraw .restoration)) _ _ (j.mark .retired) rfl hid)).1

theorem State.retireJobs_retires {gone ids : List Nat} (h : ∀ y ∈ s.engine.queue, y.Retires id gone ids) :
    ∀ y ∈ (s.retireJobs ids).engine.queue, y.Retires id gone [] := by
  induction ids generalizing s with
  | nil => exact h
  | cons n ids ih => exact ih (State.retireJob_retires h)

/-- The QUEUED jobs that name the edition are gone, and an active one that stays carries the mark RETIRED. -/
theorem State.retireJobs_of (hnodup : (s.engine.queue.map (·.id)).Nodup) (hstates : ∀ j ∈ s.engine.queue, j.state = .queued ∨ j.active = true) :
    (∀ j ∈ (s.retireJobs (s.engine.jobsOf id)).engine.queue, j.revision.edition = id → j.active = true ∧ j.cancel = some .retired) ∧
    ∀ j ∈ s.engine.queue, j.revision.edition = id → j.state = .queued →
      ∀ k ∈ (s.retireJobs (s.engine.jobsOf id)).engine.queue, k.id ≠ j.id := by
  obtain ⟨named, hnamed⟩ : ∃ named, named = s.engine.queue.filter (·.revision.edition = id) := ⟨_, rfl⟩
  obtain ⟨gone, hgone⟩ : ∃ gone, gone = (named.filter (·.state = .queued)).map (·.id) := ⟨_, rfl⟩
  obtain ⟨active, hactive⟩ : ∃ active, active = (named.filter (·.active)).map (·.id) := ⟨_, rfl⟩
  have hids : s.engine.jobsOf id = gone ++ active := by
    rw [hgone, hactive, hnamed, ← List.map_append]; rfl
  have hsplit : s.retireJobs (s.engine.jobsOf id) = (s.retireJobs gone).retireJobs active := by
    rw [hids]; exact List.foldl_append
  have hqueued : ∀ n ∈ gone, ∀ y ∈ s.engine.queue, y.id = n → y.state = .queued := fun n hn y hy hyn => by
    rw [hgone, hnamed] at hn
    obtain ⟨k, hk, hkn⟩ := List.mem_map.mp hn
    obtain ⟨hk, hstate⟩ := List.mem_filter.mp hk
    obtain rfl := List.inj_on_of_nodup_map hnodup hy (List.mem_filter.mp hk).1 (hyn.trans hkn.symm)
    simpa using hstate
  have hmem : ∀ j ∈ s.engine.queue, j.revision.edition = id → j.state = .queued → j.id ∈ gone := fun j hj he hs => by
    rw [hgone, hnamed]
    exact List.mem_map.mpr ⟨j, List.mem_filter.mpr ⟨List.mem_filter.mpr ⟨hj, by simpa using he⟩, by simpa using hs⟩, rfl⟩
  have hfirst : ∀ y ∈ (s.retireJobs gone).engine.queue, y.Retires id gone active := fun y hy => by
    rw [State.retireJobs_queued hqueued] at hy
    obtain ⟨hy, hnot⟩ := List.mem_filter.mp hy
    have hnot' : y.id ∉ gone := by simpa using hnot
    refine ⟨hnot', fun he => ?_⟩
    have hact : y.active = true := (hstates y hy).resolve_left fun hs => hnot' (hmem y hy he hs)
    refine ⟨hact, .inl ?_⟩
    rw [hactive, hnamed]
    exact List.mem_map.mpr ⟨y, List.mem_filter.mpr ⟨List.mem_filter.mpr ⟨hy, by simpa using he⟩, hact⟩, rfl⟩
  have hlast := State.retireJobs_retires hfirst
  rw [hsplit]
  refine ⟨fun y hy he => ?_, fun j hj he hs k hk hkj => ?_⟩
  · obtain ⟨hact, hcase⟩ := (hlast y hy).2 he
    exact ⟨hact, hcase.resolve_left List.not_mem_nil⟩
  · exact (hlast k hk).1 (hkj ▸ hmem j hj he hs)

/-! ## The request (R42) -/

/-- The state with the edition RETIRING, before its deposits and jobs. -/
def State.retiring (id : Nat) (s : State) : State := s.modCat (·.modEdition id fun e => { e with state := .retiring })

/-- The mark that the reply was made. -/
def State.replied (id : Nat) (s : State) : State := s.modCat (·.modEdition id fun e => { e with retireReplied := true })

theorem State.retire_eq (id : Nat) (s : State) : s.retire id =
    ((((s.retiring id).retireDeposits ((s.retiring id).port.ofEdition id)).retireJobs
      (((s.retiring id).retireDeposits ((s.retiring id).port.ofEdition id)).engine.jobsOf id)).retireCheck id).replied id := rfl

theorem State.retiring_edition (he : s.cat.edition id = some e) :
    (s.retiring id).cat.edition id = some { e with state := .retiring } ∧
    ∀ other, other ≠ id → (s.retiring id).cat.edition other = s.cat.edition other :=
  ⟨Catalogue.edition_modEdition_some (by intro _; rfl) he,
    fun _ ho => Catalogue.edition_modEdition_other _ _ _ _ (by intro _; rfl) ho⟩

theorem State.replied_retiring (h : s.RetiringOrGone id) : (s.replied id).RetiringOrGone id := by
  intro x hx
  have hsame := Catalogue.edition_modEdition_same s.cat id (fun e => { e with retireReplied := true }) (by intro _; rfl)
  have hx' := hsame.symm.trans hx
  obtain ⟨y, hy, rfl⟩ := Option.map_eq_some_iff.mp hx'
  exact h y hy

/-- The edition is RETIRING, or gone, when the request has been carried out. -/
theorem State.retire_retiring (he : s.cat.edition id = some e) : (s.retire id).RetiringOrGone id := by
  have hstart : (s.retiring id).RetiringOrGone id := fun x hx => by
    rw [(State.retiring_edition he).1] at hx
    exact Option.some.inj hx ▸ rfl
  have hdeposits : ∀ hs : List Nat, ((s.retiring id).retireDeposits hs).RetiringOrGone id := fun hs =>
    List.foldlRecOn (motive := fun u : State => u.RetiringOrGone id) hs _ hstart fun _ hu n _ => State.retireDeposit_retiring hu n
  have hjobs : ∀ (ids : List Nat) (w : State), w.RetiringOrGone id → (w.retireJobs ids).RetiringOrGone id := fun ids w hw =>
    List.foldlRecOn (motive := fun u : State => u.RetiringOrGone id) ids _ hw fun _ hu n _ => State.retireJob_retiring hu n
  rw [State.retire_eq]
  exact State.replied_retiring (State.retireCheck_retiring (hjobs _ _ (hdeposits _)) id)

/-- Latches that are set stay set when only latches are set. -/
theorem State.Within.latched {R : List Part} (h : s.Within R t) (hn : .marks ∉ R) {src : Source}
    (hsrc : s.production.notices.sources[m]? = some src) (hl : src.latched = true) :
    (t.production.notices.sources[m]?).map (·.latched) = some true := by
  obtain ⟨b, hlast⟩ := h.latches hn .production m src hsrc
  refine (congrArg (Option.map (·.latched)) hlast).trans ?_
  simp [hl]

/-- The deposit port stands as the retired deposits left it, and DEPOSIT_ABORTED stays pending. -/
theorem State.retire_port (id : Nat) (s : State) :
    (s.retire id).port = ((s.retiring id).retireDeposits (s.port.ofEdition id)).port ∧
    ∀ src, ((s.retiring id).retireDeposits (s.port.ofEdition id)).production.notices.sources[1]? = some src → src.latched = true →
      ((s.retire id).production.notices.sources[1]?).map (·.latched) = some true := by
  obtain ⟨u, hu⟩ : ∃ u, u = (s.retiring id).retireDeposits (s.port.ofEdition id) := ⟨_, rfl⟩
  have hretire : s.retire id = ((u.retireJobs (u.engine.jobsOf id)).retireCheck id).replied id := by rw [hu]; rfl
  have hwithin : u.Within restorable (s.retire id) := by
    rw [hretire]
    exact ((State.retireJobs_within _ u).step (State.retireCheck_within id) rfl).step (State.modCat_within _) rfl
  rw [← hu]
  exact ⟨hwithin.port (by decide), fun _ hsrc hlatched => hwithin.latched (by decide) hsrc hlatched⟩

theorem State.retire_engine (id : Nat) (s : State) : (s.retire id).engine =
    (((s.retiring id).retireDeposits (s.port.ofEdition id)).retireJobs (s.engine.jobsOf id)).engine := by
  obtain ⟨u, hu⟩ : ∃ u, u = (s.retiring id).retireDeposits (s.port.ofEdition id) := ⟨_, rfl⟩
  have hretire : s.retire id = ((u.retireJobs (u.engine.jobsOf id)).retireCheck id).replied id := by rw [hu]; rfl
  have hengine : u.engine = s.engine := hu ▸ (State.retireDeposits_within _ _).engine (by decide)
  rw [hretire, hengine, ← hu]
  exact ((State.retireCheck_within id).step (State.modCat_within _) rfl : (u.retireJobs (s.engine.jobsOf id)).Within
    [.catalogue, .allocator, .notices .production] _).engine (by decide)

/-- With no open deposit into the edition and no job that names it, only the completion check is left. -/
theorem State.retire_alone (hdeposits : s.port.ofEdition id = []) (hjobs : ∀ j ∈ s.engine.queue, j.revision.edition ≠ id) :
    s.retire id = ((s.retiring id).retireCheck id).replied id := by
  have hnone : s.engine.jobsOf id = [] := by
    have hnamed : s.engine.queue.filter (·.revision.edition = id) = [] :=
      List.filter_eq_nil_iff.mpr fun j hj => by simpa using hjobs j hj
    unfold Engine.jobsOf
    simp only [hnamed]
    rfl
  have hport : (s.retiring id).port.ofEdition id = [] := hdeposits
  rw [State.retire_eq, hport]
  show ((((s.retiring id).retireJobs (s.engine.jobsOf id)).retireCheck id).replied id) = _
  rw [hnone]
  rfl

theorem State.retire_at_once (he : s.cat.edition id = some e) (hreplied : e.retireReplied = false)
    (hdeposits : s.port.ofEdition id = []) (hjobs : ∀ j ∈ s.engine.queue, j.revision.edition ≠ id)
    (hreaders : ∀ n ∈ e.extents, s.alloc.readersOf n = 0) :
    (s.retire id).cat.edition id = none ∧ s.retire id = { s with cat := (s.retire id).cat, alloc := (s.retire id).alloc } ∧
    ∀ other, other ≠ id → (s.retire id).cat.edition other = s.cat.edition other := by
  obtain ⟨hu, huothers⟩ := State.retiring_edition he
  obtain rfl := (Catalogue.mem_of_edition he).2
  have hready : (s.retiring e.id).retireReady { e with state := .retiring } = true :=
    State.retireReady_iff.mpr ⟨rfl, hreaders, hjobs⟩
  have hcheck := State.retireCheck_ready hu hready
  rw [if_neg (by simp [hreplied])] at hcheck
  obtain ⟨hgone, hkept⟩ := State.dissolve_edition { e with state := .retiring } (s.retiring e.id)
  obtain ⟨w, hw⟩ : ∃ w, w = (s.retiring e.id).dissolve { e with state := .retiring } := ⟨_, rfl⟩
  have hwframe : w = { s with cat := w.cat, alloc := w.alloc } := by
    rw [hw]; exact State.dissolve_frame _ _
  have hretire : s.retire e.id = w.replied e.id := by rw [State.retire_alone hdeposits hjobs, hcheck, hw]
  rw [← hw] at hgone hkept
  rw [hretire]
  refine ⟨?_, ?_, fun other ho => ?_⟩
  · have hsame := Catalogue.edition_modEdition_same w.cat e.id (fun e => { e with retireReplied := true }) (by intro _; rfl)
    exact hsame.trans (by rw [hgone]; rfl)
  · have hall := congrArg (fun v : State => ({ v with cat := (w.replied e.id).cat } : State)) hwframe
    exact hall
  · have hother := Catalogue.edition_modEdition_other w.cat e.id other (fun e => { e with retireReplied := true }) (by intro _; rfl) ho
    exact hother.trans ((hkept other ho).trans (huothers other ho))

theorem State.retire_waits (he : s.cat.edition id = some e) (hdeposits : s.port.ofEdition id = [])
    (hjobs : ∀ j ∈ s.engine.queue, j.revision.edition ≠ id) (hreaders : ∃ n ∈ e.extents, s.alloc.readersOf n ≠ 0) :
    s.retire id = { s with cat := { s.cat with editions := (s.retire id).cat.editions } } ∧
    (s.retire id).cat.edition id = some { e with state := .retiring, retireReplied := true } ∧
    ∀ other, other ≠ id → (s.retire id).cat.edition other = s.cat.edition other := by
  obtain ⟨hu, huothers⟩ := State.retiring_edition he
  have hwaits : (s.retiring id).retireReady { e with state := .retiring } ≠ true := fun hready => by
    obtain ⟨-, hall, -⟩ := State.retireReady_iff.mp hready
    obtain ⟨n, hn, hread⟩ := hreaders
    exact hread (hall n hn)
  have hretire : s.retire id = (s.retiring id).replied id := by
    rw [State.retire_alone hdeposits hjobs, State.retireCheck_waits hu hwaits]
  rw [hretire]
  refine ⟨rfl, Catalogue.edition_modEdition_some (c := (s.retiring id).cat) (by intro _; rfl) hu, fun other ho => ?_⟩
  have hother := Catalogue.edition_modEdition_other (s.retiring id).cat id other (fun e => { e with retireReplied := true })
    (by intro _; rfl) ho
  exact hother.trans (huothers other ho)

/-- The checks of RETIRE_EDITION pass. -/
theorem State.checkRetire_passed (he : s.cat.edition id = some e) (hs : e.state ≠ .retiring)
    (hp : ∀ p ∈ e.pages, ∀ v ∈ p.revs, v.pins = 0) : s.checkRetire id = .ok () := by
  have hpinned : e.pinned = false := by
    simp only [Edition.pinned, List.any_eq_false, Bool.not_eq_true]
    intro p hpage v hv
    simp [hp p hpage v hv]
  simp only [State.checkRetire, he, if_neg hs, hpinned, Bool.false_eq_true, if_false]

/-- Settles O25. -/
theorem retireEdition : Obligations.RetireEdition := by
  unfold Obligations.RetireEdition
  refine ⟨fun s n x hx => ⟨fun hcounts => ?_, fun ed e hone hstate howner hd he hretiring hreplied hreaders hjobs =>
    State.readerEnd_retires hx hone hstate howner hd he hretiring hreplied hreaders hjobs⟩, ?_⟩
  · rw [State.readerEnd_counts hx hcounts]
    exact ⟨rfl, Allocator.modExtent_rewritten hx (by intro _; rfl)⟩
  · intro tag ps fs id e s s₁ ht hid he hstate hreplied hpins
    have hcat : s₁.cat = s.cat := ht.cat
    have hport : s₁.port = s.port := ht.port
    have hengine : s₁.engine = s.engine := ht.engine
    have halloc : s₁.alloc = s.alloc := ht.alloc
    have he₁ : s₁.cat.edition id = some e := by rw [hcat]; exact he
    have hbody : bodyOfCommand (.retireEdition .production tag ps) fs s₁ =
        (Answer.ok [.one (if ((s₁.retire id).cat.edition id).isSome then 0 else 1)], s₁.retire id) := by
      simp only [bodyOfCommand, retireEditionBody, hid, required, State.checkRetire_passed he₁ hstate hpins]
      rfl
    have hexec := exec_takenDeposit (.retireEdition .production tag ps) rfl rfl rfl ht hbody
    refine ⟨s₁.retire id, hexec, State.retire_retiring he₁, fun hnodup i d hi => ?_, fun hnodup hstates => ?_,
      fun hdeposits hjobs => ⟨fun hreaders => ?_, fun hreaders => ?_⟩⟩
    · obtain ⟨hslots, hlatched⟩ := State.retire_port id s₁
      have hnodup₁ : ((s₁.retiring id).port.occupants.map (·.handle)).Nodup := hport.symm ▸ hnodup
      have hi₁ : (s₁.retiring id).port.slots.get i = some d := hport.symm ▸ hi
      have hslot := State.retireDeposits_slots (hs := s₁.port.ofEdition id) hnodup₁ hi₁
      rw [hslots, hslot]
      refine ⟨fun r hr hed => ?_, fun hother => if_neg fun hmem => ?_⟩
      · have hmem : d.handle ∈ s₁.port.ofEdition id := by
          rw [hport]
          exact DepositPort.mem_ofEdition.mpr ⟨d, DepositPort.mem_occupants.mpr ⟨i, hi⟩, rfl, r, hr, hed⟩
        have hlen := s₁.port.ofEdition_length id
        obtain ⟨-, hended⟩ := State.retireDeposits_ended (s := s₁.retiring id) (hs := s₁.port.ofEdition id) (xs := s₁.port.ended)
          (es := []) hnodup₁ (List.append_nil _).symm (by simp; omega)
        refine ⟨if_pos hmem, hended i d hi₁ hmem, fun src hsrc => ?_⟩
        have hsrc₁ : (s₁.retiring id).production.notices.sources[1]? = some src := by
          rw [← hsrc]
          exact congrArg (fun c : Controller => c.sources[1]?) (ht.notices .production)
        obtain ⟨src', hsrc', hon⟩ := Option.map_eq_some_iff.mp (State.retireDeposits_latched (List.ne_nil_of_mem hmem) hsrc₁)
        exact hlatched src' hsrc' hon
      · rw [hport] at hmem
        obtain ⟨d', hd', hhandle, r, hr, hed⟩ := DepositPort.mem_ofEdition.mp hmem
        obtain rfl := List.inj_on_of_nodup_map hnodup hd' (DepositPort.mem_occupants.mpr ⟨i, hi⟩) hhandle
        exact hother r hr hed
    · have hleft : ((s₁.retiring id).retireDeposits (s₁.port.ofEdition id)).engine = s.engine :=
        ((State.retireDeposits_within _ _).engine (by decide)).trans hengine
      rw [State.retire_engine, hengine, ← hleft]
      rw [← hleft] at hnodup hstates
      exact State.retireJobs_of hnodup hstates
    · have hdone := State.retire_at_once he₁ hreplied (by rw [hport]; exact hdeposits) (by rw [hengine]; exact hjobs)
        (by rw [halloc]; exact hreaders)
      rwa [hcat] at hdone
    · have hwaits := State.retire_waits he₁ (by rw [hport]; exact hdeposits) (by rw [hengine]; exact hjobs)
        (by rw [halloc]; exact hreaders)
      rwa [hcat] at hwaits

end Sys2Proof.Machine
end
